-- ==== Sys2Proof/Word.lean ====
section
/-! DEFINITION. The words the part's wires and records carry: bytes, trunk nodes, office addresses. -/

namespace Sys2Proof

/-- One byte on a wire, in a payload or in the serial memory. -/
abbrev Byte := BitVec 8

/-- A one-byte trunk node number (00_scope.md, 'trunk's one-byte node numbers'). -/
abbrev Node := BitVec 8

/-- A 16-bit office address. -/
abbrev Address := BitVec 16

end Sys2Proof
end

