-- ==== Sys2Proof/Config.lean ====
section
/-! DEFINITION. What the part fixes, and the one free value of the model. -/

namespace Sys2Proof.Config

/-- Blocks in the pool (R33). -/
def poolBlocks : Nat := 1024

/-- Bytes in a block (R33). -/
def blockBytes : Nat := 128

/-- Entries an egress queue holds at most (R41). -/
def queueEntries : Nat := 64

/-- Index positions of the directory (R52). -/
def directoryPositions : Nat := 256

/-- Slots of the job table (R100). -/
def jobSlots : Nat := 48

/-- Records of the unknown-destination log (R96). -/
def unknownRecords : Nat := 16

/-- Steps of the sweep list (R175). -/
def sweepSteps : Nat := 32

/-- Requests the request queue holds (R186). -/
def requestPlaces : Nat := 4

/-- Longest payload of a trunk frame (R2). -/
def trunkPayload : Nat := 1010

/-- Longest payload of an office frame (R22). -/
def officePayload : Nat := 1472

/-- Bytes of the serial memory (R194). -/
def serialBytes : Nat := 8192

/-- What a byte of the serial memory that nothing has written reads as. DESIGN CHOICE, unsafe: the
spec does not say (log entry 5). -/
def serialBlank : Byte := 0xFF

/-- The upper bound of every counter of the management block (R16). -/
def counterMax : Nat := 4294967295

/-- FREE VALUE. Where two works inside one step meet and the spec leaves their order open (R139, R167),
the `n`-th such choice of a run is `freeChoice n`. It has no body: no proof can see which order
it names (log entry 4, safe). -/
opaque freeChoice : Nat → Bool

end Sys2Proof.Config
end

