-- ==== Sys2Proof/Syntax.lean ====
section
/-! DEFINITION. The commands: one constructor for each row of spec/opcode_table.json, with the names of
the ports, lines and levels they carry. -/

namespace Sys2Proof

/-- A trunk segment port: TA or TB. -/
inductive Seg where
  | a
  | b
deriving DecidableEq, Repr

/-- A pair link: L0 to L3. -/
inductive Link where
  | l0
  | l1
  | l2
  | l3
deriving DecidableEq, Repr

/-- A line interface: LI0 carries L0 and L1, LI1 carries L2 and L3. -/
inductive Iface where
  | li0
  | li1
deriving DecidableEq, Repr

/-- A printer line: LP1 or LP2. -/
inductive Line where
  | lp1
  | lp2
deriving DecidableEq, Repr

/-- A traffic port. -/
inductive Port where
  | seg (x : Seg)
  | link (l : Link)
deriving DecidableEq, Repr

/-- How the read of the start image ended (R194). Whether a read that reached its end matches its check
word is decided by the bytes of the serial memory. -/
inductive ImageRead where
  /-- the memory gave no acknowledge at its address -/
  | noAcknowledge
  /-- the memory answered and a later transfer failed -/
  | transferFailed
  /-- every byte the load reads was read -/
  | allRead
deriving DecidableEq, Repr

/-- How the write of the start image ended (R195). -/
inductive ImageWrite where
  /-- every part written and compared equal -/
  | written
  /-- no acknowledge, or a part read back differs, after `bytes` bytes had been written -/
  | failed (bytes : Nat)
deriving DecidableEq, Repr

/-- The entry-record bytes a SET-STATION edit reads (R200): index FFh names any free index, a trunk node
of 0 or an office address of 0 is a key the edit does not give, home is a port code. -/
structure StationEdit where
  index : Byte
  trunk : Node
  office : Address
  home : Byte
  pinned : Bool
  manager : Bool
  print : Bool
deriving DecidableEq, Repr

/-- The entry-record bytes a SET-ALIAS edit reads (R200). -/
structure AliasEdit where
  index : Byte
  trunk : Node
  office : Address
  target : Byte
  level : Byte
deriving DecidableEq, Repr

/-- The commands of the part. Requests carry no operand: each takes the request at the head of the
management block's queue, whose payload holds its parameters (log entry 2). -/
inductive Instr where
  | powerOn
  | resetAssert
  | resetRelease
  | imageLoadEnd (r : ImageRead)
  | carrierRise (x : Seg)
  | coaxByte (x : Seg) (b : Byte)
  | carrierFall (x : Seg)
  | segmentTakeFrame (x : Seg)
  | deferQuiet (x : Seg)
  | segmentSent (x : Seg)
  | collision (x : Seg)
  | retryWaitExpiry (x : Seg)
  | stuck (x : Seg)
  | stuckHeld (x : Seg)
  | unterminated (x : Seg)
  | signalPresent (l : Link)
  | signalLost (l : Link)
  | retrainPauseExpiry (l : Link)
  | trained (l : Link)
  | trainingTimeout (l : Link)
  | frameStart (l : Link)
  | linkByte (l : Link) (b : Byte)
  | symbolError (l : Link)
  | frameEnd (l : Link)
  | linkTakeFrame (l : Link)
  | linkSent (l : Link)
  | gapExpiry (l : Link)
  | clockLoss (i : Iface)
  | clockHoldExpiry (i : Iface)
  | takeFrame (p : Port) (commission : Bool)
  | arrivalTimeout
  | aging
  | setStation (e : StationEdit)
  | setAlias (e : AliasEdit)
  | delete (index : Byte)
  | setRights (index : Byte) (manager print : Bool)
  | release (index : Byte)
  | quarantine (index : Byte)
  | purgeLearned
  | readEntries
  | findEntry
  | readUnknownLog
  | readJobs
  | holdJob
  | releaseJob
  | cancelJob
  | moveJob
  | flushSpool
  | ackPulse (n : Line)
  | ackTimeout (n : Line)
  | selectChange (n : Line) (level : Bool)
  | paperOutChange (n : Line) (level : Bool)
  | faultChange (n : Line) (level : Bool)
  | busyChange (n : Line) (level : Bool)
  | busyLimitExpiry (n : Line)
  | stallRetryExpiry (n : Line)
  | initPulseEnd (n : Line)
  | resetLine
  | setLine
  | resumeLine
  | rotateLine
  | peekNext
  | windowExpiry
  | minuteExpiry
  | testFrameTimer (p : Port)
  | testFrameRetry (p : Port)
  | holdTimerExpiry (p : Port)
  | setPort
  | restartPort
  | restartInterface
  | readPorts
  | intervalExpiry
  | echoTimerExpiry
  | loadSteps
  | startSweep
  | stopSweep
  | runStep
  | readSweep
  | readEvents
  | setEventMask
  | readCounters
  | readConfig
  | setConfig
  | saveImage
  | saveComplete (r : ImageWrite)
  | clearAll
  | editEntries
  | malformedRequestTaken
  | powerLoss
deriving DecidableEq, Repr

end Sys2Proof
end

