-- ==== Sys2Proof/WellFormed.lean ====
section
/-! DEFINITION. Which commands are well formed: the operand bounds that the operand types do not carry. -/

namespace Sys2Proof

/-- The longest start image: 0194h bytes and 255 static entries of 16 bytes (R203). -/
def longestImage : Nat := 0x194 + 16 * 255

/-- A command is well formed when a failed write of the image stopped before the longest image's end
(R195: a save stops at the failure), and a SET-STATION or SET-ALIAS gives at least one key (R63). The
other operands are bounded by their types. -/
def Instr.wellFormed : Instr → Bool
  | .saveComplete (.failed n) => n < longestImage
  | .setStation e => e.trunk ≠ 0 || e.office ≠ 0
  | .setAlias e => e.trunk ≠ 0 || e.office ≠ 0
  | _ => true

end Sys2Proof
end

