-- ==== Sys2Proof/Machine/State.lean ====
section
/-! DEFINITION. State as plain data: everything the spec gives the part, and the state after reset. -/

namespace Sys2Proof.Machine

/-! ### Families of like things -/

/-- One value per trunk segment. -/
structure PerSeg (α : Type) where
  a : α
  b : α
deriving DecidableEq, Repr

/-- One value per pair link. -/
structure PerLink (α : Type) where
  l0 : α
  l1 : α
  l2 : α
  l3 : α
deriving DecidableEq, Repr

/-- One value per line interface. -/
structure PerIface (α : Type) where
  li0 : α
  li1 : α
deriving DecidableEq, Repr

/-- One value per printer line. -/
structure PerLine (α : Type) where
  lp1 : α
  lp2 : α
deriving DecidableEq, Repr

/-- One value per traffic port. -/
structure PerPort (α : Type) where
  segs : PerSeg α
  links : PerLink α
deriving DecidableEq, Repr

/-- Sparse data by key, kept in rising order of its keys (directory positions, job slots, frame
records, counters). -/
abbrev Table (κ α : Type) := List (κ × α)

/-! ### Names -/

/-- The two sides of the bridge. -/
inductive Side where
  | trunk
  | pair
deriving DecidableEq, Repr

/-- An identity on either network: a trunk node or an office address (R55). -/
inductive Key where
  | node (n : Node)
  | address (a : Address)
deriving DecidableEq, Repr

/-- The sixteen event flags, in the order of their bits (R190, R199). -/
inductive Flag where
  | directoryFull
  | nodeClash
  | stationQuarantined
  | stationReleased
  | portIsolated
  | portRestored
  | portFailed
  | poolLow
  | spoolNearFull
  | spoolEmpty
  | printerStalled
  | jobAborted
  | sweepPassDone
  | sweepHalted
  | imageFault
  | unknownDest
deriving DecidableEq, Repr

/-! ### Counters -/

/-- Counters of a segment port, in the order of R16. -/
inductive SegCount where
  | good | runts | headerBad | lengthBad | bodyBad | noBuffer | sent | collisions | collisionDrops
  | stuck | unterminated
deriving DecidableEq, Repr

/-- Counters of a link, in the order of R31. -/
inductive LinkCount where
  | good | checkBad | lengthBad | symbolErrors | symbolErrorFrames | noBuffer | sent | flaps
  | trainingFailures
deriving DecidableEq, Repr

/-- Counters of a line interface, in the order of R31. -/
inductive IfaceCount where
  | restarts | clockLosses
deriving DecidableEq, Repr

/-- Counters the frame memory keeps for the part, in the order of R50. -/
inductive PoolCount where
  | ownFrameLost | spoolRefusedReserve | spoolRefusedLimit
deriving DecidableEq, Repr

/-- Counters the frame memory keeps per port, in the order of R50. -/
inductive QueueCount where
  | joined | refusedUnreachable | refusedQuarantinedSource | refusedTooLong | refusedQueueFull
  | purgedIsolation | purgedFailed | purgedOff | purgedLinkLoss | purgedRestart | purgedClearAll
  | purgedQuarantine
deriving DecidableEq, Repr

/-- Counters of the directory, in the order of R77; defends by class last. -/
inductive DirCount where
  | learned | moves | nodeClashes | aliasClashes | learnRefusedFull | agedOut | takenOver | evicted
  | purgedLearned | claimsForwarded | defendLost
  | defendReserved | defendPrinter | defendPairSide | defendOtherSegment
deriving DecidableEq, Repr

/-- Counters the forwarding engine keeps for the part, in the order of R98. -/
inductive ForwardPartCount where
  | echoMalformed | echoRepLost | unknownLogOverwritten
deriving DecidableEq, Repr

/-- Counters the forwarding engine keeps per ingress port, in the order of R98. -/
inductive ForwardCount where
  | testHanded | testDiscarded | notInService | unknownKind | trunkOnlyOnLink | misdirectedKind
  | malformedClaim | badSource | quarantinedDrop | badDestination | reservedDestination
  | toBridgeDiscarded | aliasNotPrint | handedClaim | handedManagement | handedSweep | handedSpool
  | filtered | destQuarantined | untranslatable | trunkOnlyToPair | unknownDest | echoAnswered
deriving DecidableEq, Repr

/-- Counters of the spool controller, in the order of R120. -/
inductive SpoolCount where
  | opened
  | refusedNotAllowed | refusedNoPrinter | refusedSpoolFull | refusedTableFull | refusedTagInUse
  | refusedSubmitterLimit | refusedMalformed
  | unknownJob | queued | heldOnClose | started | printed | cancelledSubmitter | cancelledManager
  | abortedGap | abortedArrivalTimeout | abortedNoSpace | abortedLengthMismatch | abortedEmpty
  | abortedRestarted | abortedFlushed | abortedQuarantine
  | statusesSent | statusLost | statusNoRoute
deriving DecidableEq, Repr

/-- Counters of a printer line, in the order of R143; stalls by cause last. -/
inductive LineCount where
  | bytesAcknowledged | ackTimeouts | busyTimeouts | strayAcks | copiesPrinted | jobsTaken | resets
  | stallOffline | stallPaperOut | stallFault | stallAckTimeout | stallBusyTimeout
deriving DecidableEq, Repr

/-- Counters the fault monitor keeps per port, in the order of R159. -/
inductive FaultPortCount where
  | requestsErrors | requestsFlapping | requestsLine | errorsWarning | flapsWarning
deriving DecidableEq, Repr

/-- Counters the fault monitor keeps for the part, in the order of R159. -/
inductive FaultCount where
  | attributedErrors | unattributable | attributedNoEntry | attributedToAlias | suspected
  | quarantineThreshold | quarantineProbation | quarantineEdit | quarantineSweep | quarantineTakeover
  | quarantineRenewed | probations | probationPassed | recovered | sweepActionNoEntry
deriving DecidableEq, Repr

/-- Counters of the isolation controller per port, in the order of R173. -/
inductive ServiceCount where
  | isolationsErrors | isolationsFlapping | isolationsLine | isolationsSweep | isolationsTest
  | requestsIgnored | testsPassed | testsFailedInternal | testsFailedExternal | testsAbandoned
  | probesPass | probesFail | testFrameLost | strayTest
deriving DecidableEq, Repr

/-- Counters of the sweep engine, in the order of R185. -/
inductive SweepCount where
  | passesDone | stepsPass | stepsFail | stepsSkipped | stepsNotRun
  | actionNote | actionMarkSuspect | actionQuarantine | actionIsolatePort | actionHalt
  | isolateNoHome | probeRequestLost | lateEcho | strayEcho
deriving DecidableEq, Repr

/-- Counters of the management block, in the order of R197. -/
inductive MgmtCount where
  | requestsAccepted | refusedNoAccept | refusedNoRight | refusedQueueFull | malformed | busyRefused
  | repliesSent | replyLost | noticesSent | noticeLost | noticeNoRoute | savesDone | savesFailed
deriving DecidableEq, Repr

/-- Every counter of the part, by the unit that counts. -/
inductive Counter where
  | seg (x : Seg) (c : SegCount)
  | link (l : Link) (c : LinkCount)
  | iface (i : Iface) (c : IfaceCount)
  | pool (c : PoolCount)
  | queue (p : Port) (c : QueueCount)
  | dir (c : DirCount)
  | forwardPart (c : ForwardPartCount)
  | forward (p : Port) (c : ForwardCount)
  | spool (c : SpoolCount)
  | line (n : Line) (c : LineCount)
  | faultPort (p : Port) (c : FaultPortCount)
  | fault (c : FaultCount)
  | service (p : Port) (c : ServiceCount)
  | sweep (c : SweepCount)
  | mgmt (c : MgmtCount)
deriving DecidableEq, Repr

/-! ### Timebase -/

/-- The phase of the timebase: milliseconds in the second and seconds in the minute (00_scope.md). -/
structure Timebase where
  ms : Nat
  sec : Nat
deriving DecidableEq, Repr

/-! ### Trunk segments (01_trunk_segments.md) -/

/-- Loop mode of a port (R15, R27). -/
inductive LoopMode where
  | normal
  | internal
  | external
deriving DecidableEq, Repr

/-- What a transmitter has taken: its queue's head, or the TEST frame in its test slot (R6, R25). -/
inductive InFlight where
  | head
  | test
deriving DecidableEq, Repr

/-- A segment reception in progress (R1, R2): the header bytes, the byte count, the frame check bytes
received, the frame record, whose payload and block count grow, and whether it is the looped-back
reception of an INTERNAL-mode attempt or one from the coax. -/
structure SegReception where
  header : List Byte
  count : Nat
  check : List Byte
  record : Nat
  looped : Bool
deriving DecidableEq, Repr

/-- Receiver state of a segment port (R1). DISCARDING follows a reception from the coax, or (`looped`) the
looped-back one of an INTERNAL-mode attempt, and ends as that reception would have ended. -/
inductive SegRx where
  | idle
  | receiving (r : SegReception)
  | discarding (looped : Bool)
deriving DecidableEq, Repr

/-- Transmitter state of a segment port. -/
inductive SegTx where
  | idle
  | deferring
  | sending
  | retryWait
deriving DecidableEq, Repr

/-- What a segment port holds. -/
structure SegPort where
  /-- carrier is present on the coax now (R11) -/
  carrier : Bool
  carrierTime : Nat
  /-- the line condition is STUCK (R11) -/
  stuck : Bool
  /-- milliseconds until this occurrence of STUCK has lasted 50 ms, while that is awaited -/
  heldTimer : Option Nat
  /-- this occurrence of STUCK has sent its STUCK-HELD report -/
  heldSent : Bool
  rx : SegRx
  tx : SegTx
  inFlight : Option InFlight
  /-- the wire frame the attempt now SENDING drives (R6) -/
  wire : List Byte
  attempts : Nat
  retryTimer : Option Nat
  untermSeen : Bool
  loop : LoopMode
deriving DecidableEq, Repr

/-! ### Pair links and line interfaces (02_pair_links_and_line_interfaces.md) -/

/-- Line state of a link (R18). -/
inductive LinkLine where
  | noSignal
  | training
  | connected
deriving DecidableEq, Repr

/-- A link reception in progress (R21, R22). `crc` is the running CRC-32 over the bytes before the last
four, `last` the last four bytes (log entry 9); `looped` says that it is the looped-back reception of an
INTERNAL-mode transmission, not one from the line. -/
structure LinkReception where
  header : List Byte
  count : Nat
  crc : BitVec 32
  last : List Byte
  record : Nat
  symbolError : Bool
  looped : Bool
deriving DecidableEq, Repr

/-- Receiver state of a link (R21). DISCARDING follows a reception from the line, or (`looped`) the
looped-back one of an INTERNAL-mode transmission, and ends as that reception would have ended. -/
inductive LinkRx where
  | idle
  | receiving (r : LinkReception)
  | discarding (looped : Bool)
deriving DecidableEq, Repr

/-- Transmitter state of a link (R25, R26). -/
inductive LinkTx where
  | idle
  | sending
  | stopped
  | gap
deriving DecidableEq, Repr

/-- What a link holds. -/
structure LinkPort where
  /-- the far end's line signal, as the interface finds it (R18, R32) -/
  lineSignal : Bool
  line : LinkLine
  signalSeen : Bool
  trainingTime : Nat
  retrainPause : Option Nat
  rx : LinkRx
  tx : LinkTx
  inFlight : Option InFlight
  wire : List Byte
  loop : LoopMode
deriving DecidableEq, Repr

/-- What a line interface holds: CLOCK-HOLD or RUNNING, and the clock hold time (R29). -/
structure IfaceState where
  clockHold : Bool
  holdTime : Nat
deriving DecidableEq, Repr

/-! ### Frame memory (03_frame_memory_and_egress_queues.md) -/

/-- The three block counts (R33). -/
structure Pool where
  free : Nat
  frameHeld : Nat
  spoolHeld : Nat
deriving DecidableEq, Repr

/-- A frame record: its block count, its payload in order and its reference count (R37). -/
structure FrameRecord where
  blocks : Nat
  payload : List Byte
  refs : Nat
deriving DecidableEq, Repr

/-- The source entry of a copy (R41). -/
inductive SourceEntry where
  | index (i : Nat)
  | bridge
  | none
deriving DecidableEq, Repr

/-- The header values of a frame or a copy. -/
structure Header where
  dest : Key
  src : Key
  kind : Byte
  length : Nat
deriving DecidableEq, Repr

/-- An egress queue entry (R41). `ingress` is absent for a frame the part made (BRIDGE). -/
structure QueueEntry where
  header : Header
  record : Nat
  ingress : Option Port
  source : SourceEntry
deriving DecidableEq, Repr

/-! ### Directory (04_the_directory.md) -/

/-- Origin of an entry. -/
inductive Origin where
  | learned
  | static
deriving DecidableEq, Repr

/-- A station's fault state (R52, 08_fault_monitoring_and_quarantine.md). -/
inductive Standing where
  | good
  | suspect
  | quarantined
  | probation
deriving DecidableEq, Repr

/-- A printer target. -/
inductive Target where
  | line (n : Line)
  | pool
deriving DecidableEq, Repr

/-- The fields of a STATION entry besides its keys and origin (R52). An absent home is UNKNOWN. -/
structure Station where
  home : Option Port
  pinned : Bool
  manager : Bool
  print : Bool
  standing : Standing
  tally : Nat
  quiet : Nat
  minutes : Nat
deriving DecidableEq, Repr

/-- What an entry is of: a station, a printer alias with its target and level, or the bridge. -/
inductive EntryKind where
  | station (t : Station)
  | printer (target : Target) (level : Fin 4)
  | bridge
deriving DecidableEq, Repr

/-- A directory entry (R52). -/
structure Entry where
  origin : Origin
  trunk : Option Node
  office : Option Address
  kind : EntryKind
deriving DecidableEq, Repr

/-- Entry 0, the bridge: trunk node 254, office address FFFEh (R53). -/
def Entry.bridgeEntry : Entry := ⟨.static, some 254, some 0xFFFE, .bridge⟩

/-! ### Forwarding engine (05_forwarding_and_translation.md) -/

/-- A good frame handed to the forwarding engine and not yet taken (R79). -/
structure Handed where
  header : Header
  record : Nat
deriving DecidableEq, Repr

/-- A record of the unknown-destination log (R96). -/
structure UnknownRecord where
  dest : Key
  last : Port
  hits : Nat
deriving DecidableEq, Repr

/-! ### Spool controller (06_print_jobs.md) -/

/-- State of a job. -/
inductive JobState where
  | arriving
  | ready
  | held
  | printing
  | stalled
  | draining
deriving DecidableEq, Repr

/-- Why an ABORTED job ended (R112, R114, R199). -/
inductive AbortReason where
  | gap
  | arrivalTimeout
  | noSpace
  | lengthMismatch
  | empty
  | restarted
  | flushed
  | quarantine
deriving DecidableEq, Repr

/-- The outcomes of a job's end (R112). -/
inductive JobEnd where
  | printed
  | cancelledSubmitter
  | cancelledManager
  | aborted (r : AbortReason)
deriving DecidableEq, Repr

/-- A live job (R100). Its length received and its block count are those of `bytes`. -/
structure Job where
  submitter : Key
  tag : Byte
  aliasIndex : Nat
  target : Target
  level : Fin 4
  state : JobState
  holdOnClose : Bool
  copies : Nat
  copiesLeft : Nat
  /-- the print bytes received, packed 128 to a block -/
  bytes : List Byte
  nextSeq : Byte
  quiet : Nat
  readyOrder : Option Nat
  line : Option Line
  /-- bytes printed of the current copy; the feed channel's current position while in service (R123) -/
  printed : Nat
  endAsked : Option JobEnd
deriving DecidableEq, Repr

/-! ### Printer lines (07_printer_lines_and_scheduling.md) -/

/-- State of a printer line. -/
inductive LineMode where
  | offline
  | idle
  | feeding
  | stalled
  | draining
  | resetting
  | disabled
deriving DecidableEq, Repr

/-- Why a line is stalled (R122). -/
inductive StallCause where
  | offline
  | paperOut
  | fault
  | ackTimeout
  | busyTimeout
deriving DecidableEq, Repr

/-- What a printer line holds (R122). The level order is the turn whose lowest level is `lowest`: lowest+1,
lowest+2, lowest+3, lowest, modulo 4. Timers hold the milliseconds left while they run. -/
structure LineState where
  select : Bool
  paperOut : Bool
  fault : Bool
  busy : Bool
  state : LineMode
  enabled : Bool
  rotating : Bool
  holdMask : BitVec 4
  lowest : Fin 4
  job : Option Nat
  takenFrom : Option (Fin 4)
  byteInFlight : Bool
  pendingCause : Option StallCause
  stallCause : Option StallCause
  ackTimer : Option Nat
  busyWait : Option Nat
  retryTimer : Option Nat
  initTimer : Option Nat
  data : Byte
deriving DecidableEq, Repr

/-! ### Fault monitor (08_fault_monitoring_and_quarantine.md) -/

/-- The window clock (R145). -/
structure Window where
  running : Bool
  time : Nat
  length : Nat
deriving DecidableEq, Repr

/-- Window counts of a segment (R146). -/
structure SegWindow where
  headerBad : Nat
  bodyBad : Nat
  lengthBad : Nat
  runts : Nat
  collisionDrops : Nat
  stuck : Nat
  unterminated : Nat
deriving DecidableEq, Repr

/-- Window counts of a link (R147). -/
structure LinkWindow where
  checkBad : Nat
  symbolErrors : Nat
  symbolErrorFrames : Nat
  flaps : Nat
deriving DecidableEq, Repr

/-- Request marks and warning marks of a port (R148). -/
structure Marks where
  errorsMade : Bool
  flappingMade : Bool
  errorsWarned : Bool
  flapsWarned : Bool
deriving DecidableEq, Repr

/-! ### Isolation controller (09_port_service_isolation_and_testing.md) -/

/-- Service state of a port (R161). -/
inductive Service where
  | inService
  | probing
  | testing
  | isolated
  | failed
  | off
deriving DecidableEq, Repr

/-- Why a port last entered ISOLATED (R161). -/
inductive IsolationCause where
  | errors
  | flapping
  | line
  | sweep
  | test
deriving DecidableEq, Repr

/-- Purpose of a port test (R161). -/
inductive TestPurpose where
  | entry
  | probe
  | loop
deriving DecidableEq, Repr

/-- Phase of a port test (R161). -/
inductive TestPhase where
  | waitConnect
  | internal
  | external
  | held
deriving DecidableEq, Repr

/-- What the frame out of a test waits for before it is placed: nothing, an empty test slot (R15), or a
record after the pool refused one (R162). -/
inductive FrameWait where
  | none
  | slot
  | record
deriving DecidableEq, Repr

/-- The test record of a port (R161): purpose, phase, sequence of the frame out, the frame's timer in
milliseconds left, and what the frame waits for. -/
structure PortTest where
  purpose : TestPurpose
  phase : TestPhase
  sequence : Nat
  timer : Option Nat
  wait : FrameWait
deriving DecidableEq, Repr

/-- The isolation controller's record of one port (R161). -/
structure PortService where
  state : Service
  bcast : Bool
  accept : Bool
  holdTime : Nat
  holdTimer : Option Nat
  /-- the hold timer has expired and waits for a sweep loop's end (R168) -/
  holdExpired : Bool
  failedTests : Nat
  cause : Option IsolationCause
  restoreDue : Bool
  test : Option PortTest
  testNumber : Byte
deriving DecidableEq, Repr

/-! ### Sweep engine (10_sweep_list.md) -/

/-- A step's target (R175). -/
inductive StepTarget where
  | station (k : Key)
  | port (p : Port)
  | line (n : Line)
deriving DecidableEq, Repr

/-- A step's probe (R175). -/
inductive ProbeKind where
  | echo
  | loopInternal
  | loopExternal
  | lineStatus
deriving DecidableEq, Repr

/-- A step's fail action (R175). -/
inductive FailAction where
  | note
  | markSuspect
  | quarantine
  | isolatePort
  | halt
deriving DecidableEq, Repr

/-- A step's result (R175). -/
inductive StepResult where
  | notRun
  | pass
  | fail
  | skipped
deriving DecidableEq, Repr

/-- A step of the sweep list (R175). -/
structure SweepStep where
  target : StepTarget
  probe : ProbeKind
  failLimit : Nat
  action : FailAction
  result : StepResult
  fails : Nat
deriving DecidableEq, Repr

/-- The outstanding probe (R176). `handed` is the result the isolation controller has handed for a loop
and the engine has not yet taken: it is taken before the command ends (log entry 15). -/
inductive Probe where
  | echo (step : Nat) (number : Byte) (target : Key) (timer : Nat)
  | loop (step : Nat) (kind : ProbeKind) (handed : Option Bool)
deriving DecidableEq, Repr

/-- What made the engine busy (R176): PASS, or SINGLE for a RUN-STEP. -/
inductive RunKind where
  | pass
  | single
deriving DecidableEq, Repr

/-- The run in progress and the step now running, 1 up (R176). -/
structure SweepRun where
  kind : RunKind
  position : Nat
deriving DecidableEq, Repr

/-- The sweep list and its control (R175, R176). The engine is busy exactly while `run` is present. -/
structure Sweep where
  steps : List SweepStep
  enabled : Bool
  run : Option SweepRun
  interval : Nat
  /-- seconds left of the interval timer, absent when stopped -/
  timer : Option Nat
  /-- the interval timer expired during a RUN-STEP and its pass waits (R177) -/
  passWaiting : Bool
  outstanding : Option Probe
  probeNumber : Byte
  lastEcho : Option (Byte × Key)
deriving DecidableEq, Repr

/-! ### Management block (11_management_notices_and_the_start_image.md) -/

/-- A request record (R186): arrival port, source key as received, and the payload copied from the
frame, which holds the request number, the code and the parameters. -/
structure Request where
  port : Port
  source : Key
  payload : List Byte
deriving DecidableEq, Repr

/-- A SAVE-IMAGE in flight: its request and the snapshot's bytes (R195). -/
structure Save where
  request : Request
  image : List Byte
deriving DecidableEq, Repr

/-- The configuration parameters, in the order of R189. -/
structure Settings where
  officeBase : Nat
  learnedMayPrint : Bool
  ageLimit : Nat
  claimGuard : Nat
  spoolLimit : Nat
  nearFullMargin : Nat
  reserve : Nat
  poolLow : Nat
  quota : PerPort Nat
  arrivalTimeout : Nat
  ackTimeout : Nat
  busyLimit : Nat
  stallRetry : Nat
  windowLength : Nat
  segThreshold : Nat
  linkThreshold : Nat
  flapLimit : Nat
  suspectThreshold : Nat
  quarantineThreshold : Nat
  quarantineTime : Nat
  echoTimeout : Nat
  notice : Option Key
deriving DecidableEq, Repr

/-- The serial memory (R194): its bytes, in the canonical form of `Serial.wf`, or what a failed save
leaves, whose check word does not match (R195). -/
inductive Serial where
  | bytes (m : List Host.Cell)
  | failedSave
deriving DecidableEq, Repr

/-! ### The state -/

/-- Everything the spec gives the part. `pending` is the queue of commands that wait, first in, first
out; `nextRecord` and `choices` are the model's own (log entries 22 and 4). -/
structure State where
  pending : List Instr
  powered : Bool
  resetLow : Bool
  commission : Bool
  time : Timebase
  choices : Nat
  serial : Serial
  segs : PerSeg SegPort
  links : PerLink LinkPort
  ifaces : PerIface IfaceState
  pool : Pool
  records : Table Nat FrameRecord
  nextRecord : Nat
  queues : PerPort (List QueueEntry)
  slots : PerPort (Option Nat)
  dir : Table Nat Entry
  handover : PerPort (List Handed)
  unknownLog : List UnknownRecord
  jobs : Table Nat Job
  nextOrder : Nat
  lines : PerLine LineState
  window : Window
  segWin : PerSeg SegWindow
  linkWin : PerLink LinkWindow
  marks : PerPort Marks
  service : PerPort PortService
  sweep : Sweep
  requests : List Request
  current : Option Request
  save : Option Save
  heldReply : Option Request
  config : Settings
  flags : BitVec 16
  mask : BitVec 16
  noticeOut : Bool
  loading : Bool
  counters : Table Counter Nat
deriving DecidableEq, Repr

/-- Why the machine stops with a fault. The spec describes no machine fault: every bad frame, refused
request or failed test is an effect on the state. So no constructor is needed (log entry 35). -/
inductive Fault where
deriving DecidableEq, Repr

/-- Why the model refuses a command. -/
inductive Refusal where
  /-- raised by an arm of exec for a command that has no meaning yet; no arm raises it now. Safe. -/
  | notModelled (mnemonic : String)
deriving DecidableEq, Repr

/-! ### Reset values -/

/-- The same value for each of two things. -/
def PerSeg.fill {α : Type} (v : α) : PerSeg α := ⟨v, v⟩

/-- The same value for each of four things. -/
def PerLink.fill {α : Type} (v : α) : PerLink α := ⟨v, v, v, v⟩

/-- The same value for each port. -/
def PerPort.fill {α : Type} (v : α) : PerPort α := ⟨.fill v, .fill v⟩

/-- A segment port at reset (R17), with the coax as `carrier` says. -/
def SegPort.atReset (carrier : Bool) : SegPort :=
  { carrier := carrier, carrierTime := 0, stuck := false, heldTimer := none, heldSent := false
    rx := .idle, tx := .idle, inFlight := none, wire := [], attempts := 0, retryTimer := none
    untermSeen := false, loop := .normal }

/-- A link at reset (R32), with the far end's signal as `lineSignal` says. -/
def LinkPort.atReset (lineSignal : Bool) : LinkPort :=
  { lineSignal := lineSignal, line := .noSignal, signalSeen := false, trainingTime := 0
    retrainPause := none, rx := .idle, tx := .idle, inFlight := none, wire := [], loop := .normal }

/-- A printer line at reset (R144), with its input pins as they stand. -/
def LineState.atReset (select paperOut fault busy : Bool) : LineState :=
  { select := select, paperOut := paperOut, fault := fault, busy := busy, state := .disabled
    enabled := false, rotating := false, holdMask := 0, lowest := 3, job := none, takenFrom := none
    byteInFlight := false, pendingCause := none, stallCause := none, ackTimer := none
    busyWait := none, retryTimer := none, initTimer := none, data := 0 }

/-- A port's record at reset (R174): TESTING, with its entry test HELD. No frame is out, and the sequence is
0 then, the model's choice (log entry 53). -/
def PortService.atReset (bcast accept : Bool) : PortService :=
  { state := .testing, bcast := bcast, accept := accept, holdTime := 5, holdTimer := none
    holdExpired := false, failedTests := 0, cause := none, restoreDue := false
    test := some ⟨.entry, .held, 0, none, .none⟩, testNumber := 0 }

/-- No window counts. -/
def SegWindow.zero : SegWindow := ⟨0, 0, 0, 0, 0, 0, 0⟩

/-- No window counts. -/
def LinkWindow.zero : LinkWindow := ⟨0, 0, 0, 0⟩

/-- No marks. -/
def Marks.clear : Marks := ⟨false, false, false, false⟩

/-- The sweep at reset (R185). -/
def Sweep.atReset : Sweep :=
  { steps := [], enabled := false, run := none, interval := 0, timer := none, passWaiting := false
    outstanding := none, probeNumber := 0, lastEcho := none }

/-- The defaults of R189. -/
def Settings.default : Settings :=
  { officeBase := 0x4000, learnedMayPrint := true, ageLimit := 30, claimGuard := 60
    spoolLimit := 640, nearFullMargin := 64, reserve := 96, poolLow := 64, quota := .fill 256
    arrivalTimeout := 20, ackTimeout := 100, busyLimit := 60, stallRetry := 30, windowLength := 60
    segThreshold := 40, linkThreshold := 40, flapLimit := 3, suspectThreshold := 8
    quarantineThreshold := 24, quarantineTime := 10, echoTimeout := 200, notice := none }

/-- The part right after RESET is released (R17, R32, R51, R78, R99, R121, R144, R160, R174, R185, R197):
every block in its reset state, loading yes (R194). The levels of the input pins are the model's choice
(log entries 6 and 7), the serial memory's contents too (log entry 5). -/
def State.reset : State :=
  { pending := [], powered := true, resetLow := false, commission := false, time := ⟨0, 0⟩
    choices := 0, serial := .bytes [], segs := .fill (.atReset false)
    links := .fill (.atReset false), ifaces := ⟨⟨false, 0⟩, ⟨false, 0⟩⟩
    pool := ⟨Config.poolBlocks, 0, 0⟩, records := [], nextRecord := 0, queues := .fill []
    slots := .fill none, dir := [(0, .bridgeEntry)], handover := .fill [], unknownLog := []
    jobs := [], nextOrder := 0
    lines := ⟨.atReset false false false false, .atReset false false false false⟩
    window := ⟨false, 0, Settings.default.windowLength⟩, segWin := .fill .zero
    linkWin := .fill .zero, marks := .fill .clear
    service := ⟨.fill (.atReset false false), .fill (.atReset true true)⟩
    sweep := .atReset, requests := [], current := none, save := none, heldReply := none
    config := .default, flags := 0, mask := 0xFFFF, noticeOut := false, loading := true
    counters := [] }

end Sys2Proof.Machine
end

