-- ==== Sys2Proof/Machine/Tables.lean ====
section
/-! DEFINITION. Reading and writing the families, tables and the serial memory that State holds. -/

namespace Sys2Proof.Machine

/-! ### One thing of a family -/

def PerSeg.get {α : Type} (f : PerSeg α) : Seg → α
  | .a => f.a
  | .b => f.b

def PerSeg.set {α : Type} (f : PerSeg α) (x : Seg) (v : α) : PerSeg α :=
  match x with
  | .a => { f with a := v }
  | .b => { f with b := v }

def PerLink.get {α : Type} (f : PerLink α) : Link → α
  | .l0 => f.l0
  | .l1 => f.l1
  | .l2 => f.l2
  | .l3 => f.l3

def PerLink.set {α : Type} (f : PerLink α) (l : Link) (v : α) : PerLink α :=
  match l with
  | .l0 => { f with l0 := v }
  | .l1 => { f with l1 := v }
  | .l2 => { f with l2 := v }
  | .l3 => { f with l3 := v }

def PerIface.get {α : Type} (f : PerIface α) : Iface → α
  | .li0 => f.li0
  | .li1 => f.li1

def PerIface.set {α : Type} (f : PerIface α) (i : Iface) (v : α) : PerIface α :=
  match i with
  | .li0 => { f with li0 := v }
  | .li1 => { f with li1 := v }

def PerLine.get {α : Type} (f : PerLine α) : Line → α
  | .lp1 => f.lp1
  | .lp2 => f.lp2

def PerLine.set {α : Type} (f : PerLine α) (n : Line) (v : α) : PerLine α :=
  match n with
  | .lp1 => { f with lp1 := v }
  | .lp2 => { f with lp2 := v }

def PerPort.get {α : Type} (f : PerPort α) : Port → α
  | .seg x => f.segs.get x
  | .link l => f.links.get l

def PerPort.set {α : Type} (f : PerPort α) (p : Port) (v : α) : PerPort α :=
  match p with
  | .seg x => { f with segs := f.segs.set x v }
  | .link l => { f with links := f.links.set l v }

/-- The same change to every port's value. -/
def PerPort.map {α β : Type} (g : α → β) (f : PerPort α) : PerPort β :=
  ⟨⟨g f.segs.a, g f.segs.b⟩, ⟨g f.links.l0, g f.links.l1, g f.links.l2, g f.links.l3⟩⟩

end Sys2Proof.Machine

namespace Sys2Proof

/-- The segments, links, interfaces, lines and ports in code order (R199). -/
def Seg.all : List Seg := [.a, .b]
def Link.all : List Link := [.l0, .l1, .l2, .l3]
def Iface.all : List Iface := [.li0, .li1]
def Line.all : List Line := [.lp1, .lp2]
def Port.all : List Port := Seg.all.map .seg ++ Link.all.map .link

/-- The other segment. -/
def Seg.other : Seg → Seg
  | .a => .b
  | .b => .a

/-- The interface a link stands on. -/
def Link.iface : Link → Iface
  | .l0 => .li0
  | .l1 => .li0
  | .l2 => .li1
  | .l3 => .li1

/-- The links of an interface. -/
def Iface.links : Iface → List Link
  | .li0 => [.l0, .l1]
  | .li1 => [.l2, .l3]

/-- The side a port lies on. -/
def Port.side : Port → Machine.Side
  | .seg _ => .trunk
  | .link _ => .pair

end Sys2Proof

namespace Sys2Proof.Machine

/-- The side a key belongs to. -/
def Key.side : Key → Side
  | .node _ => .trunk
  | .address _ => .pair

/-! ### Tables -/

/-- What a table holds at a key. -/
def Table.find {κ α : Type} [DecidableEq κ] : Table κ α → κ → Option α
  | [], _ => none
  | (k', v) :: t, k => if k' = k then some v else Table.find t k

/-- Write a key's value, in its place by `ord`. -/
def Table.put {κ α : Type} [DecidableEq κ] (ord : κ → Nat) (k : κ) (v : α) : Table κ α → Table κ α
  | [] => [(k, v)]
  | (k', v') :: t =>
    if k' = k then (k, v) :: t
    else if ord k < ord k' then (k, v) :: (k', v') :: t
    else (k', v') :: Table.put ord k v t

/-- Remove a key. -/
def Table.drop {κ α : Type} [DecidableEq κ] (k : κ) (t : Table κ α) : Table κ α :=
  t.filter fun e => e.1 ≠ k

/-- The lowest number from `lo`, of `n` tried, that a table does not hold. -/
def Table.lowestFree {α : Type} (t : Table Nat α) : (lo n : Nat) → Option Nat
  | _, 0 => none
  | lo, n + 1 => if (Table.find t lo).isSome then Table.lowestFree t (lo + 1) n else some lo

/-! ### The serial memory -/

/-- The canonical form of the serial memory's bytes: addresses rising, inside the memory, and no byte
listed that an unlisted address reads as. -/
def Memory.wf : List Host.Cell → Bool
  | [] => true
  | [(a, b)] => a < Config.serialBytes && b ≠ Config.serialBlank
  | (a, b) :: (a', b') :: m => a < a' && b ≠ Config.serialBlank && Memory.wf ((a', b') :: m)

/-- The byte at an address. -/
def Memory.read : List Host.Cell → Nat → Byte
  | [], _ => Config.serialBlank
  | (a', b) :: m, a => if a' = a then b else Memory.read m a

/-- The memory that holds a list of bytes from an address on, and is blank above (below the memory's
end). -/
def Memory.ofBytes : Nat → List Byte → List Host.Cell
  | _, [] => []
  | a, b :: bs =>
    if a < Config.serialBytes ∧ b ≠ Config.serialBlank then (a, b) :: Memory.ofBytes (a + 1) bs
    else Memory.ofBytes (a + 1) bs

/-- The `n` bytes from an address on. -/
def Memory.slice (m : List Host.Cell) (a n : Nat) : List Byte :=
  (List.range n).map fun k => Memory.read m (a + k)

/-- Write a list of bytes from address 0 on, leaving the bytes beyond as they stand. -/
def Memory.overwrite (m : List Host.Cell) (bs : List Byte) : List Host.Cell :=
  Memory.ofBytes 0 bs ++ m.filter fun c => bs.length ≤ c.1

/-- The canonical form of the serial memory. -/
def Serial.wf : Serial → Bool
  | .bytes m => Memory.wf m
  | .failedSave => true

end Sys2Proof.Machine
end

