-- ==== Sys2Proof/Machine/Operands.lean ====
section
/-! DEFINITION. Every byte layout the part reads or writes: byte order, checks, wire frames, codes,
payloads and records (12_frame_and_record_formats.md). -/

namespace Sys2Proof.Machine

/-! ### Byte order (R202) -/

/-- A byte of a number's value. -/
def byteOf (n : Nat) : Byte := BitVec.ofNat 8 n

/-- A two-byte field, in the order of the side it travels on. -/
def Side.word (side : Side) (n : Nat) : List Byte :=
  match side with
  | .trunk => [byteOf n, byteOf (n / 256)]
  | .pair => [byteOf (n / 256), byteOf n]

/-- A four-byte field, in the order of the side it travels on. -/
def Side.long (side : Side) (n : Nat) : List Byte :=
  match side with
  | .trunk => [byteOf n, byteOf (n / 256), byteOf (n / 65536), byteOf (n / 16777216)]
  | .pair => [byteOf (n / 16777216), byteOf (n / 65536), byteOf (n / 256), byteOf n]

/-- The value of two bytes read in a side's order. -/
def Side.readWord (side : Side) (b c : Byte) : Nat :=
  match side with
  | .trunk => b.toNat + 256 * c.toNat
  | .pair => 256 * b.toNat + c.toNat

/-- The value of four bytes read in a side's order. -/
def Side.readLong (side : Side) (b c d e : Byte) : Nat :=
  match side with
  | .trunk => b.toNat + 256 * c.toNat + 65536 * d.toNat + 16777216 * e.toNat
  | .pair => 16777216 * b.toNat + 65536 * c.toNat + 256 * d.toNat + e.toNat

/-- The byte at an offset; 0 past the end (callers check the length first). -/
def byteAt (bs : List Byte) (k : Nat) : Byte := bs.getD k 0

/-- The two-byte field at an offset. -/
def wordAt (side : Side) (bs : List Byte) (k : Nat) : Nat :=
  side.readWord (byteAt bs k) (byteAt bs (k + 1))

/-- The number a byte or a bit holds, 1 or 0 for yes or no; that a whole byte of a yes/no holds these is the
model's choice (log entry 70). -/
def yesNo (b : Bool) : Byte := if b then 1 else 0

/-! ### Checks (R198) -/

/-- Apply a step `n` times. -/
def repeatStep {α : Type} (f : α → α) : Nat → α → α
  | 0, x => x
  | n + 1, x => repeatStep f n (f x)

/-- One bit of the CRC-16 with polynomial 1021h, most significant bit first. -/
def crc16Bit (c : BitVec 16) : BitVec 16 :=
  if c.msb then (c <<< 1) ^^^ 0x1021#16 else c <<< 1

/-- One byte of the CRC-16. -/
def crc16Byte (c : BitVec 16) (b : Byte) : BitVec 16 :=
  repeatStep crc16Bit 8 (c ^^^ (b.zeroExtend 16 <<< 8))

/-- The trunk frame check and the image check word: CRC-16, initial FFFFh, no final inversion. -/
def crc16 (bs : List Byte) : BitVec 16 := bs.foldl crc16Byte 0xFFFF#16

/-- One bit of the CRC-32 with polynomial 04C11DB7h, most significant bit first. -/
def crc32Bit (c : BitVec 32) : BitVec 32 :=
  if c.msb then (c <<< 1) ^^^ 0x04C11DB7#32 else c <<< 1

/-- One byte of the CRC-32. -/
def crc32Byte (c : BitVec 32) (b : Byte) : BitVec 32 :=
  repeatStep crc32Bit 8 (c ^^^ (b.zeroExtend 32 <<< 24))

/-- The initial value of the CRC-32. -/
def crc32Start : BitVec 32 := 0xFFFFFFFF#32

/-- The office frame check of a list of bytes: CRC-32, the result inverted. -/
def crc32 (bs : List Byte) : BitVec 32 := ~~~ (bs.foldl crc32Byte crc32Start)

/-- The sum of bytes modulo 256. -/
def byteSum (bs : List Byte) : Byte := bs.foldl (· + ·) 0

/-- The byte that brings the sum of the six header bytes to A5h (R198). -/
def headerCheck (five : List Byte) : Byte := 0xA5 - byteSum five

/-! ### Keys and frame kinds -/

/-- The number a key is written as. -/
def Key.value : Key → Nat
  | .node n => n.toNat
  | .address a => a.toNat

/-- The key of a side with a value. -/
def Side.key (side : Side) (v : Nat) : Key :=
  match side with
  | .trunk => .node (BitVec.ofNat 8 v)
  | .pair => .address (BitVec.ofNat 16 v)

/-- The bridge's own key on a side: 254 or FFFEh. -/
def Side.bridgeKey : Side → Key
  | .trunk => .node 254
  | .pair => .address 0xFFFE

/-- The broadcast key of a side: 255 or FFFFh. -/
def Side.broadcastKey : Side → Key
  | .trunk => .node 255
  | .pair => .address 0xFFFF

/-- The destination classes of R87. -/
inductive KeyClass where
  | invalid
  | reserved
  | bridge
  | broadcast
  | station
deriving DecidableEq, Repr

/-- Which class a key falls in (R87). -/
def Key.class : Key → KeyClass
  | .node n =>
    if n.toNat = 0 then .invalid
    else if n.toNat = 254 then .bridge
    else if n.toNat = 255 then .broadcast
    else .station
  | .address a =>
    if a.toNat = 0 then .invalid
    else if a.toNat = 0xFFFE then .bridge
    else if a.toNat = 0xFFFF then .broadcast
    else if 0xFFF0 ≤ a.toNat then .reserved
    else .station

/-- A key a station may hold: 1-253, or 0001h-FFEFh. -/
def Key.isStation (k : Key) : Bool := k.class = .station

def kindPrint : Byte := 0x80
def kindPrintStatus : Byte := 0x81
def kindClaim : Byte := 0x90
def kindObject : Byte := 0x91
def kindDefend : Byte := 0x92
def kindEchoReq : Byte := 0xA0
def kindEchoRep : Byte := 0xA1
def kindMgmtReq : Byte := 0xB0
def kindMgmtReply : Byte := 0xB1
def kindNotice : Byte := 0xB2
def kindTest : Byte := 0xBF

/-! ### Wire frames -/

/-- The trunk header of five bytes before its check: destination, source, kind, length low byte first. -/
def trunkHeaderFive (h : Header) : List Byte :=
  [byteOf h.dest.value, byteOf h.src.value, h.kind] ++ Side.trunk.word h.length

/-- The six trunk header bytes. -/
def trunkHeader (h : Header) : List Byte :=
  trunkHeaderFive h ++ [headerCheck (trunkHeaderFive h)]

/-- The wire frame a segment drives (R6). -/
def trunkFrame (h : Header) (payload : List Byte) : List Byte :=
  trunkHeader h ++ payload ++ Side.trunk.word (crc16 (trunkHeader h ++ payload)).toNat

/-- The seven office header bytes. -/
def officeHeader (h : Header) : List Byte :=
  Side.pair.word h.dest.value ++ Side.pair.word h.src.value ++ [h.kind] ++ Side.pair.word h.length

/-- The wire frame a link drives (R25). -/
def officeFrame (h : Header) (payload : List Byte) : List Byte :=
  officeHeader h ++ payload ++ Side.pair.long (crc32 (officeHeader h ++ payload)).toNat

/-- The length field of six received trunk header bytes. -/
def trunkLength (h : List Byte) : Nat := wordAt .trunk h 3

/-- The header values of six received trunk header bytes. -/
def readTrunkHeader (h : List Byte) : Header :=
  ⟨.node (byteAt h 0), .node (byteAt h 1), byteAt h 2, trunkLength h⟩

/-- The length field of seven received office header bytes. -/
def officeLength (h : List Byte) : Nat := wordAt .pair h 5

/-- The header values of seven received office header bytes. -/
def readOfficeHeader (h : List Byte) : Header :=
  ⟨Side.pair.key (wordAt .pair h 0), Side.pair.key (wordAt .pair h 2), byteAt h 4, officeLength h⟩

/-! ### Codes (R199) -/

end Sys2Proof.Machine

namespace Sys2Proof

def Port.code : Port → Byte
  | .seg .a => 1
  | .seg .b => 2
  | .link .l0 => 3
  | .link .l1 => 4
  | .link .l2 => 5
  | .link .l3 => 6

/-- The port a code names. -/
def Port.ofCode (c : Byte) : Option Port := Port.all.find? fun p => p.code = c

end Sys2Proof

namespace Sys2Proof.Machine

/-- A home's code: FFh for UNKNOWN. -/
def homeCode : Option Port → Byte
  | none => 0xFF
  | some p => p.code

def Side.code : Side → Byte
  | .trunk => 1
  | .pair => 2

end Sys2Proof.Machine

namespace Sys2Proof

def Line.code : Line → Byte
  | .lp1 => 1
  | .lp2 => 2

/-- The line a code names. -/
def Line.ofCode (c : Byte) : Option Line := Line.all.find? fun n => n.code = c

/-- The interface a code names. DESIGN CHOICE, unsafe: the spec gives no code for an interface
(log entry 12). -/
def Iface.ofCode (c : Byte) : Option Iface :=
  if c = 1 then some .li0 else if c = 2 then some .li1 else none

end Sys2Proof

namespace Sys2Proof.Machine

def Target.code : Target → Byte
  | .line n => n.code
  | .pool => 3

/-- The printer target a code names. -/
def Target.ofCode (c : Byte) : Option Target :=
  if c = 3 then some .pool else (Line.ofCode c).map .line

/-- The level a byte names. -/
def levelOf (c : Byte) : Option (Fin 4) :=
  if h : c.toNat < 4 then some ⟨c.toNat, h⟩ else none

def Standing.code : Standing → Byte
  | .good => 0
  | .suspect => 1
  | .quarantined => 2
  | .probation => 3

def JobState.code : JobState → Byte
  | .arriving => 1
  | .ready => 2
  | .held => 3
  | .printing => 4
  | .stalled => 5
  | .draining => 6

/-- The reason code of an ABORTED outcome. A quarantine's abort makes no status and has no code. -/
def AbortReason.code : AbortReason → Byte
  | .gap => 0x20
  | .arrivalTimeout => 0x21
  | .noSpace => 0x22
  | .lengthMismatch => 0x23
  | .empty => 0x24
  | .restarted => 0x25
  | .flushed => 0x26
  | .quarantine => 0

/-- The reason code of an outcome, 0 for none. -/
def JobEnd.reasonCode : JobEnd → Byte
  | .printed => 0
  | .cancelledSubmitter => 0x10
  | .cancelledManager => 0x11
  | .aborted r => r.code

def Service.code : Service → Byte
  | .inService => 1
  | .probing => 2
  | .testing => 3
  | .isolated => 4
  | .failed => 5
  | .off => 6

def IsolationCause.code : IsolationCause → Byte
  | .errors => 1
  | .flapping => 2
  | .line => 3
  | .sweep => 4
  | .test => 5

def TestPhase.code : TestPhase → Byte
  | .waitConnect => 1
  | .internal => 2
  | .external => 3
  | .held => 4

def TestPurpose.code : TestPurpose → Byte
  | .entry => 1
  | .probe => 2
  | .loop => 3

def LinkLine.code : LinkLine → Byte
  | .noSignal => 1
  | .training => 2
  | .connected => 3

def LineMode.code : LineMode → Byte
  | .offline => 1
  | .idle => 2
  | .feeding => 3
  | .stalled => 4
  | .draining => 5
  | .resetting => 6
  | .disabled => 7

/-- A stall cause's code, 0 for none. -/
def stallCode : Option StallCause → Byte
  | none => 0
  | some .offline => 1
  | some .paperOut => 2
  | some .fault => 3
  | some .ackTimeout => 4
  | some .busyTimeout => 5

def ProbeKind.code : ProbeKind → Byte
  | .echo => 1
  | .loopInternal => 2
  | .loopExternal => 3
  | .lineStatus => 4

def FailAction.code : FailAction → Byte
  | .note => 1
  | .markSuspect => 2
  | .quarantine => 3
  | .isolatePort => 4
  | .halt => 5

def StepResult.code : StepResult → Byte
  | .notRun => 0
  | .pass => 1
  | .fail => 2
  | .skipped => 3

def StepTarget.kindCode : StepTarget → Byte
  | .station (.node _) => 1
  | .station (.address _) => 2
  | .port _ => 3
  | .line _ => 4

def StepTarget.value : StepTarget → Nat
  | .station k => k.value
  | .port p => p.code.toNat
  | .line n => n.code.toNat

/-- The probe a code names. -/
def ProbeKind.ofCode (c : Byte) : Option ProbeKind :=
  [ProbeKind.echo, .loopInternal, .loopExternal, .lineStatus].find? fun p => p.code = c

/-- The fail action a code names. -/
def FailAction.ofCode (c : Byte) : Option FailAction :=
  [FailAction.note, .markSuspect, .quarantine, .isolatePort, .halt].find? fun a => a.code = c

/-- The statuses of a reply (R188). -/
inductive Status where
  | done
  | malformed
  | busy
  | notFound
  | conflict
  | full
  | range
deriving DecidableEq, Repr

def Status.code : Status → Byte
  | .done => 0
  | .malformed => 1
  | .busy => 2
  | .notFound => 3
  | .conflict => 4
  | .full => 5
  | .range => 6

/-- Why a PRINT frame is answered REFUSED (R103, R199). -/
inductive RefusedReason where
  | notAllowed
  | noPrinter
  | spoolFull
  | tableFull
  | tagInUse
  | submitterLimit
  | malformed
deriving DecidableEq, Repr

def RefusedReason.code : RefusedReason → Byte
  | .notAllowed => 1
  | .noPrinter => 2
  | .spoolFull => 3
  | .tableFull => 4
  | .tagInUse => 5
  | .submitterLimit => 6
  | .malformed => 7

/-- The answers of a PRINT-STATUS (R199). -/
inductive Answer where
  | accepted
  | refused (r : RefusedReason)
  | unknownJob
  | queued
  | held
  | started
  | ended (e : JobEnd)
deriving DecidableEq, Repr

def Answer.code : Answer → Byte
  | .accepted => 1
  | .refused _ => 2
  | .unknownJob => 3
  | .queued => 4
  | .held => 5
  | .started => 6
  | .ended .printed => 7
  | .ended .cancelledSubmitter => 8
  | .ended .cancelledManager => 8
  | .ended (.aborted _) => 9

def Answer.reason : Answer → Byte
  | .refused r => r.code
  | .ended e => e.reasonCode
  | _ => 0

/-- Why a claim is defended (R73, R199). -/
inductive DefendClass where
  | reservedNumber
  | printerHeld
  | stationPairSide
  | stationOtherSegment
deriving DecidableEq, Repr

def DefendClass.code : DefendClass → Byte
  | .reservedNumber => 1
  | .printerHeld => 2
  | .stationPairSide => 3
  | .stationOtherSegment => 4

/-! ### Payloads (R200) -/

/-- The phase a TEST frame's payload names. -/
def testPhaseCode : TestPhase → Byte
  | .external => 2
  | _ => 1

/-- The 64-byte payload of a TEST frame: port, test number, phase, sequence, pattern (R200). -/
def testPayload (p : Port) (number : Byte) (phase : TestPhase) (seq : Nat) : List Byte :=
  [p.code, number, testPhaseCode phase, byteOf seq] ++
    (List.range 60).map fun k => byteOf ((k + 4) * 37)

/-- The 4-byte payload of a PRINT-STATUS. -/
def statusPayload (tag : Byte) (a : Answer) : List Byte := [tag, a.code, a.reason, 0]

/-- The phases of a PRINT frame (R102). -/
inductive PrintPhase where
  | opening (tag : Byte) (copies : Nat)
  | data (tag seq : Byte) (bytes : List Byte)
  | close (tag : Byte) (total : Nat)
  | cancel (tag : Byte)
deriving DecidableEq, Repr

/-- Read a PRINT payload in a side's order; none where it is malformed (R102, R200). -/
def readPrint (side : Side) : List Byte → Option PrintPhase
  | [ph, tag, x, y] =>
    if ph = 1 then
      if 1 ≤ x.toNat ∧ x.toNat ≤ 9 ∧ y = 0 then some (.opening tag x.toNat) else none
    else if ph = 2 then some (.data tag x [y])
    else none
  | [ph, tag] => if ph = 4 then some (.cancel tag) else none
  | ph :: tag :: x :: y :: rest =>
    if ph = 2 then some (.data tag x (y :: rest))
    else if ph = 3 then
      match rest with
      | [d, e] => some (.close tag (side.readLong x y d e))
      | _ => none
    else none
  | _ => none

/-- The tag a PRINT payload carries, or 0 where it is too short to hold one (R102). -/
def printTag (payload : List Byte) : Byte := byteAt payload 1

/-! ### Records in replies (R201) -/

/-- A key in its byte of an entry record. -/
def trunkByte (n : Option Node) : Byte := n.getD 0

/-- The 16-byte entry record. The level of a STATION or the BRIDGE, and the standing, tally, quiet seconds and
minutes of a PRINTER or the BRIDGE, are fields their kind does not have (R52), and R201 gives them no value:
0 is the model's choice (log entry 63). -/
def entryRecord (side : Side) (i : Nat) (e : Entry) : List Byte :=
  let keys := [trunkByte e.trunk] ++ side.word (e.office.getD 0).toNat
  let origin : Byte := match e.origin with | .learned => 1 | .static => 2
  match e.kind with
  | .station t =>
    [byteOf i, 1, origin] ++ keys ++
      [homeCode t.home,
        yesNo t.pinned + 2 * yesNo t.manager + 4 * yesNo t.print, 0, 0, t.standing.code, byteOf t.tally]
      ++ side.word t.quiet ++ [byteOf t.minutes, 0]
  | .printer target level =>
    [byteOf i, 2, origin] ++ keys ++ [0, 0, target.code, byteOf level.val, 0, 0, 0, 0, 0, 0]
  | .bridge => [byteOf i, 3, origin] ++ keys ++ [0, 0, 0, 0, 0, 0, 0, 0, 0, 0]

/-- The blocks a number of bytes fills, 0 for none. -/
def blocksFor (n : Nat) : Nat := (n + (Config.blockBytes - 1)) / Config.blockBytes

/-- The 28-byte job record, with the job's place in its ready queue. -/
def jobRecord (side : Side) (slot place : Nat) (j : Job) : List Byte :=
  [byteOf slot, j.submitter.side.code] ++ side.word j.submitter.value ++
    [j.tag, byteOf j.aliasIndex, j.target.code, byteOf j.level.val, j.state.code,
      yesNo j.holdOnClose, byteOf j.copies, byteOf j.copiesLeft] ++
    side.long j.bytes.length ++ side.word (blocksFor j.bytes.length) ++
    [j.nextSeq, byteOf j.quiet, (j.line.map Line.code).getD 0] ++ side.long j.printed ++
    [(j.endAsked.map JobEnd.reasonCode).getD 0, byteOf place, 0]

/-- The 10-byte sweep-step record of a step with its number. -/
def stepRecord (side : Side) (k : Nat) (t : SweepStep) : List Byte :=
  [byteOf k, t.target.kindCode] ++ side.word t.target.value ++
    [t.probe.code, byteOf t.failLimit, t.action.code, t.result.code, byteOf t.fails, 0]

/-- The 6-byte unknown-log record. -/
def unknownRecordBytes (side : Side) (u : UnknownRecord) : List Byte :=
  side.word u.dest.value ++ [u.dest.side.code, u.last.code, byteOf u.hits, 0]

/-- Byte 2 of a port record: administrative on, broadcast-forward, management-accept. A segment has no
broadcast-forward setting. -/
def portSettings (p : Port) (on bcast accept : Bool) : Byte :=
  yesNo on + 2 * yesNo (bcast && p.side = .pair) + 4 * yesNo accept

end Sys2Proof.Machine
end

