-- ==== Sys2Proof/Machine/Flags.lean ====
section
/-! DEFINITION. The event flags, the mask and ATTN (R190, R192). -/

namespace Sys2Proof.Machine

/-- A flag's bit (R199): DIRECTORY-FULL 0 to UNKNOWN-DEST 15. -/
def Flag.bit : Flag → Nat
  | .directoryFull => 0
  | .nodeClash => 1
  | .stationQuarantined => 2
  | .stationReleased => 3
  | .portIsolated => 4
  | .portRestored => 5
  | .portFailed => 6
  | .poolLow => 7
  | .spoolNearFull => 8
  | .spoolEmpty => 9
  | .printerStalled => 10
  | .jobAborted => 11
  | .sweepPassDone => 12
  | .sweepHalted => 13
  | .imageFault => 14
  | .unknownDest => 15

/-- A flag is raised. -/
def State.raised (s : State) (f : Flag) : Bool := s.flags.getLsbD f.bit

/-- A flag's mask setting is on. -/
def State.masked (s : State) (f : Flag) : Bool := s.mask.getLsbD f.bit

/-- A flag is counting: raised while its mask setting is on (R190). -/
def State.counting (s : State) (f : Flag) : Bool := s.raised f && s.masked f

/-- The ATTN pin: high while at least one flag is counting (R190). -/
def State.attn (s : State) : Bool := (s.flags &&& s.mask) ≠ 0

/-- Mark a flag raised. -/
def setFlag (f : Flag) (s : State) : State :=
  { s with flags := s.flags ||| (1#16 <<< f.bit) }

/-- Clear every flag and the notice outstanding (R192, R196). -/
def clearFlags (s : State) : State := { s with flags := 0, noticeOut := false }

/-- The payload of a NOTICE for a side: every raised flag, and the mask (R191, R200). -/
def noticePayload (side : Side) (s : State) : List Byte :=
  side.word s.flags.toNat ++ side.word s.mask.toNat

end Sys2Proof.Machine
end

