-- ==== Sys2Proof/Machine/Ops.lean ====
section
/-! DEFINITION. The shared operations: counters, lookups, the pool and its records, offers to the egress
queues, frames the part makes, raising a flag, purges. -/

namespace Sys2Proof.Machine

/-! ### Power and RESET -/

/-- The blocks act: power is applied and RESET is not held low (R17, log entry 25). -/
def State.active (s : State) : Bool := s.powered && !s.resetLow

/-- Do something while the blocks act. -/
def whenActive (f : State → State) (s : State) : State := if s.active then f s else s

/-! ### Changing one thing of a family -/

def modSeg (x : Seg) (f : SegPort → SegPort) (s : State) : State :=
  { s with segs := s.segs.set x (f (s.segs.get x)) }

def modLink (l : Link) (f : LinkPort → LinkPort) (s : State) : State :=
  { s with links := s.links.set l (f (s.links.get l)) }

def modIface (i : Iface) (f : IfaceState → IfaceState) (s : State) : State :=
  { s with ifaces := s.ifaces.set i (f (s.ifaces.get i)) }

def modLine (n : Line) (f : LineState → LineState) (s : State) : State :=
  { s with lines := s.lines.set n (f (s.lines.get n)) }

def modService (p : Port) (f : PortService → PortService) (s : State) : State :=
  { s with service := s.service.set p (f (s.service.get p)) }

def modJob (slot : Nat) (f : Job → Job) (s : State) : State :=
  match s.jobs.find slot with
  | none => s
  | some j => { s with jobs := s.jobs.put id slot (f j) }

def modSweep (f : Sweep → Sweep) (s : State) : State := { s with sweep := f s.sweep }

/-- Write a directory position. Position 0 is the bridge's for good (R53): a write there is no write. -/
def putEntry (i : Nat) (e : Entry) (s : State) : State :=
  if i = 0 then s else { s with dir := s.dir.put id i e }

/-- Free a directory position, never position 0 (R53). -/
def dropEntry (i : Nat) (s : State) : State :=
  if i = 0 then s else { s with dir := s.dir.drop i }

/-- The station a directory position holds. -/
def State.station (s : State) (i : Nat) : Option Station :=
  match s.dir.find i with
  | some ⟨_, _, _, .station t⟩ => some t
  | _ => none

/-- Change the station a directory position holds. -/
def modStation (i : Nat) (f : Station → Station) (s : State) : State :=
  match s.dir.find i with
  | some ⟨o, n, a, .station t⟩ => putEntry i ⟨o, n, a, .station (f t)⟩ s
  | _ => s

/-! ### Counters -/

/-- The place of a port in code order. -/
def portIndex (p : Port) : Nat := p.code.toNat

/-- A counter's place in the table of counters: its unit's block of numbers, then its place in the list
of its rule. -/
def Counter.ord : Counter → Nat
  | .seg x c => 0 + 100 * portIndex (.seg x) + c.ctorIdx
  | .link l c => 1000 + 100 * portIndex (.link l) + c.ctorIdx
  | .iface i c => 2000 + 100 * i.ctorIdx + c.ctorIdx
  | .pool c => 3000 + c.ctorIdx
  | .queue p c => 3000 + 100 * portIndex p + c.ctorIdx
  | .dir c => 4000 + c.ctorIdx
  | .forwardPart c => 5000 + c.ctorIdx
  | .forward p c => 5000 + 100 * portIndex p + c.ctorIdx
  | .spool c => 6000 + c.ctorIdx
  | .line n c => 7000 + 100 * n.ctorIdx + c.ctorIdx
  | .fault c => 8000 + c.ctorIdx
  | .faultPort p c => 8000 + 100 * portIndex p + c.ctorIdx
  | .service p c => 9000 + 100 * portIndex p + c.ctorIdx
  | .sweep c => 10000 + c.ctorIdx
  | .mgmt c => 11000 + c.ctorIdx

/-- A counter's value; a counter that the table does not list is 0. -/
def State.count (s : State) (c : Counter) : Nat := (s.counters.find c).getD 0

/-- Count `n` times: a counter saturates at its upper bound (R16). -/
def bumpBy (c : Counter) (n : Nat) (s : State) : State :=
  if n = 0 then s
  else { s with counters := s.counters.put Counter.ord c (min Config.counterMax (s.count c + n)) }

/-- Count once. -/
def bump (c : Counter) (s : State) : State := bumpBy c 1 s

/-- Set a counter to 0 (R193). -/
def clearCount (c : Counter) (s : State) : State := { s with counters := s.counters.drop c }

/-! ### Free values -/

/-- Take the next open order: a value no proof can see, and the counter moved on (log entry 4). -/
def freeOrder (s : State) : Bool × State :=
  (Config.freeChoice s.choices, { s with choices := s.choices + 1 })

/-! ### Lookups (R55) -/

/-- An entry holds a key. -/
def Entry.holds (e : Entry) : Key → Bool
  | .node n => e.trunk = some n
  | .address a => e.office = some a

/-- The key an entry holds on a side. -/
def Entry.keyOn (e : Entry) : Side → Option Key
  | .trunk => e.trunk.map .node
  | .pair => e.office.map .address

/-- The keys an entry holds. -/
def Entry.keys (e : Entry) : List Key := (e.keyOn .trunk).toList ++ (e.keyOn .pair).toList

/-- The entry that holds a key, with its index. A key that no entry may hold finds none. -/
def State.lookup (s : State) (k : Key) : Option (Nat × Entry) :=
  match k.class with
  | .station => s.dir.find? fun e => e.2.holds k
  | .bridge => s.dir.find? fun e => e.2.holds k
  | _ => none

/-- A directory position holds a station in standing QUARANTINED. -/
def State.quarantined (s : State) (i : Nat) : Bool :=
  match s.station i with
  | some t => t.standing = .quarantined
  | none => false

/-- Where a frame made for the station that holds a key goes: its home port and the key it holds on that
port's side (R113, R191). -/
def State.route (s : State) (k : Key) : Option (Port × Key) :=
  match s.lookup k with
  | some (_, e) =>
    match e.kind with
    | .station t =>
      match t.home with
      | some p => (e.keyOn p.side).map fun d => (p, d)
      | none => none
    | _ => none
  | none => none

/-! ### Frame records and references (R33, R37) -/

/-- The payload a record holds. -/
def State.payload (s : State) (rid : Nat) : List Byte :=
  match s.records.find rid with
  | some r => r.payload
  | none => []

/-- The blocks a record holds. -/
def State.blocksOf (s : State) (rid : Nat) : Nat :=
  match s.records.find rid with
  | some r => r.blocks
  | none => 0

/-- Add a reference to a record. -/
def addRef (rid : Nat) (s : State) : State :=
  match s.records.find rid with
  | some r => { s with records := s.records.put id rid { r with refs := r.refs + 1 } }
  | none => s

/-- Release a reference to a record; at the last one the record is freed and its blocks return to the
pool (R33, R37). -/
def releaseRef (rid : Nat) (s : State) : State :=
  match s.records.find rid with
  | some r =>
    if r.refs ≤ 1 then
      { s with
        records := s.records.drop rid
        pool :=
          { s.pool with free := s.pool.free + r.blocks, frameHeld := s.pool.frameHeld - r.blocks } }
    else { s with records := s.records.put id rid { r with refs := r.refs - 1 } }
  | none => s

/-- Move `n` blocks from free to frame-held (R33). -/
def takeFrameBlocks (n : Nat) (s : State) : State :=
  { s with
    pool := { s.pool with free := s.pool.free - n, frameHeld := s.pool.frameHeld + n } }

/-- Make a record of `n` blocks with reference count 1 (R1, R35). -/
def newRecord (n : Nat) (payload : List Byte) (s : State) : State :=
  let s := takeFrameBlocks n s
  { s with
    records := s.records.put id s.nextRecord ⟨n, payload, 1⟩
    nextRecord := s.nextRecord + 1 }

/-- After a take that found `before` blocks free: POOL-LOW is due where the free count fell through the
pool-low threshold in force (R39). -/
def fellLow (before : Nat) (s : State) : Bool :=
  s.config.poolLow ≤ before && s.pool.free < s.config.poolLow

/-! ### Offers to the egress queues (R42, R43) -/

/-- The blocks of the distinct records of a list of record names. -/
def distinctBlocks (s : State) : List Nat → Nat
  | [] => 0
  | r :: rest => (if r ∈ rest then 0 else s.blocksOf r) + distinctBlocks s rest

/-- A queue's quota use: the blocks of the distinct records its entries name (R42). -/
def State.quotaUse (s : State) (p : Port) : Nat :=
  distinctBlocks s ((s.queues.get p).map QueueEntry.record)

/-- Whether a record fits a queue: it is named there already, or its blocks fit the quota in force. -/
def State.fits (s : State) (p : Port) (rid : Nat) : Bool :=
  (s.queues.get p).any (fun e => e.record = rid) ||
    s.quotaUse p + s.blocksOf rid ≤ s.config.quota.get p

/-- How the frame memory judges an offer: none where the copy joins, else the counter of the refusal, by
the first test of R43 that applies. -/
def judgeOffer (p : Port) (e : QueueEntry) (s : State) : Option QueueCount :=
  let st := (s.service.get p).state
  let barred := match e.source with
    | .index i => s.quarantined i
    | _ => false
  if st ≠ .inService ∧ st ≠ .probing then some .refusedUnreachable
  else if barred then some .refusedQuarantinedSource
  else if p.side = .trunk ∧ Config.trunkPayload < (s.payload e.record).length then
    some .refusedTooLong
  else if Config.queueEntries ≤ (s.queues.get p).length ∨ s.fits p e.record = false then
    some .refusedQueueFull
  else none

/-- Offer a copy to a port's queue (R43): whether it joined, and the state after. -/
def offer (p : Port) (e : QueueEntry) (s : State) : Bool × State :=
  match judgeOffer p e s with
  | some c => (false, bump (.queue p c) s)
  | none =>
    let s := { s with queues := s.queues.set p (s.queues.get p ++ [e]) }
    (true, bump (.queue p .joined) (addRef e.record s))

/-! ### Frames the part makes (R35), flags and notices (R190, R191) -/

/-- What became of a frame the part made. -/
inductive OwnResult where
  /-- the pool refused its record -/
  | noRecord
  /-- its one offer was refused -/
  | refused
  | joined
deriving DecidableEq, Repr

/-- Ask for a whole record for an own frame. `low` is what a fall through pool-low does. -/
def ownRecordWith (low : State → State) (payload : List Byte) (s : State) : Option Nat × State :=
  let n := max 1 (blocksFor payload.length)
  if s.pool.free < n then (none, bump (.pool .ownFrameLost) s)
  else
    let before := s.pool.free
    let rid := s.nextRecord
    let s := newRecord n payload s
    (some rid, if fellLow before s then low s else s)

/-- The queue entry of a frame the part makes: ingress and source entry BRIDGE. -/
def ownEntry (p : Port) (dest : Key) (kind : Byte) (length rid : Nat) : QueueEntry :=
  ⟨⟨dest, p.side.bridgeKey, kind, length⟩, rid, none, .bridge⟩

/-- Make an own frame and offer it to one port's queue, then release the maker's reference (R35). -/
def sendOwnWith (low : State → State) (p : Port) (dest : Key) (kind : Byte) (payload : List Byte)
    (s : State) : OwnResult × State :=
  match ownRecordWith low payload s with
  | (none, s) => (.noRecord, s)
  | (some rid, s) =>
    match offer p (ownEntry p dest kind payload.length rid) s with
    | (true, s) => (.joined, releaseRef rid s)
    | (false, s) => (.refused, releaseRef rid s)

/-- Make a NOTICE (R191). Its payload is laid before its record is taken, so a POOL-LOW which that take raises
is not in it, and the second NOTICE that POOL-LOW may make is offered inside that take and so joins its queue
first: the model's choices (log entry 69; that a second is made is log entry 10's). -/
def makeNoticeWith (low : State → State) (s : State) : State :=
  match s.config.notice with
  | none => s
  | some k =>
    match s.route k with
    | none => bump (.mgmt .noticeNoRoute) s
    | some (p, d) =>
      match sendOwnWith low p d kindNotice (noticePayload p.side s) s with
      | (.joined, s) => bump (.mgmt .noticesSent) { s with noticeOut := true }
      | (_, s) => bump (.mgmt .noticeLost) s

/-- A flag that has just become counting makes a NOTICE unless one is outstanding (R190). -/
def becomeCounting (low : State → State) (s : State) : State :=
  if s.noticeOut then s else makeNoticeWith low s

/-- Raise a flag (R190). A raise of a flag already raised changes nothing. -/
def raiseWith (low : State → State) (f : Flag) (s : State) : State :=
  if s.raised f then s
  else
    let s := setFlag f s
    if s.masked f then becomeCounting low s else s

/-- POOL-LOW raised by the take of a NOTICE's own record (log entry 10). A second NOTICE made there finds
the free count below the threshold already, so its take raises nothing (R39). It lists POOL-LOW, and joins its
queue ahead of the NOTICE whose take this is: the model's choice (log entry 69). -/
def raiseLowInNotice (s : State) : State := raiseWith (setFlag .poolLow) .poolLow s

/-- Raise a flag; ATTN follows (it is computed), and a NOTICE is made where R190 says. -/
def raise (f : Flag) (s : State) : State := raiseWith raiseLowInNotice f s

/-- Ask for a whole record for an own frame (R35). -/
def ownRecord (payload : List Byte) (s : State) : Option Nat × State :=
  ownRecordWith (raise .poolLow) payload s

/-- Make an own frame for one port's queue (R35). -/
def sendOwn (p : Port) (dest : Key) (kind : Byte) (payload : List Byte) (s : State) :
    OwnResult × State :=
  sendOwnWith (raise .poolLow) p dest kind payload s

/-- A reception's take of a first block with a new record (R34): the record's name, or none where no
block is free. -/
def startRecord (s : State) : Option Nat × State :=
  if s.pool.free = 0 then (none, s)
  else
    let before := s.pool.free
    let rid := s.nextRecord
    let s := newRecord 1 [] s
    (some rid, if fellLow before s then raise .poolLow s else s)

/-- Add a payload byte to a reception's record, taking one more block where every block is full (R2,
R22, R34). False where the pool refuses. -/
def storeByte (rid : Nat) (b : Byte) (s : State) : Bool × State :=
  match s.records.find rid with
  | none => (true, s)
  | some r =>
    if r.payload.length < Config.blockBytes * r.blocks then
      (true, { s with records := s.records.put id rid { r with payload := r.payload ++ [b] } })
    else if s.pool.free = 0 then (false, s)
    else
      let before := s.pool.free
      let s := takeFrameBlocks 1 s
      let s := { s with
        records := s.records.put id rid { r with blocks := r.blocks + 1, payload := r.payload ++ [b] } }
      (true, if fellLow before s then raise .poolLow s else s)

/-! ### Transmissions in flight and purges (R13, R26, R44 to R48) -/

/-- What a port's transmitter has taken. -/
def State.inFlight (s : State) : Port → Option InFlight
  | .seg x => (s.segs.get x).inFlight
  | .link l => (s.links.get l).inFlight

/-- The loop mode of a port. -/
def State.loopMode (s : State) : Port → LoopMode
  | .seg x => (s.segs.get x).loop
  | .link l => (s.links.get l).loop

/-- The header and the record of the frame a transmitter would find: its queue's head, or the TEST frame
in its slot, whose keys are the bridge's own (R162). -/
def State.frameOf (s : State) (p : Port) : InFlight → Option (Header × Nat)
  | .head => (s.queues.get p).head?.map fun e => (e.header, e.record)
  | .test => (s.slots.get p).map fun rid =>
      (⟨p.side.bridgeKey, p.side.bridgeKey, kindTest, (s.payload rid).length⟩, rid)

/-- Release the transmission's reference of the frame in flight, if there is one (R37, R44). -/
def releaseInFlight (p : Port) (s : State) : State :=
  match s.inFlight p with
  | some f =>
    match s.frameOf p f with
    | some (_, rid) => releaseRef rid s
    | none => s
  | none => s

/-- A transmitter with nothing in flight: IDLE, attempt count 0, unterminated seen no. -/
def SegPort.txIdle (t : SegPort) : SegPort :=
  { t with tx := .idle, inFlight := none, wire := [], attempts := 0, retryTimer := none
           untermSeen := false }

/-- A link transmitter with nothing in flight: IDLE. -/
def LinkPort.txIdle (t : LinkPort) : LinkPort :=
  { t with tx := .idle, inFlight := none, wire := [] }

/-- The reception in progress is looped back within the part (R1). -/
def SegRx.looping : SegRx → Bool
  | .receiving r => r.looped
  | _ => false

/-- The receiver is taken up by the port's own looped-back transmission, which ends with the attempt
(R1). -/
def SegRx.own : SegRx → Bool
  | .receiving r => r.looped
  | .discarding looped => looped
  | .idle => false

/-- The reception in progress is looped back within the part (R21). -/
def LinkRx.looping : LinkRx → Bool
  | .receiving r => r.looped
  | _ => false

/-- The receiver is taken up by the port's own looped-back transmission, and free when that ends (R21). -/
def LinkRx.own : LinkRx → Bool
  | .receiving r => r.looped
  | .discarding looped => looped
  | .idle => false

/-- The reception in progress comes from the line (R21). -/
def LinkRx.outside : LinkRx → Bool
  | .receiving r => !r.looped
  | _ => false

/-- The transmitter stops: IDLE with nothing in flight. A link's gap runs out (R26). -/
def idleTx (p : Port) (s : State) : State :=
  match p with
  | .seg x => modSeg x SegPort.txIdle s
  | .link l => modLink l (fun t => if t.tx = .gap then t else t.txIdle) s

/-- The frame in flight is aborted in any transmitter state (R13, R26). -/
def abortTx (p : Port) (s : State) : State := idleTx p (releaseInFlight p s)

/-- Empty the test slot and release its reference (R45). -/
def emptySlot (p : Port) (s : State) : State :=
  match s.slots.get p with
  | some rid => releaseRef rid { s with slots := s.slots.set p none }
  | none => s

/-- The reasons of a purge by port (R46). -/
inductive PurgeReason where
  | isolation
  | failed
  | off
  | linkLoss
  | restart
  | clearAll
deriving DecidableEq, Repr

/-- The counter of a purge's reason (R50). -/
def PurgeReason.counter : PurgeReason → QueueCount
  | .isolation => .purgedIsolation
  | .failed => .purgedFailed
  | .off => .purgedOff
  | .linkLoss => .purgedLinkLoss
  | .restart => .purgedRestart
  | .clearAll => .purgedClearAll

/-- Release the reference of each of a list of queue entries. -/
def releaseEntries : List QueueEntry → State → State
  | [], s => s
  | e :: es, s => releaseEntries es (releaseRef e.record s)

/-- A purge by port: the frame in flight is aborted, the test slot emptied, every entry leaves, counted
under the reason (R46). -/
def purgePort (p : Port) (why : PurgeReason) (s : State) : State :=
  let s := emptySlot p (abortTx p s)
  let es := s.queues.get p
  let s := releaseEntries es { s with queues := s.queues.set p [] }
  bumpBy (.queue p why.counter) es.length s

/-- The entries of a queue that a purge by source entry leaves: the head in flight, and every entry of
another source (R47). -/
def keptBySource (i : Nat) (headInFlight : Bool) : List QueueEntry → List QueueEntry
  | [] => []
  | e :: es =>
    let rest := es.filter fun d => d.source ≠ .index i
    if headInFlight ∨ e.source ≠ .index i then e :: rest else rest

/-- The entries a purge by source entry removes. -/
def goneBySource (i : Nat) (headInFlight : Bool) : List QueueEntry → List QueueEntry
  | [] => []
  | e :: es =>
    let rest := es.filter fun d => d.source = .index i
    if headInFlight = false ∧ e.source = .index i then e :: rest else rest

/-- A purge by source entry on one port's queue (R47). -/
def purgeSourceAt (i : Nat) (p : Port) (s : State) : State :=
  let inFlight := s.inFlight p = some .head
  let es := s.queues.get p
  let gone := goneBySource i inFlight es
  let s := { s with queues := s.queues.set p (keptBySource i inFlight es) }
  bumpBy (.queue p .purgedQuarantine) gone.length (releaseEntries gone s)

/-- A purge by source entry of the six queues (R47). -/
def purgeSource (i : Nat) (s : State) : State :=
  Port.all.foldl (fun s p => purgeSourceAt i p s) s

/-- A queue entry after its source entry has been removed from the directory. -/
def QueueEntry.forget (i : Nat) (e : QueueEntry) : QueueEntry :=
  if e.source = .index i then { e with source := .none } else e

/-- Remove a directory entry, whatever the cause: the queue entries that name it change to NONE, and its
index is free (R48, R61). -/
def removeEntry (i : Nat) (s : State) : State :=
  dropEntry i { s with queues := s.queues.map fun es => es.map (QueueEntry.forget i) }

end Sys2Proof.Machine
end

