-- ==== Sys2Proof/Machine/Spool.lean ====
section
/-! DEFINITION. The spool controller's own operations: the job table, spool blocks, ready queues, statuses
and the end of a job (06_print_jobs.md). -/

namespace Sys2Proof.Machine

/-! ### The job table (R100, R101, R110) -/

/-- A job is in service on a line. -/
def Job.inService (j : Job) : Bool :=
  match j.state with
  | .printing | .stalled | .draining => true
  | _ => false

/-- A job waits in the ready queue of a target and a level. -/
def Job.readyIn (j : Job) (t : Target) (l : Fin 4) : Bool :=
  j.state = .ready && j.target = t && j.level = l

/-- The live job a submitter and a tag name, with its slot (R101). -/
def State.jobOf (s : State) (u : Key) (tag : Byte) : Option (Nat × Job) :=
  s.jobs.find? fun e => e.2.submitter = u ∧ e.2.tag = tag

/-- The number of live jobs of a submitter. -/
def State.liveOf (s : State) (u : Key) : Nat := s.jobs.countP fun e => e.2.submitter = u

/-- The earlier of two jobs by ready order. -/
def earlierJob (a b : Nat × Job) : Nat × Job :=
  if a.2.readyOrder.getD 0 ≤ b.2.readyOrder.getD 0 then a else b

/-- The job with the earliest ready order. -/
def earliestJob : List (Nat × Job) → Option (Nat × Job)
  | [] => none
  | e :: es =>
    match earliestJob es with
    | none => some e
    | some d => some (earlierJob e d)

/-- The jobs of a ready queue, in slot order; their queue order is that of their ready orders
(log entry 8). -/
def State.readyJobs (s : State) (t : Target) (l : Fin 4) : List (Nat × Job) :=
  s.jobs.filter fun e => e.2.readyIn t l

/-- The head of a ready queue (R110). -/
def State.readyHead (s : State) (t : Target) (l : Fin 4) : Option (Nat × Job) :=
  earliestJob (s.readyJobs t l)

/-- The place of a job in its ready queue, 1 at the head; 0 where it is not READY. -/
def State.readyPlace (s : State) (j : Job) : Nat :=
  if j.state = .ready then
    (s.readyJobs j.target j.level).countP fun e => e.2.readyOrder.getD 0 ≤ j.readyOrder.getD 0
  else 0

/-! ### Spool blocks (R36, R39, R40) -/

/-- The spool-held count from which the spool is near-full (R40). -/
def State.nearFullAt (s : State) : Nat := s.config.spoolLimit - s.config.nearFullMargin

/-- The spool asks for one block (R36). False where a test refuses it. -/
def spoolTake (s : State) : Bool × State :=
  if s.pool.free < s.config.reserve + 1 then (false, bump (.pool .spoolRefusedReserve) s)
  else if s.config.spoolLimit < s.pool.spoolHeld + 1 then
    (false, bump (.pool .spoolRefusedLimit) s)
  else
    (true, { s with
      pool := { s.pool with free := s.pool.free - 1, spoolHeld := s.pool.spoolHeld + 1 } })

/-- The flags a block taken by the spool raises, from the counts before the take (R39, R40). R40 gives the
two no order: POOL-LOW with its NOTICE before SPOOL-NEAR-FULL is the model's choice (log entry 62). -/
def spoolTook (before : Pool) (s : State) : State :=
  let near := before.spoolHeld < s.nearFullAt && s.nearFullAt ≤ before.spoolHeld + 1
  let s := if fellLow before.free s then raise .poolLow s else s
  if near then raise .spoolNearFull s else s

/-- A job's blocks return to the pool (R33, R36). -/
def returnSpoolBlocks (n : Nat) (s : State) : State :=
  { s with pool := { s.pool with free := s.pool.free + n, spoolHeld := s.pool.spoolHeld - n } }

/-! ### Statuses (R113) -/

/-- Make a PRINT-STATUS and send it to its submitter, or lose it. Where an alias holds the submitter's key
by then, the status has no route (R113 gives no row for it, log entry 45). -/
def sendStatus (u : Key) (tag : Byte) (a : Answer) (s : State) : State :=
  match s.route u with
  | none => bump (.spool .statusNoRoute) s
  | some (p, d) =>
    match sendOwn p d kindPrintStatus (statusPayload tag a) s with
    | (.joined, s) => bump (.spool .statusesSent) s
    | (_, s) => bump (.spool .statusLost) s

/-! ### The end of a job (R112) -/

/-- The counter of an outcome (R120). -/
def JobEnd.counter : JobEnd → SpoolCount
  | .printed => .printed
  | .cancelledSubmitter => .cancelledSubmitter
  | .cancelledManager => .cancelledManager
  | .aborted .gap => .abortedGap
  | .aborted .arrivalTimeout => .abortedArrivalTimeout
  | .aborted .noSpace => .abortedNoSpace
  | .aborted .lengthMismatch => .abortedLengthMismatch
  | .aborted .empty => .abortedEmpty
  | .aborted .restarted => .abortedRestarted
  | .aborted .flushed => .abortedFlushed
  | .aborted .quarantine => .abortedQuarantine

/-- An outcome is ABORTED. -/
def JobEnd.isAborted : JobEnd → Bool
  | .aborted _ => true
  | _ => false

/-- End a job with an outcome: chain returned, slot freed, JOB-ABORTED, counter, status. The end by a
quarantine makes no status (R114). -/
def endJob (slot : Nat) (e : JobEnd) (s : State) : State :=
  match s.jobs.find slot with
  | none => s
  | some j =>
    let held := s.pool.spoolHeld
    let s : State := { returnSpoolBlocks (blocksFor j.bytes.length) s with jobs := s.jobs.drop slot }
    let s := if 0 < held ∧ s.pool.spoolHeld = 0 then raise .spoolEmpty s else s
    let s := if e.isAborted then raise .jobAborted s else s
    let s := bump (.spool e.counter) s
    if e = .aborted .quarantine then s else sendStatus j.submitter j.tag (.ended e) s

/-- End the ARRIVING jobs of a list of slots for which a test holds. -/
def abortWhere (test : Job → Bool) (why : AbortReason) : List Nat → State → State
  | [], s => s
  | slot :: rest, s =>
    match s.jobs.find slot with
    | none => abortWhere test why rest s
    | some j =>
      abortWhere test why rest
        (if j.state = .arriving ∧ test j then endJob slot (.aborted why) s else s)

/-- A quarantine ends the ARRIVING jobs of a station's keys, in slot order (R114). -/
def abortArriving (keys : List Key) (s : State) : State :=
  abortWhere (fun j => keys.contains j.submitter) .quarantine (s.jobs.map Prod.fst) s

/-- One second of an ARRIVING job (R109). -/
def Job.quietSecond (j : Job) : Job :=
  if j.state = .arriving then { j with quiet := min 255 (j.quiet + 1) } else j

/-- The second expiry at the spool (R109): every ARRIVING job counts a second, and those at or above the
arrival timeout in force are aborted. R109 gives them no order: slot order is the model's choice (log entry
19). -/
def arrivalSecond (s : State) : State :=
  let s := { s with jobs := s.jobs.map fun e => (e.1, e.2.quietSecond) }
  let limit := s.config.arrivalTimeout
  abortWhere (fun j => limit ≤ j.quiet) .arrivalTimeout (s.jobs.map Prod.fst) s

/-- CLEAR-ALL ends every live job without a status, a flag or an outcome counter (R121). -/
def clearJobs (s : State) : State :=
  { s with
    jobs := []
    pool := { s.pool with free := s.pool.free + s.pool.spoolHeld, spoolHeld := 0 } }

end Sys2Proof.Machine
end

