-- ==== Sys2Proof/Machine/FaultMonitor.lean ====
section
/-! DEFINITION. The fault monitor at the directory and the window: attribution, standing, quarantine, sweep
actions, window and minute expiries (08_fault_monitoring_and_quarantine.md). The ports' reports and the
requests they make are in FaultReports.lean. -/

namespace Sys2Proof.Machine

/-! ### Quarantine (R153, R154) -/

/-- The keys of the entry at an index. -/
def State.keysAt (s : State) (i : Nat) : List Key :=
  match s.dir.find i with
  | some e => e.keys
  | none => []

/-- The news of a quarantine: the keys of the station, and the cause where it enters QUARANTINED anew. A
batch of edits gathers the news it makes, and it is taken when the batch is applied (R69, log entry 43). -/
structure QuarantineNews where
  keys : List Key
  cause : Option FaultCount
deriving DecidableEq, Repr

/-- The news is taken: the flag and the count of a new entry, and the spool ask (R114, R153, R154). -/
def QuarantineNews.take (n : QuarantineNews) (s : State) : State :=
  abortArriving n.keys (match n.cause with
    | some c => bump (.fault c) (raise .stationQuarantined s)
    | none => s)

/-- Put a station into QUARANTINED with a number of minutes, and purge by source entry (R47, R153). -/
def setQuarantined (i minutes : Nat) (s : State) : State :=
  purgeSource i (modStation i (fun t => { t with standing := .quarantined, minutes := minutes }) s)

/-- A station enters QUARANTINED with a cause's counter and a number of minutes (R153). The purge comes
before the flag and its NOTICE, and the end of the ARRIVING jobs after them: the model's choice (log entry
61). -/
def enterQuarantine (i : Nat) (cause : FaultCount) (minutes : Nat) (s : State) : State :=
  QuarantineNews.take ⟨s.keysAt i, some cause⟩ (setQuarantined i minutes s)

/-- Put a station into QUARANTINED by an edit or a sweep action, or renew it: the news it makes, and the
state but for the news (R69, R153, R154, R157). -/
def quarantineStation (i : Nat) (cause : FaultCount) (s : State) : QuarantineNews × State :=
  let t := setQuarantined i s.config.quarantineTime s
  if s.quarantined i then (⟨s.keysAt i, none⟩, bump (.fault .quarantineRenewed) t)
  else (⟨s.keysAt i, some cause⟩, t)

/-! ### Attribution and judgement (R150, R151) -/

/-- The standing becomes SUSPECT (R151, R157). -/
def suspect (i : Nat) (s : State) : State :=
  bump (.fault .suspected) (modStation i (fun t => { t with standing := .suspect }) s)

/-- The judgement of a SUSPECT entry (R151). -/
def judgeSuspect (i tally : Nat) (s : State) : State :=
  if s.config.quarantineThreshold ≤ tally then
    enterQuarantine i .quarantineThreshold s.config.quarantineTime s
  else s

/-- The judgement of the standing after an attributed error (R151). -/
def judgeStanding (i : Nat) (s : State) : State :=
  match s.station i with
  | none => s
  | some t =>
    match t.standing with
    | .good => if s.config.suspectThreshold ≤ t.tally then judgeSuspect i t.tally (suspect i s) else s
    | .suspect => judgeSuspect i t.tally s
    | .probation => enterQuarantine i .quarantineProbation s.config.quarantineTime s
    | .quarantined => s

/-- Lay an error to the station its source key names (R150). -/
def laidTo (k : Key) (s : State) : State :=
  if k.isStation = false then bump (.fault .unattributable) s
  else
    match s.lookup k with
    | none => bump (.fault .attributedNoEntry) s
    | some (i, e) =>
      match e.kind with
      | .station _ =>
        let s := modStation i (fun t => { t with tally := min 255 (t.tally + 1) }) s
        judgeStanding i (bump (.fault .attributedErrors) s)
      | _ => bump (.fault .attributedToAlias) s

/-! ### Sweep actions (R157) -/

/-- MARK-SUSPECT on a station. -/
def markSuspect (k : Key) (s : State) : State :=
  match s.lookup k with
  | some (i, ⟨_, _, _, .station t⟩) => if t.standing = .good then suspect i s else s
  | _ => bump (.fault .sweepActionNoEntry) s

/-- QUARANTINE on a station. -/
def sweepQuarantine (k : Key) (s : State) : State :=
  match s.lookup k with
  | some (i, ⟨_, _, _, .station _⟩) =>
    let (news, s) := quarantineStation i .quarantineSweep s
    news.take s
  | _ => bump (.fault .sweepActionNoEntry) s

/-! ### Window counts (R145, R149, R160) -/

/-- A port's window counts become 0 and its marks are cleared (R149). -/
def clearPortWindow (p : Port) (s : State) : State :=
  let s := { s with marks := s.marks.set p .clear }
  match p with
  | .seg x => { s with segWin := s.segWin.set x .zero }
  | .link l => { s with linkWin := s.linkWin.set l .zero }

/-- Every port's window counts and marks are cleared and a window begins (R145, R160). -/
def beginWindow (s : State) : State :=
  { s with
    segWin := .fill .zero, linkWin := .fill .zero, marks := .fill .clear
    window := ⟨true, 0, s.config.windowLength⟩ }

/-- The station work of a window expiry on one entry (R152). -/
def windowStation (i : Nat) (s : State) : State :=
  match s.station i with
  | none => s
  | some t =>
    let s :=
      if t.standing = .suspect ∧ t.tally < s.config.suspectThreshold then
        bump (.fault .recovered) (modStation i (fun t => { t with standing := .good }) s)
      else if t.standing = .probation ∧ t.tally = 0 then
        bump (.fault .probationPassed)
          (raise .stationReleased (modStation i (fun t => { t with standing := .good }) s))
      else s
    modStation i (fun t => { t with tally := 0 }) s

/-- Do something at each of a list of directory positions, in order. -/
def atEach (f : Nat → State → State) (is : List Nat) (s : State) : State :=
  is.foldl (fun s i => f i s) s

/-- The directory positions in use, in index order. -/
def State.indices (s : State) : List Nat := s.dir.map Prod.fst

/-- The window expires (R145): the station work, then a new window. -/
def windowExpiry (s : State) : State := beginWindow (atEach windowStation s.indices s)

/-- The minute expiry on one entry (R155). -/
def minuteStation (i : Nat) (s : State) : State :=
  match s.station i with
  | none => s
  | some t =>
    if t.standing = .quarantined ∧ 0 < t.minutes then
      if t.minutes = 1 then
        bump (.fault .probations)
          (modStation i (fun t => { t with standing := .probation, minutes := 0 }) s)
      else modStation i (fun t => { t with minutes := t.minutes - 1 }) s
    else s

/-! ### The commands -/

/-- WINDOW_EXPIRY (R145): only while the window clock runs. -/
def execWindowExpiry (s : State) : Host.Outcome State Fault Refusal :=
  .next (whenActive (fun s => if s.window.running then windowExpiry s else s) s)

/-- MINUTE_EXPIRY (R155). -/
def execMinuteExpiry (s : State) : Host.Outcome State Fault Refusal :=
  .next (whenActive (fun s => atEach minuteStation s.indices s) s)

end Sys2Proof.Machine
end

