-- ==== Sys2Proof/Machine/Replies.lean ====
section
/-! DEFINITION. MGMT-REPLY frames and the held reply of CLEAR-ALL (R188, R196). -/

namespace Sys2Proof.Machine

/-- The request number a payload holds, 0 where it is too short (R188). -/
def Request.number (q : Request) : Byte := byteAt q.payload 0

/-- The request code a payload holds, 0 where it is too short. -/
def Request.code (q : Request) : Byte := byteAt q.payload 1

/-- The side a request came from. -/
def Request.side (q : Request) : Side := q.port.side

/-- The payload of a reply: number, code, status, reserved, results (R200). -/
def replyPayload (q : Request) (st : Status) (results : List Byte) : List Byte :=
  [q.number, q.code, st.code, 0] ++ results

/-- The counter of a reply's status: MALFORMED and BUSY refusals are counted (R187, log entry 26). -/
def countStatus (st : Status) (s : State) : State :=
  match st with
  | .malformed => bump (.mgmt .malformed) s
  | .busy => bump (.mgmt .busyRefused) s
  | _ => s

/-- Make a MGMT-REPLY and offer it to the arrival port's queue, or lose it (R188). -/
def sendReply (q : Request) (st : Status) (results : List Byte) (s : State) : State :=
  match sendOwn q.port q.source kindMgmtReply (replyPayload q st results) (countStatus st s) with
  | (.joined, s) => bump (.mgmt .repliesSent) s
  | (_, s) => bump (.mgmt .replyLost) s

/-- Offer the held reply (R196). Its record is taken now, and none while it was held: the model's choice
(log entry 52). -/
def offerHeld (q : Request) (s : State) : State :=
  sendReply q .done [] { s with heldReply := none }

/-- Lose the held reply, if there is one (R196). -/
def loseHeld (s : State) : State :=
  if s.heldReply.isSome then bump (.mgmt .replyLost) { s with heldReply := none } else s

/-- What a port's new service state does to the held reply (R196). -/
def settleHeld (p : Port) (st : Service) (s : State) : State :=
  match s.heldReply with
  | none => s
  | some q =>
    if q.port = p then
      match st with
      | .inService => offerHeld q s
      | .isolated | .failed | .off => loseHeld s
      | .probing | .testing => s
    else s

end Sys2Proof.Machine
end

