-- ==== Sys2Proof/Machine/Isolation.lean ====
section
/-! DEFINITION. The isolation controller: loop modes, TEST frames, entry tests, sweep loops, isolation, and
a link's line going down (09_port_service_isolation_and_testing.md, R15, R24, R26 to R30). -/

namespace Sys2Proof.Machine

/-! ### The port's side: receptions and loop modes (R15, R24, R27) -/

/-- Throw away a reception's record: its reference is the only one (R2, R24). -/
def dropRecord (rid : Nat) (s : State) : State := releaseRef rid s

/-- Abandon the reception in progress of a segment: not counted, not reported, receiver IDLE (R15). -/
def abandonSeg (x : Seg) (s : State) : State :=
  match (s.segs.get x).rx with
  | .receiving r => modSeg x (fun t => { t with rx := .idle }) (dropRecord r.record s)
  | _ => modSeg x (fun t => { t with rx := .idle }) s

/-- Abandon the reception in progress of a link (R24, R27). -/
def abandonLink (l : Link) (s : State) : State :=
  match (s.links.get l).rx with
  | .receiving r => modLink l (fun t => { t with rx := .idle }) (dropRecord r.record s)
  | _ => modLink l (fun t => { t with rx := .idle }) s

/-- Put a port in a loop mode: the reception in progress is abandoned and a TEST frame in flight is
aborted, the slot with it (R15, R27). -/
def setLoopMode (p : Port) (m : LoopMode) (s : State) : State :=
  if s.loopMode p = m then s
  else
    let s := if s.inFlight p = some .test then emptySlot p (abortTx p s) else s
    match p with
    | .seg x => modSeg x (fun t => { t with loop := m }) (abandonSeg x s)
    | .link l => modLink l (fun t => { t with loop := m }) (abandonLink l s)

/-! ### Service state -/

/-- A port's service state. -/
def State.serviceOf (s : State) (p : Port) : Service := (s.service.get p).state

/-- The test in progress on a port. -/
def State.testOf (s : State) (p : Port) : Option PortTest := (s.service.get p).test

/-- Set a port's service state; a held reply that waits for the port meets it (R196). -/
def setService (p : Port) (st : Service) (s : State) : State :=
  settleHeld p st (modService p (fun v => { v with state := st }) s)

/-- Change the test in progress on a port. -/
def modTest (p : Port) (f : PortTest → PortTest) (s : State) : State :=
  modService p (fun v => { v with test := v.test.map f }) s

/-! ### TEST frames (R45, R162) -/

/-- The payload of the frame out. -/
def State.testFrame (s : State) (p : Port) (t : PortTest) : List Byte :=
  testPayload p (s.service.get p).testNumber t.phase t.sequence

/-- The time a TEST frame has: 10 ms in the INTERNAL phase, 100 ms in the EXTERNAL phase (R162). -/
def frameTime : TestPhase → Nat
  | .external => 100
  | _ => 10

/-- The phase sends TEST frames. -/
def TestPhase.sends : TestPhase → Bool
  | .internal | .external => true
  | _ => false

/-- Place the frame out in the test slot: the maker's reference becomes the slot's. The timer runs from
the first placing. While the slot holds a frame, or the pool refuses a record, the frame waits (R162). A
timer that runs from a first placing runs on while a fresh frame waits for a record (log entry 17). -/
def placeTest (p : Port) (s : State) : State :=
  match s.testOf p with
  | none => s
  | some t =>
    if t.phase.sends = false then s
    else if (s.slots.get p).isSome then modTest p (fun t => { t with wait := .slot }) s
    else
      match ownRecord (s.testFrame p t) s with
      | (none, s) =>
        bump (.service p .testFrameLost) (modTest p (fun t => { t with wait := .record }) s)
      | (some rid, s) =>
        modTest p (fun t => { t with
          wait := .none, timer := some (t.timer.getD (frameTime t.phase)) })
          { s with slots := s.slots.set p (some rid) }

/-- A frame out that waits for the slot is placed once the slot is empty. -/
def fillSlot (p : Port) (s : State) : State :=
  match s.testOf p with
  | some t => if t.wait = .slot ∧ s.slots.get p = none then placeTest p s else s
  | none => s

/-- The loop mode of a phase. -/
def TestPhase.mode : TestPhase → LoopMode
  | .internal => .internal
  | .external => .external
  | .waitConnect | .held => .normal

/-- Begin a phase of the test in progress: its loop mode, and its first frame (R164). -/
def startPhase (p : Port) (ph : TestPhase) (s : State) : State :=
  let s := modTest p (fun t => { t with phase := ph, sequence := 1, timer := none, wait := .none }) s
  placeTest p (setLoopMode p ph.mode s)

/-- Begin a test with a new test number (R161, R164, R169). -/
def beginTest (p : Port) (why : TestPurpose) (ph : TestPhase) (s : State) : State :=
  let s := modService p (fun v => { v with
    testNumber := v.testNumber + 1, test := some ⟨why, ph, 1, none, .none⟩ }) s
  startPhase p ph s

/-- End the test in progress: loop mode NORMAL, the slot taken back, the record dropped (R163). -/
def endTest (p : Port) (s : State) : State :=
  let s := emptySlot p (setLoopMode p .normal s)
  modService p (fun v => { v with test := none }) s

/-! ### Results for the sweep engine (R169, R170) -/

/-- Hand a loop's result to the sweep engine, which takes it before the command ends (log entry 15). -/
def handResult (p : Port) (pass : Bool) (s : State) : State :=
  let s := bump (.service p (if pass then .probesPass else .probesFail)) s
  match s.sweep.outstanding with
  | some (.loop k kind _) => modSweep (fun w => { w with outstanding := some (.loop k kind (some pass)) }) s
  | _ => s

/-- A test run for the sweep engine. -/
def PortTest.isLoop (t : PortTest) : Bool := t.purpose ≠ .entry

/-- Cut off the test in progress, with result FAIL where it is a sweep loop (R164, R170). -/
def cutTest (p : Port) (s : State) : State :=
  match s.testOf p with
  | none => s
  | some t => if t.isLoop then handResult p false (endTest p s) else endTest p s

/-! ### Entry tests (R164 to R166) -/

/-- A port can be tested at once: a segment, or a CONNECTED link. -/
def State.ready (s : State) : Port → Bool
  | .seg _ => true
  | .link l => (s.links.get l).line = .connected

/-- Begin an entry test (R164). -/
def beginEntry (p : Port) (s : State) : State :=
  beginTest p .entry (if s.ready p then .internal else .waitConnect) s

/-- Stop the hold timer, and a hold expiry that waits. -/
def stopHold (p : Port) (s : State) : State :=
  modService p (fun v => { v with holdTimer := none, holdExpired := false }) s

/-- Enter TESTING and begin an entry test; the caller has cut off a test in progress and purged (R164). -/
def enterTesting (p : Port) (s : State) : State := beginEntry p (setService p .testing (stopHold p s))

/-- Enter ISOLATED with a cause (R165, R167). -/
def enterIsolated (p : Port) (c : IsolationCause) (s : State) : State :=
  let s := purgePort p .isolation (setService p .isolated s)
  let s := modService p (fun v => { v with
    cause := some c, holdTimer := some v.holdTime, holdExpired := false, restoreDue := true }) s
  let count : ServiceCount := match c with
    | .errors => .isolationsErrors
    | .flapping => .isolationsFlapping
    | .line => .isolationsLine
    | .sweep => .isolationsSweep
    | .test => .isolationsTest
  raise .portIsolated (bump (.service p count) s)

/-- Both phases of an entry test passed (R165). -/
def entryPassed (p : Port) (s : State) : State :=
  let s := endTest p s
  let due := (s.service.get p).restoreDue
  let s := modService p (fun v => { v with holdTime := 5, failedTests := 0, restoreDue := false }) s
  let s := clearPortWindow p (bump (.service p .testsPassed) s)
  let s := setService p .inService s
  if due then raise .portRestored s else s

/-- The INTERNAL phase of an entry test failed (R165). -/
def entryFailedInternal (p : Port) (s : State) : State :=
  let s := endTest p s
  let s := modService p (fun v => { v with
    failedTests := min 255 (v.failedTests + 1), restoreDue := true }) s
  let s := bump (.service p .testsFailedInternal) s
  raise .portFailed (purgePort p .failed (setService p .failed s))

/-- The EXTERNAL phase of an entry test failed (R165). -/
def entryFailedExternal (p : Port) (s : State) : State :=
  let s := endTest p s
  let s := modService p (fun v => { v with
    failedTests := min 255 (v.failedTests + 1), holdTime := min 320 (2 * v.holdTime) }) s
  enterIsolated p .test (bump (.service p .testsFailedExternal) s)

/-! ### The end of a loop (R168 to R170) -/

/-- A hold expiry that waited for a loop's end is taken (R168). -/
def takeWaitingHold (p : Port) (s : State) : State :=
  if (s.service.get p).holdExpired ∧ s.serviceOf p = .isolated then enterTesting p s else s

/-- After a loop has ended with a verdict or been stopped: a PROBING port returns to IN-SERVICE, an
ISOLATED one takes a hold expiry that waited (R168, R170). -/
def afterLoop (p : Port) (s : State) : State :=
  takeWaitingHold p (if s.serviceOf p = .probing then setService p .inService s else s)

/-- A loop ends with a verdict (R169). -/
def loopEnded (p : Port) (pass : Bool) (s : State) : State := handResult p pass (afterLoop p (endTest p s))

/-- STOP-SWEEP cuts a loop off with no result (R170, R183). -/
def stopLoop (p : Port) (s : State) : State :=
  match s.testOf p with
  | some t => if t.isLoop then afterLoop p (endTest p s) else s
  | none => s

/-! ### Verdicts of phases and frames -/

/-- The phase of the test in progress fails (R162, R164, R169). -/
def phaseFailed (p : Port) (s : State) : State :=
  match s.testOf p with
  | none => s
  | some t =>
    if t.isLoop then loopEnded p false s
    else if t.phase = .external then entryFailedExternal p s
    else entryFailedInternal p s

/-- The phase of the test in progress passes (R164, R165, R169). -/
def phasePassed (p : Port) (s : State) : State :=
  match s.testOf p with
  | none => s
  | some t =>
    if t.isLoop then loopEnded p true s
    else if t.phase = .external then entryPassed p s
    else startPhase p .external s

/-- The frame out is returned (R162). -/
def frameReturned (p : Port) (s : State) : State :=
  match s.testOf p with
  | none => s
  | some t =>
    if t.sequence < 3 then
      placeTest p (modTest p (fun t => { t with
        sequence := t.sequence + 1, timer := none, wait := .none }) s)
    else phasePassed p s

/-- The forwarding engine hands over a TEST frame while a test runs (R80, R162). -/
def testFrameHanded (p : Port) (payload : List Byte) (s : State) : State :=
  match s.testOf p with
  | none => s
  | some t =>
    if t.timer.isSome ∧ t.phase.sends ∧ payload = s.testFrame p t then frameReturned p s
    else bump (.service p .strayTest) s

/-- A segment reports the TEST frame in flight as collided: a fresh frame is placed at once (R162). -/
def testCollided (p : Port) (s : State) : State := placeTest p s

/-- A STUCK or UNTERMINATED report taken in EXTERNAL mode fails a segment's EXTERNAL phase (R164, R169). -/
def externalReport (x : Seg) (s : State) : State :=
  match s.testOf (.seg x) with
  | some t => if t.phase = .external then phaseFailed (.seg x) s else s
  | none => s

/-! ### Isolation requests (R167) -/

/-- An isolation request acts by the port's service state (R167). -/
def isolate (p : Port) (c : IsolationCause) (s : State) : State :=
  match s.serviceOf p with
  | .inService => enterIsolated p c s
  | .probing => enterIsolated p c (cutTest p s)
  | _ => bump (.service p .requestsIgnored) s

/-! ### A link's line (R20, R26, R28 to R30, R166) -/

/-- The transmitter of a link that leaves CONNECTED: a TEST frame is lost, a queue head is STOPPED and
held. In INTERNAL mode the path does not pass through the line, and nothing is stopped (R26, R27, log
entry 16). -/
def stopTx (l : Link) (s : State) : State :=
  let t := s.links.get l
  if t.tx = .sending ∧ t.loop ≠ .internal then
    match t.inFlight with
    | some .test => fillSlot (.link l) (emptySlot (.link l) (abortTx (.link l) s))
    | _ => modLink l (fun t => { t with tx := .stopped, wire := [] }) s
  else s

/-- The line of a link goes to NO-SIGNAL: reception abandoned, transmitter stopped (R20, R30). A
looped-back reception is the port's own and goes on (log entry 16). -/
def dropLine (l : Link) (s : State) : State :=
  let s := if (s.links.get l).rx.looping then s else abandonLink l s
  modLink l (fun t => { t with line := .noSignal }) (stopTx l s)

/-- The isolation controller is told of a connection loss (R20, R166, R170). -/
def connectionLost (l : Link) (s : State) : State :=
  let p := Port.link l
  match s.serviceOf p with
  | .inService => enterTesting p (purgePort p .linkLoss s)
  | .probing => enterTesting p (purgePort p .linkLoss (cutTest p s))
  | .testing =>
    match s.testOf p with
    | none => s
    | some t =>
      if t.phase = .held then s
      else beginEntry p (bump (.service p .testsAbandoned) (endTest p s))
  | _ => s

/-- The isolation controller is told that a link is connected (R19, R166). -/
def linkConnected (l : Link) (s : State) : State :=
  match s.testOf (.link l) with
  | some t =>
    if s.serviceOf (.link l) = .testing ∧ t.phase = .waitConnect then startPhase (.link l) .internal s
    else s
  | none => s

/-- One link is asked to retrain: no flap, no report (R30). -/
def retrain (l : Link) (s : State) : State :=
  let s := if (s.links.get l).line = .connected then dropLine l s else s
  modLink l (fun t => { t with line := .noSignal, signalSeen := false, retrainPause := none }) s

/-! ### Sweep loops (R169) -/

/-- The phase of a loop. -/
def ProbeKind.phase : ProbeKind → TestPhase
  | .loopInternal => .internal
  | _ => .external

/-- Run a loop, or not: false where the port's state does not run it (R169). -/
def startLoop (p : Port) (k : ProbeKind) (s : State) : Bool × State :=
  match s.serviceOf p with
  | .isolated | .off => (true, beginTest p .loop k.phase s)
  | .inService =>
    if k = .loopExternal then (true, beginTest p .probe .external (setService p .probing s))
    else (false, s)
  | _ => (false, s)

/-! ### Expiries (R162, R168) -/

/-- The hold timer expires (R168). -/
def holdExpiry (p : Port) (s : State) : State :=
  let v := s.service.get p
  if v.state = .isolated ∧ v.holdTimer.isSome then
    if v.test.isSome then
      modService p (fun v => { v with holdTimer := none, holdExpired := true }) s
    else enterTesting p s
  else s

/-- A TEST frame's timer expires (R162). -/
def frameTimerExpiry (p : Port) (s : State) : State :=
  match s.testOf p with
  | some t => if t.timer.isSome then phaseFailed p s else s
  | none => s

/-- The record of a TEST frame is asked for again (R162). -/
def frameRetry (p : Port) (s : State) : State :=
  match s.testOf p with
  | some t => if t.wait = .record then placeTest p s else s
  | none => s

/-! ### SET-PORT, RESTART-PORT, CLEAR-ALL, the load's end (R171, R172, R174) -/

/-- SET-PORT off on a port that is not OFF (R171). -/
def portOff (p : Port) (s : State) : State :=
  purgePort p .off (setService p .off (stopHold p (cutTest p s)))

/-- SET-PORT on on an OFF port (R171). -/
def portOn (p : Port) (s : State) : State := enterTesting p (cutTest p s)

/-- RESTART-PORT on a port that is not OFF (R172). -/
def restartPort (p : Port) (s : State) : State :=
  let s := purgePort p .restart (cutTest p s)
  let s := match p with
    | .link l => retrain l s
    | .seg _ => s
  enterTesting p s

/-- Do something at a port without its receiver: a reception from outside, and the DISCARDING of one, stand
after it as they stood before (R17, R32). -/
def keepReceiver (p : Port) (f : State → State) (s : State) : State :=
  match p with
  | .seg x =>
    let rx := (s.segs.get x).rx
    if rx.own then f s
    else modSeg x (fun t => { t with rx := rx }) (f (modSeg x (fun t => { t with rx := .idle }) s))
  | .link l =>
    let rx := (s.links.get l).rx
    if rx.own then f s
    else modLink l (fun t => { t with rx := rx }) (f (modLink l (fun t => { t with rx := .idle }) s))

/-- CLEAR-ALL at one port (R174): tests are cut off with no result, the queue is purged, and a port that
is not OFF enters TESTING. -/
def clearService (p : Port) (s : State) : State :=
  let s := purgePort p .clearAll (if (s.testOf p).isSome then endTest p s else s)
  let s := modService p (fun v => { v with
    holdTime := 5, failedTests := 0, cause := none, restoreDue := false }) s
  if s.serviceOf p = .off then stopHold p s else enterTesting p s

/-- CLEAR-ALL at one port, whose reception under way goes on to its end (R17, R32, R51, R174). That the
change of loop mode does not take it along is the model's choice (log entry 39). -/
def clearPort (p : Port) (s : State) : State := keepReceiver p (clearService p) s

/-- The start image load ends at one port (R174). -/
def startPort (p : Port) (on bcast accept : Bool) (s : State) : State :=
  let s := modService p (fun v => { v with bcast := bcast, accept := accept }) (endTest p s)
  if on then enterTesting p s else purgePort p .off (setService p .off s)

end Sys2Proof.Machine
end

