-- ==== Sys2Proof/Machine/FaultReports.lean ====
section
/-! DEFINITION. The fault monitor at the ports: reports, window counts, thresholds and isolation requests
(R146 to R149). -/

namespace Sys2Proof.Machine

/-- A report from a segment port (R146). -/
inductive SegReport where
  | runt
  | headerBad
  | lengthBad (source : Key)
  | bodyBad (source : Key)
  | collisionDrop
  | stuck
  | stuckHeld
  | unterminated
deriving DecidableEq, Repr

/-- A report from a link (R147). -/
inductive LinkReport where
  | symbolError
  | symbolErrorFrame
  | checkBad
  | lengthBad (source : Key)
  | flap
deriving DecidableEq, Repr

/-- One more in a window count, which saturates at 65,535. -/
def windowUp (n : Nat) : Nat := min 65535 (n + 1)

/-- A segment's window counts after a report (R146). -/
def SegWindow.take (w : SegWindow) : SegReport → SegWindow
  | .runt => { w with runts := windowUp w.runts }
  | .headerBad => { w with headerBad := windowUp w.headerBad }
  | .lengthBad _ => { w with lengthBad := windowUp w.lengthBad }
  | .bodyBad _ => { w with bodyBad := windowUp w.bodyBad }
  | .collisionDrop => { w with collisionDrops := windowUp w.collisionDrops }
  | .stuck => { w with stuck := windowUp w.stuck }
  | .stuckHeld => w
  | .unterminated => { w with unterminated := windowUp w.unterminated }

/-- A link's window counts after a report (R147). -/
def LinkWindow.take (w : LinkWindow) : LinkReport → LinkWindow
  | .symbolError => { w with symbolErrors := windowUp w.symbolErrors }
  | .symbolErrorFrame => { w with symbolErrorFrames := windowUp w.symbolErrorFrames }
  | .checkBad => { w with checkBad := windowUp w.checkBad }
  | .lengthBad _ => w
  | .flap => { w with flaps := windowUp w.flaps }

/-- The error sum of a port (R146, R147). -/
def State.errorSum (s : State) : Port → Nat
  | .seg x =>
    let w := s.segWin.get x
    w.headerBad + w.bodyBad + w.lengthBad + w.runts + w.collisionDrops
  | .link l =>
    let w := s.linkWin.get l
    w.checkBad + w.symbolErrors

/-- The flaps a port has in the window; a segment has none. -/
def State.flapCount (s : State) : Port → Nat
  | .seg _ => 0
  | .link l => (s.linkWin.get l).flaps

/-- The error threshold in force for a port. -/
def State.errorThreshold (s : State) : Port → Nat
  | .seg _ => s.config.segThreshold
  | .link _ => s.config.linkThreshold

/-- Half a threshold, rounded up (R148). -/
def halfUp (n : Nat) : Nat := (n + 1) / 2

/-- Judge a port after a report: its marks and warnings, and the causes it is to be asked for (R148). The
flap limit is judged at a flap report alone (R158). Where one report meets both tests, ERRORS is asked for
first: the model's choice (log entry 57). -/
def judgePort (p : Port) (flap : Bool) (s : State) : List IsolationCause × State :=
  let m := s.marks.get p
  let sum := s.errorSum p
  let limit := s.errorThreshold p
  let flaps := s.flapCount p
  let askErrors := decide (limit ≤ sum) && !m.errorsMade
  let askFlaps := flap && decide (s.config.flapLimit ≤ flaps) && !m.flappingMade
  let warnErrors := decide (halfUp limit ≤ sum) && !m.errorsWarned
  let warnFlaps := flap && decide (halfUp s.config.flapLimit ≤ flaps) && !m.flapsWarned
  let m : Marks :=
    ⟨m.errorsMade || askErrors, m.flappingMade || askFlaps, m.errorsWarned || warnErrors,
      m.flapsWarned || warnFlaps⟩
  let s := { s with marks := s.marks.set p m }
  let s := if warnErrors then bump (.faultPort p .errorsWarning) s else s
  let s := if warnFlaps then bump (.faultPort p .flapsWarning) s else s
  ((if askErrors then [.errors] else []) ++ (if askFlaps then [.flapping] else []), s)

/-- The counter of a request's cause (R149, R159). -/
def requestCounter : IsolationCause → FaultPortCount
  | .errors => .requestsErrors
  | .flapping => .requestsFlapping
  | _ => .requestsLine

/-- Make an isolation request (R149, R167). -/
def requestIsolation (p : Port) (c : IsolationCause) (s : State) : State :=
  isolate p c (bump (.faultPort p (requestCounter c)) s)

/-- Make isolation requests in order. -/
def makeRequests (p : Port) : List IsolationCause → State → State
  | [], s => s
  | c :: cs, s => makeRequests p cs (requestIsolation p c s)

/-- Take a report from a segment: its window count, then R146's further action (a key attributed, or the
LINE request of an UNTERMINATED), and then the judging of the port (R148). That the further action comes
before the judging is the model's choice (log entry 49), and that a STUCK-HELD, which enters no count, is
not followed by a judging (log entry 56). Nothing is taken before the window clock starts (R145). -/
def segReport (x : Seg) (r : SegReport) (s : State) : State :=
  if s.window.running = false then s
  else
    let p := Port.seg x
    match r with
    | .stuckHeld => requestIsolation p .line s
    | r =>
      let s := { s with segWin := s.segWin.set x ((s.segWin.get x).take r) }
      let s := match r with
        | .lengthBad k => laidTo k s
        | .bodyBad k => laidTo k s
        | .unterminated => requestIsolation p .line s
        | _ => s
      let (causes, s) := judgePort p false s
      makeRequests p causes s

/-- Take a report from a link, and the causes the link is to be asked for (R147, R148). A length-bad report,
which enters no count, is not followed by a judging: the model's choice (log entry 56). -/
def linkReportCauses (l : Link) (r : LinkReport) (s : State) : List IsolationCause × State :=
  if s.window.running = false then ([], s)
  else
    match r with
    | .lengthBad k => ([], laidTo k s)
    | r =>
      judgePort (.link l) (decide (r = .flap))
        { s with linkWin := s.linkWin.set l ((s.linkWin.get l).take r) }

/-- Take a report from a link and make its requests. -/
def linkReport (l : Link) (r : LinkReport) (s : State) : State :=
  let (causes, s) := linkReportCauses l r s
  makeRequests (.link l) causes s

/-- A CONNECTED link loses its connection (R20). Where the flap's report makes a request, the order of
the request and of the news of the loss is open (R167, log entry 4). -/
def loseConnection (l : Link) (s : State) : State :=
  let s := dropLine l s
  if s.serviceOf (.link l) = .off then connectionLost l s
  else
    match linkReportCauses l .flap (bump (.link l .flaps) s) with
    | ([], s) => connectionLost l s
    | (causes, s) =>
      match freeOrder s with
      | (true, s) => makeRequests (.link l) causes (connectionLost l s)
      | (false, s) => connectionLost l (makeRequests (.link l) causes s)

end Sys2Proof.Machine
end

