-- ==== Sys2Proof/Machine/Sweep.lean ====
section
/-! DEFINITION. The sweep engine: passes, probes, results and fail actions (10_sweep_list.md). -/

namespace Sys2Proof.Machine

/-! ### Steps (R175) -/

/-- The step with a number, 1 up. -/
def Sweep.step (w : Sweep) (k : Nat) : Option SweepStep := if k = 0 then none else w.steps[k - 1]?

/-- Change the step with a number. -/
def modStep (k : Nat) (f : SweepStep → SweepStep) (s : State) : State :=
  modSweep (fun w => { w with steps := w.steps.modify (k - 1) f }) s

/-! ### ECHO probes (R178, R179) -/

/-- The ports of a side, in code order. -/
def Side.ports : Side → List Port
  | .trunk => Seg.all.map .seg
  | .pair => Link.all.map .link

/-- The ports an ECHO of a key is offered to; none where it is SKIPPED (R178). -/
def State.echoPorts (s : State) (k : Key) : List Port :=
  match s.lookup k with
  | some (_, ⟨_, _, _, .station t⟩) =>
    match t.home with
    | some p => if s.serviceOf p = .inService then [p] else []
    | none => k.side.ports.filter fun p => s.serviceOf p = .inService
  | _ => []

/-- The destination of an ECHO of a key in the form of a side: the key itself on its own side (R178), and
on the other side the key that its entry holds there (R41; the choice of that key is log entry 48's). -/
def State.echoKey (s : State) (k : Key) (side : Side) : Key :=
  match s.lookup k with
  | some (_, e) => (e.keyOn side).getD k
  | none => k

/-- Offer an ECHO-REQ to each of a list of ports, its header in the form of each port's side (R41):
whether any copy joined, and the state after. -/
def offerEcho (k : Key) (rid : Nat) : List Port → State → Bool × State
  | [], s => (false, s)
  | p :: ps, s =>
    let (joined, s) := offer p (ownEntry p (s.echoKey k p.side) kindEchoReq 1 rid) s
    let (rest, s) := offerEcho k rid ps s
    (joined || rest, s)

/-- Begin an ECHO of a key as step `n`: the probe is outstanding whatever became of its request (R178). -/
def beginEcho (n : Nat) (k : Key) (ports : List Port) (s : State) : State :=
  let number := s.sweep.probeNumber + 1
  let s := modSweep (fun w => { w with probeNumber := number }) s
  let s := match ownRecord [number] s with
    | (none, s) => bump (.sweep .probeRequestLost) s
    | (some rid, s) =>
      match offerEcho k rid ports s with
      | (true, s) => releaseRef rid s
      | (false, s) => bump (.sweep .probeRequestLost) (releaseRef rid s)
  modSweep (fun w => { w with outstanding := some (.echo n number k s.config.echoTimeout) }) s

/-! ### Beginning a step (R178, R180) -/

/-- The result of a LINE-STATUS (R180). -/
def lineStatus : LineMode → StepResult
  | .idle | .feeding | .draining => .pass
  | .stalled | .offline | .resetting => .fail
  | .disabled => .skipped

/-- Begin step `n`: its result where it ends at once, or none where its probe is outstanding. -/
def beginStep (n : Nat) (t : SweepStep) (s : State) : Option StepResult × State :=
  match t.target with
  | .line x => (some (lineStatus (s.lines.get x).state), s)
  | .port p =>
    match startLoop p t.probe s with
    | (true, s) => (none, modSweep (fun w => { w with outstanding := some (.loop n t.probe none) }) s)
    | (false, s) => (some .skipped, s)
  | .station k =>
    match s.echoPorts k with
    | [] => (some .skipped, s)
    | ps => (none, beginEcho n k ps s)

/-! ### Results and fail actions (R181) -/

/-- HALT: the sweep is disabled (R181). -/
def haltSweep (s : State) : State :=
  raise .sweepHalted (modSweep (fun w => { w with
    enabled := false, run := none, timer := none, passWaiting := false }) s)

/-- The counter of a fail action. -/
def FailAction.counter : FailAction → SweepCount
  | .note => .actionNote
  | .markSuspect => .actionMarkSuspect
  | .quarantine => .actionQuarantine
  | .isolatePort => .actionIsolatePort
  | .halt => .actionHalt

/-- ISOLATE-PORT for a target (R181). -/
def isolateTarget (t : StepTarget) (s : State) : State :=
  match t with
  | .port p => isolate p .sweep s
  | .station k =>
    match s.lookup k with
    | some (_, ⟨_, _, _, .station ⟨some p, _, _, _, _, _, _, _⟩⟩) => isolate p .sweep s
    | _ => bump (.sweep .isolateNoHome) s
  | .line _ => s

/-- Take a step's fail action (R181). -/
def failAction (t : SweepStep) (s : State) : State :=
  let s := bump (.sweep t.action.counter) s
  match t.action, t.target with
  | .note, _ => s
  | .halt, _ => haltSweep s
  | .isolatePort, x => isolateTarget x s
  | .markSuspect, .station k => markSuspect k s
  | .quarantine, .station k => sweepQuarantine k s
  | _, _ => s

/-- The counter of a result. -/
def resultCounter : StepResult → SweepCount
  | .pass => .stepsPass
  | .fail => .stepsFail
  | .skipped => .stepsSkipped
  | .notRun => .stepsNotRun

/-- Record a step's result and do its fail handling (R181). -/
def endStep (n : Nat) (r : StepResult) (s : State) : State :=
  let s := bump (.sweep (resultCounter r)) (modStep n (fun t => { t with result := r }) s)
  match r with
  | .pass => modStep n (fun t => { t with fails := 0 }) s
  | .fail =>
    match s.sweep.step n with
    | none => s
    | some t =>
      if t.failLimit ≤ t.fails + 1 then failAction t (modStep n (fun t => { t with fails := 0 }) s)
      else modStep n (fun t => { t with fails := t.fails + 1 }) s
  | .skipped | .notRun => s

/-! ### Passes (R177, R184) -/

/-- Begin a pass (R177). -/
def beginPass (s : State) : State :=
  modSweep (fun w => { w with run := some ⟨.pass, 1⟩, passWaiting := false }) s

/-- The last step has ended: the pass is done (R177). -/
def passDone (s : State) : State :=
  let s := modSweep (fun w => { w with run := none }) s
  let s := raise .sweepPassDone (bump (.sweep .passesDone) s)
  modSweep (fun w =>
    if w.interval = 0 then { w with enabled := false } else { w with timer := some w.interval }) s

/-- After a step has ended: the position advances, or a RUN-STEP ends and a pass that waited begins. A
run that a HALT ended stays ended (R177, R181, R184). -/
def advance (s : State) : State :=
  match s.sweep.run with
  | none => s
  | some ⟨.pass, k⟩ => modSweep (fun w => { w with run := some ⟨.pass, k + 1⟩ }) s
  | some ⟨.single, _⟩ =>
    let s := modSweep (fun w => { w with run := none }) s
    if s.sweep.passWaiting ∧ s.sweep.enabled then beginPass s
    else modSweep (fun w => { w with passWaiting := false }) s

/-- Run steps from the position until a probe is outstanding or the run ends. `fuel` bounds the steps
that end at once. -/
def runSteps : (fuel : Nat) → State → State
  | 0, s => s
  | fuel + 1, s =>
    match s.sweep.run with
    | none => s
    | some r =>
      match s.sweep.step r.position with
      | none => passDone s
      | some t =>
        match beginStep r.position t s with
        | (none, s) => s
        | (some res, s) => runSteps fuel (advance (endStep r.position res s))

/-- Run from the position: a RUN-STEP's step and a whole pass after it at most. -/
def runSweep (s : State) : State := runSteps (s.sweep.steps.length + 3) s

/-- A STOP-SWEEP waits right behind the command that ends a probe, and a step stands to be begun: the
STOP-SWEEP is taken before that step (R183, log entry 47). -/
def State.stopWaits (s : State) : Bool :=
  decide (s.pending.head? = some .stopSweep) &&
    (s.sweep.run.any fun r => (s.sweep.step r.position).isSome)

/-- A probe has ended with a result: record it, and go on to the next step (R177, R181), unless a
STOP-SWEEP comes before it (R183). -/
def probeEnded (n : Nat) (r : StepResult) (s : State) : State :=
  let s := advance (endStep n r (modSweep (fun w => { w with outstanding := none }) s))
  if s.stopWaits then s else runSweep s

/-- The sweep engine takes the result of a loop the isolation controller has handed (R180, log
entry 15). -/
def settleSweep (s : State) : State :=
  match s.sweep.outstanding with
  | some (.loop n _ (some pass)) => probeEnded n (if pass then .pass else .fail) s
  | _ => s

/-- An ECHO-REP handed to the sweep engine (R179). The step it makes way for begins before the reply's own
record is released (log entry 60). -/
def echoReply (source : Key) (payload : List Byte) (s : State) : State :=
  let stray := if s.sweep.lastEcho.map (fun e => ([e.1], e.2)) = some (payload, source)
    then bump (.sweep .lateEcho) s else bump (.sweep .strayEcho) s
  match s.sweep.outstanding with
  | some (.echo n number target _) =>
    if source = target ∧ payload = [number] then
      probeEnded n .pass (modSweep (fun w => { w with lastEcho := some (number, target) }) s)
    else stray
  | _ => stray

/-- The echo timer expires (R179). -/
def echoTimeout (s : State) : State :=
  match s.sweep.outstanding with
  | some (.echo n number target _) =>
    probeEnded n .fail (modSweep (fun w => { w with lastEcho := some (number, target) }) s)
  | _ => s

/-- The interval timer expires (R177). -/
def intervalExpiry (s : State) : State :=
  if s.sweep.timer.isSome then
    let s := modSweep (fun w => { w with timer := none }) s
    if s.sweep.enabled = false then s
    else if s.sweep.run.isSome then modSweep (fun w => { w with passWaiting := true }) s
    else runSweep (beginPass s)
  else s

/-! ### START-SWEEP, STOP-SWEEP, RUN-STEP, CLEAR-ALL (R183 to R185) -/

/-- START-SWEEP that is not refused (R183). -/
def startSweep (interval : Nat) (s : State) : State :=
  let s := modSweep (fun w => { w with interval := interval, enabled := true, timer := none }) s
  runSweep (beginPass s)

/-- Abandon the outstanding probe with no result: an ECHO becomes the last ended echo, a loop is cut off
at the isolation controller (R183). -/
def abandonProbe (s : State) : State :=
  match s.sweep.outstanding with
  | none => s
  | some (.echo _ number target _) =>
    modSweep (fun w => { w with outstanding := none, lastEcho := some (number, target) }) s
  | some (.loop n _ _) =>
    let s := modSweep (fun w => { w with outstanding := none }) s
    match s.sweep.step n with
    | some t =>
      match t.target with
      | .port p => stopLoop p s
      | _ => s
    | none => s

/-- STOP-SWEEP (R183): the step at the position records NOT-RUN where its probe is outstanding; between
steps none does. -/
def stopSweep (s : State) : State :=
  let s := match s.sweep.run, s.sweep.outstanding with
    | some r, some _ => endStep r.position .notRun (abandonProbe s)
    | _, _ => abandonProbe s
  modSweep (fun w => { w with enabled := false, run := none, timer := none, passWaiting := false }) s

/-- A STOP-SWEEP that stopped nothing lets the step it held back begin (log entry 47). -/
def resumeSweep (s : State) : State :=
  if s.sweep.run.isSome ∧ s.sweep.outstanding = none then runSweep s else s

/-- RUN-STEP that is not refused (R184). -/
def runStep (k : Nat) (s : State) : State :=
  runSweep (modSweep (fun w => { w with run := some ⟨.single, k⟩ }) s)

/-- CLEAR-ALL at the sweep engine (R185). -/
def clearSweep (s : State) : State :=
  modSweep (fun w => { w with
    steps := [], enabled := false, run := none, timer := none, passWaiting := false
    outstanding := none, lastEcho := none }) s

/-! ### The commands -/

/-- INTERVAL_EXPIRY (R177). -/
def execIntervalExpiry (s : State) : Host.Outcome State Fault Refusal :=
  .next (whenActive intervalExpiry s)

/-- ECHO_TIMER_EXPIRY (R179). -/
def execEchoTimerExpiry (s : State) : Host.Outcome State Fault Refusal :=
  .next (whenActive echoTimeout s)

/-- TEST_FRAME_TIMER (R162). -/
def execTestFrameTimer (p : Port) (s : State) : Host.Outcome State Fault Refusal :=
  .next (whenActive (fun s => settleSweep (frameTimerExpiry p s)) s)

/-- TEST_FRAME_RETRY (R162). -/
def execTestFrameRetry (p : Port) (s : State) : Host.Outcome State Fault Refusal :=
  .next (whenActive (frameRetry p) s)

/-- HOLD_TIMER_EXPIRY (R168). -/
def execHoldTimerExpiry (p : Port) (s : State) : Host.Outcome State Fault Refusal :=
  .next (whenActive (holdExpiry p) s)

end Sys2Proof.Machine
end

