-- ==== Sys2Proof/Machine/Segments.lean ====
section
/-! DEFINITION. The trunk segments: reception, transmission, line condition (01_trunk_segments.md). -/

namespace Sys2Proof.Machine

/-! ### Reception (R1 to R5) -/

/-- Hand a good frame to the forwarding engine's list for its port (R4, R79). -/
def handOver (p : Port) (h : Header) (rid : Nat) (s : State) : State :=
  { s with handover := s.handover.set p (s.handover.get p ++ [⟨h, rid⟩]) }

/-- Set a segment's receiver. -/
def setSegRx (x : Seg) (r : SegRx) (s : State) : State := modSeg x (fun t => { t with rx := r }) s

/-- Begin a reception, looped back or from the coax: a new record of one block, or no-buffer and
DISCARDING (R1). -/
def beginSegReception (x : Seg) (looped : Bool) (s : State) : State :=
  match startRecord s with
  | (some rid, s) => setSegRx x (.receiving ⟨[], 0, [], rid, looped⟩) s
  | (none, s) => setSegRx x (.discarding looped) (bump (.seg x .noBuffer) s)

/-- A rise of carrier is taken as a reception (R1, R15). While an EXTERNAL-mode transmitter is SENDING,
every rise is taken as its own transmission's (log entry 40). -/
def State.takesRise (s : State) (x : Seg) : Bool :=
  let t := s.segs.get x
  t.rx = .idle && s.serviceOf (.seg x) ≠ .off && t.loop ≠ .internal &&
    (t.tx ≠ .sending || t.loop = .external)

/-- One byte of a reception (R2). -/
def takeSegByte (x : Seg) (b : Byte) (s : State) : State :=
  match (s.segs.get x).rx with
  | .receiving r =>
    let r := { r with count := r.count + 1 }
    if r.header.length < 6 then setSegRx x (.receiving { r with header := r.header ++ [b] }) s
    else if Config.trunkPayload < trunkLength r.header then setSegRx x (.receiving r) s
    else if (s.payload r.record).length < trunkLength r.header then
      match storeByte r.record b s with
      | (true, s) => setSegRx x (.receiving r) s
      | (false, s) => setSegRx x (.discarding r.looped) (bump (.seg x .noBuffer) (dropRecord r.record s))
    else if r.check.length < 2 then setSegRx x (.receiving { r with check := r.check ++ [b] }) s
    else setSegRx x (.receiving r) s
  | _ => s

/-- The outcomes of a segment reception (R3). -/
inductive SegOutcome where
  | runt
  | headerBad
  | lengthBad
  | bodyBad
  | good
deriving DecidableEq, Repr

/-- Classify a reception by the first test that applies (R3). -/
def classifySeg (r : SegReception) (payload : List Byte) : SegOutcome :=
  if r.count < 6 then .runt
  else if byteSum r.header ≠ 0xA5 then .headerBad
  else if Config.trunkPayload < trunkLength r.header ∨ r.count ≠ 6 + trunkLength r.header + 2 then
    .lengthBad
  else if r.check ≠ Side.trunk.word (crc16 (r.header ++ payload)).toNat then .bodyBad
  else .good

/-- The report of a bad outcome (R5). -/
def segOutcomeReport (h : Header) : SegOutcome → Option (SegCount × SegReport)
  | .runt => some (.runts, .runt)
  | .headerBad => some (.headerBad, .headerBad)
  | .lengthBad => some (.lengthBad, .lengthBad h.src)
  | .bodyBad => some (.bodyBad, .bodyBad h.src)
  | .good => none

/-- The end of a reception (R3 to R5); a receiver in DISCARDING returns to IDLE (R1). While the port is
OFF a reception from the coax makes no report (R5, log entry 42). -/
def endSegReception (x : Seg) (s : State) : State :=
  match (s.segs.get x).rx with
  | .idle => s
  | .discarding _ => setSegRx x .idle s
  | .receiving r =>
    let outcome := classifySeg r (s.payload r.record)
    let h := readTrunkHeader r.header
    let s := setSegRx x .idle s
    match segOutcomeReport h outcome with
    | none => handOver (.seg x) h r.record (bump (.seg x .good) s)
    | some (c, report) =>
      let s := bump (.seg x c) (dropRecord r.record s)
      if r.looped || s.serviceOf (.seg x) ≠ .off then segReport x report s else s

/-! ### Carrier (R1, R3, R11) -/

/-- A rise of carrier, where the blocks act. -/
def carrierRise (x : Seg) (s : State) : State :=
  let s := modSeg x (fun t => { t with carrierTime := 0 }) s
  if s.takesRise x then beginSegReception x false s else s

/-- A fall of carrier, where the blocks act: STUCK clears, and a reception from the coax ends, or a
receiver's DISCARDING. A looped-back reception does not end by carrier (R1, R15). -/
def carrierFall (x : Seg) (s : State) : State :=
  let s := modSeg x (fun t => { t with
    carrierTime := 0, stuck := false, heldTimer := none, heldSent := false }) s
  if (s.segs.get x).rx.looping then s else endSegReception x s

/-! ### Transmission (R6 to R10) -/

/-- The frame in flight of a port, as header and record. -/
def State.flying (s : State) (p : Port) : Option (Header × Nat) :=
  match s.inFlight p with
  | some f => s.frameOf p f
  | none => none

/-- The wire frame of the attempt now begun (R6, R25). -/
def State.wireFrame (s : State) (p : Port) : List Byte :=
  match s.flying p with
  | some (h, rid) =>
    match p with
    | .seg _ => trunkFrame h (s.payload rid)
    | .link _ => officeFrame h (s.payload rid)
  | none => []

/-- What a segment's transmitter may take (R6). -/
def State.segTakes (s : State) (x : Seg) : Option InFlight :=
  let t := s.segs.get x
  if t.tx ≠ .idle then none
  else if t.loop = .normal then
    if s.serviceOf (.seg x) = .inService ∧ s.queues.get (.seg x) ≠ [] then some .head else none
  else if (s.slots.get (.seg x)).isSome then some .test
  else none

/-- An attempt begins: the wire frame is built and driven (R6, R7). -/
def beginAttempt (x : Seg) (s : State) : State :=
  modSeg x (fun t => { t with tx := .sending, wire := s.wireFrame (.seg x), untermSeen := false }) s

/-- A segment takes a frame (R6); in INTERNAL mode the attempt and its looped-back reception begin (R1,
R15). -/
def segmentTake (x : Seg) (s : State) : State :=
  match s.segTakes x with
  | none => s
  | some f =>
    let s := modSeg x (fun t => { t with inFlight := some f, attempts := 0, tx := .deferring }) s
    let s := match s.flying (.seg x) with
      | some (_, rid) => addRef rid s
      | none => s
    if (s.segs.get x).loop = .internal then
      let s := beginAttempt x s
      if (s.segs.get x).rx = .idle then beginSegReception x true s else s
    else s

/-- 0.2 ms of quiet have passed (R7): a queue head goes only while the port is IN-SERVICE. -/
def deferQuiet (x : Seg) (s : State) : State :=
  let t := s.segs.get x
  if t.tx = .deferring ∧ t.carrier = false ∧
      (t.inFlight ≠ some .head ∨ s.serviceOf (.seg x) = .inService) then beginAttempt x s
  else s

/-- The head whose transmission has ended leaves its queue (R44). -/
def headLeaves (p : Port) (s : State) : State :=
  match s.queues.get p with
  | e :: es => releaseRef e.record { s with queues := s.queues.set p es }
  | [] => s

/-- The frame in flight has ended: the transmission's reference is released, the head leaves its queue or
the TEST frame its slot, and the transmitter is IDLE (R8, R9, R26, R44, R45). -/
def flightEnded (p : Port) (s : State) : State :=
  let f := s.inFlight p
  let s := idleTx p (releaseInFlight p s)
  match f with
  | some .head => headLeaves p s
  | some .test => fillSlot p (emptySlot p s)
  | none => s

/-- Bytes taken one after another by a segment's receiver. -/
def takeSegBytes (x : Seg) : List Byte → State → State
  | [], s => s
  | b :: bs, s => takeSegBytes x bs (takeSegByte x b s)

/-- The last check byte is driven (R8). In INTERNAL mode the looped-back reception has taken every byte,
and ends with the attempt (R1, log entry 30); so does the DISCARDING that this reception left for want of a
block (log entry 38). -/
def segmentSent (x : Seg) (s : State) : State :=
  let t := s.segs.get x
  if t.tx = .sending then
    let ends := t.loop = .internal ∧ t.rx.own
    let s := if ends then takeSegBytes x t.wire s else s
    let s := flightEnded (.seg x) (bump (.seg x .sent) s)
    if ends then endSegReception x s else s
  else s

/-- A collision report (R9). -/
def collision (x : Seg) (s : State) : State :=
  let t := s.segs.get x
  if t.tx = .sending ∧ t.loop ≠ .internal then
    let s := bump (.seg x .collisions) s
    let k := t.attempts + 1
    if t.inFlight = some .test then
      testCollided (.seg x) (emptySlot (.seg x) (idleTx (.seg x) (releaseInFlight (.seg x) s)))
    else if k < 8 then
      modSeg x (fun t => { t with
        tx := .retryWait, attempts := k, retryTimer := some k, wire := [], untermSeen := false }) s
    else segReport x .collisionDrop (flightEnded (.seg x) (bump (.seg x .collisionDrops) s))
  else s

/-- The retry wait expires (R9, R10). -/
def retryExpiry (x : Seg) (s : State) : State :=
  if (s.segs.get x).tx = .retryWait then
    modSeg x (fun t => { t with tx := .deferring, retryTimer := none }) s
  else s

/-! ### Line condition (R11, R12) -/

/-- STUCK's abandonment of a reception: DISCARDING until carrier falls, not counted, not reported (R1,
R11). -/
def stuckReception (x : Seg) (s : State) : State :=
  match (s.segs.get x).rx with
  | .receiving r => setSegRx x (.discarding false) (dropRecord r.record s)
  | _ => s

/-- A STUCK is reported: in EXTERNAL mode to the isolation controller as well, after the fault monitor
(R11, log entry 41). -/
def reportStuck (x : Seg) (s : State) : State :=
  let external := (s.segs.get x).loop = .external
  let s := segReport x .stuck s
  if external then externalReport x s else s

/-- Carrier time reaches 6 ms (R11). -/
def stuckBegins (x : Seg) (s : State) : State :=
  let t := s.segs.get x
  if t.carrier ∧ t.stuck = false then
    let s := modSeg x (fun t => { t with stuck := true, carrierTime := max 6 t.carrierTime }) s
    let s := stuckReception x s
    if s.serviceOf (.seg x) = .off then s
    else
      let s := modSeg x (fun t => { t with heldTimer := some 50 }) s
      reportStuck x (bump (.seg x .stuck) s)
  else s

/-- STUCK has lasted 50 ms (R11): one report for each occurrence, and none while OFF. -/
def stuckHeld (x : Seg) (s : State) : State :=
  let t := s.segs.get x
  if t.stuck ∧ t.heldTimer.isSome ∧ s.serviceOf (.seg x) ≠ .off then
    segReport x .stuckHeld
      (modSeg x (fun t => { t with heldTimer := none, heldSent := true }) s)
  else s

/-- A port leaves OFF while its occurrence of STUCK goes on (R11, log entry 18). -/
def stuckOnLeavingOff (p : Port) (s : State) : State :=
  match p with
  | .link _ => s
  | .seg x =>
    if (s.segs.get x).stuck then
      segReport x .stuck
        (modSeg x (fun t => { t with heldTimer := if t.heldSent then none else some 50 }) s)
    else s

/-- REFL is found high for the first time in an attempt that drives the coax (R12). The purge that the
LINE request brings about is taken within this step, before the last byte: R12 allows both orders, and this
one is the model's choice (log entry 54). In EXTERNAL mode the
isolation controller takes the report before the fault monitor asks for the LINE isolation: R170 allows
both orders, and this one is the model's choice (log entry 41). -/
def unterminated (x : Seg) (s : State) : State :=
  let t := s.segs.get x
  if t.tx = .sending ∧ t.loop ≠ .internal ∧ t.untermSeen = false then
    let s := bump (.seg x .unterminated) (modSeg x (fun t => { t with untermSeen := true }) s)
    let s := if t.loop = .external then externalReport x s else s
    segReport x .unterminated s
  else s

/-! ### The commands -/

/-- CARRIER_RISE (R1, R11). -/
def execCarrierRise (x : Seg) (s : State) : Host.Outcome State Fault Refusal :=
  .next (if (s.segs.get x).carrier then s
    else whenActive (carrierRise x) (modSeg x (fun t => { t with carrier := true }) s))

/-- COAX_BYTE (R2): a looped-back reception takes nothing from the coax (R15). -/
def execCoaxByte (x : Seg) (b : Byte) (s : State) : Host.Outcome State Fault Refusal :=
  .next (whenActive (fun s =>
    if (s.segs.get x).rx.looping then s else takeSegByte x b s) s)

/-- CARRIER_FALL (R3, R11). -/
def execCarrierFall (x : Seg) (s : State) : Host.Outcome State Fault Refusal :=
  .next (if (s.segs.get x).carrier then
      whenActive (fun s => settleSweep (carrierFall x s))
        (modSeg x (fun t => { t with carrier := false }) s)
    else s)

/-- SEGMENT_TAKE_FRAME (R6). -/
def execSegmentTakeFrame (x : Seg) (s : State) : Host.Outcome State Fault Refusal :=
  .next (whenActive (segmentTake x) s)

/-- DEFER_QUIET (R7). -/
def execDeferQuiet (x : Seg) (s : State) : Host.Outcome State Fault Refusal :=
  .next (whenActive (deferQuiet x) s)

/-- SEGMENT_SENT (R8). -/
def execSegmentSent (x : Seg) (s : State) : Host.Outcome State Fault Refusal :=
  .next (whenActive (fun s => settleSweep (segmentSent x s)) s)

/-- COLLISION (R9). -/
def execCollision (x : Seg) (s : State) : Host.Outcome State Fault Refusal :=
  .next (whenActive (fun s => settleSweep (collision x s)) s)

/-- RETRY_WAIT_EXPIRY (R9, R10). -/
def execRetryWaitExpiry (x : Seg) (s : State) : Host.Outcome State Fault Refusal :=
  .next (whenActive (retryExpiry x) s)

/-- STUCK (R11). -/
def execStuck (x : Seg) (s : State) : Host.Outcome State Fault Refusal :=
  .next (whenActive (fun s => settleSweep (stuckBegins x s)) s)

/-- STUCK_HELD (R11). -/
def execStuckHeld (x : Seg) (s : State) : Host.Outcome State Fault Refusal :=
  .next (whenActive (fun s => settleSweep (stuckHeld x s)) s)

/-- UNTERMINATED (R12). -/
def execUnterminated (x : Seg) (s : State) : Host.Outcome State Fault Refusal :=
  .next (whenActive (fun s => settleSweep (unterminated x s)) s)

end Sys2Proof.Machine
end

