-- ==== Sys2Proof/Machine/Links.lean ====
section
/-! DEFINITION. The pair links and the line interfaces: training, reception, transmission, clock loss
(02_pair_links_and_line_interfaces.md). -/

namespace Sys2Proof.Machine

/-! ### Line state (R18, R19) -/

/-- The interface of a link is in CLOCK-HOLD. -/
def State.held (s : State) (l : Link) : Bool := (s.ifaces.get l.iface).clockHold

/-- A NO-SIGNAL link enters TRAINING when signal seen, no retrain pause and a RUNNING interface hold
together (R18). -/
def tryTraining (l : Link) (s : State) : State :=
  let t := s.links.get l
  if t.line = .noSignal ∧ t.signalSeen ∧ t.retrainPause = none ∧ s.held l = false then
    modLink l (fun t => { t with line := .training, trainingTime := 0 }) s
  else s

/-- The interface reports signal present (R18). -/
def signalReported (l : Link) (s : State) : State :=
  tryTraining l (modLink l (fun t => { t with signalSeen := true }) s)

/-- The far end's signal appears; while the interface is in CLOCK-HOLD its report is ignored (R29). -/
def signalPresent (l : Link) (s : State) : State := if s.held l then s else signalReported l s

/-- The interface reports signal lost (R18 to R20). -/
def signalLost (l : Link) (s : State) : State :=
  let was := (s.links.get l).line
  let s := modLink l (fun t => { t with signalSeen := false }) s
  match was with
  | .noSignal => s
  | .training => modLink l (fun t => { t with line := .noSignal }) s
  | .connected => loseConnection l s

/-- The retrain pause expires (R18, R19). -/
def pauseExpiry (l : Link) (s : State) : State :=
  if (s.links.get l).retrainPause.isSome then
    tryTraining l (modLink l (fun t => { t with retrainPause := none }) s)
  else s

/-- The interface reports trained (R19); ignored in CLOCK-HOLD (R29). -/
def trained (l : Link) (s : State) : State :=
  if (s.links.get l).line = .training ∧ s.held l = false then
    linkConnected l (modLink l (fun t => { t with line := .connected }) s)
  else s

/-- Training time reaches 2 s (R19). -/
def trainingTimeout (l : Link) (s : State) : State :=
  if (s.links.get l).line = .training then
    bump (.link l .trainingFailures)
      (modLink l (fun t => { t with line := .noSignal, retrainPause := some 1000 }) s)
  else s

/-! ### Reception (R21 to R24) -/

/-- Set a link's receiver. -/
def setLinkRx (l : Link) (r : LinkRx) (s : State) : State := modLink l (fun t => { t with rx := r }) s

/-- Begin a reception, looped back or from the line: a new record of one block, or no-buffer and
DISCARDING (R21). -/
def beginLinkReception (l : Link) (looped : Bool) (s : State) : State :=
  match startRecord s with
  | (some rid, s) => setLinkRx l (.receiving ⟨[], 0, crc32Start, [], rid, false, looped⟩) s
  | (none, s) => setLinkRx l (.discarding looped) (bump (.link l .noBuffer) s)

/-- The running check and the last four bytes take one more byte: the byte that leaves the last four
enters the check (log entry 9). -/
def LinkReception.roll (r : LinkReception) (b : Byte) : LinkReception :=
  match r.last with
  | [b0, b1, b2, b3] => { r with crc := crc32Byte r.crc b0, last := [b1, b2, b3, b] }
  | last => { r with last := last ++ [b] }

/-- One byte of a reception (R22). -/
def takeLinkByte (l : Link) (b : Byte) (s : State) : State :=
  match (s.links.get l).rx with
  | .receiving r =>
    let r := { r.roll b with count := r.count + 1 }
    if r.header.length < 7 then setLinkRx l (.receiving { r with header := r.header ++ [b] }) s
    else if officeLength r.header ≤ Config.officePayload ∧
        (s.payload r.record).length < officeLength r.header then
      match storeByte r.record b s with
      | (true, s) => setLinkRx l (.receiving r) s
      | (false, s) => setLinkRx l (.discarding r.looped) (bump (.link l .noBuffer) (dropRecord r.record s))
    else setLinkRx l (.receiving r) s
  | _ => s

/-- The outcomes of a link reception (R23). -/
inductive LinkOutcome where
  | symbolError
  | checkBad
  | lengthBad
  | good
deriving DecidableEq, Repr

/-- Classify a reception by the first test that applies (R23). -/
def classifyLink (r : LinkReception) : LinkOutcome :=
  if r.symbolError then .symbolError
  else if r.count < 11 then .checkBad
  else if r.last ≠ Side.pair.long (~~~ r.crc).toNat then .checkBad
  else if Config.officePayload < officeLength r.header ∨ r.count ≠ 7 + officeLength r.header + 4 then
    .lengthBad
  else .good

/-- The counter and the report of a bad outcome (R24). -/
def linkOutcomeReport (h : Header) : LinkOutcome → Option (LinkCount × LinkReport)
  | .symbolError => some (.symbolErrorFrames, .symbolErrorFrame)
  | .checkBad => some (.checkBad, .checkBad)
  | .lengthBad => some (.lengthBad, .lengthBad h.src)
  | .good => none

/-- The end of a reception (R23, R24); a receiver in DISCARDING returns to IDLE (R21). While the link is
OFF a reception from the line makes no report (R24, log entry 42). -/
def endLinkReception (l : Link) (s : State) : State :=
  match (s.links.get l).rx with
  | .idle => s
  | .discarding _ => setLinkRx l .idle s
  | .receiving r =>
    let h := readOfficeHeader r.header
    let s := setLinkRx l .idle s
    match linkOutcomeReport h (classifyLink r) with
    | none => handOver (.link l) h r.record (bump (.link l .good) s)
    | some (c, report) =>
      let s := bump (.link l c) (dropRecord r.record s)
      if r.looped || s.serviceOf (.link l) ≠ .off then linkReport l report s else s

/-- A frame-start report (R21): it ends a reception from the line first, and is ignored where a reception
may not begin. In INTERNAL mode none begins, and in CLOCK-HOLD the report is ignored (R27, R29). In EXTERNAL
mode every report is taken as that of the port's own turned-back frame (log entry 55). -/
def frameStart (l : Link) (s : State) : State :=
  if s.held l then s
  else
    let s := if (s.links.get l).rx.outside then endLinkReception l s else s
    let t := s.links.get l
    if t.rx = .idle ∧ t.line = .connected ∧ s.serviceOf (.link l) ≠ .off ∧ t.loop ≠ .internal then
      beginLinkReception l false s
    else s

/-- A frame-end report (R23); a looped-back reception is not the line's (R27). -/
def frameEnd (l : Link) (s : State) : State :=
  if (s.links.get l).rx.looping then s else endLinkReception l s

/-- A byte report (R22, R27, R29). -/
def linkByte (l : Link) (b : Byte) (s : State) : State :=
  if (s.links.get l).rx.looping ∨ s.held l then s else takeLinkByte l b s

/-- A symbol-error report (R22): counted and reported; it marks a reception in progress. -/
def symbolError (l : Link) (s : State) : State :=
  if s.held l then s
  else
    let s := match (s.links.get l).rx with
      | .receiving r => setLinkRx l (.receiving { r with symbolError := true }) s
      | _ => s
    linkReport l .symbolError (bump (.link l .symbolErrors) s)

/-! ### Transmission (R25, R26) -/

/-- What a link's transmitter may take (R25). -/
def State.linkTakes (s : State) (l : Link) : Option InFlight :=
  let t := s.links.get l
  if t.tx ≠ .idle then none
  else
    match t.loop with
    | .normal =>
      if s.serviceOf (.link l) = .inService ∧ t.line = .connected ∧ s.queues.get (.link l) ≠ [] then
        some .head
      else none
    | .internal => if (s.slots.get (.link l)).isSome then some .test else none
    | .external =>
      if t.line = .connected ∧ (s.slots.get (.link l)).isSome then some .test else none

/-- A link takes a frame and drives it at once (R25); in INTERNAL mode its looped-back reception begins
(R21, R27). -/
def linkTake (l : Link) (s : State) : State :=
  match s.linkTakes l with
  | none => s
  | some f =>
    let s := modLink l (fun t => { t with inFlight := some f, tx := .sending }) s
    let s := match s.flying (.link l) with
      | some (_, rid) => addRef rid s
      | none => s
    let s := modLink l (fun t => { t with wire := s.wireFrame (.link l) }) s
    if (s.links.get l).loop = .internal ∧ (s.links.get l).rx = .idle then beginLinkReception l true s else s

/-- Bytes taken one after another by a link's receiver. -/
def takeLinkBytes (l : Link) : List Byte → State → State
  | [], s => s
  | b :: bs, s => takeLinkBytes l bs (takeLinkByte l b s)

/-- The last check byte is driven (R26): the frame is sent and the gap begins. In INTERNAL mode the
looped-back reception has taken every byte, and ends with the transmission (R21, log entry 30); so does
the DISCARDING that this reception left for want of a block (log entry 38). -/
def linkSent (l : Link) (s : State) : State :=
  let t := s.links.get l
  if t.tx = .sending then
    let ends := t.loop = .internal ∧ t.rx.own
    let s := if ends then takeLinkBytes l t.wire s else s
    let s := flightEnded (.link l) (bump (.link l .sent) s)
    let s := modLink l (fun t => { t with tx := .gap }) s
    if ends then endLinkReception l s else s
  else s

/-- The gap expires (R26). -/
def gapExpiry (l : Link) (s : State) : State :=
  if (s.links.get l).tx = .gap then modLink l (fun t => { t with tx := .idle }) s else s

/-! ### Interfaces (R28, R29) -/

/-- One link goes down with its interface (R28): signal seen no, the retrain pause cancelled. -/
def takeLinkDown (l : Link) (s : State) : State :=
  let was := (s.links.get l).line
  let s := modLink l (fun t => { t with signalSeen := false, retrainPause := none }) s
  match was with
  | .noSignal => s
  | .training => modLink l (fun t => { t with line := .noSignal }) s
  | .connected => loseConnection l s

/-- Both links of an interface go down together, in link order (R28, log entry 19). -/
def takeInterfaceDown (i : Iface) (s : State) : State :=
  i.links.foldl (fun s l => takeLinkDown l s) s

/-- Clock loss (R29): a further one in CLOCK-HOLD takes nothing further down. -/
def clockLoss (i : Iface) (s : State) : State :=
  let held := (s.ifaces.get i).clockHold
  let s := bump (.iface i .clockLosses) (modIface i (fun _ => ⟨true, 0⟩) s)
  if held then s else takeInterfaceDown i s

/-- The interface reports the signal of each of its links as it finds it (R29, R32, log entry 7). -/
def reportSignals (i : Iface) (s : State) : State :=
  i.links.foldl (fun s l => if (s.links.get l).lineSignal then signalReported l s else s) s

/-- The clock hold time reaches 1 s (R29). -/
def clockHoldExpiry (i : Iface) (s : State) : State :=
  if (s.ifaces.get i).clockHold then reportSignals i (modIface i (fun _ => ⟨false, 0⟩) s) else s

/-- RESTART-INTERFACE at an interface (R28): nothing further goes down in CLOCK-HOLD. -/
def restartInterface (i : Iface) (s : State) : State :=
  let s := bump (.iface i .restarts) s
  if (s.ifaces.get i).clockHold then s else takeInterfaceDown i s

/-! ### The commands -/

/-- SIGNAL_PRESENT (R18). -/
def execSignalPresent (l : Link) (s : State) : Host.Outcome State Fault Refusal :=
  .next (whenActive (signalPresent l) (modLink l (fun t => { t with lineSignal := true }) s))

/-- SIGNAL_LOST (R18 to R20). -/
def execSignalLost (l : Link) (s : State) : Host.Outcome State Fault Refusal :=
  .next (whenActive (fun s => settleSweep (signalLost l s))
    (modLink l (fun t => { t with lineSignal := false }) s))

/-- RETRAIN_PAUSE_EXPIRY (R18). -/
def execRetrainPauseExpiry (l : Link) (s : State) : Host.Outcome State Fault Refusal :=
  .next (whenActive (pauseExpiry l) s)

/-- TRAINED (R19). -/
def execTrained (l : Link) (s : State) : Host.Outcome State Fault Refusal :=
  .next (whenActive (trained l) s)

/-- TRAINING_TIMEOUT (R19). -/
def execTrainingTimeout (l : Link) (s : State) : Host.Outcome State Fault Refusal :=
  .next (whenActive (trainingTimeout l) s)

/-- FRAME_START (R21). -/
def execFrameStart (l : Link) (s : State) : Host.Outcome State Fault Refusal :=
  .next (whenActive (fun s => settleSweep (frameStart l s)) s)

/-- LINK_BYTE (R22). -/
def execLinkByte (l : Link) (b : Byte) (s : State) : Host.Outcome State Fault Refusal :=
  .next (whenActive (linkByte l b) s)

/-- SYMBOL_ERROR (R22). -/
def execSymbolError (l : Link) (s : State) : Host.Outcome State Fault Refusal :=
  .next (whenActive (fun s => settleSweep (symbolError l s)) s)

/-- FRAME_END (R23). -/
def execFrameEnd (l : Link) (s : State) : Host.Outcome State Fault Refusal :=
  .next (whenActive (fun s => settleSweep (frameEnd l s)) s)

/-- LINK_TAKE_FRAME (R25). -/
def execLinkTakeFrame (l : Link) (s : State) : Host.Outcome State Fault Refusal :=
  .next (whenActive (linkTake l) s)

/-- LINK_SENT (R26). -/
def execLinkSent (l : Link) (s : State) : Host.Outcome State Fault Refusal :=
  .next (whenActive (fun s => settleSweep (linkSent l s)) s)

/-- GAP_EXPIRY (R26). -/
def execGapExpiry (l : Link) (s : State) : Host.Outcome State Fault Refusal :=
  .next (whenActive (gapExpiry l) s)

/-- CLOCK_LOSS (R29). -/
def execClockLoss (i : Iface) (s : State) : Host.Outcome State Fault Refusal :=
  .next (whenActive (fun s => settleSweep (clockLoss i s)) s)

/-- CLOCK_HOLD_EXPIRY (R29). -/
def execClockHoldExpiry (i : Iface) (s : State) : Host.Outcome State Fault Refusal :=
  .next (whenActive (clockHoldExpiry i) s)

end Sys2Proof.Machine
end

