-- ==== Sys2Proof/Machine/PrinterLines.lean ====
section
/-! DEFINITION. The printer lines: inputs, byte hand-over, stalls, choosing, level order, RESET-LINE, and
the commands at the lines (07_printer_lines_and_scheduling.md). -/

namespace Sys2Proof.Machine

/-! ### Inputs and the job in service (R122 to R124) -/

/-- The inputs are good (R124). -/
def LineState.good (t : LineState) : Bool := t.select && !t.paperOut && !t.fault

/-- The first bad input, as a cause (R124). -/
def LineState.badInput (t : LineState) : Option StallCause :=
  if t.select = false then some .offline
  else if t.paperOut then some .paperOut
  else if t.fault then some .fault
  else none

/-- Every timer of a line stopped and its byte in flight abandoned. -/
def LineState.quietened (t : LineState) : LineState :=
  { t with byteInFlight := false, pendingCause := none, ackTimer := none, busyWait := none
           retryTimer := none }

/-- The line has a job in service. -/
def LineState.serving (t : LineState) : Bool := t.job.isSome

/-- Change the job in service of a line. -/
def modLineJob (n : Line) (f : Job → Job) (s : State) : State :=
  match (s.lines.get n).job with
  | some slot => modJob slot f s
  | none => s

/-- The job in service follows its line's state (R122). -/
def lineJobState (n : Line) (st : JobState) (s : State) : State :=
  modLineJob n (fun j => { j with state := st }) s

/-- The byte at the current position of the job in service (R123). -/
def State.nextByte (s : State) (n : Line) : Byte :=
  match (s.lines.get n).job with
  | some slot =>
    match s.jobs.find slot with
    | some j => byteAt j.bytes j.printed
    | none => 0
  | none => 0

/-! ### Presenting, waiting and stalling (R124, R126, R128) -/

/-- Present the byte at the current position (R124). -/
def presentByte (n : Line) (s : State) : State :=
  modLine n (fun t => { t with
    data := s.nextByte n, byteInFlight := true, pendingCause := none, busyWait := none
    ackTimer := some s.config.ackTimeout }) s

/-- Start a busy wait, unless one runs (R126). -/
def startBusyWait (n : Line) (s : State) : State :=
  modLine n (fun t => { t with
    busyWait := some (t.busyWait.getD (1000 * s.config.busyLimit)) }) s

/-- The counter of a stall's cause (R143). -/
def StallCause.counter : StallCause → LineCount
  | .offline => .stallOffline
  | .paperOut => .stallPaperOut
  | .fault => .stallFault
  | .ackTimeout => .stallAckTimeout
  | .busyTimeout => .stallBusyTimeout

/-- A cause that a retry ends (R130). -/
def StallCause.timed : StallCause → Bool
  | .ackTimeout | .busyTimeout => true
  | _ => false

/-- The retry timer a stall starts: none for an input's cause or a stall retry of 0 (R128). -/
def retryFor (c : StallCause) (s : State) : Option Nat :=
  if c.timed ∧ s.config.stallRetry ≠ 0 then some (1000 * s.config.stallRetry) else none

/-- Enter a stall (R128). -/
def enterStall (n : Line) (c : StallCause) (s : State) : State :=
  let s := modLine n (fun t => { t.quietened with
    state := .stalled, stallCause := some c, retryTimer := retryFor c s }) s
  raise .printerStalled (bump (.line n c.counter) (lineJobState n .stalled s))

/-- A FEEDING line with no byte in flight judges its inputs (R124). -/
def judgeInputs (n : Line) (s : State) : State :=
  let t := s.lines.get n
  match t.badInput with
  | some c => enterStall n c s
  | none => if t.busy then startBusyWait n s else presentByte n s

/-- The line becomes FEEDING and the job PRINTING, and the inputs are judged (R129, R130, R136). -/
def feed (n : Line) (s : State) : State :=
  let s := modLine n (fun t => { t with
    state := .feeding, stallCause := none, retryTimer := none, busyWait := none }) s
  judgeInputs n (lineJobState n .printing s)

/-- A stall whose cause an input gave ends when the inputs are good (R129). -/
def endInputStall (n : Line) (s : State) : State :=
  let t := s.lines.get n
  match t.stallCause with
  | some c => if t.state = .stalled ∧ c.timed = false ∧ t.good then feed n s else s
  | none => s

/-- Enter the stall of a pending cause; it clears at once where the inputs are good again (R127, R129). -/
def stallPending (n : Line) (c : StallCause) (s : State) : State := endInputStall n (enterStall n c s)

/-! ### Choosing (R138 to R140) -/

/-- The levels of an order, highest first, by its lowest level (R122, R140). -/
def levelOrder (lowest : Fin 4) : List (Fin 4) := [lowest + 1, lowest + 2, lowest + 3, lowest]

/-- What a choice would take: the slot, whether it is the head of a POOL queue, and the level. -/
structure Choice where
  slot : Nat
  pooled : Bool
  level : Fin 4
deriving DecidableEq, Repr

/-- The candidate of a level: the earlier of the line's own head and the POOL head (R139). -/
def State.candidate (s : State) (n : Line) (l : Fin 4) : Option Choice :=
  match s.readyHead (.line n) l, s.readyHead .pool l with
  | some a, some b =>
    if a.2.readyOrder.getD 0 ≤ b.2.readyOrder.getD 0 then some ⟨a.1, false, l⟩
    else some ⟨b.1, true, l⟩
  | some a, none => some ⟨a.1, false, l⟩
  | none, some b => some ⟨b.1, true, l⟩
  | none, none => none

/-- The walk of a choice: the first level outside the hold mask with a candidate (R139). -/
def State.nextChoice (s : State) (n : Line) : Option Choice :=
  let t := s.lines.get n
  (levelOrder t.lowest).findSome? fun l =>
    if t.holdMask.getLsbD l.val then none else s.candidate n l

/-- Take a chosen job into service (R111, R139). -/
def takeJob (n : Line) (c : Choice) (s : State) : State :=
  let s := modJob c.slot (fun j => { j with
    state := .printing, line := some n, readyOrder := none, printed := 0 }) s
  let s := bump (.spool .started) (bump (.line n .jobsTaken) s)
  let s := modLine n (fun t => { t.quietened with
    state := .feeding, job := some c.slot, takenFrom := some c.level, stallCause := none }) s
  let s := match s.jobs.find c.slot with
    | some j => sendStatus j.submitter j.tag .started s
    | none => s
  judgeInputs n s

/-- An IDLE line chooses; in any other state it does not (R138). -/
def choose (n : Line) (s : State) : State :=
  if (s.lines.get n).state = .idle then
    match s.nextChoice n with
    | some c => takeJob n c s
    | none => s
  else s

/-- The lines that read the queues of a target choose (R110, R138). Where both are IDLE the order is
open (R139, log entry 4). -/
def tellLines (t : Target) (s : State) : State :=
  match t with
  | .line n => choose n s
  | .pool =>
    if s.lines.lp1.state = .idle ∧ s.lines.lp2.state = .idle then
      match freeOrder s with
      | (true, s) => choose .lp2 (choose .lp1 s)
      | (false, s) => choose .lp1 (choose .lp2 s)
    else choose .lp2 (choose .lp1 s)

/-- A job becomes READY at the tail of its queue with a new ready order (R110). -/
def joinReady (slot : Nat) (s : State) : State :=
  { modJob slot (fun j => { j with state := .ready, readyOrder := some s.nextOrder }) s with
    nextOrder := s.nextOrder + 1 }

/-- The lines that read a job's queue are told (R110). -/
def announce (slot : Nat) (s : State) : State :=
  match s.jobs.find slot with
  | some j => tellLines j.target s
  | none => s

/-! ### Leaving service (R131 to R134) -/

/-- The lowest level after a job leaves service: in ROTATING mode the level it was taken from (R140). -/
def LineState.turned (t : LineState) : Fin 4 :=
  if t.rotating then t.takenFrom.getD t.lowest else t.lowest

/-- The line is free of its job: IDLE, or OFFLINE where SELECT is low (R133). -/
def freeLine (n : Line) (s : State) : State :=
  modLine n (fun t => { t.quietened with
    job := none, takenFrom := none, stallCause := none, lowest := t.turned, data := 0
    state := if t.select then .idle else .offline }) s

/-- Leave service: the line is free, and chooses (R133, R138). -/
def leaveService (n : Line) (s : State) : State := choose n (freeLine n s)

/-- The line reports the end of its job, and leaves service in the way given (R111, R133). -/
def endLineJobBy (leave : Line → State → State) (n : Line) (e : JobEnd) (s : State) : State :=
  match (s.lines.get n).job with
  | some slot => leave n (endJob slot e s)
  | none => s

/-- The line reports the end of its job, and leaves service (R111, R133). -/
def endLineJob (n : Line) (e : JobEnd) (s : State) : State := endLineJobBy leaveService n e s

/-- The outcome asked of the job in service (R100). -/
def State.endAskedOn (s : State) (n : Line) : JobEnd :=
  match (s.lines.get n).job with
  | some slot =>
    match s.jobs.find slot with
    | some j => j.endAsked.getD .printed
    | none => .printed
  | none => .printed

/-- The spool controller asks a line to end its job with an outcome; the line leaves service in the way
given (R132). -/
def askLine (leave : Line → State → State) (n : Line) (e : JobEnd) (s : State) : State :=
  let t := s.lines.get n
  match t.state with
  | .feeding =>
    if t.byteInFlight then lineJobState n .draining (modLine n (fun t => { t with state := .draining }) s)
    else endLineJobBy leave n e s
  | .stalled => endLineJobBy leave n e s
  | .resetting =>
    match t.job with
    | some slot =>
      modLine n (fun t => { t with job := none, takenFrom := none }) (endJob slot e s)
    | none => s
  | _ => s

/-- Ask an end of a live job: at once, or through its line, which leaves service in the way given (R108,
R117, R119). A DRAINING job keeps the end already asked. -/
def askEndBy (leave : Line → State → State) (slot : Nat) (e : JobEnd) (s : State) : State :=
  match s.jobs.find slot with
  | none => s
  | some j =>
    match j.state with
    | .arriving | .ready | .held => endJob slot e s
    | .printing | .stalled =>
      let s := modJob slot (fun j => { j with endAsked := some e }) s
      match j.line with
      | some n => askLine leave n e s
      | none => s
    | .draining => s

/-- Ask an end of a live job: a line whose job ends at once leaves service (R108, R117). -/
def askEnd (slot : Nat) (e : JobEnd) (s : State) : State := askEndBy leaveService slot e s

/-! ### The end of a byte (R125, R131, R134) -/

/-- After a byte that leaves the line FEEDING: judge the inputs, or stall with the pending cause. -/
def afterByte (n : Line) (s : State) : State :=
  match (s.lines.get n).pendingCause with
  | some c => stallPending n c s
  | none => judgeInputs n s

/-- The end of copy check after an acknowledged byte (R131). -/
def copyCheck (n : Line) (s : State) : State :=
  match (s.lines.get n).job with
  | none => s
  | some slot =>
    match s.jobs.find slot with
    | none => s
    | some j =>
      if j.printed < j.bytes.length then afterByte n s
      else
        let s := bump (.line n .copiesPrinted) s
        if j.copiesLeft = 0 then endLineJob n .printed s
        else
          afterByte n (modJob slot (fun j => { j with printed := 0, copiesLeft := j.copiesLeft - 1 }) s)

/-- The byte in flight ends. -/
def LineState.byteEnded (t : LineState) : LineState :=
  { t with byteInFlight := false, ackTimer := none }

/-- An ACK pulse (R125, R134). -/
def ackPulse (n : Line) (s : State) : State :=
  if (s.lines.get n).byteInFlight then
    let draining := (s.lines.get n).state = .draining
    let s := bump (.line n .bytesAcknowledged) (modLine n LineState.byteEnded s)
    let s := modLineJob n (fun j => { j with printed := j.printed + 1 }) s
    if draining then endLineJob n (s.endAskedOn n) s else copyCheck n s
  else bump (.line n .strayAcks) s

/-- The ACK timer's expiry (R125, R134). -/
def ackTimeout (n : Line) (s : State) : State :=
  if (s.lines.get n).byteInFlight then
    let draining := (s.lines.get n).state = .draining
    let s := bump (.line n .ackTimeouts) (modLine n LineState.byteEnded s)
    if draining then endLineJob n (s.endAskedOn n) s
    else
      match (s.lines.get n).pendingCause with
      | some c => stallPending n c s
      | none => enterStall n .ackTimeout s
  else s

/-! ### RESET-LINE and the INIT pulse (R136) -/

/-- Start the INIT pulse. -/
def startInit (n : Line) (s : State) : State :=
  let s := modLine n (fun t => { t.quietened with
    state := .resetting, stallCause := none, data := 0, initTimer := some 20 }) s
  lineJobState n .stalled s

/-- Leave RESETTING (R136). -/
def leaveResetting (n : Line) (s : State) : State :=
  if (s.lines.get n).serving then feed n s
  else choose n (modLine n (fun t => { t with state := .idle }) s)

/-- A RESET-LINE taken at a line that is not DISABLED (R134, R136). The job of a DRAINING line ends and
its level order turns, and the line does not choose (log entry 20). -/
def resetTaken (n : Line) (s : State) : State :=
  let s := bump (.line n .resets) s
  let t := s.lines.get n
  let s := if t.state = .draining then
      match t.job with
      | some slot =>
        modLine n (fun t => { t with job := none, takenFrom := none, lowest := t.turned })
          (endJob slot (s.endAskedOn n) s)
      | none => s
    else s
  startInit n s

/-- CLEAR-ALL at a line, after its job has been ended (R144). -/
def clearLine (n : Line) (s : State) : State :=
  let s := modLine n (fun t => { t.quietened with
    job := none, takenFrom := none, lowest := 3, stallCause := none }) s
  if (s.lines.get n).state = .disabled then s else startInit n s

/-! ### SET-LINE, RESUME-LINE, ROTATE-LINE (R130, R137, R141) -/

/-- Disable a line without a job (R137). -/
def disableLine (n : Line) (s : State) : State :=
  modLine n (fun t => { t.quietened with
    state := .disabled, enabled := false, stallCause := none, initTimer := none, data := 0 }) s

/-- Enable a line: a DISABLED line starts the INIT pulse with no job (R137, R144). -/
def enableLine (n : Line) (s : State) : State :=
  if (s.lines.get n).state = .disabled then
    startInit n (modLine n (fun t => { t with enabled := true }) s)
  else s

/-- A SET-LINE that is not refused: the enable setting, the mode and the hold mask it gives, and the
choice of an IDLE line whose mode or hold mask it gives (R137). -/
def applySetLine (n : Line) (enable rotating : Option Bool) (mask : Option (BitVec 4)) (s : State) :
    State :=
  let s := match enable with
    | some true => enableLine n s
    | some false => disableLine n s
    | none => s
  let s := modLine n (fun t => { t with
    rotating := rotating.getD t.rotating, holdMask := mask.getD t.holdMask }) s
  if rotating.isSome ∨ mask.isSome then choose n s else s

/-- End a timed stall: at its retry timer's expiry or at RESUME-LINE (R130). -/
def resume (n : Line) (s : State) : State :=
  let t := s.lines.get n
  match t.stallCause with
  | some c => if t.state = .stalled ∧ c.timed then feed n s else s
  | none => s

/-- Set a line's level order; an IDLE line chooses (R141). -/
def rotateTo (n : Line) (k : Fin 4) (s : State) : State :=
  choose n (modLine n (fun t => { t with lowest := k }) s)

/-! ### Changes of the inputs (R126, R127, R129, R135, R136) -/

/-- Set the pending cause, unless one is set (R127). -/
def LineState.pend (t : LineState) (c : StallCause) : LineState :=
  { t with pendingCause := some (t.pendingCause.getD c) }

/-- What a line does after one of its inputs has changed, `bad` being the cause where the input has just
gone bad. -/
def inputChanged (n : Line) (bad : Option StallCause) (s : State) : State :=
  let t := s.lines.get n
  match t.state with
  | .feeding =>
    if t.byteInFlight then
      match bad with
      | some c => modLine n (fun t => t.pend c) s
      | none => s
    else judgeInputs n s
  | .stalled => endInputStall n s
  | .idle => if t.select then s else modLine n (fun t => { t with state := .offline }) s
  | .offline =>
    if t.select then choose n (modLine n (fun t => { t with state := .idle }) s) else s
  | .resetting => if t.select ∧ t.initTimer = none then leaveResetting n s else s
  | .draining => s
  | .disabled => s

/-- Change an input pin and let the line act, where the level does change. While the blocks do not act,
only the pin changes (log entry 25). -/
def changeInput (n : Line) (now : Bool) (level : Bool) (put : LineState → LineState)
    (bad : Option StallCause) (s : State) : State :=
  if now = level then s
  else
    let s := modLine n put s
    whenActive (inputChanged n bad) s

/-! ### The commands at the lines -/

/-- ACK_PULSE (R125). -/
def execAckPulse (n : Line) (s : State) : Host.Outcome State Fault Refusal :=
  .next (whenActive (ackPulse n) s)

/-- ACK_TIMEOUT (R125). -/
def execAckTimeout (n : Line) (s : State) : Host.Outcome State Fault Refusal :=
  .next (whenActive (ackTimeout n) s)

/-- SELECT_CHANGE (R135): SELECT low is the bad level. -/
def execSelectChange (n : Line) (level : Bool) (s : State) : Host.Outcome State Fault Refusal :=
  .next (changeInput n (s.lines.get n).select level (fun t => { t with select := level })
    (if level then none else some .offline) s)

/-- PAPER_OUT_CHANGE (R127, R129). -/
def execPaperOutChange (n : Line) (level : Bool) (s : State) : Host.Outcome State Fault Refusal :=
  .next (changeInput n (s.lines.get n).paperOut level (fun t => { t with paperOut := level })
    (if level then some .paperOut else none) s)

/-- FAULT_CHANGE (R127, R129). -/
def execFaultChange (n : Line) (level : Bool) (s : State) : Host.Outcome State Fault Refusal :=
  .next (changeInput n (s.lines.get n).fault level (fun t => { t with fault := level })
    (if level then some .fault else none) s)

/-- BUSY_CHANGE (R126). -/
def execBusyChange (n : Line) (level : Bool) (s : State) : Host.Outcome State Fault Refusal :=
  .next (changeInput n (s.lines.get n).busy level (fun t => { t with busy := level }) none s)

/-- BUSY_LIMIT_EXPIRY (R126): the busy wait reaches its limit. -/
def busyLimit (n : Line) (s : State) : State :=
  let t := s.lines.get n
  if t.state = .feeding ∧ t.busyWait.isSome then
    enterStall n .busyTimeout (bump (.line n .busyTimeouts) s)
  else s

/-- BUSY_LIMIT_EXPIRY (R126). -/
def execBusyLimitExpiry (n : Line) (s : State) : Host.Outcome State Fault Refusal :=
  .next (whenActive (busyLimit n) s)

/-- STALL_RETRY_EXPIRY (R130): only while the retry timer runs. -/
def execStallRetryExpiry (n : Line) (s : State) : Host.Outcome State Fault Refusal :=
  .next (whenActive (fun s => if (s.lines.get n).retryTimer.isSome then resume n s else s) s)

/-- The INIT pulse ends (R136): the line leaves RESETTING where SELECT is high. -/
def initPulseEnd (n : Line) (s : State) : State :=
  if (s.lines.get n).initTimer.isSome then
    let s := modLine n (fun t => { t with initTimer := none }) s
    if (s.lines.get n).select then leaveResetting n s else s
  else s

/-- INIT_PULSE_END (R136). -/
def execInitPulseEnd (n : Line) (s : State) : Host.Outcome State Fault Refusal :=
  .next (whenActive (initPulseEnd n) s)

end Sys2Proof.Machine
end

