-- ==== Sys2Proof/Machine/PrintJobs.lean ====
section
/-! DEFINITION. The print protocol: PRINT frames, and what the spool does for job requests
(06_print_jobs.md, R100 to R119). -/

namespace Sys2Proof.Machine

/-- What the forwarding engine hands over with a PRINT frame (R90): the index of the entry addressed, its
target and level, the submitter and the source entry. -/
structure Handoff where
  aliasIndex : Nat
  target : Target
  level : Fin 4
  submitter : Key
  source : SourceEntry
deriving DecidableEq, Repr

/-! ### OPEN (R103, R104) -/

/-- The source entry has the PRINT right. -/
def State.mayPrint (s : State) : SourceEntry → Bool
  | .index i =>
    match s.station i with
    | some t => t.print
    | none => false
  | _ => false

/-- A target is switched off: its line, or for POOL both lines, are DISABLED (R103). -/
def State.noPrinter (s : State) : Target → Bool
  | .line n => (s.lines.get n).state = .disabled
  | .pool => s.lines.lp1.state = .disabled && s.lines.lp2.state = .disabled

/-- The counter of a refusal's reason (R120). -/
def RefusedReason.counter : RefusedReason → SpoolCount
  | .notAllowed => .refusedNotAllowed
  | .noPrinter => .refusedNoPrinter
  | .spoolFull => .refusedSpoolFull
  | .tableFull => .refusedTableFull
  | .tagInUse => .refusedTagInUse
  | .submitterLimit => .refusedSubmitterLimit
  | .malformed => .refusedMalformed

/-- Answer REFUSED with a reason. -/
def refuse (u : Key) (tag : Byte) (r : RefusedReason) (s : State) : State :=
  sendStatus u tag (.refused r) (bump (.spool r.counter) s)

/-- A new job (R104). -/
def newJob (h : Handoff) (tag : Byte) (copies : Nat) : Job :=
  { submitter := h.submitter, tag := tag, aliasIndex := h.aliasIndex, target := h.target
    level := h.level, state := .arriving, holdOnClose := false, copies := copies
    copiesLeft := copies - 1, bytes := [], nextSeq := 0, quiet := 0, readyOrder := none, line := none
    printed := 0, endAsked := none }

/-- The checks of an OPEN from the submitter's limit on (R103). -/
def openRest (h : Handoff) (tag : Byte) (copies : Nat) (s : State) : State :=
  if 4 ≤ s.liveOf h.submitter then refuse h.submitter tag .submitterLimit s
  else
    match s.jobs.lowestFree 0 Config.jobSlots with
    | none => refuse h.submitter tag .tableFull s
    | some slot =>
      if s.nearFullAt ≤ s.pool.spoolHeld then refuse h.submitter tag .spoolFull s
      else
        let s := { s with jobs := s.jobs.put id slot (newJob h tag copies) }
        sendStatus h.submitter tag .accepted (bump (.spool .opened) s)

/-- An OPEN (R103). -/
def printOpen (h : Handoff) (tag : Byte) (copies : Nat) (s : State) : State :=
  if s.mayPrint h.source = false then refuse h.submitter tag .notAllowed s
  else if s.noPrinter h.target then refuse h.submitter tag .noPrinter s
  else
    match s.jobOf h.submitter tag with
    | some (slot, j) =>
      if j.state = .arriving then openRest h tag copies (endJob slot (.aborted .restarted) s)
      else refuse h.submitter tag .tagInUse s
    | none => openRest h tag copies s

/-! ### DATA (R105, R106) -/

/-- Answer UNKNOWN-JOB. -/
def unknownJob (u : Key) (tag : Byte) (s : State) : State :=
  sendStatus u tag .unknownJob (bump (.spool .unknownJob) s)

/-- Append one byte to a job's chain. -/
def Job.append (b : Byte) (j : Job) : Job := { j with bytes := j.bytes ++ [b] }

/-- Append print bytes to a job's chain, a block taken wherever every block is full. False where a take is
refused (R106). -/
def appendBytes (slot : Nat) : List Byte → State → Bool × State
  | [], s => (true, s)
  | b :: bs, s =>
    match s.jobs.find slot with
    | none => (true, s)
    | some j =>
      if j.bytes.length % Config.blockBytes ≠ 0 then
        appendBytes slot bs (modJob slot (Job.append b) s)
      else
        match spoolTake s with
        | (false, s) => (false, s)
        | (true, taken) =>
          appendBytes slot bs (spoolTook s.pool (modJob slot (Job.append b) taken))

/-- The live job of a submitter and a tag, where it is ARRIVING. -/
def State.arrivingJob (s : State) (u : Key) (tag : Byte) : Option (Nat × Job) :=
  match s.jobOf u tag with
  | some (slot, j) => if j.state = .arriving then some (slot, j) else none
  | none => none

/-- A DATA (R105). -/
def printData (u : Key) (tag seq : Byte) (bytes : List Byte) (s : State) : State :=
  match s.arrivingJob u tag with
  | none => unknownJob u tag s
  | some (slot, j) =>
    if seq ≠ j.nextSeq then endJob slot (.aborted .gap) s
    else
      match appendBytes slot bytes s with
      | (true, s) => modJob slot (fun j => { j with nextSeq := seq + 1, quiet := 0 }) s
      | (false, s) => endJob slot (.aborted .noSpace) s

/-! ### CLOSE and CANCEL (R107, R108) -/

/-- A job that leaves ARRIVING loses its next sequence and its quiet seconds (R107): both are 0 from then
on, and a job record shows 0 for them (R115 gives no value, log entry 46). -/
def closeJob (slot : Nat) (st : JobState) (s : State) : State :=
  modJob slot (fun j => { j with state := st, nextSeq := 0, quiet := 0 }) s

/-- A CLOSE (R107). QUEUED is sent before the lines are told (log entry 19). -/
def printClose (u : Key) (tag : Byte) (total : Nat) (s : State) : State :=
  match s.arrivingJob u tag with
  | none => unknownJob u tag s
  | some (slot, j) =>
    if total ≠ j.bytes.length then endJob slot (.aborted .lengthMismatch) s
    else if total = 0 then endJob slot (.aborted .empty) s
    else if j.holdOnClose then
      sendStatus u tag .held (bump (.spool .heldOnClose) (closeJob slot .held s))
    else
      let s := bump (.spool .queued) (joinReady slot (closeJob slot .ready s))
      announce slot (sendStatus u tag .queued s)

/-- A CANCEL (R108). -/
def printCancel (u : Key) (tag : Byte) (s : State) : State :=
  match s.jobOf u tag with
  | none => unknownJob u tag s
  | some (slot, _) => askEnd slot .cancelledSubmitter s

/-- A PRINT frame addressed to an entry of kind PRINTER (R102). -/
def printFrame (h : Handoff) (payload : List Byte) (s : State) : State :=
  match readPrint h.submitter.side payload with
  | none => refuse h.submitter (printTag payload) .malformed s
  | some (.opening tag copies) => printOpen h tag copies s
  | some (.data tag seq bytes) => printData h.submitter tag seq bytes s
  | some (.close tag total) => printClose h.submitter tag total s
  | some (.cancel tag) => printCancel h.submitter tag s

/-! ### Job requests (R116, R118, R119) -/

/-- HOLD-JOB on a live job (R116). -/
def holdJob (slot : Nat) (j : Job) (s : State) : Status × State :=
  match j.state with
  | .arriving => (.done, modJob slot (fun j => { j with holdOnClose := true }) s)
  | .ready => (.done, modJob slot (fun j => { j with state := .held, readyOrder := none }) s)
  | .held => (.done, s)
  | .printing | .stalled | .draining => (.busy, s)

/-- RELEASE-JOB on a live job (R116). -/
def releaseJob (slot : Nat) (j : Job) (s : State) : State :=
  match j.state with
  | .arriving => modJob slot (fun j => { j with holdOnClose := false }) s
  | .held => announce slot (joinReady slot (modJob slot (fun j => { j with holdOnClose := false }) s))
  | _ => s

/-- MOVE-JOB on a live job to a target and a level (R118). -/
def moveJob (slot : Nat) (j : Job) (t : Target) (l : Fin 4) (s : State) : Status × State :=
  match j.state with
  | .ready =>
    if j.target = t ∧ j.level = l then (.done, s)
    else
      (.done, announce slot (joinReady slot (modJob slot (fun j => { j with target := t, level := l }) s)))
  | .held => (.done, modJob slot (fun j => { j with target := t, level := l }) s)
  | _ => (.busy, s)

/-- FLUSH-SPOOL over a list of slots, with the numbers of jobs ended at once and left to their lines so
far (R119, log entry 29). A line whose job ends at once is free and chooses nothing: a choice is a step
after the flush, which leaves every ready queue empty (R119, R139, R187). -/
def flushSlots : List Nat → Nat → Nat → State → Nat × Nat × State
  | [], atOnce, left, s => (atOnce, left, s)
  | slot :: rest, atOnce, left, s =>
    match s.jobs.find slot with
    | none => flushSlots rest atOnce left s
    | some j =>
      let s := askEndBy freeLine slot (.aborted .flushed) s
      if j.inService then flushSlots rest atOnce (left + 1) s else flushSlots rest (atOnce + 1) left s

end Sys2Proof.Machine
end

