-- ==== Sys2Proof/Machine/Directory.lean ====
section
/-! DEFINITION. The directory's own work: learning, aging, edits, claim defence (04_the_directory.md). -/

namespace Sys2Proof.Machine

/-! ### Learning (R56 to R59, R76) -/

/-- The directory's answer to learning. -/
inductive Learned where
  | accept (source : SourceEntry)
  | clash
  | printerClash
deriving DecidableEq, Repr

/-- The lowest free index from 1 to 255. -/
def State.freeIndex (s : State) : Option Nat := s.dir.lowestFree 1 255

/-- No entry holds a key. -/
def State.unheld (s : State) (k : Key) : Bool := !(s.dir.any fun e => e.2.holds k)

/-- The office address learning gives a trunk node, where no entry holds it (R59). -/
def State.learnedAddress (s : State) (n : Node) : Option Address :=
  let a : Address := BitVec.ofNat 16 (s.config.officeBase + n.toNat)
  if s.unheld (.address a) then some a else none

/-- The entry of a station first heard on a port (R59). -/
def State.learnedEntry (s : State) (k : Key) (p : Port) : Entry :=
  let t : Station := ⟨some p, false, false, s.config.learnedMayPrint, .good, 0, 0, 0⟩
  match k with
  | .node n => ⟨.learned, some n, s.learnedAddress n, .station t⟩
  | .address a => ⟨.learned, none, some a, .station t⟩

/-- An unknown source: a new entry, or none where the table is full (R59). -/
def learnNew (k : Key) (p : Port) (s : State) : SourceEntry × State :=
  match s.freeIndex with
  | none => (.none, bump (.dir .learnRefusedFull) (raise .directoryFull s))
  | some i => (.index i, bump (.dir .learned) (putEntry i (s.learnedEntry k p) s))

/-- A station is heard at a port: home and quiet seconds are set (R56). -/
def heardAt (i : Nat) (p : Port) (s : State) : State :=
  modStation i (fun t => { t with home := some p, quiet := 0 }) s

/-- A clash (R57). -/
def nodeClash (s : State) : Learned × State :=
  (.clash, raise .nodeClash (bump (.dir .nodeClashes) s))

/-- Learning of a source from a port. `guarded` is no for an OBJECT, which the claim guard does not hold
back (R56 to R59, R76). -/
def learn (k : Key) (p : Port) (guarded : Bool) (s : State) : Learned × State :=
  match s.lookup k with
  | none =>
    let (source, s) := learnNew k p s
    (.accept source, s)
  | some (i, e) =>
    match e.kind with
    | .station t =>
      match t.home with
      | none => (.accept (.index i), heardAt i p s)
      | some home =>
        if home = p then (.accept (.index i), heardAt i p s)
        else if home.side ≠ p.side then nodeClash s
        else if e.origin = .static ∧ t.pinned then nodeClash s
        else if guarded ∧ t.quiet < s.config.claimGuard then nodeClash s
        else (.accept (.index i), bump (.dir .moves) (heardAt i p s))
    | .printer _ _ => (.printerClash, raise .nodeClash (bump (.dir .aliasClashes) s))
    | .bridge => (.clash, s)

/-! ### Claim defence (R73 to R75) -/

/-- The counter of a DEFEND's class. -/
def DefendClass.counter : DefendClass → DirCount
  | .reservedNumber => .defendReserved
  | .printerHeld => .defendPrinter
  | .stationPairSide => .defendPairSide
  | .stationOtherSegment => .defendOtherSegment

/-- Make a DEFEND and offer it to the claimant's segment (R74). A DEFEND whose record is refused counts
defend-lost alone (log entry 37). -/
def defend (x : Seg) (n : Node) (c : DefendClass) (s : State) : State :=
  match sendOwn (.seg x) (.node n) kindDefend [c.code, n] s with
  | (.noRecord, s) => bump (.dir .defendLost) s
  | (_, s) => bump (.dir c.counter) s

/-- Offer one unchanged copy of a CLAIM to the other segment (R73). -/
def forwardClaim (x : Seg) (h : Header) (rid : Nat) (source : SourceEntry) (s : State) : State :=
  bump (.dir .claimsForwarded) (offer (.seg x.other) ⟨h, rid, some (.seg x), source⟩ s).2

/-- The claim defence of a CLAIM for `n` taken on a segment (R73). -/
def claimDefence (x : Seg) (n : Node) (h : Header) (rid : Nat) (s : State) : State :=
  if (Key.node n).isStation = false then defend x n .reservedNumber s
  else
    match s.lookup (.node n) with
    | none =>
      let (source, s) := learnNew (.node n) (.seg x) s
      forwardClaim x h rid source s
    | some (i, e) =>
      match e.kind with
      | .printer _ _ => defend x n .printerHeld s
      | .bridge => s
      | .station t =>
        if t.standing = .quarantined then bump (.forward (.seg x) .quarantinedDrop) s
        else
          match t.home with
          | some (.link _) => defend x n .stationPairSide s
          | some (.seg y) =>
            if y = x then forwardClaim x h rid (.index i) (heardAt i (.seg x) s)
            else if t.pinned ∨ t.quiet < s.config.claimGuard then defend x n .stationOtherSegment s
            else forwardClaim x h rid (.index i) (bump (.dir .moves) (heardAt i (.seg x) s))
          | none => forwardClaim x h rid (.index i) (heardAt i (.seg x) s)

/-! ### Aging and PURGE-LEARNED (R60, R71) -/

/-- One second of an entry (R60). -/
def Entry.second (e : Entry) : Entry :=
  match e.kind with
  | .station t =>
    if t.standing = .quarantined then e
    else { e with kind := .station { t with quiet := min 65535 (t.quiet + 1) } }
  | _ => e

/-- A LEARNED station that is not QUARANTINED. -/
def Entry.movable (e : Entry) : Bool :=
  match e.kind with
  | .station t => e.origin = .learned && t.standing ≠ .quarantined
  | _ => false

/-- The quiet seconds of a station's entry. -/
def Entry.quiet (e : Entry) : Nat :=
  match e.kind with
  | .station t => t.quiet
  | _ => 0

/-- Remove the entries at a list of indexes, counting each (R61). -/
def removeAll (c : DirCount) : List Nat → State → State
  | [], s => s
  | i :: is, s => removeAll c is (bump (.dir c) (removeEntry i s))

/-- The indexes of the entries with a property. -/
def State.indexesOf (s : State) (test : Entry → Bool) : List Nat :=
  (s.dir.filter fun e => test e.2).map Prod.fst

/-- The second expiry at the directory (R60). -/
def ageSecond (s : State) : State :=
  let s := { s with dir := s.dir.map fun e => (e.1, e.2.second) }
  let limit := s.config.ageLimit * 60
  if s.config.ageLimit = 0 then s
  else removeAll .agedOut (s.indexesOf fun e => e.movable && limit ≤ e.quiet) s

/-- PURGE-LEARNED: how many entries were removed, and the state after (R71). -/
def purgeLearned (s : State) : Nat × State :=
  let is := s.indexesOf Entry.movable
  (is.length, removeAll .purgedLearned is s)

/-- CLEAR-ALL at the directory: every entry but entry 0 is removed (R78). The counters are kept. -/
def clearDirectory (s : State) : State := atEach removeEntry (s.indices.filter (· ≠ 0)) s

/-! ### Edits (R63 to R70) -/

/-- One edit of a batch, as its bytes give it (R200). -/
inductive Edit where
  | setStation (e : StationEdit)
  | setAlias (e : AliasEdit)
  | delete (index : Byte)
  | setRights (index : Byte) (manager print : Bool)
  | release (index : Byte)
  | quarantine (index : Byte)
deriving DecidableEq, Repr

/-- What became of one edit. -/
inductive Edited where
  | refused (st : Status)
  /-- the edit names index 0 (R70) -/
  | ignored
  /-- applied; the index taken where the edit gave "any free", and the news of the quarantines it made -/
  | applied (took : Option Nat) (news : List QuarantineNews) (s : State)

/-- The keys an edit gives: a trunk node of 0 or an office address of 0 is no key (R200). -/
def editNode (n : Node) : Option Node := if n = 0 then none else some n
def editAddress (a : Address) : Option Address := if a = 0 then none else some a

/-- The keys an edit gives, as keys. -/
def givenKeys (n : Node) (a : Address) : List Key :=
  ((editNode n).map Key.node).toList ++ ((editAddress a).map Key.address).toList

/-- Every key is one a station may hold (R63). -/
def keysInRange (ks : List Key) : Bool := ks.all Key.isStation

/-- A home lies on a side that one of the keys allows (R52, R63). -/
def homeAllowed (ks : List Key) (p : Port) : Bool := ks.any fun k => k.side = p.side

/-- The home an edit gives: none where the code is no home. -/
def editHome (c : Byte) : Option (Option Port) :=
  if c = 0xFF then some none else (Port.ofCode c).map some

/-- An entry at an index other than `target` holds one of the keys. -/
def holdsOther (ks : List Key) (target : Option Nat) (e : Nat × Entry) : Bool :=
  decide (some e.1 ≠ target) && ks.any fun k => e.2.holds k

/-- A key is held by another STATIC entry or by an alias (R63). -/
def State.keyConflict (s : State) (ks : List Key) (target : Option Nat) : Bool :=
  s.dir.any fun e => holdsOther ks target e && e.2.origin = .static

/-- The learned entries at other indexes that hold the keys: an edit takes them over (R65). -/
def State.takenOver (s : State) (ks : List Key) (target : Option Nat) : List Nat :=
  (s.dir.filter fun e => holdsOther ks target e && e.2.origin = .learned).map Prod.fst

/-- The index an edit names: none for "any free" (FFh). -/
def editIndex (i : Byte) : Option Nat := if i = 0xFF then none else some i.toNat

/-- The LEARNED, not QUARANTINED station with the largest quiet seconds, the lowest index among equals
(R66). -/
def quietest : List (Nat × Entry) → Option (Nat × Entry)
  | [] => none
  | e :: es =>
    match quietest es with
    | none => if e.2.movable then some e else none
    | some d => if e.2.movable ∧ d.2.quiet ≤ e.2.quiet then some e else some d

/-- The index an edit writes: the one it names, the lowest free one, or one freed by eviction (R64, R66).
None where no index can be had. -/
def takeIndex (target : Option Nat) (s : State) : Option (Nat × State) :=
  match target with
  | some i => some (i, s)
  | none =>
    match s.freeIndex with
    | some i => some (i, s)
    | none =>
      match quietest s.dir with
      | some (i, _) => some (i, bump (.dir .evicted) (removeEntry i s))
      | none => none

/-- The badness of a standing (R65). -/
def Standing.rank : Standing → Nat
  | .good => 0
  | .suspect => 1
  | .probation => 2
  | .quarantined => 3

/-- The fault state a written entry inherits from those before it: worst standing, largest tally and
minutes, smallest quiet seconds (R65). -/
def inherit : List Station → Standing × Nat × Nat × Nat
  | [] => (.good, 0, 0, 0)
  | [t] => (t.standing, t.tally, t.quiet, t.minutes)
  | t :: ts =>
    let (st, tally, quiet, minutes) := inherit ts
    (if st.rank ≤ t.standing.rank then t.standing else st, max t.tally tally, min t.quiet quiet,
      max t.minutes minutes)

/-- The stations at a list of indexes. -/
def State.stationsAt (s : State) (is : List Nat) : List Station := is.filterMap s.station

/-- The purge by source entry of each index that is not QUARANTINED (R65). -/
def purgeGood (is : List Nat) (s : State) : State :=
  is.foldl (fun s i => if s.quarantined i then s else purgeSource i s) s

/-- The keys a QUARANTINED entry holds. -/
def State.quarantinedKey (s : State) (k : Key) : Bool :=
  s.dir.any fun e => e.2.holds k && s.quarantined e.1

/-- The written entry enters QUARANTINED: an entry whose keys it now holds was not QUARANTINED. The former
self is one only where the edit keeps a key of it (R65). -/
def State.takeoverEnters (s : State) (ks : List Key) (removed former : List Nat) : Bool :=
  (s.stationsAt (removed ++ former.filter fun i => (s.keysAt i).any ks.contains)).any fun t =>
    t.standing ≠ .quarantined

/-- Write a SET-STATION that has passed its tests up to CONFLICT: the index it takes, the news of its
entry into QUARANTINED, whose minutes are inherited, and the state (R64 to R66, R153). None where no index
can be had. -/
def writeStation (e : StationEdit) (home : Option Port) (s : State) :
    Option (Nat × List QuarantineNews × State) :=
  let target := editIndex e.index
  let ks := givenKeys e.trunk e.office
  let removed := s.takenOver ks target
  let former := target.toList.filter fun i => (s.station i).isSome
  let (standing, tally, quiet, minutes) := inherit (s.stationsAt (removed ++ former))
  let enters := decide (standing = .quarantined) && s.takeoverEnters ks removed former
  let fresh := ks.filter fun k => !(s.quarantinedKey k)
  let s := if enters then purgeGood removed s else s
  match takeIndex target (removeAll .takenOver removed s) with
  | none => none
  | some (i, s) =>
    let t : Station := ⟨home, e.pinned, e.manager, e.print, standing, tally, quiet, minutes⟩
    let s := putEntry i ⟨.static, editNode e.trunk, editAddress e.office, .station t⟩ s
    if enters then some (i, [⟨ks, some .quarantineTakeover⟩], purgeSource i s)
    else some (i, if standing = .quarantined then [⟨fresh, none⟩] else [], s)

/-- The kind of entry at an index is one an edit does not apply to. -/
def State.isPrinterAt (s : State) (i : Option Nat) : Bool :=
  match i.bind s.dir.find with
  | some ⟨_, _, _, .printer _ _⟩ => true
  | _ => false

def State.isStationAt (s : State) (i : Option Nat) : Bool :=
  match i.bind s.dir.find with
  | some ⟨_, _, _, .station _⟩ => true
  | _ => false

/-- The index taken is reported for "any free" only (R63). -/
def tookIndex (index : Byte) (i : Nat) : Option Nat := if index = 0xFF then some i else none

/-- SET-STATION (R63, R64). -/
def editStation (e : StationEdit) (s : State) : Edited :=
  let ks := givenKeys e.trunk e.office
  if e.index = 0 then .ignored
  else if ks = [] ∨ (e.pinned ∧ e.home = 0xFF) then .refused .malformed
  else if keysInRange ks = false then .refused .range
  else
    match editHome e.home with
    | none => .refused .range
    | some home =>
      if home.any (fun p => !homeAllowed ks p) then .refused .range
      else if s.isPrinterAt (editIndex e.index) ∨ s.keyConflict ks (editIndex e.index) then
        .refused .conflict
      else
        match writeStation e home s with
        | none => .refused .full
        | some (i, news, s) => .applied (tookIndex e.index i) news s

/-- A live job names the entry at an index (R62). -/
def State.hasJob (s : State) (i : Nat) : Bool := s.jobs.any fun e => e.2.aliasIndex = i

/-- A live job keeps an entry of kind PRINTER from a change of its keys or its target (R62, R67). -/
def State.protects (s : State) (i : Option Nat) (n : Option Node) (a : Option Address) (t : Target) :
    Bool :=
  match i with
  | none => false
  | some i =>
    match s.dir.find i with
    | some ⟨_, n', a', .printer t' _⟩ =>
      s.hasJob i && !(decide (n' = n) && decide (a' = a) && decide (t' = t))
    | _ => false

/-- SET-ALIAS (R63, R67). -/
def editAlias (e : AliasEdit) (s : State) : Edited :=
  let ks := givenKeys e.trunk e.office
  let target := editIndex e.index
  if e.index = 0 then .ignored
  else if ks = [] then .refused .malformed
  else if keysInRange ks = false then .refused .range
  else
    match Target.ofCode e.target, levelOf e.level with
    | some t, some l =>
      if s.isStationAt target ∨ s.keyConflict ks target ∨
          s.protects target (editNode e.trunk) (editAddress e.office) t then .refused .conflict
      else
        match takeIndex target (removeAll .takenOver (s.takenOver ks target) s) with
        | none => .refused .full
        | some (i, s) =>
          .applied (tookIndex e.index i) []
            (putEntry i ⟨.static, editNode e.trunk, editAddress e.office, .printer t l⟩ s)
    | _, _ => .refused .range

/-- An edit of the station at an index: NOT-FOUND at a free one, CONFLICT at an alias (R68, R69). -/
def editStationAt (index : Byte) (f : State → List QuarantineNews × State) (s : State) : Edited :=
  if index = 0 then .ignored
  else
    match s.dir.find index.toNat with
    | none => .refused .notFound
    | some ⟨_, _, _, .station _⟩ =>
      let (news, s) := f s
      .applied none news s
    | some _ => .refused .conflict

/-- DELETE (R68). -/
def editDelete (index : Byte) (s : State) : Edited :=
  if index = 0 then .ignored
  else
    match s.dir.find index.toNat with
    | none => .refused .notFound
    | some _ =>
      if s.isPrinterAt (some index.toNat) ∧ s.hasJob index.toNat then .refused .conflict
      else .applied none [] (removeEntry index.toNat s)

/-- One edit, judged and applied (R63). -/
def Edit.run (e : Edit) (s : State) : Edited :=
  match e with
  | .setStation e => editStation e s
  | .setAlias e => editAlias e s
  | .delete i => editDelete i s
  | .setRights i m p =>
    editStationAt i (fun s =>
      ([], modStation i.toNat (fun t => { t with manager := m, print := p }) s)) s
  | .release i =>
    editStationAt i (fun s =>
      ([], modStation i.toNat (fun t => { t with standing := .good, tally := 0, minutes := 0 }) s)) s
  | .quarantine i =>
    editStationAt i (fun s =>
      let (news, s) := quarantineStation i.toNat .quarantineEdit s
      ([news], s)) s

/-- What a batch came to. -/
inductive Batch where
  | refused (st : Status) (position : Nat)
  | applied (edits ignored : Nat) (took : List Nat) (s : State)

/-- The news of the quarantines of a batch is taken, in the order of the edits. -/
def takeNews : List QuarantineNews → State → State
  | [], s => s
  | n :: ns, s => takeNews ns (n.take s)

/-- A batch of edits, applied in order on what those before have left: all of them or none (R63). The news
of its quarantines is taken when every edit has passed, so no job an edit is judged against has ended
within the batch (R69, log entry 43). -/
def runBatch : List Edit → (position applied ignored : Nat) → List Nat → List QuarantineNews → State → Batch
  | [], _, applied, ignored, took, news, s => .applied applied ignored took (takeNews news s)
  | e :: es, position, applied, ignored, took, news, s =>
    match e.run s with
    | .refused st => .refused st position
    | .ignored => runBatch es (position + 1) applied (ignored + 1) took news s
    | .applied i ns s =>
      runBatch es (position + 1) (applied + 1) ignored (took ++ i.toList) (news ++ ns) s

/-- One edit taken as a batch of one: the state after it, or unchanged where it is refused or ignored. It
acts while a save is in flight and while the image loads too (log entry 2). -/
def takeEdit (e : Edit) (s : State) : State :=
  match e.run s with
  | .applied _ news s => takeNews news s
  | _ => s

/-! ### The commands -/

/-- AGING (R60). -/
def execAging (s : State) : Host.Outcome State Fault Refusal := .next (whenActive ageSecond s)

/-- ARRIVAL_TIMEOUT (R109). -/
def execArrivalTimeout (s : State) : Host.Outcome State Fault Refusal :=
  .next (whenActive arrivalSecond s)

/-- SET_STATION (R64). -/
def execSetStation (e : StationEdit) (s : State) : Host.Outcome State Fault Refusal :=
  .next (whenActive (takeEdit (.setStation e)) s)

/-- SET_ALIAS (R67). -/
def execSetAlias (e : AliasEdit) (s : State) : Host.Outcome State Fault Refusal :=
  .next (whenActive (takeEdit (.setAlias e)) s)

/-- DELETE (R68). -/
def execDelete (index : Byte) (s : State) : Host.Outcome State Fault Refusal :=
  .next (whenActive (takeEdit (.delete index)) s)

/-- SET_RIGHTS (R68). -/
def execSetRights (index : Byte) (manager print : Bool) (s : State) :
    Host.Outcome State Fault Refusal :=
  .next (whenActive (takeEdit (.setRights index manager print)) s)

/-- RELEASE (R69). -/
def execRelease (index : Byte) (s : State) : Host.Outcome State Fault Refusal :=
  .next (whenActive (takeEdit (.release index)) s)

/-- QUARANTINE (R69). -/
def execQuarantine (index : Byte) (s : State) : Host.Outcome State Fault Refusal :=
  .next (whenActive (takeEdit (.quarantine index)) s)

end Sys2Proof.Machine
end

