-- ==== Sys2Proof/Machine/Forwarding.lean ====
section
/-! DEFINITION. The forwarding engine: TAKE_FRAME, the ingress checks, dispatch, translation, the
unknown-destination log, and request intake (05_forwarding_and_translation.md, R186). -/

namespace Sys2Proof.Machine

/-- Count at the ingress port (R98). -/
def countAt (p : Port) (c : ForwardCount) (s : State) : State := bump (.forward p c) s

/-! ### Request intake (R186) -/

/-- The source entry is a STATION with the MANAGER right whose standing is not QUARANTINED. -/
def State.isManager (s : State) : SourceEntry → Bool
  | .index i =>
    match s.station i with
    | some t => t.manager && t.standing ≠ .quarantined
    | none => false
  | _ => false

/-- A MGMT-REQ handed to the management block (R186). -/
def intake (p : Port) (k : Key) (source : SourceEntry) (payload : List Byte) (s : State) : State :=
  if (s.service.get p).accept = false then bump (.mgmt .refusedNoAccept) s
  else if s.isManager source = false ∧ (s.commission = false ∨ p.side = .trunk) then
    bump (.mgmt .refusedNoRight) s
  else if Config.requestPlaces ≤ s.requests.length then bump (.mgmt .refusedQueueFull) s
  else bump (.mgmt .requestsAccepted) { s with requests := s.requests ++ [⟨p, k, payload⟩] }

/-! ### Copies (R91 to R95) -/

/-- What a frame's copies are made from: ingress port, header, record, source entry, and the
destination's key on the other side, where a translated copy has one. -/
structure Dispatch where
  ingress : Port
  header : Header
  record : Nat
  source : SourceEntry
  farDest : Option Key
deriving DecidableEq, Repr

/-- The key the source entry holds on a side (R94). -/
def State.sourceKey (s : State) (src : SourceEntry) (side : Side) : Option Key :=
  match src with
  | .index i => (s.dir.find i).bind fun e => e.keyOn side
  | _ => none

/-- An OBJECT or a DEFEND: its copies stay on the trunk (R91). -/
def trunkOnly (kind : Byte) : Bool := kind = kindObject || kind = kindDefend

/-- One copy to a port: unchanged to a port of the ingress side, translated to one of the other side; not
made where a key is absent or the kind stays on the trunk (R91, R94, R95). -/
def copyTo (d : Dispatch) (q : Port) (s : State) : State :=
  if q.side = d.ingress.side then (offer q ⟨d.header, d.record, some d.ingress, d.source⟩ s).2
  else if trunkOnly d.header.kind then countAt d.ingress .trunkOnlyToPair s
  else
    match d.farDest, s.sourceKey d.source q.side with
    | some dest, some src =>
      (offer q ⟨{ d.header with dest := dest, src := src }, d.record, some d.ingress, d.source⟩ s).2
    | _, _ => countAt d.ingress .untranslatable s

/-- Copies to a list of ports, in order. -/
def copies (d : Dispatch) : List Port → State → State
  | [], s => s
  | q :: qs, s => copies d qs (copyTo d q s)

/-- The ports of the other side. -/
def Side.other : Side → Side
  | .trunk => .pair
  | .pair => .trunk

/-- The ports a broadcast goes to: the others of the ingress side, and those of the other side; a link
only while its broadcast-forward is on (R91 to R93). -/
def State.broadcastPorts (s : State) (p : Port) : List Port :=
  ((p.side.ports ++ p.side.other.ports).filter (· ≠ p)).filter fun q =>
    q.side = .trunk || (s.service.get q).bcast

/-- The ports a flood to an UNKNOWN home goes to (R91, R92). -/
def floodPorts (p : Port) : List Port := (p.side.ports ++ p.side.other.ports).filter (· ≠ p)

/-- The ports a frame with no entry for its destination goes to: the others of the ingress side. -/
def sidePorts (p : Port) : List Port := p.side.ports.filter (· ≠ p)

/-! ### The unknown-destination log (R96) -/

/-- Write to the unknown-destination log. -/
def logUnknown (p : Port) (k : Key) (s : State) : State :=
  let s := countAt p .unknownDest s
  if s.unknownLog.any fun u => u.dest = k then
    { s with unknownLog := s.unknownLog.map fun u =>
        if u.dest = k then { u with last := p, hits := min 255 (u.hits + 1) } else u }
  else
    let full := decide (Config.unknownRecords ≤ s.unknownLog.length)
    let empty := s.unknownLog.isEmpty
    let kept := if full then s.unknownLog.tail else s.unknownLog
    let s := { s with unknownLog := kept ++ [⟨k, p, 1⟩] }
    let s := if full then bump (.forwardPart .unknownLogOverwritten) s else s
    if empty then raise .unknownDest s else s

/-! ### Dispatch (R87 to R92) -/

/-- Answer an ECHO-REQ for the bridge (R89). -/
def answerEcho (p : Port) (h : Header) (payload : List Byte) (s : State) : State :=
  if 64 < payload.length then bump (.forwardPart .echoMalformed) s
  else
    match sendOwn p h.src kindEchoRep payload s with
    | (.noRecord, s) => bump (.forwardPart .echoRepLost) s
    | (.refused, s) => s
    | (.joined, s) => countAt p .echoAnswered s

/-- A frame for the bridge (R88). -/
def toBridge (p : Port) (h : Header) (source : SourceEntry) (payload : List Byte) (s : State) : State :=
  if h.kind = kindMgmtReq then intake p h.src source payload (countAt p .handedManagement s)
  else if h.kind = kindEchoReq then answerEcho p h payload s
  else if h.kind = kindEchoRep then echoReply h.src payload (countAt p .handedSweep s)
  else countAt p .toBridgeDiscarded s

/-- A frame to a broadcast (R91, R92). -/
def toBroadcast (p : Port) (h : Header) (rid : Nat) (source : SourceEntry) (s : State) : State :=
  copies ⟨p, h, rid, source, some p.side.other.broadcastKey⟩ (s.broadcastPorts p) s

/-- A frame to a STATION (R91, R92). -/
def toStation (p : Port) (h : Header) (rid : Nat) (source : SourceEntry) (e : Entry) (t : Station)
    (s : State) : State :=
  if t.home = some p then countAt p .filtered s
  else if t.standing = .quarantined then countAt p .destQuarantined s
  else
    let d : Dispatch := ⟨p, h, rid, source, e.keyOn p.side.other⟩
    match t.home with
    | some q => copyTo d q s
    | none => copies d (floodPorts p) s

/-- A frame with no entry for its destination: the others of its side, and the log (R91, R92, R96). -/
def toUnknown (p : Port) (h : Header) (rid : Nat) (source : SourceEntry) (s : State) : State :=
  logUnknown p h.dest (copies ⟨p, h, rid, source, none⟩ (sidePorts p) s)

/-- A frame addressed to an entry of kind PRINTER (R90). -/
def toPrinter (p : Port) (h : Header) (source : SourceEntry) (i : Nat) (t : Target) (l : Fin 4)
    (payload : List Byte) (s : State) : State :=
  if h.kind = kindPrint then
    printFrame ⟨i, t, l, h.src, source⟩ payload (countAt p .handedSpool s)
  else countAt p .aliasNotPrint s

/-- A kind that is not carried to a station, a broadcast or an unknown key (R90). -/
def misdirected (kind : Byte) : Bool := kind = kindPrint || kind = kindMgmtReq

/-- Dispatch by the destination (R87). -/
def dispatch (p : Port) (h : Header) (rid : Nat) (source : SourceEntry) (payload : List Byte)
    (s : State) : State :=
  match h.dest.class with
  | .invalid => countAt p .badDestination s
  | .reserved => countAt p .reservedDestination s
  | .bridge => toBridge p h source payload s
  | .broadcast =>
    if misdirected h.kind then countAt p .misdirectedKind s else toBroadcast p h rid source s
  | .station =>
    match s.lookup h.dest with
    | none => if misdirected h.kind then countAt p .misdirectedKind s else toUnknown p h rid source s
    | some (i, e) =>
      match e.kind with
      | .printer t l => toPrinter p h source i t l payload s
      | .station t =>
        if misdirected h.kind then countAt p .misdirectedKind s else toStation p h rid source e t s
      | .bridge => s

/-! ### The ingress checks (R80 to R86) -/

/-- A kind the part knows: traffic kinds 00h to 7Fh and the defined values above (R82). -/
def knownKind (kind : Byte) : Bool :=
  decide (kind.toNat < 0x80) ||
    [kindPrint, kindPrintStatus, kindClaim, kindObject, kindDefend, kindEchoReq, kindEchoRep,
      kindMgmtReq, kindMgmtReply, kindNotice, kindTest].contains kind

/-- CLAIM, OBJECT and DEFEND are trunk kinds (R82). -/
def trunkKind (kind : Byte) : Bool := kind = kindClaim || trunkOnly kind

/-- Kinds only the bridge makes (R82). -/
def bridgeKind (kind : Byte) : Bool :=
  kind = kindPrintStatus || kind = kindMgmtReply || kind = kindNotice

/-- The checks from the source on, and dispatch (R84 to R86). -/
def fromSource (p : Port) (h : Header) (rid : Nat) (payload : List Byte) (s : State) : State :=
  if h.src.isStation = false then countAt p .badSource s
  else
    let barred := match s.lookup h.src with
      | some (i, _) => s.quarantined i
      | none => false
    if barred then
      if h.kind = kindEchoRep ∧ h.dest = p.side.bridgeKey then
        echoReply h.src payload (countAt p .handedSweep s)
      else countAt p .quarantinedDrop s
    else
      match learn h.src p (h.kind ≠ kindObject) s with
      | (.accept source, s) => dispatch p h rid source payload s
      | (_, s) => s

/-- A CLAIM taken on a segment (R83). -/
def claim (x : Seg) (h : Header) (rid : Nat) (s : State) : State :=
  let p := Port.seg x
  if h.length ≠ 0 then countAt p .malformedClaim s
  else
    match h.src with
    | .node n => claimDefence x n h rid (countAt p .handedClaim s)
    | .address _ => s

/-- Everything done for one frame but the release of its reference (R80 to R86). -/
def judgeFrame (p : Port) (h : Header) (rid : Nat) (s : State) : State :=
  let payload := s.payload rid
  if h.kind = kindTest then
    if (s.testOf p).isSome then testFrameHanded p payload (countAt p .testHanded s)
    else countAt p .testDiscarded s
  else if s.serviceOf p ≠ .inService then countAt p .notInService s
  else if knownKind h.kind = false then countAt p .unknownKind s
  else if bridgeKind h.kind then countAt p .misdirectedKind s
  else
    match p with
    | .link _ =>
      if trunkKind h.kind then countAt p .trunkOnlyOnLink s else fromSource p h rid payload s
    | .seg x => if h.kind = kindClaim then claim x h rid s else fromSource p h rid payload s

/-- Take the oldest frame of a port's hand-over list (R79), and release its reference. What the frame's
hand-off makes (a status, the next TEST frame, the next ECHO) asks for its record before the release: the
model's choice (R38, log entry 60). -/
def takeFrame (p : Port) (s : State) : State :=
  match s.handover.get p with
  | [] => s
  | ⟨h, rid⟩ :: rest =>
    releaseRef rid (judgeFrame p h rid { s with handover := s.handover.set p rest })

/-- TAKE_FRAME (R79): the COMMISSION strap is sampled with it (R186, log entry 7). -/
def execTakeFrame (p : Port) (commission : Bool) (s : State) : Host.Outcome State Fault Refusal :=
  .next (whenActive (fun s => settleSweep (takeFrame p s)) { s with commission := commission })

end Sys2Proof.Machine
end

