-- ==== Sys2Proof/Machine/Image.lean ====
section
/-! DEFINITION. The configuration parameters by code (R189) and the start image: its layout, its check
word, its snapshot and its load (R78, R185, R194, R195, R203). -/

namespace Sys2Proof.Machine

/-! ### Configuration by code (R189, R200) -/

/-- A value lies in a range. -/
def within (lo hi v : Nat) : Bool := decide (lo ≤ v) && decide (v ≤ hi)

/-- The range of a parameter with one plain value (R189); the queue quota (9) too. The yes/no one (2) is 0 for no
and 1 for yes, and any other value is out of its range: the model's choice (log entry 70). -/
def paramInRange (code v : Nat) : Bool :=
  match code with
  | 1 => within 0 0xFEF2 v
  | 2 => within 0 1 v
  | 3 => within 0 255 v
  | 4 => within 0 600 v
  | 5 => within 0 896 v
  | 6 => within 0 896 v
  | 7 => within 32 256 v
  | 8 => within 1 1023 v
  | 9 => within 16 512 v
  | 10 => within 1 255 v
  | 11 => within 1 1000 v
  | 12 => within 1 255 v
  | 13 => within 0 255 v
  | 14 => within 10 600 v
  | 15 => within 1 65535 v
  | 16 => within 1 65535 v
  | 17 => within 1 255 v
  | 18 => within 1 255 v
  | 19 => within 1 255 v
  | 20 => within 0 255 v
  | 21 => within 10 2000 v
  | _ => false

/-- Put a plain parameter in force. -/
def Settings.put (c : Settings) (code v : Nat) : Settings :=
  match code with
  | 1 => { c with officeBase := v }
  | 2 => { c with learnedMayPrint := decide (v = 1) }
  | 3 => { c with ageLimit := v }
  | 4 => { c with claimGuard := v }
  | 5 => { c with spoolLimit := v }
  | 6 => { c with nearFullMargin := v }
  | 7 => { c with reserve := v }
  | 8 => { c with poolLow := v }
  | 10 => { c with arrivalTimeout := v }
  | 11 => { c with ackTimeout := v }
  | 12 => { c with busyLimit := v }
  | 13 => { c with stallRetry := v }
  | 14 => { c with windowLength := v }
  | 15 => { c with segThreshold := v }
  | 16 => { c with linkThreshold := v }
  | 17 => { c with flapLimit := v }
  | 18 => { c with suspectThreshold := v }
  | 19 => { c with quarantineThreshold := v }
  | 20 => { c with quarantineTime := v }
  | 21 => { c with echoTimeout := v }
  | _ => c

/-- A plain parameter's value. -/
def Settings.param (c : Settings) (code : Nat) : Nat :=
  match code with
  | 1 => c.officeBase
  | 2 => if c.learnedMayPrint then 1 else 0
  | 3 => c.ageLimit
  | 4 => c.claimGuard
  | 5 => c.spoolLimit
  | 6 => c.nearFullMargin
  | 7 => c.reserve
  | 8 => c.poolLow
  | 10 => c.arrivalTimeout
  | 11 => c.ackTimeout
  | 12 => c.busyLimit
  | 13 => c.stallRetry
  | 14 => c.windowLength
  | 15 => c.segThreshold
  | 16 => c.linkThreshold
  | 17 => c.flapLimit
  | 18 => c.suspectThreshold
  | 19 => c.quarantineThreshold
  | 20 => c.quarantineTime
  | 21 => c.echoTimeout
  | _ => 0

/-- The notice destination a side code and a value give: none where they are out of range. Side 0 is
absent, whatever the value (log entry 33). -/
def noticeOf (side : Byte) (v : Nat) : Option (Option Key) :=
  if side = 0 then some none
  else if side = 1 then if within 1 253 v then some (some (Side.trunk.key v)) else none
  else if side = 2 then if within 1 0xFFEF v then some (some (Side.pair.key v)) else none
  else none

/-- The notice destination as its side code and value (R200). An absent one has side 0; the value 0 beside it
is the model's choice (log entry 66). -/
def noticeBytes (side : Side) (k : Option Key) : List Byte :=
  match k with
  | none => [0] ++ side.word 0
  | some k => [k.side.code] ++ side.word k.value

/-- Every parameter in code order: the reply to READ-CONFIG, and the image's configuration (R200). -/
def configBytes (side : Side) (c : Settings) : List Byte :=
  ([1, 2, 3, 4, 5, 6, 7, 8].flatMap fun k => side.word (c.param k)) ++
    (Port.all.flatMap fun p => side.word (c.quota.get p)) ++
    ([10, 11, 12, 13, 14, 15, 16, 17, 18, 19, 20, 21].flatMap fun k => side.word (c.param k)) ++
    noticeBytes side c.notice

/-! ### The snapshot (R195, R203) -/

/-- Zeros to fill a field. -/
def zeros (n : Nat) : List Byte := List.replicate n 0

/-- The static entry an image holds: an entry in record form with its fault state zero. -/
def Entry.saved (e : Entry) : Entry :=
  match e.kind with
  | .station t =>
    { e with kind := .station { t with standing := .good, tally := 0, quiet := 0, minutes := 0 } }
  | _ => e

/-- The entries a save holds: the STATIC ones but the bridge (R195). -/
def State.savedEntries (s : State) : List (Nat × Entry) :=
  s.dir.filter fun e => e.2.origin = .static && e.1 ≠ 0

/-- A port's settings byte (R201). -/
def State.portByte (s : State) (p : Port) : Byte :=
  let v := s.service.get p
  portSettings p (v.state ≠ .off) v.bcast v.accept

/-- A line's two settings bytes (R203). -/
def LineState.savedBytes (t : LineState) : List Byte :=
  [yesNo t.enabled + 2 * yesNo t.rotating, t.holdMask.zeroExtend 8]

/-- The records of a list of steps, numbered from `k`. -/
def stepRecords (side : Side) : Nat → List SweepStep → List Byte
  | _, [] => []
  | k, t :: ts => stepRecord side k t ++ stepRecords side (k + 1) ts

/-- The bytes the check word covers: those of a snapshot from offset 0002h on (R203). -/
def State.imageBody (s : State) : List Byte :=
  let side := Side.trunk
  let es := s.savedEntries
  let config := configBytes side s.config
  let steps := stepRecords side 1 s.sweep.steps
  side.word es.length ++ (config ++ zeros (64 - config.length)) ++ Port.all.map s.portByte ++
    s.lines.lp1.savedBytes ++ s.lines.lp2.savedBytes ++ side.word s.mask.toNat ++
    [yesNo s.sweep.enabled, byteOf s.sweep.steps.length] ++ side.word s.sweep.interval ++
    (steps ++ zeros (320 - steps.length)) ++
    es.flatMap fun e => entryRecord side e.1 e.2.saved

/-- A snapshot: the check word and the bytes it covers. -/
def State.image (s : State) : List Byte :=
  Side.trunk.word (crc16 s.imageBody).toNat ++ s.imageBody

/-! ### Reading an image (R194, R203) -/

/-- The image a memory holds: its bytes where the check word matches, none where it does not (R203). -/
def readImage (m : List Host.Cell) : Option (List Byte) :=
  let n := wordAt .trunk (Memory.slice m 0 4) 2
  if 255 < n then none
  else
    let bytes := Memory.slice m 0 (0x194 + 16 * n)
    if wordAt .trunk bytes 0 = (crc16 (bytes.drop 2)).toNat then some bytes else none

/-- A part of an image as loaded, and whether something in it was replaced or skipped. -/
abbrev Loaded (α : Type) := α × Bool

/-- Load a list of plain parameters from consecutive words: one out of range keeps its default. -/
def loadParams (bs : List Byte) : List (Nat × Nat) → Loaded Settings → Loaded Settings
  | [], c => c
  | (code, offset) :: rest, (c, bad) =>
    let v := wordAt .trunk bs offset
    loadParams bs rest (if paramInRange code v then (c.put code v, bad) else (c, true))

/-- Load the queue quotas. -/
def loadQuotas (bs : List Byte) : List (Port × Nat) → Loaded Settings → Loaded Settings
  | [], c => c
  | (p, offset) :: rest, (c, bad) =>
    let v := wordAt .trunk bs offset
    loadQuotas bs rest
      (if paramInRange 9 v then ({ c with quota := c.quota.set p v }, bad) else (c, true))

/-- The configuration of an image's 64 bytes; a non-zero reserved byte is a value out of range with no
parameter to replace (R203, log entry 24). -/
def loadConfig (bs : List Byte) : Loaded Settings :=
  let c : Loaded Settings := (.default, false)
  let c := loadParams bs ([1, 2, 3, 4, 5, 6, 7, 8].map fun k => (k, 2 * (k - 1))) c
  let c := loadQuotas bs
    [(.seg .a, 16), (.seg .b, 18), (.link .l0, 20), (.link .l1, 22), (.link .l2, 24), (.link .l3, 26)] c
  let (c, bad) := loadParams bs
    ([10, 11, 12, 13, 14, 15, 16, 17, 18, 19, 20, 21].map fun k => (k, 28 + 2 * (k - 10))) c
  let bad := bad || (bs.drop 55).any (· ≠ 0)
  match noticeOf (byteAt bs 52) (wordAt .trunk bs 53) with
  | some k => ({ c with notice := k }, bad)
  | none => (c, true)

/-- A port's three settings: on, broadcast-forward, management-accept. -/
structure PortSetting where
  on : Bool
  bcast : Bool
  accept : Bool
deriving DecidableEq, Repr

/-- The defaults of a port's settings (R174). A segment's broadcast-forward is held off. -/
def PortSetting.default (p : Port) : PortSetting := ⟨true, p.side = .pair, p.side = .pair⟩

/-- A port's settings byte read: a bit it has not makes it the default (R194). That all three settings of the
port are replaced together is the model's choice (log entry 65). -/
def loadPort (p : Port) (b : Byte) : Loaded PortSetting :=
  let t : PortSetting := ⟨b.getLsbD 0, b.getLsbD 1, b.getLsbD 2⟩
  if portSettings p t.on t.bcast t.accept = b then (t, false) else (.default p, true)

/-- A line's settings: enabled, ROTATING, hold mask. -/
structure LineSetting where
  enabled : Bool
  rotating : Bool
  holdMask : BitVec 4
deriving DecidableEq, Repr

/-- The settings of a line without an image (R144). -/
def LineSetting.default : LineSetting := ⟨true, false, 0⟩

/-- A line's two settings bytes read: a bit they have not makes them the default (R194). That the enable
setting, the mode and the hold mask are replaced together, whichever byte has the bit, is the model's choice
(log entry 65). -/
def loadLine (b m : Byte) : Loaded LineSetting :=
  if b.toNat < 4 ∧ m.toNat < 16 then (⟨b.getLsbD 0, b.getLsbD 1, m.truncate 4⟩, false)
  else (.default, true)

/-- The target of a step from its kind code and its value: none where the value is out of range. -/
def stepTarget (kind : Byte) (v : Nat) : Option StepTarget :=
  if kind = 1 then if within 1 253 v then some (.station (Side.trunk.key v)) else none
  else if kind = 2 then if within 1 0xFFEF v then some (.station (Side.pair.key v)) else none
  else if kind = 3 then if v < 256 then (Port.ofCode (byteOf v)).map .port else none
  else if kind = 4 then if v < 256 then (Line.ofCode (byteOf v)).map .line else none
  else none

/-- A step's probe and fail action fit its target kind (R175). -/
def stepFits (kind : Byte) (probe : ProbeKind) (action : FailAction) : Bool :=
  if kind = 1 ∨ kind = 2 then probe = .echo
  else if kind = 3 then
    (probe = .loopInternal || probe = .loopExternal) &&
      (action = .note || action = .isolatePort || action = .halt)
  else if kind = 4 then probe = .lineStatus && (action = .note || action = .halt)
  else false

/-- A step record of an image: none where it is skipped (R194). Its number, result and fails are not
loaded (R185, log entry 24). A target value or a fail limit out of range skips it as a misfit does, the model's
choice (log entry 24). -/
def loadStep (r : List Byte) : Option SweepStep :=
  match ProbeKind.ofCode (byteAt r 4), FailAction.ofCode (byteAt r 6),
      stepTarget (byteAt r 1) (wordAt .trunk r 2) with
  | some probe, some action, some target =>
    if stepFits (byteAt r 1) probe action ∧ within 1 15 (byteAt r 5).toNat ∧ byteAt r 9 = 0 then
      some ⟨target, probe, (byteAt r 5).toNat, action, .notRun, 0⟩
    else none
  | _, _, _ => none

/-- The `n` steps of an image. The places after them are not read (R203, log entry 24). -/
def loadSteps (bs : List Byte) (n : Nat) : Loaded (List SweepStep) :=
  let read := (List.range n).map fun k => loadStep ((bs.drop (10 * k)).take 10)
  (read.filterMap id, read.any Option.isNone)

/-- A static entry record of an image: none where a key or a value is out of range, or a reserved byte is
not zero (R78, R203). A byte that the image leaves zero (standing, tally, quiet seconds, minutes) or that
the other kind uses counts as such a reserved byte: the model's choice (log entry 24). So is that an index
of 0, the origin LEARNED, the kind BRIDGE, a record with no key and a pinned one with home UNKNOWN count as
values out of range (log entry 64). -/
def loadEntry (r : List Byte) : Option (Nat × Entry) :=
  let n : Node := byteAt r 3
  let a : Address := BitVec.ofNat 16 (wordAt .trunk r 4)
  let ks := givenKeys n a
  let b := byteAt r 7
  if byteAt r 0 = 0 ∨ byteAt r 2 ≠ 2 ∨ ks = [] ∨ keysInRange ks = false ∨ (r.drop 10).any (· ≠ 0) then
    none
  else if byteAt r 1 = 1 then
    match editHome (byteAt r 6) with
    | some home =>
      if home.any (fun p => !homeAllowed ks p) ∨ 8 ≤ b.toNat ∨ (b.getLsbD 0 ∧ home = none) ∨
          byteAt r 8 ≠ 0 ∨ byteAt r 9 ≠ 0 then none
      else
        some ((byteAt r 0).toNat, ⟨.static, editNode n, editAddress a,
          .station ⟨home, b.getLsbD 0, b.getLsbD 1, b.getLsbD 2, .good, 0, 0, 0⟩⟩)
    | none => none
  else if byteAt r 1 = 2 ∧ byteAt r 6 = 0 ∧ b = 0 then
    match Target.ofCode (byteAt r 8), levelOf (byteAt r 9) with
    | some t, some l =>
      some ((byteAt r 0).toNat, ⟨.static, editNode n, editAddress a, .printer t l⟩)
    | _, _ => none
  else none

/-- Put an entry into a list in index order, before an entry of the same index. -/
def insertByIndex (e : Nat × Entry) : List (Nat × Entry) → List (Nat × Entry)
  | [] => [e]
  | d :: ds => if e.1 ≤ d.1 then e :: d :: ds else d :: insertByIndex e ds

/-- The entries of a list in index order; those of one index stay in the order they have (R78). -/
def inIndexOrder : List (Nat × Entry) → List (Nat × Entry)
  | [] => []
  | e :: es => insertByIndex e (inIndexOrder es)

/-- Load entries in order, skipping one with a key that is held already (R78), or whose index is (log
entry 44). -/
def loadEntries : List (Nat × Entry) → Loaded State → Loaded State
  | [], s => s
  | (i, e) :: rest, (s, bad) =>
    if (s.dir.find i).isSome ∨ e.keys.any (fun k => !s.unheld k) then loadEntries rest (s, true)
    else loadEntries rest (putEntry i e s, bad)

/-! ### The load's end (R194) -/

/-- What a load puts in force, but for the directory's entries. -/
structure Load where
  config : Settings
  ports : Port → PortSetting
  lines : Line → LineSetting
  mask : BitVec 16
  enabled : Bool
  interval : Nat
  steps : List SweepStep

/-- The values of an absent or faulty image. -/
def Load.default : Load :=
  ⟨.default, PortSetting.default, fun _ => .default, 0xFFFF, false, 0, []⟩

/-- A line at the load's end (R144). -/
def startLine (n : Line) (t : LineSetting) (s : State) : State :=
  let s := modLine n (fun v => { v with rotating := t.rotating, holdMask := t.holdMask }) s
  if t.enabled then enableLine n s else s

/-- Put a load in force and start the blocks (R78, R144, R145, R174, R185, R194). -/
def putInForce (d : Load) (s : State) : State :=
  let s := { s with config := d.config, mask := d.mask, loading := false }
  let enabled := d.enabled && decide (d.interval ≠ 0)
  let s := modSweep (fun w => { w with
    steps := d.steps, interval := d.interval, enabled := enabled
    timer := if enabled then some d.interval else none }) s
  let s := beginWindow s
  let s := startLine .lp2 (d.lines .lp2) (startLine .lp1 (d.lines .lp1) s)
  Port.all.foldl (fun s p =>
    let t := d.ports p
    startPort p t.on t.bcast t.accept s) s

/-- The parts of an image whose check word matches, and whether something was replaced or skipped; the
directory's entries are loaded apart. -/
def loadParts (bs : List Byte) : Load × Bool :=
  let (config, bad1) := loadConfig ((bs.drop 0x04).take 64)
  let port := fun p : Port => loadPort p (byteAt bs (0x43 + p.code.toNat))
  let line := fun n : Line =>
    match n with
    | .lp1 => loadLine (byteAt bs 0x4A) (byteAt bs 0x4B)
    | .lp2 => loadLine (byteAt bs 0x4C) (byteAt bs 0x4D)
  let count := (byteAt bs 0x51).toNat
  let interval := wordAt .trunk bs 0x52
  let (steps, bad2) := if count ≤ 32 then loadSteps (bs.drop 0x54) count else ([], true)
  let bad := bad1 || bad2 || Port.all.any (fun p => (port p).2) || Line.all.any (fun n => (line n).2) ||
    decide (1 < (byteAt bs 0x50).toNat) || decide (3600 < interval)
  (⟨config, fun p => (port p).1, fun n => (line n).1, BitVec.ofNat 16 (wordAt .trunk bs 0x4E),
    decide (byteAt bs 0x50 = 1), if interval ≤ 3600 then interval else 0, steps⟩, bad)

/-- The entry records of an image. -/
def imageEntries (bs : List Byte) : List (Option (Nat × Entry)) :=
  (List.range (wordAt .trunk bs 2)).map fun k => loadEntry ((bs.drop (0x194 + 16 * k)).take 16)

/-- The load ends with the bytes of an image whose check word matches. -/
def loadImage (bs : List Byte) (s : State) : State :=
  let (d, bad1) := loadParts bs
  let read := imageEntries bs
  let (s, bad2) := loadEntries (inIndexOrder (read.filterMap id)) (s, read.any Option.isNone)
  let s := putInForce d s
  if bad1 || bad2 then raise .imageFault s else s

/-- The load ends with nothing loaded; `fault` where the memory answered (R194). -/
def loadNothing (fault : Bool) (s : State) : State :=
  let s := putInForce .default s
  if fault then raise .imageFault s else s

/-- The image the serial memory holds; what a failed save leaves never matches its check word (R195). -/
def Serial.image : Serial → Option (List Byte)
  | .bytes m => readImage m
  | .failedSave => none

/-- The load ends (R194). -/
def imageLoadEnd (r : ImageRead) (s : State) : State :=
  if s.loading then
    match r with
    | .noAcknowledge => loadNothing false s
    | .transferFailed => loadNothing true s
    | .allRead =>
      match s.serial.image with
      | some bs => loadImage bs s
      | none => loadNothing true s
  else s

/-! ### The save (R195) -/

/-- The memory after a whole image has been written over it. What a failed save left is blank beyond the
image (log entry 5). -/
def Serial.written (m : Serial) (bs : List Byte) : Serial :=
  match m with
  | .bytes m => .bytes (Memory.overwrite m bs)
  | .failedSave => .bytes (Memory.overwrite [] bs)

/-- The save completes (R195). Its result is written 1, or failed 2 with the bytes written (log
entry 12). -/
def saveComplete (r : ImageWrite) (s : State) : State :=
  match s.save with
  | none => s
  | some v =>
    let s := { s with save := none }
    match r with
    | .written =>
      sendReply v.request .done [1]
        (bump (.mgmt .savesDone) { s with serial := s.serial.written v.image })
    | .failed n =>
      sendReply v.request .done ([2] ++ v.request.side.word n)
        (raise .imageFault (bump (.mgmt .savesFailed) { s with serial := .failedSave }))

/-- A save in flight ends without a reply, leaving what a failed save leaves (R195). -/
def abandonSave (s : State) : State :=
  if s.save.isSome then { s with save := none, serial := .failedSave } else s

/-! ### The commands -/

/-- IMAGE_LOAD_END (R194). -/
def execImageLoadEnd (r : ImageRead) (s : State) : Host.Outcome State Fault Refusal :=
  .next (whenActive (imageLoadEnd r) s)

/-- SAVE_COMPLETE (R195). -/
def execSaveComplete (r : ImageWrite) (s : State) : Host.Outcome State Fault Refusal :=
  .next (whenActive (saveComplete r) s)

end Sys2Proof.Machine
end

