-- ==== Sys2Proof/Machine/Calls.lean ====
section
/-! DEFINITION. Reading a request: its code and its parameters (R187, R199, R200, R202). -/

namespace Sys2Proof.Machine

/-! ### What a request asks -/

/-- A step as LOAD-STEPS carries it (R182): its target's kind code and value, and the rest of it. -/
structure StepGiven where
  kind : Byte
  value : Nat
  probe : ProbeKind
  failLimit : Nat
  action : FailAction
deriving DecidableEq, Repr

/-- A setting as SET-CONFIG carries it (R189). -/
structure SettingGiven where
  code : Nat
  qualifier : Byte
  value : Nat
deriving DecidableEq, Repr

/-- The requests, with the parameters that fit their forms. -/
inductive Call where
  | editEntries (count : Nat) (edits : List Edit)
  | purgeLearned
  | readEntries (start count : Nat)
  | findEntry (side : Side) (value : Nat)
  | readUnknownLog
  | readJobs (start count : Nat)
  | holdJob (slot : Nat)
  | releaseJob (slot : Nat)
  | cancelJob (slot : Nat)
  | moveJob (slot : Nat) (target level : Byte)
  | flushSpool
  | setLine (line : Byte) (enable : Option Bool) (mode : Byte) (mask : Option (BitVec 4))
  | resetLine (n : Line)
  | resumeLine (line : Byte)
  | rotateLine (line level : Byte)
  | peekNext (line : Byte)
  | setPort (port : Byte) (on bcast accept : Option Bool)
  | restartPort (port : Byte)
  | restartInterface (iface : Byte)
  | readPorts
  | loadSteps (steps : List StepGiven)
  | startSweep (interval : Option Nat)
  | stopSweep
  | runStep (k : Nat)
  | readSweep
  | readEvents
  | setEventMask (mask : BitVec 16)
  | readCounters (group : Nat) (clear : Bool)
  | readConfig
  | setConfig (count : Nat) (settings : List SettingGiven)
  | saveImage
  | clearAll
deriving DecidableEq, Repr

/-- A request read, or found malformed by the first test of R187, with the position of the failing item
where it has one (log entry 11). -/
inductive Reading where
  | call (c : Call)
  | malformed (position : Option Nat)
deriving DecidableEq, Repr

/-- The read requests (R187). The others are BUSY while a save is in flight. -/
def Call.isRead : Call → Bool
  | .readEntries _ _ | .findEntry _ _ | .readJobs _ _ | .peekNext _ | .readPorts | .readSweep
  | .readConfig | .readCounters _ false => true
  | _ => false

/-! ### Fields -/

/-- A yes/no setting. R200 gives it one byte and R199 no code: 0 is no, 1 is yes, and any other byte is a
reserved value (R202), by the model's choice (log entry 70). -/
def readFlag (b : Byte) : Option Bool :=
  if b = 0 then some false else if b = 1 then some true else none

/-- A yes/no setting that may be unchanged (FFh); its other bytes are read as `readFlag` reads them (log
entry 70). -/
def readSetting (b : Byte) : Option (Option Bool) :=
  if b = 0xFF then some none else (readFlag b).map some

/-- A hold mask of four bits that may be unchanged (FFh). -/
def readMask (b : Byte) : Option (Option (BitVec 4)) :=
  if b = 0xFF then some none else if b.toNat < 16 then some (some (b.truncate 4)) else none

/-- A side code. -/
def readSide (b : Byte) : Option Side :=
  if b = 1 then some .trunk else if b = 2 then some .pair else none

/-- The items of a list of equal size, `n` of them. -/
def items (size : Nat) : Nat → List Byte → List (List Byte)
  | 0, _ => []
  | n + 1, bs => bs.take size :: items size n (bs.drop size)

/-- The position, 1 up, of the first item that does not read, or all of them read. -/
def readAll {α : Type} (f : List Byte → Option α) : Nat → List (List Byte) → List α ⊕ Nat
  | _, [] => .inl []
  | k, i :: is =>
    match f i with
    | none => .inr k
    | some a =>
      match readAll f (k + 1) is with
      | .inl as => .inl (a :: as)
      | .inr n => .inr n

/-! ### Edits (R200) -/

/-- Every byte at a list of offsets is zero. -/
def zeroAt (bs : List Byte) (offsets : List Nat) : Bool := offsets.all fun k => byteAt bs k = 0

/-- One edit of 16 bytes: its code, then bytes 0 to 14 of the entry record; none where a byte or a bit it
does not read is not zero, or its code names no edit. -/
def readEdit (side : Side) (bs : List Byte) : Option Edit :=
  let r := bs.drop 1
  let index := byteAt r 0
  let flags := byteAt r 7
  let trunk : Node := byteAt r 3
  let office : Address := BitVec.ofNat 16 (wordAt side r 4)
  match (byteAt bs 0).toNat with
  | 1 =>
    if zeroAt r [1, 2, 8, 9, 10, 11, 12, 13, 14] ∧ flags.toNat < 8 then
      some (.setStation ⟨index, trunk, office, byteAt r 6, flags.getLsbD 0, flags.getLsbD 1,
        flags.getLsbD 2⟩)
    else none
  | 2 =>
    if zeroAt r [1, 2, 6, 7, 10, 11, 12, 13, 14] then
      some (.setAlias ⟨index, trunk, office, byteAt r 8, byteAt r 9⟩)
    else none
  | 3 => if zeroAt r [1, 2, 3, 4, 5, 6, 7, 8, 9, 10, 11, 12, 13, 14] then some (.delete index) else none
  | 4 =>
    if zeroAt r [1, 2, 3, 4, 5, 6, 8, 9, 10, 11, 12, 13, 14] ∧ flags.toNat < 8 ∧
        flags.getLsbD 0 = false then
      some (.setRights index (flags.getLsbD 1) (flags.getLsbD 2))
    else none
  | 5 => if zeroAt r [1, 2, 3, 4, 5, 6, 7, 8, 9, 10, 11, 12, 13, 14] then some (.release index) else none
  | 6 =>
    if zeroAt r [1, 2, 3, 4, 5, 6, 7, 8, 9, 10, 11, 12, 13, 14] then some (.quarantine index) else none
  | _ => none

/-- EDIT-ENTRIES: a count and 16 bytes per edit. An unreadable edit gives its position in a batch of more than
16 too (log entry 11). -/
def readEdits (side : Side) (bs : List Byte) : Reading :=
  match bs with
  | [] => .malformed none
  | n :: rest =>
    if rest.length ≠ 16 * n.toNat then .malformed none
    else
      match readAll (readEdit side) 1 (items 16 n.toNat rest) with
      | .inl es => .call (.editEntries n.toNat es)
      | .inr k => .malformed (some k)

/-! ### Settings and steps (R200) -/

/-- One setting of 4 bytes: none where its code names no parameter, or a qualifier is not zero that the
parameter does not use, or a notice side is no side. -/
def readGiven (side : Side) (bs : List Byte) : Option SettingGiven :=
  let code := (byteAt bs 0).toNat
  let q := byteAt bs 1
  if within 1 22 code = false then none
  else if code ≠ 9 ∧ code ≠ 22 ∧ q ≠ 0 then none
  else if code = 22 ∧ 2 < q.toNat then none
  else some ⟨code, q, wordAt side bs 2⟩

/-- SET-CONFIG: a count and 4 bytes per setting. -/
def readSettings (side : Side) (bs : List Byte) : Reading :=
  match bs with
  | [] => .malformed none
  | n :: rest =>
    if rest.length ≠ 4 * n.toNat then .malformed none
    else
      match readAll (readGiven side) 1 (items 4 n.toNat rest) with
      | .inl es => .call (.setConfig n.toNat es)
      | .inr k => .malformed (some k)

/-- One step record of LOAD-STEPS: its number, result, fails and last byte are reserved. -/
def readStep (side : Side) (bs : List Byte) : Option StepGiven :=
  if zeroAt bs [0, 7, 8, 9] = false ∨ within 1 4 (byteAt bs 1).toNat = false then none
  else
    match ProbeKind.ofCode (byteAt bs 4), FailAction.ofCode (byteAt bs 6) with
    | some p, some a => some ⟨byteAt bs 1, wordAt side bs 2, p, (byteAt bs 5).toNat, a⟩
    | _, _ => none

/-- LOAD-STEPS: a count and 10 bytes per step. -/
def readSteps (side : Side) (bs : List Byte) : Reading :=
  match bs with
  | [] => .malformed none
  | n :: rest =>
    if rest.length ≠ 10 * n.toNat then .malformed none
    else
      match readAll (readStep side) 1 (items 10 n.toNat rest) with
      | .inl ts => .call (.loadSteps ts)
      | .inr _ => .malformed none

/-! ### Requests (R187, R199) -/

/-- A request that takes no parameters. -/
def plain (c : Call) (bs : List Byte) : Reading := if bs = [] then .call c else .malformed none

/-- A request whose one-byte parameters are read by `f`. -/
def ofOption (c : Option Call) : Reading :=
  match c with
  | some c => .call c
  | none => .malformed none

/-- Read the requests of the directory, the forwarding engine and the spool, by code. -/
def readTableCall (side : Side) (code : Nat) (bs : List Byte) : Reading :=
  match code, bs with
  | 0x10, bs => readEdits side bs
  | 0x11, bs => plain .purgeLearned bs
  | 0x12, [a, n] => .call (.readEntries a.toNat n.toNat)
  | 0x13, [sd, x, y] =>
    ofOption ((readSide sd).map fun d => .findEntry d (side.readWord x y))
  | 0x14, bs => plain .readUnknownLog bs
  | 0x20, [a, n] => .call (.readJobs a.toNat n.toNat)
  | 0x21, [k] => .call (.holdJob k.toNat)
  | 0x22, [k] => .call (.releaseJob k.toNat)
  | 0x23, [k] => .call (.cancelJob k.toNat)
  | 0x24, [k, t, l] => .call (.moveJob k.toNat t l)
  | 0x25, bs => plain .flushSpool bs
  | _, _ => .malformed none

/-- Read the requests of the lines, the ports and the sweep, by code. A line code of RESET-LINE outside its
values is a reserved value: its rule is not among those that refuse RANGE (R136, R202). -/
def readUnitCall (side : Side) (code : Nat) (bs : List Byte) : Reading :=
  match code, bs with
  | 0x30, [n, e, m, h] =>
    match readSetting e, readMask h with
    | some e, some h => .call (.setLine n e m h)
    | _, _ => .malformed none
  | 0x31, [n] => ofOption ((Line.ofCode n).map .resetLine)
  | 0x32, [n] => .call (.resumeLine n)
  | 0x33, [n, k] => .call (.rotateLine n k)
  | 0x34, [n] => .call (.peekNext n)
  | 0x40, [p, a, b, c] =>
    match readSetting a, readSetting b, readSetting c with
    | some a, some b, some c => .call (.setPort p a b c)
    | _, _, _ => .malformed none
  | 0x41, [p] => .call (.restartPort p)
  | 0x42, [i] => .call (.restartInterface i)
  | 0x43, bs => plain .readPorts bs
  | 0x50, bs => readSteps side bs
  | 0x51, [x, y] =>
    let v := side.readWord x y
    .call (.startSweep (if v = 0xFFFF then none else some v))
  | 0x52, bs => plain .stopSweep bs
  | 0x53, [k] => .call (.runStep k.toNat)
  | 0x54, bs => plain .readSweep bs
  | _, _ => .malformed none

/-- Read the requests of the management block, by code. -/
def readMgmtCall (side : Side) (code : Nat) (bs : List Byte) : Reading :=
  match code, bs with
  | 0x60, bs => plain .readEvents bs
  | 0x61, [x, y] => .call (.setEventMask (BitVec.ofNat 16 (side.readWord x y)))
  | 0x62, [g, c] => ofOption ((readFlag c).map fun c => .readCounters g.toNat c)
  | 0x63, bs => plain .readConfig bs
  | 0x64, bs => readSettings side bs
  | 0x65, bs => plain .saveImage bs
  | 0x66, bs => plain .clearAll bs
  | _, _ => .malformed none

/-- Read a request's payload: number, code, parameters (R187, R200). -/
def readRequest (q : Request) : Reading :=
  match q.payload with
  | _ :: code :: bs =>
    let c := code.toNat
    if c < 0x30 then readTableCall q.side c bs
    else if c < 0x60 then readUnitCall q.side c bs
    else readMgmtCall q.side c bs
  | _ => .malformed none

end Sys2Proof.Machine
end

