-- ==== Sys2Proof/Machine/Requests.lean ====
section
/-! DEFINITION. Carrying requests out: the taking of the request at the head of the queue, and the
commands that take one, but for READ-COUNTERS (11_management_notices_and_the_start_image.md). -/

namespace Sys2Proof.Machine

/-! ### Taking and answering (R187, R188) -/

/-- What carrying a request out comes to: the status, the results and the state after. -/
structure Carried where
  status : Status
  results : List Byte
  state : State

/-- Refused: nothing changes. -/
def Carried.refuse (st : Status) (s : State) : Carried := ⟨st, [], s⟩

/-- Refused with the position of the failing item. No rule gives a position's width, and R189 and R182 do not
say from what it counts: one byte, counted from 1 as R63 counts edits, is the model's choice (log entry 67). -/
def Carried.refuseAt (st : Status) (position : Nat) (s : State) : Carried := ⟨st, [byteOf position], s⟩

/-- DONE with no results. -/
def Carried.done (s : State) : Carried := ⟨.done, [], s⟩

/-- A request leaves the head of the queue and becomes the current request. -/
def becomeCurrent (q : Request) (rest : List Request) (s : State) : State :=
  { s with requests := rest, current := some q }

/-- The current request's work is done. -/
def endCurrent (s : State) : State := { s with current := none }

/-- Answer a request with what carrying it out came to. -/
def answerWith (q : Request) (c : Carried) : State := sendReply q c.status c.results c.state

/-- Take the request at the head of the queue where it is one that `want` takes: it is refused BUSY while a
save is in flight, unless it is a read request, and else `work` carries it out and answers it (R187). Any
other command leaves the queue as it is (log entry 2). -/
def takeCall {α : Type} (want : Call → Option α) (work : Request → α → State → State) (s : State) :
    State :=
  match s.requests with
  | [] => s
  | q :: rest =>
    match readRequest q with
    | .malformed _ => s
    | .call c =>
      match want c with
      | none => s
      | some a =>
        let s := becomeCurrent q rest s
        endCurrent
          (if s.save.isSome ∧ c.isRead = false then sendReply q .busy [] s else work q a s)

/-- Take a request and answer it with what carrying it out comes to. -/
def carry {α : Type} (want : Call → Option α) (work : Side → α → State → Carried) (s : State) : State :=
  takeCall want (fun q a s => answerWith q (work q.side a s)) s

/-- A loop the request cut off is taken by the sweep engine before the reply is made (log entry 15). -/
def Carried.settled (c : Carried) : Carried := { c with state := settleSweep c.state }

/-- MALFORMED_REQUEST_TAKEN (R187): the request at the head cannot be read as a request. A position it gives is
written as a refusal's (log entry 67). -/
def takeMalformed (s : State) : State :=
  match s.requests with
  | [] => s
  | q :: rest =>
    match readRequest q with
    | .call _ => s
    | .malformed position =>
      endCurrent (sendReply q .malformed (position.toList.map byteOf) (becomeCurrent q rest s))

/-! ### Directory and forwarding requests (R63, R71, R72, R97) -/

/-- EDIT-ENTRIES (R63). -/
def carryEdits (count : Nat) (edits : List Edit) (s : State) : Carried :=
  if count = 0 ∨ 16 < count then .refuse .malformed s
  else
    match runBatch edits 1 0 0 [] [] s with
    | .refused st k => .refuseAt st k s
    | .applied n ignored took s => ⟨.done, [byteOf n, byteOf ignored] ++ took.map byteOf, s⟩

/-- PURGE-LEARNED (R71). -/
def carryPurgeLearned (s : State) : Carried :=
  let (n, s) := purgeLearned s
  ⟨.done, [byteOf n], s⟩

/-- What a reading by numbers reports: the next number to read from, or FFFFh where nothing lies above
the last one reported, then a count and the records (R72, R115, R200, log entry 13). -/
def pageBytes {α : Type} (side : Side) (bytes : Nat × α → List Byte) (held : List (Nat × α))
    (start count : Nat) : List Byte :=
  let above := held.filter fun e => start ≤ e.1
  let page := above.take count
  let next := if count < above.length then (page.getLast?.map fun e => e.1 + 1).getD 0xFFFF else 0xFFFF
  side.word next ++ [byteOf page.length] ++ page.flatMap bytes

/-- READ-ENTRIES (R72). -/
def carryReadEntries (side : Side) (start count : Nat) (s : State) : Carried :=
  if within 1 60 count = false then .refuse .range s
  else ⟨.done, pageBytes side (fun e => entryRecord side e.1 e.2) s.dir start count, s⟩

/-- A key's value as FIND-ENTRY may name it: a station's or the bridge's (R72). -/
def findKey (d : Side) (v : Nat) : Option Key :=
  match d with
  | .trunk => if within 1 254 v then some (d.key v) else none
  | .pair => if within 1 0xFFEF v ∨ v = 0xFFFE then some (d.key v) else none

/-- FIND-ENTRY (R72). -/
def carryFindEntry (side d : Side) (v : Nat) (s : State) : Carried :=
  match findKey d v with
  | none => .refuse .range s
  | some k =>
    match s.lookup k with
    | none => .refuse .notFound s
    | some (i, e) => ⟨.done, entryRecord side i e, s⟩

/-- READ-UNKNOWN-LOG (R97). -/
def carryReadUnknownLog (side : Side) (s : State) : Carried :=
  ⟨.done, s.unknownLog.flatMap (unknownRecordBytes side), { s with unknownLog := [] }⟩

/-! ### Spool requests (R115 to R119) -/

/-- A request on the job in a slot: RANGE outside 0 to 47, NOT-FOUND at a free slot. -/
def onJob (slot : Nat) (s : State) (f : Job → Carried) : Carried :=
  if Config.jobSlots ≤ slot then .refuse .range s
  else
    match s.jobs.find slot with
    | none => .refuse .notFound s
    | some j => f j

/-- READ-JOBS (R115). -/
def carryReadJobs (side : Side) (start count : Nat) (s : State) : Carried :=
  if Config.jobSlots ≤ start ∨ within 1 16 count = false then .refuse .range s
  else
    ⟨.done, pageBytes side (fun e => jobRecord side e.1 (s.readyPlace e.2) e.2) s.jobs start count, s⟩

/-- A status and a state as an answer. -/
def Carried.ofPair (r : Status × State) : Carried := ⟨r.1, [], r.2⟩

/-- HOLD-JOB (R116). -/
def carryHoldJob (slot : Nat) (s : State) : Carried :=
  onJob slot s fun j => .ofPair (holdJob slot j s)

/-- RELEASE-JOB (R116). -/
def carryReleaseJob (slot : Nat) (s : State) : Carried :=
  onJob slot s fun j => .done (releaseJob slot j s)

/-- CANCEL-JOB (R117). -/
def carryCancelJob (slot : Nat) (s : State) : Carried :=
  onJob slot s fun _ => .done (askEnd slot .cancelledManager s)

/-- A target that may be unchanged (FFh). -/
def targetOr (t : Target) (b : Byte) : Option Target := if b = 0xFF then some t else Target.ofCode b

/-- A level that may be unchanged (FFh). -/
def levelOr (l : Fin 4) (b : Byte) : Option (Fin 4) := if b = 0xFF then some l else levelOf b

/-- MOVE-JOB (R118). A target or level outside its values is judged before the slot's job: the model's
choice (log entry 50). -/
def carryMoveJob (slot : Nat) (target level : Byte) (s : State) : Carried :=
  if (targetOr .pool target).isNone ∨ (levelOr 0 level).isNone then .refuse .range s
  else
    onJob slot s fun j =>
      match targetOr j.target target, levelOr j.level level with
      | some t, some l => .ofPair (moveJob slot j t l s)
      | _, _ => .refuse .range s

/-- FLUSH-SPOOL (R119). -/
def carryFlush (s : State) : Carried :=
  let (atOnce, left, s) := flushSlots (s.jobs.map Prod.fst) 0 0 s
  ⟨.done, [byteOf atOnce, byteOf left], s⟩

/-! ### Line requests (R130, R136, R137, R141, R142) -/

/-- A request on a line: RANGE outside LP1 and LP2. -/
def onLine (line : Byte) (s : State) (f : Line → Carried) : Carried :=
  match Line.ofCode line with
  | none => .refuse .range s
  | some n => f n

/-- The mode SET-LINE gives: FIXED 1, ROTATING 2, unchanged FFh; none where it is RANGE. -/
def readMode (b : Byte) : Option (Option Bool) :=
  if b = 0xFF then some none
  else if b = 1 then some (some false)
  else if b = 2 then some (some true)
  else none

/-- SET-LINE (R137). -/
def carrySetLine (line : Byte) (enable : Option Bool) (mode : Byte) (mask : Option (BitVec 4))
    (s : State) : Carried :=
  onLine line s fun n =>
    match readMode mode with
    | none => .refuse .range s
    | some rotating =>
      if enable = some false ∧ (s.lines.get n).serving then .refuse .busy s
      else .done (applySetLine n enable rotating mask s)

/-- RESET-LINE (R136). The line takes it before the reply is offered (log entry 58). -/
def carryResetLine (n : Line) (s : State) : Carried :=
  if (s.lines.get n).state = .disabled then .refuse .conflict s else .done (resetTaken n s)

/-- RESUME-LINE (R130): the reply carries the line state after it. -/
def carryResumeLine (line : Byte) (s : State) : Carried :=
  onLine line s fun n =>
    let s := resume n s
    ⟨.done, [(s.lines.get n).state.code], s⟩

/-- ROTATE-LINE (R141). -/
def carryRotateLine (line level : Byte) (s : State) : Carried :=
  onLine line s fun n =>
    match levelOf level with
    | none => .refuse .range s
    | some k => .done (rotateTo n k s)

/-- What a PEEK-NEXT reports (R142, R201). With no job to take the level's byte is 0, the model's choice (log
entry 51). -/
def peekBytes (n : Line) (s : State) : List Byte :=
  let t := s.lines.get n
  let choice : List Byte := match s.nextChoice n with
    | none => [0xFF, 0, 0]
    | some c => [byteOf c.slot, if c.pooled then 2 else 1, byteOf c.level.val]
  choice ++ [t.state.code, stallCode t.stallCause, if t.rotating then 2 else 1, yesNo t.enabled,
    t.holdMask.zeroExtend 8] ++ (levelOrder t.lowest).map (fun l => byteOf l.val) ++
    [(t.job.map byteOf).getD 0xFF]

/-- PEEK-NEXT (R142). -/
def carryPeekNext (line : Byte) (s : State) : Carried :=
  onLine line s fun n => ⟨.done, peekBytes n s, s⟩

/-! ### Port requests (R171 to R173) -/

/-- A request on a port: RANGE outside TA, TB and L0 to L3. -/
def onPort (port : Byte) (s : State) (f : Port → Carried) : Carried :=
  match Port.ofCode port with
  | none => .refuse .range s
  | some p => f p

/-- SET-PORT's administrative setting (R171): a port that leaves OFF reports a STUCK that goes on
(R11). -/
def setAdmin (p : Port) (on : Bool) (s : State) : State :=
  if on then if s.serviceOf p = .off then stuckOnLeavingOff p (portOn p s) else s
  else if s.serviceOf p = .off then s else portOff p s

/-- SET-PORT (R171). -/
def carrySetPort (port : Byte) (on bcast accept : Option Bool) (s : State) : Carried :=
  onPort port s fun p =>
    if p.side = .trunk ∧ bcast.isSome then .refuse .range s
    else
      let s := modService p (fun v => { v with
        bcast := bcast.getD v.bcast, accept := accept.getD v.accept }) s
      .done (match on with
        | some b => setAdmin p b s
        | none => s)

/-- RESTART-PORT (R172). The port's work is done before the reply is offered: the model's choice, which
decides the reply's own fate at the port it came in by (log entry 58). -/
def carryRestartPort (port : Byte) (s : State) : Carried :=
  onPort port s fun p =>
    if s.serviceOf p = .off then .refuse .conflict s else .done (restartPort p s)

/-- RESTART-INTERFACE (R172). -/
def carryRestartInterface (code : Byte) (s : State) : Carried :=
  match Iface.ofCode code with
  | none => .refuse .range s
  | some i => .done (restartInterface i s)

/-- The 14-byte port record (R201). -/
def portRecord (side : Side) (s : State) (p : Port) : List Byte :=
  let v := s.service.get p
  let line : Byte := match p with
    | .seg _ => 0
    | .link l => (s.links.get l).line.code
  [p.code, v.state.code, s.portByte p] ++ side.word v.holdTime ++ side.word (v.holdTimer.getD 0) ++
    [byteOf v.failedTests, (v.cause.map IsolationCause.code).getD 0, yesNo v.restoreDue,
      (v.test.map fun t => t.phase.code).getD 0, (v.test.map fun t => t.purpose.code).getD 0, line, 0]

/-- READ-PORTS (R173). -/
def carryReadPorts (side : Side) (s : State) : Carried :=
  ⟨.done, Port.all.flatMap (portRecord side s), s⟩

/-! ### Sweep requests (R182 to R184) -/

/-- The position, 1 up, of the first item that fails a test. -/
def firstFailing {α : Type} (ok : α → Bool) : Nat → List α → Option Nat
  | _, [] => none
  | k, a :: as => if ok a then firstFailing ok (k + 1) as else some k

/-- A step given, as the list holds it: none where its target value or fail limit is out of range. -/
def StepGiven.step (t : StepGiven) : Option SweepStep :=
  if within 1 15 t.failLimit then
    (stepTarget t.kind t.value).map fun x => ⟨x, t.probe, t.failLimit, t.action, .notRun, 0⟩
  else none

/-- LOAD-STEPS (R182). -/
def carryLoadSteps (ts : List StepGiven) (s : State) : Carried :=
  if s.sweep.run.isSome then .refuse .busy s
  else
    match firstFailing (fun t => stepFits t.kind t.probe t.action) 1 ts with
    | some k => .refuseAt .malformed k s
    | none =>
      if Config.sweepSteps < ts.length then .refuse .range s
      else
        match firstFailing (fun t => t.step.isSome) 1 ts with
        | some k => .refuseAt .range k s
        | none =>
          .done (modSweep (fun w => { w with steps := ts.filterMap StepGiven.step, lastEcho := none }) s)

/-- START-SWEEP (R183). An interval outside its range is judged before the engine's being busy, and the pass
begins before the reply is offered: the model's choices (log entries 59 and 58). -/
def carryStartSweep (interval : Option Nat) (s : State) : Carried :=
  let v := interval.getD s.sweep.interval
  if interval.any (fun v => 3600 < v) then .refuse .range s
  else if s.sweep.run.isSome then .refuse .busy s
  else .done (startSweep v s)

/-- RUN-STEP (R184). The engine's being busy is judged before the step's number, and the step begins before
the reply is offered: the model's choices (log entries 59 and 58). -/
def carryRunStep (k : Nat) (s : State) : Carried :=
  if s.sweep.run.isSome then .refuse .busy s
  else if within 1 s.sweep.steps.length k = false then .refuse .notFound s
  else .done (runStep k s)

/-- What a READ-SWEEP reports (R184, R200). -/
def sweepBytes (side : Side) (s : State) : List Byte :=
  let w := s.sweep
  let run : List Byte := match w.run with
    | none => [0, 0]
    | some r => [byteOf r.position, match r.kind with | .pass => 1 | .single => 2]
  [yesNo w.enabled, yesNo w.run.isSome] ++ side.word w.interval ++ side.word (w.timer.getD 0) ++
    side.word s.config.echoTimeout ++ run ++ [w.probeNumber, byteOf w.steps.length] ++
    stepRecords side 1 w.steps

/-! ### Management requests (R189, R192, R195, R196) -/

/-- READ-EVENTS (R192): the reply has the flags as they stood; they are clear before it is made (log
entry 27). -/
def carryReadEvents (side : Side) (s : State) : Carried :=
  ⟨.done, noticePayload side s, clearFlags s⟩

/-- The flags in the order of their bits. -/
def Flag.all : List Flag :=
  [.directoryFull, .nodeClash, .stationQuarantined, .stationReleased, .portIsolated, .portRestored,
    .portFailed, .poolLow, .spoolNearFull, .spoolEmpty, .printerStalled, .jobAborted, .sweepPassDone,
    .sweepHalted, .imageFault, .unknownDest]

/-- SET-EVENT-MASK (R192): each raised flag whose setting turns on becomes counting, in bit order. -/
def carrySetEventMask (mask : BitVec 16) (s : State) : Carried :=
  let turned := Flag.all.filter fun f => s.raised f && !s.masked f && mask.getLsbD f.bit
  .done (turned.foldl (fun s _ => becomeCounting raiseLowInNotice s) { s with mask := mask })

/-- Two settings are for the same parameter, or the same port's quota (R189). Two quotas of one port outside
the list are no repetition, and are RANGE (log entry 11). -/
def SettingGiven.same (a b : SettingGiven) : Bool :=
  a.code = b.code && (a.code ≠ 9 || (a.qualifier = b.qualifier && (Port.ofCode a.qualifier).isSome))

/-- The position of the first setting that repeats one before it: of the two, the later one is the failing
setting, by the model's choice (R189, log entry 11). -/
def firstRepeated : Nat → List SettingGiven → List SettingGiven → Option Nat
  | _, _, [] => none
  | k, seen, g :: gs =>
    if seen.any (fun a => a.same g) then some k else firstRepeated (k + 1) (g :: seen) gs

/-- A setting's value is in its range (R189). -/
def State.settingOk (s : State) (g : SettingGiven) : Bool :=
  if g.code = 22 then (noticeOf g.qualifier g.value).isSome
  else if g.code = 9 then (Port.ofCode g.qualifier).isSome && paramInRange 9 g.value
  else if g.code = 5 then paramInRange 5 g.value && decide (s.pool.spoolHeld ≤ g.value)
  else paramInRange g.code g.value

/-- Put a setting in force. -/
def Settings.give (c : Settings) (g : SettingGiven) : Settings :=
  if g.code = 22 then { c with notice := (noticeOf g.qualifier g.value).getD c.notice }
  else if g.code = 9 then
    match Port.ofCode g.qualifier with
    | some p => { c with quota := c.quota.set p g.value }
    | none => c
  else c.put g.code g.value

/-- SET-CONFIG (R189). -/
def carrySetConfig (count : Nat) (gs : List SettingGiven) (s : State) : Carried :=
  if within 1 24 count = false then .refuse .malformed s
  else
    match firstRepeated 1 [] gs with
    | some k => .refuseAt .malformed k s
    | none =>
      match firstFailing s.settingOk 1 gs with
      | some k => .refuseAt .range k s
      | none => .done { s with config := gs.foldl Settings.give s.config }

/-- SAVE-IMAGE (R195): the snapshot is made and the save is in flight; the reply comes at its end. -/
def beginSave (q : Request) (s : State) : State := { s with save := some ⟨q, s.image⟩ }

/-- CLEAR-ALL at every block (R196), which asks for no order among the parts. The order is the model's choice:
the directory, the jobs, the lines, the sweep engine, the unknown log, then each port with its queue and its
entry test, the window and the flags (log entry 68). -/
def clearBlocks (s : State) : State :=
  let s := clearLine .lp2 (clearLine .lp1 (clearJobs (clearDirectory s)))
  let s := { clearSweep s with unknownLog := [] }
  let s := Port.all.foldl (fun s p => clearPort p s) s
  clearFlags (beginWindow s)

/-- CLEAR-ALL (R196): a reply held before is lost, and its own is held; the reply to a port that is OFF
is offered at once, and lost. -/
def clearAll (q : Request) (s : State) : State :=
  let s := clearBlocks (loseHeld s)
  if s.serviceOf q.port = .off then sendReply q .done [] s else { s with heldReply := some q }

/-! ### The commands -/

/-- EDIT_ENTRIES (R63). -/
def execEditEntries (s : State) : Host.Outcome State Fault Refusal :=
  .next (whenActive (carry (fun c => match c with | .editEntries n es => some (n, es) | _ => none)
    fun _ a s => carryEdits a.1 a.2 s) s)

/-- MALFORMED_REQUEST_TAKEN (R187). -/
def execMalformedRequestTaken (s : State) : Host.Outcome State Fault Refusal :=
  .next (whenActive takeMalformed s)

/-- PURGE_LEARNED (R71). -/
def execPurgeLearned (s : State) : Host.Outcome State Fault Refusal :=
  .next (whenActive (carry (fun c => match c with | .purgeLearned => some () | _ => none)
    fun _ _ s => carryPurgeLearned s) s)

/-- READ_ENTRIES (R72). -/
def execReadEntries (s : State) : Host.Outcome State Fault Refusal :=
  .next (whenActive (carry (fun c => match c with | .readEntries a n => some (a, n) | _ => none)
    fun d a s => carryReadEntries d a.1 a.2 s) s)

/-- FIND_ENTRY (R72). -/
def execFindEntry (s : State) : Host.Outcome State Fault Refusal :=
  .next (whenActive (carry (fun c => match c with | .findEntry d v => some (d, v) | _ => none)
    fun d a s => carryFindEntry d a.1 a.2 s) s)

/-- READ_UNKNOWN_LOG (R97). -/
def execReadUnknownLog (s : State) : Host.Outcome State Fault Refusal :=
  .next (whenActive (carry (fun c => match c with | .readUnknownLog => some () | _ => none)
    fun d _ s => carryReadUnknownLog d s) s)

/-- READ_JOBS (R115). -/
def execReadJobs (s : State) : Host.Outcome State Fault Refusal :=
  .next (whenActive (carry (fun c => match c with | .readJobs a n => some (a, n) | _ => none)
    fun d a s => carryReadJobs d a.1 a.2 s) s)

/-- HOLD_JOB (R116). -/
def execHoldJob (s : State) : Host.Outcome State Fault Refusal :=
  .next (whenActive (carry (fun c => match c with | .holdJob k => some k | _ => none)
    fun _ k s => carryHoldJob k s) s)

/-- RELEASE_JOB (R116). -/
def execReleaseJob (s : State) : Host.Outcome State Fault Refusal :=
  .next (whenActive (carry (fun c => match c with | .releaseJob k => some k | _ => none)
    fun _ k s => carryReleaseJob k s) s)

/-- CANCEL_JOB (R117). -/
def execCancelJob (s : State) : Host.Outcome State Fault Refusal :=
  .next (whenActive (carry (fun c => match c with | .cancelJob k => some k | _ => none)
    fun _ k s => carryCancelJob k s) s)

/-- MOVE_JOB (R118). -/
def execMoveJob (s : State) : Host.Outcome State Fault Refusal :=
  .next (whenActive (carry (fun c => match c with | .moveJob k t l => some (k, t, l) | _ => none)
    fun _ a s => carryMoveJob a.1 a.2.1 a.2.2 s) s)

/-- FLUSH_SPOOL (R119). -/
def execFlushSpool (s : State) : Host.Outcome State Fault Refusal :=
  .next (whenActive (carry (fun c => match c with | .flushSpool => some () | _ => none)
    fun _ _ s => carryFlush s) s)

/-- SET_LINE (R137). -/
def execSetLine (s : State) : Host.Outcome State Fault Refusal :=
  .next (whenActive (carry (fun c => match c with | .setLine n e m h => some (n, e, m, h) | _ => none)
    fun _ a s => carrySetLine a.1 a.2.1 a.2.2.1 a.2.2.2 s) s)

/-- RESET_LINE (R136). -/
def execResetLine (s : State) : Host.Outcome State Fault Refusal :=
  .next (whenActive (carry (fun c => match c with | .resetLine n => some n | _ => none)
    fun _ n s => carryResetLine n s) s)

/-- RESUME_LINE (R130). -/
def execResumeLine (s : State) : Host.Outcome State Fault Refusal :=
  .next (whenActive (carry (fun c => match c with | .resumeLine n => some n | _ => none)
    fun _ n s => carryResumeLine n s) s)

/-- ROTATE_LINE (R141). -/
def execRotateLine (s : State) : Host.Outcome State Fault Refusal :=
  .next (whenActive (carry (fun c => match c with | .rotateLine n k => some (n, k) | _ => none)
    fun _ a s => carryRotateLine a.1 a.2 s) s)

/-- PEEK_NEXT (R142). -/
def execPeekNext (s : State) : Host.Outcome State Fault Refusal :=
  .next (whenActive (carry (fun c => match c with | .peekNext n => some n | _ => none)
    fun _ n s => carryPeekNext n s) s)

/-- SET_PORT (R171). -/
def execSetPort (s : State) : Host.Outcome State Fault Refusal :=
  .next (whenActive (carry (fun c => match c with | .setPort p a b d => some (p, a, b, d) | _ => none)
    fun _ a s => (carrySetPort a.1 a.2.1 a.2.2.1 a.2.2.2 s).settled) s)

/-- RESTART_PORT (R172). -/
def execRestartPort (s : State) : Host.Outcome State Fault Refusal :=
  .next (whenActive (carry (fun c => match c with | .restartPort p => some p | _ => none)
    fun _ p s => (carryRestartPort p s).settled) s)

/-- RESTART_INTERFACE (R172). -/
def execRestartInterface (s : State) : Host.Outcome State Fault Refusal :=
  .next (whenActive (carry (fun c => match c with | .restartInterface i => some i | _ => none)
    fun _ i s => (carryRestartInterface i s).settled) s)

/-- READ_PORTS (R173). -/
def execReadPorts (s : State) : Host.Outcome State Fault Refusal :=
  .next (whenActive (carry (fun c => match c with | .readPorts => some () | _ => none)
    fun d _ s => carryReadPorts d s) s)

/-- LOAD_STEPS (R182). -/
def execLoadSteps (s : State) : Host.Outcome State Fault Refusal :=
  .next (whenActive (carry (fun c => match c with | .loadSteps ts => some ts | _ => none)
    fun _ ts s => carryLoadSteps ts s) s)

/-- START_SWEEP (R183). -/
def execStartSweep (s : State) : Host.Outcome State Fault Refusal :=
  .next (whenActive (carry (fun c => match c with | .startSweep v => some v | _ => none)
    fun _ v s => carryStartSweep v s) s)

/-- STOP_SWEEP (R183). -/
def execStopSweep (s : State) : Host.Outcome State Fault Refusal :=
  .next (whenActive (fun s => resumeSweep (carry
    (fun c => match c with | .stopSweep => some () | _ => none)
    (fun _ _ s => .done (stopSweep s)) s)) s)

/-- RUN_STEP (R184). -/
def execRunStep (s : State) : Host.Outcome State Fault Refusal :=
  .next (whenActive (carry (fun c => match c with | .runStep k => some k | _ => none)
    fun _ k s => carryRunStep k s) s)

/-- READ_SWEEP (R184). -/
def execReadSweep (s : State) : Host.Outcome State Fault Refusal :=
  .next (whenActive (carry (fun c => match c with | .readSweep => some () | _ => none)
    fun d _ s => ⟨.done, sweepBytes d s, s⟩) s)

/-- READ_EVENTS (R192). -/
def execReadEvents (s : State) : Host.Outcome State Fault Refusal :=
  .next (whenActive (carry (fun c => match c with | .readEvents => some () | _ => none)
    fun d _ s => carryReadEvents d s) s)

/-- SET_EVENT_MASK (R192). -/
def execSetEventMask (s : State) : Host.Outcome State Fault Refusal :=
  .next (whenActive (carry (fun c => match c with | .setEventMask m => some m | _ => none)
    fun _ m s => carrySetEventMask m s) s)

/-- READ_CONFIG (R189). -/
def execReadConfig (s : State) : Host.Outcome State Fault Refusal :=
  .next (whenActive (carry (fun c => match c with | .readConfig => some () | _ => none)
    fun d _ s => ⟨.done, configBytes d s.config, s⟩) s)

/-- SET_CONFIG (R189). -/
def execSetConfig (s : State) : Host.Outcome State Fault Refusal :=
  .next (whenActive (carry (fun c => match c with | .setConfig n gs => some (n, gs) | _ => none)
    fun _ a s => carrySetConfig a.1 a.2 s) s)

/-- SAVE_IMAGE (R195). -/
def execSaveImage (s : State) : Host.Outcome State Fault Refusal :=
  .next (whenActive (takeCall (fun c => match c with | .saveImage => some () | _ => none)
    fun q _ s => beginSave q s) s)

/-- CLEAR_ALL (R196). -/
def execClearAll (s : State) : Host.Outcome State Fault Refusal :=
  .next (whenActive (takeCall (fun c => match c with | .clearAll => some () | _ => none)
    fun q _ s => clearAll q s) s)

end Sys2Proof.Machine
end

