-- ==== Sys2Proof/Machine/Counters.lean ====
section
/-! DEFINITION. READ-COUNTERS: the groups, their counters and their current values (R193, R200). -/

namespace Sys2Proof.Machine

/-! ### The counters of each unit, in the order of its rule -/

/-- Every counter of this unit (log entry 14). -/
def SegCount.all : List SegCount :=
  [.good, .runts, .headerBad, .lengthBad, .bodyBad, .noBuffer, .sent, .collisions,
    .collisionDrops, .stuck, .unterminated]

/-- Every counter of this unit (log entry 14). -/
def LinkCount.all : List LinkCount :=
  [.good, .checkBad, .lengthBad, .symbolErrors, .symbolErrorFrames, .noBuffer, .sent, .flaps,
    .trainingFailures]

/-- Every counter of this unit (log entry 14). -/
def IfaceCount.all : List IfaceCount :=
  [.restarts, .clockLosses]

/-- Every counter of this unit (log entry 14). -/
def PoolCount.all : List PoolCount :=
  [.ownFrameLost, .spoolRefusedReserve, .spoolRefusedLimit]

/-- Every counter of this unit (log entry 14). -/
def QueueCount.all : List QueueCount :=
  [.joined, .refusedUnreachable, .refusedQuarantinedSource, .refusedTooLong,
    .refusedQueueFull, .purgedIsolation, .purgedFailed, .purgedOff, .purgedLinkLoss,
    .purgedRestart, .purgedClearAll, .purgedQuarantine]

/-- Every counter of this unit (log entry 14). -/
def DirCount.all : List DirCount :=
  [.learned, .moves, .nodeClashes, .aliasClashes, .learnRefusedFull, .agedOut, .takenOver,
    .evicted, .purgedLearned, .claimsForwarded, .defendLost, .defendReserved, .defendPrinter,
    .defendPairSide, .defendOtherSegment]

/-- Every counter of this unit (log entry 14). -/
def ForwardPartCount.all : List ForwardPartCount :=
  [.echoMalformed, .echoRepLost, .unknownLogOverwritten]

/-- Every counter of this unit (log entry 14). -/
def ForwardCount.all : List ForwardCount :=
  [.testHanded, .testDiscarded, .notInService, .unknownKind, .trunkOnlyOnLink,
    .misdirectedKind, .malformedClaim, .badSource, .quarantinedDrop, .badDestination,
    .reservedDestination, .toBridgeDiscarded, .aliasNotPrint, .handedClaim, .handedManagement,
    .handedSweep, .handedSpool, .filtered, .destQuarantined, .untranslatable, .trunkOnlyToPair,
    .unknownDest, .echoAnswered]

/-- Every counter of this unit (log entry 14). -/
def SpoolCount.all : List SpoolCount :=
  [.opened, .refusedNotAllowed, .refusedNoPrinter, .refusedSpoolFull, .refusedTableFull,
    .refusedTagInUse, .refusedSubmitterLimit, .refusedMalformed, .unknownJob, .queued,
    .heldOnClose, .started, .printed, .cancelledSubmitter, .cancelledManager, .abortedGap,
    .abortedArrivalTimeout, .abortedNoSpace, .abortedLengthMismatch, .abortedEmpty,
    .abortedRestarted, .abortedFlushed, .abortedQuarantine, .statusesSent, .statusLost,
    .statusNoRoute]

/-- Every counter of this unit (log entry 14). -/
def LineCount.all : List LineCount :=
  [.bytesAcknowledged, .ackTimeouts, .busyTimeouts, .strayAcks, .copiesPrinted, .jobsTaken,
    .resets, .stallOffline, .stallPaperOut, .stallFault, .stallAckTimeout, .stallBusyTimeout]

/-- Every counter of this unit (log entry 14). -/
def FaultPortCount.all : List FaultPortCount :=
  [.requestsErrors, .requestsFlapping, .requestsLine, .errorsWarning, .flapsWarning]

/-- Every counter of this unit (log entry 14). -/
def FaultCount.all : List FaultCount :=
  [.attributedErrors, .unattributable, .attributedNoEntry, .attributedToAlias, .suspected,
    .quarantineThreshold, .quarantineProbation, .quarantineEdit, .quarantineSweep,
    .quarantineTakeover, .quarantineRenewed, .probations, .probationPassed, .recovered,
    .sweepActionNoEntry]

/-- Every counter of this unit (log entry 14). -/
def ServiceCount.all : List ServiceCount :=
  [.isolationsErrors, .isolationsFlapping, .isolationsLine, .isolationsSweep, .isolationsTest,
    .requestsIgnored, .testsPassed, .testsFailedInternal, .testsFailedExternal,
    .testsAbandoned, .probesPass, .probesFail, .testFrameLost, .strayTest]

/-- Every counter of this unit (log entry 14). -/
def SweepCount.all : List SweepCount :=
  [.passesDone, .stepsPass, .stepsFail, .stepsSkipped, .stepsNotRun, .actionNote,
    .actionMarkSuspect, .actionQuarantine, .actionIsolatePort, .actionHalt, .isolateNoHome,
    .probeRequestLost, .lateEcho, .strayEcho]

/-- Every counter of this unit (log entry 14). -/
def MgmtCount.all : List MgmtCount :=
  [.requestsAccepted, .refusedNoAccept, .refusedNoRight, .refusedQueueFull, .malformed,
    .busyRefused, .repliesSent, .replyLost, .noticesSent, .noticeLost, .noticeNoRoute,
    .savesDone, .savesFailed]

/-! ### Groups (R193) -/

/-- The counters of a group, in the order of its reply; none where the code names no group. -/
def groupCounters (group : Nat) : Option (List Counter) :=
  match group with
  | 1 => some (Seg.all.flatMap fun x => SegCount.all.map (.seg x))
  | 2 => some ((Link.all.flatMap fun l => LinkCount.all.map (.link l)) ++
      Iface.all.flatMap fun i => IfaceCount.all.map (.iface i))
  | 3 => some (PoolCount.all.map .pool ++ Port.all.flatMap fun p => QueueCount.all.map (.queue p))
  | 4 => some (DirCount.all.map .dir)
  | 5 => some (ForwardPartCount.all.map .forwardPart ++
      Port.all.flatMap fun p => ForwardCount.all.map (.forward p))
  | 6 => some (SpoolCount.all.map .spool)
  | 7 => some (Line.all.flatMap fun n => LineCount.all.map (.line n))
  | 8 => some (FaultCount.all.map .fault ++
      Port.all.flatMap fun p => FaultPortCount.all.map (.faultPort p))
  | 9 => some (Port.all.flatMap fun p => ServiceCount.all.map (.service p))
  | 10 => some (SweepCount.all.map .sweep)
  | 11 => some (MgmtCount.all.map .mgmt)
  | _ => none

/-- A yes/no as a current value: 1 for yes and 0 for no, the model's choice (log entry 70). -/
def flagValue (b : Bool) : Nat := if b then 1 else 0

/-- The number of entries with a property. -/
def State.countEntries (s : State) (test : Entry → Bool) : Nat := s.dir.countP fun e => test e.2

/-- The station an entry is of has a property. -/
def Entry.stationHas (e : Entry) (test : Station → Bool) : Bool :=
  match e.kind with
  | .station t => test t
  | _ => false

/-- The entry is of kind PRINTER. -/
def Entry.isPrinter (e : Entry) : Bool :=
  match e.kind with
  | .printer _ _ => true
  | _ => false

/-- The current values of the frame memory: the block counts, and each queue's entries and quota use. -/
def memoryValues (s : State) : List Nat :=
  [s.pool.free, s.pool.frameHeld, s.pool.spoolHeld] ++
    Port.all.flatMap fun p => [(s.queues.get p).length, s.quotaUse p]

/-- The current values of the directory: entries besides entry 0, and of those the learned, the static
stations and the entries of kind PRINTER (log entry 14). -/
def directoryValues (s : State) : List Nat :=
  [s.dir.length - 1, s.countEntries fun e => e.origin = .learned,
    s.countEntries fun e => e.stationHas fun _ => e.origin = .static, s.countEntries Entry.isPrinter]

/-- The current values of the spool: live jobs, jobs in each state, and the twelve queue lengths. -/
def spoolValues (s : State) : List Nat :=
  [s.jobs.length] ++
    ([JobState.arriving, .ready, .held, .printing, .stalled, .draining].map fun st =>
      s.jobs.countP fun e => e.2.state = st) ++
    ([Target.line .lp1, .line .lp2, .pool].flatMap fun t =>
      [(0 : Fin 4), 1, 2, 3].map fun l => (s.readyJobs t l).length)

/-- The window counts and marks of a port (log entry 14). -/
def windowValues (s : State) (p : Port) : List Nat :=
  let m := s.marks.get p
  match p with
  | .seg x =>
    let w := s.segWin.get x
    [w.headerBad, w.bodyBad, w.lengthBad, w.runts, w.collisionDrops, w.stuck, w.unterminated,
      flagValue m.errorsMade, flagValue m.errorsWarned]
  | .link l =>
    let w := s.linkWin.get l
    [w.checkBad, w.symbolErrors, w.symbolErrorFrames, w.flaps, flagValue m.errorsMade,
      flagValue m.flappingMade, flagValue m.errorsWarned, flagValue m.flapsWarned]

/-- The current values of the fault monitor. -/
def faultValues (s : State) : List Nat :=
  (Port.all.flatMap (windowValues s)) ++ [s.window.time, s.window.length] ++
    [Standing.good, .suspect, .quarantined, .probation].map fun st =>
      s.countEntries fun e => e.stationHas fun t => t.standing = st

/-- A line's current values: state and job in service in two bytes each, level order in four (R200). -/
def lineValues (side : Side) (s : State) (n : Line) : List Byte :=
  let t := s.lines.get n
  side.word t.state.code.toNat ++ side.word (t.job.getD 0xFF) ++
    (levelOrder t.lowest).map fun l => byteOf l.val

/-- The current values of a group. -/
def groupValues (side : Side) (group : Nat) (s : State) : List Byte :=
  match group with
  | 3 => (memoryValues s).flatMap side.word
  | 4 => (directoryValues s).flatMap side.word
  | 5 => side.word s.unknownLog.length
  | 6 => (spoolValues s).flatMap side.word
  | 7 => Line.all.flatMap (lineValues side s)
  | 8 => (faultValues s).flatMap side.word
  | _ => []

/-- Set a list of counters to 0. -/
def clearCounts : List Counter → State → State
  | [], s => s
  | c :: cs, s => clearCounts cs (clearCount c s)

/-- READ-COUNTERS (R193): the values are read before a clear. -/
def carryReadCounters (side : Side) (group : Nat) (clear : Bool) (s : State) : Carried :=
  match groupCounters group with
  | none => .refuse .range s
  | some cs =>
    ⟨.done, [byteOf group] ++ (cs.flatMap fun c => side.long (s.count c)) ++ groupValues side group s,
      if clear then clearCounts cs s else s⟩

/-- READ_COUNTERS (R193). -/
def execReadCounters (s : State) : Host.Outcome State Fault Refusal :=
  .next (whenActive (carry (fun c => match c with | .readCounters g b => some (g, b) | _ => none)
    fun d a s => carryReadCounters d a.1 a.2 s) s)

end Sys2Proof.Machine
end

