-- ==== Sys2Proof/Machine/Power.lean ====
section
/-! DEFINITION. Power, RESET and the timebase (00_scope.md, R17, R32, R194, R195). -/

namespace Sys2Proof.Machine

/-! ### Reset (R17, R32, R51, R78, R99, R121, R144, R160, R174, R185, R197) -/

/-- Every block takes its reset state. The waiting commands, the pins, the serial memory and the count of
free values stay; a save in flight is lost (R195). -/
def resetBlocks (s : State) : State :=
  let s := abandonSave s
  { State.reset with
    pending := s.pending, powered := s.powered, resetLow := s.resetLow, commission := s.commission
    choices := s.choices, serial := s.serial, loading := false
    segs := ⟨.atReset s.segs.a.carrier, .atReset s.segs.b.carrier⟩
    links := ⟨.atReset s.links.l0.lineSignal, .atReset s.links.l1.lineSignal,
      .atReset s.links.l2.lineSignal, .atReset s.links.l3.lineSignal⟩
    lines :=
      ⟨.atReset s.lines.lp1.select s.lines.lp1.paperOut s.lines.lp1.fault s.lines.lp1.busy,
        .atReset s.lines.lp2.select s.lines.lp2.paperOut s.lines.lp2.fault s.lines.lp2.busy⟩ }

/-- RESET is released, or power comes with RESET high: loading becomes yes, and each interface reports the
signal of each of its links as it finds it (R32, R194). -/
def release (s : State) : State := Iface.all.foldl (fun s i => reportSignals i s) { s with loading := true }

/-- Power is applied (R17, R194; log entry 31). -/
def powerOn (s : State) : State :=
  if s.powered then s
  else
    let s := resetBlocks { s with powered := true }
    if s.resetLow then s else release s

/-- RESET is driven low (R17). -/
def resetAssert (s : State) : State :=
  if s.resetLow then s
  else if s.powered then resetBlocks { s with resetLow := true }
  else { s with resetLow := true }

/-- RESET is released (R194). -/
def resetRelease (s : State) : State :=
  if s.resetLow then
    if s.powered then release (resetBlocks { s with resetLow := false })
    else { s with resetLow := false }
  else s

/-- Power is lost (R195). -/
def powerLoss (s : State) : State :=
  if s.powered then resetBlocks { s with powered := false } else s

/-! ### The timebase (log entry 3) -/

/-- One unit less of a time that runs; a time stays at 0 until its expiry is taken. -/
def runDown (t : Option Nat) : Option Nat := t.map fun n => n - 1

/-- One unit more of a count, up to a bound. -/
def runUp (bound n : Nat) : Nat := min bound (n + 1)

/-- One millisecond of a segment (R9, R11). -/
def SegPort.tick (t : SegPort) : SegPort :=
  { t with
    carrierTime := if t.carrier then t.carrierTime + 1 else t.carrierTime
    heldTimer := runDown t.heldTimer, retryTimer := runDown t.retryTimer }

/-- One millisecond of a link (R19). -/
def LinkPort.tick (t : LinkPort) : LinkPort :=
  { t with
    trainingTime := if t.line = .training then runUp 2000 t.trainingTime else t.trainingTime
    retrainPause := runDown t.retrainPause }

/-- One millisecond of an interface (R29). -/
def IfaceState.tick (t : IfaceState) : IfaceState :=
  if t.clockHold then { t with holdTime := runUp 1000 t.holdTime } else t

/-- One millisecond of a printer line (R124, R126, R128, R136). -/
def LineState.tick (t : LineState) : LineState :=
  { t with
    ackTimer := runDown t.ackTimer, busyWait := runDown t.busyWait
    retryTimer := runDown t.retryTimer, initTimer := runDown t.initTimer }

/-- One millisecond of a port test (R162). -/
def PortService.tick (v : PortService) : PortService :=
  { v with test := v.test.map fun t => { t with timer := runDown t.timer } }

/-- One millisecond of an outstanding probe (R178). -/
def Probe.tick : Probe → Probe
  | .echo n b k t => .echo n b k (t - 1)
  | p => p

/-- One second of a port's hold timer (R168). -/
def PortService.second (v : PortService) : PortService := { v with holdTimer := runDown v.holdTimer }

/-- One second of the window clock, the hold timers and the sweep's interval timer. The window time stops
at the window's length until the expiry is taken (R145, log entry 36). -/
def secondTick (s : State) : State :=
  { s with
    window := if s.window.running then
        { s.window with time := runUp s.window.length s.window.time } else s.window
    service := s.service.map PortService.second
    sweep := { s.sweep with timer := runDown s.sweep.timer }
    time := { s.time with sec := (s.time.sec + 1) % 60 } }

/-- The milliseconds of the timebase go on. -/
def msTick (s : State) : State :=
  if s.time.ms + 1 < 1000 then { s with time := { s.time with ms := s.time.ms + 1 } }
  else secondTick { s with time := { s.time with ms := 0 } }

/-- One millisecond of the part. -/
def tick (s : State) : State :=
  msTick { s with
    segs := ⟨s.segs.a.tick, s.segs.b.tick⟩
    links := ⟨s.links.l0.tick, s.links.l1.tick, s.links.l2.tick, s.links.l3.tick⟩
    ifaces := ⟨s.ifaces.li0.tick, s.ifaces.li1.tick⟩
    lines := ⟨s.lines.lp1.tick, s.lines.lp2.tick⟩
    service := s.service.map PortService.tick
    sweep := { s.sweep with outstanding := s.sweep.outstanding.map Probe.tick } }

/-- What a step does when no command waits: one millisecond passes (DESIGN CHOICE, log entry 3). -/
def idle (s : State) : State := whenActive tick s

/-! ### The commands -/

/-- POWER_ON (R17, R194). -/
def execPowerOn (s : State) : Host.Outcome State Fault Refusal := .next (powerOn s)

/-- RESET_ASSERT (R17). -/
def execResetAssert (s : State) : Host.Outcome State Fault Refusal := .next (resetAssert s)

/-- RESET_RELEASE (R194). -/
def execResetRelease (s : State) : Host.Outcome State Fault Refusal := .next (resetRelease s)

/-- POWER_LOSS (R195). -/
def execPowerLoss (s : State) : Host.Outcome State Fault Refusal := .next (powerLoss s)

end Sys2Proof.Machine
end

