-- ==== Sys2Proof/Machine/Dispatch.lean ====
section
/-! DEFINITION. What each command does: one arm for each row of spec/opcode_table.json. -/

namespace Sys2Proof.Machine

def exec (i : Instr) (s : State) : Host.Outcome State Fault Refusal :=
  match i with
  | .powerOn => Sys2Proof.Machine.execPowerOn s
  | .resetAssert => Sys2Proof.Machine.execResetAssert s
  | .resetRelease => Sys2Proof.Machine.execResetRelease s
  | .imageLoadEnd r => Sys2Proof.Machine.execImageLoadEnd r s
  | .carrierRise x => Sys2Proof.Machine.execCarrierRise x s
  | .coaxByte x b => Sys2Proof.Machine.execCoaxByte x b s
  | .carrierFall x => Sys2Proof.Machine.execCarrierFall x s
  | .segmentTakeFrame x => Sys2Proof.Machine.execSegmentTakeFrame x s
  | .deferQuiet x => Sys2Proof.Machine.execDeferQuiet x s
  | .segmentSent x => Sys2Proof.Machine.execSegmentSent x s
  | .collision x => Sys2Proof.Machine.execCollision x s
  | .retryWaitExpiry x => Sys2Proof.Machine.execRetryWaitExpiry x s
  | .stuck x => Sys2Proof.Machine.execStuck x s
  | .stuckHeld x => Sys2Proof.Machine.execStuckHeld x s
  | .unterminated x => Sys2Proof.Machine.execUnterminated x s
  | .signalPresent l => Sys2Proof.Machine.execSignalPresent l s
  | .signalLost l => Sys2Proof.Machine.execSignalLost l s
  | .retrainPauseExpiry l => Sys2Proof.Machine.execRetrainPauseExpiry l s
  | .trained l => Sys2Proof.Machine.execTrained l s
  | .trainingTimeout l => Sys2Proof.Machine.execTrainingTimeout l s
  | .frameStart l => Sys2Proof.Machine.execFrameStart l s
  | .linkByte l b => Sys2Proof.Machine.execLinkByte l b s
  | .symbolError l => Sys2Proof.Machine.execSymbolError l s
  | .frameEnd l => Sys2Proof.Machine.execFrameEnd l s
  | .linkTakeFrame l => Sys2Proof.Machine.execLinkTakeFrame l s
  | .linkSent l => Sys2Proof.Machine.execLinkSent l s
  | .gapExpiry l => Sys2Proof.Machine.execGapExpiry l s
  | .clockLoss li => Sys2Proof.Machine.execClockLoss li s
  | .clockHoldExpiry li => Sys2Proof.Machine.execClockHoldExpiry li s
  | .takeFrame p commission => Sys2Proof.Machine.execTakeFrame p commission s
  | .arrivalTimeout => Sys2Proof.Machine.execArrivalTimeout s
  | .aging => Sys2Proof.Machine.execAging s
  | .setStation e => Sys2Proof.Machine.execSetStation e s
  | .setAlias e => Sys2Proof.Machine.execSetAlias e s
  | .delete index => Sys2Proof.Machine.execDelete index s
  | .setRights index manager print => Sys2Proof.Machine.execSetRights index manager print s
  | .release index => Sys2Proof.Machine.execRelease index s
  | .quarantine index => Sys2Proof.Machine.execQuarantine index s
  | .purgeLearned => Sys2Proof.Machine.execPurgeLearned s
  | .readEntries => Sys2Proof.Machine.execReadEntries s
  | .findEntry => Sys2Proof.Machine.execFindEntry s
  | .readUnknownLog => Sys2Proof.Machine.execReadUnknownLog s
  | .readJobs => Sys2Proof.Machine.execReadJobs s
  | .holdJob => Sys2Proof.Machine.execHoldJob s
  | .releaseJob => Sys2Proof.Machine.execReleaseJob s
  | .cancelJob => Sys2Proof.Machine.execCancelJob s
  | .moveJob => Sys2Proof.Machine.execMoveJob s
  | .flushSpool => Sys2Proof.Machine.execFlushSpool s
  | .ackPulse n => Sys2Proof.Machine.execAckPulse n s
  | .ackTimeout n => Sys2Proof.Machine.execAckTimeout n s
  | .selectChange n level => Sys2Proof.Machine.execSelectChange n level s
  | .paperOutChange n level => Sys2Proof.Machine.execPaperOutChange n level s
  | .faultChange n level => Sys2Proof.Machine.execFaultChange n level s
  | .busyChange n level => Sys2Proof.Machine.execBusyChange n level s
  | .busyLimitExpiry n => Sys2Proof.Machine.execBusyLimitExpiry n s
  | .stallRetryExpiry n => Sys2Proof.Machine.execStallRetryExpiry n s
  | .initPulseEnd n => Sys2Proof.Machine.execInitPulseEnd n s
  | .resetLine => Sys2Proof.Machine.execResetLine s
  | .setLine => Sys2Proof.Machine.execSetLine s
  | .resumeLine => Sys2Proof.Machine.execResumeLine s
  | .rotateLine => Sys2Proof.Machine.execRotateLine s
  | .peekNext => Sys2Proof.Machine.execPeekNext s
  | .windowExpiry => Sys2Proof.Machine.execWindowExpiry s
  | .minuteExpiry => Sys2Proof.Machine.execMinuteExpiry s
  | .testFrameTimer p => Sys2Proof.Machine.execTestFrameTimer p s
  | .testFrameRetry p => Sys2Proof.Machine.execTestFrameRetry p s
  | .holdTimerExpiry p => Sys2Proof.Machine.execHoldTimerExpiry p s
  | .setPort => Sys2Proof.Machine.execSetPort s
  | .restartPort => Sys2Proof.Machine.execRestartPort s
  | .restartInterface => Sys2Proof.Machine.execRestartInterface s
  | .readPorts => Sys2Proof.Machine.execReadPorts s
  | .intervalExpiry => Sys2Proof.Machine.execIntervalExpiry s
  | .echoTimerExpiry => Sys2Proof.Machine.execEchoTimerExpiry s
  | .loadSteps => Sys2Proof.Machine.execLoadSteps s
  | .startSweep => Sys2Proof.Machine.execStartSweep s
  | .stopSweep => Sys2Proof.Machine.execStopSweep s
  | .runStep => Sys2Proof.Machine.execRunStep s
  | .readSweep => Sys2Proof.Machine.execReadSweep s
  | .readEvents => Sys2Proof.Machine.execReadEvents s
  | .setEventMask => Sys2Proof.Machine.execSetEventMask s
  | .readCounters => Sys2Proof.Machine.execReadCounters s
  | .readConfig => Sys2Proof.Machine.execReadConfig s
  | .setConfig => Sys2Proof.Machine.execSetConfig s
  | .saveImage => Sys2Proof.Machine.execSaveImage s
  | .saveComplete r => Sys2Proof.Machine.execSaveComplete r s
  | .clearAll => Sys2Proof.Machine.execClearAll s
  | .editEntries => Sys2Proof.Machine.execEditEntries s
  | .malformedRequestTaken => Sys2Proof.Machine.execMalformedRequestTaken s
  | .powerLoss => Sys2Proof.Machine.execPowerLoss s

end Sys2Proof.Machine
end

