-- ==== Sys2Proof/Safety.lean ====
section
/-! DEFINITION. The properties of the state that every step keeps. -/

namespace Sys2Proof.Machine

/-- The keys of a table rise: no key is listed twice. -/
def Table.rising {α : Type} (t : Table Nat α) : Prop := t.Pairwise fun a b => a.1 < b.1

/-- Entry 0 is the bridge and no other entry is; every entry lies at a position of the directory
(R52, R53). -/
def State.directoryOk (s : State) : Prop :=
  s.dir.rising ∧ s.dir.find 0 = some .bridgeEntry ∧
    ∀ e ∈ s.dir, e.1 < Config.directoryPositions ∧ (e.2.kind = .bridge → e.1 = 0)

/-- No key is held by two entries (R54). -/
def State.keysUnique (s : State) : Prop :=
  ∀ a ∈ s.dir, ∀ b ∈ s.dir, ∀ k : Key, a.2.holds k → b.2.holds k → a.1 = b.1

/-- Every live job lies in a slot of the job table (R100). -/
def State.jobsOk (s : State) : Prop := s.jobs.rising ∧ ∀ e ∈ s.jobs, e.1 < Config.jobSlots

/-- Every frame record has a name already given. -/
def State.recordsOk (s : State) : Prop := s.records.rising ∧ ∀ e ∈ s.records, e.1 < s.nextRecord

/-- The blocks the frame records hold. -/
def State.recordBlocks (s : State) : Nat := (s.records.map fun e => e.2.blocks).sum

/-- The blocks the jobs' chains hold. -/
def State.jobBlocks (s : State) : Nat := (s.jobs.map fun e => blocksFor e.2.bytes.length).sum

/-- Every block is free, held by a frame record or held by a job, and the three counts say so (R33). -/
def State.blocksOk (s : State) : Prop :=
  s.recordsOk ∧ s.jobsOk ∧ s.pool.free + s.pool.frameHeld + s.pool.spoolHeld = Config.poolBlocks ∧
    s.pool.frameHeld = s.recordBlocks ∧ s.pool.spoolHeld = s.jobBlocks

/-- No list outgrows its place: egress queues (R41), request queue (R186), unknown-destination log (R96),
sweep list (R175). -/
def State.listsOk (s : State) : Prop :=
  (∀ p, (s.queues.get p).length ≤ Config.queueEntries) ∧
    s.requests.length ≤ Config.requestPlaces ∧
    s.unknownLog.length ≤ Config.unknownRecords ∧
    (∀ u ∈ s.unknownLog, 1 ≤ u.hits ∧ u.hits ≤ 255) ∧
    s.sweep.steps.length ≤ Config.sweepSteps

/-- No counter lies above its upper bound (R16). -/
def State.countersOk (s : State) : Prop := ∀ c, s.count c ≤ Config.counterMax

/-- Every configuration parameter lies in its range (R189). -/
def Settings.ok (c : Settings) : Prop :=
  (∀ code, within 1 21 code → code ≠ 9 → paramInRange code (c.param code)) ∧
    (∀ p, paramInRange 9 (c.quota.get p)) ∧ ∀ k, c.notice = some k → k.isStation

/-- The serial memory has its canonical form. -/
def State.serialOk (s : State) : Prop := s.serial.wf = true

/-! ### Conditions the statements use -/

/-- A loop's result waits for the sweep engine. It is taken inside the command that hands it (log
entry 15), so none waits between commands. -/
def State.resultWaits (s : State) : Bool :=
  match s.sweep.outstanding with
  | some (.loop _ _ (some _)) => true
  | _ => false

/-- The blocks act, and the request at the head of the queue reads as `c` and is not refused BUSY
(R187). -/
def State.headIs (s : State) (q : Request) (rest : List Request) (c : Call) : Prop :=
  s.active = true ∧ s.requests = q :: rest ∧ readRequest q = .call c ∧
    (s.save = none ∨ c.isRead = true)

/-- One block taken for a new, empty record, named as the next one; POOL-LOW is raised where that take makes
the free count fall through the threshold (R34, R39). -/
def recordTaken (s : State) : State :=
  let v := { s with
    pool := ⟨s.pool.free - 1, s.pool.frameHeld + 1, s.pool.spoolHeld⟩
    records := s.records.put id s.nextRecord ⟨1, [], 1⟩, nextRecord := s.nextRecord + 1 }
  if s.pool.free = s.config.poolLow then raise .poolLow v else v

/-- From `s` to `t` a fresh TEST frame of the port's test `v` has been placed in its slot, in a record made
for it, and the frame's timer runs: on, where it ran before (R45, R162). -/
def freshTest (p : Port) (v : PortTest) (s t : State) : Prop :=
  t.slots.get p = some s.nextRecord ∧ t.payload s.nextRecord = s.testFrame p v ∧
    t.testOf p = some { v with wait := .none, timer := some (v.timer.getD (frameTime v.phase)) }

/-- A port's test is an entry test in a phase. -/
def State.entryTest (t : State) (p : Port) (ph : TestPhase) : Prop :=
  ∃ v, t.testOf p = some v ∧ v.purpose = .entry ∧ v.phase = ph

/-- From `s` to `t` a port has started at the load's end with its settings: on, it is TESTING and in its
entry test, a link without its line waiting for it; off, it is OFF and empty (R164, R174). -/
def portStarted (p : Port) (on bcast accept : Bool) (s t : State) : Prop :=
  (t.service.get p).bcast = bcast ∧ (t.service.get p).accept = accept ∧
    (on = true → t.serviceOf p = .testing ∧
      t.entryTest p (if s.ready p then .internal else .waitConnect) ∧
      t.loopMode p = (if s.ready p then .internal else .normal) ∧
      (t.service.get p).testNumber = (s.service.get p).testNumber + 1) ∧
    (on = false → t.serviceOf p = .off ∧ t.testOf p = none ∧ t.queues.get p = [] ∧
      t.slots.get p = none)

/-- A line that starts the INIT pulse: RESETTING, its byte and its timers ended, its data lines low
(R136). -/
def LineState.pulsing (v : LineState) : LineState :=
  { v with
    state := .resetting, byteInFlight := false, pendingCause := none, stallCause := none
    ackTimer := none, busyWait := none, retryTimer := none, data := 0, initTimer := some 20 }

/-- A line at the load's end: its mode and hold mask are in force, and a DISABLED line that is enabled
starts the INIT pulse (R144). -/
def LineState.loaded (v : LineState) (enabled rotating : Bool) (mask : BitVec 4) : LineState :=
  let v := { v with rotating := rotating, holdMask := mask }
  if enabled = true ∧ v.state = .disabled then { v.pulsing with enabled := true } else v

/-- A line at CLEAR-ALL: its job, its feed and its timers are gone and its level order is 0, 1, 2, 3; it
starts the INIT pulse unless it is DISABLED, and its settings and its inputs stand (R144). -/
def LineState.cleared (v : LineState) : LineState :=
  let v := { v with
    job := none, takenFrom := none, lowest := 3, byteInFlight := false, pendingCause := none
    stallCause := none, ackTimer := none, busyWait := none, retryTimer := none }
  if v.state = .disabled then v else v.pulsing

/-- A window has just begun: its time is 0 and no port has a count or a mark (R145, R160). -/
def State.windowBegun (t : State) : Prop :=
  t.window = ⟨true, 0, t.config.windowLength⟩ ∧ (∀ x, t.segWin.get x = .zero) ∧
    (∀ l, t.linkWin.get l = .zero) ∧ ∀ p, t.marks.get p = .clear

/-- A counter stands `n` higher, or at its upper bound (R16). -/
def countedUp (c : Counter) (n : Nat) (s t : State) : Prop :=
  t.count c = min Config.counterMax (s.count c + n)

/-- The command that takes a request. -/
def Call.command : Call → Instr
  | .editEntries _ _ => .editEntries
  | .purgeLearned => .purgeLearned
  | .readEntries _ _ => .readEntries
  | .findEntry _ _ => .findEntry
  | .readUnknownLog => .readUnknownLog
  | .readJobs _ _ => .readJobs
  | .holdJob _ => .holdJob
  | .releaseJob _ => .releaseJob
  | .cancelJob _ => .cancelJob
  | .moveJob _ _ _ => .moveJob
  | .flushSpool => .flushSpool
  | .setLine _ _ _ _ => .setLine
  | .resetLine _ => .resetLine
  | .resumeLine _ => .resumeLine
  | .rotateLine _ _ => .rotateLine
  | .peekNext _ => .peekNext
  | .setPort _ _ _ _ => .setPort
  | .restartPort _ => .restartPort
  | .restartInterface _ => .restartInterface
  | .readPorts => .readPorts
  | .loadSteps _ => .loadSteps
  | .startSweep _ => .startSweep
  | .stopSweep => .stopSweep
  | .runStep _ => .runStep
  | .readSweep => .readSweep
  | .readEvents => .readEvents
  | .setEventMask _ => .setEventMask
  | .readCounters _ _ => .readCounters
  | .readConfig => .readConfig
  | .setConfig _ _ => .setConfig
  | .saveImage => .saveImage
  | .clearAll => .clearAll

/-- The state after a request has been answered: the reply is made on the state its work has left, and
the current request is absent (R187, R188). -/
def answered (q : Request) (st : Status) (results : List Byte) (s : State) : State :=
  endCurrent (sendReply q st results s)

/-- Two states are the same but for the frame memory, the flags and the notices, and the counters: what
a frame the part makes may touch (R35, R188, R190). -/
def sameButFrames (s t : State) : Prop :=
  { t with
    pool := s.pool, records := s.records, nextRecord := s.nextRecord, queues := s.queues
    flags := s.flags, noticeOut := s.noticeOut, counters := s.counters } = s

end Sys2Proof.Machine
end

