-- ==== Sys2Proof/Certificates/Slice0/Obligations.lean ====
section
/-! DEFINITION. The statements for the provers. -/

open Sys2Proof Sys2Proof.Machine

/-! ### Steps -/

/-- A step runs the command at the front of the queue on the state with the queue's rest. -/
def Obligations.StepRunsTheFrontCommand : Prop :=
  ∀ (c : Instr) (rest : List Instr) (s : State),
    step { s with pending := c :: rest } = exec c { s with pending := rest }

/-! ### Power, RESET and the start image -/

/-- The state at the release of RESET with nothing on the wires (R17, R32, R51, R121, R144, R174, R197). -/
def Obligations.ResetLeavesTheStatedValues : Prop :=
  (∀ p, (State.reset.service.get p).state = .testing ∧
      ((State.reset.service.get p).test.map PortTest.phase) = some .held ∧
      State.reset.queues.get p = [] ∧ State.reset.slots.get p = none ∧
      (State.reset.service.get p).holdTime = 5 ∧ (State.reset.service.get p).failedTests = 0) ∧
    (∀ x, (State.reset.segs.get x).rx = .idle ∧ (State.reset.segs.get x).tx = .idle ∧
      (State.reset.segs.get x).inFlight = none ∧ (State.reset.segs.get x).attempts = 0 ∧
      (State.reset.segs.get x).loop = .normal ∧ (State.reset.segs.get x).untermSeen = false) ∧
    (∀ l, (State.reset.links.get l).line = .noSignal ∧ (State.reset.links.get l).rx = .idle ∧
      (State.reset.links.get l).tx = .idle ∧ (State.reset.links.get l).inFlight = none) ∧
    (∀ n, (State.reset.lines.get n).state = .disabled) ∧
    State.reset.pool = ⟨1024, 0, 0⟩ ∧ State.reset.records = [] ∧ State.reset.jobs = [] ∧
    State.reset.dir = [(0, Entry.bridgeEntry)] ∧ State.reset.unknownLog = [] ∧
    State.reset.requests = [] ∧ State.reset.current = none ∧ State.reset.save = none ∧
    State.reset.heldReply = none ∧ State.reset.flags = 0 ∧ State.reset.mask = 0xFFFF ∧
    State.reset.noticeOut = false ∧ State.reset.attn = false ∧ State.reset.loading = true ∧
    State.reset.config = .default ∧ ∀ c, State.reset.count c = 0

/-- POWER-ON, RESET low, the release of RESET and a loss of power, in every state. While RESET is low, or
power is off, every block is in its reset state with loading no: what stays are the waiting commands, the
pins and the signals on the wires, the count of free values (the model's own) and the serial memory, which a
save in flight leaves as a failed save does (R17, R32, R121, R144, R174, R195, R197). At power-on with RESET
high, and at the release of RESET with power, loading is yes besides, and each interface reports the signal
of its links as it finds it: a link with signal is in TRAINING (R18, R32, R194). Power-on with RESET low
only brings the reset states (log entry 31); without power RESET is a pin alone (log entry 25); and an event
that finds its pin or power as it would make it changes nothing (log entry 1). -/
def Obligations.ResetAndPowerTakeEveryBlock : Prop :=
  ∀ s : State,
    let inReset : State := { State.reset with
      pending := s.pending, powered := s.powered, resetLow := s.resetLow, commission := s.commission
      choices := s.choices, loading := false
      serial := if s.save.isSome then .failedSave else s.serial
      segs := ⟨.atReset s.segs.a.carrier, .atReset s.segs.b.carrier⟩
      links := ⟨.atReset s.links.l0.lineSignal, .atReset s.links.l1.lineSignal,
        .atReset s.links.l2.lineSignal, .atReset s.links.l3.lineSignal⟩
      lines :=
        ⟨.atReset s.lines.lp1.select s.lines.lp1.paperOut s.lines.lp1.fault s.lines.lp1.busy,
          .atReset s.lines.lp2.select s.lines.lp2.paperOut s.lines.lp2.fault s.lines.lp2.busy⟩ }
    let found (signal : Bool) : LinkPort := { LinkPort.atReset signal with
      signalSeen := signal, line := if signal then .training else .noSignal }
    let released : State := { inReset with
      loading := true
      links := ⟨found s.links.l0.lineSignal, found s.links.l1.lineSignal,
        found s.links.l2.lineSignal, found s.links.l3.lineSignal⟩ }
    (s.powered = true →
      exec .powerOn s = .next s ∧
      exec .powerLoss s = .next { inReset with powered := false } ∧
      (s.resetLow = false → exec .resetAssert s = .next { inReset with resetLow := true } ∧
        exec .resetRelease s = .next s) ∧
      (s.resetLow = true → exec .resetRelease s = .next { released with resetLow := false } ∧
        exec .resetAssert s = .next s)) ∧
    (s.powered = false →
      exec .powerLoss s = .next s ∧
      exec .resetAssert s = .next { s with resetLow := true } ∧
      exec .resetRelease s = .next { s with resetLow := false } ∧
      (s.resetLow = false → exec .powerOn s = .next { released with powered := true }) ∧
      (s.resetLow = true → exec .powerOn s = .next { inReset with powered := true }))

/-- A load at which the memory gives no acknowledge, a later transfer fails, or the check word does not match
loads nothing: every parameter and setting has its default, no entry is loaded, and IMAGE-FAULT is raised
but in the first case. A load of an image whose check word matches puts its configuration, its mask, its sweep
list, interval and enable in force, and each port's and line's settings from their bytes, or the defaults of a
port or a line whose bytes are out of range (all of its settings together: log entry 65). Either way the
window clock starts, every port that is on is TESTING in its entry test and one that is off is OFF, and a
DISABLED line that is enabled starts the INIT pulse. The image's static entries are written at their recorded indexes, each
GOOD with no tally; one whose index or a key of which an entry loaded before it holds is skipped (the index:
log entry 44), and IMAGE-FAULT is raised where one was, or a record was out of range (which bytes are:
log entries 24 and 64), and not where nothing was replaced or skipped (R78, R144, R145, R164, R174, R185,
R194, R203). -/
def Obligations.LoadEndPutsTheImageInForce : Prop :=
  (∀ (r : ImageRead) (s : State), s.active = true → s.loading = true →
    r ≠ .allRead ∨ s.serial.image = none →
    ∃ t, exec (.imageLoadEnd r) s = .next t ∧ t.loading = false ∧ t.config = .default ∧
      t.mask = 0xFFFF ∧ t.sweep.steps = [] ∧ t.sweep.enabled = false ∧ t.sweep.interval = 0 ∧
      t.sweep.timer = none ∧ t.windowBegun ∧ t.dir = s.dir ∧ t.serial = s.serial ∧
      (∀ p, portStarted p true (p.side = .pair) (p.side = .pair) s t) ∧
      (∀ n, t.lines.get n = (s.lines.get n).loaded true false 0) ∧
      (r = .noAcknowledge → t.raised .imageFault = s.raised .imageFault) ∧
      (r ≠ .noAcknowledge → t.raised .imageFault = true)) ∧
  ∀ (s : State) (bs : List Byte), s.active = true → s.loading = true → s.serial.image = some bs →
    ∃ t, exec (.imageLoadEnd .allRead) s = .next t ∧ t.loading = false ∧ t.serial = s.serial ∧
      t.config = (loadConfig ((bs.drop 0x04).take 64)).1 ∧
      t.mask = BitVec.ofNat 16 (wordAt .trunk bs 0x4E) ∧ t.windowBegun ∧
      (∀ p, let b := byteAt bs (0x43 + p.code.toNat)
        (b.toNat < 8 ∧ (p.side = .trunk → b.getLsbD 1 = false) →
          portStarted p (b.getLsbD 0) (b.getLsbD 1) (b.getLsbD 2) s t) ∧
        (8 ≤ b.toNat ∨ p.side = .trunk ∧ b.getLsbD 1 = true →
          portStarted p true (p.side = .pair) (p.side = .pair) s t)) ∧
      (∀ n, let o := 0x48 + 2 * n.code.toNat
        let b := byteAt bs o
        let m := byteAt bs (o + 1)
        (b.toNat < 4 → m.toNat < 16 → t.lines.get n =
          (s.lines.get n).loaded (b.getLsbD 0) (b.getLsbD 1) (m.truncate 4)) ∧
        (4 ≤ b.toNat ∨ 16 ≤ m.toNat → t.lines.get n = (s.lines.get n).loaded true false 0)) ∧
      t.sweep.steps = (loadParts bs).1.steps ∧
      (∀ x ∈ t.sweep.steps, x.result = .notRun ∧ x.fails = 0) ∧
      t.sweep.interval = (if wordAt .trunk bs 0x52 ≤ 3600 then wordAt .trunk bs 0x52 else 0) ∧
      t.sweep.enabled = decide (byteAt bs 0x50 = 1 ∧ t.sweep.interval ≠ 0) ∧
      t.sweep.timer = (if t.sweep.enabled then some t.sweep.interval else none) ∧
      ((loadParts bs).2 = true ∨ none ∈ imageEntries bs ∨ ¬ (imageEntries bs).Nodup ∨
          (∃ i e, some (i, e) ∈ imageEntries bs ∧ s.dir.find i ≠ none) →
        t.raised .imageFault = true) ∧
      (s.directoryOk →
        (∀ i e, s.dir.find i = some e → t.dir.find i = some e) ∧
        (∀ i e, t.dir.find i = some e → s.dir.find i = some e ∨ some (i, e) ∈ imageEntries bs) ∧
        (∀ i e, some (i, e) ∈ imageEntries bs → e.origin = .static ∧ e.saved = e ∧
          (t.dir.find i = some e ∨ t.raised .imageFault = true ∧ ∃ j d, t.dir.find j = some d ∧
            (j = i ∨ (j < i ∨ s.dir.find j = some d) ∧ ∃ k ∈ e.keys, d.holds k = true))) ∧
        ((loadParts bs).2 = false → (imageEntries bs).Nodup →
          (∀ o ∈ imageEntries bs, ∃ i e, o = some (i, e) ∧ s.dir.find i = none ∧
            t.dir.find i = some e) → t.raised .imageFault = s.raised .imageFault))

/-- An image that SAVE-IMAGE has written over a memory reads back with its check word matching, as the
bytes that were written; the configuration a save writes is the configuration a load reads, with nothing
replaced, for every configuration whose parameters are in range; and a STATIC entry whose keys and home are
in range reads back from the record a save writes of it (R78, R189, R194, R195, R201, R203; what counts as out
of range in such a record beside the keys is log entry 64's). -/
def Obligations.SavedImageReadsBack : Prop :=
  (∀ (s : State) (m : Serial), s.savedEntries.length ≤ 255 → s.sweep.steps.length ≤ 32 →
    (m.written s.image).image = some s.image) ∧
  (∀ c : Settings, c.ok →
    loadConfig (configBytes .trunk c ++ zeros (64 - (configBytes .trunk c).length)) = (c, false)) ∧
  ∀ (i : Nat) (e : Entry), 1 ≤ i → i ≤ 255 → e.origin = .static → e.kind ≠ .bridge →
    e.keys ≠ [] → (∀ k ∈ e.keys, k.isStation = true) →
    (∀ t, e.kind = .station t → (t.pinned = true → t.home ≠ none) ∧
      ∀ p, t.home = some p → ∃ k ∈ e.keys, k.side = p.side) →
    loadEntry (entryRecord .trunk i e.saved) = some (i, e.saved)

/-! ### Trunk segments -/

/-- A rise of carrier begins a reception with a new record of one block and one reference; with no block
free no-buffer is counted and the receiver is DISCARDING; the carrier time starts at 0. A whole byte taken
from the coax then adds 1 to the byte count and is placed in the header, the payload or the received frame
check, or is not stored; a full record takes one more block, and with none free the reception is abandoned.
POOL-LOW is raised where a take makes the free count fall through the threshold. In EXTERNAL mode the rise may
be that of the port's own attempt (R1, R2, R11, R15, R34, R39; that every rise then is taken so is log entry
40's). -/
def Obligations.CarrierRiseAndBytesAreTaken : Prop :=
  (∀ (x : Seg) (s : State), s.active = true → (s.segs.get x).carrier = false →
    (s.segs.get x).rx = .idle → (s.segs.get x).tx ≠ .sending ∨ (s.segs.get x).loop = .external →
    (s.segs.get x).loop ≠ .internal → s.serviceOf (.seg x) ≠ .off →
    let u := modSeg x (fun t => { t with carrier := true, carrierTime := 0 }) s
    let v := { u with
      pool := ⟨s.pool.free - 1, s.pool.frameHeld + 1, s.pool.spoolHeld⟩
      records := s.records.put id s.nextRecord ⟨1, [], 1⟩, nextRecord := s.nextRecord + 1 }
    (0 < s.pool.free → exec (.carrierRise x) s = .next (setSegRx x (.receiving ⟨[], 0, [], s.nextRecord, false⟩)
      (if s.pool.free = s.config.poolLow then raise .poolLow v else v))) ∧
    (s.pool.free = 0 → exec (.carrierRise x) s =
      .next (setSegRx x (.discarding false) (bump (.seg x .noBuffer) u)))) ∧
  ∀ (x : Seg) (b : Byte) (s : State) (r : SegReception) (f : FrameRecord), s.active = true →
    r.looped = false → (s.segs.get x).rx = .receiving r → s.records.find r.record = some f →
    let counted := { r with count := r.count + 1 }
    let n := trunkLength r.header
    (r.header.length < 6 → exec (.coaxByte x b) s =
      .next (setSegRx x (.receiving { counted with header := r.header ++ [b] }) s)) ∧
    (6 ≤ r.header.length →
      (1010 < n → exec (.coaxByte x b) s = .next (setSegRx x (.receiving counted) s)) ∧
      (n ≤ 1010 → f.payload.length < n → f.payload.length < 128 * f.blocks →
        exec (.coaxByte x b) s = .next (setSegRx x (.receiving counted) { s with
          records := s.records.put id r.record { f with payload := f.payload ++ [b] } })) ∧
      (n ≤ 1010 → f.payload.length < n → 128 * f.blocks ≤ f.payload.length → s.pool.free = 0 →
        exec (.coaxByte x b) s =
          .next (setSegRx x (.discarding false) (bump (.seg x .noBuffer) (releaseRef r.record s)))) ∧
      (n ≤ 1010 → f.payload.length < n → 128 * f.blocks ≤ f.payload.length → 0 < s.pool.free →
        let v := { s with
          pool := ⟨s.pool.free - 1, s.pool.frameHeld + 1, s.pool.spoolHeld⟩
          records := s.records.put id r.record
            { f with blocks := f.blocks + 1, payload := f.payload ++ [b] } }
        exec (.coaxByte x b) s = .next (setSegRx x (.receiving counted)
          (if s.pool.free = s.config.poolLow then raise .poolLow v else v))) ∧
      (n ≤ 1010 → n ≤ f.payload.length → r.check.length < 2 → exec (.coaxByte x b) s =
        .next (setSegRx x (.receiving { counted with check := r.check ++ [b] }) s)) ∧
      (n ≤ 1010 → n ≤ f.payload.length → 2 ≤ r.check.length → exec (.coaxByte x b) s =
        .next (setSegRx x (.receiving counted) s)))

/-- A fall of carrier clears STUCK and ends the reception from the coax: a good frame is counted and handed
to the forwarding engine with its record; one that ends runt, header-bad, length-bad or body-bad is thrown
away and counted. Where the window clock runs, the port is not OFF and no threshold is near, that outcome
enters the window's counts, and a length-bad or body-bad one is laid to its source key; in OFF and before
the clock runs nothing more is done (R3, R4, R5, R11, R145, R146, R150; that a reception begun before the
port went OFF is counted and not reported is log entry 42's). -/
def Obligations.CarrierFallEndsTheReception : Prop :=
  ∀ (x : Seg) (s : State) (r : SegReception), s.active = true → s.resultWaits = false →
    (s.segs.get x).carrier = true → (s.segs.get x).rx = .receiving r → r.looped = false →
    let h := readTrunkHeader r.header
    let outcome := classifySeg r (s.payload r.record)
    let u := modSeg x (fun t => { t with
      carrier := false, carrierTime := 0, stuck := false, heldTimer := none, heldSent := false
      rx := .idle }) s
    (outcome = .good → exec (.carrierFall x) s =
      .next (handOver (.seg x) h r.record (bump (.seg x .good) u))) ∧
    (∀ c : SegCount,
      outcome = .runt ∧ c = .runts ∨ outcome = .headerBad ∧ c = .headerBad ∨
        outcome = .lengthBad ∧ c = .lengthBad ∨ outcome = .bodyBad ∧ c = .bodyBad →
      s.window.running = false ∨ s.serviceOf (.seg x) = .off →
      exec (.carrierFall x) s = .next (bump (.seg x c) (releaseRef r.record u))) ∧
    (s.window.running = true → s.serviceOf (.seg x) ≠ .off →
      s.errorSum (.seg x) + 1 < halfUp s.config.segThreshold →
      let thrown (c : SegCount) (w : SegWindow) : State :=
        { bump (.seg x c) (releaseRef r.record u) with segWin := s.segWin.set x w }
      let w := s.segWin.get x
      (outcome = .runt → exec (.carrierFall x) s =
        .next (thrown .runts { w with runts := windowUp w.runts })) ∧
      (outcome = .headerBad → exec (.carrierFall x) s =
        .next (thrown .headerBad { w with headerBad := windowUp w.headerBad })) ∧
      (outcome = .lengthBad → exec (.carrierFall x) s =
        .next (laidTo h.src (thrown .lengthBad { w with lengthBad := windowUp w.lengthBad }))) ∧
      (outcome = .bodyBad → exec (.carrierFall x) s =
        .next (laidTo h.src (thrown .bodyBad { w with bodyBad := windowUp w.bodyBad }))))

/-- The five outcomes of a segment reception and the four of a link reception, by the first test that
applies (R3, R23). -/
def Obligations.ReceptionsAreClassifiedInOrder : Prop :=
  (∀ (r : SegReception) (payload : List Byte),
    (r.count < 6 → classifySeg r payload = .runt) ∧
    (6 ≤ r.count → byteSum r.header ≠ 0xA5 → classifySeg r payload = .headerBad) ∧
    (6 ≤ r.count → byteSum r.header = 0xA5 →
      (1010 < trunkLength r.header ∨ r.count ≠ 6 + trunkLength r.header + 2 →
        classifySeg r payload = .lengthBad) ∧
      (trunkLength r.header ≤ 1010 → r.count = 6 + trunkLength r.header + 2 →
        (r.check ≠ Side.trunk.word (crc16 (r.header ++ payload)).toNat →
          classifySeg r payload = .bodyBad) ∧
        (r.check = Side.trunk.word (crc16 (r.header ++ payload)).toNat →
          classifySeg r payload = .good)))) ∧
  ∀ r : LinkReception,
    (r.symbolError = true → classifyLink r = .symbolError) ∧
    (r.symbolError = false →
      (r.count < 11 ∨ r.last ≠ Side.pair.long (~~~ r.crc).toNat → classifyLink r = .checkBad) ∧
      (11 ≤ r.count → r.last = Side.pair.long (~~~ r.crc).toNat →
        (1472 < officeLength r.header ∨ r.count ≠ 7 + officeLength r.header + 4 →
          classifyLink r = .lengthBad) ∧
        (officeLength r.header ≤ 1472 → r.count = 7 + officeLength r.header + 4 →
          classifyLink r = .good)))

/-- A frame that a segment or a link drives is good where it is received whole, the link's check run over
its bytes one after another, and its header reads back: no bit of it is dropped (R3, R6, R22, R23, R25,
R198). -/
def Obligations.DrivenFramesAreReceivedGood : Prop :=
  (∀ (d n : Node) (kind : Byte) (payload : List Byte) (rid : Nat), payload.length ≤ 1010 →
    let h : Header := ⟨.node d, .node n, kind, payload.length⟩
    let w := trunkFrame h payload
    readTrunkHeader (w.take 6) = h ∧ (w.drop 6).take payload.length = payload ∧
      classifySeg ⟨w.take 6, w.length, w.drop (6 + payload.length), rid, false⟩ payload = .good) ∧
  ∀ (d n : Address) (kind : Byte) (payload : List Byte) (rid : Nat), payload.length ≤ 1472 →
    let h : Header := ⟨.address d, .address n, kind, payload.length⟩
    let w := officeFrame h payload
    let r := w.foldl LinkReception.roll ⟨w.take 7, w.length, crc32Start, [], rid, false, false⟩
    readOfficeHeader (w.take 7) = h ∧ (w.drop 7).take payload.length = payload ∧
      r.header = w.take 7 ∧ classifyLink r = .good

/-- An IDLE transmitter of an IN-SERVICE segment takes the queue head and defers, with the transmission's
reference on its record; after 0.2 ms of quiet it drives the wire frame, and while the port is in any
other state it starts no attempt. An attempt that drives the last check byte ends as sent: it is counted,
the two references are released, the head leaves its queue and the transmitter is IDLE. In INTERNAL and
EXTERNAL mode, whatever the service state, it takes the TEST frame in its slot instead. In EXTERNAL mode that
frame defers and is driven as a head is. In INTERNAL mode its attempt begins at once, with its own reception in
a new record, or DISCARDING where no block is free. As sent it is counted, its references are released and its
slot is empty, or has the fresh frame that waited for it; and in INTERNAL mode its own reception has taken every
byte and hands the frame over good, or its DISCARDING ends (R1, R3, R4, R6, R7, R8, R14, R15, R44, R45, R162;
when the own reception takes its bytes and when DISCARDING ends are log entries 30 and 38). -/
def Obligations.SegmentSendsItsQueueHead : Prop :=
  (∀ (x : Seg) (s : State) (e : QueueEntry) (es : List QueueEntry), s.active = true →
    s.serviceOf (.seg x) = .inService → (s.segs.get x).loop = .normal →
    s.queues.get (.seg x) = e :: es →
    ((s.segs.get x).tx = .idle → exec (.segmentTakeFrame x) s = .next (addRef e.record
      (modSeg x (fun t => { t with inFlight := some .head, attempts := 0, tx := .deferring }) s))) ∧
    ((s.segs.get x).tx = .deferring → (s.segs.get x).inFlight = some .head →
      (s.segs.get x).carrier = false → exec (.deferQuiet x) s = .next (modSeg x (fun t => { t with
        tx := .sending, wire := trunkFrame e.header (s.payload e.record), untermSeen := false }) s))) ∧
  (∀ (x : Seg) (s : State),
    ((s.segs.get x).carrier = true → exec (.deferQuiet x) s = .next s) ∧
    (s.serviceOf (.seg x) ≠ .inService → (s.segs.get x).inFlight = some .head →
      exec (.deferQuiet x) s = .next s) ∧
    ((s.segs.get x).tx ≠ .idle ∨
        (s.segs.get x).loop = .normal ∧
          (s.serviceOf (.seg x) ≠ .inService ∨ s.queues.get (.seg x) = []) ∨
        (s.segs.get x).loop ≠ .normal ∧ s.slots.get (.seg x) = none →
      exec (.segmentTakeFrame x) s = .next s)) ∧
  (∀ (x : Seg) (s : State) (e : QueueEntry) (es : List QueueEntry), s.active = true →
    s.resultWaits = false → (s.segs.get x).tx = .sending → (s.segs.get x).loop = .normal →
    (s.segs.get x).inFlight = some .head → s.queues.get (.seg x) = e :: es →
    ∃ t, exec (.segmentSent x) s = .next t ∧ t.queues.get (.seg x) = es ∧
      (t.segs.get x).tx = .idle ∧ (t.segs.get x).inFlight = none ∧ (t.segs.get x).attempts = 0 ∧
      countedUp (.seg x .sent) 1 s t ∧
      t.records = (releaseRef e.record (releaseRef e.record s)).records ∧
      (∀ p, p ≠ .seg x → t.queues.get p = s.queues.get p)) ∧
  ∀ (x : Seg) (s : State) (rid : Nat), s.active = true → s.slots.get (.seg x) = some rid →
    let v := s.segs.get x
    let h : Header := ⟨.node 254, .node 254, kindTest, (s.payload rid).length⟩
    let wire := trunkFrame h (s.payload rid)
    (v.tx = .idle →
      (v.loop = .external → exec (.segmentTakeFrame x) s = .next (addRef rid
        (modSeg x (fun t => { t with inFlight := some .test, attempts := 0, tx := .deferring }) s))) ∧
      (v.loop = .internal →
        let taken := addRef rid (modSeg x (fun t => { t with
          inFlight := some .test, attempts := 0, tx := .sending, wire := wire, untermSeen := false }) s)
        (v.rx ≠ .idle → exec (.segmentTakeFrame x) s = .next taken) ∧
        (v.rx = .idle → s.pool.free = 0 → exec (.segmentTakeFrame x) s =
          .next (setSegRx x (.discarding true) (bump (.seg x .noBuffer) taken))) ∧
        (v.rx = .idle → 0 < s.pool.free → exec (.segmentTakeFrame x) s =
          .next (setSegRx x (.receiving ⟨[], 0, [], s.nextRecord, true⟩) (recordTaken taken))))) ∧
    (v.inFlight = some .test →
      (v.tx = .deferring → v.carrier = false → exec (.deferQuiet x) s =
        .next (modSeg x (fun t => { t with tx := .sending, wire := wire, untermSeen := false }) s)) ∧
      (s.resultWaits = false → v.tx = .sending →
        let u := modSeg x SegPort.txIdle (releaseRef rid (bump (.seg x .sent) s))
        let ended := releaseRef rid { u with slots := u.slots.set (.seg x) none }
        ((∀ w, s.testOf (.seg x) = some w → w.wait ≠ .slot) →
          (v.loop ≠ .internal ∨ v.rx.own = false → exec (.segmentSent x) s = .next ended) ∧
          (v.loop = .internal → v.rx = .discarding true →
            exec (.segmentSent x) s = .next (setSegRx x .idle ended)) ∧
          (∀ r, v.loop = .internal → v.rx = .receiving ⟨[], 0, [], r, true⟩ → v.wire = wire →
            (s.payload rid).length ≤ 128 → s.records.find r = some ⟨1, [], 1⟩ → r ≠ rid →
            ∃ t, exec (.segmentSent x) s = .next t ∧ (t.segs.get x).tx = .idle ∧
              (t.segs.get x).inFlight = none ∧ (t.segs.get x).rx = .idle ∧
              t.slots.get (.seg x) = none ∧ t.payload r = s.payload rid ∧
              t.handover.get (.seg x) = s.handover.get (.seg x) ++ [⟨h, r⟩] ∧
              countedUp (.seg x .sent) 1 s t ∧ countedUp (.seg x .good) 1 s t)) ∧
        (∀ w, s.testOf (.seg x) = some w → w.wait = .slot → w.phase.sends = true → 0 < s.pool.free →
          v.loop ≠ .internal ∨ v.rx.own = false →
          ∃ t, exec (.segmentSent x) s = .next t ∧ freshTest (.seg x) w s t ∧
            (t.segs.get x).tx = .idle ∧ (t.segs.get x).inFlight = none ∧
            countedUp (.seg x .sent) 1 s t)))

/-- A collision of a queue head's attempts 1 to 7 waits for as many milliseconds as attempts have
collided, and is then sent again; the 8th drops the frame, and where no threshold is near its report only
enters the window's counts. The expiry of the retry wait defers again. A TEST frame has one attempt: its
collision is counted and no drop is, nothing is reported to the fault monitor, the frame leaves its slot, and
a test in progress places a fresh frame there at once, whose time runs on. In INTERNAL mode the coax has no
collision for it (R9, R10, R15, R44, R45, R146, R162). -/
def Obligations.CollisionRetriesThenDrops : Prop :=
  ∀ (x : Seg) (s : State), s.active = true → s.resultWaits = false →
    let v := s.segs.get x
    (v.tx = .sending → v.loop = .normal → v.inFlight = some .head →
      (v.attempts < 7 → exec (.collision x) s = .next (modSeg x (fun t => { t with
        tx := .retryWait, attempts := v.attempts + 1
        retryTimer := some (v.attempts + 1), wire := [], untermSeen := false })
        (bump (.seg x .collisions) s))) ∧
      (v.attempts = 7 → s.window.running = true →
        s.errorSum (.seg x) + 1 < halfUp s.config.segThreshold → ∃ t, exec (.collision x) s = .next t ∧
        (t.segs.get x).tx = .idle ∧ (t.segs.get x).inFlight = none ∧ (t.segs.get x).attempts = 0 ∧
        t.queues.get (.seg x) = (s.queues.get (.seg x)).tail ∧
        t.serviceOf (.seg x) = s.serviceOf (.seg x) ∧
        (t.segWin.get x).collisionDrops = windowUp (s.segWin.get x).collisionDrops ∧
        countedUp (.seg x .collisions) 1 s t ∧ countedUp (.seg x .collisionDrops) 1 s t)) ∧
    (v.tx = .sending → v.loop = .external → v.inFlight = some .test →
      ∀ rid, s.slots.get (.seg x) = some rid →
      let u := modSeg x SegPort.txIdle (releaseRef rid (bump (.seg x .collisions) s))
      (s.testOf (.seg x) = none → exec (.collision x) s =
        .next (releaseRef rid { u with slots := u.slots.set (.seg x) none })) ∧
      (∀ w, s.testOf (.seg x) = some w → w.phase.sends = true → 0 < s.pool.free →
        ∃ t, exec (.collision x) s = .next t ∧ freshTest (.seg x) w s t ∧
          (t.segs.get x).tx = .idle ∧ (t.segs.get x).inFlight = none ∧ (t.segs.get x).attempts = 0 ∧
          t.segWin = s.segWin ∧ countedUp (.seg x .collisions) 1 s t ∧
          t.count (.seg x .collisionDrops) = s.count (.seg x .collisionDrops))) ∧
    (v.tx = .retryWait → exec (.retryWaitExpiry x) s =
      .next (modSeg x (fun t => { t with tx := .deferring, retryTimer := none }) s)) ∧
    (v.tx ≠ .sending ∨ v.loop = .internal → exec (.collision x) s = .next s)

/-- Carrier held 6 ms makes the line STUCK, counted, entered in the window's counts and awaiting STUCK-HELD,
and a reception in progress is abandoned; in OFF it is neither counted nor reported; in the EXTERNAL phase
of an entry test it fails the test. A STUCK held for 50 ms, and REFL found high in an attempt, ask for the
isolation of an IN-SERVICE segment with cause LINE, once for each occurrence and each attempt (R11, R12,
R146, R148, R164, R167). That the purge is taken with the UNTERMINATED, before the attempt's last byte, is
the model's choice (log entry 54), and that a STUCK-HELD is not followed by a judging (log entry 56). -/
def Obligations.StuckAndUnterminatedAreReported : Prop :=
  (∀ (x : Seg) (s : State), s.active = true → s.resultWaits = false →
    (s.segs.get x).carrier = true → (s.segs.get x).stuck = false →
    s.serviceOf (.seg x) = .off ∨
      s.window.running = true ∧ s.errorSum (.seg x) < s.config.segThreshold →
    ((s.segs.get x).loop ≠ .external ∨ s.serviceOf (.seg x) = .off →
      ∃ t, exec (.stuck x) s = .next t ∧ (t.segs.get x).stuck = true ∧
        6 ≤ (t.segs.get x).carrierTime ∧
        (∀ r, (s.segs.get x).rx = .receiving r → (t.segs.get x).rx = .discarding false ∧
          t.records = (releaseRef r.record s).records) ∧
        t.serviceOf (.seg x) = s.serviceOf (.seg x) ∧
        (s.serviceOf (.seg x) = .off → t.counters = s.counters ∧ t.segWin = s.segWin) ∧
        (s.serviceOf (.seg x) ≠ .off → (t.segs.get x).heldTimer = some 50 ∧
          (t.segWin.get x).stuck = windowUp (s.segWin.get x).stuck ∧
          t.count (.seg x .stuck) = min Config.counterMax (s.count (.seg x .stuck) + 1))) ∧
    (∀ v, (s.segs.get x).loop = .external → s.serviceOf (.seg x) = .testing → s.heldReply = none →
      s.testOf (.seg x) = some v → v.purpose = .entry → v.phase = .external →
      ∃ t, exec (.stuck x) s = .next t ∧ (t.segs.get x).stuck = true ∧
        t.serviceOf (.seg x) = .isolated ∧ (t.service.get (.seg x)).cause = some .test ∧
        t.testOf (.seg x) = none)) ∧
  ∀ (x : Seg) (s : State), s.active = true → s.resultWaits = false → s.window.running = true →
    s.serviceOf (.seg x) = .inService → s.heldReply = none →
    ((s.segs.get x).stuck = true → (s.segs.get x).heldTimer.isSome = true →
      ∃ t, exec (.stuckHeld x) s = .next t ∧ (t.segs.get x).heldTimer = none ∧
        t.serviceOf (.seg x) = .isolated ∧ (t.service.get (.seg x)).cause = some .line ∧
        t.queues.get (.seg x) = [] ∧ t.raised .portIsolated = true) ∧
    ((s.segs.get x).tx = .sending → (s.segs.get x).loop = .normal →
      (s.segs.get x).untermSeen = false → s.errorSum (.seg x) < s.config.segThreshold →
      ∃ t, exec (.unterminated x) s = .next t ∧ t.serviceOf (.seg x) = .isolated ∧
        (t.service.get (.seg x)).cause = some .line ∧ t.queues.get (.seg x) = [] ∧
        (t.segs.get x).tx = .idle ∧
        t.count (.seg x .unterminated) =
          min Config.counterMax (s.count (.seg x .unterminated) + 1)) ∧
    ((s.segs.get x).untermSeen = true → exec (.unterminated x) s = .next s)

/-! ### Pair links and line interfaces -/

/-- Signal present and the retrain pause's end bring a NO-SIGNAL link of a RUNNING interface to TRAINING;
in CLOCK-HOLD the report is ignored; trained brings TRAINING to CONNECTED and begins the test of a link
that waits for it; training that lasts 2 s is a failure with a pause of 1 s; a signal lost before the link
was connected is no flap (R18, R19, R29). -/
def Obligations.SignalAndTrainingMoveTheLine : Prop :=
  ∀ (l : Link) (s : State), s.active = true → s.resultWaits = false →
    (s.held l = true → exec (.signalPresent l) s =
      .next (modLink l (fun t => { t with lineSignal := true }) s)) ∧
    (s.held l = false → (s.links.get l).line = .noSignal ∧ (s.links.get l).retrainPause = none →
      exec (.signalPresent l) s = .next (modLink l (fun t => { t with
        lineSignal := true, signalSeen := true, line := .training, trainingTime := 0 }) s)) ∧
    (s.held l = false → ¬ ((s.links.get l).line = .noSignal ∧ (s.links.get l).retrainPause = none) →
      exec (.signalPresent l) s =
        .next (modLink l (fun t => { t with lineSignal := true, signalSeen := true }) s)) ∧
    (s.held l = false → (s.links.get l).line = .noSignal → (s.links.get l).signalSeen = true →
      (s.links.get l).retrainPause.isSome = true → exec (.retrainPauseExpiry l) s =
        .next (modLink l (fun t => { t with
          retrainPause := none, line := .training, trainingTime := 0 }) s)) ∧
    (s.held l = false → (s.links.get l).line = .training → s.serviceOf (.link l) ≠ .testing →
      exec (.trained l) s = .next (modLink l (fun t => { t with line := .connected }) s)) ∧
    (s.held l = false → (s.links.get l).line = .training → s.serviceOf (.link l) = .testing →
      ((s.testOf (.link l)).map PortTest.phase) = some .waitConnect →
      ∃ t, exec (.trained l) s = .next t ∧ (t.links.get l).line = .connected ∧
        (t.links.get l).loop = .internal ∧ ((t.testOf (.link l)).map PortTest.phase) = some .internal ∧
        ((t.testOf (.link l)).map PortTest.sequence) = some 1) ∧
    ((s.links.get l).line = .training → exec (.trainingTimeout l) s =
      .next (bump (.link l .trainingFailures) (modLink l (fun t => { t with
        line := .noSignal, retrainPause := some 1000 }) s))) ∧
    ((s.links.get l).line ≠ .connected → exec (.signalLost l) s = .next (modLink l (fun t => { t with
        lineSignal := false, signalSeen := false, line := .noSignal }) s)) ∧
    ((s.links.get l).line ≠ .training → exec (.trained l) s = .next s)

/-- A CONNECTED link that loses its signal becomes NO-SIGNAL and its reception is abandoned. In OFF nothing
is counted; in any other state its flap is. ISOLATED and FAILED stay. An IN-SERVICE or PROBING link's queue is
purged, and it is TESTING, or ISOLATED where the flap's own request is taken first; where no threshold is
reached it is TESTING, its entry test waits for the connection, and the purge is counted as LINK-LOSS. In
PROBING the sweep's loop ends with FAIL, and in a RUN-STEP below the fail limit that is all the sweep does. A
test in progress in TESTING is abandoned and begun afresh, to wait for the connection, with no failed test
counted; that a HELD one stays HELD is log entry 16's (R20, R24, R46, R163, R164, R166 to R170, R181). -/
def Obligations.ConnectionLossIsTaken : Prop :=
  ∀ (l : Link) (s : State), s.active = true → s.resultWaits = false →
    (s.links.get l).line = .connected →
    let p := Port.link l
    let st := s.serviceOf p
    let lossCount := Counter.queue p .purgedLinkLoss
    ∃ t, exec (.signalLost l) s = .next t ∧ (t.links.get l).line = .noSignal ∧
      (t.links.get l).signalSeen = false ∧
      ((s.links.get l).rx.looping = false → (t.links.get l).rx = .idle) ∧
      (st = .off → t.serviceOf p = .off ∧ t.count (.link l .flaps) = s.count (.link l .flaps)) ∧
      (st ≠ .off → countedUp (.link l .flaps) 1 s t) ∧
      (st = .isolated ∨ st = .failed → t.serviceOf p = st) ∧
      (st = .inService ∨ st = .probing → t.queues.get p = [] ∧
        (t.serviceOf p = .testing ∨ t.serviceOf p = .isolated) ∧
        (s.window.running = false ∨ s.errorSum p < s.config.linkThreshold ∧
            s.flapCount p + 1 < s.config.flapLimit →
          t.serviceOf p = .testing ∧ t.entryTest p .waitConnect ∧
          (t.service.get p).testNumber = (s.service.get p).testNumber + 1 ∧
          (s.queues.get p ≠ [] → s.inFlight p ≠ some .test →
            countedUp lossCount (s.queues.get p).length s t))) ∧
      (∀ v n k x, st = .probing → s.testOf p = some v → v.purpose = .probe →
        s.sweep.outstanding = some (.loop n k none) → s.sweep.run = some ⟨.single, n⟩ →
        s.sweep.passWaiting = false → s.sweep.step n = some x → x.fails + 1 < x.failLimit →
        t.sweep.step n = some { x with result := .fail, fails := x.fails + 1 } ∧
        t.sweep.run = none ∧ t.sweep.outstanding = none ∧ t.loopMode p = .normal ∧
        t.slots.get p = none ∧ countedUp (.service p .probesFail) 1 s t ∧
        (t.serviceOf p = .testing → t.entryTest p .waitConnect) ∧
        (t.serviceOf p = .isolated → t.testOf p = none)) ∧
      ∀ v, st = .testing → s.testOf p = some v → t.serviceOf p = .testing ∧
        (v.phase = .held → t.testOf p = some v) ∧
        (v.phase ≠ .held → t.entryTest p .waitConnect ∧ t.loopMode p = .normal ∧
          t.slots.get p = none ∧ (t.service.get p).testNumber = (s.service.get p).testNumber + 1 ∧
          (t.service.get p).failedTests = (s.service.get p).failedTests ∧
          countedUp (.service p .testsAbandoned) 1 s t)

/-- A frame start begins a reception with a new record of one block; the bytes that follow enter the
running check and the last four, and stand in the header, in the payload, or nowhere; a full record takes
one more block; with no block free no-buffer is counted and the receiver is DISCARDING (R21, R22, R34,
R39). -/
def Obligations.FrameStartAndBytesAreTaken : Prop :=
  ∀ (l : Link) (s : State), s.active = true → s.resultWaits = false → s.held l = false →
    ((s.links.get l).rx = .idle → (s.links.get l).line = .connected → s.serviceOf (.link l) ≠ .off →
      (s.links.get l).loop ≠ .internal →
      let v := { s with
        pool := ⟨s.pool.free - 1, s.pool.frameHeld + 1, s.pool.spoolHeld⟩
        records := s.records.put id s.nextRecord ⟨1, [], 1⟩, nextRecord := s.nextRecord + 1 }
      (0 < s.pool.free → exec (.frameStart l) s =
        .next (setLinkRx l (.receiving ⟨[], 0, crc32Start, [], s.nextRecord, false, false⟩)
          (if s.pool.free = s.config.poolLow then raise .poolLow v else v))) ∧
      (s.pool.free = 0 → exec (.frameStart l) s =
        .next (setLinkRx l (.discarding false) (bump (.link l .noBuffer) s)))) ∧
    ((s.links.get l).rx = .idle →
      (s.links.get l).line ≠ .connected ∨ s.serviceOf (.link l) = .off ∨
        (s.links.get l).loop = .internal →
      exec (.frameStart l) s = .next s) ∧
    (∀ (b : Byte) (r : LinkReception) (f : FrameRecord), (s.links.get l).rx = .receiving r →
      r.looped = false → s.records.find r.record = some f →
      let counted := { r.roll b with count := r.count + 1 }
      let n := officeLength r.header
      (r.header.length < 7 → exec (.linkByte l b) s =
        .next (setLinkRx l (.receiving { counted with header := r.header ++ [b] }) s)) ∧
      (7 ≤ r.header.length →
        (1472 < n ∨ n ≤ f.payload.length → exec (.linkByte l b) s =
          .next (setLinkRx l (.receiving counted) s)) ∧
        (n ≤ 1472 → f.payload.length < n → f.payload.length < 128 * f.blocks →
          exec (.linkByte l b) s = .next (setLinkRx l (.receiving counted) { s with
            records := s.records.put id r.record { f with payload := f.payload ++ [b] } })) ∧
        (n ≤ 1472 → f.payload.length < n → 128 * f.blocks ≤ f.payload.length → s.pool.free = 0 →
          exec (.linkByte l b) s =
            .next (setLinkRx l (.discarding false) (bump (.link l .noBuffer) (releaseRef r.record s)))) ∧
        (n ≤ 1472 → f.payload.length < n → 128 * f.blocks ≤ f.payload.length → 0 < s.pool.free →
          let v := { s with
            pool := ⟨s.pool.free - 1, s.pool.frameHeld + 1, s.pool.spoolHeld⟩
            records := s.records.put id r.record
              { f with blocks := f.blocks + 1, payload := f.payload ++ [b] } }
          exec (.linkByte l b) s = .next (setLinkRx l (.receiving counted)
            (if s.pool.free = s.config.poolLow then raise .poolLow v else v)))))

/-- A symbol error is counted, and marks a reception in progress. A frame end ends the reception from the
line: a good frame is counted and handed to the forwarding engine with its record; a bad one is thrown away
and counted. Where the window clock runs and no threshold is near, each enters the window's counts, and a
length-bad frame is laid to its source key; before the clock runs, and at the end of a reception in OFF,
nothing more is done. A receiver in DISCARDING returns to IDLE (R21, R22, R23, R24, R145, R147, R150; that
a reception begun before the link went OFF is counted and not reported is log entry 42's). -/
def Obligations.SymbolErrorsAndFrameEndsAreTaken : Prop :=
  (∀ (l : Link) (s : State), s.active = true → s.resultWaits = false → s.held l = false →
    s.window.running = false →
    (∀ r, (s.links.get l).rx = .receiving r → exec (.symbolError l) s =
      .next (bump (.link l .symbolErrors) (setLinkRx l (.receiving { r with symbolError := true }) s))) ∧
    ((s.links.get l).rx = .idle ∨ (∃ b, (s.links.get l).rx = .discarding b) → exec (.symbolError l) s =
      .next (bump (.link l .symbolErrors) s))) ∧
  (∀ (l : Link) (s : State), s.active = true → s.resultWaits = false → s.held l = false →
    s.window.running = true → s.errorSum (.link l) + 1 < halfUp s.config.linkThreshold →
    let w := s.linkWin.get l
    let counted := { bump (.link l .symbolErrors) s with
      linkWin := s.linkWin.set l { w with symbolErrors := windowUp w.symbolErrors } }
    (∀ r, (s.links.get l).rx = .receiving r → exec (.symbolError l) s =
      .next (setLinkRx l (.receiving { r with symbolError := true }) counted)) ∧
    ((s.links.get l).rx = .idle ∨ (∃ b, (s.links.get l).rx = .discarding b) →
      exec (.symbolError l) s = .next counted)) ∧
  ∀ (l : Link) (s : State), s.active = true → s.resultWaits = false →
    ((s.links.get l).rx = .idle → exec (.frameEnd l) s = .next s) ∧
    (∀ b, (s.links.get l).rx = .discarding b → exec (.frameEnd l) s = .next (setLinkRx l .idle s)) ∧
    (∀ r, (s.links.get l).rx = .receiving r → r.looped = false →
      let h := readOfficeHeader r.header
      (classifyLink r = .good → exec (.frameEnd l) s =
        .next (handOver (.link l) h r.record (bump (.link l .good) (setLinkRx l .idle s)))) ∧
      (∀ c : LinkCount, s.window.running = false ∨ s.serviceOf (.link l) = .off →
        (classifyLink r = .symbolError ∧ c = .symbolErrorFrames ∨
          classifyLink r = .checkBad ∧ c = .checkBad ∨
          classifyLink r = .lengthBad ∧ c = .lengthBad) →
        exec (.frameEnd l) s =
          .next (bump (.link l c) (releaseRef r.record (setLinkRx l .idle s)))) ∧
      (s.window.running = true → s.serviceOf (.link l) ≠ .off →
        s.errorSum (.link l) + 1 < halfUp s.config.linkThreshold →
        let thrown (c : LinkCount) (w : LinkWindow) : State :=
          { bump (.link l c) (releaseRef r.record (setLinkRx l .idle s)) with
            linkWin := s.linkWin.set l w }
        let w := s.linkWin.get l
        (classifyLink r = .symbolError → exec (.frameEnd l) s = .next (thrown .symbolErrorFrames
          { w with symbolErrorFrames := windowUp w.symbolErrorFrames })) ∧
        (classifyLink r = .checkBad → exec (.frameEnd l) s =
          .next (thrown .checkBad { w with checkBad := windowUp w.checkBad })) ∧
        (classifyLink r = .lengthBad → exec (.frameEnd l) s =
          .next (laidTo h.src (thrown .lengthBad w)))))

/-- An IDLE transmitter of an IN-SERVICE, CONNECTED link takes the queue head and drives its wire frame at
once; the last check byte ends it as sent, the head leaves the queue and the gap begins; after the gap the
transmitter is IDLE, whatever is left in the queue. A link that is not CONNECTED takes nothing from its queue.
In INTERNAL mode, whatever the line and the service state, and in EXTERNAL mode while it is CONNECTED, it takes
the TEST frame in its slot instead. In INTERNAL mode its own reception begins with it, in a new record, or
DISCARDING where no block is free. As sent the frame is counted, its references are released, its slot is empty,
or has the fresh frame that waited for it, and the gap begins; and in INTERNAL mode its own reception has taken
every byte and hands the frame over good, or its DISCARDING ends (R21, R23 to R27, R44, R45, R162; when the
own reception takes its bytes and when DISCARDING ends are log entries 30 and 38). -/
def Obligations.LinkSendsItsQueueHead : Prop :=
  (∀ (l : Link) (s : State) (e : QueueEntry) (es : List QueueEntry), s.active = true →
    s.resultWaits = false → (s.links.get l).loop = .normal → s.queues.get (.link l) = e :: es →
    ((s.links.get l).tx = .idle → s.serviceOf (.link l) = .inService →
      (s.links.get l).line = .connected → exec (.linkTakeFrame l) s = .next (addRef e.record
        (modLink l (fun t => { t with
          inFlight := some .head, tx := .sending, wire := officeFrame e.header (s.payload e.record) }) s))) ∧
    ((s.links.get l).tx = .sending → (s.links.get l).inFlight = some .head →
      ∃ t, exec (.linkSent l) s = .next t ∧ t.queues.get (.link l) = es ∧
        (t.links.get l).tx = .gap ∧ (t.links.get l).inFlight = none ∧
        countedUp (.link l .sent) 1 s t ∧
        t.records = (releaseRef e.record (releaseRef e.record s)).records ∧
        (∀ p, p ≠ .link l → t.queues.get p = s.queues.get p))) ∧
  (∀ (l : Link) (s : State), s.active = true →
    ((s.links.get l).tx = .gap → exec (.gapExpiry l) s =
      .next (modLink l (fun t => { t with tx := .idle }) s)) ∧
    ((s.links.get l).tx ≠ .gap → exec (.gapExpiry l) s = .next s) ∧
    ((s.links.get l).tx ≠ .idle ∨
        (s.links.get l).loop = .normal ∧ (s.serviceOf (.link l) ≠ .inService ∨
          (s.links.get l).line ≠ .connected ∨ s.queues.get (.link l) = []) ∨
        (s.links.get l).loop = .external ∧ (s.links.get l).line ≠ .connected ∨
        (s.links.get l).loop ≠ .normal ∧ s.slots.get (.link l) = none →
      exec (.linkTakeFrame l) s = .next s)) ∧
  ∀ (l : Link) (s : State) (rid : Nat), s.active = true → s.slots.get (.link l) = some rid →
    let v := s.links.get l
    let h : Header := ⟨.address 0xFFFE, .address 0xFFFE, kindTest, (s.payload rid).length⟩
    let wire := officeFrame h (s.payload rid)
    (v.tx = .idle →
      let taken := addRef rid (modLink l (fun t => { t with
        inFlight := some .test, tx := .sending, wire := wire }) s)
      (v.loop = .external → v.line = .connected → exec (.linkTakeFrame l) s = .next taken) ∧
      (v.loop = .internal →
        (v.rx ≠ .idle → exec (.linkTakeFrame l) s = .next taken) ∧
        (v.rx = .idle → s.pool.free = 0 → exec (.linkTakeFrame l) s =
          .next (setLinkRx l (.discarding true) (bump (.link l .noBuffer) taken))) ∧
        (v.rx = .idle → 0 < s.pool.free → exec (.linkTakeFrame l) s = .next (setLinkRx l
          (.receiving ⟨[], 0, crc32Start, [], s.nextRecord, false, true⟩) (recordTaken taken))))) ∧
    (v.inFlight = some .test → s.resultWaits = false → v.tx = .sending →
      let u := modLink l LinkPort.txIdle (releaseRef rid (bump (.link l .sent) s))
      let ended := modLink l (fun t => { t with tx := .gap })
        (releaseRef rid { u with slots := u.slots.set (.link l) none })
      ((∀ w, s.testOf (.link l) = some w → w.wait ≠ .slot) →
        (v.loop ≠ .internal ∨ v.rx.own = false → exec (.linkSent l) s = .next ended) ∧
        (v.loop = .internal → v.rx = .discarding true →
          exec (.linkSent l) s = .next (setLinkRx l .idle ended)) ∧
        (∀ r, v.loop = .internal → v.rx = .receiving ⟨[], 0, crc32Start, [], r, false, true⟩ →
          v.wire = wire → (s.payload rid).length ≤ 128 → s.records.find r = some ⟨1, [], 1⟩ →
          r ≠ rid →
          ∃ t, exec (.linkSent l) s = .next t ∧ (t.links.get l).tx = .gap ∧
            (t.links.get l).inFlight = none ∧ (t.links.get l).rx = .idle ∧
            t.slots.get (.link l) = none ∧ t.payload r = s.payload rid ∧
            t.handover.get (.link l) = s.handover.get (.link l) ++ [⟨h, r⟩] ∧
            countedUp (.link l .sent) 1 s t ∧ countedUp (.link l .good) 1 s t)) ∧
      (∀ w, s.testOf (.link l) = some w → w.wait = .slot → w.phase.sends = true → 0 < s.pool.free →
        v.loop ≠ .internal ∨ v.rx.own = false →
        ∃ t, exec (.linkSent l) s = .next t ∧ freshTest (.link l) w s t ∧
          (t.links.get l).tx = .gap ∧ (t.links.get l).inFlight = none ∧
          countedUp (.link l .sent) 1 s t))

/-- A clock loss puts the interface in CLOCK-HOLD with its hold time at 0 and takes both its links down
together, leaving the other interface and its links alone; in CLOCK-HOLD it only sets the hold time back.
When the hold ends, a link whose signal is there enters TRAINING (R18, R28, R29). -/
def Obligations.ClockLossTakesBothLinksDown : Prop :=
  ∀ (i : Iface) (s : State), s.active = true → s.sweep.outstanding = none →
    (∃ t, exec (.clockLoss i) s = .next t ∧ t.ifaces = s.ifaces.set i ⟨true, 0⟩ ∧
      t.count (.iface i .clockLosses) = min Config.counterMax (s.count (.iface i .clockLosses) + 1) ∧
      (∀ l, l.iface ≠ i → t.links.get l = s.links.get l) ∧
      ((s.ifaces.get i).clockHold = false → ∀ l ∈ i.links, (t.links.get l).line = .noSignal ∧
        (t.links.get l).signalSeen = false ∧ (t.links.get l).retrainPause = none) ∧
      ((s.ifaces.get i).clockHold = true → t.links = s.links)) ∧
    ((s.ifaces.get i).clockHold = true → ∃ t, exec (.clockHoldExpiry i) s = .next t ∧
      t.ifaces = s.ifaces.set i ⟨false, 0⟩ ∧
      ∀ l ∈ i.links, (s.links.get l).line = .noSignal → (s.links.get l).retrainPause = none →
        (s.links.get l).lineSignal = true →
        (t.links.get l).line = .training ∧ (t.links.get l).trainingTime = 0)

/-! ### Frame memory, flags and notices -/

/-- An offer is judged by the first test that applies: unreachable, quarantined source, too long, queue
full; a copy that meets none joins at the tail and adds a reference (R42, R43). -/
def Obligations.OffersAreJudgedInOrder : Prop :=
  ∀ (p : Port) (e : QueueEntry) (s : State),
    let refused (c : QueueCount) := offer p e s = (false, bump (.queue p c) s)
    let st := s.serviceOf p
    let barred := ∃ i, e.source = .index i ∧ s.quarantined i = true
    let tooLong := p.side = .trunk ∧ 1010 < (s.payload e.record).length
    let full := 64 ≤ (s.queues.get p).length ∨
      (∀ d ∈ s.queues.get p, d.record ≠ e.record) ∧
        s.config.quota.get p < s.quotaUse p + s.blocksOf e.record
    (st ≠ .inService ∧ st ≠ .probing → refused .refusedUnreachable) ∧
    (st = .inService ∨ st = .probing →
      (barred → refused .refusedQuarantinedSource) ∧
      (¬ barred → tooLong → refused .refusedTooLong) ∧
      (¬ barred → ¬ tooLong → full → refused .refusedQueueFull) ∧
      (¬ barred → ¬ tooLong → ¬ full → offer p e s = (true, bump (.queue p .joined)
        (addRef e.record { s with queues := s.queues.set p (s.queues.get p ++ [e]) }))))

/-- The last reference released frees a record and its blocks return to the pool; any other release only
lowers the count (R33, R37). A purge by port leaves the queue and the test slot empty, and nothing in
flight but a link's gap (R13, R26, R46). The spool's take of a block is refused where it would leave the
free count below the reserve, and then where it would bring the spool-held count above the limit; the
crossings raise POOL-LOW and SPOOL-NEAR-FULL (R36, R39, R40). -/
def Obligations.BlocksAreTakenAndGivenBack : Prop :=
  ((∀ (rid : Nat) (r : FrameRecord) (s : State), s.records.find rid = some r →
    (r.refs ≤ 1 → releaseRef rid s = { s with
      records := s.records.drop rid
      pool := ⟨s.pool.free + r.blocks, s.pool.frameHeld - r.blocks, s.pool.spoolHeld⟩ }) ∧
    (1 < r.refs → releaseRef rid s =
      { s with records := s.records.put id rid { r with refs := r.refs - 1 } })) ∧
  ∀ (p : Port) (why : PurgeReason) (s : State),
    let t := purgePort p why s
    t.queues.get p = [] ∧ t.slots.get p = none ∧ (∀ q, q ≠ p → t.queues.get q = s.queues.get q) ∧
      (s.queues.get p ≠ [] → t.count (.queue p why.counter) =
        min Config.counterMax (s.count (.queue p why.counter) + (s.queues.get p).length)) ∧
      (∀ x, p = .seg x → (t.segs.get x).tx = .idle ∧ (t.segs.get x).inFlight = none ∧
        (t.segs.get x).attempts = 0 ∧ (t.segs.get x).untermSeen = false) ∧
      (∀ l, p = .link l → (s.links.get l).tx ≠ .gap →
        (t.links.get l).tx = .idle ∧ (t.links.get l).inFlight = none)) ∧
  ∀ s : State,
    (s.pool.free < s.config.reserve + 1 →
      spoolTake s = (false, bump (.pool .spoolRefusedReserve) s)) ∧
    (s.config.reserve + 1 ≤ s.pool.free → s.config.spoolLimit < s.pool.spoolHeld + 1 →
      spoolTake s = (false, bump (.pool .spoolRefusedLimit) s)) ∧
    (s.config.reserve + 1 ≤ s.pool.free → s.pool.spoolHeld + 1 ≤ s.config.spoolLimit →
      let t := { s with pool := ⟨s.pool.free - 1, s.pool.frameHeld, s.pool.spoolHeld + 1⟩ }
      spoolTake s = (true, t) ∧
      (s.pool.free = s.config.poolLow → (spoolTook s.pool t).raised .poolLow = true) ∧
      (s.pool.spoolHeld + 1 = s.config.spoolLimit - s.config.nearFullMargin →
        (spoolTook s.pool t).raised .spoolNearFull = true) ∧
      (s.pool.free ≠ s.config.poolLow →
        s.pool.spoolHeld + 1 ≠ s.config.spoolLimit - s.config.nearFullMargin →
        spoolTook s.pool t = t))

/-- A raise marks its flag and no other but POOL-LOW; a raise of a raised flag changes nothing; a flag
that becomes counting makes a NOTICE unless one is outstanding, no destination is set, or the destination
has no route, which is counted. A NOTICE that joins its port's queue is outstanding and counted as sent;
one the pool or the queue refuses is lost, and none is outstanding. ATTN is high while a raised flag is
masked on (R190, R191). -/
def Obligations.RaisedFlagsCountAndNotify : Prop :=
  ∀ (f : Flag) (s : State),
    (s.raised f = true → raise f s = s) ∧ (raise f s).raised f = true ∧
    (∀ g, g ≠ f → g ≠ .poolLow → (raise f s).raised g = s.raised g) ∧
    (s.raised f = false → s.masked f = false ∨ s.noticeOut = true ∨ s.config.notice = none →
      raise f s = setFlag f s) ∧
    (∀ k, s.raised f = false → s.masked f = true → s.noticeOut = false → s.config.notice = some k →
      s.route k = none → raise f s = bump (.mgmt .noticeNoRoute) (setFlag f s)) ∧
    (∀ k p d, s.raised f = false → s.masked f = true → s.noticeOut = false →
      s.config.notice = some k → s.route k = some (p, d) → s.pool.free = 0 →
      raise f s = bump (.mgmt .noticeLost) (bump (.pool .ownFrameLost) (setFlag f s))) ∧
    (∀ k p d, s.raised f = false → s.masked f = true → s.noticeOut = false →
      s.config.notice = some k → s.route k = some (p, d) → s.pool.free ≠ 0 →
      s.pool.free ≠ s.config.poolLow → s.recordsOk →
      let t := raise f s
      (s.serviceOf p = .inService ∨ s.serviceOf p = .probing → (s.queues.get p).length < 64 →
        s.quotaUse p + 1 ≤ s.config.quota.get p → t.noticeOut = true ∧
        t.queues.get p = s.queues.get p ++
          [⟨⟨d, p.side.bridgeKey, kindNotice, 4⟩, s.nextRecord, none, .bridge⟩] ∧
        t.payload s.nextRecord = noticePayload p.side (setFlag f s) ∧
        t.count (.mgmt .noticesSent) = min Config.counterMax (s.count (.mgmt .noticesSent) + 1)) ∧
      (s.serviceOf p ≠ .inService → s.serviceOf p ≠ .probing → t.noticeOut = false ∧
        t.queues = s.queues ∧
        t.count (.mgmt .noticeLost) = min Config.counterMax (s.count (.mgmt .noticeLost) + 1))) ∧
    (s.attn = true ↔ ∃ g, s.raised g = true ∧ s.masked g = true)

/-! ### Forwarding -/

/-- A frame of any kind but TEST taken while its port is not IN-SERVICE is discarded and counted, whatever
the state was at the end of its reception (R81). -/
def Obligations.FramesTakenOutOfServiceAreDiscarded : Prop :=
  ∀ (p : Port) (c : Bool) (s : State) (h : Header) (rid : Nat) (rest : List Handed),
    s.active = true → s.resultWaits = false → s.handover.get p = ⟨h, rid⟩ :: rest →
    h.kind ≠ kindTest → s.serviceOf p ≠ .inService →
    exec (.takeFrame p c) s = .next (releaseRef rid (bump (.forward p .notInService)
      { s with commission := c, handover := s.handover.set p rest }))

/-- The ingress checks discard and count: a TEST frame with no test, an unknown kind, a kind only the
bridge makes, a trunk kind on a link, a CLAIM with a payload, an invalid source, a QUARANTINED source. A
port that has handed nothing over gives nothing to take (R79, R80, R82 to R85). -/
def Obligations.IngressChecksDiscard : Prop :=
  ∀ (p : Port) (c : Bool) (s : State), s.active = true → s.resultWaits = false →
    (s.handover.get p = [] → exec (.takeFrame p c) s = .next { s with commission := c }) ∧
    ∀ (h : Header) (rid : Nat) (rest : List Handed), s.handover.get p = ⟨h, rid⟩ :: rest →
      let dropped (n : ForwardCount) := exec (.takeFrame p c) s = .next (releaseRef rid
        (bump (.forward p n) { s with commission := c, handover := s.handover.set p rest }))
      (h.kind = kindTest → s.testOf p = none → dropped .testDiscarded) ∧
      (s.serviceOf p = .inService → h.kind ≠ kindTest →
        (knownKind h.kind = false → dropped .unknownKind) ∧
        (h.kind = kindPrintStatus ∨ h.kind = kindMgmtReply ∨ h.kind = kindNotice →
          dropped .misdirectedKind) ∧
        (h.kind = kindClaim ∨ h.kind = kindObject ∨ h.kind = kindDefend → p.side = .pair →
          dropped .trunkOnlyOnLink) ∧
        (h.kind = kindClaim → p.side = .trunk → h.length ≠ 0 → dropped .malformedClaim) ∧
        (h.kind.toNat < 0x80 ∨ h.kind = kindPrint ∨ h.kind = kindEchoReq ∨ h.kind = kindEchoRep ∨
            h.kind = kindMgmtReq →
          (h.src.isStation = false → dropped .badSource) ∧
          (h.kind ≠ kindEchoRep → h.src.isStation = true →
            (∃ i e t, s.lookup h.src = some (i, e) ∧ s.station i = some t ∧
              t.standing = .quarantined) → dropped .quarantinedDrop)))

/-- A frame of a traffic kind from a station heard at its home: it goes to no port where its destination
is homed on the ingress port or QUARANTINED; one unchanged copy is offered to the home on the same side,
one translated copy to a home on the other side where both entries hold the keys of that side; a broadcast
is offered to the other ports of its side and those of the other side, to a link only while its
broadcast-forward is on. A destination that no entry holds is offered to the ports of its side and logged
as unknown, the log written after the copies are offered, which is the model's choice (log entry 19), as
is the release of the frame's own record after all of it (log entry 60) (R56, R91 to R95). -/
def Obligations.TrafficIsCarriedToItsHome : Prop :=
  ∀ (p : Port) (c : Bool) (s : State) (h : Header) (rid : Nat) (rest : List Handed) (i : Nat)
    (e : Entry) (t : Station), s.active = true → s.resultWaits = false →
    s.handover.get p = ⟨h, rid⟩ :: rest → s.serviceOf p = .inService → h.kind.toNat < 0x80 →
    h.src.isStation = true → s.lookup h.src = some (i, e) → e.kind = .station t →
    s.station i = some t → t.home = some p → t.standing ≠ .quarantined →
    let v := heardAt i p { s with commission := c, handover := s.handover.set p rest }
    let done (w : State) := exec (.takeFrame p c) s = .next (releaseRef rid w)
    (h.dest.class = .invalid → done (bump (.forward p .badDestination) v)) ∧
    (h.dest.class = .reserved → done (bump (.forward p .reservedDestination) v)) ∧
    (h.dest.class = .bridge → done (bump (.forward p .toBridgeDiscarded) v)) ∧
    (h.dest.class = .broadcast →
      done (copies ⟨p, h, rid, .index i, some p.side.other.broadcastKey⟩ (v.broadcastPorts p) v) ∧
      ∀ q, q ∈ v.broadcastPorts p ↔
        q ≠ p ∧ (q.side = .trunk ∨ (s.service.get q).bcast = true)) ∧
    (h.dest.class = .station →
      (v.lookup h.dest = none →
        done (logUnknown p h.dest (copies ⟨p, h, rid, .index i, none⟩ (sidePorts p) v))) ∧
      ∀ j d w, v.lookup h.dest = some (j, d) → d.kind = .station w →
        (w.home = some p → done (bump (.forward p .filtered) v)) ∧
        (w.home ≠ some p → w.standing = .quarantined → done (bump (.forward p .destQuarantined) v)) ∧
        ∀ q, w.home = some q → q ≠ p → w.standing ≠ .quarantined →
          (q.side = p.side → done (offer q ⟨h, rid, some p, .index i⟩ v).2) ∧
          (q.side = p.side.other →
            (∀ dk sk, d.keyOn q.side = some dk → v.sourceKey (.index i) q.side = some sk →
              done (offer q ⟨{ h with dest := dk, src := sk }, rid, some p, .index i⟩ v).2) ∧
            (d.keyOn q.side = none ∨ v.sourceKey (.index i) q.side = none →
              done (bump (.forward p .untranslatable) v))))

/-- The unknown-destination log: a key it holds gets the ingress port and one more hit; a new key joins at
the tail with one hit, the oldest record leaving a full log, and UNKNOWN-DEST is raised where the log was
empty (R96). -/
def Obligations.UnknownDestinationsAreLogged : Prop :=
  ∀ (p : Port) (k : Key) (s : State),
    let u := bump (.forward p .unknownDest) s
    ((∃ r ∈ s.unknownLog, r.dest = k) → logUnknown p k s = { u with
      unknownLog := s.unknownLog.map fun r =>
        if r.dest = k then ⟨k, p, min 255 (r.hits + 1)⟩ else r }) ∧
    ((∀ r ∈ s.unknownLog, r.dest ≠ k) →
      (s.unknownLog = [] → logUnknown p k s = raise .unknownDest { u with unknownLog := [⟨k, p, 1⟩] }) ∧
      (s.unknownLog ≠ [] → s.unknownLog.length < 16 →
        logUnknown p k s = { u with unknownLog := s.unknownLog ++ [⟨k, p, 1⟩] }) ∧
      (16 ≤ s.unknownLog.length → logUnknown p k s = bump (.forwardPart .unknownLogOverwritten)
        { u with unknownLog := s.unknownLog.tail ++ [⟨k, p, 1⟩] }))

/-- An ECHO-REQ for the bridge is answered with its own payload on its own port, or discarded where the
payload is over 64 bytes (R88, R89); a MGMT-REQ from a manager on a port that accepts requests joins the
request queue while it has a place (R186); a PRINT to an alias goes to the spool (R90). The model's choice
is that the record of an answer is asked for before the frame's own is released (log entry 60). -/
def Obligations.FramesForTheBridgeAndTheSpoolAreHandedOver : Prop :=
  ∀ (p : Port) (c : Bool) (s : State) (h : Header) (rid : Nat) (rest : List Handed) (i : Nat)
    (e : Entry) (t : Station), s.active = true → s.resultWaits = false →
    s.handover.get p = ⟨h, rid⟩ :: rest → s.serviceOf p = .inService →
    h.src.isStation = true → s.lookup h.src = some (i, e) → e.kind = .station t →
    s.station i = some t → t.home = some p → t.standing ≠ .quarantined →
    let v := heardAt i p { s with commission := c, handover := s.handover.set p rest }
    let done (w : State) := exec (.takeFrame p c) s = .next (releaseRef rid w)
    (h.kind = kindEchoReq → h.dest = p.side.bridgeKey →
      (64 < (s.payload rid).length → done (bump (.forwardPart .echoMalformed) v)) ∧
      ((s.payload rid).length ≤ 64 → ∀ u,
        sendOwn p h.src kindEchoRep (s.payload rid) v = (.joined, u) →
          done (bump (.forward p .echoAnswered) u))) ∧
    (h.kind = kindMgmtReq → h.dest = p.side.bridgeKey → (s.service.get p).accept = true →
      t.manager = true → s.requests.length < 4 →
      done (bump (.mgmt .requestsAccepted) { bump (.forward p .handedManagement) v with
        requests := s.requests ++ [⟨p, h.src, s.payload rid⟩] })) ∧
    (∀ j d x y, h.kind = kindPrint → h.dest.class = .station → v.lookup h.dest = some (j, d) →
      d.kind = .printer x y → done (printFrame ⟨j, x, y, h.src, .index i⟩ (s.payload rid)
        (bump (.forward p .handedSpool) v)))

/-! ### The directory -/

/-- What learning answers for a station's frame: at its home, or with no home yet, it is heard; from the
other side, from a pinned static home, or within the claim guard, it is a clash; else it moves (R56, R57,
R76). An unknown source takes the lowest free index, or none where the table is full (R59). -/
def Obligations.LearningAnswersByTheEntry : Prop :=
  ∀ (k : Key) (p : Port) (guarded : Bool) (s : State),
    (s.lookup k = none →
      (s.freeIndex = none → learn k p guarded s =
        (.accept .none, bump (.dir .learnRefusedFull) (raise .directoryFull s))) ∧
      (∀ i, s.freeIndex = some i → learn k p guarded s =
        (.accept (.index i), bump (.dir .learned) (putEntry i (s.learnedEntry k p) s)) ∧
        1 ≤ i ∧ i ≤ 255 ∧ s.dir.find i = none ∧ ∀ j, 1 ≤ j → j < i → s.dir.find j ≠ none)) ∧
    ∀ i e t, s.lookup k = some (i, e) → e.kind = .station t →
      (t.home = none ∨ t.home = some p → learn k p guarded s = (.accept (.index i), heardAt i p s)) ∧
      (∀ q, t.home = some q → q ≠ p →
        let clash := learn k p guarded s = (.clash, raise .nodeClash (bump (.dir .nodeClashes) s))
        (q.side ≠ p.side → clash) ∧
        (q.side = p.side → e.origin = .static → t.pinned = true → clash) ∧
        (q.side = p.side → guarded = true → t.quiet < s.config.claimGuard → clash) ∧
        (q.side = p.side → ¬ (e.origin = .static ∧ t.pinned = true) →
          guarded = false ∨ s.config.claimGuard ≤ t.quiet → learn k p guarded s =
            (.accept (.index i), bump (.dir .moves) (heardAt i p s))))

/-- A frame whose source a printer alias holds is discarded as alias-clash: alias-clashes is counted,
NODE-CLASH is raised, the directory, the spool and every queue but for a NOTICE's are left alone (R58).
That a NOTICE asks for its record before the frame's own is released is the model's choice (log entry 60). -/
def Obligations.AliasSourcesClash : Prop :=
  ∀ (p : Port) (c : Bool) (s : State) (h : Header) (rid : Nat) (rest : List Handed) (i : Nat)
    (e : Entry) (x : Target) (y : Fin 4), s.active = true → s.resultWaits = false →
    s.handover.get p = ⟨h, rid⟩ :: rest → s.serviceOf p = .inService →
    h.kind.toNat < 0x80 ∨ h.kind = kindPrint ∨ h.kind = kindEchoReq ∨ h.kind = kindEchoRep ∨
      h.kind = kindMgmtReq ∨ p.side = .trunk ∧ (h.kind = kindObject ∨ h.kind = kindDefend) →
    h.src.isStation = true → s.lookup h.src = some (i, e) → s.dir.find i = some e →
    e.kind = .printer x y →
    let t := raise .nodeClash (bump (.dir .aliasClashes)
      { s with commission := c, handover := s.handover.set p rest })
    exec (.takeFrame p c) s = .next (releaseRef rid t) ∧ t.raised .nodeClash = true ∧
      (releaseRef rid t).dir = s.dir ∧ (releaseRef rid t).jobs = s.jobs ∧
      (s.config.notice = none → t.queues = s.queues)

/-- The claim defence of a good CLAIM, by the first case that applies: an invalid number, an alias, a
QUARANTINED station, a station of the pair side, one heard at the claimant's segment or nowhere yet, a
guarded or pinned one of the other segment, one that moves; and a number no entry holds (R73, R75). The
model's choice is that a DEFEND asks for its record before the CLAIM's is released (log entry 60). -/
def Obligations.ClaimsAreDefendedOrForwarded : Prop :=
  ∀ (x : Seg) (c : Bool) (s : State) (n : Node) (h : Header) (rid : Nat) (rest : List Handed),
    s.active = true → s.resultWaits = false → s.handover.get (.seg x) = ⟨h, rid⟩ :: rest →
    s.serviceOf (.seg x) = .inService → h.kind = kindClaim → h.length = 0 → h.src = .node n →
    let v := bump (.forward (.seg x) .handedClaim)
      { s with commission := c, handover := s.handover.set (.seg x) rest }
    let done (w : State) := exec (.takeFrame (.seg x) c) s = .next (releaseRef rid w)
    ((Key.node n).isStation = false → done (defend x n .reservedNumber v)) ∧
    ((Key.node n).isStation = true →
      (s.lookup (.node n) = none →
        done (forwardClaim x h rid (learnNew (.node n) (.seg x) v).1
          (learnNew (.node n) (.seg x) v).2)) ∧
      ∀ i e, s.lookup (.node n) = some (i, e) →
        (∀ t l, e.kind = .printer t l → done (defend x n .printerHeld v)) ∧
        ∀ t, e.kind = .station t →
          (t.standing = .quarantined → done (bump (.forward (.seg x) .quarantinedDrop) v)) ∧
          (t.standing ≠ .quarantined →
            (∀ l, t.home = some (.link l) → done (defend x n .stationPairSide v)) ∧
            (t.home = none ∨ t.home = some (.seg x) →
              done (forwardClaim x h rid (.index i) (heardAt i (.seg x) v))) ∧
            (t.home = some (.seg x.other) →
              (t.pinned = true ∨ t.quiet < s.config.claimGuard →
                done (defend x n .stationOtherSegment v)) ∧
              (t.pinned = false → s.config.claimGuard ≤ t.quiet → done (forwardClaim x h rid
                (.index i) (bump (.dir .moves) (heardAt i (.seg x) v)))))))

/-- An edit that names index 0 changes nothing and refuses nothing: alone it leaves the state as it is,
and in a batch it adds 1 to the ignored count and the rest goes on as though it were absent. An edit that
gives 254 or FFFEh as a key is refused RANGE (R70). -/
def Obligations.EditsOfIndexZeroAreIgnored : Prop :=
  (∀ (e : Edit) (s : State),
    (∃ a, e = .setStation a ∧ a.index = 0) ∨ (∃ a, e = .setAlias a ∧ a.index = 0) ∨ e = .delete 0 ∨
      (∃ m q, e = .setRights 0 m q) ∨ e = .release 0 ∨ e = .quarantine 0 →
    takeEdit e s = s ∧
    ∀ (es : List Edit) (k a g : Nat) (took : List Nat) (news : List QuarantineNews),
      runBatch (e :: es) k a g took news s = runBatch es (k + 1) a (g + 1) took news s) ∧
  (∀ (a : StationEdit) (s : State), a.index ≠ 0 → a.trunk = 254 ∨ a.office = 0xFFFE →
    ¬ (a.pinned = true ∧ a.home = 0xFF) → (Edit.setStation a).run s = .refused .range) ∧
  ∀ (a : AliasEdit) (s : State), a.index ≠ 0 → a.trunk = 254 ∨ a.office = 0xFFFE →
    (Edit.setAlias a).run s = .refused .range

/-- SET-STATION at a free index, at the lowest free one, or at a station's own index, with keys no other
entry holds, writes the entry: a new one is GOOD, one rewritten keeps its fault state (R63, R64, R65).
SET-ALIAS at a free index or at an alias no live job names writes the alias (R67). A key of a LEARNED
station elsewhere is taken over: that entry is removed and counted, and its fault state is inherited; from
a QUARANTINED one a station that keeps a key of its own enters QUARANTINED, and one that keeps none does not
enter it anew (R65, R153, R154). In a full table "any free" evicts the LEARNED station, not QUARANTINED,
that has been quiet longest, the lowest index among equals, and with none to evict changes nothing (R66).
Each acts as a batch of one edit without a reply, while a save is in flight and while the image loads too: the
model's choice (log entry 2). -/
def Obligations.StationAndAliasEditsWriteTheEntry : Prop :=
  ((∀ (e : StationEdit) (home : Option Port) (i : Nat) (s : State), s.active = true → e.index ≠ 0 →
    let ks := givenKeys e.trunk e.office
    ks ≠ [] → keysInRange ks = true → editHome e.home = some home →
    ¬ (e.pinned = true ∧ e.home = 0xFF) → (∀ p, home = some p → homeAllowed ks p = true) →
    (∀ d ∈ s.dir, d.1 ≠ i → ∀ k ∈ ks, d.2.holds k = false) →
    let wrote (t : Station) := exec (.setStation e) s = .next (putEntry i ⟨.static, editNode e.trunk,
      editAddress e.office, .station { t with
        home := home, pinned := e.pinned, manager := e.manager, print := e.print }⟩ s)
    (e.index ≠ 0xFF → i = e.index.toNat → s.dir.find i = none →
      wrote ⟨none, false, false, false, .good, 0, 0, 0⟩) ∧
    (e.index = 0xFF → s.freeIndex = some i → wrote ⟨none, false, false, false, .good, 0, 0, 0⟩) ∧
    (e.index ≠ 0xFF → i = e.index.toNat → ∀ t, s.station i = some t → t.standing ≠ .quarantined →
      wrote t)) ∧
  ∀ (e : AliasEdit) (x : Target) (y : Fin 4) (i : Nat) (s : State), s.active = true → e.index ≠ 0 →
    let ks := givenKeys e.trunk e.office
    ks ≠ [] → keysInRange ks = true → Target.ofCode e.target = some x → levelOf e.level = some y →
    (∀ d ∈ s.dir, d.1 ≠ i → ∀ k ∈ ks, d.2.holds k = false) →
    (e.index ≠ 0xFF ∧ i = e.index.toNat ∧ s.isStationAt (some i) = false ∧ s.hasJob i = false ∨
      e.index = 0xFF ∧ s.freeIndex = some i) →
    exec (.setAlias e) s = .next (putEntry i
      ⟨.static, editNode e.trunk, editAddress e.office, .printer x y⟩ s)) ∧
  ∀ (e : StationEdit) (home : Option Port) (s : State), s.active = true → e.index ≠ 0 →
    let ks := givenKeys e.trunk e.office
    ks ≠ [] → keysInRange ks = true → editHome e.home = some home →
    ¬ (e.pinned = true ∧ e.home = 0xFF) → (∀ p, home = some p → homeAllowed ks p = true) →
    s.directoryOk →
    let written (t : Station) := EntryKind.station { t with
      home := home, pinned := e.pinned, manager := e.manager, print := e.print }
    let entry (t : Station) : Entry := ⟨.static, editNode e.trunk, editAddress e.office, written t⟩
    (∀ i j d w, e.index ≠ 0xFF → i = e.index.toNat → j ≠ i → s.dir.find j = some d →
      d.origin = .learned → d.kind = .station w → (∃ k ∈ ks, d.holds k = true) →
      (∀ c ∈ s.dir, c.1 ≠ i → c.1 ≠ j → ∀ k ∈ ks, c.2.holds k = false) →
      let taken := bump (.dir .takenOver) (removeEntry j s)
      (s.dir.find i = none → w.standing ≠ .quarantined →
        exec (.setStation e) s = .next (putEntry i (entry w) taken)) ∧
      (s.dir.find i = none → w.standing = .quarantined → exec (.setStation e) s =
        .next (abortArriving (ks.filter fun k => !d.holds k) (putEntry i (entry w) taken))) ∧
      ∀ c v, s.dir.find i = some c → c.kind = .station v → v.standing = .good →
        w.standing = .quarantined → ∃ t, exec (.setStation e) s = .next t ∧ t.dir.find j = none ∧
          t.dir.find i = some (entry { w with
            tally := max w.tally v.tally, quiet := min w.quiet v.quiet
            minutes := max w.minutes v.minutes }) ∧
          ((∃ k ∈ ks, c.holds k = true) → t.raised .stationQuarantined = true ∧
            t.count (.fault .quarantineTakeover) =
              min Config.counterMax (s.count (.fault .quarantineTakeover) + 1)) ∧
          ((∀ k ∈ ks, c.holds k = false) →
            t.raised .stationQuarantined = s.raised .stationQuarantined ∧
            t.count (.fault .quarantineTakeover) = s.count (.fault .quarantineTakeover))) ∧
    (e.index = 0xFF → s.freeIndex = none → (∀ c ∈ s.dir, ∀ k ∈ ks, c.2.holds k = false) →
      (∀ j d, s.dir.find j = some d → d.movable = true →
        (∀ c ∈ s.dir, c.2.movable = true →
          c.2.quiet < d.quiet ∨ c.2.quiet = d.quiet ∧ j ≤ c.1) →
        exec (.setStation e) s = .next (putEntry j (entry ⟨none, false, false, false, .good, 0, 0, 0⟩)
          (bump (.dir .evicted) (removeEntry j s)))) ∧
      ((∀ c ∈ s.dir, c.2.movable = false) → exec (.setStation e) s = .next s))

/-- SET-RIGHTS, RELEASE and DELETE at a station act as named; QUARANTINE makes it QUARANTINED for the
quarantine time in force, raises STATION-QUARANTINED, takes its copies off the queues but for a head in
flight, and ends its ARRIVING jobs; one that is QUARANTINED already is renewed: the minutes are set again, the
purge and the end of jobs are made again, quarantine-renewed is counted, and neither the flag is raised nor a
quarantine counted; DELETE of an alias a live job names, and every edit of a free index, changes nothing (R47,
R68, R69, R114, R153, R154). Each acts as a batch of one edit without a reply, while a save is in flight and
while the image loads too: the model's choice (log entry 2). -/
def Obligations.EditsByIndexActOnTheEntry : Prop :=
  ∀ (index : Byte) (s : State), s.active = true → index ≠ 0 →
    (s.dir.find index.toNat = none → ∀ m q,
      exec (.setRights index m q) s = .next s ∧ exec (.release index) s = .next s ∧
        exec (.quarantine index) s = .next s ∧ exec (.delete index) s = .next s) ∧
    (∀ e x y, s.dir.find index.toNat = some e → e.kind = .printer x y →
      s.hasJob index.toNat = true → exec (.delete index) s = .next s) ∧
    (∀ e, s.dir.find index.toNat = some e → s.hasJob index.toNat = false →
      exec (.delete index) s = .next (dropEntry index.toNat { s with
        queues := s.queues.map fun es => es.map fun d =>
          if d.source = .index index.toNat then { d with source := .none } else d })) ∧
    ∀ t, s.station index.toNat = some t →
      (∀ m q, exec (.setRights index m q) s =
        .next (modStation index.toNat (fun t => { t with manager := m, print := q }) s)) ∧
      exec (.release index) s = .next (modStation index.toNat
        (fun t => { t with standing := .good, tally := 0, minutes := 0 }) s) ∧
      (s.jobsOk → ∃ u, exec (.quarantine index) s = .next u ∧
        u.station index.toNat =
          some { t with standing := .quarantined, minutes := s.config.quarantineTime } ∧
        (t.standing ≠ .quarantined → u.raised .stationQuarantined = true ∧
          u.count (.fault .quarantineEdit) =
            min Config.counterMax (s.count (.fault .quarantineEdit) + 1)) ∧
        (t.standing = .quarantined →
          u.raised .stationQuarantined = s.raised .stationQuarantined ∧
          u.count (.fault .quarantineEdit) = s.count (.fault .quarantineEdit) ∧
          u.count (.fault .quarantineRenewed) =
            min Config.counterMax (s.count (.fault .quarantineRenewed) + 1)) ∧
        (∀ p, ∀ d ∈ (u.queues.get p).tail, d.source ≠ .index index.toNat) ∧
        (∀ p, s.inFlight p ≠ some .head → ∀ d ∈ u.queues.get p, d.source ≠ .index index.toNat) ∧
        ∀ d ∈ u.jobs, d.2.state = .arriving → d.2.submitter ∉ s.keysAt index.toNat)

/-- At a second expiry every station that is not QUARANTINED is quiet one second more, and a LEARNED one
at the age limit is removed (R60); every ARRIVING job is quiet one second more, and one at the arrival
timeout is aborted (R109). At a window expiry every station is judged on its closing tally: a SUSPECT one
under the suspect threshold, and one on PROBATION without an error, become GOOD; the tallies return to 0,
every port's counts and marks are cleared, and a window begins with the length in force (R145, R152). At a
minute expiry a QUARANTINED station has one minute less, and with none left it is on PROBATION with its
tally kept (R155). -/
def Obligations.ExpiriesGoOverTheTables : Prop :=
  (∀ s : State, s.active = true →
    (s.directoryOk → ∃ t, exec .aging s = .next t ∧ ∀ i, t.dir.find i =
      ((s.dir.find i).map Entry.second).filter fun e =>
        !(decide (s.config.ageLimit ≠ 0) && e.movable && decide (s.config.ageLimit * 60 ≤ e.quiet))) ∧
    (s.jobsOk → ∃ t, exec .arrivalTimeout s = .next t ∧ t.dir = s.dir ∧ ∀ slot, t.jobs.find slot =
      ((s.jobs.find slot).map Job.quietSecond).filter fun j =>
        !(decide (j.state = .arriving) && decide (s.config.arrivalTimeout ≤ j.quiet)))) ∧
  ∀ s : State, s.active = true → s.directoryOk →
    (s.window.running = true → ∃ t, exec .windowExpiry s = .next t ∧
      t.window = ⟨true, 0, s.config.windowLength⟩ ∧
      (∀ x, t.segWin.get x = ⟨0, 0, 0, 0, 0, 0, 0⟩) ∧ (∀ l, t.linkWin.get l = ⟨0, 0, 0, 0⟩) ∧
      (∀ p, t.marks.get p = ⟨false, false, false, false⟩) ∧
      ∀ i w, s.station i = some w → t.station i = some { w with
        tally := 0
        standing :=
          if w.standing = .suspect ∧ w.tally < s.config.suspectThreshold then .good
          else if w.standing = .probation ∧ w.tally = 0 then .good
          else w.standing }) ∧
    ∃ t, exec .minuteExpiry s = .next t ∧ ∀ i w, s.station i = some w → t.station i = some (
      if w.standing = .quarantined ∧ 0 < w.minutes then
        { w with
          minutes := w.minutes - 1
          standing := if w.minutes = 1 then .probation else .quarantined }
      else w)

/-! ### Print jobs -/

/-- An OPEN is judged by the first check that applies, and an accepted one takes the lowest free slot with
a new ARRIVING job and answers ACCEPTED (R102, R103, R104). -/
def Obligations.OpensAreJudgedInOrder : Prop :=
  ∀ (h : Handoff) (tag x : Byte) (s : State), 1 ≤ x.toNat → x.toNat ≤ 9 →
    let u := h.submitter
    let opened := printFrame h [1, tag, x, 0] s
    (s.mayPrint h.source = false → opened = refuse u tag .notAllowed s) ∧
    (s.mayPrint h.source = true → s.noPrinter h.target = true → opened = refuse u tag .noPrinter s) ∧
    (s.mayPrint h.source = true → s.noPrinter h.target = false →
      (∀ slot j, s.jobOf u tag = some (slot, j) → j.state ≠ .arriving →
        opened = refuse u tag .tagInUse s) ∧
      (∀ slot j, s.jobOf u tag = some (slot, j) → j.state = .arriving →
        opened = openRest h tag x.toNat (endJob slot (.aborted .restarted) s)) ∧
      (s.jobOf u tag = none → opened = openRest h tag x.toNat s)) ∧
    (4 ≤ s.liveOf u → openRest h tag x.toNat s = refuse u tag .submitterLimit s) ∧
    (s.liveOf u < 4 →
      ((∀ slot, slot < 48 → s.jobs.find slot ≠ none) →
        openRest h tag x.toNat s = refuse u tag .tableFull s) ∧
      ∀ slot, slot < 48 → s.jobs.find slot = none → (∀ k, k < slot → s.jobs.find k ≠ none) →
        (s.config.spoolLimit - s.config.nearFullMargin ≤ s.pool.spoolHeld →
          openRest h tag x.toNat s = refuse u tag .spoolFull s) ∧
        (s.pool.spoolHeld < s.config.spoolLimit - s.config.nearFullMargin →
          openRest h tag x.toNat s = sendStatus u tag .accepted (bump (.spool .opened) { s with
            jobs := s.jobs.put id slot {
              submitter := u, tag := tag, aliasIndex := h.aliasIndex, target := h.target
              level := h.level, state := .arriving, holdOnClose := false, copies := x.toNat
              copiesLeft := x.toNat - 1, bytes := [], nextSeq := 0, quiet := 0, readyOrder := none
              line := none, printed := 0, endAsked := none } })))

/-- A DATA in turn appends all its bytes in order, or ends the job for want of space; one out of turn ends
it with GAP, and one for no ARRIVING job is answered UNKNOWN-JOB. It appends them, a block taken for every
128 bytes of the chain, wherever the free blocks above the reserve and the room under the spool limit
suffice; where a take but the last may raise a flag that makes NOTICEs, which take blocks too, two free
blocks more are asked for here (log entry 10). A take refused by the reserve, and then by the limit, is
counted (R36, R105, R106). -/
def Obligations.DataIsAppendedInTurn : Prop :=
  (∀ (u : Key) (tag seq : Byte) (bytes : List Byte) (s : State),
    (s.arrivingJob u tag = none → printData u tag seq bytes s = unknownJob u tag s) ∧
    ∀ slot j, s.arrivingJob u tag = some (slot, j) →
      (seq ≠ j.nextSeq → printData u tag seq bytes s = endJob slot (.aborted .gap) s) ∧
      (seq = j.nextSeq → s.jobs.find slot = some j →
        (∀ t, appendBytes slot bytes s = (true, t) → (printData u tag seq bytes s).jobs.find slot =
          some { j with bytes := j.bytes ++ bytes, nextSeq := seq + 1, quiet := 0 }) ∧
        (∀ t, appendBytes slot bytes s = (false, t) →
          printData u tag seq bytes s = endJob slot (.aborted .noSpace) t) ∧
        (let new := blocksFor (j.bytes.length + bytes.length) - blocksFor j.bytes.length
         s.config.reserve + new ≤ s.pool.free → s.pool.spoolHeld + new ≤ s.config.spoolLimit →
          new ≤ 1 ∨ s.config.notice = none ∨ s.noticeOut = true ∨
            s.config.reserve + new + 2 ≤ s.pool.free →
          let t := printData u tag seq bytes s
          t.jobs.find slot = some { j with bytes := j.bytes ++ bytes, nextSeq := seq + 1, quiet := 0 } ∧
            t.pool.spoolHeld = s.pool.spoolHeld + new))) ∧
  (∀ (slot : Nat) (bytes : List Byte) (s t : State) (j : Job), s.jobs.find slot = some j →
    appendBytes slot bytes s = (true, t) →
      t.jobs.find slot = some { j with bytes := j.bytes ++ bytes } ∧
      ∀ k, k ≠ slot → t.jobs.find k = s.jobs.find k) ∧
  ∀ (slot : Nat) (b : Byte) (bytes : List Byte) (s : State) (j : Job), s.jobs.find slot = some j →
    j.bytes.length % 128 = 0 →
    (s.pool.free < s.config.reserve + 1 →
      appendBytes slot (b :: bytes) s = (false, bump (.pool .spoolRefusedReserve) s)) ∧
    (s.config.reserve + 1 ≤ s.pool.free → s.config.spoolLimit < s.pool.spoolHeld + 1 →
      appendBytes slot (b :: bytes) s = (false, bump (.pool .spoolRefusedLimit) s))

/-- A CLOSE for no ARRIVING job is answered UNKNOWN-JOB; one whose length differs, and then one of length
0, ends the job; else the job is HELD, or READY at the tail of its queue with QUEUED answered and the
lines that read it told. The model's choices are that QUEUED is sent before they are told (log entry 19),
and that the next sequence and the quiet seconds, which the job loses, read 0 then (log entry 46). A CANCEL
ends a job that no line serves, and asks the line of one whose byte is in flight to end it: both
are DRAINING then (R107, R108, R110, R132). The end of a job frees its slot and gives its blocks back,
raises SPOOL-EMPTY where the spool-held count comes to 0 and JOB-ABORTED for an abort, counts the outcome
and answers the submitter, but for a quarantine's end, which makes no status (R33, R40, R112, R114). -/
def Obligations.JobsCloseCancelAndEnd : Prop :=
  (∀ (u : Key) (tag : Byte) (total : Nat) (s : State),
    (s.arrivingJob u tag = none → printClose u tag total s = unknownJob u tag s) ∧
    (∀ slot j, s.arrivingJob u tag = some (slot, j) →
      let left (st : JobState) (order : Option Nat) := modJob slot (fun j => { j with
        state := st, nextSeq := 0, quiet := 0, readyOrder := order.orElse fun _ => j.readyOrder }) s
      (total ≠ j.bytes.length →
        printClose u tag total s = endJob slot (.aborted .lengthMismatch) s) ∧
      (total = 0 → j.bytes.length = 0 → printClose u tag total s = endJob slot (.aborted .empty) s) ∧
      (total = j.bytes.length → total ≠ 0 → j.holdOnClose = true → printClose u tag total s =
        sendStatus u tag .held (bump (.spool .heldOnClose) (left .held none))) ∧
      (total = j.bytes.length → total ≠ 0 → j.holdOnClose = false → s.jobs.find slot = some j →
        printClose u tag total s = tellLines j.target (sendStatus u tag .queued (bump (.spool .queued)
          { left .ready (some s.nextOrder) with nextOrder := s.nextOrder + 1 })))) ∧
    (s.jobOf u tag = none → printCancel u tag s = unknownJob u tag s) ∧
    ∀ slot j, s.jobOf u tag = some (slot, j) → s.jobs.find slot = some j →
      (j.state = .arriving ∨ j.state = .ready ∨ j.state = .held →
        printCancel u tag s = endJob slot .cancelledSubmitter s) ∧
      (∀ n, j.state = .printing → j.line = some n → (s.lines.get n).state = .feeding →
        (s.lines.get n).byteInFlight = true → (s.lines.get n).job = some slot →
        let t := printCancel u tag s
        (t.lines.get n).state = .draining ∧ (t.lines.get n).byteInFlight = true ∧
          t.jobs.find slot =
            some { j with state := .draining, endAsked := some .cancelledSubmitter }) ∧
      (j.state = .draining → printCancel u tag s = s)) ∧
  ∀ (slot : Nat) (e : JobEnd) (s : State) (j : Job), s.jobs.find slot = some j →
    let n := blocksFor j.bytes.length
    let gone : State := { s with
      jobs := s.jobs.drop slot
      pool := ⟨s.pool.free + n, s.pool.frameHeld, s.pool.spoolHeld - n⟩ }
    let emptied := if 0 < s.pool.spoolHeld ∧ s.pool.spoolHeld ≤ n then raise .spoolEmpty gone else gone
    (e = .printed ∨ e = .cancelledSubmitter ∨ e = .cancelledManager → endJob slot e s =
      sendStatus j.submitter j.tag (.ended e) (bump (.spool e.counter) emptied)) ∧
    (∀ r, e = .aborted r → r ≠ .quarantine → endJob slot e s =
      sendStatus j.submitter j.tag (.ended e) (bump (.spool e.counter) (raise .jobAborted emptied))) ∧
    (e = .aborted .quarantine → endJob slot e s =
      bump (.spool .abortedQuarantine) (raise .jobAborted emptied)) ∧
    (endJob slot e s).jobs = s.jobs.drop slot

/-! ### Printer lines -/

/-- The choice of a line: the first level of its order, outside its hold mask, that has a READY job for it
or for POOL, and of those the one with the earliest ready order; with no such job there is no choice
(R139). -/
def Obligations.ChoicesFollowTheLevelOrder : Prop :=
  ∀ (n : Line) (s : State),
    let waits (l : Fin 4) (j : Job) :=
      j.state = .ready ∧ j.level = l ∧ (j.target = .line n ∨ j.target = .pool)
    let heldBack (l : Fin 4) := (s.lines.get n).holdMask.getLsbD l.val = true
    (s.nextChoice n = none →
      ∀ l, ¬ heldBack l → ∀ d ∈ s.jobs, ¬ waits l d.2) ∧
    ∀ c, s.nextChoice n = some c →
      ¬ heldBack c.level ∧
      (∃ d ∈ s.jobs, d.1 = c.slot ∧ waits c.level d.2 ∧
        (c.pooled = true ↔ d.2.target = .pool) ∧
        ∀ o ∈ s.jobs, waits c.level o.2 → d.2.readyOrder.getD 0 ≤ o.2.readyOrder.getD 0) ∧
      ∀ before after, levelOrder (s.lines.get n).lowest = before ++ c.level :: after →
        ∀ l ∈ before, heldBack l ∨ ∀ d ∈ s.jobs, ¬ waits l d.2

/-- An ACK pulse with no byte in flight is stray. For a byte in flight it counts the byte; a FEEDING line
with good inputs presents the next byte at once, from the start again where a copy has ended and another
remains, and ends its job as PRINTED after the last. The byte of a DRAINING line ends its job with the end
asked of it, by an ACK, which counts it, or by the ACK timer, which stalls nothing (R125, R131, R134,
R111). -/
def Obligations.AcknowledgedBytesAdvanceTheJob : Prop :=
  (∀ (n : Line) (s : State), s.active = true →
    ((s.lines.get n).byteInFlight = false →
      exec (.ackPulse n) s = .next (bump (.line n .strayAcks) s)) ∧
    ∀ slot j, (s.lines.get n).byteInFlight = true → (s.lines.get n).state = .feeding →
      (s.lines.get n).pendingCause = none → (s.lines.get n).job = some slot →
      s.jobs.find slot = some j → (s.lines.get n).good = true → (s.lines.get n).busy = false →
      let presented (t : State) (k : Nat) := (t.lines.get n).state = .feeding ∧
        (t.lines.get n).byteInFlight = true ∧ (t.lines.get n).data = byteAt j.bytes k ∧
        (t.lines.get n).ackTimer = some s.config.ackTimeout ∧
        t.count (.line n .bytesAcknowledged) =
          min Config.counterMax (s.count (.line n .bytesAcknowledged) + 1)
      (j.printed + 1 < j.bytes.length → ∃ t, exec (.ackPulse n) s = .next t ∧
        presented t (j.printed + 1) ∧
        t.jobs.find slot = some { j with printed := j.printed + 1 }) ∧
      (j.bytes.length ≤ j.printed + 1 → 0 < j.copiesLeft → ∃ t, exec (.ackPulse n) s = .next t ∧
        presented t 0 ∧
        t.jobs.find slot = some { j with printed := 0, copiesLeft := j.copiesLeft - 1 } ∧
        t.count (.line n .copiesPrinted) =
          min Config.counterMax (s.count (.line n .copiesPrinted) + 1)) ∧
      (j.bytes.length ≤ j.printed + 1 → j.copiesLeft = 0 → ∃ t, exec (.ackPulse n) s = .next t ∧
        t.jobs.find slot = none ∧
        t.count (.spool .printed) = min Config.counterMax (s.count (.spool .printed) + 1) ∧
        t.count (.line n .copiesPrinted) =
          min Config.counterMax (s.count (.line n .copiesPrinted) + 1))) ∧
  ∀ (n : Line) (s : State) (slot : Nat) (j : Job) (e : JobEnd), s.active = true →
    (s.lines.get n).byteInFlight = true → (s.lines.get n).state = .draining →
    (s.lines.get n).job = some slot → s.jobs.find slot = some j → j.endAsked = some e →
    let ended (t : State) := t.jobs.find slot = none ∧
      t.count (.spool e.counter) = min Config.counterMax (s.count (.spool e.counter) + 1) ∧
      t.count (.line n .copiesPrinted) = s.count (.line n .copiesPrinted)
    (∃ t, exec (.ackPulse n) s = .next t ∧ ended t ∧ t.count (.line n .bytesAcknowledged) =
      min Config.counterMax (s.count (.line n .bytesAcknowledged) + 1)) ∧
    ∃ t, exec (.ackTimeout n) s = .next t ∧ ended t ∧
      t.count (.line n .ackTimeouts) = min Config.counterMax (s.count (.line n .ackTimeouts) + 1) ∧
      t.count (.line n .stallAckTimeout) = s.count (.line n .stallAckTimeout)

/-- A FEEDING line stalls where no ACK comes in time, where BUSY stays past its limit, and where an input
goes bad between bytes: the job is STALLED, PRINTER-STALLED is raised, the stall is counted by its cause,
and a timed cause starts the retry timer. The retry's end feeds the same byte again (R125, R126, R128,
R130). -/
def Obligations.FeedingLinesStallAndResume : Prop :=
  ∀ (n : Line) (s : State) (slot : Nat) (j : Job), s.active = true →
    (s.lines.get n).job = some slot → s.jobs.find slot = some j →
    let stalledBy (t : State) (cause : StallCause) := (t.lines.get n).state = .stalled ∧
      (t.lines.get n).stallCause = some cause ∧ (t.lines.get n).byteInFlight = false ∧
      t.jobs.find slot = some { j with state := .stalled } ∧ t.raised .printerStalled = true ∧
      t.count (.line n cause.counter) = min Config.counterMax (s.count (.line n cause.counter) + 1)
    let retry := if s.config.stallRetry = 0 then none else some (1000 * s.config.stallRetry)
    ((s.lines.get n).state = .feeding → (s.lines.get n).byteInFlight = true →
      (s.lines.get n).pendingCause = none → ∃ t, exec (.ackTimeout n) s = .next t ∧
        stalledBy t .ackTimeout ∧ (t.lines.get n).retryTimer = retry) ∧
    ((s.lines.get n).state = .feeding → (s.lines.get n).busyWait.isSome = true →
      ∃ t, exec (.busyLimitExpiry n) s = .next t ∧ stalledBy t .busyTimeout ∧
        (t.lines.get n).retryTimer = retry) ∧
    ((s.lines.get n).state = .feeding → (s.lines.get n).byteInFlight = false →
      (s.lines.get n).good = true →
      (∃ t, exec (.selectChange n false) s = .next t ∧ stalledBy t .offline) ∧
      (∃ t, exec (.paperOutChange n true) s = .next t ∧ stalledBy t .paperOut) ∧
      (∃ t, exec (.faultChange n true) s = .next t ∧ stalledBy t .fault)) ∧
    ((s.lines.get n).state = .stalled → (s.lines.get n).retryTimer.isSome = true →
      (s.lines.get n).stallCause = some .ackTimeout ∨ (s.lines.get n).stallCause = some .busyTimeout →
      (s.lines.get n).good = true → (s.lines.get n).busy = false →
      ∃ t, exec (.stallRetryExpiry n) s = .next t ∧ (t.lines.get n).state = .feeding ∧
        (t.lines.get n).byteInFlight = true ∧ (t.lines.get n).data = byteAt j.bytes j.printed ∧
        t.jobs.find slot = some { j with state := .printing })

/-- An input that goes bad while a byte is in flight is the pending cause, and the first one stays; BUSY
is not judged while a byte is in flight. Where a byte, or a copy that another follows, ends by an ACK with
BUSY high and the inputs good, the busy wait starts, and the fall of BUSY presents the byte. An input that
is good again ends the stall it made, and the line presents its byte or starts a busy wait. SELECT low takes an IDLE line OFFLINE and SELECT high brings it back; a DISABLED
and a DRAINING line only see their pins; the INIT pulse's end leaves RESETTING where SELECT is high (R122,
R124, R126, R127, R129, R131, R134, R135, R136). -/
def Obligations.InputChangesMoveTheLine : Prop :=
  ∀ (n : Line) (s : State), s.active = true →
    let t := s.lines.get n
    (t.state = .feeding → t.byteInFlight = true → t.good = true →
      exec (.selectChange n false) s = .next (modLine n (fun t => { t with
        select := false, pendingCause := some (t.pendingCause.getD .offline) }) s) ∧
      exec (.paperOutChange n true) s = .next (modLine n (fun t => { t with
        paperOut := true, pendingCause := some (t.pendingCause.getD .paperOut) }) s) ∧
      exec (.faultChange n true) s = .next (modLine n (fun t => { t with
        fault := true, pendingCause := some (t.pendingCause.getD .fault) }) s)) ∧
    (t.state = .feeding → t.byteInFlight = true → ∀ b, exec (.busyChange n b) s =
      .next (modLine n (fun t => { t with busy := b }) s)) ∧
    (∀ slot j, t.state = .feeding → t.byteInFlight = true → t.pendingCause = none → t.good = true →
      t.busy = true → t.job = some slot → s.jobs.find slot = some j →
      let waits (u : State) := (u.lines.get n).state = .feeding ∧
        (u.lines.get n).byteInFlight = false ∧ (u.lines.get n).ackTimer = none ∧
        (u.lines.get n).busyWait = some (t.busyWait.getD (1000 * s.config.busyLimit)) ∧
        (u.lines.get n).data = t.data
      (j.printed + 1 < j.bytes.length → ∃ u, exec (.ackPulse n) s = .next u ∧ waits u ∧
        u.jobs.find slot = some { j with printed := j.printed + 1 }) ∧
      (j.bytes.length ≤ j.printed + 1 → 0 < j.copiesLeft → ∃ u, exec (.ackPulse n) s = .next u ∧
        waits u ∧ u.jobs.find slot = some { j with printed := 0, copiesLeft := j.copiesLeft - 1 })) ∧
    (∀ slot j, t.state = .stalled → t.job = some slot → s.jobs.find slot = some j →
      t.stallCause = some .paperOut ∨ t.stallCause = some .offline ∨ t.stallCause = some .fault →
      let fed (u : State) := (u.lines.get n).state = .feeding ∧ (u.lines.get n).stallCause = none ∧
        u.jobs.find slot = some { j with state := .printing } ∧
        (t.busy = false → (u.lines.get n).byteInFlight = true ∧
          (u.lines.get n).data = byteAt j.bytes j.printed ∧
          (u.lines.get n).ackTimer = some s.config.ackTimeout) ∧
        (t.busy = true → (u.lines.get n).byteInFlight = t.byteInFlight ∧
          (u.lines.get n).busyWait = some (1000 * s.config.busyLimit))
      (t.select = true → t.paperOut = true → t.fault = false →
        ∃ u, exec (.paperOutChange n false) s = .next u ∧ fed u) ∧
      (t.select = false → t.paperOut = false → t.fault = false →
        ∃ u, exec (.selectChange n true) s = .next u ∧ fed u) ∧
      (t.select = true → t.paperOut = false → t.fault = true →
        ∃ u, exec (.faultChange n false) s = .next u ∧ fed u)) ∧
    (t.state = .feeding → t.byteInFlight = false → t.good = true → t.busy = true →
      exec (.busyChange n false) s = .next (modLine n (fun t => { t with
        busy := false, data := s.nextByte n, byteInFlight := true, pendingCause := none
        busyWait := none, ackTimer := some s.config.ackTimeout }) s)) ∧
    (t.state = .idle → t.select = true → exec (.selectChange n false) s =
      .next (modLine n (fun t => { t with select := false, state := .offline }) s)) ∧
    (t.state = .offline → t.select = false → s.nextChoice n = none → exec (.selectChange n true) s =
      .next (modLine n (fun t => { t with select := true, state := .idle }) s)) ∧
    (t.state = .disabled ∨ t.state = .draining → ∀ b,
      exec (.selectChange n b) s = .next (modLine n (fun t => { t with select := b }) s) ∧
      exec (.paperOutChange n b) s = .next (modLine n (fun t => { t with paperOut := b }) s) ∧
      exec (.faultChange n b) s = .next (modLine n (fun t => { t with fault := b }) s) ∧
      exec (.busyChange n b) s = .next (modLine n (fun t => { t with busy := b }) s)) ∧
    (t.initTimer.isSome = true → t.job = none →
      (t.select = false → exec (.initPulseEnd n) s =
        .next (modLine n (fun t => { t with initTimer := none }) s)) ∧
      (t.select = true → s.nextChoice n = none → exec (.initPulseEnd n) s =
        .next (modLine n (fun t => { t with initTimer := none, state := .idle }) s)))

/-! ### Requests -/

/-- The answer to a request ends the current request and otherwise touches the frame memory, the flags, the
outstanding NOTICE and the counters alone; its reply is counted as sent or as lost, and as lost where the
port it came in by is out of service (R188). The reply's record may raise POOL-LOW, and that make a NOTICE
frame as well (log entry 10). -/
def Obligations.AnsweringTouchesFramesOnly : Prop :=
  ∀ (q : Request) (st : Status) (results : List Byte) (s : State),
    let t := answered q st results s
    sameButFrames { s with current := none } t ∧
      (s.count (.mgmt .repliesSent) < Config.counterMax → s.count (.mgmt .replyLost) < Config.counterMax →
        t.count (.mgmt .repliesSent) + t.count (.mgmt .replyLost) =
          s.count (.mgmt .repliesSent) + s.count (.mgmt .replyLost) + 1) ∧
      (s.serviceOf q.port ≠ .inService → s.serviceOf q.port ≠ .probing →
        t.count (.mgmt .replyLost) = min Config.counterMax (s.count (.mgmt .replyLost) + 1))

/-- The read requests are answered with what the part holds and change nothing else, even while a save is
in flight: READ-ENTRIES, FIND-ENTRY, READ-JOBS, PEEK-NEXT, READ-PORTS, READ-SWEEP, READ-CONFIG and
READ-COUNTERS without clear; what lies out of range or is not held is refused (R72, R115, R142, R173,
R184, R187, R189, R193). The model's choices in the replies are the next number of a reading (log entry
13), the order of a group's values (log entry 14), the code of an absent job (log entry 12), the level
byte of a PEEK-NEXT with no job to take (log entry 51), the zeros an entry record shows for fields its kind
does not have (log entry 63) and the 0 beside an absent notice destination (log entry 66). -/
def Obligations.ReadRequestsOnlyAnswer : Prop :=
  ∀ (s : State) (q : Request) (rest : List Request),
    let u := becomeCurrent q rest s
    (∀ start count, s.headIs q rest (.readEntries start count) →
      (1 ≤ count ∧ count ≤ 60 → exec .readEntries s = .next (answered q .done
        (pageBytes q.side (fun e => entryRecord q.side e.1 e.2) s.dir start count) u)) ∧
      (count = 0 ∨ 60 < count → exec .readEntries s = .next (answered q .range [] u))) ∧
    (∀ d v, s.headIs q rest (.findEntry d v) →
      (findKey d v = none → exec .findEntry s = .next (answered q .range [] u)) ∧
      (∀ k, findKey d v = some k → s.lookup k = none →
        exec .findEntry s = .next (answered q .notFound [] u)) ∧
      (∀ k i e, findKey d v = some k → s.lookup k = some (i, e) →
        exec .findEntry s = .next (answered q .done (entryRecord q.side i e) u))) ∧
    (∀ start count, s.headIs q rest (.readJobs start count) →
      (start < 48 → 1 ≤ count → count ≤ 16 → exec .readJobs s = .next (answered q .done
        (pageBytes q.side (fun e => jobRecord q.side e.1 (s.readyPlace e.2) e.2) s.jobs start count) u)) ∧
      (48 ≤ start ∨ count = 0 ∨ 16 < count → exec .readJobs s = .next (answered q .range [] u))) ∧
    (∀ b, s.headIs q rest (.peekNext b) →
      (∀ n, Line.ofCode b = some n →
        exec .peekNext s = .next (answered q .done (peekBytes n s) u)) ∧
      (Line.ofCode b = none → exec .peekNext s = .next (answered q .range [] u))) ∧
    (s.headIs q rest .readPorts → exec .readPorts s =
      .next (answered q .done (Port.all.flatMap (portRecord q.side s)) u)) ∧
    (s.headIs q rest .readSweep → exec .readSweep s = .next (answered q .done (sweepBytes q.side s) u)) ∧
    (s.headIs q rest .readConfig → exec .readConfig s =
      .next (answered q .done (configBytes q.side s.config) u)) ∧
    (∀ g, s.headIs q rest (.readCounters g false) →
      (∀ cs, groupCounters g = some cs → exec .readCounters s = .next (answered q .done
        ([byteOf g] ++ (cs.flatMap fun c => q.side.long (u.count c)) ++ groupValues q.side g u) u)) ∧
      (groupCounters g = none → exec .readCounters s = .next (answered q .range [] u)))

/-- READ-UNKNOWN-LOG empties the log, READ-EVENTS clears the flags and the notice outstanding, and
READ-COUNTERS with clear sets the group's counters to 0: each reply reports what stood before. With no
notice to make, SET-EVENT-MASK only sets the mask (R97, R190, R192, R193). The model's choices: the frame
of the reply is made on the state already cleared, so that what its making raises or counts stands (log
entry 27), and a group's values have the order of log entry 14. -/
def Obligations.ClearingRequestsAnswerFirst : Prop :=
  ∀ (s : State) (q : Request) (rest : List Request),
    let u := becomeCurrent q rest s
    (s.headIs q rest .readUnknownLog → exec .readUnknownLog s = .next (answered q .done
      (s.unknownLog.flatMap (unknownRecordBytes q.side)) { u with unknownLog := [] })) ∧
    (s.headIs q rest .readEvents → exec .readEvents s = .next (answered q .done
      (q.side.word s.flags.toNat ++ q.side.word s.mask.toNat) { u with flags := 0, noticeOut := false })) ∧
    (∀ m, s.headIs q rest (.setEventMask m) → s.config.notice = none ∨ s.noticeOut = true →
      exec .setEventMask s = .next (answered q .done [] { u with mask := m })) ∧
    (∀ g cs, s.headIs q rest (.readCounters g true) → groupCounters g = some cs →
      exec .readCounters s = .next (answered q .done
        ([byteOf g] ++ (cs.flatMap fun c => q.side.long (u.count c)) ++ groupValues q.side g u)
        (clearCounts cs u)) ∧
      ∀ c, (clearCounts cs u).count c = if c ∈ cs then 0 else u.count c)

/-- SET-CONFIG with 1 to 24 settings, none given twice and all in range, puts them all in force; with one
out of range none, and the position is answered. SAVE-IMAGE takes the snapshot; while it is in flight a
request that is no read request is refused BUSY. A save that is written leaves the image in the memory,
one that fails leaves what no load accepts; both end the save and answer it, and a failure raises
IMAGE-FAULT (R187, R189, R195; the codes in the save's answer are log entry 12's, that a step which a
refused STOP-SWEEP held back then begins is log entry 47's, and that the position is one byte counted from 1
is log entry 67's). -/
def Obligations.ConfigurationAndImageRequests : Prop :=
  (∀ (s : State) (q : Request) (rest : List Request),
    let u := becomeCurrent q rest s
    (∀ n gs, s.headIs q rest (.setConfig n gs) → 1 ≤ n → n ≤ 24 → firstRepeated 1 [] gs = none →
      ((∀ g ∈ gs, s.settingOk g = true) → exec .setConfig s =
        .next (answered q .done [] { u with config := gs.foldl Settings.give s.config })) ∧
      ∀ before g after, gs = before ++ g :: after → (∀ d ∈ before, s.settingOk d = true) →
        s.settingOk g = false → exec .setConfig s =
          .next (answered q .range [byteOf (before.length + 1)] u)) ∧
    (∀ (c : Settings) (code v : Nat) (b : Byte), code ≠ 9 → code ≠ 22 →
      paramInRange code v = true → (c.give ⟨code, b, v⟩).param code = v) ∧
    (s.headIs q rest .saveImage → exec .saveImage s =
      .next { u with current := none, save := some ⟨q, s.image⟩ }) ∧
    (∀ c : Call, s.active = true → s.requests = q :: rest → readRequest q = .call c →
      c.isRead = false → s.save.isSome = true →
      let t := answered q .busy [] u
      exec c.command s = .next (if c = .stopSweep then resumeSweep t else t))) ∧
  ∀ (s : State) (v : Save) (n : Nat), s.active = true → s.save = some v →
    exec (.saveComplete .written) s = .next (sendReply v.request .done [1]
      (bump (.mgmt .savesDone) { s with save := none, serial := s.serial.written v.image })) ∧
    exec (.saveComplete (.failed n)) s = .next (sendReply v.request .done ([2] ++ v.request.side.word n)
      (raise .imageFault (bump (.mgmt .savesFailed) { s with save := none, serial := .failedSave }))) ∧
    Serial.failedSave.image = none

/-- EDIT-ENTRIES applies its 1 to 16 edits in order, all or none, and answers how many it applied and
ignored and the indexes taken, or the first failing edit's status and position (R63; that the position takes
one byte is log entry 67's). PURGE-LEARNED removes every LEARNED entry that is not QUARANTINED, and answers how
many (R71). -/
def Obligations.DirectoryRequestsApplyAllOrNone : Prop :=
  ∀ (s : State) (q : Request) (rest : List Request),
    let u := becomeCurrent q rest s
    (∀ n es, s.headIs q rest (.editEntries n es) → 1 ≤ n → n ≤ 16 →
      (∀ a g took t, runBatch es 1 0 0 [] [] u = .applied a g took t → exec .editEntries s =
        .next (answered q .done ([byteOf a, byteOf g] ++ took.map byteOf) t)) ∧
      (∀ st k, runBatch es 1 0 0 [] [] u = .refused st k → exec .editEntries s =
        .next (answered q st [byteOf k] u))) ∧
    (s.headIs q rest .purgeLearned → s.directoryOk → ∃ t,
      exec .purgeLearned s = .next (answered q .done
        [byteOf (s.dir.filter fun e => e.2.movable).length] t) ∧
      ∀ i, t.dir.find i = (s.dir.find i).filter fun e => !e.movable)

/-- HOLD-JOB keeps a READY job back, RELEASE-JOB gives a HELD job the tail of its queue, CANCEL-JOB ends a
job that no line serves, MOVE-JOB moves a HELD one and refuses BUSY one that is ARRIVING or in service, and
each refuses a free slot and a slot over 47; MOVE-JOB refuses a target or a level outside its values first,
before it looks at the slot (the model's choice, log entry 50).
CANCEL-JOB of a job in service asks its line to end it: a byte in flight makes both DRAINING, a STALLED
line's job ends at once, a RESETTING line loses it and stays RESETTING with its level order as it was (the
reading of log entry 20), a DRAINING one keeps the end asked.
FLUSH-SPOOL ends every job that no line serves and leaves the others to their lines, which choose nothing
within it; it answers how many of each (R116 to R119, R132, R139; the two numbers are log entry 29's). -/
def Obligations.JobRequestsActOnTheJob : Prop :=
  ∀ (s : State) (q : Request) (rest : List Request),
    let u := becomeCurrent q rest s
    (∀ slot j, slot < 48 → s.jobs.find slot = some j →
      (s.headIs q rest (.holdJob slot) → j.state = .ready → exec .holdJob s =
        .next (answered q .done [] (modJob slot (fun j => { j with state := .held, readyOrder := none }) u))) ∧
      (s.headIs q rest (.holdJob slot) → j.inService = true →
        exec .holdJob s = .next (answered q .busy [] u)) ∧
      (s.headIs q rest (.releaseJob slot) → j.state = .held → exec .releaseJob s =
        .next (answered q .done [] (tellLines j.target { u with
          jobs := u.jobs.put id slot { j with
            state := .ready, holdOnClose := false, readyOrder := some s.nextOrder }
          nextOrder := s.nextOrder + 1 }))) ∧
      (s.headIs q rest (.cancelJob slot) → j.inService = false → exec .cancelJob s =
        .next (answered q .done [] (endJob slot .cancelledManager u))) ∧
      (∀ n, s.headIs q rest (.cancelJob slot) → j.line = some n → (s.lines.get n).job = some slot →
        (j.state = .printing → (s.lines.get n).state = .feeding →
          (s.lines.get n).byteInFlight = true →
          ∃ t, exec .cancelJob s = .next (answered q .done [] t) ∧
            (t.lines.get n).state = .draining ∧ (t.lines.get n).byteInFlight = true ∧
            t.jobs.find slot =
              some { j with state := .draining, endAsked := some .cancelledManager }) ∧
        (j.state = .stalled → (s.lines.get n).state = .stalled →
          ∃ t, exec .cancelJob s = .next (answered q .done [] t) ∧ t.jobs.find slot = none ∧
            t.count (.spool .cancelledManager) =
              min Config.counterMax (s.count (.spool .cancelledManager) + 1)) ∧
        (j.state = .stalled → (s.lines.get n).state = .resetting →
          ∃ t, exec .cancelJob s = .next (answered q .done [] t) ∧ t.jobs.find slot = none ∧
            t.lines.get n = { s.lines.get n with job := none, takenFrom := none }) ∧
        (j.state = .draining → exec .cancelJob s = .next (answered q .done [] u))) ∧
      (∀ x y, s.headIs q rest (.moveJob slot x y) → (targetOr .pool x).isSome = true →
        (levelOr 0 y).isSome = true → j.state = .arriving ∨ j.inService = true →
        exec .moveJob s = .next (answered q .busy [] u)) ∧
      (∀ x y t l, s.headIs q rest (.moveJob slot x y) → j.state = .held → Target.ofCode x = some t →
        levelOf y = some l → exec .moveJob s = .next (answered q .done []
          (modJob slot (fun j => { j with target := t, level := l }) u)))) ∧
    (∀ slot, 48 ≤ slot ∨ s.jobs.find slot = none →
      let st : Status := if 48 ≤ slot then .range else .notFound
      (s.headIs q rest (.holdJob slot) → exec .holdJob s = .next (answered q st [] u)) ∧
      (s.headIs q rest (.releaseJob slot) → exec .releaseJob s = .next (answered q st [] u)) ∧
      (s.headIs q rest (.cancelJob slot) → exec .cancelJob s = .next (answered q st [] u)) ∧
      ∀ x y, s.headIs q rest (.moveJob slot x y) →
        ((targetOr .pool x).isSome = true → (levelOr 0 y).isSome = true →
          exec .moveJob s = .next (answered q st [] u)) ∧
        ((targetOr .pool x).isSome = false ∨ (levelOr 0 y).isSome = false →
          exec .moveJob s = .next (answered q .range [] u))) ∧
    (s.headIs q rest .flushSpool → s.jobsOk →
      (∀ d ∈ s.jobs, ∀ n, d.2.inService = true → d.2.line = some n →
        (s.lines.get n).job = some d.1) →
      ∃ t, exec .flushSpool s = .next (answered q .done
          [byteOf (s.jobs.countP fun d => !d.2.inService), byteOf (s.jobs.countP fun d => d.2.inService)]
          t) ∧
        (∀ d ∈ t.jobs, d.2.inService = true ∧ ∃ j, s.jobs.find d.1 = some j ∧ j.inService = true) ∧
        ∀ n, (t.lines.get n).job = (s.lines.get n).job ∨ (t.lines.get n).job = none)

/-- ROTATE-LINE to level k makes the order k+1, k+2, k+3, k modulo 4 and is answered DONE; an IDLE line
chooses at once, a job in service is left as it is, and in ROTATING mode its end turns the order again
from its taken-from level; a level over 3 or another line is refused RANGE (R141). -/
def Obligations.RotateLineSetsTheLevelOrder : Prop :=
  ∀ (s : State) (q : Request) (rest : List Request) (b y : Byte), s.headIs q rest (.rotateLine b y) →
    let u := becomeCurrent q rest s
    (∀ n k, Line.ofCode b = some n → levelOf y = some k →
      let v := modLine n (fun t => { t with lowest := k }) u
      levelOrder (v.lines.get n).lowest = [k + 1, k + 2, k + 3, k] ∧
      exec .rotateLine s = .next (answered q .done [] (choose n v)) ∧
      ((s.lines.get n).state ≠ .idle → choose n v = v) ∧
      v.jobs = s.jobs ∧ (v.lines.get n).job = (s.lines.get n).job) ∧
    (∀ t : LineState, t.rotating = true → ∀ l, t.takenFrom = some l → t.turned = l) ∧
    (Line.ofCode b = none ∨ levelOf y = none →
      exec .rotateLine s = .next (answered q .range [] u))

/-- RESET-LINE at a DISABLED line is refused CONFLICT. At any other it is counted and starts a pulse of 20
ms, afresh where one runs, with the byte in flight abandoned and every timer of the line stopped: a job in
service stays in service and is STALLED, its position and copies as they were, and the job of a DRAINING
line ends with the end asked of it (its level order turns, and the line does not choose: log entry 20).
That the line takes it before the reply is offered is the model's choice (log entry 58). A line code it does
not list makes the request MALFORMED; SET-LINE does not disable a
line with a job, sets the mode and the hold mask it gives, and enables a DISABLED line through the pulse;
RESUME-LINE answers the state it leaves (R130, R134, R136, R137, R202). -/
def Obligations.LineRequestsActOnTheLine : Prop :=
  (∀ (p : Port) (k : Key) (m b : Byte), Line.ofCode b = none →
    readRequest ⟨p, k, [m, 0x31, b]⟩ = .malformed none) ∧
  ∀ (s : State) (q : Request) (rest : List Request) (b : Byte) (n : Line), Line.ofCode b = some n →
    let u := becomeCurrent q rest s
    let t := s.lines.get n
    (s.headIs q rest (.resetLine n) →
      (t.state = .disabled → exec .resetLine s = .next (answered q .conflict [] u)) ∧
      let pulsed (t : LineState) : LineState := { t with
        state := .resetting, byteInFlight := false, pendingCause := none, stallCause := none
        ackTimer := none, busyWait := none, retryTimer := none, data := 0, initTimer := some 20 }
      let reset := modLine n pulsed (bump (.line n .resets) u)
      (t.state ≠ .disabled → t.job = none →
        exec .resetLine s = .next (answered q .done [] reset)) ∧
      (∀ slot j, t.state ≠ .disabled → t.state ≠ .draining → t.job = some slot →
        s.jobs.find slot = some j → exec .resetLine s = .next (answered q .done []
          { reset with jobs := s.jobs.put id slot { j with state := .stalled } })) ∧
      (∀ slot j e, t.state = .draining → t.job = some slot → s.jobs.find slot = some j →
        j.endAsked = some e → ∃ v, exec .resetLine s = .next (answered q .done [] v) ∧
          v.jobs = s.jobs.drop slot ∧ v.lines = s.lines.set n { pulsed t with
            job := none, takenFrom := none
            lowest := if t.rotating then t.takenFrom.getD t.lowest else t.lowest } ∧
          v.count (.line n .resets) = min Config.counterMax (s.count (.line n .resets) + 1) ∧
          v.count (.spool e.counter) = min Config.counterMax (s.count (.spool e.counter) + 1))) ∧
    (∀ e m x, s.headIs q rest (.setLine b e m x) →
      (e = some false → t.job.isSome = true → m = 0xFF →
        exec .setLine s = .next (answered q .busy [] u)) ∧
      (e = none → m = 2 → x = none → t.state ≠ .idle → exec .setLine s =
        .next (answered q .done [] (modLine n (fun t => { t with rotating := true }) u))) ∧
      (∀ k, e = none → m = 0xFF → x = some k → t.state ≠ .idle → exec .setLine s =
        .next (answered q .done [] (modLine n (fun t => { t with holdMask := k }) u))) ∧
      (e = some true → m = 0xFF → x = none → t.state = .disabled → t.job = none →
        exec .setLine s = .next (answered q .done [] (modLine n (fun t => { t with
          state := .resetting, enabled := true, byteInFlight := false, pendingCause := none
          stallCause := none, ackTimer := none, busyWait := none, retryTimer := none, data := 0
          initTimer := some 20 }) u))) ∧
      (m ≠ 0xFF → m ≠ 1 → m ≠ 2 → exec .setLine s = .next (answered q .range [] u))) ∧
    (s.headIs q rest (.resumeLine b) →
      (t.state ≠ .stalled → exec .resumeLine s = .next (answered q .done [t.state.code] u)) ∧
      (∀ slot j, t.state = .stalled → t.stallCause = some .ackTimeout ∨ t.stallCause = some .busyTimeout →
        t.good = true → t.job = some slot → s.jobs.find slot = some j →
        ∃ v, exec .resumeLine s = .next (answered q .done [LineMode.feeding.code] v) ∧
          (v.lines.get n).state = .feeding ∧ (v.lines.get n).stallCause = none ∧
          v.jobs.find slot = some { j with state := .printing }))

/-- SET-PORT sets broadcast-forward and management-accept, takes a port that is not OFF to OFF with its
queue purged, its hold timer stopped and its hold time and failed tests kept, and brings an OFF port to its
entry test; a segment has no broadcast-forward to set. RESTART-PORT is refused at an OFF port, and brings a
port in any other state to a new entry test with its queue purged, a link without its line; its work is done
before its reply is offered: the model's choice (log entry 58). RESTART-INTERFACE is counted and takes
nothing further down in CLOCK-HOLD; else both links are NO-SIGNAL, and one that was CONNECTED has its flap
counted, but in OFF: an IN-SERVICE or PROBING one is TESTING with its queue purged, or ISOLATED where the
flap's own request is taken first, one in TESTING tests afresh once it connects, and an ISOLATED, FAILED or
OFF one keeps its state (R20, R28, R29, R30, R166, R171, R172). -/
def Obligations.PortRequestsActOnThePort : Prop :=
  ∀ (s : State) (q : Request) (rest : List Request), s.resultWaits = false →
    let u := becomeCurrent q rest s
    (∀ b p, Port.ofCode b = some p →
      (∀ x y, s.headIs q rest (.setPort b none x y) → p.side = .pair ∨ x = none →
        exec .setPort s = .next (answered q .done [] (modService p (fun v => { v with
          bcast := x.getD v.bcast, accept := y.getD v.accept }) u))) ∧
      (∀ x y z, s.headIs q rest (.setPort b x (some z) y) → p.side = .trunk →
        exec .setPort s = .next (answered q .range [] u)) ∧
      (s.headIs q rest (.setPort b (some false) none none) → s.serviceOf p ≠ .off →
        ∃ t, exec .setPort s = .next (answered q .done [] t) ∧ t.serviceOf p = .off ∧
          t.queues.get p = [] ∧ (t.service.get p).holdTimer = none ∧
          (t.service.get p).holdTime = (s.service.get p).holdTime ∧
          (t.service.get p).failedTests = (s.service.get p).failedTests ∧
          ((∀ v, s.testOf p = some v → v.purpose = .entry) →
            t.slots.get p = none ∧ t.testOf p = none)) ∧
      (s.headIs q rest (.setPort b (some true) none none) → s.serviceOf p = .off →
        ∃ t, exec .setPort s = .next (answered q .done [] t) ∧ t.serviceOf p = .testing ∧
          ((t.testOf p).map PortTest.purpose) = some .entry) ∧
      (s.headIs q rest (.restartPort b) → s.serviceOf p = .off →
        exec .restartPort s = .next (answered q .conflict [] u)) ∧
      (s.headIs q rest (.restartPort b) → s.serviceOf p ≠ .off →
        ∃ t, exec .restartPort s = .next (answered q .done [] t) ∧ t.serviceOf p = .testing ∧
          t.queues.get p = [] ∧ ((t.testOf p).map PortTest.purpose) = some .entry ∧
          (t.service.get p).testNumber = (s.service.get p).testNumber + 1 ∧
          (t.service.get p).holdTimer = none ∧
          (t.service.get p).holdTime = (s.service.get p).holdTime ∧
          (t.service.get p).failedTests = (s.service.get p).failedTests ∧
          ∀ l, p = .link l → (t.links.get l).line = .noSignal ∧ (t.links.get l).signalSeen = false ∧
            (t.links.get l).retrainPause = none ∧
            ((t.testOf p).map PortTest.phase) = some .waitConnect)) ∧
    (∀ b i, Iface.ofCode b = some i → s.headIs q rest (.restartInterface b) →
      ((s.ifaces.get i).clockHold = true → exec .restartInterface s =
        .next (answered q .done [] (bump (.iface i .restarts) u))) ∧
      ((s.ifaces.get i).clockHold = false →
        ∃ t, exec .restartInterface s = .next (answered q .done [] t) ∧
          t.count (.iface i .restarts) = min Config.counterMax (s.count (.iface i .restarts) + 1) ∧
          ∀ l ∈ i.links, (t.links.get l).line = .noSignal ∧ (t.links.get l).signalSeen = false ∧
            (t.links.get l).retrainPause = none ∧
            let p := Port.link l
            ((s.links.get l).line = .connected →
              (s.serviceOf p = .off → t.count (.link l .flaps) = s.count (.link l .flaps)) ∧
              (s.serviceOf p ≠ .off → t.count (.link l .flaps) =
                min Config.counterMax (s.count (.link l .flaps) + 1)) ∧
              (s.serviceOf p = .inService ∨ s.serviceOf p = .probing → t.queues.get p = [] ∧
                (t.serviceOf p = .testing ∨ t.serviceOf p = .isolated)) ∧
              (∀ v, s.serviceOf p = .testing → s.testOf p = some v → v.phase ≠ .held →
                t.serviceOf p = .testing ∧
                ((t.testOf p).map PortTest.phase) = some .waitConnect) ∧
              (s.serviceOf p = .isolated ∨ s.serviceOf p = .failed ∨ s.serviceOf p = .off →
                t.serviceOf p = s.serviceOf p))))

/-- LOAD-STEPS replaces the list and forgets the last ended echo; START-SWEEP begins a pass with the
interval it gives or the one in force: an ECHO as the first step is outstanding at once, and with an empty
list the pass is done at once. RUN-STEP begins one step: an ECHO is outstanding; a LOOP-EXTERNAL puts an
IN-SERVICE port in PROBING, a LOOP-INTERNAL there is SKIPPED, and either runs directly on an ISOLATED or
OFF port. STOP-SWEEP records the step whose probe is outstanding NOT-RUN, and no step between two; an ECHO
it abandons is the last ended echo, and a LOOP ends with no result: its test is over, a PROBING port is
IN-SERVICE again with its queue, and an ISOLATED or OFF one stays, but for an ISOLATED one whose hold expiry
waited, which is TESTING. A busy engine refuses the first three. The model's choices are that a
START-SWEEP with an interval over 3,600 is RANGE there too and a RUN-STEP of no step is BUSY there (log
entry 59), and that what is begun comes before the reply (log entry 58) (R163, R168 to R170, R177, R178,
R181 to R184). -/
def Obligations.SweepRequestsDriveTheEngine : Prop :=
  ∀ (s : State) (q : Request) (rest : List Request),
    let u := becomeCurrent q rest s
    let w := s.sweep
    (∀ ts, s.headIs q rest (.loadSteps ts) →
      (w.run.isSome = true → exec .loadSteps s = .next (answered q .busy [] u)) ∧
      (w.run = none → ts.length ≤ 32 →
        (∀ t ∈ ts, stepFits t.kind t.probe t.action = true ∧ t.step.isSome = true) →
        exec .loadSteps s = .next (answered q .done [] { u with
          sweep := { w with steps := ts.filterMap StepGiven.step, lastEcho := none } }))) ∧
    (∀ v, s.headIs q rest (.startSweep (some v)) → 3600 < v →
      exec .startSweep s = .next (answered q .range [] u)) ∧
    (∀ given v, s.headIs q rest (.startSweep given) →
      given = some v ∧ v ≤ 3600 ∨ given = none ∧ v = w.interval →
      (w.run.isSome = true → exec .startSweep s = .next (answered q .busy [] u)) ∧
      (w.run = none → w.steps = [] → ∃ t,
        exec .startSweep s = .next (answered q .done [] t) ∧ t.sweep.run = none ∧
        t.sweep.interval = v ∧ t.sweep.enabled = decide (v ≠ 0) ∧
        t.sweep.timer = (if v = 0 then none else some v) ∧ t.raised .sweepPassDone = true) ∧
      (∀ x key, w.run = none → w.step 1 = some x → x.target = .station key → s.echoPorts key ≠ [] →
        ∃ t, exec .startSweep s = .next (answered q .done [] t) ∧ t.sweep.run = some ⟨.pass, 1⟩ ∧
          t.sweep.interval = v ∧ t.sweep.enabled = true ∧ t.sweep.timer = none ∧
          t.sweep.outstanding =
            some (.echo 1 (w.probeNumber + 1) key s.config.echoTimeout))) ∧
    (∀ k, s.headIs q rest (.runStep k) →
      (w.run.isSome = true → exec .runStep s = .next (answered q .busy [] u)) ∧
      (w.run = none → k = 0 ∨ w.steps.length < k →
        exec .runStep s = .next (answered q .notFound [] u)) ∧
      (∀ t key, w.run = none → w.step k = some t → t.target = .station key →
        s.echoPorts key ≠ [] → ∃ v, exec .runStep s = .next (answered q .done [] v) ∧
          v.sweep.run = some ⟨.single, k⟩ ∧ v.sweep.probeNumber = w.probeNumber + 1 ∧
          v.sweep.outstanding = some (.echo k (w.probeNumber + 1) key s.config.echoTimeout)) ∧
      (∀ t p, w.run = none → w.step k = some t → t.target = .port p →
        (s.serviceOf p = .inService → t.probe = .loopExternal → s.heldReply = none →
          ∃ v, exec .runStep s = .next (answered q .done [] v) ∧ v.serviceOf p = .probing ∧
            v.loopMode p = .external ∧ ((v.testOf p).map PortTest.purpose) = some .probe ∧
            v.sweep.run = some ⟨.single, k⟩ ∧
            v.sweep.outstanding = some (.loop k .loopExternal none)) ∧
        (s.serviceOf p = .inService → t.probe = .loopInternal → w.passWaiting = false →
          exec .runStep s = .next (answered q .done [] (bump (.sweep .stepsSkipped) { u with
            sweep := { w with
              steps := w.steps.modify (k - 1) (fun x => { x with result := .skipped }) } }))) ∧
        (s.serviceOf p = .isolated ∨ s.serviceOf p = .off → s.testOf p = none →
          t.probe = .loopInternal ∨ t.probe = .loopExternal →
          ∃ v, exec .runStep s = .next (answered q .done [] v) ∧ v.serviceOf p = s.serviceOf p ∧
            v.loopMode p = (if t.probe = .loopInternal then .internal else .external) ∧
            ((v.testOf p).map PortTest.purpose) = some .loop ∧
            v.sweep.outstanding = some (.loop k t.probe none)))) ∧
    (s.headIs q rest .stopSweep →
      (w.outstanding = none → exec .stopSweep s = .next (answered q .done [] { u with
        sweep := { w with enabled := false, run := none, timer := none, passWaiting := false } })) ∧
      (∀ k b key tm r, w.run = some r → w.outstanding = some (.echo k b key tm) → ∃ t,
        exec .stopSweep s = .next (answered q .done [] t) ∧ t.sweep.run = none ∧
        t.sweep.enabled = false ∧ t.sweep.timer = none ∧ t.sweep.outstanding = none ∧
        t.sweep.lastEcho = some (b, key) ∧
        t.sweep.steps = w.steps.modify (r.position - 1) (fun x => { x with result := .notRun })) ∧
      (∀ r k x p v, w.run = some r → w.outstanding = some (.loop r.position k none) →
        w.step r.position = some x → x.target = .port p → s.testOf p = some v → v.purpose ≠ .entry →
        let held := s.serviceOf p = .isolated ∧ (s.service.get p).holdExpired = true
        ∃ t, exec .stopSweep s = .next (answered q .done [] t) ∧
          t.sweep = { w with
            run := none, enabled := false, timer := none, passWaiting := false, outstanding := none
            steps := w.steps.modify (r.position - 1) (fun x => { x with result := .notRun }) } ∧
          countedUp (.sweep .stepsNotRun) 1 s t ∧
          t.count (.service p .probesPass) = s.count (.service p .probesPass) ∧
          t.count (.service p .probesFail) = s.count (.service p .probesFail) ∧
          (s.serviceOf p = .probing → t.serviceOf p = .inService) ∧
          (s.serviceOf p = .isolated ∨ s.serviceOf p = .off → ¬ held →
            t.serviceOf p = s.serviceOf p) ∧
          (¬ held → t.testOf p = none ∧ t.loopMode p = .normal ∧ t.slots.get p = none ∧
            (s.heldReply = none → t.queues = s.queues)) ∧
          (held → t.serviceOf p = .testing ∧
            t.entryTest p (if s.ready p then .internal else .waitConnect))))

/-- CLEAR-ALL empties the spool, the queues, the tables and the sweep list, clears the flags, begins a window,
keeps the configuration, the mask, the serial memory and entry 0, and brings every port that is not OFF to its
entry test. Each printer line loses its job, its feed and its timers, has the level order 0, 1, 2, 3, keeps its
settings and its inputs, and starts the INIT pulse unless it is DISABLED. A reply held before is lost and counted.
Its own reply is held; to an arrival port that is OFF it is offered at once and lost, and no flag stands
after that but POOL-LOW, where the reply's own record takes the pool below the threshold. A reception under
way from the coax or a line stands as it stood (R17, R32, R144, R188, R196; that the entry test's loop mode does
not end it is log entry 39's). A request that cannot be read is answered MALFORMED with its position, if it has
one, and counted (R187; that a position is one byte counted from 1 is log entry 67's). -/
def Obligations.ClearAllAndMalformedRequests : Prop :=
  ∀ (s : State) (q : Request) (rest : List Request),
    let u := becomeCurrent q rest s
    (s.headIs q rest .clearAll → s.directoryOk →
      ∃ t, exec .clearAll s = .next t ∧ t.jobs = [] ∧ t.unknownLog = [] ∧ t.sweep.steps = [] ∧
        t.sweep.run = none ∧ t.noticeOut = false ∧ t.requests = rest ∧
        t.current = none ∧ t.windowBegun ∧
        t.dir = [(0, Entry.bridgeEntry)] ∧ t.config = s.config ∧ t.mask = s.mask ∧
        t.serial = s.serial ∧ (∀ p, t.queues.get p = []) ∧
        (∀ p, s.serviceOf p ≠ .off → t.serviceOf p = .testing ∧
          t.entryTest p (if s.ready p then .internal else .waitConnect)) ∧
        (∀ p, s.serviceOf p = .off → t.serviceOf p = .off) ∧
        levelOrder 3 = [0, 1, 2, 3] ∧ (∀ n, t.lines.get n = (s.lines.get n).cleared) ∧
        (∀ x, (s.segs.get x).rx.own = false → (t.segs.get x).rx = (s.segs.get x).rx) ∧
        (∀ l, (s.links.get l).rx.own = false → (t.links.get l).rx = (s.links.get l).rx) ∧
        (s.serviceOf q.port ≠ .off → t.heldReply = some q ∧ t.flags = 0 ∧
          (s.heldReply = none → t.count (.mgmt .replyLost) = s.count (.mgmt .replyLost)) ∧
          (s.heldReply ≠ none → countedUp (.mgmt .replyLost) 1 s t)) ∧
        (s.serviceOf q.port = .off → t.heldReply = none ∧
          (∀ f, f ≠ .poolLow → t.raised f = false) ∧
          t.count (.mgmt .repliesSent) = s.count (.mgmt .repliesSent) ∧
          countedUp (.mgmt .replyLost) (if s.heldReply = none then 1 else 2) s t)) ∧
    (∀ position, s.active = true → s.requests = q :: rest → readRequest q = .malformed position →
      exec .malformedRequestTaken s =
        .next (answered q .malformed (position.toList.map byteOf) u)) ∧
    (q.payload.length < 2 → readRequest q = .malformed none)

/-! ### Fault monitoring -/

/-- An error is laid to the station that holds its source key: a value no station holds, a key no entry
holds and an alias's key are counted apart; a station's tally goes up, and at the thresholds a GOOD one
becomes SUSPECT, a SUSPECT one QUARANTINED, and one on PROBATION is QUARANTINED at once (R150, R151, R153,
R154). A report that brings the error sum of an IN-SERVICE segment to its threshold makes one request, and
the segment is ISOLATED with cause ERRORS: its queue is purged, its hold timer starts with the hold time,
and PORT-ISOLATED is raised. In a state that carries no traffic the request is ignored and counted (R146,
R148, R149, R167). A link's reports enter its window counts, a length-bad one its station's account alone;
at half a threshold a warning is counted once; at the threshold an IN-SERVICE link is ISOLATED with cause
ERRORS, and at the flap limit, judged at flap reports alone, with cause FLAPPING (R147, R148, R158). That a
length-bad report, which enters no window count, is not followed by a judging is the model's choice (log
entry 56). -/
def Obligations.ReportsAreLaidAndJudged : Prop :=
  (∀ (k : Key) (s : State),
    (k.isStation = false → laidTo k s = bump (.fault .unattributable) s) ∧
    (k.isStation = true → s.lookup k = none → laidTo k s = bump (.fault .attributedNoEntry) s) ∧
    (∀ i e x y, k.isStation = true → s.lookup k = some (i, e) → e.kind = .printer x y →
      laidTo k s = bump (.fault .attributedToAlias) s) ∧
    ∀ i e w, k.isStation = true → s.lookup k = some (i, e) → e.kind = .station w → i ≠ 0 →
      s.station i = some w →
      let t := laidTo k s
      let tally := min 255 (w.tally + 1)
      let quarantined := { w with
        tally := tally, standing := .quarantined, minutes := s.config.quarantineTime }
      t.count (.fault .attributedErrors) =
          min Config.counterMax (s.count (.fault .attributedErrors) + 1) ∧
        (w.standing = .quarantined ∨ w.standing = .good ∧ tally < s.config.suspectThreshold ∨
          w.standing = .suspect ∧ tally < s.config.quarantineThreshold →
            t.station i = some { w with tally := tally }) ∧
        (w.standing = .good → s.config.suspectThreshold ≤ tally →
          tally < s.config.quarantineThreshold →
            t.station i = some { w with tally := tally, standing := .suspect }) ∧
        (w.standing = .suspect ∨ w.standing = .good ∧ s.config.suspectThreshold ≤ tally →
          s.config.quarantineThreshold ≤ tally →
            t.station i = some quarantined ∧ t.raised .stationQuarantined = true) ∧
        (w.standing = .probation →
          t.station i = some quarantined ∧ t.raised .stationQuarantined = true)) ∧
  (∀ (x : Seg) (s : State), s.window.running = true → (s.marks.get (.seg x)).errorsMade = false →
    (s.segWin.get x).runts < 65535 → s.errorSum (.seg x) + 1 = s.config.segThreshold →
    let t := segReport x .runt s
    (t.marks.get (.seg x)).errorsMade = true ∧
      t.count (.faultPort (.seg x) .requestsErrors) =
        min Config.counterMax (s.count (.faultPort (.seg x) .requestsErrors) + 1) ∧
      (s.serviceOf (.seg x) = .inService → t.serviceOf (.seg x) = .isolated ∧
        (t.service.get (.seg x)).cause = some .errors ∧
        (t.service.get (.seg x)).holdTimer = some (s.service.get (.seg x)).holdTime ∧
        (t.service.get (.seg x)).restoreDue = true ∧ t.queues.get (.seg x) = [] ∧
        t.raised .portIsolated = true) ∧
      (s.serviceOf (.seg x) ≠ .inService → s.serviceOf (.seg x) ≠ .probing →
        t.serviceOf (.seg x) = s.serviceOf (.seg x) ∧
        t.count (.service (.seg x) .requestsIgnored) =
          min Config.counterMax (s.count (.service (.seg x) .requestsIgnored) + 1))) ∧
  ∀ (l : Link) (s : State), s.window.running = true →
    let w := s.linkWin.get l
    let m := s.marks.get (.link l)
    let counted (v : LinkWindow) : State := { s with linkWin := s.linkWin.set l v }
    let sum := s.errorSum (.link l)
    let limit := s.config.linkThreshold
    let isolated (t : State) (c : IsolationCause) := t.serviceOf (.link l) = .isolated ∧
      (t.service.get (.link l)).cause = some c ∧ t.queues.get (.link l) = [] ∧
      t.raised .portIsolated = true
    (∀ k, linkReport l (.lengthBad k) s = laidTo k s) ∧
    (sum + 1 < halfUp limit →
      linkReport l .checkBad s = counted { w with checkBad := windowUp w.checkBad } ∧
      linkReport l .symbolError s = counted { w with symbolErrors := windowUp w.symbolErrors } ∧
      linkReport l .symbolErrorFrame s =
        counted { w with symbolErrorFrames := windowUp w.symbolErrorFrames } ∧
      (w.flaps + 1 < halfUp s.config.flapLimit →
        linkReport l .flap s = counted { w with flaps := windowUp w.flaps }) ∧
      (halfUp s.config.flapLimit ≤ w.flaps + 1 → w.flaps + 1 < s.config.flapLimit →
        w.flaps < 65535 → m.flapsWarned = false →
        linkReport l .flap s = bump (.faultPort (.link l) .flapsWarning)
          { counted { w with flaps := w.flaps + 1 } with
            marks := s.marks.set (.link l) { m with flapsWarned := true } })) ∧
    (w.checkBad < 65535 → halfUp limit ≤ sum + 1 → sum + 1 < limit → m.errorsWarned = false →
      linkReport l .checkBad s = bump (.faultPort (.link l) .errorsWarning)
        { counted { w with checkBad := w.checkBad + 1 } with
          marks := s.marks.set (.link l) { m with errorsWarned := true } }) ∧
    (s.serviceOf (.link l) = .inService → s.heldReply = none →
      (w.checkBad < 65535 → sum + 1 = limit → m.errorsMade = false →
        isolated (linkReport l .checkBad s) .errors) ∧
      (w.flaps < 65535 → sum < limit → w.flaps + 1 = s.config.flapLimit → m.flappingMade = false →
        isolated (linkReport l .flap s) .flapping))

/-! ### Port tests and the sweep -/

/-- A TEST frame not returned in its time fails an entry test: in the INTERNAL phase the port is FAILED,
in the EXTERNAL phase ISOLATED with cause TEST and twice the hold time, to 320 s at most. A frame the pool
had no record for is asked for again, and a timer that runs from its first placing then goes on: the model's
choice (log entry 17). When the hold timer ends the port is TESTING with a new entry test
(R162, R164, R165, R168). The third TEST frame returned in the EXTERNAL phase of an entry test brings the
port to IN-SERVICE with its hold time at 5 s, its failed-test count at 0 and its window counts cleared,
and PORT-RESTORED is raised where a restore is due (R149, R162, R165). -/
def Obligations.PortTestsJudgeThePort : Prop :=
  (∀ (p : Port) (s : State), s.active = true → s.resultWaits = false → s.heldReply = none →
    (∀ t, s.testOf p = some t → t.purpose = .entry → t.timer.isSome = true → t.phase ≠ .external →
      ∃ u, exec (.testFrameTimer p) s = .next u ∧ u.serviceOf p = .failed ∧ u.testOf p = none ∧
        u.queues.get p = [] ∧ u.slots.get p = none ∧ u.loopMode p = .normal ∧
        u.raised .portFailed = true ∧ (u.service.get p).restoreDue = true ∧
        (u.service.get p).failedTests = min 255 ((s.service.get p).failedTests + 1) ∧
        (u.service.get p).holdTime = (s.service.get p).holdTime) ∧
    (∀ t, s.testOf p = some t → t.purpose = .entry → t.timer.isSome = true → t.phase = .external →
      ∃ u, exec (.testFrameTimer p) s = .next u ∧ u.serviceOf p = .isolated ∧ u.testOf p = none ∧
        (u.service.get p).cause = some .test ∧ u.raised .portIsolated = true ∧
        (u.service.get p).holdTime = min 320 (2 * (s.service.get p).holdTime) ∧
        (u.service.get p).holdTimer = some (min 320 (2 * (s.service.get p).holdTime))) ∧
    (∀ t, s.testOf p = some t → t.wait = .record → t.phase.sends = true → s.slots.get p = none →
      s.pool.free ≠ 0 → ∃ u, exec (.testFrameRetry p) s = .next u ∧
        u.slots.get p = some s.nextRecord ∧
        ((u.testOf p).map PortTest.wait) = some .none ∧
        ((u.testOf p).map PortTest.timer) = some (some (t.timer.getD (frameTime t.phase)))) ∧
    (s.serviceOf p = .isolated → (s.service.get p).holdTimer.isSome = true → s.testOf p = none →
      ∃ u, exec (.holdTimerExpiry p) s = .next u ∧ u.serviceOf p = .testing ∧
        (u.service.get p).holdTimer = none ∧
        ((u.testOf p).map PortTest.purpose) = some .entry ∧
        (u.service.get p).testNumber = (s.service.get p).testNumber + 1)) ∧
  ∀ (p : Port) (c : Bool) (s : State) (h : Header) (rid : Nat) (rest : List Handed) (t : PortTest),
    s.active = true → s.resultWaits = false → s.heldReply = none →
    s.handover.get p = ⟨h, rid⟩ :: rest → h.kind = kindTest → s.testOf p = some t →
    t.purpose = .entry → t.phase = .external → t.sequence = 3 → t.timer.isSome = true →
    s.payload rid = testPayload p (s.service.get p).testNumber .external 3 →
    ∃ u, exec (.takeFrame p c) s = .next u ∧ u.serviceOf p = .inService ∧ u.testOf p = none ∧
      u.loopMode p = .normal ∧ (u.service.get p).holdTime = 5 ∧ (u.service.get p).failedTests = 0 ∧
      u.errorSum p = 0 ∧ (u.service.get p).restoreDue = false ∧
      ((s.service.get p).restoreDue = true → u.raised .portRestored = true) ∧
      u.count (.service p .testsPassed) = min Config.counterMax (s.count (.service p .testsPassed) + 1)

/-- An ECHO whose timer ends is a FAIL of its step, and the last ended echo; the fail action is taken at
the fail limit and not before. A pass goes on to its next step, but where a STOP-SWEEP is the next command,
which then finds no step begun. An interval's end begins a pass of an enabled, idle engine, and waits for
the end of a RUN-STEP. A TEST frame not returned ends a loop with FAIL, and its port returns from PROBING
to IN-SERVICE with its queue kept; an isolation request ends it with FAIL too, and the port is ISOLATED
(R169, R170, R177, R179, R181, R183; the place of the next step is log entry 47's). -/
def Obligations.SweepTimersEndProbesAndBeginPasses : Prop :=
  ∀ s : State, s.active = true →
    (∀ n b k tm x, s.sweep.outstanding = some (.echo n b k tm) → s.sweep.run = some ⟨.single, n⟩ →
      s.sweep.passWaiting = false → s.sweep.step n = some x →
      (x.fails + 1 < x.failLimit → ∃ t, exec .echoTimerExpiry s = .next t ∧
        t.sweep.step n = some { x with result := .fail, fails := x.fails + 1 } ∧
        t.sweep.run = none ∧ t.sweep.outstanding = none ∧ t.sweep.lastEcho = some (b, k) ∧
        t.flags = s.flags) ∧
      (x.failLimit ≤ x.fails + 1 → x.action = .halt → ∃ t, exec .echoTimerExpiry s = .next t ∧
        t.sweep.step n = some { x with result := .fail, fails := 0 } ∧ t.sweep.enabled = false ∧
        t.sweep.run = none ∧ t.raised .sweepHalted = true)) ∧
    (s.sweep.timer.isSome = true → s.sweep.enabled = true →
      (s.sweep.run.isSome = true → exec .intervalExpiry s =
        .next { s with sweep := { s.sweep with timer := none, passWaiting := true } }) ∧
      (s.sweep.run = none → s.sweep.steps = [] → ∃ t, exec .intervalExpiry s = .next t ∧
        t.raised .sweepPassDone = true ∧ t.sweep.run = none ∧
        t.count (.sweep .passesDone) = min Config.counterMax (s.count (.sweep .passesDone) + 1))) ∧
    (s.sweep.timer = none → exec .intervalExpiry s = .next s) ∧
    (∀ n b k tm x y key, s.sweep.outstanding = some (.echo n b k tm) →
      s.sweep.run = some ⟨.pass, n⟩ → s.sweep.step n = some x → x.fails + 1 < x.failLimit →
      s.sweep.step (n + 1) = some y → y.target = .station key →
      (s.pending.head? = some .stopSweep → ∃ t, exec .echoTimerExpiry s = .next t ∧
        t.sweep.step n = some { x with result := .fail, fails := x.fails + 1 } ∧
        t.sweep.run = some ⟨.pass, n + 1⟩ ∧ t.sweep.outstanding = none ∧
        t.sweep.step (n + 1) = some y) ∧
      (s.pending.head? ≠ some .stopSweep → s.echoPorts key ≠ [] →
        ∃ t, exec .echoTimerExpiry s = .next t ∧
          t.sweep.step n = some { x with result := .fail, fails := x.fails + 1 } ∧
          t.sweep.run = some ⟨.pass, n + 1⟩ ∧ t.sweep.outstanding =
            some (.echo (n + 1) (s.sweep.probeNumber + 1) key s.config.echoTimeout))) ∧
    ∀ p v n k x, s.testOf p = some v → v.purpose = .probe → s.serviceOf p = .probing →
      s.heldReply = none → s.sweep.outstanding = some (.loop n k none) →
      s.sweep.run = some ⟨.single, n⟩ → s.sweep.passWaiting = false → s.sweep.step n = some x →
      x.fails + 1 < x.failLimit →
      let failed (t : State) := t.testOf p = none ∧ t.loopMode p = .normal ∧
        t.sweep.step n = some { x with result := .fail, fails := x.fails + 1 } ∧
        t.sweep.run = none ∧ t.sweep.outstanding = none
      (v.timer.isSome = true → ∃ t, exec (.testFrameTimer p) s = .next t ∧ failed t ∧
        t.serviceOf p = .inService ∧ t.queues.get p = s.queues.get p) ∧
      ∀ y, p = .seg y → s.window.running = true → (s.segs.get y).stuck = true →
        (s.segs.get y).heldTimer.isSome = true → ∃ t, exec (.stuckHeld y) s = .next t ∧ failed t ∧
          t.serviceOf p = .isolated ∧ (t.service.get p).cause = some .line ∧ t.queues.get p = []

/-! ### What the commands leave alone -/

/-- What happens at a segment or a link, at the printer lines, and at an expiry leaves power, the pins
RESET and COMMISSION, the time, the serial memory, the configuration, the mask, the request queue and the
save in flight as they are; at the printer lines it leaves the segments, the links, the interfaces, the
directory, the ports' records, the sweep and the unknown-destination log as well. With no command waiting,
one millisecond passes (the model's choice, log entry 3). While the blocks do not act nothing changes. While
they act the running times move and nothing else does: each segment's, link's, interface's and line's own
millisecond, the timer of each port's test, the echo timer, and the milliseconds of the timebase; at the
last millisecond of a second the hold timers, the interval timer, the window time up to its length (log
entry 36) and the seconds as well. -/
def Obligations.UnitCommandsLeaveTheRestAlone : Prop :=
  (∀ (c : Instr) (s t : State), exec c s = .next t →
    let kept := t.pending = s.pending ∧ t.powered = s.powered ∧ t.resetLow = s.resetLow ∧
      t.commission = s.commission ∧ t.time = s.time ∧ t.serial = s.serial ∧ t.config = s.config ∧
      t.mask = s.mask ∧ t.window = s.window ∧ t.loading = s.loading ∧ t.save = s.save ∧
      t.requests = s.requests ∧ t.current = s.current
    ((∃ x, c = .carrierRise x ∨ c = .carrierFall x ∨ (∃ b, c = .coaxByte x b) ∨
        c = .segmentTakeFrame x ∨ c = .deferQuiet x ∨ c = .segmentSent x ∨ c = .collision x ∨
        c = .retryWaitExpiry x ∨ c = .stuck x ∨ c = .stuckHeld x ∨ c = .unterminated x) → kept) ∧
    ((∃ l, c = .signalPresent l ∨ c = .signalLost l ∨ c = .retrainPauseExpiry l ∨ c = .trained l ∨
        c = .trainingTimeout l ∨ c = .frameStart l ∨ (∃ b, c = .linkByte l b) ∨ c = .symbolError l ∨
        c = .frameEnd l ∨ c = .linkTakeFrame l ∨ c = .linkSent l ∨ c = .gapExpiry l) → kept) ∧
    ((∃ i, c = .clockLoss i ∨ c = .clockHoldExpiry i) → kept) ∧
    ((∃ p, c = .testFrameTimer p ∨ c = .testFrameRetry p ∨ c = .holdTimerExpiry p) → kept) ∧
    (c = .arrivalTimeout ∨ c = .aging ∨ c = .minuteExpiry ∨ c = .intervalExpiry ∨
      c = .echoTimerExpiry → kept) ∧
    ((∃ n, c = .ackPulse n ∨ c = .ackTimeout n ∨ (∃ b, c = .selectChange n b ∨
        c = .paperOutChange n b ∨ c = .faultChange n b ∨ c = .busyChange n b) ∨
        c = .busyLimitExpiry n ∨ c = .stallRetryExpiry n ∨ c = .initPulseEnd n) →
      kept ∧ t.segs = s.segs ∧ t.links = s.links ∧ t.ifaces = s.ifaces ∧ t.dir = s.dir ∧
        t.service = s.service ∧ t.sweep = s.sweep ∧ t.unknownLog = s.unknownLog ∧
        t.segWin = s.segWin ∧ t.linkWin = s.linkWin ∧ t.slots = s.slots ∧ t.handover = s.handover) ∧
    (∀ n, c = .ackPulse n ∨ c = .ackTimeout n ∨ c = .busyLimitExpiry n ∨ c = .stallRetryExpiry n ∨
      c = .initPulseEnd n → ∀ m, m ≠ n → t.lines.get m = s.lines.get m)) ∧
  ∀ s : State, s.pending = [] →
    (s.active = false → step s = .next s) ∧
    (s.active = true →
      let moved : State := { s with
        segs := ⟨s.segs.a.tick, s.segs.b.tick⟩
        links := ⟨s.links.l0.tick, s.links.l1.tick, s.links.l2.tick, s.links.l3.tick⟩
        ifaces := ⟨s.ifaces.li0.tick, s.ifaces.li1.tick⟩
        lines := ⟨s.lines.lp1.tick, s.lines.lp2.tick⟩
        service := s.service.map PortService.tick
        sweep := { s.sweep with outstanding := s.sweep.outstanding.map Probe.tick } }
      (s.time.ms + 1 < 1000 →
        step s = .next { moved with time := ⟨s.time.ms + 1, s.time.sec⟩ }) ∧
      (1000 ≤ s.time.ms + 1 → step s = .next { moved with
        time := ⟨0, (s.time.sec + 1) % 60⟩
        window := if s.window.running then { s.window with
          time := min s.window.length (s.window.time + 1) } else s.window
        service := s.service.map fun v => v.tick.second
        sweep := { moved.sweep with timer := s.sweep.timer.map fun n => n - 1 } }))

/-! ### Invariants -/

/-- Every step keeps the serial memory in its canonical form, or as a failed save left it (R194, R195);
every configuration parameter in its range (R189, R194); every list within its places: queues 64, requests
4, unknown-destination records 16 with 1 to 255 hits, sweep steps 32 (R41, R96, R175, R186); and every
counter within its bound (R16). -/
def Obligations.StepKeepsTheBounds : Prop :=
  (∀ s t : State, s.serialOk → step s = .next t → t.serialOk) ∧
  (∀ s t : State, s.config.ok → step s = .next t → t.config.ok) ∧
  (∀ s t : State, s.listsOk → step s = .next t → t.listsOk) ∧
    ∀ s t : State, s.countersOk → step s = .next t → t.countersOk

/-- Every step keeps entry 0 the bridge's, and no other, and every entry at a position of the directory
(R52, R53); and with that every key held by one entry at most (R54). -/
def Obligations.StepKeepsTheDirectory : Prop :=
  (∀ s t : State, s.directoryOk → step s = .next t → t.directoryOk) ∧
  ∀ s t : State, s.directoryOk ∧ s.keysUnique → step s = .next t → t.directoryOk ∧ t.keysUnique

/-- Every step keeps the account of the blocks: free, frame-held and spool-held add up to 1,024, the frame
records hold the frame-held ones and the jobs the spool-held ones (R33, R37, R106). -/
def Obligations.StepKeepsTheBlocks : Prop :=
  ∀ s t : State, s.blocksOk → step s = .next t → t.blocksOk

/-- No loop's result waits for the sweep engine between steps: each is taken inside the command that hands
it (R169, R180; the place of the taking is log entry 15's). -/
def Obligations.NoResultWaitsBetweenSteps : Prop :=
  ∀ s t : State, s.resultWaits = false → step s = .next t → t.resultWaits = false

/-- The invariants hold in the state after reset. -/
def Obligations.InvariantsHoldAtReset : Prop :=
  State.reset.serialOk ∧ State.reset.config.ok ∧ State.reset.listsOk ∧ State.reset.countersOk ∧
    State.reset.directoryOk ∧ State.reset.keysUnique ∧ State.reset.blocksOk ∧
    State.reset.resultWaits = false
end

