-- ==== Sys2Proof/Laws/State.lean ====
section
/-! SUPPORT. One lemma per field and update: what each basic write sets, and what it leaves. -/

namespace Sys2Proof.Machine

variable (s : State)

/-! ### modSeg -/

@[simp] theorem modSeg_pending (x : Seg) (f : SegPort → SegPort) : (modSeg x f s).pending = s.pending :=
  rfl
@[simp] theorem modSeg_powered (x : Seg) (f : SegPort → SegPort) : (modSeg x f s).powered = s.powered :=
  rfl
@[simp] theorem modSeg_resetLow (x : Seg) (f : SegPort → SegPort) : (modSeg x f s).resetLow = s.resetLow :=
  rfl
@[simp] theorem modSeg_commission (x : Seg) (f : SegPort → SegPort) : (modSeg x f s).commission = s.commission :=
  rfl
@[simp] theorem modSeg_time (x : Seg) (f : SegPort → SegPort) : (modSeg x f s).time = s.time := rfl
@[simp] theorem modSeg_choices (x : Seg) (f : SegPort → SegPort) : (modSeg x f s).choices = s.choices :=
  rfl
@[simp] theorem modSeg_serial (x : Seg) (f : SegPort → SegPort) : (modSeg x f s).serial = s.serial :=
  rfl
@[simp] theorem modSeg_segs (x : Seg) (f : SegPort → SegPort) : (modSeg x f s).segs = s.segs.set x (f (s.segs.get x)) :=
  rfl
@[simp] theorem modSeg_links (x : Seg) (f : SegPort → SegPort) : (modSeg x f s).links = s.links :=
  rfl
@[simp] theorem modSeg_ifaces (x : Seg) (f : SegPort → SegPort) : (modSeg x f s).ifaces = s.ifaces :=
  rfl
@[simp] theorem modSeg_pool (x : Seg) (f : SegPort → SegPort) : (modSeg x f s).pool = s.pool := rfl
@[simp] theorem modSeg_records (x : Seg) (f : SegPort → SegPort) : (modSeg x f s).records = s.records :=
  rfl
@[simp] theorem modSeg_nextRecord (x : Seg) (f : SegPort → SegPort) : (modSeg x f s).nextRecord = s.nextRecord :=
  rfl
@[simp] theorem modSeg_queues (x : Seg) (f : SegPort → SegPort) : (modSeg x f s).queues = s.queues :=
  rfl
@[simp] theorem modSeg_slots (x : Seg) (f : SegPort → SegPort) : (modSeg x f s).slots = s.slots :=
  rfl
@[simp] theorem modSeg_dir (x : Seg) (f : SegPort → SegPort) : (modSeg x f s).dir = s.dir := rfl
@[simp] theorem modSeg_handover (x : Seg) (f : SegPort → SegPort) : (modSeg x f s).handover = s.handover :=
  rfl
@[simp] theorem modSeg_unknownLog (x : Seg) (f : SegPort → SegPort) : (modSeg x f s).unknownLog = s.unknownLog :=
  rfl
@[simp] theorem modSeg_jobs (x : Seg) (f : SegPort → SegPort) : (modSeg x f s).jobs = s.jobs := rfl
@[simp] theorem modSeg_nextOrder (x : Seg) (f : SegPort → SegPort) : (modSeg x f s).nextOrder = s.nextOrder :=
  rfl
@[simp] theorem modSeg_lines (x : Seg) (f : SegPort → SegPort) : (modSeg x f s).lines = s.lines :=
  rfl
@[simp] theorem modSeg_window (x : Seg) (f : SegPort → SegPort) : (modSeg x f s).window = s.window :=
  rfl
@[simp] theorem modSeg_segWin (x : Seg) (f : SegPort → SegPort) : (modSeg x f s).segWin = s.segWin :=
  rfl
@[simp] theorem modSeg_linkWin (x : Seg) (f : SegPort → SegPort) : (modSeg x f s).linkWin = s.linkWin :=
  rfl
@[simp] theorem modSeg_marks (x : Seg) (f : SegPort → SegPort) : (modSeg x f s).marks = s.marks :=
  rfl
@[simp] theorem modSeg_service (x : Seg) (f : SegPort → SegPort) : (modSeg x f s).service = s.service :=
  rfl
@[simp] theorem modSeg_sweep (x : Seg) (f : SegPort → SegPort) : (modSeg x f s).sweep = s.sweep :=
  rfl
@[simp] theorem modSeg_requests (x : Seg) (f : SegPort → SegPort) : (modSeg x f s).requests = s.requests :=
  rfl
@[simp] theorem modSeg_current (x : Seg) (f : SegPort → SegPort) : (modSeg x f s).current = s.current :=
  rfl
@[simp] theorem modSeg_save (x : Seg) (f : SegPort → SegPort) : (modSeg x f s).save = s.save := rfl
@[simp] theorem modSeg_heldReply (x : Seg) (f : SegPort → SegPort) : (modSeg x f s).heldReply = s.heldReply :=
  rfl
@[simp] theorem modSeg_config (x : Seg) (f : SegPort → SegPort) : (modSeg x f s).config = s.config :=
  rfl
@[simp] theorem modSeg_flags (x : Seg) (f : SegPort → SegPort) : (modSeg x f s).flags = s.flags :=
  rfl
@[simp] theorem modSeg_mask (x : Seg) (f : SegPort → SegPort) : (modSeg x f s).mask = s.mask := rfl
@[simp] theorem modSeg_noticeOut (x : Seg) (f : SegPort → SegPort) : (modSeg x f s).noticeOut = s.noticeOut :=
  rfl
@[simp] theorem modSeg_loading (x : Seg) (f : SegPort → SegPort) : (modSeg x f s).loading = s.loading :=
  rfl
@[simp] theorem modSeg_counters (x : Seg) (f : SegPort → SegPort) : (modSeg x f s).counters = s.counters :=
  rfl

/-! ### modLink -/

@[simp] theorem modLink_pending (l : Link) (f : LinkPort → LinkPort) : (modLink l f s).pending = s.pending :=
  rfl
@[simp] theorem modLink_powered (l : Link) (f : LinkPort → LinkPort) : (modLink l f s).powered = s.powered :=
  rfl
@[simp] theorem modLink_resetLow (l : Link) (f : LinkPort → LinkPort) : (modLink l f s).resetLow = s.resetLow :=
  rfl
@[simp] theorem modLink_commission (l : Link) (f : LinkPort → LinkPort) : (modLink l f s).commission = s.commission :=
  rfl
@[simp] theorem modLink_time (l : Link) (f : LinkPort → LinkPort) : (modLink l f s).time = s.time :=
  rfl
@[simp] theorem modLink_choices (l : Link) (f : LinkPort → LinkPort) : (modLink l f s).choices = s.choices :=
  rfl
@[simp] theorem modLink_serial (l : Link) (f : LinkPort → LinkPort) : (modLink l f s).serial = s.serial :=
  rfl
@[simp] theorem modLink_segs (l : Link) (f : LinkPort → LinkPort) : (modLink l f s).segs = s.segs :=
  rfl
@[simp] theorem modLink_links (l : Link) (f : LinkPort → LinkPort) : (modLink l f s).links = s.links.set l (f (s.links.get l)) :=
  rfl
@[simp] theorem modLink_ifaces (l : Link) (f : LinkPort → LinkPort) : (modLink l f s).ifaces = s.ifaces :=
  rfl
@[simp] theorem modLink_pool (l : Link) (f : LinkPort → LinkPort) : (modLink l f s).pool = s.pool :=
  rfl
@[simp] theorem modLink_records (l : Link) (f : LinkPort → LinkPort) : (modLink l f s).records = s.records :=
  rfl
@[simp] theorem modLink_nextRecord (l : Link) (f : LinkPort → LinkPort) : (modLink l f s).nextRecord = s.nextRecord :=
  rfl
@[simp] theorem modLink_queues (l : Link) (f : LinkPort → LinkPort) : (modLink l f s).queues = s.queues :=
  rfl
@[simp] theorem modLink_slots (l : Link) (f : LinkPort → LinkPort) : (modLink l f s).slots = s.slots :=
  rfl
@[simp] theorem modLink_dir (l : Link) (f : LinkPort → LinkPort) : (modLink l f s).dir = s.dir :=
  rfl
@[simp] theorem modLink_handover (l : Link) (f : LinkPort → LinkPort) : (modLink l f s).handover = s.handover :=
  rfl
@[simp] theorem modLink_unknownLog (l : Link) (f : LinkPort → LinkPort) : (modLink l f s).unknownLog = s.unknownLog :=
  rfl
@[simp] theorem modLink_jobs (l : Link) (f : LinkPort → LinkPort) : (modLink l f s).jobs = s.jobs :=
  rfl
@[simp] theorem modLink_nextOrder (l : Link) (f : LinkPort → LinkPort) : (modLink l f s).nextOrder = s.nextOrder :=
  rfl
@[simp] theorem modLink_lines (l : Link) (f : LinkPort → LinkPort) : (modLink l f s).lines = s.lines :=
  rfl
@[simp] theorem modLink_window (l : Link) (f : LinkPort → LinkPort) : (modLink l f s).window = s.window :=
  rfl
@[simp] theorem modLink_segWin (l : Link) (f : LinkPort → LinkPort) : (modLink l f s).segWin = s.segWin :=
  rfl
@[simp] theorem modLink_linkWin (l : Link) (f : LinkPort → LinkPort) : (modLink l f s).linkWin = s.linkWin :=
  rfl
@[simp] theorem modLink_marks (l : Link) (f : LinkPort → LinkPort) : (modLink l f s).marks = s.marks :=
  rfl
@[simp] theorem modLink_service (l : Link) (f : LinkPort → LinkPort) : (modLink l f s).service = s.service :=
  rfl
@[simp] theorem modLink_sweep (l : Link) (f : LinkPort → LinkPort) : (modLink l f s).sweep = s.sweep :=
  rfl
@[simp] theorem modLink_requests (l : Link) (f : LinkPort → LinkPort) : (modLink l f s).requests = s.requests :=
  rfl
@[simp] theorem modLink_current (l : Link) (f : LinkPort → LinkPort) : (modLink l f s).current = s.current :=
  rfl
@[simp] theorem modLink_save (l : Link) (f : LinkPort → LinkPort) : (modLink l f s).save = s.save :=
  rfl
@[simp] theorem modLink_heldReply (l : Link) (f : LinkPort → LinkPort) : (modLink l f s).heldReply = s.heldReply :=
  rfl
@[simp] theorem modLink_config (l : Link) (f : LinkPort → LinkPort) : (modLink l f s).config = s.config :=
  rfl
@[simp] theorem modLink_flags (l : Link) (f : LinkPort → LinkPort) : (modLink l f s).flags = s.flags :=
  rfl
@[simp] theorem modLink_mask (l : Link) (f : LinkPort → LinkPort) : (modLink l f s).mask = s.mask :=
  rfl
@[simp] theorem modLink_noticeOut (l : Link) (f : LinkPort → LinkPort) : (modLink l f s).noticeOut = s.noticeOut :=
  rfl
@[simp] theorem modLink_loading (l : Link) (f : LinkPort → LinkPort) : (modLink l f s).loading = s.loading :=
  rfl
@[simp] theorem modLink_counters (l : Link) (f : LinkPort → LinkPort) : (modLink l f s).counters = s.counters :=
  rfl

/-! ### modIface -/

@[simp] theorem modIface_pending (i : Iface) (f : IfaceState → IfaceState) : (modIface i f s).pending = s.pending :=
  rfl
@[simp] theorem modIface_powered (i : Iface) (f : IfaceState → IfaceState) : (modIface i f s).powered = s.powered :=
  rfl
@[simp] theorem modIface_resetLow (i : Iface) (f : IfaceState → IfaceState) : (modIface i f s).resetLow = s.resetLow :=
  rfl
@[simp] theorem modIface_commission (i : Iface) (f : IfaceState → IfaceState) : (modIface i f s).commission = s.commission :=
  rfl
@[simp] theorem modIface_time (i : Iface) (f : IfaceState → IfaceState) : (modIface i f s).time = s.time :=
  rfl
@[simp] theorem modIface_choices (i : Iface) (f : IfaceState → IfaceState) : (modIface i f s).choices = s.choices :=
  rfl
@[simp] theorem modIface_serial (i : Iface) (f : IfaceState → IfaceState) : (modIface i f s).serial = s.serial :=
  rfl
@[simp] theorem modIface_segs (i : Iface) (f : IfaceState → IfaceState) : (modIface i f s).segs = s.segs :=
  rfl
@[simp] theorem modIface_links (i : Iface) (f : IfaceState → IfaceState) : (modIface i f s).links = s.links :=
  rfl
@[simp] theorem modIface_ifaces (i : Iface) (f : IfaceState → IfaceState) : (modIface i f s).ifaces = s.ifaces.set i (f (s.ifaces.get i)) :=
  rfl
@[simp] theorem modIface_pool (i : Iface) (f : IfaceState → IfaceState) : (modIface i f s).pool = s.pool :=
  rfl
@[simp] theorem modIface_records (i : Iface) (f : IfaceState → IfaceState) : (modIface i f s).records = s.records :=
  rfl
@[simp] theorem modIface_nextRecord (i : Iface) (f : IfaceState → IfaceState) : (modIface i f s).nextRecord = s.nextRecord :=
  rfl
@[simp] theorem modIface_queues (i : Iface) (f : IfaceState → IfaceState) : (modIface i f s).queues = s.queues :=
  rfl
@[simp] theorem modIface_slots (i : Iface) (f : IfaceState → IfaceState) : (modIface i f s).slots = s.slots :=
  rfl
@[simp] theorem modIface_dir (i : Iface) (f : IfaceState → IfaceState) : (modIface i f s).dir = s.dir :=
  rfl
@[simp] theorem modIface_handover (i : Iface) (f : IfaceState → IfaceState) : (modIface i f s).handover = s.handover :=
  rfl
@[simp] theorem modIface_unknownLog (i : Iface) (f : IfaceState → IfaceState) : (modIface i f s).unknownLog = s.unknownLog :=
  rfl
@[simp] theorem modIface_jobs (i : Iface) (f : IfaceState → IfaceState) : (modIface i f s).jobs = s.jobs :=
  rfl
@[simp] theorem modIface_nextOrder (i : Iface) (f : IfaceState → IfaceState) : (modIface i f s).nextOrder = s.nextOrder :=
  rfl
@[simp] theorem modIface_lines (i : Iface) (f : IfaceState → IfaceState) : (modIface i f s).lines = s.lines :=
  rfl
@[simp] theorem modIface_window (i : Iface) (f : IfaceState → IfaceState) : (modIface i f s).window = s.window :=
  rfl
@[simp] theorem modIface_segWin (i : Iface) (f : IfaceState → IfaceState) : (modIface i f s).segWin = s.segWin :=
  rfl
@[simp] theorem modIface_linkWin (i : Iface) (f : IfaceState → IfaceState) : (modIface i f s).linkWin = s.linkWin :=
  rfl
@[simp] theorem modIface_marks (i : Iface) (f : IfaceState → IfaceState) : (modIface i f s).marks = s.marks :=
  rfl
@[simp] theorem modIface_service (i : Iface) (f : IfaceState → IfaceState) : (modIface i f s).service = s.service :=
  rfl
@[simp] theorem modIface_sweep (i : Iface) (f : IfaceState → IfaceState) : (modIface i f s).sweep = s.sweep :=
  rfl
@[simp] theorem modIface_requests (i : Iface) (f : IfaceState → IfaceState) : (modIface i f s).requests = s.requests :=
  rfl
@[simp] theorem modIface_current (i : Iface) (f : IfaceState → IfaceState) : (modIface i f s).current = s.current :=
  rfl
@[simp] theorem modIface_save (i : Iface) (f : IfaceState → IfaceState) : (modIface i f s).save = s.save :=
  rfl
@[simp] theorem modIface_heldReply (i : Iface) (f : IfaceState → IfaceState) : (modIface i f s).heldReply = s.heldReply :=
  rfl
@[simp] theorem modIface_config (i : Iface) (f : IfaceState → IfaceState) : (modIface i f s).config = s.config :=
  rfl
@[simp] theorem modIface_flags (i : Iface) (f : IfaceState → IfaceState) : (modIface i f s).flags = s.flags :=
  rfl
@[simp] theorem modIface_mask (i : Iface) (f : IfaceState → IfaceState) : (modIface i f s).mask = s.mask :=
  rfl
@[simp] theorem modIface_noticeOut (i : Iface) (f : IfaceState → IfaceState) : (modIface i f s).noticeOut = s.noticeOut :=
  rfl
@[simp] theorem modIface_loading (i : Iface) (f : IfaceState → IfaceState) : (modIface i f s).loading = s.loading :=
  rfl
@[simp] theorem modIface_counters (i : Iface) (f : IfaceState → IfaceState) : (modIface i f s).counters = s.counters :=
  rfl

/-! ### modLine -/

@[simp] theorem modLine_pending (n : Line) (f : LineState → LineState) : (modLine n f s).pending = s.pending :=
  rfl
@[simp] theorem modLine_powered (n : Line) (f : LineState → LineState) : (modLine n f s).powered = s.powered :=
  rfl
@[simp] theorem modLine_resetLow (n : Line) (f : LineState → LineState) : (modLine n f s).resetLow = s.resetLow :=
  rfl
@[simp] theorem modLine_commission (n : Line) (f : LineState → LineState) : (modLine n f s).commission = s.commission :=
  rfl
@[simp] theorem modLine_time (n : Line) (f : LineState → LineState) : (modLine n f s).time = s.time :=
  rfl
@[simp] theorem modLine_choices (n : Line) (f : LineState → LineState) : (modLine n f s).choices = s.choices :=
  rfl
@[simp] theorem modLine_serial (n : Line) (f : LineState → LineState) : (modLine n f s).serial = s.serial :=
  rfl
@[simp] theorem modLine_segs (n : Line) (f : LineState → LineState) : (modLine n f s).segs = s.segs :=
  rfl
@[simp] theorem modLine_links (n : Line) (f : LineState → LineState) : (modLine n f s).links = s.links :=
  rfl
@[simp] theorem modLine_ifaces (n : Line) (f : LineState → LineState) : (modLine n f s).ifaces = s.ifaces :=
  rfl
@[simp] theorem modLine_pool (n : Line) (f : LineState → LineState) : (modLine n f s).pool = s.pool :=
  rfl
@[simp] theorem modLine_records (n : Line) (f : LineState → LineState) : (modLine n f s).records = s.records :=
  rfl
@[simp] theorem modLine_nextRecord (n : Line) (f : LineState → LineState) : (modLine n f s).nextRecord = s.nextRecord :=
  rfl
@[simp] theorem modLine_queues (n : Line) (f : LineState → LineState) : (modLine n f s).queues = s.queues :=
  rfl
@[simp] theorem modLine_slots (n : Line) (f : LineState → LineState) : (modLine n f s).slots = s.slots :=
  rfl
@[simp] theorem modLine_dir (n : Line) (f : LineState → LineState) : (modLine n f s).dir = s.dir :=
  rfl
@[simp] theorem modLine_handover (n : Line) (f : LineState → LineState) : (modLine n f s).handover = s.handover :=
  rfl
@[simp] theorem modLine_unknownLog (n : Line) (f : LineState → LineState) : (modLine n f s).unknownLog = s.unknownLog :=
  rfl
@[simp] theorem modLine_jobs (n : Line) (f : LineState → LineState) : (modLine n f s).jobs = s.jobs :=
  rfl
@[simp] theorem modLine_nextOrder (n : Line) (f : LineState → LineState) : (modLine n f s).nextOrder = s.nextOrder :=
  rfl
@[simp] theorem modLine_lines (n : Line) (f : LineState → LineState) : (modLine n f s).lines = s.lines.set n (f (s.lines.get n)) :=
  rfl
@[simp] theorem modLine_window (n : Line) (f : LineState → LineState) : (modLine n f s).window = s.window :=
  rfl
@[simp] theorem modLine_segWin (n : Line) (f : LineState → LineState) : (modLine n f s).segWin = s.segWin :=
  rfl
@[simp] theorem modLine_linkWin (n : Line) (f : LineState → LineState) : (modLine n f s).linkWin = s.linkWin :=
  rfl
@[simp] theorem modLine_marks (n : Line) (f : LineState → LineState) : (modLine n f s).marks = s.marks :=
  rfl
@[simp] theorem modLine_service (n : Line) (f : LineState → LineState) : (modLine n f s).service = s.service :=
  rfl
@[simp] theorem modLine_sweep (n : Line) (f : LineState → LineState) : (modLine n f s).sweep = s.sweep :=
  rfl
@[simp] theorem modLine_requests (n : Line) (f : LineState → LineState) : (modLine n f s).requests = s.requests :=
  rfl
@[simp] theorem modLine_current (n : Line) (f : LineState → LineState) : (modLine n f s).current = s.current :=
  rfl
@[simp] theorem modLine_save (n : Line) (f : LineState → LineState) : (modLine n f s).save = s.save :=
  rfl
@[simp] theorem modLine_heldReply (n : Line) (f : LineState → LineState) : (modLine n f s).heldReply = s.heldReply :=
  rfl
@[simp] theorem modLine_config (n : Line) (f : LineState → LineState) : (modLine n f s).config = s.config :=
  rfl
@[simp] theorem modLine_flags (n : Line) (f : LineState → LineState) : (modLine n f s).flags = s.flags :=
  rfl
@[simp] theorem modLine_mask (n : Line) (f : LineState → LineState) : (modLine n f s).mask = s.mask :=
  rfl
@[simp] theorem modLine_noticeOut (n : Line) (f : LineState → LineState) : (modLine n f s).noticeOut = s.noticeOut :=
  rfl
@[simp] theorem modLine_loading (n : Line) (f : LineState → LineState) : (modLine n f s).loading = s.loading :=
  rfl
@[simp] theorem modLine_counters (n : Line) (f : LineState → LineState) : (modLine n f s).counters = s.counters :=
  rfl

/-! ### modService -/

@[simp] theorem modService_pending (p : Port) (f : PortService → PortService) : (modService p f s).pending = s.pending :=
  rfl
@[simp] theorem modService_powered (p : Port) (f : PortService → PortService) : (modService p f s).powered = s.powered :=
  rfl
@[simp] theorem modService_resetLow (p : Port) (f : PortService → PortService) : (modService p f s).resetLow = s.resetLow :=
  rfl
@[simp] theorem modService_commission (p : Port) (f : PortService → PortService) : (modService p f s).commission = s.commission :=
  rfl
@[simp] theorem modService_time (p : Port) (f : PortService → PortService) : (modService p f s).time = s.time :=
  rfl
@[simp] theorem modService_choices (p : Port) (f : PortService → PortService) : (modService p f s).choices = s.choices :=
  rfl
@[simp] theorem modService_serial (p : Port) (f : PortService → PortService) : (modService p f s).serial = s.serial :=
  rfl
@[simp] theorem modService_segs (p : Port) (f : PortService → PortService) : (modService p f s).segs = s.segs :=
  rfl
@[simp] theorem modService_links (p : Port) (f : PortService → PortService) : (modService p f s).links = s.links :=
  rfl
@[simp] theorem modService_ifaces (p : Port) (f : PortService → PortService) : (modService p f s).ifaces = s.ifaces :=
  rfl
@[simp] theorem modService_pool (p : Port) (f : PortService → PortService) : (modService p f s).pool = s.pool :=
  rfl
@[simp] theorem modService_records (p : Port) (f : PortService → PortService) : (modService p f s).records = s.records :=
  rfl
@[simp] theorem modService_nextRecord (p : Port) (f : PortService → PortService) : (modService p f s).nextRecord = s.nextRecord :=
  rfl
@[simp] theorem modService_queues (p : Port) (f : PortService → PortService) : (modService p f s).queues = s.queues :=
  rfl
@[simp] theorem modService_slots (p : Port) (f : PortService → PortService) : (modService p f s).slots = s.slots :=
  rfl
@[simp] theorem modService_dir (p : Port) (f : PortService → PortService) : (modService p f s).dir = s.dir :=
  rfl
@[simp] theorem modService_handover (p : Port) (f : PortService → PortService) : (modService p f s).handover = s.handover :=
  rfl
@[simp] theorem modService_unknownLog (p : Port) (f : PortService → PortService) : (modService p f s).unknownLog = s.unknownLog :=
  rfl
@[simp] theorem modService_jobs (p : Port) (f : PortService → PortService) : (modService p f s).jobs = s.jobs :=
  rfl
@[simp] theorem modService_nextOrder (p : Port) (f : PortService → PortService) : (modService p f s).nextOrder = s.nextOrder :=
  rfl
@[simp] theorem modService_lines (p : Port) (f : PortService → PortService) : (modService p f s).lines = s.lines :=
  rfl
@[simp] theorem modService_window (p : Port) (f : PortService → PortService) : (modService p f s).window = s.window :=
  rfl
@[simp] theorem modService_segWin (p : Port) (f : PortService → PortService) : (modService p f s).segWin = s.segWin :=
  rfl
@[simp] theorem modService_linkWin (p : Port) (f : PortService → PortService) : (modService p f s).linkWin = s.linkWin :=
  rfl
@[simp] theorem modService_marks (p : Port) (f : PortService → PortService) : (modService p f s).marks = s.marks :=
  rfl
@[simp] theorem modService_service (p : Port) (f : PortService → PortService) : (modService p f s).service = s.service.set p (f (s.service.get p)) :=
  rfl
@[simp] theorem modService_sweep (p : Port) (f : PortService → PortService) : (modService p f s).sweep = s.sweep :=
  rfl
@[simp] theorem modService_requests (p : Port) (f : PortService → PortService) : (modService p f s).requests = s.requests :=
  rfl
@[simp] theorem modService_current (p : Port) (f : PortService → PortService) : (modService p f s).current = s.current :=
  rfl
@[simp] theorem modService_save (p : Port) (f : PortService → PortService) : (modService p f s).save = s.save :=
  rfl
@[simp] theorem modService_heldReply (p : Port) (f : PortService → PortService) : (modService p f s).heldReply = s.heldReply :=
  rfl
@[simp] theorem modService_config (p : Port) (f : PortService → PortService) : (modService p f s).config = s.config :=
  rfl
@[simp] theorem modService_flags (p : Port) (f : PortService → PortService) : (modService p f s).flags = s.flags :=
  rfl
@[simp] theorem modService_mask (p : Port) (f : PortService → PortService) : (modService p f s).mask = s.mask :=
  rfl
@[simp] theorem modService_noticeOut (p : Port) (f : PortService → PortService) : (modService p f s).noticeOut = s.noticeOut :=
  rfl
@[simp] theorem modService_loading (p : Port) (f : PortService → PortService) : (modService p f s).loading = s.loading :=
  rfl
@[simp] theorem modService_counters (p : Port) (f : PortService → PortService) : (modService p f s).counters = s.counters :=
  rfl

/-! ### modSweep -/

@[simp] theorem modSweep_pending (f : Sweep → Sweep) : (modSweep f s).pending = s.pending := rfl
@[simp] theorem modSweep_powered (f : Sweep → Sweep) : (modSweep f s).powered = s.powered := rfl
@[simp] theorem modSweep_resetLow (f : Sweep → Sweep) : (modSweep f s).resetLow = s.resetLow := rfl
@[simp] theorem modSweep_commission (f : Sweep → Sweep) : (modSweep f s).commission = s.commission :=
  rfl
@[simp] theorem modSweep_time (f : Sweep → Sweep) : (modSweep f s).time = s.time := rfl
@[simp] theorem modSweep_choices (f : Sweep → Sweep) : (modSweep f s).choices = s.choices := rfl
@[simp] theorem modSweep_serial (f : Sweep → Sweep) : (modSweep f s).serial = s.serial := rfl
@[simp] theorem modSweep_segs (f : Sweep → Sweep) : (modSweep f s).segs = s.segs := rfl
@[simp] theorem modSweep_links (f : Sweep → Sweep) : (modSweep f s).links = s.links := rfl
@[simp] theorem modSweep_ifaces (f : Sweep → Sweep) : (modSweep f s).ifaces = s.ifaces := rfl
@[simp] theorem modSweep_pool (f : Sweep → Sweep) : (modSweep f s).pool = s.pool := rfl
@[simp] theorem modSweep_records (f : Sweep → Sweep) : (modSweep f s).records = s.records := rfl
@[simp] theorem modSweep_nextRecord (f : Sweep → Sweep) : (modSweep f s).nextRecord = s.nextRecord :=
  rfl
@[simp] theorem modSweep_queues (f : Sweep → Sweep) : (modSweep f s).queues = s.queues := rfl
@[simp] theorem modSweep_slots (f : Sweep → Sweep) : (modSweep f s).slots = s.slots := rfl
@[simp] theorem modSweep_dir (f : Sweep → Sweep) : (modSweep f s).dir = s.dir := rfl
@[simp] theorem modSweep_handover (f : Sweep → Sweep) : (modSweep f s).handover = s.handover := rfl
@[simp] theorem modSweep_unknownLog (f : Sweep → Sweep) : (modSweep f s).unknownLog = s.unknownLog :=
  rfl
@[simp] theorem modSweep_jobs (f : Sweep → Sweep) : (modSweep f s).jobs = s.jobs := rfl
@[simp] theorem modSweep_nextOrder (f : Sweep → Sweep) : (modSweep f s).nextOrder = s.nextOrder :=
  rfl
@[simp] theorem modSweep_lines (f : Sweep → Sweep) : (modSweep f s).lines = s.lines := rfl
@[simp] theorem modSweep_window (f : Sweep → Sweep) : (modSweep f s).window = s.window := rfl
@[simp] theorem modSweep_segWin (f : Sweep → Sweep) : (modSweep f s).segWin = s.segWin := rfl
@[simp] theorem modSweep_linkWin (f : Sweep → Sweep) : (modSweep f s).linkWin = s.linkWin := rfl
@[simp] theorem modSweep_marks (f : Sweep → Sweep) : (modSweep f s).marks = s.marks := rfl
@[simp] theorem modSweep_service (f : Sweep → Sweep) : (modSweep f s).service = s.service := rfl
@[simp] theorem modSweep_sweep (f : Sweep → Sweep) : (modSweep f s).sweep = f s.sweep := rfl
@[simp] theorem modSweep_requests (f : Sweep → Sweep) : (modSweep f s).requests = s.requests := rfl
@[simp] theorem modSweep_current (f : Sweep → Sweep) : (modSweep f s).current = s.current := rfl
@[simp] theorem modSweep_save (f : Sweep → Sweep) : (modSweep f s).save = s.save := rfl
@[simp] theorem modSweep_heldReply (f : Sweep → Sweep) : (modSweep f s).heldReply = s.heldReply :=
  rfl
@[simp] theorem modSweep_config (f : Sweep → Sweep) : (modSweep f s).config = s.config := rfl
@[simp] theorem modSweep_flags (f : Sweep → Sweep) : (modSweep f s).flags = s.flags := rfl
@[simp] theorem modSweep_mask (f : Sweep → Sweep) : (modSweep f s).mask = s.mask := rfl
@[simp] theorem modSweep_noticeOut (f : Sweep → Sweep) : (modSweep f s).noticeOut = s.noticeOut :=
  rfl
@[simp] theorem modSweep_loading (f : Sweep → Sweep) : (modSweep f s).loading = s.loading := rfl
@[simp] theorem modSweep_counters (f : Sweep → Sweep) : (modSweep f s).counters = s.counters := rfl

/-! ### setFlag -/

@[simp] theorem setFlag_pending (f : Flag) : (setFlag f s).pending = s.pending := rfl
@[simp] theorem setFlag_powered (f : Flag) : (setFlag f s).powered = s.powered := rfl
@[simp] theorem setFlag_resetLow (f : Flag) : (setFlag f s).resetLow = s.resetLow := rfl
@[simp] theorem setFlag_commission (f : Flag) : (setFlag f s).commission = s.commission := rfl
@[simp] theorem setFlag_time (f : Flag) : (setFlag f s).time = s.time := rfl
@[simp] theorem setFlag_choices (f : Flag) : (setFlag f s).choices = s.choices := rfl
@[simp] theorem setFlag_serial (f : Flag) : (setFlag f s).serial = s.serial := rfl
@[simp] theorem setFlag_segs (f : Flag) : (setFlag f s).segs = s.segs := rfl
@[simp] theorem setFlag_links (f : Flag) : (setFlag f s).links = s.links := rfl
@[simp] theorem setFlag_ifaces (f : Flag) : (setFlag f s).ifaces = s.ifaces := rfl
@[simp] theorem setFlag_pool (f : Flag) : (setFlag f s).pool = s.pool := rfl
@[simp] theorem setFlag_records (f : Flag) : (setFlag f s).records = s.records := rfl
@[simp] theorem setFlag_nextRecord (f : Flag) : (setFlag f s).nextRecord = s.nextRecord := rfl
@[simp] theorem setFlag_queues (f : Flag) : (setFlag f s).queues = s.queues := rfl
@[simp] theorem setFlag_slots (f : Flag) : (setFlag f s).slots = s.slots := rfl
@[simp] theorem setFlag_dir (f : Flag) : (setFlag f s).dir = s.dir := rfl
@[simp] theorem setFlag_handover (f : Flag) : (setFlag f s).handover = s.handover := rfl
@[simp] theorem setFlag_unknownLog (f : Flag) : (setFlag f s).unknownLog = s.unknownLog := rfl
@[simp] theorem setFlag_jobs (f : Flag) : (setFlag f s).jobs = s.jobs := rfl
@[simp] theorem setFlag_nextOrder (f : Flag) : (setFlag f s).nextOrder = s.nextOrder := rfl
@[simp] theorem setFlag_lines (f : Flag) : (setFlag f s).lines = s.lines := rfl
@[simp] theorem setFlag_window (f : Flag) : (setFlag f s).window = s.window := rfl
@[simp] theorem setFlag_segWin (f : Flag) : (setFlag f s).segWin = s.segWin := rfl
@[simp] theorem setFlag_linkWin (f : Flag) : (setFlag f s).linkWin = s.linkWin := rfl
@[simp] theorem setFlag_marks (f : Flag) : (setFlag f s).marks = s.marks := rfl
@[simp] theorem setFlag_service (f : Flag) : (setFlag f s).service = s.service := rfl
@[simp] theorem setFlag_sweep (f : Flag) : (setFlag f s).sweep = s.sweep := rfl
@[simp] theorem setFlag_requests (f : Flag) : (setFlag f s).requests = s.requests := rfl
@[simp] theorem setFlag_current (f : Flag) : (setFlag f s).current = s.current := rfl
@[simp] theorem setFlag_save (f : Flag) : (setFlag f s).save = s.save := rfl
@[simp] theorem setFlag_heldReply (f : Flag) : (setFlag f s).heldReply = s.heldReply := rfl
@[simp] theorem setFlag_config (f : Flag) : (setFlag f s).config = s.config := rfl
@[simp] theorem setFlag_flags (f : Flag) : (setFlag f s).flags = s.flags ||| (1#16 <<< f.bit) := rfl
@[simp] theorem setFlag_mask (f : Flag) : (setFlag f s).mask = s.mask := rfl
@[simp] theorem setFlag_noticeOut (f : Flag) : (setFlag f s).noticeOut = s.noticeOut := rfl
@[simp] theorem setFlag_loading (f : Flag) : (setFlag f s).loading = s.loading := rfl
@[simp] theorem setFlag_counters (f : Flag) : (setFlag f s).counters = s.counters := rfl

/-! ### clearFlags -/

@[simp] theorem clearFlags_pending : (clearFlags s).pending = s.pending := rfl
@[simp] theorem clearFlags_powered : (clearFlags s).powered = s.powered := rfl
@[simp] theorem clearFlags_resetLow : (clearFlags s).resetLow = s.resetLow := rfl
@[simp] theorem clearFlags_commission : (clearFlags s).commission = s.commission := rfl
@[simp] theorem clearFlags_time : (clearFlags s).time = s.time := rfl
@[simp] theorem clearFlags_choices : (clearFlags s).choices = s.choices := rfl
@[simp] theorem clearFlags_serial : (clearFlags s).serial = s.serial := rfl
@[simp] theorem clearFlags_segs : (clearFlags s).segs = s.segs := rfl
@[simp] theorem clearFlags_links : (clearFlags s).links = s.links := rfl
@[simp] theorem clearFlags_ifaces : (clearFlags s).ifaces = s.ifaces := rfl
@[simp] theorem clearFlags_pool : (clearFlags s).pool = s.pool := rfl
@[simp] theorem clearFlags_records : (clearFlags s).records = s.records := rfl
@[simp] theorem clearFlags_nextRecord : (clearFlags s).nextRecord = s.nextRecord := rfl
@[simp] theorem clearFlags_queues : (clearFlags s).queues = s.queues := rfl
@[simp] theorem clearFlags_slots : (clearFlags s).slots = s.slots := rfl
@[simp] theorem clearFlags_dir : (clearFlags s).dir = s.dir := rfl
@[simp] theorem clearFlags_handover : (clearFlags s).handover = s.handover := rfl
@[simp] theorem clearFlags_unknownLog : (clearFlags s).unknownLog = s.unknownLog := rfl
@[simp] theorem clearFlags_jobs : (clearFlags s).jobs = s.jobs := rfl
@[simp] theorem clearFlags_nextOrder : (clearFlags s).nextOrder = s.nextOrder := rfl
@[simp] theorem clearFlags_lines : (clearFlags s).lines = s.lines := rfl
@[simp] theorem clearFlags_window : (clearFlags s).window = s.window := rfl
@[simp] theorem clearFlags_segWin : (clearFlags s).segWin = s.segWin := rfl
@[simp] theorem clearFlags_linkWin : (clearFlags s).linkWin = s.linkWin := rfl
@[simp] theorem clearFlags_marks : (clearFlags s).marks = s.marks := rfl
@[simp] theorem clearFlags_service : (clearFlags s).service = s.service := rfl
@[simp] theorem clearFlags_sweep : (clearFlags s).sweep = s.sweep := rfl
@[simp] theorem clearFlags_requests : (clearFlags s).requests = s.requests := rfl
@[simp] theorem clearFlags_current : (clearFlags s).current = s.current := rfl
@[simp] theorem clearFlags_save : (clearFlags s).save = s.save := rfl
@[simp] theorem clearFlags_heldReply : (clearFlags s).heldReply = s.heldReply := rfl
@[simp] theorem clearFlags_config : (clearFlags s).config = s.config := rfl
@[simp] theorem clearFlags_flags : (clearFlags s).flags = 0 := rfl
@[simp] theorem clearFlags_mask : (clearFlags s).mask = s.mask := rfl
@[simp] theorem clearFlags_noticeOut : (clearFlags s).noticeOut = false := rfl
@[simp] theorem clearFlags_loading : (clearFlags s).loading = s.loading := rfl
@[simp] theorem clearFlags_counters : (clearFlags s).counters = s.counters := rfl

/-! ### clearCount -/

@[simp] theorem clearCount_pending (c : Counter) : (clearCount c s).pending = s.pending := rfl
@[simp] theorem clearCount_powered (c : Counter) : (clearCount c s).powered = s.powered := rfl
@[simp] theorem clearCount_resetLow (c : Counter) : (clearCount c s).resetLow = s.resetLow := rfl
@[simp] theorem clearCount_commission (c : Counter) : (clearCount c s).commission = s.commission :=
  rfl
@[simp] theorem clearCount_time (c : Counter) : (clearCount c s).time = s.time := rfl
@[simp] theorem clearCount_choices (c : Counter) : (clearCount c s).choices = s.choices := rfl
@[simp] theorem clearCount_serial (c : Counter) : (clearCount c s).serial = s.serial := rfl
@[simp] theorem clearCount_segs (c : Counter) : (clearCount c s).segs = s.segs := rfl
@[simp] theorem clearCount_links (c : Counter) : (clearCount c s).links = s.links := rfl
@[simp] theorem clearCount_ifaces (c : Counter) : (clearCount c s).ifaces = s.ifaces := rfl
@[simp] theorem clearCount_pool (c : Counter) : (clearCount c s).pool = s.pool := rfl
@[simp] theorem clearCount_records (c : Counter) : (clearCount c s).records = s.records := rfl
@[simp] theorem clearCount_nextRecord (c : Counter) : (clearCount c s).nextRecord = s.nextRecord :=
  rfl
@[simp] theorem clearCount_queues (c : Counter) : (clearCount c s).queues = s.queues := rfl
@[simp] theorem clearCount_slots (c : Counter) : (clearCount c s).slots = s.slots := rfl
@[simp] theorem clearCount_dir (c : Counter) : (clearCount c s).dir = s.dir := rfl
@[simp] theorem clearCount_handover (c : Counter) : (clearCount c s).handover = s.handover := rfl
@[simp] theorem clearCount_unknownLog (c : Counter) : (clearCount c s).unknownLog = s.unknownLog :=
  rfl
@[simp] theorem clearCount_jobs (c : Counter) : (clearCount c s).jobs = s.jobs := rfl
@[simp] theorem clearCount_nextOrder (c : Counter) : (clearCount c s).nextOrder = s.nextOrder := rfl
@[simp] theorem clearCount_lines (c : Counter) : (clearCount c s).lines = s.lines := rfl
@[simp] theorem clearCount_window (c : Counter) : (clearCount c s).window = s.window := rfl
@[simp] theorem clearCount_segWin (c : Counter) : (clearCount c s).segWin = s.segWin := rfl
@[simp] theorem clearCount_linkWin (c : Counter) : (clearCount c s).linkWin = s.linkWin := rfl
@[simp] theorem clearCount_marks (c : Counter) : (clearCount c s).marks = s.marks := rfl
@[simp] theorem clearCount_service (c : Counter) : (clearCount c s).service = s.service := rfl
@[simp] theorem clearCount_sweep (c : Counter) : (clearCount c s).sweep = s.sweep := rfl
@[simp] theorem clearCount_requests (c : Counter) : (clearCount c s).requests = s.requests := rfl
@[simp] theorem clearCount_current (c : Counter) : (clearCount c s).current = s.current := rfl
@[simp] theorem clearCount_save (c : Counter) : (clearCount c s).save = s.save := rfl
@[simp] theorem clearCount_heldReply (c : Counter) : (clearCount c s).heldReply = s.heldReply := rfl
@[simp] theorem clearCount_config (c : Counter) : (clearCount c s).config = s.config := rfl
@[simp] theorem clearCount_flags (c : Counter) : (clearCount c s).flags = s.flags := rfl
@[simp] theorem clearCount_mask (c : Counter) : (clearCount c s).mask = s.mask := rfl
@[simp] theorem clearCount_noticeOut (c : Counter) : (clearCount c s).noticeOut = s.noticeOut := rfl
@[simp] theorem clearCount_loading (c : Counter) : (clearCount c s).loading = s.loading := rfl
@[simp] theorem clearCount_counters (c : Counter) : (clearCount c s).counters = s.counters.drop c :=
  rfl

/-! ### takeFrameBlocks -/

@[simp] theorem takeFrameBlocks_pending (n : Nat) : (takeFrameBlocks n s).pending = s.pending := rfl
@[simp] theorem takeFrameBlocks_powered (n : Nat) : (takeFrameBlocks n s).powered = s.powered := rfl
@[simp] theorem takeFrameBlocks_resetLow (n : Nat) : (takeFrameBlocks n s).resetLow = s.resetLow :=
  rfl
@[simp] theorem takeFrameBlocks_commission (n : Nat) : (takeFrameBlocks n s).commission = s.commission :=
  rfl
@[simp] theorem takeFrameBlocks_time (n : Nat) : (takeFrameBlocks n s).time = s.time := rfl
@[simp] theorem takeFrameBlocks_choices (n : Nat) : (takeFrameBlocks n s).choices = s.choices := rfl
@[simp] theorem takeFrameBlocks_serial (n : Nat) : (takeFrameBlocks n s).serial = s.serial := rfl
@[simp] theorem takeFrameBlocks_segs (n : Nat) : (takeFrameBlocks n s).segs = s.segs := rfl
@[simp] theorem takeFrameBlocks_links (n : Nat) : (takeFrameBlocks n s).links = s.links := rfl
@[simp] theorem takeFrameBlocks_ifaces (n : Nat) : (takeFrameBlocks n s).ifaces = s.ifaces := rfl
@[simp] theorem takeFrameBlocks_pool (n : Nat) : (takeFrameBlocks n s).pool = ⟨s.pool.free - n, s.pool.frameHeld + n, s.pool.spoolHeld⟩ :=
  rfl
@[simp] theorem takeFrameBlocks_records (n : Nat) : (takeFrameBlocks n s).records = s.records := rfl
@[simp] theorem takeFrameBlocks_nextRecord (n : Nat) : (takeFrameBlocks n s).nextRecord = s.nextRecord :=
  rfl
@[simp] theorem takeFrameBlocks_queues (n : Nat) : (takeFrameBlocks n s).queues = s.queues := rfl
@[simp] theorem takeFrameBlocks_slots (n : Nat) : (takeFrameBlocks n s).slots = s.slots := rfl
@[simp] theorem takeFrameBlocks_dir (n : Nat) : (takeFrameBlocks n s).dir = s.dir := rfl
@[simp] theorem takeFrameBlocks_handover (n : Nat) : (takeFrameBlocks n s).handover = s.handover :=
  rfl
@[simp] theorem takeFrameBlocks_unknownLog (n : Nat) : (takeFrameBlocks n s).unknownLog = s.unknownLog :=
  rfl
@[simp] theorem takeFrameBlocks_jobs (n : Nat) : (takeFrameBlocks n s).jobs = s.jobs := rfl
@[simp] theorem takeFrameBlocks_nextOrder (n : Nat) : (takeFrameBlocks n s).nextOrder = s.nextOrder :=
  rfl
@[simp] theorem takeFrameBlocks_lines (n : Nat) : (takeFrameBlocks n s).lines = s.lines := rfl
@[simp] theorem takeFrameBlocks_window (n : Nat) : (takeFrameBlocks n s).window = s.window := rfl
@[simp] theorem takeFrameBlocks_segWin (n : Nat) : (takeFrameBlocks n s).segWin = s.segWin := rfl
@[simp] theorem takeFrameBlocks_linkWin (n : Nat) : (takeFrameBlocks n s).linkWin = s.linkWin := rfl
@[simp] theorem takeFrameBlocks_marks (n : Nat) : (takeFrameBlocks n s).marks = s.marks := rfl
@[simp] theorem takeFrameBlocks_service (n : Nat) : (takeFrameBlocks n s).service = s.service := rfl
@[simp] theorem takeFrameBlocks_sweep (n : Nat) : (takeFrameBlocks n s).sweep = s.sweep := rfl
@[simp] theorem takeFrameBlocks_requests (n : Nat) : (takeFrameBlocks n s).requests = s.requests :=
  rfl
@[simp] theorem takeFrameBlocks_current (n : Nat) : (takeFrameBlocks n s).current = s.current := rfl
@[simp] theorem takeFrameBlocks_save (n : Nat) : (takeFrameBlocks n s).save = s.save := rfl
@[simp] theorem takeFrameBlocks_heldReply (n : Nat) : (takeFrameBlocks n s).heldReply = s.heldReply :=
  rfl
@[simp] theorem takeFrameBlocks_config (n : Nat) : (takeFrameBlocks n s).config = s.config := rfl
@[simp] theorem takeFrameBlocks_flags (n : Nat) : (takeFrameBlocks n s).flags = s.flags := rfl
@[simp] theorem takeFrameBlocks_mask (n : Nat) : (takeFrameBlocks n s).mask = s.mask := rfl
@[simp] theorem takeFrameBlocks_noticeOut (n : Nat) : (takeFrameBlocks n s).noticeOut = s.noticeOut :=
  rfl
@[simp] theorem takeFrameBlocks_loading (n : Nat) : (takeFrameBlocks n s).loading = s.loading := rfl
@[simp] theorem takeFrameBlocks_counters (n : Nat) : (takeFrameBlocks n s).counters = s.counters :=
  rfl

/-! ### returnSpoolBlocks -/

@[simp] theorem returnSpoolBlocks_pending (n : Nat) : (returnSpoolBlocks n s).pending = s.pending :=
  rfl
@[simp] theorem returnSpoolBlocks_powered (n : Nat) : (returnSpoolBlocks n s).powered = s.powered :=
  rfl
@[simp] theorem returnSpoolBlocks_resetLow (n : Nat) : (returnSpoolBlocks n s).resetLow = s.resetLow :=
  rfl
@[simp] theorem returnSpoolBlocks_commission (n : Nat) : (returnSpoolBlocks n s).commission = s.commission :=
  rfl
@[simp] theorem returnSpoolBlocks_time (n : Nat) : (returnSpoolBlocks n s).time = s.time := rfl
@[simp] theorem returnSpoolBlocks_choices (n : Nat) : (returnSpoolBlocks n s).choices = s.choices :=
  rfl
@[simp] theorem returnSpoolBlocks_serial (n : Nat) : (returnSpoolBlocks n s).serial = s.serial :=
  rfl
@[simp] theorem returnSpoolBlocks_segs (n : Nat) : (returnSpoolBlocks n s).segs = s.segs := rfl
@[simp] theorem returnSpoolBlocks_links (n : Nat) : (returnSpoolBlocks n s).links = s.links := rfl
@[simp] theorem returnSpoolBlocks_ifaces (n : Nat) : (returnSpoolBlocks n s).ifaces = s.ifaces :=
  rfl
@[simp] theorem returnSpoolBlocks_pool (n : Nat) : (returnSpoolBlocks n s).pool = ⟨s.pool.free + n, s.pool.frameHeld, s.pool.spoolHeld - n⟩ :=
  rfl
@[simp] theorem returnSpoolBlocks_records (n : Nat) : (returnSpoolBlocks n s).records = s.records :=
  rfl
@[simp] theorem returnSpoolBlocks_nextRecord (n : Nat) : (returnSpoolBlocks n s).nextRecord = s.nextRecord :=
  rfl
@[simp] theorem returnSpoolBlocks_queues (n : Nat) : (returnSpoolBlocks n s).queues = s.queues :=
  rfl
@[simp] theorem returnSpoolBlocks_slots (n : Nat) : (returnSpoolBlocks n s).slots = s.slots := rfl
@[simp] theorem returnSpoolBlocks_dir (n : Nat) : (returnSpoolBlocks n s).dir = s.dir := rfl
@[simp] theorem returnSpoolBlocks_handover (n : Nat) : (returnSpoolBlocks n s).handover = s.handover :=
  rfl
@[simp] theorem returnSpoolBlocks_unknownLog (n : Nat) : (returnSpoolBlocks n s).unknownLog = s.unknownLog :=
  rfl
@[simp] theorem returnSpoolBlocks_jobs (n : Nat) : (returnSpoolBlocks n s).jobs = s.jobs := rfl
@[simp] theorem returnSpoolBlocks_nextOrder (n : Nat) : (returnSpoolBlocks n s).nextOrder = s.nextOrder :=
  rfl
@[simp] theorem returnSpoolBlocks_lines (n : Nat) : (returnSpoolBlocks n s).lines = s.lines := rfl
@[simp] theorem returnSpoolBlocks_window (n : Nat) : (returnSpoolBlocks n s).window = s.window :=
  rfl
@[simp] theorem returnSpoolBlocks_segWin (n : Nat) : (returnSpoolBlocks n s).segWin = s.segWin :=
  rfl
@[simp] theorem returnSpoolBlocks_linkWin (n : Nat) : (returnSpoolBlocks n s).linkWin = s.linkWin :=
  rfl
@[simp] theorem returnSpoolBlocks_marks (n : Nat) : (returnSpoolBlocks n s).marks = s.marks := rfl
@[simp] theorem returnSpoolBlocks_service (n : Nat) : (returnSpoolBlocks n s).service = s.service :=
  rfl
@[simp] theorem returnSpoolBlocks_sweep (n : Nat) : (returnSpoolBlocks n s).sweep = s.sweep := rfl
@[simp] theorem returnSpoolBlocks_requests (n : Nat) : (returnSpoolBlocks n s).requests = s.requests :=
  rfl
@[simp] theorem returnSpoolBlocks_current (n : Nat) : (returnSpoolBlocks n s).current = s.current :=
  rfl
@[simp] theorem returnSpoolBlocks_save (n : Nat) : (returnSpoolBlocks n s).save = s.save := rfl
@[simp] theorem returnSpoolBlocks_heldReply (n : Nat) : (returnSpoolBlocks n s).heldReply = s.heldReply :=
  rfl
@[simp] theorem returnSpoolBlocks_config (n : Nat) : (returnSpoolBlocks n s).config = s.config :=
  rfl
@[simp] theorem returnSpoolBlocks_flags (n : Nat) : (returnSpoolBlocks n s).flags = s.flags := rfl
@[simp] theorem returnSpoolBlocks_mask (n : Nat) : (returnSpoolBlocks n s).mask = s.mask := rfl
@[simp] theorem returnSpoolBlocks_noticeOut (n : Nat) : (returnSpoolBlocks n s).noticeOut = s.noticeOut :=
  rfl
@[simp] theorem returnSpoolBlocks_loading (n : Nat) : (returnSpoolBlocks n s).loading = s.loading :=
  rfl
@[simp] theorem returnSpoolBlocks_counters (n : Nat) : (returnSpoolBlocks n s).counters = s.counters :=
  rfl

/-! ### newRecord -/

@[simp] theorem newRecord_pending (n : Nat) (bs : List Byte) : (newRecord n bs s).pending = s.pending :=
  rfl
@[simp] theorem newRecord_powered (n : Nat) (bs : List Byte) : (newRecord n bs s).powered = s.powered :=
  rfl
@[simp] theorem newRecord_resetLow (n : Nat) (bs : List Byte) : (newRecord n bs s).resetLow = s.resetLow :=
  rfl
@[simp] theorem newRecord_commission (n : Nat) (bs : List Byte) : (newRecord n bs s).commission = s.commission :=
  rfl
@[simp] theorem newRecord_time (n : Nat) (bs : List Byte) : (newRecord n bs s).time = s.time := rfl
@[simp] theorem newRecord_choices (n : Nat) (bs : List Byte) : (newRecord n bs s).choices = s.choices :=
  rfl
@[simp] theorem newRecord_serial (n : Nat) (bs : List Byte) : (newRecord n bs s).serial = s.serial :=
  rfl
@[simp] theorem newRecord_segs (n : Nat) (bs : List Byte) : (newRecord n bs s).segs = s.segs := rfl
@[simp] theorem newRecord_links (n : Nat) (bs : List Byte) : (newRecord n bs s).links = s.links :=
  rfl
@[simp] theorem newRecord_ifaces (n : Nat) (bs : List Byte) : (newRecord n bs s).ifaces = s.ifaces :=
  rfl
@[simp] theorem newRecord_pool (n : Nat) (bs : List Byte) : (newRecord n bs s).pool = ⟨s.pool.free - n, s.pool.frameHeld + n, s.pool.spoolHeld⟩ :=
  rfl
@[simp] theorem newRecord_records (n : Nat) (bs : List Byte) : (newRecord n bs s).records = s.records.put id s.nextRecord ⟨n, bs, 1⟩ :=
  rfl
@[simp] theorem newRecord_nextRecord (n : Nat) (bs : List Byte) : (newRecord n bs s).nextRecord = s.nextRecord + 1 :=
  rfl
@[simp] theorem newRecord_queues (n : Nat) (bs : List Byte) : (newRecord n bs s).queues = s.queues :=
  rfl
@[simp] theorem newRecord_slots (n : Nat) (bs : List Byte) : (newRecord n bs s).slots = s.slots :=
  rfl
@[simp] theorem newRecord_dir (n : Nat) (bs : List Byte) : (newRecord n bs s).dir = s.dir := rfl
@[simp] theorem newRecord_handover (n : Nat) (bs : List Byte) : (newRecord n bs s).handover = s.handover :=
  rfl
@[simp] theorem newRecord_unknownLog (n : Nat) (bs : List Byte) : (newRecord n bs s).unknownLog = s.unknownLog :=
  rfl
@[simp] theorem newRecord_jobs (n : Nat) (bs : List Byte) : (newRecord n bs s).jobs = s.jobs := rfl
@[simp] theorem newRecord_nextOrder (n : Nat) (bs : List Byte) : (newRecord n bs s).nextOrder = s.nextOrder :=
  rfl
@[simp] theorem newRecord_lines (n : Nat) (bs : List Byte) : (newRecord n bs s).lines = s.lines :=
  rfl
@[simp] theorem newRecord_window (n : Nat) (bs : List Byte) : (newRecord n bs s).window = s.window :=
  rfl
@[simp] theorem newRecord_segWin (n : Nat) (bs : List Byte) : (newRecord n bs s).segWin = s.segWin :=
  rfl
@[simp] theorem newRecord_linkWin (n : Nat) (bs : List Byte) : (newRecord n bs s).linkWin = s.linkWin :=
  rfl
@[simp] theorem newRecord_marks (n : Nat) (bs : List Byte) : (newRecord n bs s).marks = s.marks :=
  rfl
@[simp] theorem newRecord_service (n : Nat) (bs : List Byte) : (newRecord n bs s).service = s.service :=
  rfl
@[simp] theorem newRecord_sweep (n : Nat) (bs : List Byte) : (newRecord n bs s).sweep = s.sweep :=
  rfl
@[simp] theorem newRecord_requests (n : Nat) (bs : List Byte) : (newRecord n bs s).requests = s.requests :=
  rfl
@[simp] theorem newRecord_current (n : Nat) (bs : List Byte) : (newRecord n bs s).current = s.current :=
  rfl
@[simp] theorem newRecord_save (n : Nat) (bs : List Byte) : (newRecord n bs s).save = s.save := rfl
@[simp] theorem newRecord_heldReply (n : Nat) (bs : List Byte) : (newRecord n bs s).heldReply = s.heldReply :=
  rfl
@[simp] theorem newRecord_config (n : Nat) (bs : List Byte) : (newRecord n bs s).config = s.config :=
  rfl
@[simp] theorem newRecord_flags (n : Nat) (bs : List Byte) : (newRecord n bs s).flags = s.flags :=
  rfl
@[simp] theorem newRecord_mask (n : Nat) (bs : List Byte) : (newRecord n bs s).mask = s.mask := rfl
@[simp] theorem newRecord_noticeOut (n : Nat) (bs : List Byte) : (newRecord n bs s).noticeOut = s.noticeOut :=
  rfl
@[simp] theorem newRecord_loading (n : Nat) (bs : List Byte) : (newRecord n bs s).loading = s.loading :=
  rfl
@[simp] theorem newRecord_counters (n : Nat) (bs : List Byte) : (newRecord n bs s).counters = s.counters :=
  rfl

/-! ### handOver -/

@[simp] theorem handOver_pending (p : Port) (h : Header) (r : Nat) : (handOver p h r s).pending = s.pending :=
  rfl
@[simp] theorem handOver_powered (p : Port) (h : Header) (r : Nat) : (handOver p h r s).powered = s.powered :=
  rfl
@[simp] theorem handOver_resetLow (p : Port) (h : Header) (r : Nat) : (handOver p h r s).resetLow = s.resetLow :=
  rfl
@[simp] theorem handOver_commission (p : Port) (h : Header) (r : Nat) : (handOver p h r s).commission = s.commission :=
  rfl
@[simp] theorem handOver_time (p : Port) (h : Header) (r : Nat) : (handOver p h r s).time = s.time :=
  rfl
@[simp] theorem handOver_choices (p : Port) (h : Header) (r : Nat) : (handOver p h r s).choices = s.choices :=
  rfl
@[simp] theorem handOver_serial (p : Port) (h : Header) (r : Nat) : (handOver p h r s).serial = s.serial :=
  rfl
@[simp] theorem handOver_segs (p : Port) (h : Header) (r : Nat) : (handOver p h r s).segs = s.segs :=
  rfl
@[simp] theorem handOver_links (p : Port) (h : Header) (r : Nat) : (handOver p h r s).links = s.links :=
  rfl
@[simp] theorem handOver_ifaces (p : Port) (h : Header) (r : Nat) : (handOver p h r s).ifaces = s.ifaces :=
  rfl
@[simp] theorem handOver_pool (p : Port) (h : Header) (r : Nat) : (handOver p h r s).pool = s.pool :=
  rfl
@[simp] theorem handOver_records (p : Port) (h : Header) (r : Nat) : (handOver p h r s).records = s.records :=
  rfl
@[simp] theorem handOver_nextRecord (p : Port) (h : Header) (r : Nat) : (handOver p h r s).nextRecord = s.nextRecord :=
  rfl
@[simp] theorem handOver_queues (p : Port) (h : Header) (r : Nat) : (handOver p h r s).queues = s.queues :=
  rfl
@[simp] theorem handOver_slots (p : Port) (h : Header) (r : Nat) : (handOver p h r s).slots = s.slots :=
  rfl
@[simp] theorem handOver_dir (p : Port) (h : Header) (r : Nat) : (handOver p h r s).dir = s.dir :=
  rfl
@[simp] theorem handOver_handover (p : Port) (h : Header) (r : Nat) : (handOver p h r s).handover = s.handover.set p (s.handover.get p ++ [⟨h, r⟩]) :=
  rfl
@[simp] theorem handOver_unknownLog (p : Port) (h : Header) (r : Nat) : (handOver p h r s).unknownLog = s.unknownLog :=
  rfl
@[simp] theorem handOver_jobs (p : Port) (h : Header) (r : Nat) : (handOver p h r s).jobs = s.jobs :=
  rfl
@[simp] theorem handOver_nextOrder (p : Port) (h : Header) (r : Nat) : (handOver p h r s).nextOrder = s.nextOrder :=
  rfl
@[simp] theorem handOver_lines (p : Port) (h : Header) (r : Nat) : (handOver p h r s).lines = s.lines :=
  rfl
@[simp] theorem handOver_window (p : Port) (h : Header) (r : Nat) : (handOver p h r s).window = s.window :=
  rfl
@[simp] theorem handOver_segWin (p : Port) (h : Header) (r : Nat) : (handOver p h r s).segWin = s.segWin :=
  rfl
@[simp] theorem handOver_linkWin (p : Port) (h : Header) (r : Nat) : (handOver p h r s).linkWin = s.linkWin :=
  rfl
@[simp] theorem handOver_marks (p : Port) (h : Header) (r : Nat) : (handOver p h r s).marks = s.marks :=
  rfl
@[simp] theorem handOver_service (p : Port) (h : Header) (r : Nat) : (handOver p h r s).service = s.service :=
  rfl
@[simp] theorem handOver_sweep (p : Port) (h : Header) (r : Nat) : (handOver p h r s).sweep = s.sweep :=
  rfl
@[simp] theorem handOver_requests (p : Port) (h : Header) (r : Nat) : (handOver p h r s).requests = s.requests :=
  rfl
@[simp] theorem handOver_current (p : Port) (h : Header) (r : Nat) : (handOver p h r s).current = s.current :=
  rfl
@[simp] theorem handOver_save (p : Port) (h : Header) (r : Nat) : (handOver p h r s).save = s.save :=
  rfl
@[simp] theorem handOver_heldReply (p : Port) (h : Header) (r : Nat) : (handOver p h r s).heldReply = s.heldReply :=
  rfl
@[simp] theorem handOver_config (p : Port) (h : Header) (r : Nat) : (handOver p h r s).config = s.config :=
  rfl
@[simp] theorem handOver_flags (p : Port) (h : Header) (r : Nat) : (handOver p h r s).flags = s.flags :=
  rfl
@[simp] theorem handOver_mask (p : Port) (h : Header) (r : Nat) : (handOver p h r s).mask = s.mask :=
  rfl
@[simp] theorem handOver_noticeOut (p : Port) (h : Header) (r : Nat) : (handOver p h r s).noticeOut = s.noticeOut :=
  rfl
@[simp] theorem handOver_loading (p : Port) (h : Header) (r : Nat) : (handOver p h r s).loading = s.loading :=
  rfl
@[simp] theorem handOver_counters (p : Port) (h : Header) (r : Nat) : (handOver p h r s).counters = s.counters :=
  rfl

/-! ### becomeCurrent -/

@[simp] theorem becomeCurrent_pending (q : Request) (rest : List Request) : (becomeCurrent q rest s).pending = s.pending :=
  rfl
@[simp] theorem becomeCurrent_powered (q : Request) (rest : List Request) : (becomeCurrent q rest s).powered = s.powered :=
  rfl
@[simp] theorem becomeCurrent_resetLow (q : Request) (rest : List Request) : (becomeCurrent q rest s).resetLow = s.resetLow :=
  rfl
@[simp] theorem becomeCurrent_commission (q : Request) (rest : List Request) : (becomeCurrent q rest s).commission = s.commission :=
  rfl
@[simp] theorem becomeCurrent_time (q : Request) (rest : List Request) : (becomeCurrent q rest s).time = s.time :=
  rfl
@[simp] theorem becomeCurrent_choices (q : Request) (rest : List Request) : (becomeCurrent q rest s).choices = s.choices :=
  rfl
@[simp] theorem becomeCurrent_serial (q : Request) (rest : List Request) : (becomeCurrent q rest s).serial = s.serial :=
  rfl
@[simp] theorem becomeCurrent_segs (q : Request) (rest : List Request) : (becomeCurrent q rest s).segs = s.segs :=
  rfl
@[simp] theorem becomeCurrent_links (q : Request) (rest : List Request) : (becomeCurrent q rest s).links = s.links :=
  rfl
@[simp] theorem becomeCurrent_ifaces (q : Request) (rest : List Request) : (becomeCurrent q rest s).ifaces = s.ifaces :=
  rfl
@[simp] theorem becomeCurrent_pool (q : Request) (rest : List Request) : (becomeCurrent q rest s).pool = s.pool :=
  rfl
@[simp] theorem becomeCurrent_records (q : Request) (rest : List Request) : (becomeCurrent q rest s).records = s.records :=
  rfl
@[simp] theorem becomeCurrent_nextRecord (q : Request) (rest : List Request) : (becomeCurrent q rest s).nextRecord = s.nextRecord :=
  rfl
@[simp] theorem becomeCurrent_queues (q : Request) (rest : List Request) : (becomeCurrent q rest s).queues = s.queues :=
  rfl
@[simp] theorem becomeCurrent_slots (q : Request) (rest : List Request) : (becomeCurrent q rest s).slots = s.slots :=
  rfl
@[simp] theorem becomeCurrent_dir (q : Request) (rest : List Request) : (becomeCurrent q rest s).dir = s.dir :=
  rfl
@[simp] theorem becomeCurrent_handover (q : Request) (rest : List Request) : (becomeCurrent q rest s).handover = s.handover :=
  rfl
@[simp] theorem becomeCurrent_unknownLog (q : Request) (rest : List Request) : (becomeCurrent q rest s).unknownLog = s.unknownLog :=
  rfl
@[simp] theorem becomeCurrent_jobs (q : Request) (rest : List Request) : (becomeCurrent q rest s).jobs = s.jobs :=
  rfl
@[simp] theorem becomeCurrent_nextOrder (q : Request) (rest : List Request) : (becomeCurrent q rest s).nextOrder = s.nextOrder :=
  rfl
@[simp] theorem becomeCurrent_lines (q : Request) (rest : List Request) : (becomeCurrent q rest s).lines = s.lines :=
  rfl
@[simp] theorem becomeCurrent_window (q : Request) (rest : List Request) : (becomeCurrent q rest s).window = s.window :=
  rfl
@[simp] theorem becomeCurrent_segWin (q : Request) (rest : List Request) : (becomeCurrent q rest s).segWin = s.segWin :=
  rfl
@[simp] theorem becomeCurrent_linkWin (q : Request) (rest : List Request) : (becomeCurrent q rest s).linkWin = s.linkWin :=
  rfl
@[simp] theorem becomeCurrent_marks (q : Request) (rest : List Request) : (becomeCurrent q rest s).marks = s.marks :=
  rfl
@[simp] theorem becomeCurrent_service (q : Request) (rest : List Request) : (becomeCurrent q rest s).service = s.service :=
  rfl
@[simp] theorem becomeCurrent_sweep (q : Request) (rest : List Request) : (becomeCurrent q rest s).sweep = s.sweep :=
  rfl
@[simp] theorem becomeCurrent_requests (q : Request) (rest : List Request) : (becomeCurrent q rest s).requests = rest :=
  rfl
@[simp] theorem becomeCurrent_current (q : Request) (rest : List Request) : (becomeCurrent q rest s).current = some q :=
  rfl
@[simp] theorem becomeCurrent_save (q : Request) (rest : List Request) : (becomeCurrent q rest s).save = s.save :=
  rfl
@[simp] theorem becomeCurrent_heldReply (q : Request) (rest : List Request) : (becomeCurrent q rest s).heldReply = s.heldReply :=
  rfl
@[simp] theorem becomeCurrent_config (q : Request) (rest : List Request) : (becomeCurrent q rest s).config = s.config :=
  rfl
@[simp] theorem becomeCurrent_flags (q : Request) (rest : List Request) : (becomeCurrent q rest s).flags = s.flags :=
  rfl
@[simp] theorem becomeCurrent_mask (q : Request) (rest : List Request) : (becomeCurrent q rest s).mask = s.mask :=
  rfl
@[simp] theorem becomeCurrent_noticeOut (q : Request) (rest : List Request) : (becomeCurrent q rest s).noticeOut = s.noticeOut :=
  rfl
@[simp] theorem becomeCurrent_loading (q : Request) (rest : List Request) : (becomeCurrent q rest s).loading = s.loading :=
  rfl
@[simp] theorem becomeCurrent_counters (q : Request) (rest : List Request) : (becomeCurrent q rest s).counters = s.counters :=
  rfl

/-! ### endCurrent -/

@[simp] theorem endCurrent_pending : (endCurrent s).pending = s.pending := rfl
@[simp] theorem endCurrent_powered : (endCurrent s).powered = s.powered := rfl
@[simp] theorem endCurrent_resetLow : (endCurrent s).resetLow = s.resetLow := rfl
@[simp] theorem endCurrent_commission : (endCurrent s).commission = s.commission := rfl
@[simp] theorem endCurrent_time : (endCurrent s).time = s.time := rfl
@[simp] theorem endCurrent_choices : (endCurrent s).choices = s.choices := rfl
@[simp] theorem endCurrent_serial : (endCurrent s).serial = s.serial := rfl
@[simp] theorem endCurrent_segs : (endCurrent s).segs = s.segs := rfl
@[simp] theorem endCurrent_links : (endCurrent s).links = s.links := rfl
@[simp] theorem endCurrent_ifaces : (endCurrent s).ifaces = s.ifaces := rfl
@[simp] theorem endCurrent_pool : (endCurrent s).pool = s.pool := rfl
@[simp] theorem endCurrent_records : (endCurrent s).records = s.records := rfl
@[simp] theorem endCurrent_nextRecord : (endCurrent s).nextRecord = s.nextRecord := rfl
@[simp] theorem endCurrent_queues : (endCurrent s).queues = s.queues := rfl
@[simp] theorem endCurrent_slots : (endCurrent s).slots = s.slots := rfl
@[simp] theorem endCurrent_dir : (endCurrent s).dir = s.dir := rfl
@[simp] theorem endCurrent_handover : (endCurrent s).handover = s.handover := rfl
@[simp] theorem endCurrent_unknownLog : (endCurrent s).unknownLog = s.unknownLog := rfl
@[simp] theorem endCurrent_jobs : (endCurrent s).jobs = s.jobs := rfl
@[simp] theorem endCurrent_nextOrder : (endCurrent s).nextOrder = s.nextOrder := rfl
@[simp] theorem endCurrent_lines : (endCurrent s).lines = s.lines := rfl
@[simp] theorem endCurrent_window : (endCurrent s).window = s.window := rfl
@[simp] theorem endCurrent_segWin : (endCurrent s).segWin = s.segWin := rfl
@[simp] theorem endCurrent_linkWin : (endCurrent s).linkWin = s.linkWin := rfl
@[simp] theorem endCurrent_marks : (endCurrent s).marks = s.marks := rfl
@[simp] theorem endCurrent_service : (endCurrent s).service = s.service := rfl
@[simp] theorem endCurrent_sweep : (endCurrent s).sweep = s.sweep := rfl
@[simp] theorem endCurrent_requests : (endCurrent s).requests = s.requests := rfl
@[simp] theorem endCurrent_current : (endCurrent s).current = none := rfl
@[simp] theorem endCurrent_save : (endCurrent s).save = s.save := rfl
@[simp] theorem endCurrent_heldReply : (endCurrent s).heldReply = s.heldReply := rfl
@[simp] theorem endCurrent_config : (endCurrent s).config = s.config := rfl
@[simp] theorem endCurrent_flags : (endCurrent s).flags = s.flags := rfl
@[simp] theorem endCurrent_mask : (endCurrent s).mask = s.mask := rfl
@[simp] theorem endCurrent_noticeOut : (endCurrent s).noticeOut = s.noticeOut := rfl
@[simp] theorem endCurrent_loading : (endCurrent s).loading = s.loading := rfl
@[simp] theorem endCurrent_counters : (endCurrent s).counters = s.counters := rfl

/-! ### beginWindow -/

@[simp] theorem beginWindow_pending : (beginWindow s).pending = s.pending := rfl
@[simp] theorem beginWindow_powered : (beginWindow s).powered = s.powered := rfl
@[simp] theorem beginWindow_resetLow : (beginWindow s).resetLow = s.resetLow := rfl
@[simp] theorem beginWindow_commission : (beginWindow s).commission = s.commission := rfl
@[simp] theorem beginWindow_time : (beginWindow s).time = s.time := rfl
@[simp] theorem beginWindow_choices : (beginWindow s).choices = s.choices := rfl
@[simp] theorem beginWindow_serial : (beginWindow s).serial = s.serial := rfl
@[simp] theorem beginWindow_segs : (beginWindow s).segs = s.segs := rfl
@[simp] theorem beginWindow_links : (beginWindow s).links = s.links := rfl
@[simp] theorem beginWindow_ifaces : (beginWindow s).ifaces = s.ifaces := rfl
@[simp] theorem beginWindow_pool : (beginWindow s).pool = s.pool := rfl
@[simp] theorem beginWindow_records : (beginWindow s).records = s.records := rfl
@[simp] theorem beginWindow_nextRecord : (beginWindow s).nextRecord = s.nextRecord := rfl
@[simp] theorem beginWindow_queues : (beginWindow s).queues = s.queues := rfl
@[simp] theorem beginWindow_slots : (beginWindow s).slots = s.slots := rfl
@[simp] theorem beginWindow_dir : (beginWindow s).dir = s.dir := rfl
@[simp] theorem beginWindow_handover : (beginWindow s).handover = s.handover := rfl
@[simp] theorem beginWindow_unknownLog : (beginWindow s).unknownLog = s.unknownLog := rfl
@[simp] theorem beginWindow_jobs : (beginWindow s).jobs = s.jobs := rfl
@[simp] theorem beginWindow_nextOrder : (beginWindow s).nextOrder = s.nextOrder := rfl
@[simp] theorem beginWindow_lines : (beginWindow s).lines = s.lines := rfl
@[simp] theorem beginWindow_window : (beginWindow s).window = ⟨true, 0, s.config.windowLength⟩ :=
  rfl
@[simp] theorem beginWindow_segWin : (beginWindow s).segWin = .fill .zero := rfl
@[simp] theorem beginWindow_linkWin : (beginWindow s).linkWin = .fill .zero := rfl
@[simp] theorem beginWindow_marks : (beginWindow s).marks = .fill .clear := rfl
@[simp] theorem beginWindow_service : (beginWindow s).service = s.service := rfl
@[simp] theorem beginWindow_sweep : (beginWindow s).sweep = s.sweep := rfl
@[simp] theorem beginWindow_requests : (beginWindow s).requests = s.requests := rfl
@[simp] theorem beginWindow_current : (beginWindow s).current = s.current := rfl
@[simp] theorem beginWindow_save : (beginWindow s).save = s.save := rfl
@[simp] theorem beginWindow_heldReply : (beginWindow s).heldReply = s.heldReply := rfl
@[simp] theorem beginWindow_config : (beginWindow s).config = s.config := rfl
@[simp] theorem beginWindow_flags : (beginWindow s).flags = s.flags := rfl
@[simp] theorem beginWindow_mask : (beginWindow s).mask = s.mask := rfl
@[simp] theorem beginWindow_noticeOut : (beginWindow s).noticeOut = s.noticeOut := rfl
@[simp] theorem beginWindow_loading : (beginWindow s).loading = s.loading := rfl
@[simp] theorem beginWindow_counters : (beginWindow s).counters = s.counters := rfl

/-! ### clearJobs -/

@[simp] theorem clearJobs_pending : (clearJobs s).pending = s.pending := rfl
@[simp] theorem clearJobs_powered : (clearJobs s).powered = s.powered := rfl
@[simp] theorem clearJobs_resetLow : (clearJobs s).resetLow = s.resetLow := rfl
@[simp] theorem clearJobs_commission : (clearJobs s).commission = s.commission := rfl
@[simp] theorem clearJobs_time : (clearJobs s).time = s.time := rfl
@[simp] theorem clearJobs_choices : (clearJobs s).choices = s.choices := rfl
@[simp] theorem clearJobs_serial : (clearJobs s).serial = s.serial := rfl
@[simp] theorem clearJobs_segs : (clearJobs s).segs = s.segs := rfl
@[simp] theorem clearJobs_links : (clearJobs s).links = s.links := rfl
@[simp] theorem clearJobs_ifaces : (clearJobs s).ifaces = s.ifaces := rfl
@[simp] theorem clearJobs_pool : (clearJobs s).pool = ⟨s.pool.free + s.pool.spoolHeld, s.pool.frameHeld, 0⟩ :=
  rfl
@[simp] theorem clearJobs_records : (clearJobs s).records = s.records := rfl
@[simp] theorem clearJobs_nextRecord : (clearJobs s).nextRecord = s.nextRecord := rfl
@[simp] theorem clearJobs_queues : (clearJobs s).queues = s.queues := rfl
@[simp] theorem clearJobs_slots : (clearJobs s).slots = s.slots := rfl
@[simp] theorem clearJobs_dir : (clearJobs s).dir = s.dir := rfl
@[simp] theorem clearJobs_handover : (clearJobs s).handover = s.handover := rfl
@[simp] theorem clearJobs_unknownLog : (clearJobs s).unknownLog = s.unknownLog := rfl
@[simp] theorem clearJobs_jobs : (clearJobs s).jobs = [] := rfl
@[simp] theorem clearJobs_nextOrder : (clearJobs s).nextOrder = s.nextOrder := rfl
@[simp] theorem clearJobs_lines : (clearJobs s).lines = s.lines := rfl
@[simp] theorem clearJobs_window : (clearJobs s).window = s.window := rfl
@[simp] theorem clearJobs_segWin : (clearJobs s).segWin = s.segWin := rfl
@[simp] theorem clearJobs_linkWin : (clearJobs s).linkWin = s.linkWin := rfl
@[simp] theorem clearJobs_marks : (clearJobs s).marks = s.marks := rfl
@[simp] theorem clearJobs_service : (clearJobs s).service = s.service := rfl
@[simp] theorem clearJobs_sweep : (clearJobs s).sweep = s.sweep := rfl
@[simp] theorem clearJobs_requests : (clearJobs s).requests = s.requests := rfl
@[simp] theorem clearJobs_current : (clearJobs s).current = s.current := rfl
@[simp] theorem clearJobs_save : (clearJobs s).save = s.save := rfl
@[simp] theorem clearJobs_heldReply : (clearJobs s).heldReply = s.heldReply := rfl
@[simp] theorem clearJobs_config : (clearJobs s).config = s.config := rfl
@[simp] theorem clearJobs_flags : (clearJobs s).flags = s.flags := rfl
@[simp] theorem clearJobs_mask : (clearJobs s).mask = s.mask := rfl
@[simp] theorem clearJobs_noticeOut : (clearJobs s).noticeOut = s.noticeOut := rfl
@[simp] theorem clearJobs_loading : (clearJobs s).loading = s.loading := rfl
@[simp] theorem clearJobs_counters : (clearJobs s).counters = s.counters := rfl

/-! ### bump -/

@[simp] theorem bump_pending (c : Counter) : (bump c s).pending = s.pending := rfl
@[simp] theorem bump_powered (c : Counter) : (bump c s).powered = s.powered := rfl
@[simp] theorem bump_resetLow (c : Counter) : (bump c s).resetLow = s.resetLow := rfl
@[simp] theorem bump_commission (c : Counter) : (bump c s).commission = s.commission := rfl
@[simp] theorem bump_time (c : Counter) : (bump c s).time = s.time := rfl
@[simp] theorem bump_choices (c : Counter) : (bump c s).choices = s.choices := rfl
@[simp] theorem bump_serial (c : Counter) : (bump c s).serial = s.serial := rfl
@[simp] theorem bump_segs (c : Counter) : (bump c s).segs = s.segs := rfl
@[simp] theorem bump_links (c : Counter) : (bump c s).links = s.links := rfl
@[simp] theorem bump_ifaces (c : Counter) : (bump c s).ifaces = s.ifaces := rfl
@[simp] theorem bump_pool (c : Counter) : (bump c s).pool = s.pool := rfl
@[simp] theorem bump_records (c : Counter) : (bump c s).records = s.records := rfl
@[simp] theorem bump_nextRecord (c : Counter) : (bump c s).nextRecord = s.nextRecord := rfl
@[simp] theorem bump_queues (c : Counter) : (bump c s).queues = s.queues := rfl
@[simp] theorem bump_slots (c : Counter) : (bump c s).slots = s.slots := rfl
@[simp] theorem bump_dir (c : Counter) : (bump c s).dir = s.dir := rfl
@[simp] theorem bump_handover (c : Counter) : (bump c s).handover = s.handover := rfl
@[simp] theorem bump_unknownLog (c : Counter) : (bump c s).unknownLog = s.unknownLog := rfl
@[simp] theorem bump_jobs (c : Counter) : (bump c s).jobs = s.jobs := rfl
@[simp] theorem bump_nextOrder (c : Counter) : (bump c s).nextOrder = s.nextOrder := rfl
@[simp] theorem bump_lines (c : Counter) : (bump c s).lines = s.lines := rfl
@[simp] theorem bump_window (c : Counter) : (bump c s).window = s.window := rfl
@[simp] theorem bump_segWin (c : Counter) : (bump c s).segWin = s.segWin := rfl
@[simp] theorem bump_linkWin (c : Counter) : (bump c s).linkWin = s.linkWin := rfl
@[simp] theorem bump_marks (c : Counter) : (bump c s).marks = s.marks := rfl
@[simp] theorem bump_service (c : Counter) : (bump c s).service = s.service := rfl
@[simp] theorem bump_sweep (c : Counter) : (bump c s).sweep = s.sweep := rfl
@[simp] theorem bump_requests (c : Counter) : (bump c s).requests = s.requests := rfl
@[simp] theorem bump_current (c : Counter) : (bump c s).current = s.current := rfl
@[simp] theorem bump_save (c : Counter) : (bump c s).save = s.save := rfl
@[simp] theorem bump_heldReply (c : Counter) : (bump c s).heldReply = s.heldReply := rfl
@[simp] theorem bump_config (c : Counter) : (bump c s).config = s.config := rfl
@[simp] theorem bump_flags (c : Counter) : (bump c s).flags = s.flags := rfl
@[simp] theorem bump_mask (c : Counter) : (bump c s).mask = s.mask := rfl
@[simp] theorem bump_noticeOut (c : Counter) : (bump c s).noticeOut = s.noticeOut := rfl
@[simp] theorem bump_loading (c : Counter) : (bump c s).loading = s.loading := rfl
@[simp] theorem bump_counters (c : Counter) : (bump c s).counters = s.counters.put Counter.ord c (min Config.counterMax (s.count c + 1)) :=
  rfl

/-! ### bumpBy -/

@[simp] theorem bumpBy_pending (c : Counter) (n : Nat) : (bumpBy c n s).pending = s.pending :=
  by unfold bumpBy; split <;> rfl
@[simp] theorem bumpBy_powered (c : Counter) (n : Nat) : (bumpBy c n s).powered = s.powered :=
  by unfold bumpBy; split <;> rfl
@[simp] theorem bumpBy_resetLow (c : Counter) (n : Nat) : (bumpBy c n s).resetLow = s.resetLow :=
  by unfold bumpBy; split <;> rfl
@[simp] theorem bumpBy_commission (c : Counter) (n : Nat) : (bumpBy c n s).commission = s.commission :=
  by unfold bumpBy; split <;> rfl
@[simp] theorem bumpBy_time (c : Counter) (n : Nat) : (bumpBy c n s).time = s.time :=
  by unfold bumpBy; split <;> rfl
@[simp] theorem bumpBy_choices (c : Counter) (n : Nat) : (bumpBy c n s).choices = s.choices :=
  by unfold bumpBy; split <;> rfl
@[simp] theorem bumpBy_serial (c : Counter) (n : Nat) : (bumpBy c n s).serial = s.serial :=
  by unfold bumpBy; split <;> rfl
@[simp] theorem bumpBy_segs (c : Counter) (n : Nat) : (bumpBy c n s).segs = s.segs :=
  by unfold bumpBy; split <;> rfl
@[simp] theorem bumpBy_links (c : Counter) (n : Nat) : (bumpBy c n s).links = s.links :=
  by unfold bumpBy; split <;> rfl
@[simp] theorem bumpBy_ifaces (c : Counter) (n : Nat) : (bumpBy c n s).ifaces = s.ifaces :=
  by unfold bumpBy; split <;> rfl
@[simp] theorem bumpBy_pool (c : Counter) (n : Nat) : (bumpBy c n s).pool = s.pool :=
  by unfold bumpBy; split <;> rfl
@[simp] theorem bumpBy_records (c : Counter) (n : Nat) : (bumpBy c n s).records = s.records :=
  by unfold bumpBy; split <;> rfl
@[simp] theorem bumpBy_nextRecord (c : Counter) (n : Nat) : (bumpBy c n s).nextRecord = s.nextRecord :=
  by unfold bumpBy; split <;> rfl
@[simp] theorem bumpBy_queues (c : Counter) (n : Nat) : (bumpBy c n s).queues = s.queues :=
  by unfold bumpBy; split <;> rfl
@[simp] theorem bumpBy_slots (c : Counter) (n : Nat) : (bumpBy c n s).slots = s.slots :=
  by unfold bumpBy; split <;> rfl
@[simp] theorem bumpBy_dir (c : Counter) (n : Nat) : (bumpBy c n s).dir = s.dir :=
  by unfold bumpBy; split <;> rfl
@[simp] theorem bumpBy_handover (c : Counter) (n : Nat) : (bumpBy c n s).handover = s.handover :=
  by unfold bumpBy; split <;> rfl
@[simp] theorem bumpBy_unknownLog (c : Counter) (n : Nat) : (bumpBy c n s).unknownLog = s.unknownLog :=
  by unfold bumpBy; split <;> rfl
@[simp] theorem bumpBy_jobs (c : Counter) (n : Nat) : (bumpBy c n s).jobs = s.jobs :=
  by unfold bumpBy; split <;> rfl
@[simp] theorem bumpBy_nextOrder (c : Counter) (n : Nat) : (bumpBy c n s).nextOrder = s.nextOrder :=
  by unfold bumpBy; split <;> rfl
@[simp] theorem bumpBy_lines (c : Counter) (n : Nat) : (bumpBy c n s).lines = s.lines :=
  by unfold bumpBy; split <;> rfl
@[simp] theorem bumpBy_window (c : Counter) (n : Nat) : (bumpBy c n s).window = s.window :=
  by unfold bumpBy; split <;> rfl
@[simp] theorem bumpBy_segWin (c : Counter) (n : Nat) : (bumpBy c n s).segWin = s.segWin :=
  by unfold bumpBy; split <;> rfl
@[simp] theorem bumpBy_linkWin (c : Counter) (n : Nat) : (bumpBy c n s).linkWin = s.linkWin :=
  by unfold bumpBy; split <;> rfl
@[simp] theorem bumpBy_marks (c : Counter) (n : Nat) : (bumpBy c n s).marks = s.marks :=
  by unfold bumpBy; split <;> rfl
@[simp] theorem bumpBy_service (c : Counter) (n : Nat) : (bumpBy c n s).service = s.service :=
  by unfold bumpBy; split <;> rfl
@[simp] theorem bumpBy_sweep (c : Counter) (n : Nat) : (bumpBy c n s).sweep = s.sweep :=
  by unfold bumpBy; split <;> rfl
@[simp] theorem bumpBy_requests (c : Counter) (n : Nat) : (bumpBy c n s).requests = s.requests :=
  by unfold bumpBy; split <;> rfl
@[simp] theorem bumpBy_current (c : Counter) (n : Nat) : (bumpBy c n s).current = s.current :=
  by unfold bumpBy; split <;> rfl
@[simp] theorem bumpBy_save (c : Counter) (n : Nat) : (bumpBy c n s).save = s.save :=
  by unfold bumpBy; split <;> rfl
@[simp] theorem bumpBy_heldReply (c : Counter) (n : Nat) : (bumpBy c n s).heldReply = s.heldReply :=
  by unfold bumpBy; split <;> rfl
@[simp] theorem bumpBy_config (c : Counter) (n : Nat) : (bumpBy c n s).config = s.config :=
  by unfold bumpBy; split <;> rfl
@[simp] theorem bumpBy_flags (c : Counter) (n : Nat) : (bumpBy c n s).flags = s.flags :=
  by unfold bumpBy; split <;> rfl
@[simp] theorem bumpBy_mask (c : Counter) (n : Nat) : (bumpBy c n s).mask = s.mask :=
  by unfold bumpBy; split <;> rfl
@[simp] theorem bumpBy_noticeOut (c : Counter) (n : Nat) : (bumpBy c n s).noticeOut = s.noticeOut :=
  by unfold bumpBy; split <;> rfl
@[simp] theorem bumpBy_loading (c : Counter) (n : Nat) : (bumpBy c n s).loading = s.loading :=
  by unfold bumpBy; split <;> rfl

/-! ### putEntry -/

@[simp] theorem putEntry_pending (i : Nat) (e : Entry) : (putEntry i e s).pending = s.pending :=
  by unfold putEntry; split <;> rfl
@[simp] theorem putEntry_powered (i : Nat) (e : Entry) : (putEntry i e s).powered = s.powered :=
  by unfold putEntry; split <;> rfl
@[simp] theorem putEntry_resetLow (i : Nat) (e : Entry) : (putEntry i e s).resetLow = s.resetLow :=
  by unfold putEntry; split <;> rfl
@[simp] theorem putEntry_commission (i : Nat) (e : Entry) : (putEntry i e s).commission = s.commission :=
  by unfold putEntry; split <;> rfl
@[simp] theorem putEntry_time (i : Nat) (e : Entry) : (putEntry i e s).time = s.time :=
  by unfold putEntry; split <;> rfl
@[simp] theorem putEntry_choices (i : Nat) (e : Entry) : (putEntry i e s).choices = s.choices :=
  by unfold putEntry; split <;> rfl
@[simp] theorem putEntry_serial (i : Nat) (e : Entry) : (putEntry i e s).serial = s.serial :=
  by unfold putEntry; split <;> rfl
@[simp] theorem putEntry_segs (i : Nat) (e : Entry) : (putEntry i e s).segs = s.segs :=
  by unfold putEntry; split <;> rfl
@[simp] theorem putEntry_links (i : Nat) (e : Entry) : (putEntry i e s).links = s.links :=
  by unfold putEntry; split <;> rfl
@[simp] theorem putEntry_ifaces (i : Nat) (e : Entry) : (putEntry i e s).ifaces = s.ifaces :=
  by unfold putEntry; split <;> rfl
@[simp] theorem putEntry_pool (i : Nat) (e : Entry) : (putEntry i e s).pool = s.pool :=
  by unfold putEntry; split <;> rfl
@[simp] theorem putEntry_records (i : Nat) (e : Entry) : (putEntry i e s).records = s.records :=
  by unfold putEntry; split <;> rfl
@[simp] theorem putEntry_nextRecord (i : Nat) (e : Entry) : (putEntry i e s).nextRecord = s.nextRecord :=
  by unfold putEntry; split <;> rfl
@[simp] theorem putEntry_queues (i : Nat) (e : Entry) : (putEntry i e s).queues = s.queues :=
  by unfold putEntry; split <;> rfl
@[simp] theorem putEntry_slots (i : Nat) (e : Entry) : (putEntry i e s).slots = s.slots :=
  by unfold putEntry; split <;> rfl
@[simp] theorem putEntry_handover (i : Nat) (e : Entry) : (putEntry i e s).handover = s.handover :=
  by unfold putEntry; split <;> rfl
@[simp] theorem putEntry_unknownLog (i : Nat) (e : Entry) : (putEntry i e s).unknownLog = s.unknownLog :=
  by unfold putEntry; split <;> rfl
@[simp] theorem putEntry_jobs (i : Nat) (e : Entry) : (putEntry i e s).jobs = s.jobs :=
  by unfold putEntry; split <;> rfl
@[simp] theorem putEntry_nextOrder (i : Nat) (e : Entry) : (putEntry i e s).nextOrder = s.nextOrder :=
  by unfold putEntry; split <;> rfl
@[simp] theorem putEntry_lines (i : Nat) (e : Entry) : (putEntry i e s).lines = s.lines :=
  by unfold putEntry; split <;> rfl
@[simp] theorem putEntry_window (i : Nat) (e : Entry) : (putEntry i e s).window = s.window :=
  by unfold putEntry; split <;> rfl
@[simp] theorem putEntry_segWin (i : Nat) (e : Entry) : (putEntry i e s).segWin = s.segWin :=
  by unfold putEntry; split <;> rfl
@[simp] theorem putEntry_linkWin (i : Nat) (e : Entry) : (putEntry i e s).linkWin = s.linkWin :=
  by unfold putEntry; split <;> rfl
@[simp] theorem putEntry_marks (i : Nat) (e : Entry) : (putEntry i e s).marks = s.marks :=
  by unfold putEntry; split <;> rfl
@[simp] theorem putEntry_service (i : Nat) (e : Entry) : (putEntry i e s).service = s.service :=
  by unfold putEntry; split <;> rfl
@[simp] theorem putEntry_sweep (i : Nat) (e : Entry) : (putEntry i e s).sweep = s.sweep :=
  by unfold putEntry; split <;> rfl
@[simp] theorem putEntry_requests (i : Nat) (e : Entry) : (putEntry i e s).requests = s.requests :=
  by unfold putEntry; split <;> rfl
@[simp] theorem putEntry_current (i : Nat) (e : Entry) : (putEntry i e s).current = s.current :=
  by unfold putEntry; split <;> rfl
@[simp] theorem putEntry_save (i : Nat) (e : Entry) : (putEntry i e s).save = s.save :=
  by unfold putEntry; split <;> rfl
@[simp] theorem putEntry_heldReply (i : Nat) (e : Entry) : (putEntry i e s).heldReply = s.heldReply :=
  by unfold putEntry; split <;> rfl
@[simp] theorem putEntry_config (i : Nat) (e : Entry) : (putEntry i e s).config = s.config :=
  by unfold putEntry; split <;> rfl
@[simp] theorem putEntry_flags (i : Nat) (e : Entry) : (putEntry i e s).flags = s.flags :=
  by unfold putEntry; split <;> rfl
@[simp] theorem putEntry_mask (i : Nat) (e : Entry) : (putEntry i e s).mask = s.mask :=
  by unfold putEntry; split <;> rfl
@[simp] theorem putEntry_noticeOut (i : Nat) (e : Entry) : (putEntry i e s).noticeOut = s.noticeOut :=
  by unfold putEntry; split <;> rfl
@[simp] theorem putEntry_loading (i : Nat) (e : Entry) : (putEntry i e s).loading = s.loading :=
  by unfold putEntry; split <;> rfl
@[simp] theorem putEntry_counters (i : Nat) (e : Entry) : (putEntry i e s).counters = s.counters :=
  by unfold putEntry; split <;> rfl

/-! ### dropEntry -/

@[simp] theorem dropEntry_pending (i : Nat) : (dropEntry i s).pending = s.pending :=
  by unfold dropEntry; split <;> rfl
@[simp] theorem dropEntry_powered (i : Nat) : (dropEntry i s).powered = s.powered :=
  by unfold dropEntry; split <;> rfl
@[simp] theorem dropEntry_resetLow (i : Nat) : (dropEntry i s).resetLow = s.resetLow :=
  by unfold dropEntry; split <;> rfl
@[simp] theorem dropEntry_commission (i : Nat) : (dropEntry i s).commission = s.commission :=
  by unfold dropEntry; split <;> rfl
@[simp] theorem dropEntry_time (i : Nat) : (dropEntry i s).time = s.time :=
  by unfold dropEntry; split <;> rfl
@[simp] theorem dropEntry_choices (i : Nat) : (dropEntry i s).choices = s.choices :=
  by unfold dropEntry; split <;> rfl
@[simp] theorem dropEntry_serial (i : Nat) : (dropEntry i s).serial = s.serial :=
  by unfold dropEntry; split <;> rfl
@[simp] theorem dropEntry_segs (i : Nat) : (dropEntry i s).segs = s.segs :=
  by unfold dropEntry; split <;> rfl
@[simp] theorem dropEntry_links (i : Nat) : (dropEntry i s).links = s.links :=
  by unfold dropEntry; split <;> rfl
@[simp] theorem dropEntry_ifaces (i : Nat) : (dropEntry i s).ifaces = s.ifaces :=
  by unfold dropEntry; split <;> rfl
@[simp] theorem dropEntry_pool (i : Nat) : (dropEntry i s).pool = s.pool :=
  by unfold dropEntry; split <;> rfl
@[simp] theorem dropEntry_records (i : Nat) : (dropEntry i s).records = s.records :=
  by unfold dropEntry; split <;> rfl
@[simp] theorem dropEntry_nextRecord (i : Nat) : (dropEntry i s).nextRecord = s.nextRecord :=
  by unfold dropEntry; split <;> rfl
@[simp] theorem dropEntry_queues (i : Nat) : (dropEntry i s).queues = s.queues :=
  by unfold dropEntry; split <;> rfl
@[simp] theorem dropEntry_slots (i : Nat) : (dropEntry i s).slots = s.slots :=
  by unfold dropEntry; split <;> rfl
@[simp] theorem dropEntry_handover (i : Nat) : (dropEntry i s).handover = s.handover :=
  by unfold dropEntry; split <;> rfl
@[simp] theorem dropEntry_unknownLog (i : Nat) : (dropEntry i s).unknownLog = s.unknownLog :=
  by unfold dropEntry; split <;> rfl
@[simp] theorem dropEntry_jobs (i : Nat) : (dropEntry i s).jobs = s.jobs :=
  by unfold dropEntry; split <;> rfl
@[simp] theorem dropEntry_nextOrder (i : Nat) : (dropEntry i s).nextOrder = s.nextOrder :=
  by unfold dropEntry; split <;> rfl
@[simp] theorem dropEntry_lines (i : Nat) : (dropEntry i s).lines = s.lines :=
  by unfold dropEntry; split <;> rfl
@[simp] theorem dropEntry_window (i : Nat) : (dropEntry i s).window = s.window :=
  by unfold dropEntry; split <;> rfl
@[simp] theorem dropEntry_segWin (i : Nat) : (dropEntry i s).segWin = s.segWin :=
  by unfold dropEntry; split <;> rfl
@[simp] theorem dropEntry_linkWin (i : Nat) : (dropEntry i s).linkWin = s.linkWin :=
  by unfold dropEntry; split <;> rfl
@[simp] theorem dropEntry_marks (i : Nat) : (dropEntry i s).marks = s.marks :=
  by unfold dropEntry; split <;> rfl
@[simp] theorem dropEntry_service (i : Nat) : (dropEntry i s).service = s.service :=
  by unfold dropEntry; split <;> rfl
@[simp] theorem dropEntry_sweep (i : Nat) : (dropEntry i s).sweep = s.sweep :=
  by unfold dropEntry; split <;> rfl
@[simp] theorem dropEntry_requests (i : Nat) : (dropEntry i s).requests = s.requests :=
  by unfold dropEntry; split <;> rfl
@[simp] theorem dropEntry_current (i : Nat) : (dropEntry i s).current = s.current :=
  by unfold dropEntry; split <;> rfl
@[simp] theorem dropEntry_save (i : Nat) : (dropEntry i s).save = s.save :=
  by unfold dropEntry; split <;> rfl
@[simp] theorem dropEntry_heldReply (i : Nat) : (dropEntry i s).heldReply = s.heldReply :=
  by unfold dropEntry; split <;> rfl
@[simp] theorem dropEntry_config (i : Nat) : (dropEntry i s).config = s.config :=
  by unfold dropEntry; split <;> rfl
@[simp] theorem dropEntry_flags (i : Nat) : (dropEntry i s).flags = s.flags :=
  by unfold dropEntry; split <;> rfl
@[simp] theorem dropEntry_mask (i : Nat) : (dropEntry i s).mask = s.mask :=
  by unfold dropEntry; split <;> rfl
@[simp] theorem dropEntry_noticeOut (i : Nat) : (dropEntry i s).noticeOut = s.noticeOut :=
  by unfold dropEntry; split <;> rfl
@[simp] theorem dropEntry_loading (i : Nat) : (dropEntry i s).loading = s.loading :=
  by unfold dropEntry; split <;> rfl
@[simp] theorem dropEntry_counters (i : Nat) : (dropEntry i s).counters = s.counters :=
  by unfold dropEntry; split <;> rfl

/-! ### removeEntry -/

@[simp] theorem removeEntry_pending (i : Nat) : (removeEntry i s).pending = s.pending :=
  by unfold removeEntry dropEntry; split <;> rfl
@[simp] theorem removeEntry_powered (i : Nat) : (removeEntry i s).powered = s.powered :=
  by unfold removeEntry dropEntry; split <;> rfl
@[simp] theorem removeEntry_resetLow (i : Nat) : (removeEntry i s).resetLow = s.resetLow :=
  by unfold removeEntry dropEntry; split <;> rfl
@[simp] theorem removeEntry_commission (i : Nat) : (removeEntry i s).commission = s.commission :=
  by unfold removeEntry dropEntry; split <;> rfl
@[simp] theorem removeEntry_time (i : Nat) : (removeEntry i s).time = s.time :=
  by unfold removeEntry dropEntry; split <;> rfl
@[simp] theorem removeEntry_choices (i : Nat) : (removeEntry i s).choices = s.choices :=
  by unfold removeEntry dropEntry; split <;> rfl
@[simp] theorem removeEntry_serial (i : Nat) : (removeEntry i s).serial = s.serial :=
  by unfold removeEntry dropEntry; split <;> rfl
@[simp] theorem removeEntry_segs (i : Nat) : (removeEntry i s).segs = s.segs :=
  by unfold removeEntry dropEntry; split <;> rfl
@[simp] theorem removeEntry_links (i : Nat) : (removeEntry i s).links = s.links :=
  by unfold removeEntry dropEntry; split <;> rfl
@[simp] theorem removeEntry_ifaces (i : Nat) : (removeEntry i s).ifaces = s.ifaces :=
  by unfold removeEntry dropEntry; split <;> rfl
@[simp] theorem removeEntry_pool (i : Nat) : (removeEntry i s).pool = s.pool :=
  by unfold removeEntry dropEntry; split <;> rfl
@[simp] theorem removeEntry_records (i : Nat) : (removeEntry i s).records = s.records :=
  by unfold removeEntry dropEntry; split <;> rfl
@[simp] theorem removeEntry_nextRecord (i : Nat) : (removeEntry i s).nextRecord = s.nextRecord :=
  by unfold removeEntry dropEntry; split <;> rfl
@[simp] theorem removeEntry_queues (i : Nat) : (removeEntry i s).queues = s.queues.map fun es => es.map (QueueEntry.forget i) :=
  by unfold removeEntry dropEntry; split <;> rfl
@[simp] theorem removeEntry_slots (i : Nat) : (removeEntry i s).slots = s.slots :=
  by unfold removeEntry dropEntry; split <;> rfl
@[simp] theorem removeEntry_handover (i : Nat) : (removeEntry i s).handover = s.handover :=
  by unfold removeEntry dropEntry; split <;> rfl
@[simp] theorem removeEntry_unknownLog (i : Nat) : (removeEntry i s).unknownLog = s.unknownLog :=
  by unfold removeEntry dropEntry; split <;> rfl
@[simp] theorem removeEntry_jobs (i : Nat) : (removeEntry i s).jobs = s.jobs :=
  by unfold removeEntry dropEntry; split <;> rfl
@[simp] theorem removeEntry_nextOrder (i : Nat) : (removeEntry i s).nextOrder = s.nextOrder :=
  by unfold removeEntry dropEntry; split <;> rfl
@[simp] theorem removeEntry_lines (i : Nat) : (removeEntry i s).lines = s.lines :=
  by unfold removeEntry dropEntry; split <;> rfl
@[simp] theorem removeEntry_window (i : Nat) : (removeEntry i s).window = s.window :=
  by unfold removeEntry dropEntry; split <;> rfl
@[simp] theorem removeEntry_segWin (i : Nat) : (removeEntry i s).segWin = s.segWin :=
  by unfold removeEntry dropEntry; split <;> rfl
@[simp] theorem removeEntry_linkWin (i : Nat) : (removeEntry i s).linkWin = s.linkWin :=
  by unfold removeEntry dropEntry; split <;> rfl
@[simp] theorem removeEntry_marks (i : Nat) : (removeEntry i s).marks = s.marks :=
  by unfold removeEntry dropEntry; split <;> rfl
@[simp] theorem removeEntry_service (i : Nat) : (removeEntry i s).service = s.service :=
  by unfold removeEntry dropEntry; split <;> rfl
@[simp] theorem removeEntry_sweep (i : Nat) : (removeEntry i s).sweep = s.sweep :=
  by unfold removeEntry dropEntry; split <;> rfl
@[simp] theorem removeEntry_requests (i : Nat) : (removeEntry i s).requests = s.requests :=
  by unfold removeEntry dropEntry; split <;> rfl
@[simp] theorem removeEntry_current (i : Nat) : (removeEntry i s).current = s.current :=
  by unfold removeEntry dropEntry; split <;> rfl
@[simp] theorem removeEntry_save (i : Nat) : (removeEntry i s).save = s.save :=
  by unfold removeEntry dropEntry; split <;> rfl
@[simp] theorem removeEntry_heldReply (i : Nat) : (removeEntry i s).heldReply = s.heldReply :=
  by unfold removeEntry dropEntry; split <;> rfl
@[simp] theorem removeEntry_config (i : Nat) : (removeEntry i s).config = s.config :=
  by unfold removeEntry dropEntry; split <;> rfl
@[simp] theorem removeEntry_flags (i : Nat) : (removeEntry i s).flags = s.flags :=
  by unfold removeEntry dropEntry; split <;> rfl
@[simp] theorem removeEntry_mask (i : Nat) : (removeEntry i s).mask = s.mask :=
  by unfold removeEntry dropEntry; split <;> rfl
@[simp] theorem removeEntry_noticeOut (i : Nat) : (removeEntry i s).noticeOut = s.noticeOut :=
  by unfold removeEntry dropEntry; split <;> rfl
@[simp] theorem removeEntry_loading (i : Nat) : (removeEntry i s).loading = s.loading :=
  by unfold removeEntry dropEntry; split <;> rfl
@[simp] theorem removeEntry_counters (i : Nat) : (removeEntry i s).counters = s.counters :=
  by unfold removeEntry dropEntry; split <;> rfl

/-! ### modStation -/

@[simp] theorem modStation_pending (i : Nat) (f : Station → Station) : (modStation i f s).pending = s.pending :=
  by unfold modStation putEntry; (repeat' split) <;> rfl
@[simp] theorem modStation_powered (i : Nat) (f : Station → Station) : (modStation i f s).powered = s.powered :=
  by unfold modStation putEntry; (repeat' split) <;> rfl
@[simp] theorem modStation_resetLow (i : Nat) (f : Station → Station) : (modStation i f s).resetLow = s.resetLow :=
  by unfold modStation putEntry; (repeat' split) <;> rfl
@[simp] theorem modStation_commission (i : Nat) (f : Station → Station) : (modStation i f s).commission = s.commission :=
  by unfold modStation putEntry; (repeat' split) <;> rfl
@[simp] theorem modStation_time (i : Nat) (f : Station → Station) : (modStation i f s).time = s.time :=
  by unfold modStation putEntry; (repeat' split) <;> rfl
@[simp] theorem modStation_choices (i : Nat) (f : Station → Station) : (modStation i f s).choices = s.choices :=
  by unfold modStation putEntry; (repeat' split) <;> rfl
@[simp] theorem modStation_serial (i : Nat) (f : Station → Station) : (modStation i f s).serial = s.serial :=
  by unfold modStation putEntry; (repeat' split) <;> rfl
@[simp] theorem modStation_segs (i : Nat) (f : Station → Station) : (modStation i f s).segs = s.segs :=
  by unfold modStation putEntry; (repeat' split) <;> rfl
@[simp] theorem modStation_links (i : Nat) (f : Station → Station) : (modStation i f s).links = s.links :=
  by unfold modStation putEntry; (repeat' split) <;> rfl
@[simp] theorem modStation_ifaces (i : Nat) (f : Station → Station) : (modStation i f s).ifaces = s.ifaces :=
  by unfold modStation putEntry; (repeat' split) <;> rfl
@[simp] theorem modStation_pool (i : Nat) (f : Station → Station) : (modStation i f s).pool = s.pool :=
  by unfold modStation putEntry; (repeat' split) <;> rfl
@[simp] theorem modStation_records (i : Nat) (f : Station → Station) : (modStation i f s).records = s.records :=
  by unfold modStation putEntry; (repeat' split) <;> rfl
@[simp] theorem modStation_nextRecord (i : Nat) (f : Station → Station) : (modStation i f s).nextRecord = s.nextRecord :=
  by unfold modStation putEntry; (repeat' split) <;> rfl
@[simp] theorem modStation_queues (i : Nat) (f : Station → Station) : (modStation i f s).queues = s.queues :=
  by unfold modStation putEntry; (repeat' split) <;> rfl
@[simp] theorem modStation_slots (i : Nat) (f : Station → Station) : (modStation i f s).slots = s.slots :=
  by unfold modStation putEntry; (repeat' split) <;> rfl
@[simp] theorem modStation_handover (i : Nat) (f : Station → Station) : (modStation i f s).handover = s.handover :=
  by unfold modStation putEntry; (repeat' split) <;> rfl
@[simp] theorem modStation_unknownLog (i : Nat) (f : Station → Station) : (modStation i f s).unknownLog = s.unknownLog :=
  by unfold modStation putEntry; (repeat' split) <;> rfl
@[simp] theorem modStation_jobs (i : Nat) (f : Station → Station) : (modStation i f s).jobs = s.jobs :=
  by unfold modStation putEntry; (repeat' split) <;> rfl
@[simp] theorem modStation_nextOrder (i : Nat) (f : Station → Station) : (modStation i f s).nextOrder = s.nextOrder :=
  by unfold modStation putEntry; (repeat' split) <;> rfl
@[simp] theorem modStation_lines (i : Nat) (f : Station → Station) : (modStation i f s).lines = s.lines :=
  by unfold modStation putEntry; (repeat' split) <;> rfl
@[simp] theorem modStation_window (i : Nat) (f : Station → Station) : (modStation i f s).window = s.window :=
  by unfold modStation putEntry; (repeat' split) <;> rfl
@[simp] theorem modStation_segWin (i : Nat) (f : Station → Station) : (modStation i f s).segWin = s.segWin :=
  by unfold modStation putEntry; (repeat' split) <;> rfl
@[simp] theorem modStation_linkWin (i : Nat) (f : Station → Station) : (modStation i f s).linkWin = s.linkWin :=
  by unfold modStation putEntry; (repeat' split) <;> rfl
@[simp] theorem modStation_marks (i : Nat) (f : Station → Station) : (modStation i f s).marks = s.marks :=
  by unfold modStation putEntry; (repeat' split) <;> rfl
@[simp] theorem modStation_service (i : Nat) (f : Station → Station) : (modStation i f s).service = s.service :=
  by unfold modStation putEntry; (repeat' split) <;> rfl
@[simp] theorem modStation_sweep (i : Nat) (f : Station → Station) : (modStation i f s).sweep = s.sweep :=
  by unfold modStation putEntry; (repeat' split) <;> rfl
@[simp] theorem modStation_requests (i : Nat) (f : Station → Station) : (modStation i f s).requests = s.requests :=
  by unfold modStation putEntry; (repeat' split) <;> rfl
@[simp] theorem modStation_current (i : Nat) (f : Station → Station) : (modStation i f s).current = s.current :=
  by unfold modStation putEntry; (repeat' split) <;> rfl
@[simp] theorem modStation_save (i : Nat) (f : Station → Station) : (modStation i f s).save = s.save :=
  by unfold modStation putEntry; (repeat' split) <;> rfl
@[simp] theorem modStation_heldReply (i : Nat) (f : Station → Station) : (modStation i f s).heldReply = s.heldReply :=
  by unfold modStation putEntry; (repeat' split) <;> rfl
@[simp] theorem modStation_config (i : Nat) (f : Station → Station) : (modStation i f s).config = s.config :=
  by unfold modStation putEntry; (repeat' split) <;> rfl
@[simp] theorem modStation_flags (i : Nat) (f : Station → Station) : (modStation i f s).flags = s.flags :=
  by unfold modStation putEntry; (repeat' split) <;> rfl
@[simp] theorem modStation_mask (i : Nat) (f : Station → Station) : (modStation i f s).mask = s.mask :=
  by unfold modStation putEntry; (repeat' split) <;> rfl
@[simp] theorem modStation_noticeOut (i : Nat) (f : Station → Station) : (modStation i f s).noticeOut = s.noticeOut :=
  by unfold modStation putEntry; (repeat' split) <;> rfl
@[simp] theorem modStation_loading (i : Nat) (f : Station → Station) : (modStation i f s).loading = s.loading :=
  by unfold modStation putEntry; (repeat' split) <;> rfl
@[simp] theorem modStation_counters (i : Nat) (f : Station → Station) : (modStation i f s).counters = s.counters :=
  by unfold modStation putEntry; (repeat' split) <;> rfl

/-! ### modJob -/

@[simp] theorem modJob_pending (k : Nat) (f : Job → Job) : (modJob k f s).pending = s.pending :=
  by unfold modJob; split <;> rfl
@[simp] theorem modJob_powered (k : Nat) (f : Job → Job) : (modJob k f s).powered = s.powered :=
  by unfold modJob; split <;> rfl
@[simp] theorem modJob_resetLow (k : Nat) (f : Job → Job) : (modJob k f s).resetLow = s.resetLow :=
  by unfold modJob; split <;> rfl
@[simp] theorem modJob_commission (k : Nat) (f : Job → Job) : (modJob k f s).commission = s.commission :=
  by unfold modJob; split <;> rfl
@[simp] theorem modJob_time (k : Nat) (f : Job → Job) : (modJob k f s).time = s.time :=
  by unfold modJob; split <;> rfl
@[simp] theorem modJob_choices (k : Nat) (f : Job → Job) : (modJob k f s).choices = s.choices :=
  by unfold modJob; split <;> rfl
@[simp] theorem modJob_serial (k : Nat) (f : Job → Job) : (modJob k f s).serial = s.serial :=
  by unfold modJob; split <;> rfl
@[simp] theorem modJob_segs (k : Nat) (f : Job → Job) : (modJob k f s).segs = s.segs :=
  by unfold modJob; split <;> rfl
@[simp] theorem modJob_links (k : Nat) (f : Job → Job) : (modJob k f s).links = s.links :=
  by unfold modJob; split <;> rfl
@[simp] theorem modJob_ifaces (k : Nat) (f : Job → Job) : (modJob k f s).ifaces = s.ifaces :=
  by unfold modJob; split <;> rfl
@[simp] theorem modJob_pool (k : Nat) (f : Job → Job) : (modJob k f s).pool = s.pool :=
  by unfold modJob; split <;> rfl
@[simp] theorem modJob_records (k : Nat) (f : Job → Job) : (modJob k f s).records = s.records :=
  by unfold modJob; split <;> rfl
@[simp] theorem modJob_nextRecord (k : Nat) (f : Job → Job) : (modJob k f s).nextRecord = s.nextRecord :=
  by unfold modJob; split <;> rfl
@[simp] theorem modJob_queues (k : Nat) (f : Job → Job) : (modJob k f s).queues = s.queues :=
  by unfold modJob; split <;> rfl
@[simp] theorem modJob_slots (k : Nat) (f : Job → Job) : (modJob k f s).slots = s.slots :=
  by unfold modJob; split <;> rfl
@[simp] theorem modJob_dir (k : Nat) (f : Job → Job) : (modJob k f s).dir = s.dir :=
  by unfold modJob; split <;> rfl
@[simp] theorem modJob_handover (k : Nat) (f : Job → Job) : (modJob k f s).handover = s.handover :=
  by unfold modJob; split <;> rfl
@[simp] theorem modJob_unknownLog (k : Nat) (f : Job → Job) : (modJob k f s).unknownLog = s.unknownLog :=
  by unfold modJob; split <;> rfl
@[simp] theorem modJob_nextOrder (k : Nat) (f : Job → Job) : (modJob k f s).nextOrder = s.nextOrder :=
  by unfold modJob; split <;> rfl
@[simp] theorem modJob_lines (k : Nat) (f : Job → Job) : (modJob k f s).lines = s.lines :=
  by unfold modJob; split <;> rfl
@[simp] theorem modJob_window (k : Nat) (f : Job → Job) : (modJob k f s).window = s.window :=
  by unfold modJob; split <;> rfl
@[simp] theorem modJob_segWin (k : Nat) (f : Job → Job) : (modJob k f s).segWin = s.segWin :=
  by unfold modJob; split <;> rfl
@[simp] theorem modJob_linkWin (k : Nat) (f : Job → Job) : (modJob k f s).linkWin = s.linkWin :=
  by unfold modJob; split <;> rfl
@[simp] theorem modJob_marks (k : Nat) (f : Job → Job) : (modJob k f s).marks = s.marks :=
  by unfold modJob; split <;> rfl
@[simp] theorem modJob_service (k : Nat) (f : Job → Job) : (modJob k f s).service = s.service :=
  by unfold modJob; split <;> rfl
@[simp] theorem modJob_sweep (k : Nat) (f : Job → Job) : (modJob k f s).sweep = s.sweep :=
  by unfold modJob; split <;> rfl
@[simp] theorem modJob_requests (k : Nat) (f : Job → Job) : (modJob k f s).requests = s.requests :=
  by unfold modJob; split <;> rfl
@[simp] theorem modJob_current (k : Nat) (f : Job → Job) : (modJob k f s).current = s.current :=
  by unfold modJob; split <;> rfl
@[simp] theorem modJob_save (k : Nat) (f : Job → Job) : (modJob k f s).save = s.save :=
  by unfold modJob; split <;> rfl
@[simp] theorem modJob_heldReply (k : Nat) (f : Job → Job) : (modJob k f s).heldReply = s.heldReply :=
  by unfold modJob; split <;> rfl
@[simp] theorem modJob_config (k : Nat) (f : Job → Job) : (modJob k f s).config = s.config :=
  by unfold modJob; split <;> rfl
@[simp] theorem modJob_flags (k : Nat) (f : Job → Job) : (modJob k f s).flags = s.flags :=
  by unfold modJob; split <;> rfl
@[simp] theorem modJob_mask (k : Nat) (f : Job → Job) : (modJob k f s).mask = s.mask :=
  by unfold modJob; split <;> rfl
@[simp] theorem modJob_noticeOut (k : Nat) (f : Job → Job) : (modJob k f s).noticeOut = s.noticeOut :=
  by unfold modJob; split <;> rfl
@[simp] theorem modJob_loading (k : Nat) (f : Job → Job) : (modJob k f s).loading = s.loading :=
  by unfold modJob; split <;> rfl
@[simp] theorem modJob_counters (k : Nat) (f : Job → Job) : (modJob k f s).counters = s.counters :=
  by unfold modJob; split <;> rfl

/-! ### addRef -/

@[simp] theorem addRef_pending (r : Nat) : (addRef r s).pending = s.pending :=
  by unfold addRef; split <;> rfl
@[simp] theorem addRef_powered (r : Nat) : (addRef r s).powered = s.powered :=
  by unfold addRef; split <;> rfl
@[simp] theorem addRef_resetLow (r : Nat) : (addRef r s).resetLow = s.resetLow :=
  by unfold addRef; split <;> rfl
@[simp] theorem addRef_commission (r : Nat) : (addRef r s).commission = s.commission :=
  by unfold addRef; split <;> rfl
@[simp] theorem addRef_time (r : Nat) : (addRef r s).time = s.time :=
  by unfold addRef; split <;> rfl
@[simp] theorem addRef_choices (r : Nat) : (addRef r s).choices = s.choices :=
  by unfold addRef; split <;> rfl
@[simp] theorem addRef_serial (r : Nat) : (addRef r s).serial = s.serial :=
  by unfold addRef; split <;> rfl
@[simp] theorem addRef_segs (r : Nat) : (addRef r s).segs = s.segs :=
  by unfold addRef; split <;> rfl
@[simp] theorem addRef_links (r : Nat) : (addRef r s).links = s.links :=
  by unfold addRef; split <;> rfl
@[simp] theorem addRef_ifaces (r : Nat) : (addRef r s).ifaces = s.ifaces :=
  by unfold addRef; split <;> rfl
@[simp] theorem addRef_pool (r : Nat) : (addRef r s).pool = s.pool :=
  by unfold addRef; split <;> rfl
@[simp] theorem addRef_nextRecord (r : Nat) : (addRef r s).nextRecord = s.nextRecord :=
  by unfold addRef; split <;> rfl
@[simp] theorem addRef_queues (r : Nat) : (addRef r s).queues = s.queues :=
  by unfold addRef; split <;> rfl
@[simp] theorem addRef_slots (r : Nat) : (addRef r s).slots = s.slots :=
  by unfold addRef; split <;> rfl
@[simp] theorem addRef_dir (r : Nat) : (addRef r s).dir = s.dir := by unfold addRef; split <;> rfl
@[simp] theorem addRef_handover (r : Nat) : (addRef r s).handover = s.handover :=
  by unfold addRef; split <;> rfl
@[simp] theorem addRef_unknownLog (r : Nat) : (addRef r s).unknownLog = s.unknownLog :=
  by unfold addRef; split <;> rfl
@[simp] theorem addRef_jobs (r : Nat) : (addRef r s).jobs = s.jobs :=
  by unfold addRef; split <;> rfl
@[simp] theorem addRef_nextOrder (r : Nat) : (addRef r s).nextOrder = s.nextOrder :=
  by unfold addRef; split <;> rfl
@[simp] theorem addRef_lines (r : Nat) : (addRef r s).lines = s.lines :=
  by unfold addRef; split <;> rfl
@[simp] theorem addRef_window (r : Nat) : (addRef r s).window = s.window :=
  by unfold addRef; split <;> rfl
@[simp] theorem addRef_segWin (r : Nat) : (addRef r s).segWin = s.segWin :=
  by unfold addRef; split <;> rfl
@[simp] theorem addRef_linkWin (r : Nat) : (addRef r s).linkWin = s.linkWin :=
  by unfold addRef; split <;> rfl
@[simp] theorem addRef_marks (r : Nat) : (addRef r s).marks = s.marks :=
  by unfold addRef; split <;> rfl
@[simp] theorem addRef_service (r : Nat) : (addRef r s).service = s.service :=
  by unfold addRef; split <;> rfl
@[simp] theorem addRef_sweep (r : Nat) : (addRef r s).sweep = s.sweep :=
  by unfold addRef; split <;> rfl
@[simp] theorem addRef_requests (r : Nat) : (addRef r s).requests = s.requests :=
  by unfold addRef; split <;> rfl
@[simp] theorem addRef_current (r : Nat) : (addRef r s).current = s.current :=
  by unfold addRef; split <;> rfl
@[simp] theorem addRef_save (r : Nat) : (addRef r s).save = s.save :=
  by unfold addRef; split <;> rfl
@[simp] theorem addRef_heldReply (r : Nat) : (addRef r s).heldReply = s.heldReply :=
  by unfold addRef; split <;> rfl
@[simp] theorem addRef_config (r : Nat) : (addRef r s).config = s.config :=
  by unfold addRef; split <;> rfl
@[simp] theorem addRef_flags (r : Nat) : (addRef r s).flags = s.flags :=
  by unfold addRef; split <;> rfl
@[simp] theorem addRef_mask (r : Nat) : (addRef r s).mask = s.mask :=
  by unfold addRef; split <;> rfl
@[simp] theorem addRef_noticeOut (r : Nat) : (addRef r s).noticeOut = s.noticeOut :=
  by unfold addRef; split <;> rfl
@[simp] theorem addRef_loading (r : Nat) : (addRef r s).loading = s.loading :=
  by unfold addRef; split <;> rfl
@[simp] theorem addRef_counters (r : Nat) : (addRef r s).counters = s.counters :=
  by unfold addRef; split <;> rfl

/-! ### releaseRef -/

@[simp] theorem releaseRef_pending (r : Nat) : (releaseRef r s).pending = s.pending :=
  by unfold releaseRef; (repeat' split) <;> rfl
@[simp] theorem releaseRef_powered (r : Nat) : (releaseRef r s).powered = s.powered :=
  by unfold releaseRef; (repeat' split) <;> rfl
@[simp] theorem releaseRef_resetLow (r : Nat) : (releaseRef r s).resetLow = s.resetLow :=
  by unfold releaseRef; (repeat' split) <;> rfl
@[simp] theorem releaseRef_commission (r : Nat) : (releaseRef r s).commission = s.commission :=
  by unfold releaseRef; (repeat' split) <;> rfl
@[simp] theorem releaseRef_time (r : Nat) : (releaseRef r s).time = s.time :=
  by unfold releaseRef; (repeat' split) <;> rfl
@[simp] theorem releaseRef_choices (r : Nat) : (releaseRef r s).choices = s.choices :=
  by unfold releaseRef; (repeat' split) <;> rfl
@[simp] theorem releaseRef_serial (r : Nat) : (releaseRef r s).serial = s.serial :=
  by unfold releaseRef; (repeat' split) <;> rfl
@[simp] theorem releaseRef_segs (r : Nat) : (releaseRef r s).segs = s.segs :=
  by unfold releaseRef; (repeat' split) <;> rfl
@[simp] theorem releaseRef_links (r : Nat) : (releaseRef r s).links = s.links :=
  by unfold releaseRef; (repeat' split) <;> rfl
@[simp] theorem releaseRef_ifaces (r : Nat) : (releaseRef r s).ifaces = s.ifaces :=
  by unfold releaseRef; (repeat' split) <;> rfl
@[simp] theorem releaseRef_nextRecord (r : Nat) : (releaseRef r s).nextRecord = s.nextRecord :=
  by unfold releaseRef; (repeat' split) <;> rfl
@[simp] theorem releaseRef_queues (r : Nat) : (releaseRef r s).queues = s.queues :=
  by unfold releaseRef; (repeat' split) <;> rfl
@[simp] theorem releaseRef_slots (r : Nat) : (releaseRef r s).slots = s.slots :=
  by unfold releaseRef; (repeat' split) <;> rfl
@[simp] theorem releaseRef_dir (r : Nat) : (releaseRef r s).dir = s.dir :=
  by unfold releaseRef; (repeat' split) <;> rfl
@[simp] theorem releaseRef_handover (r : Nat) : (releaseRef r s).handover = s.handover :=
  by unfold releaseRef; (repeat' split) <;> rfl
@[simp] theorem releaseRef_unknownLog (r : Nat) : (releaseRef r s).unknownLog = s.unknownLog :=
  by unfold releaseRef; (repeat' split) <;> rfl
@[simp] theorem releaseRef_jobs (r : Nat) : (releaseRef r s).jobs = s.jobs :=
  by unfold releaseRef; (repeat' split) <;> rfl
@[simp] theorem releaseRef_nextOrder (r : Nat) : (releaseRef r s).nextOrder = s.nextOrder :=
  by unfold releaseRef; (repeat' split) <;> rfl
@[simp] theorem releaseRef_lines (r : Nat) : (releaseRef r s).lines = s.lines :=
  by unfold releaseRef; (repeat' split) <;> rfl
@[simp] theorem releaseRef_window (r : Nat) : (releaseRef r s).window = s.window :=
  by unfold releaseRef; (repeat' split) <;> rfl
@[simp] theorem releaseRef_segWin (r : Nat) : (releaseRef r s).segWin = s.segWin :=
  by unfold releaseRef; (repeat' split) <;> rfl
@[simp] theorem releaseRef_linkWin (r : Nat) : (releaseRef r s).linkWin = s.linkWin :=
  by unfold releaseRef; (repeat' split) <;> rfl
@[simp] theorem releaseRef_marks (r : Nat) : (releaseRef r s).marks = s.marks :=
  by unfold releaseRef; (repeat' split) <;> rfl
@[simp] theorem releaseRef_service (r : Nat) : (releaseRef r s).service = s.service :=
  by unfold releaseRef; (repeat' split) <;> rfl
@[simp] theorem releaseRef_sweep (r : Nat) : (releaseRef r s).sweep = s.sweep :=
  by unfold releaseRef; (repeat' split) <;> rfl
@[simp] theorem releaseRef_requests (r : Nat) : (releaseRef r s).requests = s.requests :=
  by unfold releaseRef; (repeat' split) <;> rfl
@[simp] theorem releaseRef_current (r : Nat) : (releaseRef r s).current = s.current :=
  by unfold releaseRef; (repeat' split) <;> rfl
@[simp] theorem releaseRef_save (r : Nat) : (releaseRef r s).save = s.save :=
  by unfold releaseRef; (repeat' split) <;> rfl
@[simp] theorem releaseRef_heldReply (r : Nat) : (releaseRef r s).heldReply = s.heldReply :=
  by unfold releaseRef; (repeat' split) <;> rfl
@[simp] theorem releaseRef_config (r : Nat) : (releaseRef r s).config = s.config :=
  by unfold releaseRef; (repeat' split) <;> rfl
@[simp] theorem releaseRef_flags (r : Nat) : (releaseRef r s).flags = s.flags :=
  by unfold releaseRef; (repeat' split) <;> rfl
@[simp] theorem releaseRef_mask (r : Nat) : (releaseRef r s).mask = s.mask :=
  by unfold releaseRef; (repeat' split) <;> rfl
@[simp] theorem releaseRef_noticeOut (r : Nat) : (releaseRef r s).noticeOut = s.noticeOut :=
  by unfold releaseRef; (repeat' split) <;> rfl
@[simp] theorem releaseRef_loading (r : Nat) : (releaseRef r s).loading = s.loading :=
  by unfold releaseRef; (repeat' split) <;> rfl
@[simp] theorem releaseRef_counters (r : Nat) : (releaseRef r s).counters = s.counters :=
  by unfold releaseRef; (repeat' split) <;> rfl

end Sys2Proof.Machine
end

