-- ==== Sys2Proof/Laws/Families.lean ====
section
/-! SUPPORT. Reading a family after a write. -/

namespace Sys2Proof.Machine

variable {α : Type}

@[simp] theorem PerSeg.get_set (f : PerSeg α) (x y : Seg) (v : α) :
    (f.set x v).get y = if x = y then v else f.get y := by
  cases x <;> cases y <;> rfl

@[simp] theorem PerLink.get_set (f : PerLink α) (x y : Link) (v : α) :
    (f.set x v).get y = if x = y then v else f.get y := by
  cases x <;> cases y <;> rfl

@[simp] theorem PerIface.get_set (f : PerIface α) (x y : Iface) (v : α) :
    (f.set x v).get y = if x = y then v else f.get y := by
  cases x <;> cases y <;> rfl

@[simp] theorem PerLine.get_set (f : PerLine α) (x y : Line) (v : α) :
    (f.set x v).get y = if x = y then v else f.get y := by
  cases x <;> cases y <;> rfl

@[simp] theorem PerPort.get_set (f : PerPort α) (p q : Port) (v : α) :
    (f.set p v).get q = if p = q then v else f.get q := by
  cases p <;> cases q <;> simp [PerPort.set, PerPort.get]

@[simp] theorem PerPort.get_map {β : Type} (g : α → β) (f : PerPort α) (p : Port) :
    (f.map g).get p = g (f.get p) := by
  rcases p with x | l
  · cases x <;> rfl
  · cases l <;> rfl

@[simp] theorem PerSeg.get_fill (v : α) (x : Seg) : (PerSeg.fill v).get x = v := by cases x <;> rfl

@[simp] theorem PerLink.get_fill (v : α) (l : Link) : (PerLink.fill v).get l = v := by cases l <;> rfl

@[simp] theorem PerPort.get_fill (v : α) (p : Port) : (PerPort.fill v).get p = v := by
  cases p <;> simp [PerPort.fill, PerPort.get]

@[simp] theorem PerSeg.set_set (f : PerSeg α) (x : Seg) (v w : α) :
    (f.set x v).set x w = f.set x w := by
  cases x <;> rfl

@[simp] theorem PerLink.set_set (f : PerLink α) (x : Link) (v w : α) :
    (f.set x v).set x w = f.set x w := by
  cases x <;> rfl

@[simp] theorem PerIface.set_set (f : PerIface α) (x : Iface) (v w : α) :
    (f.set x v).set x w = f.set x w := by
  cases x <;> rfl

@[simp] theorem PerLine.set_set (f : PerLine α) (x : Line) (v w : α) :
    (f.set x v).set x w = f.set x w := by
  cases x <;> rfl

@[simp] theorem PerPort.set_set (f : PerPort α) (p : Port) (v w : α) :
    (f.set p v).set p w = f.set p w := by
  cases p <;> simp [PerPort.set]

end Sys2Proof.Machine
end

