-- ==== Sys2Proof/Laws/Serial.lean ====
section
/-! SUPPORT. The serial memory: every write keeps the canonical form, and what a read finds after a
write. -/

namespace Sys2Proof.Machine

/-- Every address listed lies between two bounds and addresses rise: the form of `Memory.wf`, as a
statement about all cells. -/
theorem Memory.wf_iff (m : List Host.Cell) :
    Memory.wf m = true ↔ m.Pairwise (fun a b => a.1 < b.1) ∧
      ∀ c ∈ m, c.1 < Config.serialBytes ∧ c.2 ≠ Config.serialBlank := by
  induction m with
  | nil => simp [Memory.wf]
  | cons c m ih =>
    obtain ⟨a, b⟩ := c
    cases m with
    | nil => simp [Memory.wf]
    | cons d m =>
      obtain ⟨a', b'⟩ := d
      simp only [Memory.wf, Bool.and_eq_true, decide_eq_true_eq, ih]
      simp only [List.pairwise_cons, List.mem_cons, forall_eq_or_imp]
      constructor
      · rintro ⟨⟨h1, h2⟩, ⟨h3, h4⟩, h5, h6⟩
        refine ⟨⟨⟨h1, fun e he => lt_trans h1 (h3 e he)⟩, h3, h4⟩, ⟨by omega, h2⟩, h5, h6⟩
      · rintro ⟨⟨⟨h1, h2⟩, h3, h4⟩, ⟨h5, h6⟩, h7, h8⟩
        exact ⟨⟨h1, h6⟩, ⟨h3, h4⟩, h7, h8⟩

theorem Memory.mem_ofBytes : ∀ {bs : List Byte} {a : Nat} {c : Host.Cell},
    c ∈ Memory.ofBytes a bs → a ≤ c.1 ∧ c.1 < a + bs.length ∧ c.1 < Config.serialBytes ∧
      c.2 ≠ Config.serialBlank
  | [], _, _, h => by simp [Memory.ofBytes] at h
  | b :: bs, a, c, h => by
    unfold Memory.ofBytes at h
    simp only [List.length_cons]
    split at h
    · rename_i hc
      rcases List.mem_cons.1 h with rfl | h
      · exact ⟨le_refl _, by dsimp only; omega, hc⟩
      · have := Memory.mem_ofBytes h
        exact ⟨by omega, by omega, this.2.2⟩
    · have := Memory.mem_ofBytes h
      exact ⟨by omega, by omega, this.2.2⟩

theorem Memory.pairwise_ofBytes : ∀ (bs : List Byte) (a : Nat),
    (Memory.ofBytes a bs).Pairwise fun c d => c.1 < d.1
  | [], _ => by simp [Memory.ofBytes]
  | b :: bs, a => by
    unfold Memory.ofBytes
    split
    · rw [List.pairwise_cons]
      refine ⟨fun c hc => ?_, Memory.pairwise_ofBytes bs (a + 1)⟩
      have := Memory.mem_ofBytes hc
      dsimp only; omega
    · exact Memory.pairwise_ofBytes bs (a + 1)

/-- A list of bytes laid from address 0 over a memory keeps the canonical form. -/
theorem Memory.overwrite_wf {m : List Host.Cell} (h : Memory.wf m = true) (bs : List Byte) :
    Memory.wf (Memory.overwrite m bs) = true := by
  rw [Memory.wf_iff] at h ⊢
  unfold Memory.overwrite
  refine ⟨List.pairwise_append.2 ⟨Memory.pairwise_ofBytes _ _, h.1.filter _, ?_⟩, ?_⟩
  · intro c hc d hd
    have h1 := Memory.mem_ofBytes hc
    have h2 := (List.mem_filter.1 hd).2
    simp only [decide_eq_true_eq] at h2
    omega
  · intro c hc
    rcases List.mem_append.1 hc with hc | hc
    · exact (Memory.mem_ofBytes hc).2.2
    · exact h.2 c (List.mem_filter.1 hc).1

/-- A whole image written keeps the canonical form. -/
theorem written_wf {m : Serial} (h : m.wf = true) (bs : List Byte) : (m.written bs).wf = true := by
  cases m with
  | bytes m => exact Memory.overwrite_wf h bs
  | failedSave => exact Memory.overwrite_wf (m := []) rfl bs

theorem Memory.read_of_notMem {a : Nat} : ∀ {m : List Host.Cell}, (∀ c ∈ m, c.1 ≠ a) →
    Memory.read m a = Config.serialBlank
  | [], _ => rfl
  | (i, b) :: m, h => by
    simp only [Memory.read]
    rw [if_neg (h (i, b) (by simp))]
    exact Memory.read_of_notMem fun c hc => h c (List.mem_cons_of_mem _ hc)

theorem Memory.read_append {m n : List Host.Cell} {a : Nat} (h : ∀ c ∈ n, c.1 ≠ a) :
    Memory.read (m ++ n) a = Memory.read m a := by
  induction m with
  | nil => exact Memory.read_of_notMem h
  | cons c m ih =>
    obtain ⟨i, b⟩ := c
    simp only [List.cons_append, Memory.read, ih]

/-- A byte inside the bytes written reads as it was written. -/
theorem Memory.read_ofBytes : ∀ {bs : List Byte} {a i : Nat}, a ≤ i → i < a + bs.length →
    i < Config.serialBytes → Memory.read (Memory.ofBytes a bs) i = bs.getD (i - a) 0
  | [], a, i, h1, h2, _ => by simp at h2; omega
  | b :: bs, a, i, h1, h2, h3 => by
    simp only [List.length_cons] at h2
    unfold Memory.ofBytes
    by_cases hi : i = a
    · subst hi
      split
      · simp [Memory.read]
      · rename_i hc
        have hb : b = Config.serialBlank := by
          by_contra hb; exact hc ⟨h3, hb⟩
        rw [Memory.read_of_notMem]
        · simp [hb]
        · intro c hc
          have := Memory.mem_ofBytes hc
          omega
    · have ih := Memory.read_ofBytes (bs := bs) (a := a + 1) (i := i) (by omega) (by omega) h3
      have hs : i - a = (i - (a + 1)) + 1 := by omega
      have hr : (b :: bs).getD (i - a) 0 = bs.getD (i - (a + 1)) 0 := by rw [hs]; rfl
      split
      · simp only [Memory.read]
        rw [if_neg (by omega), ih, hr]
      · rw [ih, hr]

/-- The bytes of an image that lies inside the memory read back. -/
theorem Memory.slice_overwrite (m : List Host.Cell) (bs : List Byte)
    (h : bs.length ≤ Config.serialBytes) : Memory.slice (Memory.overwrite m bs) 0 bs.length = bs := by
  unfold Memory.slice
  refine List.ext_getElem (by simp) fun n h1 h2 => ?_
  simp only [List.length_map, List.length_range] at h1
  simp only [List.getElem_map, List.getElem_range, Nat.zero_add]
  unfold Memory.overwrite
  rw [Memory.read_append, Memory.read_ofBytes (by omega) (by omega) (by omega)]
  · simp [List.getD_eq_getElem?_getD, h2]
  · intro c hc
    have := (List.mem_filter.1 hc).2
    simp only [decide_eq_true_eq] at this
    omega

end Sys2Proof.Machine
end

