-- ==== Sys2Proof/Laws/Settings.lean ====
section
/-! SUPPORT. The configuration parameters: what a write sets, and that every way to set them keeps them in
their ranges (R189). -/

namespace Sys2Proof.Machine

theorem Settings.param_put (c : Settings) {code v : Nat} (h : paramInRange code v = true)
    (h9 : code ≠ 9) (k : Nat) : (c.put code v).param k = if k = code then v else c.param k := by
  unfold Settings.put
  split
  case h_21 =>
    unfold paramInRange at h
    split at h <;> simp_all
  case h_2 =>
    have hv : v = 0 ∨ v = 1 := by simp [paramInRange, within] at h; omega
    rcases hv with rfl | rfl <;> (unfold Settings.param; split <;> simp_all)
  all_goals
    unfold Settings.param
    split <;> first | rfl | simp_all

theorem Settings.quota_put (c : Settings) (code v : Nat) : (c.put code v).quota = c.quota := by
  unfold Settings.put; split <;> rfl

theorem Settings.notice_put (c : Settings) (code v : Nat) : (c.put code v).notice = c.notice := by
  unfold Settings.put; split <;> rfl

theorem Settings.put_ok {c : Settings} (hc : c.ok) {code v : Nat} (h : paramInRange code v = true)
    (h9 : code ≠ 9) : (c.put code v).ok := by
  refine ⟨fun k hk hk9 => ?_, ?_, ?_⟩
  · rw [Settings.param_put c h h9]
    split
    · subst_vars; exact h
    · exact hc.1 k hk hk9
  · rw [Settings.quota_put]; exact hc.2.1
  · rw [Settings.notice_put]; exact hc.2.2

theorem Settings.param_quota (c : Settings) (q : PerPort Nat) (k : Nat) :
    ({ c with quota := q } : Settings).param k = c.param k := by
  unfold Settings.param; split <;> rfl

theorem Settings.param_notice (c : Settings) (n : Option Key) (k : Nat) :
    ({ c with notice := n } : Settings).param k = c.param k := by
  unfold Settings.param; split <;> rfl

theorem Settings.quota_ok {c : Settings} (hc : c.ok) {v : Nat} (h : paramInRange 9 v = true)
    (p : Port) : ({ c with quota := c.quota.set p v } : Settings).ok := by
  refine ⟨fun k hk hk9 => ?_, fun q => ?_, hc.2.2⟩
  · rw [Settings.param_quota]; exact hc.1 k hk hk9
  · have : ((c.quota.set p v).get q) = if p = q then v else c.quota.get q := by
      cases p <;> cases q <;> rename_i x y <;> cases x <;> cases y <;> rfl
    dsimp only
    rw [this]
    split
    · exact h
    · exact hc.2.1 q

theorem noticeOf_station {b : Byte} {v : Nat} {k : Key} (h : noticeOf b v = some (some k)) :
    k.isStation = true := by
  unfold noticeOf at h
  repeat' split at h
  all_goals try cases h
  all_goals
    rename_i hw
    simp only [within, Bool.and_eq_true, decide_eq_true_eq] at hw
    simp only [Key.isStation, Side.key, Key.class, BitVec.toNat_ofNat, decide_eq_true_eq]
    grind

theorem Settings.notice_ok {c : Settings} (hc : c.ok) {b : Byte} {v : Nat} {n : Option Key}
    (h : noticeOf b v = some n) : ({ c with notice := n } : Settings).ok := by
  refine ⟨fun k hk hk9 => ?_, hc.2.1, fun k hk => ?_⟩
  · rw [Settings.param_notice]; exact hc.1 k hk hk9
  · dsimp only at hk
    subst hk
    exact noticeOf_station h

theorem Settings.default_ok : Settings.default.ok := by
  refine ⟨fun k hk hk9 => ?_, fun p => ?_, by simp [Settings.default]⟩
  · simp only [within, Bool.and_eq_true, decide_eq_true_eq] at hk
    obtain ⟨h1, h2⟩ := hk
    interval_cases k <;> first | rfl | contradiction
  · have : Settings.default.quota.get p = 256 := by
      cases p <;> rename_i x <;> cases x <;> rfl
    rw [this]; rfl

theorem loadParams_ok (bs : List Byte) : ∀ (l : List (Nat × Nat)) (c : Loaded Settings),
    (∀ e ∈ l, e.1 ≠ 9) → c.1.ok → (loadParams bs l c).1.ok
  | [], _, _, h => h
  | (code, o) :: l, (c, bad), hl, h => by
    unfold loadParams
    refine loadParams_ok bs l _ (fun e he => hl e (List.mem_cons_of_mem _ he)) ?_
    split
    · exact Settings.put_ok h (by assumption) (hl (code, o) (by simp))
    · exact h

theorem loadQuotas_ok (bs : List Byte) : ∀ (l : List (Port × Nat)) (c : Loaded Settings),
    c.1.ok → (loadQuotas bs l c).1.ok
  | [], _, h => h
  | (p, o) :: l, (c, bad), h => by
    unfold loadQuotas
    refine loadQuotas_ok bs l _ ?_
    split
    · exact Settings.quota_ok h (by assumption) p
    · exact h

theorem loadConfig_ok (bs : List Byte) : (loadConfig bs).1.ok := by
  unfold loadConfig
  have h0 : ((Settings.default, false) : Loaded Settings).1.ok := Settings.default_ok
  have h1 := loadQuotas_ok bs
    [(.seg .a, 16), (.seg .b, 18), (.link .l0, 20), (.link .l1, 22), (.link .l2, 24), (.link .l3, 26)] _
    (loadParams_ok bs ([1, 2, 3, 4, 5, 6, 7, 8].map fun k => (k, 2 * (k - 1))) _ (by simp) h0)
  have h2 := loadParams_ok bs
    ([10, 11, 12, 13, 14, 15, 16, 17, 18, 19, 20, 21].map fun k => (k, 28 + 2 * (k - 10))) _ (by simp) h1
  dsimp only
  split
  · rename_i hn
    exact Settings.notice_ok h2 hn
  · exact h2

theorem Settings.give_ok {c : Settings} (hc : c.ok) {s : State} {g : SettingGiven}
    (h : s.settingOk g = true) : (c.give g).ok := by
  unfold State.settingOk at h
  unfold Settings.give
  split
  · rename_i h22
    rw [if_pos h22] at h
    obtain ⟨n, hn⟩ := Option.isSome_iff_exists.1 h
    rw [hn]
    exact Settings.notice_ok hc hn
  · rename_i h22
    rw [if_neg h22] at h
    split
    · rename_i h9
      rw [if_pos h9] at h
      simp only [Bool.and_eq_true] at h
      split
      · exact Settings.quota_ok hc h.2 _
      · exact hc
    · rename_i h9
      rw [if_neg h9] at h
      refine Settings.put_ok hc ?_ h9
      split at h
      · rename_i h5
        simp only [Bool.and_eq_true] at h
        rw [h5]; exact h.1
      · exact h

theorem firstFailing_none {α : Type} {ok : α → Bool} : ∀ {k : Nat} {l : List α},
    firstFailing ok k l = none → ∀ a ∈ l, ok a = true
  | _, [], _, _, ha => by cases ha
  | k, a :: l, h, b, hb => by
    unfold firstFailing at h
    split at h
    · rcases List.mem_cons.1 hb with rfl | hb
      · assumption
      · exact firstFailing_none h b hb
    · cases h

theorem Settings.foldl_give_ok {s : State} : ∀ {gs : List SettingGiven} {c : Settings}, c.ok →
    (∀ g ∈ gs, s.settingOk g = true) → (gs.foldl Settings.give c).ok
  | [], _, hc, _ => hc
  | g :: gs, c, hc, h => by
    rw [List.foldl_cons]
    exact Settings.foldl_give_ok (Settings.give_ok hc (h g (by simp)))
      (fun x hx => h x (List.mem_cons_of_mem _ hx))

theorem loadSteps_length (bs : List Byte) (n : Nat) : (loadSteps bs n).1.length ≤ n := by
  unfold loadSteps
  refine le_trans (List.length_filterMap_le _ _) ?_
  simp

/-- The steps an image gives fit the sweep list. -/
theorem loadParts_steps (bs : List Byte) : (loadParts bs).1.steps.length ≤ Config.sweepSteps := by
  have h : (loadParts bs).1.steps = (if (byteAt bs 0x51).toNat ≤ 32 then
      loadSteps (bs.drop 0x54) (byteAt bs 0x51).toNat else ([], true)).1 := rfl
  rw [h]
  split
  · exact le_trans (loadSteps_length _ _) (by simpa [Config.sweepSteps])
  · simp

theorem loadParts_config (bs : List Byte) :
    (loadParts bs).1.config = (loadConfig ((bs.drop 0x04).take 64)).1 := rfl

end Sys2Proof.Machine
end

