-- ==== Sys2Proof/Laws/Tables.lean ====
section
/-! SUPPORT. Reading a table after a write, and what a write keeps. -/

namespace Sys2Proof.Machine

variable {κ α : Type} [DecidableEq κ]

theorem Table.find_put (ord : κ → Nat) (k j : κ) (v : α) : ∀ t : Table κ α,
    (t.put ord k v).find j = if k = j then some v else t.find j
  | [] => by simp [Table.put, Table.find]
  | (i, w) :: t => by
    have ih := Table.find_put ord k j v t
    unfold Table.put
    split
    · simp only [Table.find]; grind
    · split
      · simp only [Table.find]
      · simp only [Table.find, ih]; grind

theorem Table.find_drop (k j : κ) : ∀ t : Table κ α,
    (t.drop k).find j = if k = j then none else t.find j
  | [] => by simp [Table.drop, Table.find]
  | (i, w) :: t => by
    have ih := Table.find_drop k j t
    unfold Table.drop at ih ⊢
    simp only [List.filter_cons]
    split
    · simp only [Table.find, ih]; grind
    · simp only [Table.find, ih]; grind

theorem Table.mem_of_find {k : κ} {v : α} : ∀ {t : Table κ α}, t.find k = some v → (k, v) ∈ t
  | (i, w) :: t, h => by
    simp only [Table.find] at h
    split at h
    · cases h; subst_vars; simp
    · exact List.mem_cons_of_mem _ (Table.mem_of_find h)

theorem Table.find_none {k : κ} : ∀ {t : Table κ α}, t.find k = none ↔ ∀ e ∈ t, e.1 ≠ k
  | [] => by simp [Table.find]
  | (i, w) :: t => by
    have ih := Table.find_none (k := k) (t := t)
    simp only [Table.find, List.mem_cons, forall_eq_or_imp, ← ih]
    split <;> simp_all

theorem Table.mem_put {ord : κ → Nat} {k : κ} {v : α} : ∀ {t : Table κ α} {e : κ × α},
    e ∈ t.put ord k v → e = (k, v) ∨ e ∈ t
  | [], e, h => by simpa [Table.put] using h
  | (i, w) :: t, e, h => by
    have ih := @Table.mem_put ord k v t e
    unfold Table.put at h
    grind

theorem Table.mem_drop {k : κ} {t : Table κ α} {e : κ × α} : e ∈ t.drop k ↔ e ∈ t ∧ e.1 ≠ k := by
  simp [Table.drop]

theorem Table.find_of_mem {t : Table Nat α} (h : t.rising) {k : Nat} {v : α} (hm : (k, v) ∈ t) :
    t.find k = some v := by
  induction t with
  | nil => cases hm
  | cons e t ih =>
    obtain ⟨i, w⟩ := e
    simp only [Table.rising, List.pairwise_cons] at h
    simp only [Table.find]
    rcases List.mem_cons.1 hm with he | he
    · cases he; simp
    · have := h.1 _ he
      rw [if_neg (by dsimp only at this; omega)]
      exact ih h.2 he

theorem Table.rising_put {t : Table Nat α} (h : t.rising) (k : Nat) (v : α) :
    (t.put id k v).rising := by
  induction t with
  | nil => simp [Table.put, Table.rising]
  | cons e t ih =>
    obtain ⟨i, w⟩ := e
    simp only [Table.rising, List.pairwise_cons] at h
    have ih' := ih h.2
    unfold Table.put
    split
    · subst_vars
      simp only [Table.rising, List.pairwise_cons]
      exact h
    · split
      · rename_i hlt
        simp only [id] at hlt
        simp only [Table.rising, List.pairwise_cons, List.mem_cons]
        refine ⟨?_, h⟩
        rintro a (rfl | ha)
        · exact hlt
        · have := h.1 _ ha; omega
      · rename_i hne hlt
        simp only [id] at hlt
        simp only [Table.rising, List.pairwise_cons]
        refine ⟨?_, ih'⟩
        intro a ha
        rcases Table.mem_put ha with rfl | ha
        · dsimp only; omega
        · exact h.1 _ ha

theorem Table.rising_drop {t : Table Nat α} (h : t.rising) (k : Nat) : (t.drop k).rising :=
  List.Pairwise.filter _ h

/-- A free number found is free, and lies among those tried. -/
theorem Table.lowestFree_spec {t : Table Nat α} : ∀ {n lo k : Nat}, t.lowestFree lo n = some k →
    t.find k = none ∧ lo ≤ k ∧ k < lo + n
  | 0, _, _, h => by cases h
  | n + 1, lo, k, h => by
    unfold Table.lowestFree at h
    split at h
    · have := Table.lowestFree_spec h
      exact ⟨this.1, by omega, by omega⟩
    · rename_i hn
      cases h
      refine ⟨by simpa using hn, by omega, by omega⟩

/-- A write of a key already listed changes a sum over the table by that key's part. -/
theorem Table.sum_put {t : Table Nat α} (h : t.rising) (f : α → Nat) {k : Nat} {v w : α}
    (hf : t.find k = some w) :
    ((t.put id k v).map fun e => f e.2).sum + f w = (t.map fun e => f e.2).sum + f v := by
  induction t with
  | nil => cases hf
  | cons e t ih =>
    obtain ⟨i, x⟩ := e
    simp only [Table.rising, List.pairwise_cons] at h
    simp only [Table.find] at hf
    unfold Table.put
    split at hf
    · cases hf
      rw [if_pos (by assumption)]
      simp only [List.map_cons, List.sum_cons]
      omega
    · rename_i hne
      have hk := h.1 _ (Table.mem_of_find hf)
      rw [if_neg hne, if_neg (by simp only [id]; dsimp only at hk; omega)]
      have := ih h.2 hf
      simp only [List.map_cons, List.sum_cons]
      omega

/-- A write of a new key adds its part to a sum over the table. -/
theorem Table.sum_put_new {t : Table Nat α} (f : α → Nat) {k : Nat} {v : α} (hf : t.find k = none) :
    ((t.put id k v).map fun e => f e.2).sum = (t.map fun e => f e.2).sum + f v := by
  induction t with
  | nil => simp [Table.put]
  | cons e t ih =>
    obtain ⟨i, x⟩ := e
    simp only [Table.find] at hf
    split at hf
    · cases hf
    · rename_i hne
      unfold Table.put
      rw [if_neg hne]
      split
      · simp only [List.map_cons, List.sum_cons]; omega
      · simp only [List.map_cons, List.sum_cons, ih hf]; omega

/-- Dropping a key takes its part from a sum over the table. -/
theorem Table.sum_drop {t : Table Nat α} (h : t.rising) (f : α → Nat) {k : Nat} {w : α}
    (hf : t.find k = some w) :
    ((t.drop k).map fun e => f e.2).sum + f w = (t.map fun e => f e.2).sum := by
  induction t with
  | nil => cases hf
  | cons e t ih =>
    obtain ⟨i, x⟩ := e
    simp only [Table.rising, List.pairwise_cons] at h
    simp only [Table.find] at hf
    unfold Table.drop at ih ⊢
    simp only [List.filter_cons]
    split at hf
    · cases hf
      rename_i hik
      subst hik
      have : t.filter (fun e => decide (e.1 ≠ i)) = t := by
        rw [List.filter_eq_self]
        intro a ha
        have := h.1 _ ha
        simp only [ne_eq, decide_not, Bool.not_eq_eq_eq_not, Bool.not_true, decide_eq_false_iff_not]
        omega
      simp only [ne_eq, not_true_eq_false, decide_false, Bool.false_eq_true, if_false, List.map_cons,
        List.sum_cons]
      rw [this]; omega
    · rename_i hne
      have := ih h.2 hf
      simp only [ne_eq, hne, not_false_eq_true, decide_true, if_true, List.map_cons, List.sum_cons]
      simp only [ne_eq] at this
      omega

end Sys2Proof.Machine
end

