-- ==== Sys2Proof/Laws/Kept.lean ====
section
/-! SUPPORT. What every command is made of: a property kept by each basic write is kept by every
operation. This file has the basic writes; KeptUnits.lean and KeptCommands.lean the operations. -/

namespace Sys2Proof.Machine

/-- The fields that the bounds, the tables and the block counts speak of. -/
def State.core (s : State) :=
  (s.dir, s.records, s.nextRecord, s.pool, s.jobs, s.queues, s.requests, s.unknownLog,
    s.sweep.steps.length, s.counters, s.config, s.serial)

/-- A property of the state that each basic write keeps. -/
structure Kept (P : State → Prop) : Prop where
  rest : ∀ {s t : State}, P s → t.core = s.core → P t
  count : ∀ {s : State} (c : Counter) (n : Nat), P s → P (bumpBy c n s)
  clear : ∀ {s : State} (c : Counter), P s → P (clearCount c s)
  make : ∀ {s : State} (n : Nat) (bs : List Byte), n ≤ s.pool.free → P s → P (newRecord n bs s)
  ref : ∀ {s : State} (r : Nat), P s → P (addRef r s)
  unref : ∀ {s : State} (r : Nat), P s → P (releaseRef r s)
  fill : ∀ {s : State} {r : Nat} {x : FrameRecord} (bs : List Byte), s.records.find r = some x →
    P s → P { s with records := s.records.put id r { x with payload := bs } }
  grow : ∀ {s : State} {r : Nat} {x : FrameRecord} (bs : List Byte), s.records.find r = some x →
    s.pool.free ≠ 0 → P s → P { takeFrameBlocks 1 s with
      records := s.records.put id r { x with blocks := x.blocks + 1, payload := bs } }
  queue : ∀ {s : State} (p : Port) (es : List QueueEntry),
    es.length ≤ Config.queueEntries ∨ es.length ≤ (s.queues.get p).length →
    P s → P { s with queues := s.queues.set p es }
  forget : ∀ {s : State} (i : Nat), P s →
    P { s with queues := s.queues.map fun es => es.map (QueueEntry.forget i) }
  entry : ∀ {s : State} (i : Nat) (e : Entry),
    (i < Config.directoryPositions ∨ ∃ r, P r ∧ ∃ x ∈ r.dir, x.1 = i) → e.kind ≠ .bridge →
    (∀ x ∈ s.dir, ∀ k : Key, e.holds k → x.2.holds k → x.1 = i ∨ x.1 = 0 ∧ k.isStation) →
    P s → P (putEntry i e s)
  station : ∀ {s : State} (i : Nat) (f : Station → Station), P s → P (modStation i f s)
  free : ∀ {s : State} (i : Nat), P s → P (dropEntry i s)
  second : ∀ {s : State}, P s → P { s with dir := s.dir.map fun e => (e.1, e.2.second) }
  opened : ∀ {s : State} (k : Nat) (j : Job), k < Config.jobSlots → s.jobs.find k = none →
    j.bytes = [] → P s → P { s with jobs := s.jobs.put id k j }
  job : ∀ {s : State} (k : Nat) (f : Job → Job), (∀ j, (f j).bytes = j.bytes) → P s → P (modJob k f s)
  quiet : ∀ {s : State}, P s → P { s with jobs := s.jobs.map fun e => (e.1, e.2.quietSecond) }
  append : ∀ {s : State} {k : Nat} {j : Job} (b : Byte), s.jobs.find k = some j →
    j.bytes.length % Config.blockBytes ≠ 0 → P s → P (modJob k (Job.append b) s)
  spool : ∀ {s : State} {k : Nat} {j : Job} (b : Byte), s.jobs.find k = some j →
    j.bytes.length % Config.blockBytes = 0 → s.pool.free ≠ 0 → P s →
    P (modJob k (Job.append b) { s with
      pool := { s.pool with free := s.pool.free - 1, spoolHeld := s.pool.spoolHeld + 1 } })
  ended : ∀ {s : State} {k : Nat} {j : Job}, s.jobs.find k = some j → P s →
    P { returnSpoolBlocks (blocksFor j.bytes.length) s with jobs := s.jobs.drop k }
  cleared : ∀ {s : State}, P s → P (clearJobs s)
  request : ∀ {s : State} (rs : List Request),
    rs.length ≤ Config.requestPlaces ∨ rs.length ≤ s.requests.length → P s → P { s with requests := rs }
  log : ∀ {s : State} (us : List UnknownRecord),
    us.length ≤ Config.unknownRecords ∨ us.length ≤ s.unknownLog.length →
    (∀ u ∈ us, u ∈ s.unknownLog ∨ 1 ≤ u.hits ∧ u.hits ≤ 255) → P s → P { s with unknownLog := us }
  steps : ∀ {s : State} (f : Sweep → Sweep),
    (f s.sweep).steps.length ≤ Config.sweepSteps ∨
      (f s.sweep).steps.length = s.sweep.steps.length → P s → P (modSweep f s)
  settings : ∀ {s : State} (c : Settings), (s.config.ok → c.ok) → P s → P { s with config := c }
  serial : ∀ {s : State} (m : Serial), (s.serial.wf = true → m.wf = true) → P s →
    P { s with serial := m }
  reset : ∀ {s : State}, P s → P (resetBlocks s)

variable {P : State → Prop} (hP : Kept P) {s : State}
include hP

theorem kept_modSeg (x : Seg) (f : SegPort → SegPort) (h : P s) : P (modSeg x f s) := hP.rest h rfl

theorem kept_modLink (l : Link) (f : LinkPort → LinkPort) (h : P s) : P (modLink l f s) := hP.rest h rfl

theorem kept_modIface (i : Iface) (f : IfaceState → IfaceState) (h : P s) : P (modIface i f s) :=
  hP.rest h rfl

theorem kept_modLine (n : Line) (f : LineState → LineState) (h : P s) : P (modLine n f s) := hP.rest h rfl

theorem kept_modService (p : Port) (f : PortService → PortService) (h : P s) : P (modService p f s) :=
  hP.rest h rfl

theorem kept_setFlag (f : Flag) (h : P s) : P (setFlag f s) := hP.rest h rfl

theorem kept_clearFlags (h : P s) : P (clearFlags s) := hP.rest h rfl

theorem kept_beginWindow (h : P s) : P (beginWindow s) := hP.rest h rfl

theorem kept_handOver (p : Port) (x : Header) (r : Nat) (h : P s) : P (handOver p x r s) := hP.rest h rfl

theorem kept_endCurrent (h : P s) : P (endCurrent s) := hP.rest h rfl

theorem kept_bump (c : Counter) (h : P s) : P (bump c s) := hP.count c 1 h

theorem kept_clearPortWindow (p : Port) (h : P s) : P (clearPortWindow p s) := by
  cases p <;> exact hP.rest h rfl

theorem kept_freeOrder {b : Bool} {t : State} (e : freeOrder s = (b, t)) (h : P s) : P t := by
  cases e; exact hP.rest h rfl

theorem kept_offer {p : Port} {e : QueueEntry} {b : Bool} {t : State} (x : offer p e s = (b, t))
    (h : P s) : P t := by
  unfold offer at x
  split at x
  · cases x; exact hP.count _ _ h
  · rename_i hj
    cases x
    refine hP.count _ _ (hP.ref _ (hP.queue _ _ (.inl ?_) h))
    unfold judgeOffer at hj
    simp only [List.length_append, List.length_cons, List.length_nil]
    grind

theorem kept_ownRecordWith {low : State → State} (hl : ∀ {s}, P s → P (low s)) {bs : List Byte}
    {r : Option Nat} {t : State} (x : ownRecordWith low bs s = (r, t)) (h : P s) : P t := by
  unfold ownRecordWith at x
  dsimp only at x
  split at x
  · cases x; exact hP.count _ _ h
  · rename_i hn
    have := hP.make (max 1 (blocksFor bs.length)) bs (by omega) h
    grind

theorem kept_sendOwnWith {low : State → State} (hl : ∀ {s}, P s → P (low s)) {p : Port} {d : Key}
    {k : Byte} {bs : List Byte} {r : OwnResult} {t : State}
    (x : sendOwnWith low p d k bs s = (r, t)) (h : P s) : P t := by
  unfold sendOwnWith at x
  have h1 := @kept_ownRecordWith P hP s low hl
  have h2 := @kept_offer P hP
  have h3 := @hP.unref
  grind

theorem kept_makeNoticeWith {low : State → State} (hl : ∀ {s}, P s → P (low s)) (h : P s) :
    P (makeNoticeWith low s) := by
  unfold makeNoticeWith
  split
  · exact h
  · split
    · exact hP.count _ _ h
    · split
      · rename_i x
        exact hP.count _ _ (hP.rest (kept_sendOwnWith hP hl x h) rfl)
      · rename_i x
        exact hP.count _ _ (kept_sendOwnWith hP hl x h)

theorem kept_becomeCounting {low : State → State} (hl : ∀ {s}, P s → P (low s)) (h : P s) :
    P (becomeCounting low s) := by
  unfold becomeCounting
  split
  · exact h
  · exact kept_makeNoticeWith hP hl h

theorem kept_raiseWith {low : State → State} (hl : ∀ {s}, P s → P (low s)) (f : Flag) (h : P s) :
    P (raiseWith low f s) := by
  unfold raiseWith
  have h0 := kept_setFlag hP f h
  have h1 := kept_becomeCounting hP hl h0
  grind

theorem kept_raiseLowInNotice (h : P s) : P (raiseLowInNotice s) :=
  kept_raiseWith hP (fun h => kept_setFlag hP _ h) _ h

theorem kept_raise (f : Flag) (h : P s) : P (raise f s) :=
  kept_raiseWith hP (fun h => kept_raiseLowInNotice hP h) f h

theorem kept_ownRecord {bs : List Byte} {r : Option Nat} {t : State} (x : ownRecord bs s = (r, t))
    (h : P s) : P t :=
  kept_ownRecordWith hP (fun h => kept_raise hP _ h) x h

theorem kept_sendOwn {p : Port} {d : Key} {k : Byte} {bs : List Byte} {r : OwnResult} {t : State}
    (x : sendOwn p d k bs s = (r, t)) (h : P s) : P t :=
  kept_sendOwnWith hP (fun h => kept_raise hP _ h) x h

theorem kept_startRecord {r : Option Nat} {t : State} (x : startRecord s = (r, t)) (h : P s) : P t := by
  unfold startRecord at x
  split at x
  · cases x; exact h
  · rename_i hn
    have h0 := hP.make 1 [] (by omega) h
    have h1 := kept_raise hP .poolLow h0
    grind

theorem kept_storeByte {r : Nat} {c b : _} {t : State} (x : storeByte r c s = (b, t)) (h : P s) : P t := by
  unfold storeByte at x
  split at x
  · cases x; exact h
  · rename_i y hy
    split at x
    · cases x; exact hP.fill _ hy h
    · split at x
      · cases x; exact h
      · rename_i hn
        have h0 := hP.grow (y.payload ++ [c]) hy hn h
        have h1 := kept_raise hP .poolLow h0
        simp only [Prod.mk.injEq] at x
        obtain ⟨-, rfl⟩ := x
        split
        · exact h1
        · exact h0

end Sys2Proof.Machine
end

