-- ==== Sys2Proof/Laws/KeptUnits.lean ====
section
/-! SUPPORT. A property kept by each basic write is kept by the units: frame memory, spool, printer lines, fault
monitor, ports, sweep engine, segments, links, print protocol. -/

namespace Sys2Proof.Machine

set_option Elab.async false

set_option linter.unusedSectionVars false
set_option linter.unusedSimpArgs false

variable {P : State → Prop} (hP : Kept P) {s : State}
include hP

/-! ### Ops -/

theorem kept_set_slots (v : _) (hs : P s) : P { s with slots := v } := hP.rest hs rfl

theorem kept_set_nextOrder (v : _) (hs : P s) : P { s with nextOrder := v } := hP.rest hs rfl

theorem kept_set_marks (v : _) (hs : P s) : P { s with marks := v } := hP.rest hs rfl

theorem kept_set_segWin (v : _) (hs : P s) : P { s with segWin := v } := hP.rest hs rfl

theorem kept_set_linkWin (v : _) (hs : P s) : P { s with linkWin := v } := hP.rest hs rfl

theorem kept_set_window (v : _) (hs : P s) : P { s with window := v } := hP.rest hs rfl

theorem kept_set_heldReply (v : _) (hs : P s) : P { s with heldReply := v } := hP.rest hs rfl

theorem kept_set_current (v : _) (hs : P s) : P { s with current := v } := hP.rest hs rfl

theorem kept_set_save (v : _) (hs : P s) : P { s with save := v } := hP.rest hs rfl

theorem kept_set_loading (v : _) (hs : P s) : P { s with loading := v } := hP.rest hs rfl

theorem kept_set_noticeOut (v : _) (hs : P s) : P { s with noticeOut := v } := hP.rest hs rfl

theorem kept_set_commission (v : _) (hs : P s) : P { s with commission := v } := hP.rest hs rfl

theorem kept_set_resetLow (v : _) (hs : P s) : P { s with resetLow := v } := hP.rest hs rfl

theorem kept_set_powered (v : _) (hs : P s) : P { s with powered := v } := hP.rest hs rfl

theorem kept_set_time (v : _) (hs : P s) : P { s with time := v } := hP.rest hs rfl

theorem kept_set_mask (v : _) (hs : P s) : P { s with mask := v } := hP.rest hs rfl

theorem kept_set_choices (v : _) (hs : P s) : P { s with choices := v } := hP.rest hs rfl

theorem kept_set_handover (v : _) (hs : P s) : P { s with handover := v } := hP.rest hs rfl

theorem kept_releaseInFlight (p : Port) (hs : P s) : P (releaseInFlight p s) := by
  unfold releaseInFlight
  have k_releaseRef := @hP.unref
  grind

theorem kept_idleTx (p : Port) (hs : P s) : P (idleTx p s) := by
  unfold idleTx
  have k_modLink := @kept_modLink P hP
  have k_modSeg := @kept_modSeg P hP
  grind

theorem kept_abortTx (p : Port) (hs : P s) : P (abortTx p s) := by
  unfold abortTx
  have k_idleTx := @kept_idleTx P hP
  have k_releaseInFlight := @kept_releaseInFlight P hP
  grind

theorem kept_emptySlot (p : Port) (hs : P s) : P (emptySlot p s) := by
  unfold emptySlot
  have k_releaseRef := @hP.unref
  have f_slots := @kept_set_slots P hP
  grind

theorem kept_foldl {α : Type} {f : State → α → State} (hf : ∀ {s : State} (a : α), P s → P (f s a)) :
    ∀ (l : List α) {s : State}, P s → P (l.foldl f s)
  | [], _, h => h
  | a :: l, _, h => kept_foldl hf l (hf a h)

theorem kept_releaseEntries : ∀ (es : List QueueEntry) {s : State}, P s → P (releaseEntries es s)
  | [], _, h => h
  | e :: es, _, h => kept_releaseEntries es (hP.unref e.record h)

theorem kept_purgePort (p : Port) (why : PurgeReason) (h : P s) : P (purgePort p why s) :=
  hP.count _ _ (kept_releaseEntries hP _
    (hP.queue _ _ (.inl (by simp)) (kept_emptySlot hP _ (kept_abortTx hP _ h))))

theorem keptBySource_length (i : Nat) (b : Bool) (es : List QueueEntry) :
    (keptBySource i b es).length ≤ es.length := by
  cases es with
  | nil => simp [keptBySource]
  | cons e es =>
    have := List.length_filter_le (fun d : QueueEntry => d.source ≠ .index i) es
    unfold keptBySource
    dsimp only
    split <;> simp only [List.length_cons] <;> omega

theorem kept_purgeSourceAt (i : Nat) (p : Port) (h : P s) : P (purgeSourceAt i p s) :=
  hP.count _ _ (kept_releaseEntries hP _ (hP.queue _ _ (.inr (keptBySource_length hP _ _ _)) h))

theorem kept_purgeSource (i : Nat) (h : P s) : P (purgeSource i s) :=
  kept_foldl hP (fun p h => kept_purgeSourceAt hP i p h) _ h

theorem kept_removeEntry (i : Nat) (h : P s) : P (removeEntry i s) := hP.free _ (hP.forget _ h)

/-! ### Spool -/

theorem kept_spoolTook (before : Pool) (hs : P s) : P (spoolTook before s) := by
  unfold spoolTook
  have k_raise := @kept_raise P hP
  grind

theorem kept_sendStatus (u : Key) (tag : Byte) (a : Answer) (hs : P s) :
    P (sendStatus u tag a s) := by
  unfold sendStatus
  have k_bump := @kept_bump P hP
  have k_sendOwn := @kept_sendOwn P hP
  grind

theorem kept_endJob (slot : Nat) (e : JobEnd) (h : P s) : P (endJob slot e s) := by
  unfold endJob
  split
  · exact h
  · rename_i j hj
    have h0 := hP.ended hj h
    have k_bump := @kept_bump P hP
    have k_raise := @kept_raise P hP
    have k_sendStatus := @kept_sendStatus P hP
    grind

theorem kept_abortWhere (test : Job → Bool) (why : AbortReason) :
    ∀ (l : List Nat) {s : State}, P s → P (abortWhere test why l s)
  | [], _, h => h
  | k :: l, s, h => by
    unfold abortWhere
    split
    · exact kept_abortWhere test why l h
    · refine kept_abortWhere test why l ?_
      split
      · exact kept_endJob hP _ _ h
      · exact h

theorem kept_abortArriving (keys : List Key) (h : P s) : P (abortArriving keys s) :=
  kept_abortWhere hP _ _ _ h

theorem kept_arrivalSecond (h : P s) : P (arrivalSecond s) :=
  kept_abortWhere hP _ _ _ (hP.quiet h)

/-! ### PrinterLines -/

theorem kept_whenActive {f : State → State} (hf : ∀ {s : State}, P s → P (f s)) (h : P s) :
    P (whenActive f s) := by
  unfold whenActive
  split
  · exact hf h
  · exact h

theorem kept_modLineJob (n : Line) (f : Job → Job) (hf : ∀ j, (f j).bytes = j.bytes) (h : P s) :
    P (modLineJob n f s) := by
  unfold modLineJob
  split
  · exact hP.job _ _ hf h
  · exact h

theorem kept_lineJobState (n : Line) (st : JobState) (h : P s) : P (lineJobState n st s) :=
  kept_modLineJob hP n _ (fun _ => rfl) h

theorem kept_presentByte (n : Line) (hs : P s) : P (presentByte n s) := by
  unfold presentByte
  have k_modLine := @kept_modLine P hP
  grind

theorem kept_startBusyWait (n : Line) (hs : P s) : P (startBusyWait n s) := by
  unfold startBusyWait
  have k_modLine := @kept_modLine P hP
  grind

theorem kept_enterStall (n : Line) (c : StallCause) (hs : P s) : P (enterStall n c s) := by
  unfold enterStall
  have k_bump := @kept_bump P hP
  have k_lineJobState := @kept_lineJobState P hP
  have k_modLine := @kept_modLine P hP
  have k_raise := @kept_raise P hP
  grind

theorem kept_judgeInputs (n : Line) (hs : P s) : P (judgeInputs n s) := by
  unfold judgeInputs
  have k_enterStall := @kept_enterStall P hP
  have k_presentByte := @kept_presentByte P hP
  have k_startBusyWait := @kept_startBusyWait P hP
  grind

theorem kept_feed (n : Line) (hs : P s) : P (feed n s) := by
  unfold feed
  have k_judgeInputs := @kept_judgeInputs P hP
  have k_lineJobState := @kept_lineJobState P hP
  have k_modLine := @kept_modLine P hP
  grind

theorem kept_endInputStall (n : Line) (hs : P s) : P (endInputStall n s) := by
  unfold endInputStall
  have k_feed := @kept_feed P hP
  grind

theorem kept_stallPending (n : Line) (c : StallCause) (hs : P s) : P (stallPending n c s) := by
  unfold stallPending
  have k_endInputStall := @kept_endInputStall P hP
  have k_enterStall := @kept_enterStall P hP
  grind

theorem kept_takeJob (n : Line) (c : Choice) (hs : P s) : P (takeJob n c s) := by
  unfold takeJob
  have k_bump := @kept_bump P hP
  have k_judgeInputs := @kept_judgeInputs P hP
  have k_modJob := @hP.job
  have k_modLine := @kept_modLine P hP
  have k_sendStatus := @kept_sendStatus P hP
  grind

theorem kept_choose (n : Line) (hs : P s) : P (choose n s) := by
  unfold choose
  have k_takeJob := @kept_takeJob P hP
  grind

theorem kept_tellLines (t : Target) (hs : P s) : P (tellLines t s) := by
  unfold tellLines
  have k_choose := @kept_choose P hP
  have k_freeOrder := @kept_freeOrder P hP
  grind

theorem kept_joinReady (slot : Nat) (hs : P s) : P (joinReady slot s) := by
  unfold joinReady
  have k_modJob := @hP.job
  have f_nextOrder := @kept_set_nextOrder P hP
  grind

theorem kept_announce (slot : Nat) (hs : P s) : P (announce slot s) := by
  unfold announce
  have k_tellLines := @kept_tellLines P hP
  grind

theorem kept_freeLine (n : Line) (hs : P s) : P (freeLine n s) := kept_modLine hP n _ hs

theorem kept_leaveService (n : Line) (hs : P s) : P (leaveService n s) :=
  kept_choose hP n (kept_freeLine hP n hs)

/-- A way of leaving service keeps the property. -/
abbrev KeptLeave (P : State → Prop) (leave : Line → State → State) : Prop :=
  ∀ n s, P s → P (leave n s)

theorem kept_endLineJobBy {leave : Line → State → State} (hl : KeptLeave P leave) (n : Line)
    (e : JobEnd) (hs : P s) : P (endLineJobBy leave n e s) := by
  unfold endLineJobBy
  have k_endJob := @kept_endJob P hP
  grind

theorem kept_endLineJob (n : Line) (e : JobEnd) (hs : P s) : P (endLineJob n e s) :=
  kept_endLineJobBy hP (fun n _ h => kept_leaveService hP n h) n e hs

theorem kept_askLine {leave : Line → State → State} (hl : KeptLeave P leave) (n : Line) (e : JobEnd)
    (hs : P s) : P (askLine leave n e s) := by
  unfold askLine
  have k_endJob := @kept_endJob P hP
  have k_endLineJob := @kept_endLineJobBy P hP
  have k_lineJobState := @kept_lineJobState P hP
  have k_modLine := @kept_modLine P hP
  grind

theorem kept_askEndBy {leave : Line → State → State} (hl : KeptLeave P leave) (slot : Nat) (e : JobEnd)
    (hs : P s) : P (askEndBy leave slot e s) := by
  unfold askEndBy
  have k_askLine := @kept_askLine P hP
  have k_endJob := @kept_endJob P hP
  have k_modJob := @hP.job
  grind

theorem kept_askEnd (slot : Nat) (e : JobEnd) (hs : P s) : P (askEnd slot e s) :=
  kept_askEndBy hP (fun n _ h => kept_leaveService hP n h) slot e hs

theorem kept_afterByte (n : Line) (hs : P s) : P (afterByte n s) := by
  unfold afterByte
  have k_judgeInputs := @kept_judgeInputs P hP
  have k_stallPending := @kept_stallPending P hP
  grind

theorem kept_copyCheck (n : Line) (hs : P s) : P (copyCheck n s) := by
  unfold copyCheck
  have k_afterByte := @kept_afterByte P hP
  have k_bump := @kept_bump P hP
  have k_endLineJob := @kept_endLineJob P hP
  have k_modJob := @hP.job
  grind

theorem kept_ackPulse (n : Line) (hs : P s) : P (ackPulse n s) := by
  unfold ackPulse
  have k_bump := @kept_bump P hP
  have k_copyCheck := @kept_copyCheck P hP
  have k_endLineJob := @kept_endLineJob P hP
  have k_modLine := @kept_modLine P hP
  have k_modLineJob := @kept_modLineJob P hP
  grind

theorem kept_ackTimeout (n : Line) (hs : P s) : P (ackTimeout n s) := by
  unfold ackTimeout
  have k_bump := @kept_bump P hP
  have k_endLineJob := @kept_endLineJob P hP
  have k_enterStall := @kept_enterStall P hP
  have k_modLine := @kept_modLine P hP
  have k_stallPending := @kept_stallPending P hP
  grind

theorem kept_startInit (n : Line) (hs : P s) : P (startInit n s) := by
  unfold startInit
  have k_lineJobState := @kept_lineJobState P hP
  have k_modLine := @kept_modLine P hP
  grind

theorem kept_leaveResetting (n : Line) (hs : P s) : P (leaveResetting n s) := by
  unfold leaveResetting
  have k_choose := @kept_choose P hP
  have k_feed := @kept_feed P hP
  have k_modLine := @kept_modLine P hP
  grind

theorem kept_resetTaken (n : Line) (hs : P s) : P (resetTaken n s) := by
  unfold resetTaken
  have k_bump := @kept_bump P hP
  have k_endJob := @kept_endJob P hP
  have k_modLine := @kept_modLine P hP
  have k_startInit := @kept_startInit P hP
  grind

theorem kept_clearLine (n : Line) (hs : P s) : P (clearLine n s) := by
  unfold clearLine
  have k_modLine := @kept_modLine P hP
  have k_startInit := @kept_startInit P hP
  grind

theorem kept_disableLine (n : Line) (hs : P s) : P (disableLine n s) := by
  unfold disableLine
  have k_modLine := @kept_modLine P hP
  grind

theorem kept_enableLine (n : Line) (hs : P s) : P (enableLine n s) := by
  unfold enableLine
  have k_modLine := @kept_modLine P hP
  have k_startInit := @kept_startInit P hP
  grind

theorem kept_applySetLine (n : Line) (enable rotating : Option Bool) (mask : Option (BitVec 4))
    (hs : P s) :
    P (applySetLine n enable rotating mask s) := by
  unfold applySetLine
  have k_choose := @kept_choose P hP
  have k_disableLine := @kept_disableLine P hP
  have k_enableLine := @kept_enableLine P hP
  have k_modLine := @kept_modLine P hP
  grind

theorem kept_resume (n : Line) (hs : P s) : P (resume n s) := by
  unfold resume
  have k_feed := @kept_feed P hP
  grind

theorem kept_rotateTo (n : Line) (k : Fin 4) (hs : P s) : P (rotateTo n k s) := by
  unfold rotateTo
  have k_choose := @kept_choose P hP
  have k_modLine := @kept_modLine P hP
  grind

theorem kept_inputChanged (n : Line) (bad : Option StallCause) (hs : P s) :
    P (inputChanged n bad s) := by
  unfold inputChanged
  have k_choose := @kept_choose P hP
  have k_endInputStall := @kept_endInputStall P hP
  have k_judgeInputs := @kept_judgeInputs P hP
  have k_leaveResetting := @kept_leaveResetting P hP
  have k_modLine := @kept_modLine P hP
  grind

theorem kept_changeInput (n : Line) (now : Bool) (level : Bool) (put : LineState → LineState)
    (bad : Option StallCause) (hs : P s) :
    P (changeInput n now level put bad s) := by
  unfold changeInput
  simp only [whenActive]
  have k_inputChanged := @kept_inputChanged P hP
  have k_modLine := @kept_modLine P hP
  grind

theorem kept_execAckPulse (n : Line) {t : State} (x : execAckPulse n s = .next t) (hs : P s) :
    P t := by
  simp only [execAckPulse, whenActive, Host.Outcome.next.injEq] at x
  subst x
  have k_ackPulse := @kept_ackPulse P hP
  grind

theorem kept_execAckTimeout (n : Line) {t : State} (x : execAckTimeout n s = .next t) (hs : P s) :
    P t := by
  simp only [execAckTimeout, whenActive, Host.Outcome.next.injEq] at x
  subst x
  have k_ackTimeout := @kept_ackTimeout P hP
  grind

theorem kept_execSelectChange (n : Line) (level : Bool) {t : State}
    (x : execSelectChange n level s = .next t) (hs : P s) :
    P t := by
  simp only [execSelectChange, whenActive, Host.Outcome.next.injEq] at x
  subst x
  have k_changeInput := @kept_changeInput P hP
  grind

theorem kept_execPaperOutChange (n : Line) (level : Bool) {t : State}
    (x : execPaperOutChange n level s = .next t) (hs : P s) :
    P t := by
  simp only [execPaperOutChange, whenActive, Host.Outcome.next.injEq] at x
  subst x
  have k_changeInput := @kept_changeInput P hP
  grind

theorem kept_execFaultChange (n : Line) (level : Bool) {t : State}
    (x : execFaultChange n level s = .next t) (hs : P s) :
    P t := by
  simp only [execFaultChange, whenActive, Host.Outcome.next.injEq] at x
  subst x
  have k_changeInput := @kept_changeInput P hP
  grind

theorem kept_execBusyChange (n : Line) (level : Bool) {t : State}
    (x : execBusyChange n level s = .next t) (hs : P s) :
    P t := by
  simp only [execBusyChange, whenActive, Host.Outcome.next.injEq] at x
  subst x
  have k_changeInput := @kept_changeInput P hP
  grind

theorem kept_busyLimit (n : Line) (hs : P s) : P (busyLimit n s) := by
  unfold busyLimit
  have k_bump := @kept_bump P hP
  have k_enterStall := @kept_enterStall P hP
  grind

theorem kept_execBusyLimitExpiry (n : Line) {t : State} (x : execBusyLimitExpiry n s = .next t)
    (hs : P s) :
    P t := by
  simp only [execBusyLimitExpiry, whenActive, Host.Outcome.next.injEq] at x
  subst x
  have k_busyLimit := @kept_busyLimit P hP
  grind

theorem kept_execStallRetryExpiry (n : Line) {t : State}
    (x : execStallRetryExpiry n s = .next t) (hs : P s) :
    P t := by
  simp only [execStallRetryExpiry, whenActive, Host.Outcome.next.injEq] at x
  subst x
  have k_resume := @kept_resume P hP
  grind

theorem kept_initPulseEnd (n : Line) (hs : P s) : P (initPulseEnd n s) := by
  unfold initPulseEnd
  have k_leaveResetting := @kept_leaveResetting P hP
  have k_modLine := @kept_modLine P hP
  grind

theorem kept_execInitPulseEnd (n : Line) {t : State} (x : execInitPulseEnd n s = .next t)
    (hs : P s) :
    P t := by
  simp only [execInitPulseEnd, whenActive, Host.Outcome.next.injEq] at x
  subst x
  have k_initPulseEnd := @kept_initPulseEnd P hP
  grind

/-! ### FaultMonitor -/

theorem kept_newsTake (n : QuarantineNews) (hs : P s) : P (n.take s) := by
  unfold QuarantineNews.take
  have k_abortArriving := @kept_abortArriving P hP
  have k_bump := @kept_bump P hP
  have k_raise := @kept_raise P hP
  grind

theorem kept_setQuarantined (i minutes : Nat) (hs : P s) : P (setQuarantined i minutes s) := by
  unfold setQuarantined
  have k_modStation := @hP.station
  have k_purgeSource := @kept_purgeSource P hP
  grind

theorem kept_enterQuarantine (i : Nat) (cause : FaultCount) (minutes : Nat) (hs : P s) :
    P (enterQuarantine i cause minutes s) := by
  unfold enterQuarantine
  exact kept_newsTake hP _ (kept_setQuarantined hP _ _ hs)

theorem kept_quarantineStation (i : Nat) (cause : FaultCount) (hs : P s) :
    P (quarantineStation i cause s).2 := by
  unfold quarantineStation
  have k_bump := @kept_bump P hP
  have k_setQuarantined := @kept_setQuarantined P hP
  grind

theorem kept_suspect (i : Nat) (hs : P s) : P (suspect i s) := by
  unfold suspect
  have k_bump := @kept_bump P hP
  have k_modStation := @hP.station
  grind

theorem kept_judgeSuspect (i tally : Nat) (hs : P s) : P (judgeSuspect i tally s) := by
  unfold judgeSuspect
  have k_enterQuarantine := @kept_enterQuarantine P hP
  grind

theorem kept_judgeStanding (i : Nat) (hs : P s) : P (judgeStanding i s) := by
  unfold judgeStanding
  have k_enterQuarantine := @kept_enterQuarantine P hP
  have k_judgeSuspect := @kept_judgeSuspect P hP
  have k_suspect := @kept_suspect P hP
  grind

theorem kept_laidTo (k : Key) (hs : P s) : P (laidTo k s) := by
  unfold laidTo
  have k_bump := @kept_bump P hP
  have k_judgeStanding := @kept_judgeStanding P hP
  have k_modStation := @hP.station
  grind

theorem kept_markSuspect (k : Key) (hs : P s) : P (markSuspect k s) := by
  unfold markSuspect
  have k_bump := @kept_bump P hP
  have k_suspect := @kept_suspect P hP
  grind

theorem kept_sweepQuarantine (k : Key) (hs : P s) : P (sweepQuarantine k s) := by
  unfold sweepQuarantine
  split
  · exact kept_newsTake hP _ (kept_quarantineStation hP _ _ hs)
  · exact kept_bump hP _ hs

theorem kept_windowStation (i : Nat) (hs : P s) : P (windowStation i s) := by
  unfold windowStation
  have k_bump := @kept_bump P hP
  have k_modStation := @hP.station
  have k_raise := @kept_raise P hP
  have k_suspect := @kept_suspect P hP
  grind

theorem kept_atEach {f : Nat → State → State} (hf : ∀ {s : State} (i : Nat), P s → P (f i s))
    (is : List Nat) (h : P s) : P (atEach f is s) :=
  kept_foldl hP (fun i h => hf i h) _ h

theorem kept_windowExpiry (hs : P s) : P (windowExpiry s) := by
  unfold windowExpiry
  have k_atEach := @kept_atEach P hP
  have k_beginWindow := @kept_beginWindow P hP
  have k_windowStation := @kept_windowStation P hP
  grind

theorem kept_minuteStation (i : Nat) (hs : P s) : P (minuteStation i s) := by
  unfold minuteStation
  have k_bump := @kept_bump P hP
  have k_modStation := @hP.station
  grind

theorem kept_execWindowExpiry {t : State} (x : execWindowExpiry s = .next t) (hs : P s) : P t := by
  simp only [execWindowExpiry, whenActive, Host.Outcome.next.injEq] at x
  subst x
  have k_windowExpiry := @kept_windowExpiry P hP
  grind

theorem kept_execMinuteExpiry {t : State} (x : execMinuteExpiry s = .next t) (hs : P s) : P t := by
  simp only [execMinuteExpiry, whenActive, Host.Outcome.next.injEq] at x
  subst x
  have k_atEach := @kept_atEach P hP
  have k_minuteStation := @kept_minuteStation P hP
  grind

/-! ### Replies -/

theorem kept_countStatus (st : Status) (hs : P s) : P (countStatus st s) := by
  unfold countStatus
  have k_bump := @kept_bump P hP
  grind

theorem kept_sendReply (q : Request) (st : Status) (results : List Byte) (hs : P s) :
    P (sendReply q st results s) := by
  unfold sendReply
  have k_bump := @kept_bump P hP
  have k_countStatus := @kept_countStatus P hP
  have k_sendOwn := @kept_sendOwn P hP
  grind

theorem kept_offerHeld (q : Request) (hs : P s) : P (offerHeld q s) := by
  unfold offerHeld
  have k_sendReply := @kept_sendReply P hP
  have f_heldReply := @kept_set_heldReply P hP
  grind

theorem kept_loseHeld (hs : P s) : P (loseHeld s) := by
  unfold loseHeld
  have k_bump := @kept_bump P hP
  have f_heldReply := @kept_set_heldReply P hP
  grind

theorem kept_settleHeld (p : Port) (st : Service) (hs : P s) : P (settleHeld p st s) := by
  unfold settleHeld
  have k_loseHeld := @kept_loseHeld P hP
  have k_offerHeld := @kept_offerHeld P hP
  grind

/-! ### Isolation -/

theorem kept_dropRecord (rid : Nat) (hs : P s) : P (dropRecord rid s) := by
  unfold dropRecord
  have k_releaseRef := @hP.unref
  grind

theorem kept_abandonSeg (x : Seg) (hs : P s) : P (abandonSeg x s) := by
  unfold abandonSeg
  have k_dropRecord := @kept_dropRecord P hP
  have k_modSeg := @kept_modSeg P hP
  grind

theorem kept_abandonLink (l : Link) (hs : P s) : P (abandonLink l s) := by
  unfold abandonLink
  have k_dropRecord := @kept_dropRecord P hP
  have k_modLink := @kept_modLink P hP
  grind

theorem kept_setLoopMode (p : Port) (m : LoopMode) (hs : P s) : P (setLoopMode p m s) := by
  unfold setLoopMode
  have k_abandonLink := @kept_abandonLink P hP
  have k_abandonSeg := @kept_abandonSeg P hP
  have k_abortTx := @kept_abortTx P hP
  have k_emptySlot := @kept_emptySlot P hP
  have k_modLink := @kept_modLink P hP
  have k_modSeg := @kept_modSeg P hP
  grind

theorem kept_setService (p : Port) (st : Service) (hs : P s) : P (setService p st s) := by
  unfold setService
  have k_modService := @kept_modService P hP
  have k_settleHeld := @kept_settleHeld P hP
  grind

theorem kept_modTest (p : Port) (f : PortTest → PortTest) (hs : P s) : P (modTest p f s) := by
  unfold modTest
  have k_modService := @kept_modService P hP
  grind

theorem kept_placeTest (p : Port) (hs : P s) : P (placeTest p s) := by
  unfold placeTest
  have k_bump := @kept_bump P hP
  have k_modTest := @kept_modTest P hP
  have k_ownRecord := @kept_ownRecord P hP
  have f_slots := @kept_set_slots P hP
  grind

theorem kept_fillSlot (p : Port) (hs : P s) : P (fillSlot p s) := by
  unfold fillSlot
  have k_placeTest := @kept_placeTest P hP
  grind

theorem kept_startPhase (p : Port) (ph : TestPhase) (hs : P s) : P (startPhase p ph s) := by
  unfold startPhase
  have k_modTest := @kept_modTest P hP
  have k_placeTest := @kept_placeTest P hP
  have k_setLoopMode := @kept_setLoopMode P hP
  grind

theorem kept_beginTest (p : Port) (why : TestPurpose) (ph : TestPhase) (hs : P s) :
    P (beginTest p why ph s) := by
  unfold beginTest
  have k_modService := @kept_modService P hP
  have k_startPhase := @kept_startPhase P hP
  grind

theorem kept_endTest (p : Port) (hs : P s) : P (endTest p s) := by
  unfold endTest
  have k_emptySlot := @kept_emptySlot P hP
  have k_modService := @kept_modService P hP
  have k_setLoopMode := @kept_setLoopMode P hP
  grind

theorem kept_handResult (p : Port) (pass : Bool) (hs : P s) : P (handResult p pass s) := by
  unfold handResult
  have k_bump := @kept_bump P hP
  have k_modSweep := @hP.steps
  grind

theorem kept_cutTest (p : Port) (hs : P s) : P (cutTest p s) := by
  unfold cutTest
  have k_endTest := @kept_endTest P hP
  have k_handResult := @kept_handResult P hP
  grind

theorem kept_beginEntry (p : Port) (hs : P s) : P (beginEntry p s) := by
  unfold beginEntry
  have k_beginTest := @kept_beginTest P hP
  grind

theorem kept_stopHold (p : Port) (hs : P s) : P (stopHold p s) := by
  unfold stopHold
  have k_modService := @kept_modService P hP
  grind

theorem kept_enterTesting (p : Port) (hs : P s) : P (enterTesting p s) := by
  unfold enterTesting
  have k_beginEntry := @kept_beginEntry P hP
  have k_setService := @kept_setService P hP
  have k_stopHold := @kept_stopHold P hP
  grind

theorem kept_enterIsolated (p : Port) (c : IsolationCause) (hs : P s) :
    P (enterIsolated p c s) := by
  unfold enterIsolated
  have k_bump := @kept_bump P hP
  have k_modService := @kept_modService P hP
  have k_purgePort := @kept_purgePort P hP
  have k_raise := @kept_raise P hP
  have k_setService := @kept_setService P hP
  grind

theorem kept_entryPassed (p : Port) (hs : P s) : P (entryPassed p s) := by
  unfold entryPassed
  have k_bump := @kept_bump P hP
  have k_clearPortWindow := @kept_clearPortWindow P hP
  have k_endTest := @kept_endTest P hP
  have k_modService := @kept_modService P hP
  have k_raise := @kept_raise P hP
  have k_setService := @kept_setService P hP
  grind

theorem kept_entryFailedInternal (p : Port) (hs : P s) : P (entryFailedInternal p s) := by
  unfold entryFailedInternal
  have k_bump := @kept_bump P hP
  have k_endTest := @kept_endTest P hP
  have k_modService := @kept_modService P hP
  have k_purgePort := @kept_purgePort P hP
  have k_raise := @kept_raise P hP
  have k_setService := @kept_setService P hP
  grind

theorem kept_entryFailedExternal (p : Port) (hs : P s) : P (entryFailedExternal p s) := by
  unfold entryFailedExternal
  have k_bump := @kept_bump P hP
  have k_endTest := @kept_endTest P hP
  have k_enterIsolated := @kept_enterIsolated P hP
  have k_modService := @kept_modService P hP
  grind

theorem kept_takeWaitingHold (p : Port) (hs : P s) : P (takeWaitingHold p s) := by
  unfold takeWaitingHold
  have k_enterTesting := @kept_enterTesting P hP
  grind

theorem kept_afterLoop (p : Port) (hs : P s) : P (afterLoop p s) := by
  unfold afterLoop
  have k_setService := @kept_setService P hP
  have k_takeWaitingHold := @kept_takeWaitingHold P hP
  grind

theorem kept_loopEnded (p : Port) (pass : Bool) (hs : P s) : P (loopEnded p pass s) := by
  unfold loopEnded
  have k_afterLoop := @kept_afterLoop P hP
  have k_endTest := @kept_endTest P hP
  have k_handResult := @kept_handResult P hP
  grind

theorem kept_stopLoop (p : Port) (hs : P s) : P (stopLoop p s) := by
  unfold stopLoop
  have k_afterLoop := @kept_afterLoop P hP
  have k_endTest := @kept_endTest P hP
  grind

theorem kept_phaseFailed (p : Port) (hs : P s) : P (phaseFailed p s) := by
  unfold phaseFailed
  have k_entryFailedExternal := @kept_entryFailedExternal P hP
  have k_entryFailedInternal := @kept_entryFailedInternal P hP
  have k_loopEnded := @kept_loopEnded P hP
  grind

theorem kept_phasePassed (p : Port) (hs : P s) : P (phasePassed p s) := by
  unfold phasePassed
  have k_entryPassed := @kept_entryPassed P hP
  have k_loopEnded := @kept_loopEnded P hP
  have k_startPhase := @kept_startPhase P hP
  grind

theorem kept_frameReturned (p : Port) (hs : P s) : P (frameReturned p s) := by
  unfold frameReturned
  have k_modTest := @kept_modTest P hP
  have k_phasePassed := @kept_phasePassed P hP
  have k_placeTest := @kept_placeTest P hP
  grind

theorem kept_testFrameHanded (p : Port) (payload : List Byte) (hs : P s) :
    P (testFrameHanded p payload s) := by
  unfold testFrameHanded
  have k_bump := @kept_bump P hP
  have k_frameReturned := @kept_frameReturned P hP
  grind

theorem kept_testCollided (p : Port) (hs : P s) : P (testCollided p s) := by
  unfold testCollided
  have k_placeTest := @kept_placeTest P hP
  grind

theorem kept_externalReport (x : Seg) (hs : P s) : P (externalReport x s) := by
  unfold externalReport
  have k_phaseFailed := @kept_phaseFailed P hP
  grind

theorem kept_isolate (p : Port) (c : IsolationCause) (hs : P s) : P (isolate p c s) := by
  unfold isolate
  have k_bump := @kept_bump P hP
  have k_cutTest := @kept_cutTest P hP
  have k_enterIsolated := @kept_enterIsolated P hP
  grind

theorem kept_stopTx (l : Link) (hs : P s) : P (stopTx l s) := by
  unfold stopTx
  have k_abortTx := @kept_abortTx P hP
  have k_emptySlot := @kept_emptySlot P hP
  have k_fillSlot := @kept_fillSlot P hP
  have k_modLink := @kept_modLink P hP
  grind

theorem kept_dropLine (l : Link) (hs : P s) : P (dropLine l s) := by
  unfold dropLine
  have k_abandonLink := @kept_abandonLink P hP
  have k_modLink := @kept_modLink P hP
  have k_stopTx := @kept_stopTx P hP
  grind

theorem kept_connectionLost (l : Link) (hs : P s) : P (connectionLost l s) := by
  unfold connectionLost
  have k_beginEntry := @kept_beginEntry P hP
  have k_bump := @kept_bump P hP
  have k_cutTest := @kept_cutTest P hP
  have k_endTest := @kept_endTest P hP
  have k_enterTesting := @kept_enterTesting P hP
  have k_purgePort := @kept_purgePort P hP
  grind

theorem kept_linkConnected (l : Link) (hs : P s) : P (linkConnected l s) := by
  unfold linkConnected
  have k_startPhase := @kept_startPhase P hP
  grind

theorem kept_retrain (l : Link) (hs : P s) : P (retrain l s) := by
  unfold retrain
  have k_dropLine := @kept_dropLine P hP
  have k_modLink := @kept_modLink P hP
  grind

theorem kept_startLoop (p : Port) (k : ProbeKind) {res : Bool} {u : State}
    (x : startLoop p k s = (res, u)) (hs : P s) :
    P u := by
  unfold startLoop at x
  have k_beginTest := @kept_beginTest P hP
  have k_setService := @kept_setService P hP
  grind

theorem kept_holdExpiry (p : Port) (hs : P s) : P (holdExpiry p s) := by
  unfold holdExpiry
  have k_enterTesting := @kept_enterTesting P hP
  have k_modService := @kept_modService P hP
  grind

theorem kept_frameTimerExpiry (p : Port) (hs : P s) : P (frameTimerExpiry p s) := by
  unfold frameTimerExpiry
  have k_phaseFailed := @kept_phaseFailed P hP
  grind

theorem kept_frameRetry (p : Port) (hs : P s) : P (frameRetry p s) := by
  unfold frameRetry
  have k_placeTest := @kept_placeTest P hP
  grind

theorem kept_portOff (p : Port) (hs : P s) : P (portOff p s) := by
  unfold portOff
  have k_cutTest := @kept_cutTest P hP
  have k_purgePort := @kept_purgePort P hP
  have k_setService := @kept_setService P hP
  have k_stopHold := @kept_stopHold P hP
  grind

theorem kept_portOn (p : Port) (hs : P s) : P (portOn p s) := by
  unfold portOn
  have k_cutTest := @kept_cutTest P hP
  have k_enterTesting := @kept_enterTesting P hP
  grind

theorem kept_restartPort (p : Port) (hs : P s) : P (restartPort p s) := by
  unfold restartPort
  have k_cutTest := @kept_cutTest P hP
  have k_enterTesting := @kept_enterTesting P hP
  have k_purgePort := @kept_purgePort P hP
  have k_retrain := @kept_retrain P hP
  grind

theorem kept_keepReceiver (p : Port) {f : State → State} (hf : ∀ s, P s → P (f s)) (hs : P s) :
    P (keepReceiver p f s) := by
  unfold keepReceiver
  have k_modSeg := @kept_modSeg P hP
  have k_modLink := @kept_modLink P hP
  grind

theorem kept_clearPort (p : Port) (hs : P s) : P (clearPort p s) := by
  refine kept_keepReceiver hP p (fun s hs => ?_) hs
  unfold clearService
  have k_endTest := @kept_endTest P hP
  have k_enterTesting := @kept_enterTesting P hP
  have k_modService := @kept_modService P hP
  have k_purgePort := @kept_purgePort P hP
  have k_stopHold := @kept_stopHold P hP
  grind

theorem kept_startPort (p : Port) (on bcast accept : Bool) (hs : P s) :
    P (startPort p on bcast accept s) := by
  unfold startPort
  have k_endTest := @kept_endTest P hP
  have k_enterTesting := @kept_enterTesting P hP
  have k_modService := @kept_modService P hP
  have k_purgePort := @kept_purgePort P hP
  have k_setService := @kept_setService P hP
  grind

/-! ### FaultReports -/

theorem kept_judgePort (p : Port) (flap : Bool) {res : List IsolationCause} {u : State}
    (x : judgePort p flap s = (res, u)) (hs : P s) :
    P u := by
  unfold judgePort at x
  have k_bump := @kept_bump P hP
  have f_marks := @kept_set_marks P hP
  grind

theorem kept_requestIsolation (p : Port) (c : IsolationCause) (hs : P s) :
    P (requestIsolation p c s) := by
  unfold requestIsolation
  have k_bump := @kept_bump P hP
  have k_isolate := @kept_isolate P hP
  grind

theorem kept_makeRequests (p : Port) : ∀ (cs : List IsolationCause) {s : State}, P s →
    P (makeRequests p cs s)
  | [], _, h => h
  | c :: cs, _, h => kept_makeRequests p cs (kept_requestIsolation hP p c h)

theorem kept_segReport (x : Seg) (r : SegReport) (hs : P s) : P (segReport x r s) := by
  unfold segReport
  have k_judgePort := @kept_judgePort P hP
  have k_laidTo := @kept_laidTo P hP
  have k_makeRequests := @kept_makeRequests P hP
  have k_requestIsolation := @kept_requestIsolation P hP
  have f_segWin := @kept_set_segWin P hP
  grind

theorem kept_linkReportCauses (l : Link) (r : LinkReport) {res : List IsolationCause}
    {u : State} (x : linkReportCauses l r s = (res, u)) (hs : P s) :
    P u := by
  unfold linkReportCauses at x
  have k_judgePort := @kept_judgePort P hP
  have k_laidTo := @kept_laidTo P hP
  have f_linkWin := @kept_set_linkWin P hP
  grind

theorem kept_linkReport (l : Link) (r : LinkReport) (hs : P s) : P (linkReport l r s) := by
  unfold linkReport
  have k_linkReportCauses := @kept_linkReportCauses P hP
  have k_makeRequests := @kept_makeRequests P hP
  grind

theorem kept_loseConnection (l : Link) (h : P s) : P (loseConnection l s) := by
  unfold loseConnection
  have h0 := kept_dropLine hP l h
  have k_lost := fun {s} => @kept_connectionLost P hP s l
  have k_make := @kept_makeRequests P hP
  dsimp only
  split
  · exact k_lost h0
  · have h1 := kept_bump hP (.link l .flaps) h0
    split
    · rename_i x
      exact k_lost (kept_linkReportCauses hP _ _ x h1)
    · rename_i x
      have h2 := kept_linkReportCauses hP _ _ x h1
      split
      · rename_i y
        exact k_make _ _ (k_lost (kept_freeOrder hP y h2))
      · rename_i y
        exact k_lost (k_make _ _ (kept_freeOrder hP y h2))

/-! ### Sweep -/

theorem kept_modStep (k : Nat) (f : SweepStep → SweepStep) (hs : P s) : P (modStep k f s) := by
  unfold modStep
  have k_modSweep := @hP.steps
  grind

theorem kept_offerEcho (k : Key) (rid : Nat) : ∀ (ps : List Port) {s t : State} {b : Bool},
    offerEcho k rid ps s = (b, t) → P s → P t
  | [], _, _, _, x, h => by cases x; exact h
  | p :: ps, s, t, b, x, h => by
    unfold offerEcho at x
    have k_offer := @kept_offer P hP
    have k_rest := @kept_offerEcho k rid ps
    grind

theorem kept_beginEcho (n : Nat) (k : Key) (ports : List Port) (hs : P s) :
    P (beginEcho n k ports s) := by
  unfold beginEcho
  have k_bump := @kept_bump P hP
  have k_modSweep := @hP.steps
  have k_offerEcho := @kept_offerEcho P hP
  have k_ownRecord := @kept_ownRecord P hP
  have k_releaseRef := @hP.unref
  grind

theorem kept_beginStep (n : Nat) (t : SweepStep) {res : Option StepResult} {u : State}
    (x : beginStep n t s = (res, u)) (hs : P s) :
    P u := by
  unfold beginStep at x
  have k_beginEcho := @kept_beginEcho P hP
  have k_modSweep := @hP.steps
  have k_startLoop := @kept_startLoop P hP
  grind

theorem kept_haltSweep (hs : P s) : P (haltSweep s) := by
  unfold haltSweep
  have k_modSweep := @hP.steps
  have k_raise := @kept_raise P hP
  grind

theorem kept_isolateTarget (t : StepTarget) (hs : P s) : P (isolateTarget t s) := by
  unfold isolateTarget
  have k_bump := @kept_bump P hP
  have k_isolate := @kept_isolate P hP
  grind

theorem kept_failAction (t : SweepStep) (hs : P s) : P (failAction t s) := by
  unfold failAction
  have k_bump := @kept_bump P hP
  have k_haltSweep := @kept_haltSweep P hP
  have k_isolateTarget := @kept_isolateTarget P hP
  have k_markSuspect := @kept_markSuspect P hP
  have k_sweepQuarantine := @kept_sweepQuarantine P hP
  grind

theorem kept_endStep (n : Nat) (r : StepResult) (hs : P s) : P (endStep n r s) := by
  unfold endStep
  have k_bump := @kept_bump P hP
  have k_failAction := @kept_failAction P hP
  have k_modStep := @kept_modStep P hP
  grind

theorem kept_beginPass (hs : P s) : P (beginPass s) := by
  unfold beginPass
  have k_modSweep := @hP.steps
  grind

theorem kept_passDone (hs : P s) : P (passDone s) := by
  unfold passDone
  have k_bump := @kept_bump P hP
  have k_modSweep := @hP.steps
  have k_raise := @kept_raise P hP
  grind

theorem kept_advance (hs : P s) : P (advance s) := by
  unfold advance
  have k_beginPass := @kept_beginPass P hP
  have k_modSweep := @hP.steps
  grind

theorem kept_runSteps : ∀ (n : Nat) {s : State}, P s → P (runSteps n s)
  | 0, _, h => h
  | n + 1, s, h => by
    unfold runSteps
    split
    · exact h
    · split
      · exact kept_passDone hP h
      · split
        · rename_i x
          exact kept_beginStep hP _ _ x h
        · rename_i x
          exact kept_runSteps n (kept_advance hP (kept_endStep hP _ _ (kept_beginStep hP _ _ x h)))

theorem kept_runSweep (hs : P s) : P (runSweep s) := by
  unfold runSweep
  have k_runSteps := @kept_runSteps P hP
  grind

theorem kept_probeEnded (n : Nat) (r : StepResult) (hs : P s) : P (probeEnded n r s) := by
  unfold probeEnded
  have k_advance := @kept_advance P hP
  have k_endStep := @kept_endStep P hP
  have k_modSweep := @hP.steps
  have k_runSweep := @kept_runSweep P hP
  grind

theorem kept_settleSweep (hs : P s) : P (settleSweep s) := by
  unfold settleSweep
  have k_probeEnded := @kept_probeEnded P hP
  grind

theorem kept_echoReply (source : Key) (payload : List Byte) (hs : P s) :
    P (echoReply source payload s) := by
  unfold echoReply
  have k_bump := @kept_bump P hP
  have k_modSweep := @hP.steps
  have k_probeEnded := @kept_probeEnded P hP
  grind

theorem kept_echoTimeout (hs : P s) : P (echoTimeout s) := by
  unfold echoTimeout
  have k_modSweep := @hP.steps
  have k_probeEnded := @kept_probeEnded P hP
  grind

theorem kept_intervalExpiry (h : P s) : P (intervalExpiry s) := by
  have h0 : P (modSweep (fun w => { w with timer := none }) s) := hP.steps _ (.inr rfl) h
  unfold intervalExpiry
  dsimp only
  split
  · split
    · exact h0
    · split
      · exact hP.steps _ (.inr rfl) h0
      · exact kept_runSweep hP (kept_beginPass hP h0)
  · exact h

theorem kept_resumeSweep (hs : P s) : P (resumeSweep s) := by
  unfold resumeSweep
  have k_runSweep := @kept_runSweep P hP
  grind

theorem kept_startSweep (interval : Nat) (hs : P s) : P (startSweep interval s) := by
  unfold startSweep
  have k_beginPass := @kept_beginPass P hP
  have k_modSweep := @hP.steps
  have k_runSweep := @kept_runSweep P hP
  grind

theorem kept_abandonProbe (hs : P s) : P (abandonProbe s) := by
  unfold abandonProbe
  have k_modSweep := @hP.steps
  have k_stopLoop := @kept_stopLoop P hP
  grind

theorem kept_stopSweep (hs : P s) : P (stopSweep s) := by
  unfold stopSweep
  have k_abandonProbe := @kept_abandonProbe P hP
  have k_endStep := @kept_endStep P hP
  have k_modSweep := @hP.steps
  grind

theorem kept_runStep (k : Nat) (hs : P s) : P (runStep k s) := by
  unfold runStep
  have k_modSweep := @hP.steps
  have k_runSweep := @kept_runSweep P hP
  grind

theorem kept_clearSweep (hs : P s) : P (clearSweep s) := hP.steps _ (.inl (by simp)) hs

theorem kept_execIntervalExpiry {t : State} (x : execIntervalExpiry s = .next t) (hs : P s) :
    P t := by
  simp only [execIntervalExpiry, whenActive, Host.Outcome.next.injEq] at x
  subst x
  have k_intervalExpiry := @kept_intervalExpiry P hP
  grind

theorem kept_execEchoTimerExpiry {t : State} (x : execEchoTimerExpiry s = .next t) (hs : P s) :
    P t := by
  simp only [execEchoTimerExpiry, whenActive, Host.Outcome.next.injEq] at x
  subst x
  have k_echoTimeout := @kept_echoTimeout P hP
  grind

theorem kept_execTestFrameTimer (p : Port) {t : State} (x : execTestFrameTimer p s = .next t)
    (hs : P s) :
    P t := by
  simp only [execTestFrameTimer, whenActive, Host.Outcome.next.injEq] at x
  subst x
  have k_frameTimerExpiry := @kept_frameTimerExpiry P hP
  have k_settleSweep := @kept_settleSweep P hP
  grind

theorem kept_execTestFrameRetry (p : Port) {t : State} (x : execTestFrameRetry p s = .next t)
    (hs : P s) :
    P t := by
  simp only [execTestFrameRetry, whenActive, Host.Outcome.next.injEq] at x
  subst x
  have k_frameRetry := @kept_frameRetry P hP
  grind

theorem kept_execHoldTimerExpiry (p : Port) {t : State} (x : execHoldTimerExpiry p s = .next t)
    (hs : P s) :
    P t := by
  simp only [execHoldTimerExpiry, whenActive, Host.Outcome.next.injEq] at x
  subst x
  have k_holdExpiry := @kept_holdExpiry P hP
  grind

/-! ### Segments -/

theorem kept_setSegRx (x : Seg) (r : SegRx) (hs : P s) : P (setSegRx x r s) := by
  unfold setSegRx
  have k_modSeg := @kept_modSeg P hP
  grind

theorem kept_beginSegReception (x : Seg) (looped : Bool) (hs : P s) :
    P (beginSegReception x looped s) := by
  unfold beginSegReception
  have k_bump := @kept_bump P hP
  have k_setSegRx := @kept_setSegRx P hP
  have k_startRecord := @kept_startRecord P hP
  grind

theorem kept_takeSegByte (x : Seg) (b : Byte) (hs : P s) : P (takeSegByte x b s) := by
  unfold takeSegByte
  have k_bump := @kept_bump P hP
  have k_dropRecord := @kept_dropRecord P hP
  have k_setSegRx := @kept_setSegRx P hP
  have k_storeByte := @kept_storeByte P hP
  grind

theorem kept_endSegReception (x : Seg) (hs : P s) : P (endSegReception x s) := by
  unfold endSegReception
  have k_bump := @kept_bump P hP
  have k_dropRecord := @kept_dropRecord P hP
  have k_handOver := @kept_handOver P hP
  have k_segReport := @kept_segReport P hP
  have k_setSegRx := @kept_setSegRx P hP
  grind

theorem kept_carrierRise (x : Seg) (hs : P s) : P (carrierRise x s) := by
  unfold carrierRise
  have k_beginSegReception := @kept_beginSegReception P hP
  have k_modSeg := @kept_modSeg P hP
  grind

theorem kept_carrierFall (x : Seg) (hs : P s) : P (carrierFall x s) := by
  unfold carrierFall
  have k_endSegReception := @kept_endSegReception P hP
  have k_modSeg := @kept_modSeg P hP
  grind

theorem kept_beginAttempt (x : Seg) (hs : P s) : P (beginAttempt x s) := by
  unfold beginAttempt
  have k_modSeg := @kept_modSeg P hP
  grind

theorem kept_segmentTake (x : Seg) (hs : P s) : P (segmentTake x s) := by
  unfold segmentTake
  have k_addRef := @hP.ref
  have k_beginAttempt := @kept_beginAttempt P hP
  have k_beginSegReception := @kept_beginSegReception P hP
  have k_modSeg := @kept_modSeg P hP
  grind

theorem kept_deferQuiet (x : Seg) (hs : P s) : P (deferQuiet x s) := by
  unfold deferQuiet
  have k_beginAttempt := @kept_beginAttempt P hP
  grind

theorem kept_headLeaves (p : Port) (hs : P s) : P (headLeaves p s) := by
  unfold headLeaves
  have k_releaseRef := @hP.unref
  have f_queue := @hP.queue
  grind

theorem kept_flightEnded (p : Port) (hs : P s) : P (flightEnded p s) := by
  unfold flightEnded
  have k_emptySlot := @kept_emptySlot P hP
  have k_fillSlot := @kept_fillSlot P hP
  have k_headLeaves := @kept_headLeaves P hP
  have k_idleTx := @kept_idleTx P hP
  have k_releaseInFlight := @kept_releaseInFlight P hP
  grind

theorem kept_takeSegBytes (x : Seg) : ∀ (bs : List Byte) {s : State}, P s → P (takeSegBytes x bs s)
  | [], _, h => h
  | b :: bs, _, h => kept_takeSegBytes x bs (kept_takeSegByte hP x b h)

theorem kept_segmentSent (x : Seg) (hs : P s) : P (segmentSent x s) := by
  unfold segmentSent
  have k_bump := @kept_bump P hP
  have k_endSegReception := @kept_endSegReception P hP
  have k_flightEnded := @kept_flightEnded P hP
  have k_takeSegBytes := @kept_takeSegBytes P hP
  grind

theorem kept_collision (x : Seg) (hs : P s) : P (collision x s) := by
  unfold collision
  have k_bump := @kept_bump P hP
  have k_emptySlot := @kept_emptySlot P hP
  have k_flightEnded := @kept_flightEnded P hP
  have k_idleTx := @kept_idleTx P hP
  have k_modSeg := @kept_modSeg P hP
  have k_releaseInFlight := @kept_releaseInFlight P hP
  have k_segReport := @kept_segReport P hP
  have k_testCollided := @kept_testCollided P hP
  grind

theorem kept_retryExpiry (x : Seg) (hs : P s) : P (retryExpiry x s) := by
  unfold retryExpiry
  have k_modSeg := @kept_modSeg P hP
  grind

theorem kept_stuckReception (x : Seg) (hs : P s) : P (stuckReception x s) := by
  unfold stuckReception
  have k_dropRecord := @kept_dropRecord P hP
  have k_setSegRx := @kept_setSegRx P hP
  grind

theorem kept_reportStuck (x : Seg) (hs : P s) : P (reportStuck x s) := by
  unfold reportStuck
  have k_externalReport := @kept_externalReport P hP
  have k_segReport := @kept_segReport P hP
  grind

theorem kept_stuckBegins (x : Seg) (hs : P s) : P (stuckBegins x s) := by
  unfold stuckBegins
  have k_bump := @kept_bump P hP
  have k_modSeg := @kept_modSeg P hP
  have k_reportStuck := @kept_reportStuck P hP
  have k_stuckReception := @kept_stuckReception P hP
  grind

theorem kept_stuckHeld (x : Seg) (hs : P s) : P (stuckHeld x s) := by
  unfold stuckHeld
  have k_modSeg := @kept_modSeg P hP
  have k_segReport := @kept_segReport P hP
  grind

theorem kept_stuckOnLeavingOff (p : Port) (hs : P s) : P (stuckOnLeavingOff p s) := by
  unfold stuckOnLeavingOff
  have k_modSeg := @kept_modSeg P hP
  have k_segReport := @kept_segReport P hP
  grind

theorem kept_unterminated (x : Seg) (hs : P s) : P (unterminated x s) := by
  unfold unterminated
  have k_bump := @kept_bump P hP
  have k_externalReport := @kept_externalReport P hP
  have k_modSeg := @kept_modSeg P hP
  have k_segReport := @kept_segReport P hP
  grind

theorem kept_execCarrierRise (x : Seg) {t : State} (x : execCarrierRise x s = .next t) (hs : P s) :
    P t := by
  simp only [execCarrierRise, whenActive, Host.Outcome.next.injEq] at x
  subst x
  have k_carrierRise := @kept_carrierRise P hP
  have k_modSeg := @kept_modSeg P hP
  grind

theorem kept_execCoaxByte (x : Seg) (b : Byte) {t : State} (x : execCoaxByte x b s = .next t)
    (hs : P s) :
    P t := by
  simp only [execCoaxByte, whenActive, Host.Outcome.next.injEq] at x
  subst x
  have k_takeSegByte := @kept_takeSegByte P hP
  grind

theorem kept_execCarrierFall (x : Seg) {t : State} (x : execCarrierFall x s = .next t) (hs : P s) :
    P t := by
  simp only [execCarrierFall, whenActive, Host.Outcome.next.injEq] at x
  subst x
  have k_carrierFall := @kept_carrierFall P hP
  have k_modSeg := @kept_modSeg P hP
  have k_settleSweep := @kept_settleSweep P hP
  grind

theorem kept_execSegmentTakeFrame (x : Seg) {t : State} (x : execSegmentTakeFrame x s = .next t)
    (hs : P s) :
    P t := by
  simp only [execSegmentTakeFrame, whenActive, Host.Outcome.next.injEq] at x
  subst x
  have k_segmentTake := @kept_segmentTake P hP
  grind

theorem kept_execDeferQuiet (x : Seg) {t : State} (x : execDeferQuiet x s = .next t) (hs : P s) :
    P t := by
  simp only [execDeferQuiet, whenActive, Host.Outcome.next.injEq] at x
  subst x
  have k_deferQuiet := @kept_deferQuiet P hP
  grind

theorem kept_execSegmentSent (x : Seg) {t : State} (x : execSegmentSent x s = .next t) (hs : P s) :
    P t := by
  simp only [execSegmentSent, whenActive, Host.Outcome.next.injEq] at x
  subst x
  have k_segmentSent := @kept_segmentSent P hP
  have k_settleSweep := @kept_settleSweep P hP
  grind

theorem kept_execCollision (x : Seg) {t : State} (x : execCollision x s = .next t) (hs : P s) :
    P t := by
  simp only [execCollision, whenActive, Host.Outcome.next.injEq] at x
  subst x
  have k_collision := @kept_collision P hP
  have k_settleSweep := @kept_settleSweep P hP
  grind

theorem kept_execRetryWaitExpiry (x : Seg) {t : State} (x : execRetryWaitExpiry x s = .next t)
    (hs : P s) :
    P t := by
  simp only [execRetryWaitExpiry, whenActive, Host.Outcome.next.injEq] at x
  subst x
  have k_retryExpiry := @kept_retryExpiry P hP
  grind

theorem kept_execStuck (x : Seg) {t : State} (x : execStuck x s = .next t) (hs : P s) : P t := by
  simp only [execStuck, whenActive, Host.Outcome.next.injEq] at x
  subst x
  have k_settleSweep := @kept_settleSweep P hP
  have k_stuckBegins := @kept_stuckBegins P hP
  grind

theorem kept_execStuckHeld (x : Seg) {t : State} (x : execStuckHeld x s = .next t) (hs : P s) :
    P t := by
  simp only [execStuckHeld, whenActive, Host.Outcome.next.injEq] at x
  subst x
  have k_settleSweep := @kept_settleSweep P hP
  have k_stuckHeld := @kept_stuckHeld P hP
  grind

theorem kept_execUnterminated (x : Seg) {t : State} (x : execUnterminated x s = .next t)
    (hs : P s) :
    P t := by
  simp only [execUnterminated, whenActive, Host.Outcome.next.injEq] at x
  subst x
  have k_settleSweep := @kept_settleSweep P hP
  have k_unterminated := @kept_unterminated P hP
  grind

/-! ### Links -/

theorem kept_tryTraining (l : Link) (hs : P s) : P (tryTraining l s) := by
  unfold tryTraining
  have k_modLink := @kept_modLink P hP
  grind

theorem kept_signalReported (l : Link) (hs : P s) : P (signalReported l s) := by
  unfold signalReported
  have k_modLink := @kept_modLink P hP
  have k_tryTraining := @kept_tryTraining P hP
  grind

theorem kept_signalPresent (l : Link) (hs : P s) : P (signalPresent l s) := by
  unfold signalPresent
  have k_signalReported := @kept_signalReported P hP
  grind

theorem kept_signalLost (l : Link) (hs : P s) : P (signalLost l s) := by
  unfold signalLost
  have k_loseConnection := @kept_loseConnection P hP
  have k_modLink := @kept_modLink P hP
  grind

theorem kept_pauseExpiry (l : Link) (hs : P s) : P (pauseExpiry l s) := by
  unfold pauseExpiry
  have k_modLink := @kept_modLink P hP
  have k_tryTraining := @kept_tryTraining P hP
  grind

theorem kept_trained (l : Link) (hs : P s) : P (trained l s) := by
  unfold trained
  have k_linkConnected := @kept_linkConnected P hP
  have k_modLink := @kept_modLink P hP
  grind

theorem kept_trainingTimeout (l : Link) (hs : P s) : P (trainingTimeout l s) := by
  unfold trainingTimeout
  have k_bump := @kept_bump P hP
  have k_modLink := @kept_modLink P hP
  grind

theorem kept_setLinkRx (l : Link) (r : LinkRx) (hs : P s) : P (setLinkRx l r s) := by
  unfold setLinkRx
  have k_modLink := @kept_modLink P hP
  grind

theorem kept_beginLinkReception (l : Link) (looped : Bool) (hs : P s) :
    P (beginLinkReception l looped s) := by
  unfold beginLinkReception
  have k_bump := @kept_bump P hP
  have k_setLinkRx := @kept_setLinkRx P hP
  have k_startRecord := @kept_startRecord P hP
  grind

theorem kept_takeLinkByte (l : Link) (b : Byte) (hs : P s) : P (takeLinkByte l b s) := by
  unfold takeLinkByte
  have k_bump := @kept_bump P hP
  have k_dropRecord := @kept_dropRecord P hP
  have k_setLinkRx := @kept_setLinkRx P hP
  have k_storeByte := @kept_storeByte P hP
  grind

theorem kept_endLinkReception (l : Link) (hs : P s) : P (endLinkReception l s) := by
  unfold endLinkReception
  have k_bump := @kept_bump P hP
  have k_dropRecord := @kept_dropRecord P hP
  have k_handOver := @kept_handOver P hP
  have k_linkReport := @kept_linkReport P hP
  have k_setLinkRx := @kept_setLinkRx P hP
  grind

theorem kept_frameStart (l : Link) (hs : P s) : P (frameStart l s) := by
  unfold frameStart
  have k_beginLinkReception := @kept_beginLinkReception P hP
  have k_endLinkReception := @kept_endLinkReception P hP
  grind

theorem kept_frameEnd (l : Link) (hs : P s) : P (frameEnd l s) := by
  unfold frameEnd
  have k_endLinkReception := @kept_endLinkReception P hP
  grind

theorem kept_linkByte (l : Link) (b : Byte) (hs : P s) : P (linkByte l b s) := by
  unfold linkByte
  have k_takeLinkByte := @kept_takeLinkByte P hP
  grind

theorem kept_symbolError (l : Link) (hs : P s) : P (symbolError l s) := by
  unfold symbolError
  have k_bump := @kept_bump P hP
  have k_linkReport := @kept_linkReport P hP
  have k_setLinkRx := @kept_setLinkRx P hP
  grind

theorem kept_linkTake (l : Link) (hs : P s) : P (linkTake l s) := by
  unfold linkTake
  have k_addRef := @hP.ref
  have k_beginLinkReception := @kept_beginLinkReception P hP
  have k_modLink := @kept_modLink P hP
  grind

theorem kept_takeLinkBytes (l : Link) : ∀ (bs : List Byte) {s : State}, P s → P (takeLinkBytes l bs s)
  | [], _, h => h
  | b :: bs, _, h => kept_takeLinkBytes l bs (kept_takeLinkByte hP l b h)

theorem kept_linkSent (l : Link) (hs : P s) : P (linkSent l s) := by
  unfold linkSent
  have k_bump := @kept_bump P hP
  have k_endLinkReception := @kept_endLinkReception P hP
  have k_flightEnded := @kept_flightEnded P hP
  have k_modLink := @kept_modLink P hP
  have k_takeLinkBytes := @kept_takeLinkBytes P hP
  grind

theorem kept_gapExpiry (l : Link) (hs : P s) : P (gapExpiry l s) := by
  unfold gapExpiry
  have k_modLink := @kept_modLink P hP
  grind

theorem kept_takeLinkDown (l : Link) (hs : P s) : P (takeLinkDown l s) := by
  unfold takeLinkDown
  have k_loseConnection := @kept_loseConnection P hP
  have k_modLink := @kept_modLink P hP
  grind

theorem kept_takeInterfaceDown (i : Iface) (h : P s) : P (takeInterfaceDown i s) :=
  kept_foldl hP (fun l h => kept_takeLinkDown hP l h) _ h

theorem kept_clockLoss (i : Iface) (hs : P s) : P (clockLoss i s) := by
  unfold clockLoss
  have k_bump := @kept_bump P hP
  have k_modIface := @kept_modIface P hP
  have k_takeInterfaceDown := @kept_takeInterfaceDown P hP
  grind

theorem kept_reportSignals (i : Iface) (h : P s) : P (reportSignals i s) := by
  refine kept_foldl hP (fun l h => ?_) _ h
  split
  · exact kept_signalReported hP l h
  · exact h

theorem kept_clockHoldExpiry (i : Iface) (hs : P s) : P (clockHoldExpiry i s) := by
  unfold clockHoldExpiry
  have k_modIface := @kept_modIface P hP
  have k_reportSignals := @kept_reportSignals P hP
  grind

theorem kept_restartInterface (i : Iface) (hs : P s) : P (restartInterface i s) := by
  unfold restartInterface
  have k_bump := @kept_bump P hP
  have k_takeInterfaceDown := @kept_takeInterfaceDown P hP
  grind

theorem kept_execSignalPresent (l : Link) {t : State} (x : execSignalPresent l s = .next t)
    (hs : P s) :
    P t := by
  simp only [execSignalPresent, whenActive, Host.Outcome.next.injEq] at x
  subst x
  have k_modLink := @kept_modLink P hP
  have k_signalPresent := @kept_signalPresent P hP
  grind

theorem kept_execSignalLost (l : Link) {t : State} (x : execSignalLost l s = .next t) (hs : P s) :
    P t := by
  simp only [execSignalLost, whenActive, Host.Outcome.next.injEq] at x
  subst x
  have k_modLink := @kept_modLink P hP
  have k_settleSweep := @kept_settleSweep P hP
  have k_signalLost := @kept_signalLost P hP
  grind

theorem kept_execRetrainPauseExpiry (l : Link) {t : State}
    (x : execRetrainPauseExpiry l s = .next t) (hs : P s) :
    P t := by
  simp only [execRetrainPauseExpiry, whenActive, Host.Outcome.next.injEq] at x
  subst x
  have k_pauseExpiry := @kept_pauseExpiry P hP
  grind

theorem kept_execTrained (l : Link) {t : State} (x : execTrained l s = .next t) (hs : P s) :
    P t := by
  simp only [execTrained, whenActive, Host.Outcome.next.injEq] at x
  subst x
  have k_trained := @kept_trained P hP
  grind

theorem kept_execTrainingTimeout (l : Link) {t : State} (x : execTrainingTimeout l s = .next t)
    (hs : P s) :
    P t := by
  simp only [execTrainingTimeout, whenActive, Host.Outcome.next.injEq] at x
  subst x
  have k_trainingTimeout := @kept_trainingTimeout P hP
  grind

theorem kept_execFrameStart (l : Link) {t : State} (x : execFrameStart l s = .next t) (hs : P s) :
    P t := by
  simp only [execFrameStart, whenActive, Host.Outcome.next.injEq] at x
  subst x
  have k_frameStart := @kept_frameStart P hP
  have k_settleSweep := @kept_settleSweep P hP
  grind

theorem kept_execLinkByte (l : Link) (b : Byte) {t : State} (x : execLinkByte l b s = .next t)
    (hs : P s) :
    P t := by
  simp only [execLinkByte, whenActive, Host.Outcome.next.injEq] at x
  subst x
  have k_linkByte := @kept_linkByte P hP
  grind

theorem kept_execSymbolError (l : Link) {t : State} (x : execSymbolError l s = .next t) (hs : P s) :
    P t := by
  simp only [execSymbolError, whenActive, Host.Outcome.next.injEq] at x
  subst x
  have k_settleSweep := @kept_settleSweep P hP
  have k_symbolError := @kept_symbolError P hP
  grind

theorem kept_execFrameEnd (l : Link) {t : State} (x : execFrameEnd l s = .next t) (hs : P s) :
    P t := by
  simp only [execFrameEnd, whenActive, Host.Outcome.next.injEq] at x
  subst x
  have k_frameEnd := @kept_frameEnd P hP
  have k_settleSweep := @kept_settleSweep P hP
  grind

theorem kept_execLinkTakeFrame (l : Link) {t : State} (x : execLinkTakeFrame l s = .next t)
    (hs : P s) :
    P t := by
  simp only [execLinkTakeFrame, whenActive, Host.Outcome.next.injEq] at x
  subst x
  have k_linkTake := @kept_linkTake P hP
  grind

theorem kept_execLinkSent (l : Link) {t : State} (x : execLinkSent l s = .next t) (hs : P s) :
    P t := by
  simp only [execLinkSent, whenActive, Host.Outcome.next.injEq] at x
  subst x
  have k_linkSent := @kept_linkSent P hP
  have k_settleSweep := @kept_settleSweep P hP
  grind

theorem kept_execGapExpiry (l : Link) {t : State} (x : execGapExpiry l s = .next t) (hs : P s) :
    P t := by
  simp only [execGapExpiry, whenActive, Host.Outcome.next.injEq] at x
  subst x
  have k_gapExpiry := @kept_gapExpiry P hP
  grind

theorem kept_execClockLoss (i : Iface) {t : State} (x : execClockLoss i s = .next t) (hs : P s) :
    P t := by
  simp only [execClockLoss, whenActive, Host.Outcome.next.injEq] at x
  subst x
  have k_clockLoss := @kept_clockLoss P hP
  have k_settleSweep := @kept_settleSweep P hP
  grind

theorem kept_execClockHoldExpiry (i : Iface) {t : State} (x : execClockHoldExpiry i s = .next t)
    (hs : P s) :
    P t := by
  simp only [execClockHoldExpiry, whenActive, Host.Outcome.next.injEq] at x
  subst x
  have k_clockHoldExpiry := @kept_clockHoldExpiry P hP
  grind

/-! ### PrintJobs -/

theorem kept_refuse (u : Key) (tag : Byte) (r : RefusedReason) (hs : P s) :
    P (refuse u tag r s) := by
  unfold refuse
  have k_bump := @kept_bump P hP
  have k_sendStatus := @kept_sendStatus P hP
  grind

theorem kept_openRest (h : Handoff) (tag : Byte) (copies : Nat) (hs : P s) :
    P (openRest h tag copies s) := by
  unfold openRest
  have k_refuse := @kept_refuse P hP
  split
  · exact k_refuse _ _ _ hs
  · split
    · exact k_refuse _ _ _ hs
    · rename_i x
      have hx := Table.lowestFree_spec x
      split
      · exact k_refuse _ _ _ hs
      · exact kept_sendStatus hP _ _ _ (kept_bump hP _ (hP.opened _ _ (by omega) hx.1 rfl hs))

theorem kept_printOpen (h : Handoff) (tag : Byte) (copies : Nat) (hs : P s) :
    P (printOpen h tag copies s) := by
  unfold printOpen
  have k_endJob := @kept_endJob P hP
  have k_openRest := @kept_openRest P hP
  have k_refuse := @kept_refuse P hP
  grind

theorem kept_unknownJob (u : Key) (tag : Byte) (hs : P s) : P (unknownJob u tag s) := by
  unfold unknownJob
  have k_bump := @kept_bump P hP
  have k_sendStatus := @kept_sendStatus P hP
  grind

theorem kept_appendBytes (slot : Nat) : ∀ (bs : List Byte) {s t : State} {b : Bool},
    appendBytes slot bs s = (b, t) → P s → P t
  | [], _, _, _, x, h => by cases x; exact h
  | c :: cs, s, t, b, x, h => by
    unfold appendBytes at x
    have k_rest := @kept_appendBytes slot cs
    have k_count := @kept_bump P hP
    split at x
    · cases x; exact h
    · rename_i j hj
      split at x
      · exact k_rest x (hP.append c hj (by assumption) h)
      · rename_i hm
        split at x
        · rename_i y
          cases x
          unfold spoolTake at y
          split at y
          · cases y; exact k_count _ h
          · split at y
            · cases y; exact k_count _ h
            · cases y
        · rename_i y
          unfold spoolTake at y
          split at y
          · cases y
          · split at y
            · cases y
            · cases y
              exact k_rest x (kept_spoolTook hP _ (hP.spool c hj (by omega) (by omega) h))

theorem kept_printData (u : Key) (tag seq : Byte) (bytes : List Byte) (hs : P s) :
    P (printData u tag seq bytes s) := by
  unfold printData
  have k_appendBytes := @kept_appendBytes P hP
  have k_endJob := @kept_endJob P hP
  have k_modJob := @hP.job
  have k_unknownJob := @kept_unknownJob P hP
  grind

theorem kept_closeJob (slot : Nat) (st : JobState) (hs : P s) : P (closeJob slot st s) := by
  unfold closeJob
  have k_modJob := @hP.job
  grind

theorem kept_printClose (u : Key) (tag : Byte) (total : Nat) (hs : P s) :
    P (printClose u tag total s) := by
  unfold printClose
  have k_announce := @kept_announce P hP
  have k_bump := @kept_bump P hP
  have k_closeJob := @kept_closeJob P hP
  have k_endJob := @kept_endJob P hP
  have k_joinReady := @kept_joinReady P hP
  have k_sendStatus := @kept_sendStatus P hP
  have k_unknownJob := @kept_unknownJob P hP
  grind

theorem kept_printCancel (u : Key) (tag : Byte) (hs : P s) : P (printCancel u tag s) := by
  unfold printCancel
  have k_askEnd := @kept_askEnd P hP
  have k_unknownJob := @kept_unknownJob P hP
  grind

theorem kept_printFrame (h : Handoff) (payload : List Byte) (hs : P s) :
    P (printFrame h payload s) := by
  unfold printFrame
  have k_printCancel := @kept_printCancel P hP
  have k_printClose := @kept_printClose P hP
  have k_printData := @kept_printData P hP
  have k_printOpen := @kept_printOpen P hP
  have k_refuse := @kept_refuse P hP
  grind

theorem kept_holdJob (slot : Nat) (j : Job) {res : Status} {u : State} (x : holdJob slot j s =
    (res, u)) (hs : P s) :
    P u := by
  unfold holdJob at x
  have k_modJob := @hP.job
  grind

theorem kept_releaseJob (slot : Nat) (j : Job) (hs : P s) : P (releaseJob slot j s) := by
  unfold releaseJob
  have k_announce := @kept_announce P hP
  have k_joinReady := @kept_joinReady P hP
  have k_modJob := @hP.job
  grind

theorem kept_moveJob (slot : Nat) (j : Job) (t : Target) (l : Fin 4) {res : Status} {u : State}
    (x : moveJob slot j t l s = (res, u)) (hs : P s) :
    P u := by
  unfold moveJob at x
  have k_announce := @kept_announce P hP
  have k_joinReady := @kept_joinReady P hP
  have k_modJob := @hP.job
  grind

theorem kept_flushSlots : ∀ (l : List Nat) (a b : Nat) {s t : State} {c d : Nat},
    flushSlots l a b s = (c, d, t) → P s → P t
  | [], _, _, _, _, _, _, x, h => by cases x; exact h
  | k :: l, a, b, s, t, c, d, x, h => by
    unfold flushSlots at x
    have k_askEnd := fun s k e => @kept_askEndBy P hP s _ (fun n _ h => kept_freeLine hP n h) k e
    have k_rest := @kept_flushSlots l
    grind

end Sys2Proof.Machine
end

