-- ==== Sys2Proof/Laws/KeptCommands.lean ====
section
/-! SUPPORT. A property kept by each basic write is kept by every command and every step. -/

namespace Sys2Proof.Machine

set_option Elab.async false

set_option linter.unusedSectionVars false
set_option linter.unusedSimpArgs false

variable {P : State → Prop} (hP : Kept P) {s : State}
include hP

/-! ### Directory -/

omit hP in
theorem lookup_none {k : Key} (hk : k.isStation = true) (h : s.lookup k = none) :
    ∀ x ∈ s.dir, x.2.holds k = false := by
  have hc : k.class = .station := by simpa [Key.isStation] using hk
  unfold State.lookup at h
  rw [hc] at h
  simpa using h

omit hP in
theorem unheld_spec {k : Key} (h : s.unheld k = true) : ∀ x ∈ s.dir, x.2.holds k = false := by
  simpa [State.unheld] using h

omit hP in
theorem learnedEntry_holds {k j : Key} {p : Port} (h : (s.learnedEntry k p).holds j = true) :
    j = k ∨ ∀ x ∈ s.dir, x.2.holds j = false := by
  cases k <;> cases j <;> simp only [State.learnedEntry, Entry.holds] at h
  · left; simp_all
  · right
    unfold State.learnedAddress at h
    dsimp only at h
    split at h
    · rename_i hu
      simp only [decide_eq_true_eq, Option.some.injEq] at h
      rw [← h]
      exact unheld_spec hu
    · simp at h
  · simp at h
  · left; simp_all

omit hP in
theorem learnedEntry_kind (k : Key) (p : Port) : (s.learnedEntry k p).kind ≠ .bridge := by
  cases k <;> simp [State.learnedEntry]

theorem kept_learnNew (k : Key) (p : Port) (hk : ∀ x ∈ s.dir, x.2.holds k = false)
    {res : SourceEntry} {u : State} (x : learnNew k p s = (res, u)) (hs : P s) : P u := by
  unfold learnNew at x
  split at x
  · cases x; exact kept_bump hP _ (kept_raise hP _ hs)
  · rename_i i hi
    cases x
    have hi := Table.lowestFree_spec hi
    refine kept_bump hP _ (hP.entry _ _ (.inl ?_) (learnedEntry_kind _ _) ?_ hs)
    · simp only [Config.directoryPositions]; omega
    · intro y hy j hj hy2
      rcases learnedEntry_holds hj with rfl | hn
      · simp [hk y hy] at hy2
      · simp [hn y hy] at hy2

theorem kept_heardAt (i : Nat) (p : Port) (hs : P s) : P (heardAt i p s) := by
  unfold heardAt
  have k_modStation := @hP.station
  grind

theorem kept_nodeClash {res : Learned} {u : State} (x : nodeClash s = (res, u)) (hs : P s) :
    P u := by
  unfold nodeClash at x
  have k_bump := @kept_bump P hP
  have k_raise := @kept_raise P hP
  grind

theorem kept_learn (k : Key) (p : Port) (guarded : Bool) (hk : k.isStation = true) {res : Learned}
    {u : State} (x : learn k p guarded s = (res, u)) (hs : P s) : P u := by
  unfold learn at x
  have k_new := @kept_learnNew P hP
  have k_bump := @kept_bump P hP
  have k_heard := @kept_heardAt P hP
  have k_clash := @kept_nodeClash P hP
  have k_raise := @kept_raise P hP
  split at x
  · rename_i hl
    cases x
    exact k_new _ _ (lookup_none hk hl) rfl hs
  · grind

theorem kept_defend (x : Seg) (n : Node) (c : DefendClass) (hs : P s) : P (defend x n c s) := by
  unfold defend
  have k_bump := @kept_bump P hP
  have k_sendOwn := @kept_sendOwn P hP
  grind

theorem kept_forwardClaim (x : Seg) (h : Header) (rid : Nat) (source : SourceEntry) (hs : P s) :
    P (forwardClaim x h rid source s) := by
  unfold forwardClaim
  have k_bump := @kept_bump P hP
  have k_offer := @kept_offer P hP
  grind

theorem kept_claimDefence (x : Seg) (n : Node) (h : Header) (rid : Nat) (hs : P s) :
    P (claimDefence x n h rid s) := by
  unfold claimDefence
  have k_new := @kept_learnNew P hP
  have k_defend := @kept_defend P hP
  have k_forward := @kept_forwardClaim P hP
  have k_bump := @kept_bump P hP
  have k_heard := @kept_heardAt P hP
  split
  · exact k_defend _ _ _ hs
  · rename_i hk
    split
    · rename_i hl
      exact k_forward _ _ _ _ (k_new _ _ (lookup_none (by simpa using hk) hl) rfl hs)
    · grind

theorem kept_removeAll (c : DirCount) : ∀ (is : List Nat) {s : State}, P s → P (removeAll c is s)
  | [], _, h => h
  | i :: is, _, h => kept_removeAll c is (kept_bump hP _ (kept_removeEntry hP i h))

theorem kept_ageSecond (h : P s) : P (ageSecond s) := by
  unfold ageSecond
  have h0 := hP.second h
  dsimp only
  split
  · exact h0
  · exact kept_removeAll hP _ _ h0

theorem kept_purgeLearned {res : Nat} {u : State} (x : purgeLearned s = (res, u)) (hs : P s) :
    P u := by
  unfold purgeLearned at x
  have k_removeAll := @kept_removeAll P hP
  grind

theorem kept_clearDirectory (h : P s) : P (clearDirectory s) :=
  kept_atEach hP (fun i h => kept_removeEntry hP i h) _ h

omit hP in
theorem quietest_mem : ∀ {l : List (Nat × Entry)} {e : Nat × Entry}, quietest l = some e → e ∈ l
  | d :: l, e, h => by
    unfold quietest at h
    split at h
    · split at h
      · cases h; simp
      · cases h
    · rename_i x hx
      split at h
      · cases h; simp
      · cases h; exact List.mem_cons_of_mem _ (quietest_mem hx)

omit hP in
theorem removeEntry_mem {i : Nat} {y : Nat × Entry} (h : y ∈ (removeEntry i s).dir) :
    y ∈ s.dir ∧ (y.1 = i → y.1 = 0) := by
  unfold removeEntry dropEntry at h
  split at h
  · exact ⟨h, by omega⟩
  · have := Table.mem_drop.1 h
    exact ⟨this.1, fun he => absurd he this.2⟩

omit hP in
theorem removeAll_mem {c : DirCount} : ∀ {is : List Nat} {s : State} {y : Nat × Entry},
    y ∈ (removeAll c is s).dir → y ∈ s.dir ∧ (y.1 ∈ is → y.1 = 0)
  | [], _, _, h => ⟨h, by simp⟩
  | i :: is, s, y, h => by
    unfold removeAll at h
    have ih := removeAll_mem h
    simp only [bump_dir] at ih
    have hr := removeEntry_mem ih.1
    refine ⟨hr.1, fun hm => ?_⟩
    rcases List.mem_cons.1 hm with he | he
    · exact hr.2 he
    · exact ih.2 he

theorem kept_takeIndex {target : Option Nat} {i : Nat} {t : State}
    (ht : ∀ j, target = some j → j < Config.directoryPositions) (x : takeIndex target s = some (i, t))
 (hs : P s) :
    P t ∧ (i < Config.directoryPositions ∨ ∃ r, P r ∧ ∃ y ∈ r.dir, y.1 = i) ∧
      (∀ y ∈ t.dir, y ∈ s.dir) ∧ (target = some i ∨ target = none) := by
  unfold takeIndex at x
  split at x
  · cases x
    exact ⟨hs, .inl (ht _ rfl), fun _ h => h, .inl rfl⟩
  · split at x
    · rename_i hi
      cases x
      have hi := Table.lowestFree_spec hi
      refine ⟨hs, .inl ?_, fun _ h => h, .inr rfl⟩
      simp only [Config.directoryPositions]; omega
    · split at x
      · rename_i j e hq
        cases x
        refine ⟨kept_bump hP _ (kept_removeEntry hP _ hs),
          .inr ⟨s, hs, (i, e), quietest_mem hq, rfl⟩, ?_, .inr rfl⟩
        intro y hy
        simp only [bump_dir] at hy
        exact (removeEntry_mem hy).1
      · cases x

theorem kept_purgeGood (is : List Nat) (h : P s) : P (purgeGood is s) := by
  refine kept_foldl hP (fun i h => ?_) _ h
  split
  · exact h
  · exact kept_purgeSource hP i h

omit hP in
theorem releaseEntries_dir : ∀ (es : List QueueEntry) (s : State), (releaseEntries es s).dir = s.dir
  | [], _ => rfl
  | e :: es, s => by simp [releaseEntries, releaseEntries_dir es]

omit hP in
theorem purgeSource_dir (i : Nat) : (purgeSource i s).dir = s.dir := by
  have h1 : ∀ p (s : State), (purgeSourceAt i p s).dir = s.dir := by
    intro p s; simp [purgeSourceAt, releaseEntries_dir]
  have : ∀ (l : List Port) (s : State), (l.foldl (fun s p => purgeSourceAt i p s) s).dir = s.dir := by
    intro l
    induction l with
    | nil => intro s; rfl
    | cons p l ih => intro s; rw [List.foldl_cons, ih, h1]
  exact this _ _

omit hP in
theorem purgeGood_dir : ∀ (is : List Nat) (s : State), (purgeGood is s).dir = s.dir
  | [], _ => rfl
  | i :: is, s => by
    have ih := purgeGood_dir is
    unfold purgeGood at ih ⊢
    rw [List.foldl_cons, ih]
    split
    · rfl
    · exact purgeSource_dir i

omit hP in
theorem givenKeys_holds {o : Origin} {n : Node} {a : Address} {kd : EntryKind} {k : Key}
    (h : (Entry.mk o (editNode n) (editAddress a) kd).holds k = true) : k ∈ givenKeys n a := by
  cases k <;> simp_all [Entry.holds, givenKeys]

/-- An edit's write: the keys given are held by no entry at another position but entry 0, once those
taken over are removed. -/
theorem kept_write {ks : List Key} {target : Option Nat} {i : Nat} {t u : State} {e : Entry}
    {c : DirCount} (hks : keysInRange ks = true) (hc : s.keyConflict ks target = false)
    (he : ∀ k, e.holds k → k ∈ ks) (hb : e.kind ≠ .bridge)
    (ht : ∀ j, target = some j → j < Config.directoryPositions) (hd : u.dir = s.dir) (hu : P u)
    (x : takeIndex target (removeAll c (s.takenOver ks target) u) = some (i, t)) : P (putEntry i e t) := by
  obtain ⟨h1, h2, h3, h4⟩ := kept_takeIndex hP ht x (kept_removeAll hP c _ hu)
  refine hP.entry _ _ h2 hb ?_ h1
  intro y hy k hk hyk
  have hkk := he k hk
  have hst : k.isStation = true := by
    simp only [keysInRange, List.all_eq_true] at hks
    exact hks k hkk
  have hy2 := removeAll_mem (h3 y hy)
  rw [hd] at hy2
  by_cases hi : y.1 = i
  · exact .inl hi
  · have ho : holdsOther ks target y = true := by
      unfold holdsOther
      rw [Bool.and_eq_true]
      refine ⟨?_, List.any_eq_true.2 ⟨k, hkk, hyk⟩⟩
      rcases h4 with h4 | h4 <;> subst h4 <;> simp [hi]
    have hl : y.2.origin = .learned := by
      simp only [State.keyConflict, List.any_eq_false, Bool.and_eq_true, decide_eq_true_eq,
        not_and] at hc
      have := hc y hy2.1 ho
      cases hq : y.2.origin <;> simp_all
    refine .inr ⟨hy2.2 ?_, hst⟩
    unfold State.takenOver
    refine List.mem_map.2 ⟨y, List.mem_filter.2 ⟨hy2.1, ?_⟩, rfl⟩
    simp [ho, hl]

omit hP in
theorem editIndex_lt {b : Byte} {j : Nat} (h : editIndex b = some j) : j < Config.directoryPositions := by
  unfold editIndex at h
  split at h
  · cases h
  · cases h
    have := b.isLt
    simp only [Config.directoryPositions]; omega

theorem kept_writeStation {e : StationEdit} {home : Option Port} {i : Nat}
    {news : List QuarantineNews} {t : State}
    (hks : keysInRange (givenKeys e.trunk e.office) = true)
    (hc : s.keyConflict (givenKeys e.trunk e.office) (editIndex e.index) = false)
    (x : writeStation e home s = some (i, news, t)) (hs : P s) : P t := by
  unfold writeStation at x
  dsimp only at x
  split at x
  · cases x
  · rename_i hx
    have hw : ∀ st, P (putEntry _ ⟨.static, editNode e.trunk, editAddress e.office, .station st⟩ _) :=
      fun st => kept_write hP (s := s) (target := editIndex e.index) hks hc (fun k hk => givenKeys_holds hk) (by simp) (fun j hj => editIndex_lt hj)
        (by split; exact purgeGood_dir _ _; rfl) (by split; exact kept_purgeGood hP _ hs; exact hs) hx
    split at x <;> cases x
    · exact kept_purgeSource hP _ (hw _)
    · exact hw _

theorem kept_editStation {e : StationEdit} {r : Option Nat} {news : List QuarantineNews} {t : State}
    (x : editStation e s = .applied r news t) (hs : P s) : P t := by
  unfold editStation at x
  dsimp only at x
  repeat' split at x
  all_goals first
    | cases x; done
    | skip
  rename_i hr _ _ _ _ hc _ _ _ _ hw
  cases x
  simp only [not_or, Bool.not_eq_true] at hc
  exact kept_writeStation hP (by simpa using hr) hc.2 hw hs

theorem kept_editAlias {e : AliasEdit} {r : Option Nat} {news : List QuarantineNews} {t : State}
    (x : editAlias e s = .applied r news t) (hs : P s) : P t := by
  unfold editAlias at x
  dsimp only at x
  repeat' split at x
  all_goals first
    | cases x; done
    | skip
  rename_i hr _ _ _ _ _ _ hc _ _ _ hw
  cases x
  simp only [not_or, Bool.not_eq_true] at hc
  exact kept_write hP (by simpa using hr) hc.2.1 (fun k hk => givenKeys_holds hk) (by simp)
    (fun j hj => editIndex_lt hj) rfl hs hw

theorem kept_editStationAt {index : Byte} {f : State → List QuarantineNews × State}
    (hf : ∀ {s : State}, P s → P (f s).2) {r : Option Nat} {news : List QuarantineNews} {t : State}
    (x : editStationAt index f s = .applied r news t) (hs : P s) : P t := by
  unfold editStationAt at x
  grind

theorem kept_editDelete {index : Byte} {r : Option Nat} {news : List QuarantineNews} {t : State}
    (x : editDelete index s = .applied r news t) (hs : P s) : P t := by
  unfold editDelete at x
  have := @kept_removeEntry P hP
  grind

theorem kept_run {e : Edit} {r : Option Nat} {news : List QuarantineNews} {t : State}
    (x : e.run s = .applied r news t) (hs : P s) : P t := by
  cases e with
  | setStation e => exact kept_editStation hP x hs
  | setAlias e => exact kept_editAlias hP x hs
  | delete i => exact kept_editDelete hP x hs
  | setRights i m p =>
    simp only [Edit.run] at x
    refine kept_editStationAt hP (fun h => ?_) x hs
    exact hP.station _ _ h
  | release i =>
    simp only [Edit.run] at x
    refine kept_editStationAt hP (fun h => ?_) x hs
    exact hP.station _ _ h
  | quarantine i =>
    simp only [Edit.run] at x
    refine kept_editStationAt hP (fun h => ?_) x hs
    exact kept_quarantineStation hP _ _ h

theorem kept_takeNews : ∀ (ns : List QuarantineNews) {s : State}, P s → P (takeNews ns s)
  | [], _, h => h
  | n :: ns, _, h => kept_takeNews ns (kept_newsTake hP n h)

theorem kept_runBatch : ∀ {es : List Edit} {k a b : Nat} {l : List Nat} {ns : List QuarantineNews}
    {s t : State} {c d : Nat} {m : List Nat}, runBatch es k a b l ns s = .applied c d m t → P s → P t
  | [], _, _, _, _, _, _, _, _, _, _, x, h => by cases x; exact kept_takeNews hP _ h
  | e :: es, _, _, _, _, _, s, t, _, _, _, x, h => by
    unfold runBatch at x
    split at x
    · cases x
    · exact kept_runBatch x h
    · rename_i y
      exact kept_runBatch x (kept_run hP y h)

theorem kept_takeEdit (e : Edit) (hs : P s) : P (takeEdit e s) := by
  unfold takeEdit
  split
  · rename_i y
    exact kept_takeNews hP _ (kept_run hP y hs)
  · exact hs

theorem kept_execAging {t : State} (x : execAging s = .next t) (hs : P s) : P t := by
  simp only [execAging, whenActive, Host.Outcome.next.injEq] at x
  subst x
  have k_ageSecond := @kept_ageSecond P hP
  grind

theorem kept_execArrivalTimeout {t : State} (x : execArrivalTimeout s = .next t) (hs : P s) :
    P t := by
  simp only [execArrivalTimeout, whenActive, Host.Outcome.next.injEq] at x
  subst x
  have k_arrivalSecond := @kept_arrivalSecond P hP
  grind

theorem kept_execSetStation (e : StationEdit) {t : State} (x : execSetStation e s = .next t)
    (hs : P s) :
    P t := by
  simp only [execSetStation, whenActive, Host.Outcome.next.injEq] at x
  subst x
  have k_takeEdit := @kept_takeEdit P hP
  grind

theorem kept_execSetAlias (e : AliasEdit) {t : State} (x : execSetAlias e s = .next t) (hs : P s) :
    P t := by
  simp only [execSetAlias, whenActive, Host.Outcome.next.injEq] at x
  subst x
  have k_takeEdit := @kept_takeEdit P hP
  grind

theorem kept_execDelete (index : Byte) {t : State} (x : execDelete index s = .next t) (hs : P s) :
    P t := by
  simp only [execDelete, whenActive, Host.Outcome.next.injEq] at x
  subst x
  have k_takeEdit := @kept_takeEdit P hP
  grind

theorem kept_execSetRights (index : Byte) (manager print : Bool) {t : State}
    (x : execSetRights index manager print s = .next t) (hs : P s) :
    P t := by
  simp only [execSetRights, whenActive, Host.Outcome.next.injEq] at x
  subst x
  have k_takeEdit := @kept_takeEdit P hP
  grind

theorem kept_execRelease (index : Byte) {t : State} (x : execRelease index s = .next t) (hs : P s) :
    P t := by
  simp only [execRelease, whenActive, Host.Outcome.next.injEq] at x
  subst x
  have k_takeEdit := @kept_takeEdit P hP
  grind

theorem kept_execQuarantine (index : Byte) {t : State} (x : execQuarantine index s = .next t)
    (hs : P s) :
    P t := by
  simp only [execQuarantine, whenActive, Host.Outcome.next.injEq] at x
  subst x
  have k_takeEdit := @kept_takeEdit P hP
  grind

/-! ### Forwarding -/

theorem kept_countAt (p : Port) (c : ForwardCount) (hs : P s) : P (countAt p c s) := by
  unfold countAt
  have k_bump := @kept_bump P hP
  grind

theorem kept_intake (p : Port) (k : Key) (source : SourceEntry) (payload : List Byte) (hs : P s) :
    P (intake p k source payload s) := by
  unfold intake
  have k_bump := @kept_bump P hP
  split
  · exact k_bump _ hs
  · split
    · exact k_bump _ hs
    · split
      · exact k_bump _ hs
      · refine k_bump _ (hP.request _ (.inl ?_) hs)
        simp only [List.length_append, List.length_singleton]
        omega

theorem kept_copyTo (d : Dispatch) (q : Port) (hs : P s) : P (copyTo d q s) := by
  unfold copyTo
  have k_countAt := @kept_countAt P hP
  have k_offer := @kept_offer P hP
  grind

theorem kept_copies (d : Dispatch) : ∀ (ps : List Port) {s : State}, P s → P (copies d ps s)
  | [], _, h => h
  | p :: ps, _, h => kept_copies d ps (kept_copyTo hP d p h)

theorem kept_logUnknown (p : Port) (k : Key) (hs : P s) : P (logUnknown p k s) := by
  unfold logUnknown
  have h0 := kept_countAt hP p .unknownDest hs
  have k_bump := @kept_bump P hP
  have k_raise := @kept_raise P hP
  dsimp only
  generalize countAt p .unknownDest s = u at h0 ⊢
  split
  · refine hP.log _ (.inr (by simp)) ?_ h0
    intro w hw
    obtain ⟨v, hv, rfl⟩ := List.mem_map.1 hw
    split
    · right; dsimp only; omega
    · exact .inl hv
  · have h1 : P { u with unknownLog :=
        (if decide (Config.unknownRecords ≤ u.unknownLog.length) = true then u.unknownLog.tail
          else u.unknownLog) ++ [⟨k, p, 1⟩] } := by
      refine hP.log _ ?_ ?_ h0
      · by_cases hf : Config.unknownRecords ≤ u.unknownLog.length
        · right
          simp only [Config.unknownRecords] at hf
          simp only [Config.unknownRecords, hf, decide_true, if_true, List.length_append,
            List.length_tail, List.length_singleton]
          omega
        · left
          simp only [Config.unknownRecords] at hf
          simp only [Config.unknownRecords, hf, decide_false, Bool.false_eq_true, if_false,
            List.length_append, List.length_singleton]
          omega
      · intro w hw
        rcases List.mem_append.1 hw with hw | hw
        · split at hw
          · exact .inl (List.mem_of_mem_tail hw)
          · exact .inl hw
        · simp only [List.mem_singleton] at hw
          subst hw
          exact .inr ⟨by dsimp only; omega, by dsimp only; omega⟩
    grind

theorem kept_answerEcho (p : Port) (h : Header) (payload : List Byte) (hs : P s) :
    P (answerEcho p h payload s) := by
  unfold answerEcho
  have k_bump := @kept_bump P hP
  have k_countAt := @kept_countAt P hP
  have k_sendOwn := @kept_sendOwn P hP
  grind

theorem kept_toBridge (p : Port) (h : Header) (source : SourceEntry) (payload : List Byte)
    (hs : P s) :
    P (toBridge p h source payload s) := by
  unfold toBridge
  have k_answerEcho := @kept_answerEcho P hP
  have k_countAt := @kept_countAt P hP
  have k_echoReply := @kept_echoReply P hP
  have k_intake := @kept_intake P hP
  grind

theorem kept_toBroadcast (p : Port) (h : Header) (rid : Nat) (source : SourceEntry) (hs : P s) :
    P (toBroadcast p h rid source s) := by
  unfold toBroadcast
  have k_copies := @kept_copies P hP
  grind

theorem kept_toStation (p : Port) (h : Header) (rid : Nat) (source : SourceEntry) (e : Entry)
    (t : Station) (hs : P s) :
    P (toStation p h rid source e t s) := by
  unfold toStation
  have k_copies := @kept_copies P hP
  have k_copyTo := @kept_copyTo P hP
  have k_countAt := @kept_countAt P hP
  grind

theorem kept_toUnknown (p : Port) (h : Header) (rid : Nat) (source : SourceEntry) (hs : P s) :
    P (toUnknown p h rid source s) := by
  unfold toUnknown
  have k_copies := @kept_copies P hP
  have k_logUnknown := @kept_logUnknown P hP
  grind

theorem kept_toPrinter (p : Port) (h : Header) (source : SourceEntry) (i : Nat) (t : Target)
    (l : Fin 4) (payload : List Byte) (hs : P s) :
    P (toPrinter p h source i t l payload s) := by
  unfold toPrinter
  have k_countAt := @kept_countAt P hP
  have k_printFrame := @kept_printFrame P hP
  grind

theorem kept_dispatch (p : Port) (h : Header) (rid : Nat) (source : SourceEntry)
    (payload : List Byte) (hs : P s) :
    P (dispatch p h rid source payload s) := by
  unfold dispatch
  have k_countAt := @kept_countAt P hP
  have k_toBridge := @kept_toBridge P hP
  have k_toBroadcast := @kept_toBroadcast P hP
  have k_toPrinter := @kept_toPrinter P hP
  have k_toStation := @kept_toStation P hP
  have k_toUnknown := @kept_toUnknown P hP
  grind

theorem kept_fromSource (p : Port) (h : Header) (rid : Nat) (payload : List Byte) (hs : P s) :
    P (fromSource p h rid payload s) := by
  unfold fromSource
  have k_count := @kept_countAt P hP
  have k_echo := @kept_echoReply P hP
  have k_dispatch := @kept_dispatch P hP
  split
  · exact k_count _ _ hs
  · rename_i hk
    have k_learn := @kept_learn P hP s h.src p (h.kind ≠ kindObject) (by simpa using hk)
    grind

theorem kept_claim (x : Seg) (h : Header) (rid : Nat) (hs : P s) : P (claim x h rid s) := by
  unfold claim
  have k_claimDefence := @kept_claimDefence P hP
  have k_countAt := @kept_countAt P hP
  grind

theorem kept_judgeFrame (p : Port) (h : Header) (rid : Nat) (hs : P s) :
    P (judgeFrame p h rid s) := by
  unfold judgeFrame
  have k_claim := @kept_claim P hP
  have k_countAt := @kept_countAt P hP
  have k_fromSource := @kept_fromSource P hP
  have k_testFrameHanded := @kept_testFrameHanded P hP
  grind

theorem kept_takeFrame (p : Port) (hs : P s) : P (takeFrame p s) := by
  unfold takeFrame
  have k_judgeFrame := @kept_judgeFrame P hP
  have k_releaseRef := @hP.unref
  have f_handover := @kept_set_handover P hP
  grind

theorem kept_execTakeFrame (p : Port) (commission : Bool) {t : State}
    (x : execTakeFrame p commission s = .next t) (hs : P s) :
    P t := by
  simp only [execTakeFrame, whenActive, Host.Outcome.next.injEq] at x
  subst x
  have k_settleSweep := @kept_settleSweep P hP
  have k_takeFrame := @kept_takeFrame P hP
  have f_commission := @kept_set_commission P hP
  grind

/-! ### Image -/

omit hP in
theorem keys_of_holds {e : Entry} {k : Key} (h : e.holds k = true) : k ∈ e.keys := by
  cases k <;> simp only [Entry.holds, decide_eq_true_eq] at h <;>
    simp [Entry.keys, Entry.keyOn, h]

theorem kept_loadEntries : ∀ (l : List (Nat × Entry)) {s : State} {b : Bool},
    (∀ i e, (i, e) ∈ l → i < Config.directoryPositions ∧ e.kind ≠ .bridge) → P s →
    P (loadEntries l (s, b)).1
  | [], _, _, _, h => h
  | (i, e) :: l, s, b, hl, h => by
    have hl' := fun i e he => hl i e (List.mem_cons_of_mem _ he)
    have hi := hl i e (by simp)
    unfold loadEntries
    split
    · exact kept_loadEntries l hl' h
    · rename_i hn
      simp only [not_or, Bool.not_eq_true, List.any_eq_false] at hn
      refine kept_loadEntries l hl' (hP.entry _ _ (.inl hi.1) hi.2 ?_ h)
      intro x hx k hk hxk
      have hu : s.unheld k = true := by simpa using hn.2 k (keys_of_holds hk)
      have := unheld_spec hu x hx
      rw [this] at hxk
      cases hxk

theorem kept_startLine (n : Line) (t : LineSetting) (hs : P s) : P (startLine n t s) := by
  unfold startLine
  have k_enableLine := @kept_enableLine P hP
  have k_modLine := @kept_modLine P hP
  grind

theorem kept_startLines (d : Load) (hs : P s) :
    P (startLine .lp2 (d.lines .lp2) (startLine .lp1 (d.lines .lp1) s)) :=
  kept_startLine hP _ _ (kept_startLine hP _ _ hs)

theorem kept_putInForce (d : Load) (hc : d.config.ok) (hn : d.steps.length ≤ Config.sweepSteps)
 (hs : P s) : P (putInForce d s) := by
  unfold putInForce
  refine kept_foldl hP (fun p h => kept_startPort hP p _ _ _ h) _ (kept_startLines hP d
    (kept_beginWindow hP (hP.steps _ (.inl hn) (hP.rest (hP.settings d.config (fun _ => hc) hs) rfl))))

omit hP in
theorem loadEntry_spec {r : List Byte} {i : Nat} {e : Entry} (h : loadEntry r = some (i, e)) :
    i < Config.directoryPositions ∧ e.kind ≠ .bridge := by
  have hb : ∀ b : Byte, b.toNat < Config.directoryPositions := fun b => by
    have := b.isLt
    simp only [Config.directoryPositions]; omega
  unfold loadEntry at h
  dsimp only at h
  repeat' split at h
  all_goals first
    | cases h; done
    | (cases h; exact ⟨hb _, by simp⟩)

omit hP in
theorem imageEntries_spec {bs : List Byte} {i : Nat} {e : Entry}
    (h : some (i, e) ∈ imageEntries bs) : i < Config.directoryPositions ∧ e.kind ≠ .bridge := by
  obtain ⟨k, -, hk⟩ := List.mem_map.1 h
  exact loadEntry_spec hk

omit hP in
theorem insertByIndex_mem {a e : Nat × Entry} : ∀ {l : List (Nat × Entry)},
    a ∈ insertByIndex e l → a = e ∨ a ∈ l
  | [], h => by simpa [insertByIndex] using h
  | d :: l, h => by
    unfold insertByIndex at h
    split at h
    · simpa using h
    · rcases List.mem_cons.1 h with h | h
      · exact .inr (h ▸ List.mem_cons_self ..)
      · exact (insertByIndex_mem h).imp_right (List.mem_cons_of_mem _)

omit hP in
/-- Putting entries in index order adds none. -/
theorem inIndexOrder_mem {a : Nat × Entry} : ∀ {l : List (Nat × Entry)}, a ∈ inIndexOrder l → a ∈ l
  | e :: l, h => by
    rcases insertByIndex_mem h with h | h
    · exact h ▸ List.mem_cons_self ..
    · exact List.mem_cons_of_mem _ (inIndexOrder_mem h)

theorem kept_loadImage (bs : List Byte) (hs : P s) : P (loadImage bs s) := by
  have h0 := kept_loadEntries hP (inIndexOrder ((imageEntries bs).filterMap id))
    (b := (imageEntries bs).any Option.isNone)
    (fun i e h => by
      obtain ⟨o, ho, he⟩ := List.mem_filterMap.1 (inIndexOrder_mem h)
      cases (show o = some (i, e) from he)
      exact imageEntries_spec ho) hs
  have h1 := kept_putInForce hP (loadParts bs).1 (loadConfig_ok _) (loadParts_steps bs) h0
  unfold loadImage
  dsimp only
  split
  · exact kept_raise hP _ h1
  · exact h1

theorem kept_loadNothing (fault : Bool) (hs : P s) : P (loadNothing fault s) := by
  have h1 := kept_putInForce hP .default Settings.default_ok (by simp [Load.default]) hs
  unfold loadNothing
  dsimp only
  split
  · exact kept_raise hP _ h1
  · exact h1

theorem kept_imageLoadEnd (r : ImageRead) (hs : P s) : P (imageLoadEnd r s) := by
  unfold imageLoadEnd
  have k_loadImage := @kept_loadImage P hP
  have k_loadNothing := @kept_loadNothing P hP
  grind

theorem kept_saveComplete (r : ImageWrite) (hs : P s) : P (saveComplete r s) := by
  unfold saveComplete
  split
  · exact hs
  · rename_i v _
    have h0 : P { s with save := none } := kept_set_save hP none hs
    dsimp only
    split
    · exact kept_sendReply hP _ _ _ (kept_bump hP _
        (hP.serial (s := { s with save := none }) _ (fun h => written_wf h _) h0))
    · exact kept_sendReply hP _ _ _ (kept_raise hP _ (kept_bump hP _
        (hP.serial (s := { s with save := none }) .failedSave (fun _ => rfl) h0)))

theorem kept_abandonSave (hs : P s) : P (abandonSave s) := by
  unfold abandonSave
  split
  · exact hP.serial (s := { s with save := none }) .failedSave (fun _ => rfl) (kept_set_save hP none hs)
  · exact hs

theorem kept_execImageLoadEnd (r : ImageRead) {t : State} (x : execImageLoadEnd r s = .next t)
    (hs : P s) :
    P t := by
  simp only [execImageLoadEnd, whenActive, Host.Outcome.next.injEq] at x
  subst x
  have k_imageLoadEnd := @kept_imageLoadEnd P hP
  grind

theorem kept_execSaveComplete (r : ImageWrite) {t : State} (x : execSaveComplete r s = .next t)
    (hs : P s) :
    P t := by
  simp only [execSaveComplete, whenActive, Host.Outcome.next.injEq] at x
  subst x
  have k_saveComplete := @kept_saveComplete P hP
  grind

/-! ### Requests -/

theorem kept_Carried.refuse (st : Status) (hs : P s) : P (Carried.refuse st s).state := by
  unfold Carried.refuse
  try simp only [Carried.refuse, Carried.refuseAt, Carried.done]
  grind

theorem kept_Carried.refuseAt (st : Status) (position : Nat) (hs : P s) :
    P (Carried.refuseAt st position s).state := by
  unfold Carried.refuseAt
  try simp only [Carried.refuse, Carried.refuseAt, Carried.done]
  grind

theorem kept_Carried.done (hs : P s) : P (Carried.done s).state := by
  unfold Carried.done
  try simp only [Carried.refuse, Carried.refuseAt, Carried.done]
  grind

theorem kept_answerWith (q : Request) (c : Carried) (hs : P c.state) : P (answerWith q c) :=
  kept_sendReply hP _ _ _ hs

theorem kept_becomeCurrent {q : Request} {rest : List Request} (hq : s.requests = q :: rest)
 (hs : P s) : P (becomeCurrent q rest s) :=
  hP.rest (hP.request rest (.inr (by simp [hq])) hs) rfl

theorem kept_takeCall {α : Type} {want : Call → Option α} {work : Request → α → State → State}
    (hw : ∀ q a {s : State}, P s → P (work q a s)) (hs : P s) : P (takeCall want work s) := by
  unfold takeCall
  split
  · exact hs
  · rename_i q rest hq
    have h0 := kept_becomeCurrent hP hq hs
    split
    · exact hs
    · split
      · exact hs
      · refine kept_endCurrent hP ?_
        split
        · exact kept_sendReply hP _ _ _ h0
        · exact hw _ _ h0

theorem kept_carry {α : Type} {want : Call → Option α} {work : Side → α → State → Carried}
    (hw : ∀ d a {s : State}, P s → P (work d a s).state) (hs : P s) : P (carry want work s) :=
  kept_takeCall hP (fun _ _ _ h => kept_answerWith hP _ _ (hw _ _ h)) hs

theorem kept_settled {c : Carried} (hs : P c.state) : P c.settled.state := kept_settleSweep hP hs

theorem kept_takeMalformed (hs : P s) : P (takeMalformed s) := by
  unfold takeMalformed
  split
  · exact hs
  · rename_i q rest hq
    split
    · exact hs
    · exact kept_endCurrent hP (kept_sendReply hP _ _ _ (kept_becomeCurrent hP hq hs))

theorem kept_carryEdits (count : Nat) (edits : List Edit) (hs : P s) :
    P (carryEdits count edits s).state := by
  unfold carryEdits
  split
  · exact hs
  · split
    · exact hs
    · rename_i x
      exact kept_runBatch hP x hs

theorem kept_carryPurgeLearned (hs : P s) : P (carryPurgeLearned s).state :=
  kept_removeAll hP _ _ hs

theorem kept_carryReadEntries (side : Side) (start count : Nat) (hs : P s) :
    P (carryReadEntries side start count s).state := by
  unfold carryReadEntries
  try simp only [Carried.refuse, Carried.refuseAt, Carried.done]
  have k_refuse := @kept_refuse P hP
  grind

theorem kept_carryFindEntry (side d : Side) (v : Nat) (hs : P s) :
    P (carryFindEntry side d v s).state := by
  unfold carryFindEntry
  try simp only [Carried.refuse, Carried.refuseAt, Carried.done]
  have k_refuse := @kept_refuse P hP
  grind

theorem kept_carryReadUnknownLog (side : Side) (hs : P s) : P (carryReadUnknownLog side s).state :=
  hP.log [] (.inl (by simp)) (by simp) hs

theorem kept_onJob {slot : Nat} {f : Job → Carried}
    (hf : ∀ j, P (f j).state) (hs : P s) : P (onJob slot s f).state := by
  unfold onJob
  split
  · exact hs
  · split
    · exact hs
    · exact hf _

theorem kept_onLine {b : Byte} {f : Line → Carried} (hf : ∀ n, P (f n).state) (hs : P s) :
    P (onLine b s f).state := by
  unfold onLine
  split
  · exact hs
  · exact hf _

theorem kept_onPort {b : Byte} {f : Port → Carried} (hf : ∀ p, P (f p).state) (hs : P s) :
    P (onPort b s f).state := by
  unfold onPort
  split
  · exact hs
  · exact hf _

omit hP in
theorem eq_pair {α β : Type} (x : α × β) : x = (x.1, x.2) := rfl

theorem kept_carryReadJobs (side : Side) (start count : Nat) (hs : P s) :
    P (carryReadJobs side start count s).state := by
  unfold carryReadJobs
  split <;> exact hs

theorem kept_carryHoldJob (slot : Nat) (hs : P s) : P (carryHoldJob slot s).state :=
  kept_onJob hP (fun _ => kept_holdJob hP _ _ rfl hs) hs

theorem kept_carryReleaseJob (slot : Nat) (hs : P s) : P (carryReleaseJob slot s).state :=
  kept_onJob hP (fun _ => kept_releaseJob hP _ _ hs) hs

theorem kept_carryCancelJob (slot : Nat) (hs : P s) : P (carryCancelJob slot s).state :=
  kept_onJob hP (fun _ => kept_askEnd hP _ _ hs) hs

theorem kept_carryMoveJob (slot : Nat) (target level : Byte) (hs : P s) :
    P (carryMoveJob slot target level s).state := by
  unfold carryMoveJob
  split
  · exact hs
  · refine kept_onJob hP (fun j => ?_) hs
    split
    · exact kept_moveJob hP _ _ _ _ rfl hs
    · exact hs

theorem kept_carryFlush (hs : P s) : P (carryFlush s).state :=
  kept_flushSlots hP _ _ _ rfl hs

theorem kept_carrySetLine (line : Byte) (enable : Option Bool) (mode : Byte)
    (mask : Option (BitVec 4)) (hs : P s) : P (carrySetLine line enable mode mask s).state := by
  refine kept_onLine hP (fun n => ?_) hs
  split
  · exact hs
  · split
    · exact hs
    · exact kept_applySetLine hP _ _ _ _ hs

theorem kept_carryResetLine (n : Line) (hs : P s) : P (carryResetLine n s).state := by
  unfold carryResetLine
  split
  · exact hs
  · exact kept_resetTaken hP _ hs

theorem kept_carryResumeLine (line : Byte) (hs : P s) : P (carryResumeLine line s).state :=
  kept_onLine hP (fun n => kept_resume hP n hs) hs

theorem kept_carryRotateLine (line level : Byte) (hs : P s) :
    P (carryRotateLine line level s).state := by
  refine kept_onLine hP (fun n => ?_) hs
  split
  · exact hs
  · exact kept_rotateTo hP _ _ hs

theorem kept_carryPeekNext (line : Byte) (hs : P s) : P (carryPeekNext line s).state :=
  kept_onLine hP (fun _ => hs) hs

theorem kept_setAdmin (p : Port) (on : Bool) (hs : P s) : P (setAdmin p on s) := by
  unfold setAdmin
  have k_portOff := @kept_portOff P hP
  have k_portOn := @kept_portOn P hP
  have k_stuckOnLeavingOff := @kept_stuckOnLeavingOff P hP
  grind

theorem kept_carrySetPort (port : Byte) (on bcast accept : Option Bool) (hs : P s) :
    P (carrySetPort port on bcast accept s).state := by
  refine kept_onPort hP (fun p => ?_) hs
  split
  · exact hs
  · dsimp only [Carried.done]
    split
    · exact kept_setAdmin hP _ _ (kept_modService hP _ _ hs)
    · exact kept_modService hP _ _ hs

theorem kept_carryRestartPort (port : Byte) (hs : P s) : P (carryRestartPort port s).state := by
  refine kept_onPort hP (fun p => ?_) hs
  split
  · exact hs
  · exact kept_restartPort hP _ hs

theorem kept_carryRestartInterface (code : Byte) (hs : P s) :
    P (carryRestartInterface code s).state := by
  unfold carryRestartInterface
  try simp only [Carried.refuse, Carried.refuseAt, Carried.done]
  have k_refuse := @kept_refuse P hP
  have k_restartInterface := @kept_restartInterface P hP
  grind

theorem kept_carryReadPorts (side : Side) (hs : P s) : P (carryReadPorts side s).state := by
  unfold carryReadPorts
  try simp only [Carried.refuse, Carried.refuseAt, Carried.done]
  grind

theorem kept_carryLoadSteps (ts : List StepGiven) (hs : P s) : P (carryLoadSteps ts s).state := by
  unfold carryLoadSteps
  repeat' split
  all_goals first
    | exact hs
    | skip
  dsimp only [Carried.done]
  refine hP.steps _ (.inl ?_) hs
  exact le_trans (List.length_filterMap_le _ _) (by omega)

theorem kept_carryStartSweep (interval : Option Nat) (hs : P s) :
    P (carryStartSweep interval s).state := by
  unfold carryStartSweep
  try simp only [Carried.refuse, Carried.refuseAt, Carried.done]
  have k_refuse := @kept_refuse P hP
  have k_startSweep := @kept_startSweep P hP
  grind

theorem kept_carryRunStep (k : Nat) (hs : P s) : P (carryRunStep k s).state := by
  unfold carryRunStep
  try simp only [Carried.refuse, Carried.refuseAt, Carried.done]
  have k_refuse := @kept_refuse P hP
  have k_runStep := @kept_runStep P hP
  grind

theorem kept_carryReadEvents (side : Side) (hs : P s) : P (carryReadEvents side s).state := by
  unfold carryReadEvents
  try simp only [Carried.refuse, Carried.refuseAt, Carried.done]
  have k_clearFlags := @kept_clearFlags P hP
  grind

theorem kept_carrySetEventMask (mask : BitVec 16) (hs : P s) : P (carrySetEventMask mask s).state :=
  kept_foldl hP (fun _ h => kept_becomeCounting hP (fun h => kept_raiseLowInNotice hP h) h) _
    (kept_set_mask hP mask hs)

theorem kept_carrySetConfig (count : Nat) (gs : List SettingGiven) (hs : P s) :
    P (carrySetConfig count gs s).state := by
  unfold carrySetConfig
  split
  · exact hs
  · split
    · exact hs
    · split
      · exact hs
      · rename_i hf
        exact hP.settings _ (fun hc => Settings.foldl_give_ok hc (firstFailing_none hf)) hs

theorem kept_beginSave (q : Request) (hs : P s) : P (beginSave q s) := by
  unfold beginSave
  have f_save := @kept_set_save P hP
  grind

theorem kept_clearBlocks (hs : P s) : P (clearBlocks s) := by
  unfold clearBlocks
  have h0 := kept_clearLine hP .lp2 (kept_clearLine hP .lp1 (hP.cleared (kept_clearDirectory hP hs)))
  have h1 := hP.log [] (.inl (by simp)) (by simp) (kept_clearSweep hP h0)
  exact kept_clearFlags hP (kept_beginWindow hP (kept_foldl hP (fun p h => kept_clearPort hP p h) _ h1))

theorem kept_clearAll (q : Request) (hs : P s) : P (clearAll q s) := by
  unfold clearAll
  have k_clearBlocks := @kept_clearBlocks P hP
  have k_loseHeld := @kept_loseHeld P hP
  have k_sendReply := @kept_sendReply P hP
  have f_heldReply := @kept_set_heldReply P hP
  grind

theorem kept_execEditEntries {t : State} (x : execEditEntries s = .next t) (hs : P s) : P t := by
  cases x
  exact kept_whenActive hP (fun h => kept_carry hP (fun _ _ _ h => kept_carryEdits hP _ _ h) h) hs

theorem kept_execMalformedRequestTaken {t : State} (x : execMalformedRequestTaken s = .next t)
    (hs : P s) :
    P t := by
  simp only [execMalformedRequestTaken, whenActive, Host.Outcome.next.injEq] at x
  subst x
  have k_takeMalformed := @kept_takeMalformed P hP
  grind

theorem kept_execPurgeLearned {t : State} (x : execPurgeLearned s = .next t) (hs : P s) : P t := by
  cases x
  exact kept_whenActive hP (fun h => kept_carry hP (fun _ _ _ h => kept_carryPurgeLearned hP h) h) hs

theorem kept_execReadEntries {t : State} (x : execReadEntries s = .next t) (hs : P s) : P t := by
  cases x
  exact kept_whenActive hP (fun h => kept_carry hP (fun _ _ _ h => kept_carryReadEntries hP _ _ _ h) h) hs

theorem kept_execFindEntry {t : State} (x : execFindEntry s = .next t) (hs : P s) : P t := by
  cases x
  exact kept_whenActive hP (fun h => kept_carry hP (fun _ _ _ h => kept_carryFindEntry hP _ _ _ h) h) hs

theorem kept_execReadUnknownLog {t : State} (x : execReadUnknownLog s = .next t) (hs : P s) :
    P t := by
  cases x
  exact kept_whenActive hP (fun h => kept_carry hP (fun _ _ _ h => kept_carryReadUnknownLog hP _ h) h) hs

theorem kept_execReadJobs {t : State} (x : execReadJobs s = .next t) (hs : P s) : P t := by
  cases x
  exact kept_whenActive hP (fun h => kept_carry hP (fun _ _ _ h => kept_carryReadJobs hP _ _ _ h) h) hs

theorem kept_execHoldJob {t : State} (x : execHoldJob s = .next t) (hs : P s) : P t := by
  cases x
  exact kept_whenActive hP (fun h => kept_carry hP (fun _ _ _ h => kept_carryHoldJob hP _ h) h) hs

theorem kept_execReleaseJob {t : State} (x : execReleaseJob s = .next t) (hs : P s) : P t := by
  cases x
  exact kept_whenActive hP (fun h => kept_carry hP (fun _ _ _ h => kept_carryReleaseJob hP _ h) h) hs

theorem kept_execCancelJob {t : State} (x : execCancelJob s = .next t) (hs : P s) : P t := by
  cases x
  exact kept_whenActive hP (fun h => kept_carry hP (fun _ _ _ h => kept_carryCancelJob hP _ h) h) hs

theorem kept_execMoveJob {t : State} (x : execMoveJob s = .next t) (hs : P s) : P t := by
  cases x
  exact kept_whenActive hP (fun h => kept_carry hP (fun _ _ _ h => kept_carryMoveJob hP _ _ _ h) h) hs

theorem kept_execFlushSpool {t : State} (x : execFlushSpool s = .next t) (hs : P s) : P t := by
  cases x
  exact kept_whenActive hP (fun h => kept_carry hP (fun _ _ _ h => kept_carryFlush hP h) h) hs

theorem kept_execSetLine {t : State} (x : execSetLine s = .next t) (hs : P s) : P t := by
  cases x
  exact kept_whenActive hP (fun h => kept_carry hP (fun _ _ _ h => kept_carrySetLine hP _ _ _ _ h) h) hs

theorem kept_execResetLine {t : State} (x : execResetLine s = .next t) (hs : P s) : P t := by
  cases x
  exact kept_whenActive hP (fun h => kept_carry hP (fun _ _ _ h => kept_carryResetLine hP _ h) h) hs

theorem kept_execResumeLine {t : State} (x : execResumeLine s = .next t) (hs : P s) : P t := by
  cases x
  exact kept_whenActive hP (fun h => kept_carry hP (fun _ _ _ h => kept_carryResumeLine hP _ h) h) hs

theorem kept_execRotateLine {t : State} (x : execRotateLine s = .next t) (hs : P s) : P t := by
  cases x
  exact kept_whenActive hP (fun h => kept_carry hP (fun _ _ _ h => kept_carryRotateLine hP _ _ h) h) hs

theorem kept_execPeekNext {t : State} (x : execPeekNext s = .next t) (hs : P s) : P t := by
  cases x
  exact kept_whenActive hP (fun h => kept_carry hP (fun _ _ _ h => kept_carryPeekNext hP _ h) h) hs

theorem kept_execSetPort {t : State} (x : execSetPort s = .next t) (hs : P s) : P t := by
  cases x
  exact kept_whenActive hP (fun h => kept_carry hP (fun _ _ _ h => kept_settled hP (kept_carrySetPort hP _ _ _ _ h)) h) hs

theorem kept_execRestartPort {t : State} (x : execRestartPort s = .next t) (hs : P s) : P t := by
  cases x
  exact kept_whenActive hP (fun h => kept_carry hP (fun _ _ _ h => kept_settled hP (kept_carryRestartPort hP _ h)) h) hs

theorem kept_execRestartInterface {t : State} (x : execRestartInterface s = .next t) (hs : P s) :
    P t := by
  cases x
  exact kept_whenActive hP (fun h => kept_carry hP (fun _ _ _ h => kept_settled hP (kept_carryRestartInterface hP _ h)) h) hs

theorem kept_execReadPorts {t : State} (x : execReadPorts s = .next t) (hs : P s) : P t := by
  cases x
  exact kept_whenActive hP (fun h => kept_carry hP (fun _ _ _ h => kept_carryReadPorts hP _ h) h) hs

theorem kept_execLoadSteps {t : State} (x : execLoadSteps s = .next t) (hs : P s) : P t := by
  cases x
  exact kept_whenActive hP (fun h => kept_carry hP (fun _ _ _ h => kept_carryLoadSteps hP _ h) h) hs

theorem kept_execStartSweep {t : State} (x : execStartSweep s = .next t) (hs : P s) : P t := by
  cases x
  exact kept_whenActive hP (fun h => kept_carry hP (fun _ _ _ h => kept_carryStartSweep hP _ h) h) hs

theorem kept_execStopSweep {t : State} (x : execStopSweep s = .next t) (hs : P s) : P t := by
  cases x
  exact kept_whenActive hP
    (fun h => kept_resumeSweep hP (kept_carry hP (fun _ _ _ h => kept_stopSweep hP h) h)) hs

theorem kept_execRunStep {t : State} (x : execRunStep s = .next t) (hs : P s) : P t := by
  cases x
  exact kept_whenActive hP (fun h => kept_carry hP (fun _ _ _ h => kept_carryRunStep hP _ h) h) hs

theorem kept_execReadSweep {t : State} (x : execReadSweep s = .next t) (hs : P s) : P t := by
  cases x
  exact kept_whenActive hP (fun h => kept_carry hP (fun _ _ _ h => h) h) hs

theorem kept_execReadEvents {t : State} (x : execReadEvents s = .next t) (hs : P s) : P t := by
  cases x
  exact kept_whenActive hP (fun h => kept_carry hP (fun _ _ _ h => kept_carryReadEvents hP _ h) h) hs

theorem kept_execSetEventMask {t : State} (x : execSetEventMask s = .next t) (hs : P s) : P t := by
  cases x
  exact kept_whenActive hP (fun h => kept_carry hP (fun _ _ _ h => kept_carrySetEventMask hP _ h) h) hs

theorem kept_execReadConfig {t : State} (x : execReadConfig s = .next t) (hs : P s) : P t := by
  cases x
  exact kept_whenActive hP (fun h => kept_carry hP (fun _ _ _ h => h) h) hs

theorem kept_execSetConfig {t : State} (x : execSetConfig s = .next t) (hs : P s) : P t := by
  cases x
  exact kept_whenActive hP (fun h => kept_carry hP (fun _ _ _ h => kept_carrySetConfig hP _ _ h) h) hs

theorem kept_execSaveImage {t : State} (x : execSaveImage s = .next t) (hs : P s) : P t := by
  cases x
  exact kept_whenActive hP (fun h => kept_takeCall hP (fun _ _ _ h => kept_beginSave hP _ h) h) hs

theorem kept_execClearAll {t : State} (x : execClearAll s = .next t) (hs : P s) : P t := by
  cases x
  exact kept_whenActive hP (fun h => kept_takeCall hP (fun _ _ _ h => kept_clearAll hP _ h) h) hs

/-! ### Counters -/

theorem kept_clearCounts : ∀ (cs : List Counter) {s : State}, P s → P (clearCounts cs s)
  | [], _, h => h
  | c :: cs, _, h => kept_clearCounts cs (hP.clear c h)

theorem kept_carryReadCounters (side : Side) (group : Nat) (clear : Bool) (hs : P s) :
    P (carryReadCounters side group clear s).state := by
  unfold carryReadCounters
  try simp only [Carried.refuse, Carried.refuseAt, Carried.done]
  have k_clearCounts := @kept_clearCounts P hP
  have k_refuse := @kept_refuse P hP
  grind

theorem kept_execReadCounters {t : State} (x : execReadCounters s = .next t) (hs : P s) : P t := by
  cases x
  exact kept_whenActive hP (fun h => kept_carry hP (fun _ _ _ h => kept_carryReadCounters hP _ _ _ h) h) hs

/-! ### Power -/

theorem kept_release (hs : P s) : P (release s) :=
  kept_foldl hP (fun i h => kept_reportSignals hP i h) _ (kept_set_loading hP true hs)

theorem kept_powerOn (hs : P s) : P (powerOn s) := by
  have h0 := hP.reset (kept_set_powered hP true hs)
  unfold powerOn
  split
  · exact hs
  · dsimp only
    split
    · exact h0
    · exact kept_release hP h0

theorem kept_resetAssert (hs : P s) : P (resetAssert s) := by
  have h0 := kept_set_resetLow hP true hs
  unfold resetAssert
  split
  · exact hs
  · split
    · exact hP.reset h0
    · exact h0

theorem kept_resetRelease (hs : P s) : P (resetRelease s) := by
  have h0 := kept_set_resetLow hP false hs
  unfold resetRelease
  split
  · split
    · exact kept_release hP (hP.reset h0)
    · exact h0
  · exact hs

theorem kept_powerLoss (hs : P s) : P (powerLoss s) := by
  unfold powerLoss
  split
  · exact hP.reset (kept_set_powered hP false hs)
  · exact hs

theorem kept_tick (hs : P s) : P (tick s) := by
  refine hP.rest hs ?_
  unfold tick msTick
  dsimp only
  split <;> rfl

theorem kept_idle (hs : P s) : P (idle s) := by
  unfold idle
  simp only [whenActive]
  have k_tick := @kept_tick P hP
  grind

theorem kept_execPowerOn {t : State} (x : execPowerOn s = .next t) (hs : P s) : P t := by
  simp only [execPowerOn, whenActive, Host.Outcome.next.injEq] at x
  subst x
  have k_powerOn := @kept_powerOn P hP
  grind

theorem kept_execResetAssert {t : State} (x : execResetAssert s = .next t) (hs : P s) : P t := by
  simp only [execResetAssert, whenActive, Host.Outcome.next.injEq] at x
  subst x
  have k_resetAssert := @kept_resetAssert P hP
  grind

theorem kept_execResetRelease {t : State} (x : execResetRelease s = .next t) (hs : P s) : P t := by
  simp only [execResetRelease, whenActive, Host.Outcome.next.injEq] at x
  subst x
  have k_resetRelease := @kept_resetRelease P hP
  grind

theorem kept_execPowerLoss {t : State} (x : execPowerLoss s = .next t) (hs : P s) : P t := by
  simp only [execPowerLoss, whenActive, Host.Outcome.next.injEq] at x
  subst x
  have k_powerLoss := @kept_powerLoss P hP
  grind

/-- A property that each basic write keeps is kept by every command. -/
theorem kept_exec {c : Instr} {t : State} (x : exec c s = .next t) (hs : P s) : P t := by
  cases c with
  | powerOn => exact kept_execPowerOn hP x hs
  | resetAssert => exact kept_execResetAssert hP x hs
  | resetRelease => exact kept_execResetRelease hP x hs
  | imageLoadEnd r => exact kept_execImageLoadEnd hP _ x hs
  | carrierRise x => exact kept_execCarrierRise hP _ x hs
  | coaxByte x b => exact kept_execCoaxByte hP _ _ x hs
  | carrierFall x => exact kept_execCarrierFall hP _ x hs
  | segmentTakeFrame x => exact kept_execSegmentTakeFrame hP _ x hs
  | deferQuiet x => exact kept_execDeferQuiet hP _ x hs
  | segmentSent x => exact kept_execSegmentSent hP _ x hs
  | collision x => exact kept_execCollision hP _ x hs
  | retryWaitExpiry x => exact kept_execRetryWaitExpiry hP _ x hs
  | stuck x => exact kept_execStuck hP _ x hs
  | stuckHeld x => exact kept_execStuckHeld hP _ x hs
  | unterminated x => exact kept_execUnterminated hP _ x hs
  | signalPresent l => exact kept_execSignalPresent hP _ x hs
  | signalLost l => exact kept_execSignalLost hP _ x hs
  | retrainPauseExpiry l => exact kept_execRetrainPauseExpiry hP _ x hs
  | trained l => exact kept_execTrained hP _ x hs
  | trainingTimeout l => exact kept_execTrainingTimeout hP _ x hs
  | frameStart l => exact kept_execFrameStart hP _ x hs
  | linkByte l b => exact kept_execLinkByte hP _ _ x hs
  | symbolError l => exact kept_execSymbolError hP _ x hs
  | frameEnd l => exact kept_execFrameEnd hP _ x hs
  | linkTakeFrame l => exact kept_execLinkTakeFrame hP _ x hs
  | linkSent l => exact kept_execLinkSent hP _ x hs
  | gapExpiry l => exact kept_execGapExpiry hP _ x hs
  | clockLoss i => exact kept_execClockLoss hP _ x hs
  | clockHoldExpiry i => exact kept_execClockHoldExpiry hP _ x hs
  | takeFrame p commission => exact kept_execTakeFrame hP _ _ x hs
  | arrivalTimeout => exact kept_execArrivalTimeout hP x hs
  | aging => exact kept_execAging hP x hs
  | setStation e => exact kept_execSetStation hP _ x hs
  | setAlias e => exact kept_execSetAlias hP _ x hs
  | delete index => exact kept_execDelete hP _ x hs
  | setRights index manager print => exact kept_execSetRights hP _ _ _ x hs
  | release index => exact kept_execRelease hP _ x hs
  | quarantine index => exact kept_execQuarantine hP _ x hs
  | purgeLearned => exact kept_execPurgeLearned hP x hs
  | readEntries => exact kept_execReadEntries hP x hs
  | findEntry => exact kept_execFindEntry hP x hs
  | readUnknownLog => exact kept_execReadUnknownLog hP x hs
  | readJobs => exact kept_execReadJobs hP x hs
  | holdJob => exact kept_execHoldJob hP x hs
  | releaseJob => exact kept_execReleaseJob hP x hs
  | cancelJob => exact kept_execCancelJob hP x hs
  | moveJob => exact kept_execMoveJob hP x hs
  | flushSpool => exact kept_execFlushSpool hP x hs
  | ackPulse n => exact kept_execAckPulse hP _ x hs
  | ackTimeout n => exact kept_execAckTimeout hP _ x hs
  | selectChange n level => exact kept_execSelectChange hP _ _ x hs
  | paperOutChange n level => exact kept_execPaperOutChange hP _ _ x hs
  | faultChange n level => exact kept_execFaultChange hP _ _ x hs
  | busyChange n level => exact kept_execBusyChange hP _ _ x hs
  | busyLimitExpiry n => exact kept_execBusyLimitExpiry hP _ x hs
  | stallRetryExpiry n => exact kept_execStallRetryExpiry hP _ x hs
  | initPulseEnd n => exact kept_execInitPulseEnd hP _ x hs
  | resetLine => exact kept_execResetLine hP x hs
  | setLine => exact kept_execSetLine hP x hs
  | resumeLine => exact kept_execResumeLine hP x hs
  | rotateLine => exact kept_execRotateLine hP x hs
  | peekNext => exact kept_execPeekNext hP x hs
  | windowExpiry => exact kept_execWindowExpiry hP x hs
  | minuteExpiry => exact kept_execMinuteExpiry hP x hs
  | testFrameTimer p => exact kept_execTestFrameTimer hP _ x hs
  | testFrameRetry p => exact kept_execTestFrameRetry hP _ x hs
  | holdTimerExpiry p => exact kept_execHoldTimerExpiry hP _ x hs
  | setPort => exact kept_execSetPort hP x hs
  | restartPort => exact kept_execRestartPort hP x hs
  | restartInterface => exact kept_execRestartInterface hP x hs
  | readPorts => exact kept_execReadPorts hP x hs
  | intervalExpiry => exact kept_execIntervalExpiry hP x hs
  | echoTimerExpiry => exact kept_execEchoTimerExpiry hP x hs
  | loadSteps => exact kept_execLoadSteps hP x hs
  | startSweep => exact kept_execStartSweep hP x hs
  | stopSweep => exact kept_execStopSweep hP x hs
  | runStep => exact kept_execRunStep hP x hs
  | readSweep => exact kept_execReadSweep hP x hs
  | readEvents => exact kept_execReadEvents hP x hs
  | setEventMask => exact kept_execSetEventMask hP x hs
  | readCounters => exact kept_execReadCounters hP x hs
  | readConfig => exact kept_execReadConfig hP x hs
  | setConfig => exact kept_execSetConfig hP x hs
  | saveImage => exact kept_execSaveImage hP x hs
  | saveComplete r => exact kept_execSaveComplete hP _ x hs
  | clearAll => exact kept_execClearAll hP x hs
  | editEntries => exact kept_execEditEntries hP x hs
  | malformedRequestTaken => exact kept_execMalformedRequestTaken hP x hs
  | powerLoss => exact kept_execPowerLoss hP x hs

/-- A property that each basic write keeps is kept by every step. -/
theorem kept_step {t : State} (x : step s = .next t) (hs : P s) : P t := by
  unfold step at x
  split at x
  · cases x
    exact kept_idle hP hs
  · exact kept_exec hP x (hP.rest hs rfl)

end Sys2Proof.Machine
end

