-- ==== Sys2Proof/Laws/Operations.lean ====
section
/-! SUPPORT. What the shared operations touch: frames the part makes, the test slot, the printer lines. -/

namespace Sys2Proof.Machine

variable {s t u : State}

/-! ### Nothing but the frame memory, the flags, the notices and the counters -/

theorem sameButFrames_refl (s : State) : sameButFrames s s := rfl

theorem sameButFrames_trans (h : sameButFrames s t) (k : sameButFrames t u) : sameButFrames s u := by
  cases s; cases t; cases u
  simp_all [sameButFrames]

/-- The fields of two states that are the same but for frames, one by one. -/
theorem sameButFrames_fields (h : sameButFrames s t) :
    t.pending = s.pending ∧ t.powered = s.powered ∧ t.resetLow = s.resetLow ∧
      t.commission = s.commission ∧ t.time = s.time ∧ t.choices = s.choices ∧ t.serial = s.serial ∧
      t.segs = s.segs ∧ t.links = s.links ∧ t.ifaces = s.ifaces ∧ t.slots = s.slots ∧ t.dir = s.dir ∧
      t.handover = s.handover ∧ t.unknownLog = s.unknownLog ∧ t.jobs = s.jobs ∧
      t.nextOrder = s.nextOrder ∧ t.lines = s.lines ∧ t.window = s.window ∧ t.segWin = s.segWin ∧
      t.linkWin = s.linkWin ∧ t.marks = s.marks ∧ t.service = s.service ∧ t.sweep = s.sweep ∧
      t.requests = s.requests ∧ t.current = s.current ∧ t.save = s.save ∧
      t.heldReply = s.heldReply ∧ t.config = s.config ∧ t.mask = s.mask ∧ t.loading = s.loading := by
  cases s; cases t
  simp_all [sameButFrames]

theorem bumpBy_same (c : Counter) (n : Nat) (s : State) : sameButFrames s (bumpBy c n s) := by
  unfold bumpBy
  split <;> rfl

theorem bump_same (c : Counter) (s : State) : sameButFrames s (bump c s) := bumpBy_same c 1 s

theorem setFlag_same (f : Flag) (s : State) : sameButFrames s (setFlag f s) := rfl

theorem newRecord_same (n : Nat) (bs : List Byte) (s : State) : sameButFrames s (newRecord n bs s) := rfl

theorem addRef_same (r : Nat) (s : State) : sameButFrames s (addRef r s) := by
  unfold addRef
  split <;> rfl

theorem releaseRef_same (r : Nat) (s : State) : sameButFrames s (releaseRef r s) := by
  unfold releaseRef
  split
  · split <;> rfl
  · rfl

theorem releaseEntries_same : ∀ (es : List QueueEntry) (s : State),
    sameButFrames s (releaseEntries es s)
  | [], _ => rfl
  | e :: es, s => sameButFrames_trans (releaseRef_same e.record s) (releaseEntries_same es _)

theorem offer_same (p : Port) (e : QueueEntry) (s : State) : sameButFrames s (offer p e s).2 := by
  unfold offer
  split
  · exact bump_same _ s
  · exact sameButFrames_trans (sameButFrames_trans (t := { s with
      queues := s.queues.set p (s.queues.get p ++ [e]) }) rfl (addRef_same _ _)) (bump_same _ _)

theorem ownRecordWith_same {low : State → State} (hl : ∀ s, sameButFrames s (low s)) (bs : List Byte)
    (s : State) : sameButFrames s (ownRecordWith low bs s).2 := by
  unfold ownRecordWith
  dsimp only
  split
  · exact bump_same _ s
  · dsimp only
    split
    · exact sameButFrames_trans (newRecord_same _ _ s) (hl _)
    · exact newRecord_same _ _ s

theorem sendOwnWith_same {low : State → State} (hl : ∀ s, sameButFrames s (low s)) (p : Port) (d : Key)
    (k : Byte) (bs : List Byte) (s : State) : sameButFrames s (sendOwnWith low p d k bs s).2 := by
  have h := ownRecordWith_same hl bs s
  unfold sendOwnWith
  split
  · next e => rwa [e] at h
  · next r w e =>
    rw [e] at h
    have g := offer_same p (ownEntry p d k bs.length r) w
    split <;> next e' => rw [e'] at g; exact sameButFrames_trans (sameButFrames_trans h g) (releaseRef_same _ _)

theorem makeNoticeWith_same {low : State → State} (hl : ∀ s, sameButFrames s (low s)) (s : State) :
    sameButFrames s (makeNoticeWith low s) := by
  unfold makeNoticeWith
  split
  · rfl
  · split
    · exact bump_same _ s
    · next p d _ =>
      have h := sendOwnWith_same hl p d kindNotice (noticePayload p.side s) s
      split
      · next w e =>
        rw [e] at h
        exact sameButFrames_trans (sameButFrames_trans (u := { w with noticeOut := true }) h rfl)
          (bump_same _ _)
      · next w _ e =>
        rw [e] at h
        exact sameButFrames_trans h (bump_same _ _)

theorem raiseWith_same {low : State → State} (hl : ∀ s, sameButFrames s (low s)) (f : Flag) (s : State) :
    sameButFrames s (raiseWith low f s) := by
  unfold raiseWith becomeCounting
  split
  · rfl
  · dsimp only
    split
    · split
      · rfl
      · exact sameButFrames_trans (setFlag_same f s) (makeNoticeWith_same hl _)
    · rfl

/-- Raising a flag touches frames, flags, notices and counters only (R190, R191). -/
theorem raise_same (f : Flag) (s : State) : sameButFrames s (raise f s) :=
  raiseWith_same (raiseWith_same (low := setFlag .poolLow) (fun s => setFlag_same _ s) .poolLow) f s

theorem ownRecord_same (bs : List Byte) (s : State) : sameButFrames s (ownRecord bs s).2 :=
  ownRecordWith_same (raise_same _) bs s

/-- A frame the part makes touches frames, flags, notices and counters only (R35). -/
theorem sendOwn_same (p : Port) (d : Key) (k : Byte) (bs : List Byte) (s : State) :
    sameButFrames s (sendOwn p d k bs s).2 :=
  sendOwnWith_same (raise_same _) p d k bs s

theorem recordTaken_same (s : State) : sameButFrames s (recordTaken s) := by
  unfold recordTaken
  dsimp only
  split
  · exact sameButFrames_trans (t := { s with
      pool := ⟨s.pool.free - 1, s.pool.frameHeld + 1, s.pool.spoolHeld⟩
      records := s.records.put id s.nextRecord ⟨1, [], 1⟩, nextRecord := s.nextRecord + 1 }) rfl
      (raise_same _ _)
  · rfl

/-! ### Records made before -/

/-- From `s` to `t` the records named below `n` are as they were, and no such name is given again. -/
def Older (n : Nat) (s t : State) : Prop :=
  n ≤ s.nextRecord → n ≤ t.nextRecord ∧ ∀ r < n, t.records.find r = s.records.find r

theorem older_trans {n : Nat} (h : Older n s t) (k : Older n t u) : Older n s u := fun hn => by
  obtain ⟨a, b⟩ := h hn
  obtain ⟨c, d⟩ := k a
  exact ⟨c, fun r hr => (d r hr).trans (b r hr)⟩

theorem older_rfl {n : Nat} (h : t.nextRecord = s.nextRecord) (k : t.records = s.records) : Older n s t :=
  fun hn => ⟨h ▸ hn, fun _ _ => by rw [k]⟩

theorem older_bump {n : Nat} (c : Counter) (s : State) : Older n s (bump c s) := older_rfl rfl rfl

theorem older_newRecord {n : Nat} (k : Nat) (bs : List Byte) (s : State) : Older n s (newRecord k bs s) :=
  fun hn => ⟨Nat.le_succ_of_le hn, fun r hr => by
    simp only [newRecord, Table.find_put, takeFrameBlocks]
    rw [if_neg (by omega)]⟩

theorem older_addRef {n r : Nat} (hr : n ≤ r) (s : State) : Older n s (addRef r s) := by
  unfold addRef
  split
  · exact fun hn => ⟨hn, fun k hk => by simp only [Table.find_put]; rw [if_neg (by omega)]⟩
  · exact older_rfl rfl rfl

theorem older_releaseRef {n r : Nat} (hr : n ≤ r) (s : State) : Older n s (releaseRef r s) := by
  unfold releaseRef
  split
  · split
    · exact fun hn => ⟨hn, fun k hk => by simp only [Table.find_drop]; rw [if_neg (by omega)]⟩
    · exact fun hn => ⟨hn, fun k hk => by simp only [Table.find_put]; rw [if_neg (by omega)]⟩
  · exact older_rfl rfl rfl

theorem older_offer {n : Nat} (p : Port) {e : QueueEntry} (he : n ≤ e.record) (s : State) :
    Older n s (offer p e s).2 := by
  unfold offer
  split
  · exact older_bump _ s
  · exact older_trans (older_trans (t := { s with queues := s.queues.set p (s.queues.get p ++ [e]) })
      (older_rfl rfl rfl) (older_addRef he _)) (older_bump _ _)

theorem older_sendOwnWith {n : Nat} {low : State → State} (hl : ∀ s, Older n s (low s)) (p : Port)
    (d : Key) (k : Byte) (bs : List Byte) (s : State) : Older n s (sendOwnWith low p d k bs s).2 := by
  intro hn
  unfold sendOwnWith ownRecordWith
  dsimp only
  split
  · next e =>
    split at e
    · cases e; exact older_bump _ s hn
    · cases e
  · next r w e =>
    split at e
    · cases e
    · cases e
      have h : ∀ v, Older n v (if fellLow s.pool.free v then low v else v) := fun v => by
        split
        · exact hl v
        · exact older_rfl rfl rfl
      have g := older_trans (older_trans (older_newRecord (n := n) (max 1 (blocksFor bs.length)) bs s) (h _))
        (older_offer (n := n) p (e := ownEntry p d k bs.length s.nextRecord) hn _)
      split <;> next e' => rw [e'] at g; exact older_trans g (older_releaseRef hn _) hn

theorem older_raiseWith {n : Nat} {low : State → State} (hl : ∀ s, Older n s (low s)) (f : Flag)
    (s : State) : Older n s (raiseWith low f s) := by
  unfold raiseWith becomeCounting makeNoticeWith
  dsimp only
  split
  · exact older_rfl rfl rfl
  · split
    · split
      · exact older_rfl rfl rfl
      · split
        · exact older_rfl rfl rfl
        · split
          · exact older_rfl rfl rfl
          · next k _ p d _ =>
            have h := older_trans (t := setFlag f s) (older_rfl rfl rfl) (older_sendOwnWith (n := n) hl p d kindNotice
              (noticePayload p.side (setFlag f s)) (setFlag f s))
            split
            · next w e =>
              rw [e] at h
              exact older_trans h (older_rfl rfl rfl)
            · next w _ e =>
              rw [e] at h
              exact older_trans h (older_rfl rfl rfl)
    · exact older_rfl rfl rfl

/-- Raising a flag leaves every record that was there before as it was (R190, R191). -/
theorem find_raise (f : Flag) (s : State) {r : Nat} (h : r < s.nextRecord) :
    (raise f s).records.find r = s.records.find r :=
  (older_raiseWith (n := s.nextRecord) (older_raiseWith (low := setFlag .poolLow)
    (fun _ => older_rfl rfl rfl) .poolLow) f s (Nat.le_refl _)).2 r h

/-! ### TEST frames -/

theorem testFrame_length (s : State) (p : Port) (v : PortTest) : (s.testFrame p v).length = 64 := by
  simp [State.testFrame, testPayload]

/-- With a block free a fresh TEST frame is placed in an empty slot (R45, R162). -/
theorem placeTest_fresh {p : Port} {v : PortTest} (hv : s.testOf p = some v)
    (hp : v.phase.sends = true) (hs : s.slots.get p = none) (hf : 0 < s.pool.free) :
    freshTest p v s (placeTest p s) := by
  have hn : max 1 (blocksFor (s.testFrame p v).length) = 1 := by rw [testFrame_length]; rfl
  let w := newRecord 1 (s.testFrame p v) s
  let u := if fellLow s.pool.free w then raise .poolLow w else w
  have he : ownRecord (s.testFrame p v) s = (some s.nextRecord, u) := by
    unfold ownRecord ownRecordWith
    dsimp only
    rw [hn, if_neg (by omega)]
  have hu : sameButFrames s u := by
    show sameButFrames s (if _ then _ else _)
    split
    · exact sameButFrames_trans (newRecord_same _ _ s) (raise_same _ _)
    · exact newRecord_same _ _ s
  have hr : u.records.find s.nextRecord = some ⟨1, s.testFrame p v, 1⟩ := by
    have : w.records.find s.nextRecord = some ⟨1, s.testFrame p v, 1⟩ := by
      simp [w, newRecord, Table.find_put]
    show (if _ then _ else _ : State).records.find _ = _
    split
    · rw [find_raise _ _ (by simp [w, newRecord]), this]
    · exact this
  obtain ⟨_, _, _, _, _, _, _, _, _, _, hslots, _, _, _, _, _, _, _, _, _, _, hservice, _⟩ :=
    sameButFrames_fields hu
  have hpl : placeTest p s = modTest p (fun t => { t with
      wait := .none, timer := some (t.timer.getD (frameTime t.phase)) })
      { u with slots := u.slots.set p (some s.nextRecord) } := by
    unfold placeTest
    rw [hv]
    dsimp only
    rw [if_neg (by simp [hp]), if_neg (by simp [hs]), he]
  rw [hpl]
  refine ⟨by simp [modTest], ?_, ?_⟩
  · show State.payload _ _ = _
    unfold State.payload modTest
    simp only [modService_records]
    rw [hr]
  · unfold State.testOf at hv ⊢
    simp [modTest, hservice, hv]

/-! ### What a reception's first block comes to -/

/-- With no block free a reception has no record. -/
theorem startRecord_none (h : s.pool.free = 0) : startRecord s = (none, s) := by
  unfold startRecord
  rw [if_pos h]

/-- With one free it has a new, empty record of one block (R34, R39). -/
theorem startRecord_some (h : 0 < s.pool.free) :
    startRecord s = (some s.nextRecord, recordTaken s) := by
  unfold startRecord recordTaken fellLow newRecord takeFrameBlocks
  rw [if_neg (by omega)]
  by_cases e : s.pool.free = s.config.poolLow <;> grind

/-! ### Counting -/

/-- A count read after counting (R16). -/
theorem count_bumpBy (c d : Counter) (n : Nat) (hn : n ≠ 0) (s : State) :
    (bumpBy c n s).count d = if c = d then min Config.counterMax (s.count c + n) else s.count d := by
  unfold bumpBy State.count
  rw [if_neg hn]
  simp only [Table.find_put]
  split <;> simp

theorem count_bump (c d : Counter) (s : State) :
    (bump c s).count d = if c = d then min Config.counterMax (s.count c + 1) else s.count d :=
  count_bumpBy c d 1 (by decide) s

/-! ### Printer lines -/

theorem lineJobState_lines (n : Line) (st : JobState) (s : State) :
    (lineJobState n st s).lines = s.lines := by
  unfold lineJobState modLineJob modJob
  split
  · split <;> rfl
  · rfl

/-- The INIT pulse at one line (R136). -/
theorem startInit_lines (n : Line) (s : State) :
    (startInit n s).lines = s.lines.set n (s.lines.get n).pulsing := by
  unfold startInit
  rw [lineJobState_lines]
  rfl

/-- A line at the load's end, and no other line (R144). -/
theorem startLine_lines (n : Line) (t : LineSetting) (s : State) :
    (startLine n t s).lines =
      s.lines.set n ((s.lines.get n).loaded t.enabled t.rotating t.holdMask) := by
  unfold startLine enableLine LineState.loaded
  by_cases e : t.enabled = true <;> by_cases d : (s.lines.get n).state = .disabled <;>
    simp [e, d, startInit_lines, LineState.pulsing]

/-- A line at CLEAR-ALL, and no other line (R144). -/
theorem clearLine_lines (n : Line) (s : State) :
    (clearLine n s).lines = s.lines.set n (s.lines.get n).cleared := by
  unfold clearLine LineState.cleared
  by_cases d : (s.lines.get n).state = .disabled <;>
    simp [d, startInit_lines, LineState.pulsing, LineState.quietened]

end Sys2Proof.Machine
end

