-- ==== Sys2Proof/Laws/Requests.lean ====
section
/-! SUPPORT. How a request is taken, what holds of every command, and the small facts of the receivers. -/

namespace Sys2Proof.Machine

/-- Every command has a next state. -/
theorem exec_next (c : Instr) (s : State) : ∃ t, exec c s = .next t := by
  cases c <;> exact ⟨_, rfl⟩

/-- With no loop's result waiting, the sweep engine has nothing to take. -/
theorem settleSweep_of_none {s : State} (h : s.resultWaits = false) : settleSweep s = s := by
  unfold settleSweep
  unfold State.resultWaits at h
  split <;> simp_all

/-- The same, after work that has left the sweep as it was. -/
theorem settleSweep_of_sweep {s t : State} (h : s.resultWaits = false) (e : t.sweep = s.sweep) :
    settleSweep t = t := by
  apply settleSweep_of_none
  unfold State.resultWaits at *
  rw [e]
  exact h

/-- A request at the head of the queue that a command takes is answered with what carrying it out comes
to (R187). -/
theorem carry_at {α : Type} {s : State} {q : Request} {rest : List Request} {c : Call}
    (h : s.headIs q rest c) (want : Call → Option α) (work : Side → α → State → Carried) {a : α}
    (hw : want c = some a) :
    whenActive (carry want work) s =
      answered q (work q.side a (becomeCurrent q rest s)).status
        (work q.side a (becomeCurrent q rest s)).results
        (work q.side a (becomeCurrent q rest s)).state := by
  obtain ⟨h1, h2, h3, h4⟩ := h
  unfold whenActive carry takeCall
  simp only [h1, if_true, h2, h3, hw]
  rw [if_neg]
  · rfl
  rintro ⟨h5, h6⟩
  change s.save.isSome = true at h5
  rcases h4 with h4 | h4 <;> simp_all

/-- A request that is no read request is answered BUSY while a save is in flight, whatever it asks
(R187). -/
theorem carry_busy {α : Type} {s : State} {q : Request} {rest : List Request} {c : Call}
    (h1 : s.active = true) (h2 : s.requests = q :: rest) (h3 : readRequest q = .call c)
    (h4 : c.isRead = false) (h5 : s.save.isSome = true) (want : Call → Option α)
    (work : Side → α → State → Carried) {a : α} (hw : want c = some a) :
    whenActive (carry want work) s = answered q .busy [] (becomeCurrent q rest s) := by
  unfold whenActive carry takeCall
  simp only [h1, if_true, h2, h3, hw]
  rw [if_pos]
  · rfl
  exact ⟨h5, h4⟩

/-- On its own side a key is its own form of destination (R178). -/
theorem echoKey_side (s : State) (k : Key) : s.echoKey k k.side = k := by
  unfold State.echoKey State.lookup
  split
  · next e h =>
    have held : e.holds k = true := by
      split at h
      · simpa using List.find?_some h
      · simpa using List.find?_some h
      · contradiction
    cases k <;> simp_all [Entry.holds, Entry.keyOn, Key.side]
  · rfl

/-- With no pass between two steps, a STOP-SWEEP lets nothing begin (R183). -/
theorem resumeSweep_of_none {s : State} (h : s.sweep.run = none ∨ s.sweep.outstanding ≠ none) :
    resumeSweep s = s := by
  unfold resumeSweep
  rw [if_neg]
  rintro ⟨h1, h2⟩
  rcases h with h | h <;> simp_all

/-- A receiver not taken up by the port's own transmission is as it was after work done without it
(R17). -/
theorem keepReceiver_seg {x : Seg} {s : State} (f : State → State)
    (h : (s.segs.get x).rx.own = false) :
    ((keepReceiver (.seg x) f s).segs.get x).rx = (s.segs.get x).rx := by
  cases x <;> simp [keepReceiver, h, modSeg]

/-- The same at a link (R32). -/
theorem keepReceiver_link {l : Link} {s : State} (f : State → State)
    (h : (s.links.get l).rx.own = false) :
    ((keepReceiver (.link l) f s).links.get l).rx = (s.links.get l).rx := by
  cases l <;> simp [keepReceiver, h, modLink]

end Sys2Proof.Machine
end

