-- ==== Sys2Proof/Laws/Still.lean ====
section
/-! SUPPORT. What the units leave as it stands: power, pins, time, serial memory, configuration, mask,
window clock, loading, the save in flight and the waiting commands. -/

namespace Sys2Proof.Machine

set_option Elab.async false

/-- The fields that only power, time, the load, the save and the management requests change. -/
def State.still (s : State) := (s.pending, s.powered, s.resetLow, s.commission, s.time, s.serial, s.config, s.mask, s.window, s.loading, s.save)

variable {s : State}

theorem still_setFlag (f : Flag) : (setFlag f s).still = s.still := by
  unfold setFlag
  rfl

theorem still_clearFlags : (clearFlags s).still = s.still := by
  unfold clearFlags
  rfl

theorem still_whenActive (f : State → State) (hl : ∀ s, (f s).still = s.still) :
    (whenActive f s).still = s.still := by
  unfold whenActive
  (repeat' split) <;> first
    | rfl
    | grind [State.still]

theorem still_modSeg (x : Seg) (f : SegPort → SegPort) : (modSeg x f s).still = s.still := by
  unfold modSeg
  rfl

theorem still_modLink (l : Link) (f : LinkPort → LinkPort) : (modLink l f s).still = s.still := by
  unfold modLink
  rfl

theorem still_modIface (i : Iface) (f : IfaceState → IfaceState) :
    (modIface i f s).still = s.still := by
  unfold modIface
  rfl

theorem still_modLine (n : Line) (f : LineState → LineState) : (modLine n f s).still = s.still := by
  unfold modLine
  rfl

theorem still_modService (p : Port) (f : PortService → PortService) :
    (modService p f s).still = s.still := by
  unfold modService
  rfl

theorem still_modJob (slot : Nat) (f : Job → Job) : (modJob slot f s).still = s.still := by
  unfold modJob
  (repeat' split) <;> rfl

theorem still_modSweep (f : Sweep → Sweep) : (modSweep f s).still = s.still := by
  unfold modSweep
  rfl

theorem still_putEntry (i : Nat) (e : Entry) : (putEntry i e s).still = s.still := by
  unfold putEntry
  (repeat' split) <;> rfl

theorem still_dropEntry (i : Nat) : (dropEntry i s).still = s.still := by
  unfold dropEntry
  (repeat' split) <;> rfl

theorem still_modStation (i : Nat) (f : Station → Station) :
    (modStation i f s).still = s.still := by
  unfold modStation
  grind [still_putEntry]

theorem still_bumpBy (c : Counter) (n : Nat) : (bumpBy c n s).still = s.still := by
  unfold bumpBy
  (repeat' split) <;> rfl

theorem still_bump (c : Counter) : (bump c s).still = s.still := by
  unfold bump
  grind [still_bumpBy]

theorem still_clearCount (c : Counter) : (clearCount c s).still = s.still := by
  unfold clearCount
  rfl

theorem still_freeOrder : (freeOrder s).2.still = s.still := by
  unfold freeOrder
  rfl

theorem still_addRef (rid : Nat) : (addRef rid s).still = s.still := by
  unfold addRef
  (repeat' split) <;> rfl

theorem still_releaseRef (rid : Nat) : (releaseRef rid s).still = s.still := by
  unfold releaseRef
  (repeat' split) <;> rfl

theorem still_takeFrameBlocks (n : Nat) : (takeFrameBlocks n s).still = s.still := by
  unfold takeFrameBlocks
  rfl

theorem still_newRecord (n : Nat) (payload : List Byte) :
    (newRecord n payload s).still = s.still := by
  unfold newRecord
  (repeat' split) <;> rfl

theorem still_offer (p : Port) (e : QueueEntry) : (offer p e s).2.still = s.still := by
  unfold offer
  (repeat' split) <;> first
    | rfl
    | grind [State.still, still_bump, still_addRef]

theorem still_ownRecordWith (low : State → State) (payload : List Byte) (hl : ∀ s, (low s).still = s.still) :
    (ownRecordWith low payload s).2.still = s.still := by
  unfold ownRecordWith
  grind [still_bump, still_newRecord]

theorem still_sendOwnWith (low : State → State) (p : Port) (dest : Key) (kind : Byte) (payload : List Byte) (hl : ∀ s, (low s).still = s.still) :
    (sendOwnWith low p dest kind payload s).2.still = s.still := by
  unfold sendOwnWith
  grind [still_releaseRef, still_offer, still_ownRecordWith]

theorem still_makeNoticeWith (low : State → State) (hl : ∀ s, (low s).still = s.still) :
    (makeNoticeWith low s).still = s.still := by
  unfold makeNoticeWith
  (repeat' split) <;> first
    | rfl
    | grind [State.still, still_bump, still_sendOwnWith]

theorem still_becomeCounting (low : State → State) (hl : ∀ s, (low s).still = s.still) :
    (becomeCounting low s).still = s.still := by
  unfold becomeCounting
  grind [still_makeNoticeWith]

theorem still_raiseWith (low : State → State) (f : Flag) (hl : ∀ s, (low s).still = s.still) :
    (raiseWith low f s).still = s.still := by
  unfold raiseWith
  grind [still_setFlag, still_becomeCounting]

theorem still_raiseLowInNotice : (raiseLowInNotice s).still = s.still := by
  unfold raiseLowInNotice
  grind [still_setFlag, still_raiseWith]

theorem still_raise (f : Flag) : (raise f s).still = s.still := by
  unfold raise
  grind [still_raiseWith, still_raiseLowInNotice]

theorem still_ownRecord (payload : List Byte) : (ownRecord payload s).2.still = s.still := by
  unfold ownRecord
  grind [still_ownRecordWith, still_raise]

theorem still_sendOwn (p : Port) (dest : Key) (kind : Byte) (payload : List Byte) :
    (sendOwn p dest kind payload s).2.still = s.still := by
  unfold sendOwn
  grind [still_sendOwnWith, still_raise]

theorem still_startRecord : (startRecord s).2.still = s.still := by
  unfold startRecord
  grind [still_newRecord, still_raise]

theorem still_storeByte (rid : Nat) (b : Byte) : (storeByte rid b s).2.still = s.still := by
  unfold storeByte
  (repeat' split) <;> first
    | rfl
    | grind [State.still, still_takeFrameBlocks, still_raise]

theorem still_releaseInFlight (p : Port) : (releaseInFlight p s).still = s.still := by
  unfold releaseInFlight
  grind [still_releaseRef]

theorem still_idleTx (p : Port) : (idleTx p s).still = s.still := by
  unfold idleTx
  grind [still_modSeg, still_modLink]

theorem still_abortTx (p : Port) : (abortTx p s).still = s.still := by
  unfold abortTx
  grind [still_releaseInFlight, still_idleTx]

theorem still_emptySlot (p : Port) : (emptySlot p s).still = s.still := by
  unfold emptySlot
  (repeat' split) <;> first
    | rfl
    | grind [State.still, still_releaseRef]

theorem still_releaseEntries  (xs : List QueueEntry) : (releaseEntries  xs s).still = s.still := by
  induction xs generalizing s with
  | nil => rfl
  | cons x xs ih =>
  unfold releaseEntries
  grind [still_releaseRef]

theorem still_purgePort (p : Port) (why : PurgeReason) : (purgePort p why s).still = s.still := by
  unfold purgePort
  (repeat' split) <;> first
    | rfl
    | grind [State.still, still_bumpBy, still_abortTx, still_emptySlot, still_releaseEntries]

theorem still_purgeSourceAt (i : Nat) (p : Port) : (purgeSourceAt i p s).still = s.still := by
  unfold purgeSourceAt
  (repeat' split) <;> first
    | rfl
    | grind [State.still, still_bumpBy, still_releaseEntries]

theorem still_purgeSource (i : Nat) : (purgeSource i s).still = s.still := by
  unfold purgeSource
  generalize hq : Port.all = xs
  clear hq
  induction xs generalizing s with
  | nil => rfl
  | cons x xs ih => rw [List.foldl_cons, ih]; grind [still_purgeSourceAt]

theorem still_removeEntry (i : Nat) : (removeEntry i s).still = s.still := by
  unfold removeEntry
  (repeat' split) <;> first
    | rfl
    | grind [State.still, still_dropEntry]

theorem still_spoolTake : (spoolTake s).2.still = s.still := by
  unfold spoolTake
  (repeat' split) <;> rfl

theorem still_spoolTook (before : Pool) : (spoolTook before s).still = s.still := by
  unfold spoolTook
  grind [still_raise]

theorem still_returnSpoolBlocks (n : Nat) : (returnSpoolBlocks n s).still = s.still := by
  unfold returnSpoolBlocks
  rfl

theorem still_sendStatus (u : Key) (tag : Byte) (a : Answer) :
    (sendStatus u tag a s).still = s.still := by
  unfold sendStatus
  grind [still_bump, still_sendOwn]

theorem still_endJob (slot : Nat) (e : JobEnd) : (endJob slot e s).still = s.still := by
  unfold endJob
  (repeat' split) <;> first
    | rfl
    | grind [State.still, still_bump, still_raise, still_returnSpoolBlocks, still_sendStatus]

theorem still_abortWhere (test : Job → Bool) (why : AbortReason) (xs : List Nat) :
    (abortWhere test why xs s).still = s.still := by
  induction xs generalizing s with
  | nil => rfl
  | cons x xs ih =>
  unfold abortWhere
  grind [still_endJob]

theorem still_abortArriving (keys : List Key) : (abortArriving keys s).still = s.still := by
  unfold abortArriving
  grind [still_abortWhere]

theorem still_arrivalSecond : (arrivalSecond s).still = s.still := by
  unfold arrivalSecond
  (repeat' split) <;> first
    | rfl
    | grind [State.still, still_abortWhere]

theorem still_clearJobs : (clearJobs s).still = s.still := by
  unfold clearJobs
  rfl

theorem still_modLineJob (n : Line) (f : Job → Job) : (modLineJob n f s).still = s.still := by
  unfold modLineJob
  grind [still_modJob]

theorem still_lineJobState (n : Line) (st : JobState) : (lineJobState n st s).still = s.still := by
  unfold lineJobState
  grind [still_modLineJob]

theorem still_presentByte (n : Line) : (presentByte n s).still = s.still := by
  unfold presentByte
  grind [still_modLine]

theorem still_startBusyWait (n : Line) : (startBusyWait n s).still = s.still := by
  unfold startBusyWait
  grind [still_modLine]

theorem still_enterStall (n : Line) (c : StallCause) : (enterStall n c s).still = s.still := by
  unfold enterStall
  grind [still_modLine, still_bump, still_raise, still_lineJobState]

theorem still_judgeInputs (n : Line) : (judgeInputs n s).still = s.still := by
  unfold judgeInputs
  grind [still_presentByte, still_startBusyWait, still_enterStall]

theorem still_feed (n : Line) : (feed n s).still = s.still := by
  unfold feed
  grind [still_modLine, still_lineJobState, still_judgeInputs]

theorem still_endInputStall (n : Line) : (endInputStall n s).still = s.still := by
  unfold endInputStall
  grind [still_feed]

theorem still_stallPending (n : Line) (c : StallCause) : (stallPending n c s).still = s.still := by
  unfold stallPending
  grind [still_enterStall, still_endInputStall]

theorem still_takeJob (n : Line) (c : Choice) : (takeJob n c s).still = s.still := by
  unfold takeJob
  grind [still_modLine, still_modJob, still_bump, still_sendStatus, still_judgeInputs]

theorem still_choose (n : Line) : (choose n s).still = s.still := by
  unfold choose
  grind [still_takeJob]

theorem still_tellLines (t : Target) : (tellLines t s).still = s.still := by
  unfold tellLines
  grind [still_freeOrder, still_choose]

theorem still_joinReady (slot : Nat) : (joinReady slot s).still = s.still := by
  unfold joinReady
  (repeat' split) <;> first
    | rfl
    | grind [State.still, still_modJob]

theorem still_announce (slot : Nat) : (announce slot s).still = s.still := by
  unfold announce
  grind [still_tellLines]

theorem still_freeLine (n : Line) : (freeLine n s).still = s.still := still_modLine n _

theorem still_leaveService (n : Line) : (leaveService n s).still = s.still := by
  unfold leaveService
  grind [still_freeLine, still_choose]

theorem still_endLineJobBy {leave : Line → State → State}
    (hl : ∀ n s, (leave n s).still = s.still) (n : Line) (e : JobEnd) :
    (endLineJobBy leave n e s).still = s.still := by
  unfold endLineJobBy
  grind [still_endJob]

theorem still_endLineJob (n : Line) (e : JobEnd) : (endLineJob n e s).still = s.still :=
  still_endLineJobBy (fun n _ => still_leaveService n) n e

theorem still_askLine {leave : Line → State → State} (hl : ∀ n s, (leave n s).still = s.still)
    (n : Line) (e : JobEnd) : (askLine leave n e s).still = s.still := by
  unfold askLine
  grind [still_modLine, still_endJob, still_lineJobState, still_endLineJobBy]

theorem still_askEndBy {leave : Line → State → State} (hl : ∀ n s, (leave n s).still = s.still)
    (slot : Nat) (e : JobEnd) : (askEndBy leave slot e s).still = s.still := by
  unfold askEndBy
  grind [still_modJob, still_endJob, still_askLine]

theorem still_askEnd (slot : Nat) (e : JobEnd) : (askEnd slot e s).still = s.still :=
  still_askEndBy (fun n _ => still_leaveService n) slot e

theorem still_afterByte (n : Line) : (afterByte n s).still = s.still := by
  unfold afterByte
  grind [still_judgeInputs, still_stallPending]

theorem still_copyCheck (n : Line) : (copyCheck n s).still = s.still := by
  unfold copyCheck
  grind [still_modJob, still_bump, still_endLineJob, still_afterByte]

theorem still_ackPulse (n : Line) : (ackPulse n s).still = s.still := by
  unfold ackPulse
  grind [still_modLine, still_bump, still_modLineJob, still_endLineJob, still_copyCheck]

theorem still_ackTimeout (n : Line) : (ackTimeout n s).still = s.still := by
  unfold ackTimeout
  grind [still_modLine, still_bump, still_enterStall, still_stallPending, still_endLineJob]

theorem still_startInit (n : Line) : (startInit n s).still = s.still := by
  unfold startInit
  grind [still_modLine, still_lineJobState]

theorem still_leaveResetting (n : Line) : (leaveResetting n s).still = s.still := by
  unfold leaveResetting
  grind [still_modLine, still_feed, still_choose]

theorem still_resetTaken (n : Line) : (resetTaken n s).still = s.still := by
  unfold resetTaken
  grind [still_modLine, still_bump, still_endJob, still_startInit]

theorem still_clearLine (n : Line) : (clearLine n s).still = s.still := by
  unfold clearLine
  grind [still_modLine, still_startInit]

theorem still_disableLine (n : Line) : (disableLine n s).still = s.still := by
  unfold disableLine
  grind [still_modLine]

theorem still_enableLine (n : Line) : (enableLine n s).still = s.still := by
  unfold enableLine
  grind [still_modLine, still_startInit]

theorem still_applySetLine (n : Line) (enable rotating : Option Bool) (mask : Option (BitVec 4)) :
    (applySetLine n enable rotating mask s).still = s.still := by
  unfold applySetLine
  grind [still_modLine, still_choose, still_disableLine, still_enableLine]

theorem still_resume (n : Line) : (resume n s).still = s.still := by
  unfold resume
  grind [still_feed]

theorem still_rotateTo (n : Line) (k : Fin 4) : (rotateTo n k s).still = s.still := by
  unfold rotateTo
  grind [still_modLine, still_choose]

theorem still_inputChanged (n : Line) (bad : Option StallCause) :
    (inputChanged n bad s).still = s.still := by
  unfold inputChanged
  grind [still_modLine, still_judgeInputs, still_endInputStall, still_choose, still_leaveResetting]

theorem still_changeInput (n : Line) (now : Bool) (level : Bool) (put : LineState → LineState) (bad : Option StallCause) :
    (changeInput n now level put bad s).still = s.still := by
  unfold changeInput
  try simp only [whenActive]
  grind [still_whenActive, still_modLine, still_inputChanged]

theorem still_execAckPulse (n : Line) {t : State} (x : execAckPulse n s = .next t) : t.still = s.still := by
  simp only [execAckPulse, Host.Outcome.next.injEq] at x
  subst x
  try simp only [whenActive]
  grind [still_whenActive, still_ackPulse]

theorem still_execAckTimeout (n : Line) {t : State} (x : execAckTimeout n s = .next t) : t.still = s.still := by
  simp only [execAckTimeout, Host.Outcome.next.injEq] at x
  subst x
  try simp only [whenActive]
  grind [still_whenActive, still_ackTimeout]

theorem still_execSelectChange (n : Line) (level : Bool) {t : State} (x : execSelectChange n level s = .next t) : t.still = s.still := by
  simp only [execSelectChange, Host.Outcome.next.injEq] at x
  subst x
  grind [still_changeInput]

theorem still_execPaperOutChange (n : Line) (level : Bool) {t : State} (x : execPaperOutChange n level s = .next t) : t.still = s.still := by
  simp only [execPaperOutChange, Host.Outcome.next.injEq] at x
  subst x
  grind [still_changeInput]

theorem still_execFaultChange (n : Line) (level : Bool) {t : State} (x : execFaultChange n level s = .next t) : t.still = s.still := by
  simp only [execFaultChange, Host.Outcome.next.injEq] at x
  subst x
  grind [still_changeInput]

theorem still_execBusyChange (n : Line) (level : Bool) {t : State} (x : execBusyChange n level s = .next t) : t.still = s.still := by
  simp only [execBusyChange, Host.Outcome.next.injEq] at x
  subst x
  grind [still_changeInput]

theorem still_busyLimit (n : Line) : (busyLimit n s).still = s.still := by
  unfold busyLimit
  grind [still_bump, still_enterStall]

theorem still_execBusyLimitExpiry (n : Line) {t : State} (x : execBusyLimitExpiry n s = .next t) : t.still = s.still := by
  simp only [execBusyLimitExpiry, Host.Outcome.next.injEq] at x
  subst x
  try simp only [whenActive]
  grind [still_whenActive, still_busyLimit]

theorem still_execStallRetryExpiry (n : Line) {t : State} (x : execStallRetryExpiry n s = .next t) : t.still = s.still := by
  simp only [execStallRetryExpiry, Host.Outcome.next.injEq] at x
  subst x
  try simp only [whenActive]
  grind [still_whenActive, still_resume]

theorem still_initPulseEnd (n : Line) : (initPulseEnd n s).still = s.still := by
  unfold initPulseEnd
  grind [still_modLine, still_leaveResetting]

theorem still_execInitPulseEnd (n : Line) {t : State} (x : execInitPulseEnd n s = .next t) : t.still = s.still := by
  simp only [execInitPulseEnd, Host.Outcome.next.injEq] at x
  subst x
  try simp only [whenActive]
  grind [still_whenActive, still_initPulseEnd]

theorem still_newsTake (n : QuarantineNews) : (n.take s).still = s.still := by
  unfold QuarantineNews.take
  grind [still_bump, still_raise, still_abortArriving]

theorem still_setQuarantined (i minutes : Nat) : (setQuarantined i minutes s).still = s.still := by
  unfold setQuarantined
  grind [still_modStation, still_purgeSource]

theorem still_enterQuarantine (i : Nat) (cause : FaultCount) (minutes : Nat) :
    (enterQuarantine i cause minutes s).still = s.still := by
  unfold enterQuarantine
  grind [still_newsTake, still_setQuarantined]

theorem still_quarantineStation (i : Nat) (cause : FaultCount) :
    (quarantineStation i cause s).2.still = s.still := by
  unfold quarantineStation
  grind [still_bump, still_setQuarantined]

theorem still_suspect (i : Nat) : (suspect i s).still = s.still := by
  unfold suspect
  grind [still_modStation, still_bump]

theorem still_judgeSuspect (i tally : Nat) : (judgeSuspect i tally s).still = s.still := by
  unfold judgeSuspect
  grind [still_enterQuarantine]

theorem still_judgeStanding (i : Nat) : (judgeStanding i s).still = s.still := by
  unfold judgeStanding
  grind [still_enterQuarantine, still_suspect, still_judgeSuspect]

theorem still_laidTo (k : Key) : (laidTo k s).still = s.still := by
  unfold laidTo
  grind [still_modStation, still_bump, still_judgeStanding]

theorem still_markSuspect (k : Key) : (markSuspect k s).still = s.still := by
  unfold markSuspect
  grind [still_bump, still_suspect]

theorem still_sweepQuarantine (k : Key) : (sweepQuarantine k s).still = s.still := by
  unfold sweepQuarantine
  grind [still_bump, still_newsTake, still_quarantineStation]

theorem still_clearPortWindow (p : Port) : (clearPortWindow p s).still = s.still := by
  unfold clearPortWindow
  (repeat' split) <;> rfl

theorem still_windowStation (i : Nat) : (windowStation i s).still = s.still := by
  unfold windowStation
  grind [still_modStation, still_bump, still_raise, still_suspect]

theorem still_atEach (f : Nat → State → State) (is : List Nat) (hl : ∀ i s, (f i s).still = s.still) :
    (atEach f is s).still = s.still := by
  unfold atEach
  generalize hq : is = xs
  clear hq
  induction xs generalizing s with
  | nil => rfl
  | cons x xs ih => rw [List.foldl_cons, ih]; grind []

theorem still_minuteStation (i : Nat) : (minuteStation i s).still = s.still := by
  unfold minuteStation
  grind [still_modStation, still_bump]

theorem still_execMinuteExpiry  {t : State} (x : execMinuteExpiry s = .next t) : t.still = s.still := by
  simp only [execMinuteExpiry, Host.Outcome.next.injEq] at x
  subst x
  try simp only [whenActive]
  grind [still_whenActive, still_atEach, still_minuteStation]

theorem still_countStatus (st : Status) : (countStatus st s).still = s.still := by
  unfold countStatus
  grind [still_bump]

theorem still_sendReply (q : Request) (st : Status) (results : List Byte) :
    (sendReply q st results s).still = s.still := by
  unfold sendReply
  grind [still_bump, still_sendOwn, still_countStatus]

theorem still_offerHeld (q : Request) : (offerHeld q s).still = s.still := by
  unfold offerHeld
  (repeat' split) <;> first
    | rfl
    | grind [State.still, still_sendReply]

theorem still_loseHeld : (loseHeld s).still = s.still := by
  unfold loseHeld
  (repeat' split) <;> rfl

theorem still_settleHeld (p : Port) (st : Service) : (settleHeld p st s).still = s.still := by
  unfold settleHeld
  grind [still_offerHeld, still_loseHeld]

theorem still_dropRecord (rid : Nat) : (dropRecord rid s).still = s.still := by
  unfold dropRecord
  grind [still_releaseRef]

theorem still_abandonSeg (x : Seg) : (abandonSeg x s).still = s.still := by
  unfold abandonSeg
  grind [still_modSeg, still_dropRecord]

theorem still_abandonLink (l : Link) : (abandonLink l s).still = s.still := by
  unfold abandonLink
  grind [still_modLink, still_dropRecord]

theorem still_setLoopMode (p : Port) (m : LoopMode) : (setLoopMode p m s).still = s.still := by
  unfold setLoopMode
  grind [still_modSeg, still_modLink, still_abortTx, still_emptySlot, still_abandonSeg, still_abandonLink]

theorem still_setService (p : Port) (st : Service) : (setService p st s).still = s.still := by
  unfold setService
  grind [still_modService, still_settleHeld]

theorem still_modTest (p : Port) (f : PortTest → PortTest) : (modTest p f s).still = s.still := by
  unfold modTest
  grind [still_modService]

theorem still_placeTest (p : Port) : (placeTest p s).still = s.still := by
  unfold placeTest
  (repeat' split) <;> first
    | rfl
    | grind [State.still, still_bump, still_ownRecord, still_modTest]

theorem still_fillSlot (p : Port) : (fillSlot p s).still = s.still := by
  unfold fillSlot
  grind [still_placeTest]

theorem still_startPhase (p : Port) (ph : TestPhase) : (startPhase p ph s).still = s.still := by
  unfold startPhase
  grind [still_setLoopMode, still_modTest, still_placeTest]

theorem still_beginTest (p : Port) (why : TestPurpose) (ph : TestPhase) :
    (beginTest p why ph s).still = s.still := by
  unfold beginTest
  grind [still_modService, still_startPhase]

theorem still_endTest (p : Port) : (endTest p s).still = s.still := by
  unfold endTest
  grind [still_modService, still_emptySlot, still_setLoopMode]

theorem still_handResult (p : Port) (pass : Bool) : (handResult p pass s).still = s.still := by
  unfold handResult
  grind [still_modSweep, still_bump]

theorem still_cutTest (p : Port) : (cutTest p s).still = s.still := by
  unfold cutTest
  grind [still_endTest, still_handResult]

theorem still_beginEntry (p : Port) : (beginEntry p s).still = s.still := by
  unfold beginEntry
  grind [still_beginTest]

theorem still_stopHold (p : Port) : (stopHold p s).still = s.still := by
  unfold stopHold
  grind [still_modService]

theorem still_enterTesting (p : Port) : (enterTesting p s).still = s.still := by
  unfold enterTesting
  grind [still_setService, still_beginEntry, still_stopHold]

theorem still_enterIsolated (p : Port) (c : IsolationCause) :
    (enterIsolated p c s).still = s.still := by
  unfold enterIsolated
  grind [still_modService, still_bump, still_raise, still_purgePort, still_setService]

theorem still_entryPassed (p : Port) : (entryPassed p s).still = s.still := by
  unfold entryPassed
  grind [still_modService, still_bump, still_raise, still_clearPortWindow, still_setService, still_endTest]

theorem still_entryFailedInternal (p : Port) : (entryFailedInternal p s).still = s.still := by
  unfold entryFailedInternal
  grind [still_modService, still_bump, still_raise, still_purgePort, still_setService, still_endTest]

theorem still_entryFailedExternal (p : Port) : (entryFailedExternal p s).still = s.still := by
  unfold entryFailedExternal
  grind [still_modService, still_bump, still_endTest, still_enterIsolated]

theorem still_takeWaitingHold (p : Port) : (takeWaitingHold p s).still = s.still := by
  unfold takeWaitingHold
  grind [still_enterTesting]

theorem still_afterLoop (p : Port) : (afterLoop p s).still = s.still := by
  unfold afterLoop
  grind [still_setService, still_takeWaitingHold]

theorem still_loopEnded (p : Port) (pass : Bool) : (loopEnded p pass s).still = s.still := by
  unfold loopEnded
  grind [still_endTest, still_handResult, still_afterLoop]

theorem still_stopLoop (p : Port) : (stopLoop p s).still = s.still := by
  unfold stopLoop
  grind [still_endTest, still_afterLoop]

theorem still_phaseFailed (p : Port) : (phaseFailed p s).still = s.still := by
  unfold phaseFailed
  grind [still_entryFailedInternal, still_entryFailedExternal, still_loopEnded]

theorem still_phasePassed (p : Port) : (phasePassed p s).still = s.still := by
  unfold phasePassed
  grind [still_startPhase, still_entryPassed, still_loopEnded]

theorem still_frameReturned (p : Port) : (frameReturned p s).still = s.still := by
  unfold frameReturned
  grind [still_modTest, still_placeTest, still_phasePassed]

theorem still_testFrameHanded (p : Port) (payload : List Byte) :
    (testFrameHanded p payload s).still = s.still := by
  unfold testFrameHanded
  grind [still_bump, still_frameReturned]

theorem still_testCollided (p : Port) : (testCollided p s).still = s.still := by
  unfold testCollided
  grind [still_placeTest]

theorem still_externalReport (x : Seg) : (externalReport x s).still = s.still := by
  unfold externalReport
  grind [still_phaseFailed]

theorem still_isolate (p : Port) (c : IsolationCause) : (isolate p c s).still = s.still := by
  unfold isolate
  grind [still_bump, still_cutTest, still_enterIsolated]

theorem still_stopTx (l : Link) : (stopTx l s).still = s.still := by
  unfold stopTx
  grind [still_modLink, still_abortTx, still_emptySlot, still_fillSlot]

theorem still_dropLine (l : Link) : (dropLine l s).still = s.still := by
  unfold dropLine
  grind [still_modLink, still_abandonLink, still_stopTx]

theorem still_connectionLost (l : Link) : (connectionLost l s).still = s.still := by
  unfold connectionLost
  grind [still_bump, still_purgePort, still_endTest, still_cutTest, still_beginEntry, still_enterTesting]

theorem still_linkConnected (l : Link) : (linkConnected l s).still = s.still := by
  unfold linkConnected
  grind [still_startPhase]

theorem still_retrain (l : Link) : (retrain l s).still = s.still := by
  unfold retrain
  grind [still_modLink, still_dropLine]

theorem still_startLoop (p : Port) (k : ProbeKind) : (startLoop p k s).2.still = s.still := by
  unfold startLoop
  grind [still_setService, still_beginTest]

theorem still_holdExpiry (p : Port) : (holdExpiry p s).still = s.still := by
  unfold holdExpiry
  grind [still_modService, still_enterTesting]

theorem still_frameTimerExpiry (p : Port) : (frameTimerExpiry p s).still = s.still := by
  unfold frameTimerExpiry
  grind [still_phaseFailed]

theorem still_frameRetry (p : Port) : (frameRetry p s).still = s.still := by
  unfold frameRetry
  grind [still_placeTest]

theorem still_portOff (p : Port) : (portOff p s).still = s.still := by
  unfold portOff
  grind [still_purgePort, still_setService, still_cutTest, still_stopHold]

theorem still_portOn (p : Port) : (portOn p s).still = s.still := by
  unfold portOn
  grind [still_cutTest, still_enterTesting]

theorem still_restartPort (p : Port) : (restartPort p s).still = s.still := by
  unfold restartPort
  grind [still_purgePort, still_cutTest, still_enterTesting, still_retrain]

theorem still_clearService (p : Port) : (clearService p s).still = s.still := by
  unfold clearService
  grind [still_modService, still_purgePort, still_endTest, still_stopHold, still_enterTesting]

theorem still_clearPort (p : Port) : (clearPort p s).still = s.still := by
  unfold clearPort keepReceiver
  grind [still_modSeg, still_modLink, still_clearService]

theorem still_startPort (p : Port) (on bcast accept : Bool) :
    (startPort p on bcast accept s).still = s.still := by
  unfold startPort
  grind [still_modService, still_purgePort, still_setService, still_endTest, still_enterTesting]

theorem still_judgePort (p : Port) (flap : Bool) : (judgePort p flap s).2.still = s.still := by
  unfold judgePort
  (repeat' split) <;> first
    | rfl
    | grind [State.still, still_bump]

theorem still_requestIsolation (p : Port) (c : IsolationCause) :
    (requestIsolation p c s).still = s.still := by
  unfold requestIsolation
  grind [still_bump, still_isolate]

theorem still_makeRequests (p : Port) (xs : List IsolationCause) :
    (makeRequests p xs s).still = s.still := by
  induction xs generalizing s with
  | nil => rfl
  | cons x xs ih =>
  unfold makeRequests
  grind [still_requestIsolation]

theorem still_segReport (x : Seg) (r : SegReport) : (segReport x r s).still = s.still := by
  unfold segReport
  (repeat' split) <;> first
    | rfl
    | grind [State.still, still_laidTo, still_judgePort, still_requestIsolation, still_makeRequests]

theorem still_linkReportCauses (l : Link) (r : LinkReport) :
    (linkReportCauses l r s).2.still = s.still := by
  unfold linkReportCauses
  (repeat' split) <;> first
    | rfl
    | grind [State.still, still_laidTo, still_judgePort]

theorem still_linkReport (l : Link) (r : LinkReport) : (linkReport l r s).still = s.still := by
  unfold linkReport
  grind [still_makeRequests, still_linkReportCauses]

theorem still_loseConnection (l : Link) : (loseConnection l s).still = s.still := by
  unfold loseConnection
  grind [still_bump, still_freeOrder, still_dropLine, still_connectionLost, still_makeRequests, still_linkReportCauses]

theorem still_modStep (k : Nat) (f : SweepStep → SweepStep) : (modStep k f s).still = s.still := by
  unfold modStep
  grind [still_modSweep]

theorem still_offerEcho (k : Key) (rid : Nat) (xs : List Port) :
    (offerEcho k rid xs s).2.still = s.still := by
  induction xs generalizing s with
  | nil => rfl
  | cons x xs ih =>
  unfold offerEcho
  grind [still_offer]

theorem still_beginEcho (n : Nat) (k : Key) (ports : List Port) :
    (beginEcho n k ports s).still = s.still := by
  unfold beginEcho
  grind [still_modSweep, still_bump, still_releaseRef, still_ownRecord, still_offerEcho]

theorem still_beginStep (n : Nat) (t : SweepStep) : (beginStep n t s).2.still = s.still := by
  unfold beginStep
  grind [still_modSweep, still_startLoop, still_beginEcho]

theorem still_haltSweep : (haltSweep s).still = s.still := by
  unfold haltSweep
  grind [still_modSweep, still_raise]

theorem still_isolateTarget (t : StepTarget) : (isolateTarget t s).still = s.still := by
  unfold isolateTarget
  grind [still_bump, still_isolate]

theorem still_failAction (t : SweepStep) : (failAction t s).still = s.still := by
  unfold failAction
  grind [still_bump, still_markSuspect, still_sweepQuarantine, still_haltSweep, still_isolateTarget]

theorem still_endStep (n : Nat) (r : StepResult) : (endStep n r s).still = s.still := by
  unfold endStep
  grind [still_bump, still_modStep, still_failAction]

theorem still_beginPass : (beginPass s).still = s.still := by
  unfold beginPass
  grind [still_modSweep]

theorem still_passDone : (passDone s).still = s.still := by
  unfold passDone
  grind [still_modSweep, still_bump, still_raise]

theorem still_advance : (advance s).still = s.still := by
  unfold advance
  grind [still_modSweep, still_beginPass]

theorem still_runSteps  (xs : Nat) : (runSteps  xs s).still = s.still := by
  induction xs generalizing s with
  | zero => rfl
  | succ k ih =>
  unfold runSteps
  grind [still_beginStep, still_endStep, still_passDone, still_advance]

theorem still_runSweep : (runSweep s).still = s.still := by
  unfold runSweep
  grind [still_runSteps]

theorem still_probeEnded (n : Nat) (r : StepResult) : (probeEnded n r s).still = s.still := by
  unfold probeEnded
  grind [still_modSweep, still_endStep, still_advance, still_runSweep]

theorem still_settleSweep : (settleSweep s).still = s.still := by
  unfold settleSweep
  grind [still_probeEnded]

theorem still_echoReply (source : Key) (payload : List Byte) :
    (echoReply source payload s).still = s.still := by
  unfold echoReply
  grind [still_modSweep, still_bump, still_probeEnded]

theorem still_echoTimeout : (echoTimeout s).still = s.still := by
  unfold echoTimeout
  grind [still_modSweep, still_probeEnded]

theorem still_intervalExpiry : (intervalExpiry s).still = s.still := by
  unfold intervalExpiry
  grind [still_modSweep, still_beginPass, still_runSweep]

theorem still_startSweep (interval : Nat) : (startSweep interval s).still = s.still := by
  unfold startSweep
  grind [still_modSweep, still_beginPass, still_runSweep]

theorem still_abandonProbe : (abandonProbe s).still = s.still := by
  unfold abandonProbe
  grind [still_modSweep, still_stopLoop]

theorem still_stopSweep : (stopSweep s).still = s.still := by
  unfold stopSweep
  grind [still_modSweep, still_endStep, still_abandonProbe]

theorem still_runStep (k : Nat) : (runStep k s).still = s.still := by
  unfold runStep
  grind [still_modSweep, still_runSweep]

theorem still_clearSweep : (clearSweep s).still = s.still := by
  unfold clearSweep
  grind [still_modSweep]

theorem still_execIntervalExpiry  {t : State} (x : execIntervalExpiry s = .next t) : t.still = s.still := by
  simp only [execIntervalExpiry, Host.Outcome.next.injEq] at x
  subst x
  try simp only [whenActive]
  grind [still_whenActive, still_intervalExpiry]

theorem still_execEchoTimerExpiry  {t : State} (x : execEchoTimerExpiry s = .next t) : t.still = s.still := by
  simp only [execEchoTimerExpiry, Host.Outcome.next.injEq] at x
  subst x
  try simp only [whenActive]
  grind [still_whenActive, still_echoTimeout]

theorem still_execTestFrameTimer (p : Port) {t : State} (x : execTestFrameTimer p s = .next t) : t.still = s.still := by
  simp only [execTestFrameTimer, Host.Outcome.next.injEq] at x
  subst x
  try simp only [whenActive]
  grind [still_whenActive, still_frameTimerExpiry, still_settleSweep]

theorem still_execTestFrameRetry (p : Port) {t : State} (x : execTestFrameRetry p s = .next t) : t.still = s.still := by
  simp only [execTestFrameRetry, Host.Outcome.next.injEq] at x
  subst x
  try simp only [whenActive]
  grind [still_whenActive, still_frameRetry]

theorem still_execHoldTimerExpiry (p : Port) {t : State} (x : execHoldTimerExpiry p s = .next t) : t.still = s.still := by
  simp only [execHoldTimerExpiry, Host.Outcome.next.injEq] at x
  subst x
  try simp only [whenActive]
  grind [still_whenActive, still_holdExpiry]

theorem still_handOver (p : Port) (h : Header) (rid : Nat) :
    (handOver p h rid s).still = s.still := by
  unfold handOver
  rfl

theorem still_setSegRx (x : Seg) (r : SegRx) : (setSegRx x r s).still = s.still := by
  unfold setSegRx
  grind [still_modSeg]

theorem still_beginSegReception (x : Seg) (looped : Bool) :
    (beginSegReception x looped s).still = s.still := by
  unfold beginSegReception
  grind [still_bump, still_startRecord, still_setSegRx]

theorem still_takeSegByte (x : Seg) (b : Byte) : (takeSegByte x b s).still = s.still := by
  unfold takeSegByte
  grind [still_bump, still_storeByte, still_dropRecord, still_setSegRx]

theorem still_endSegReception (x : Seg) : (endSegReception x s).still = s.still := by
  unfold endSegReception
  grind [still_bump, still_dropRecord, still_segReport, still_handOver, still_setSegRx]

theorem still_carrierRise (x : Seg) : (carrierRise x s).still = s.still := by
  unfold carrierRise
  grind [still_modSeg, still_beginSegReception]

theorem still_carrierFall (x : Seg) : (carrierFall x s).still = s.still := by
  unfold carrierFall
  grind [still_modSeg, still_endSegReception]

theorem still_beginAttempt (x : Seg) : (beginAttempt x s).still = s.still := by
  unfold beginAttempt
  grind [still_modSeg]

theorem still_segmentTake (x : Seg) : (segmentTake x s).still = s.still := by
  unfold segmentTake
  grind [still_modSeg, still_addRef, still_beginSegReception, still_beginAttempt]

theorem still_deferQuiet (x : Seg) : (deferQuiet x s).still = s.still := by
  unfold deferQuiet
  grind [still_beginAttempt]

theorem still_headLeaves (p : Port) : (headLeaves p s).still = s.still := by
  unfold headLeaves
  (repeat' split) <;> first
    | rfl
    | grind [State.still, still_releaseRef]

theorem still_flightEnded (p : Port) : (flightEnded p s).still = s.still := by
  unfold flightEnded
  grind [still_releaseInFlight, still_idleTx, still_emptySlot, still_fillSlot, still_headLeaves]

theorem still_takeSegBytes (x : Seg) (xs : List Byte) : (takeSegBytes x xs s).still = s.still := by
  induction xs generalizing s with
  | nil => rfl
  | cons x xs ih =>
  unfold takeSegBytes
  grind [still_takeSegByte]

theorem still_segmentSent (x : Seg) : (segmentSent x s).still = s.still := by
  unfold segmentSent
  grind [still_bump, still_endSegReception, still_flightEnded, still_takeSegBytes]

theorem still_collision (x : Seg) : (collision x s).still = s.still := by
  unfold collision
  grind [still_modSeg, still_bump, still_releaseInFlight, still_idleTx, still_emptySlot, still_testCollided, still_segReport, still_flightEnded]

theorem still_retryExpiry (x : Seg) : (retryExpiry x s).still = s.still := by
  unfold retryExpiry
  grind [still_modSeg]

theorem still_stuckReception (x : Seg) : (stuckReception x s).still = s.still := by
  unfold stuckReception
  grind [still_dropRecord, still_setSegRx]

theorem still_reportStuck (x : Seg) : (reportStuck x s).still = s.still := by
  unfold reportStuck
  grind [still_externalReport, still_segReport]

theorem still_stuckBegins (x : Seg) : (stuckBegins x s).still = s.still := by
  unfold stuckBegins
  grind [still_modSeg, still_bump, still_stuckReception, still_reportStuck]

theorem still_stuckHeld (x : Seg) : (stuckHeld x s).still = s.still := by
  unfold stuckHeld
  grind [still_modSeg, still_segReport]

theorem still_stuckOnLeavingOff (p : Port) : (stuckOnLeavingOff p s).still = s.still := by
  unfold stuckOnLeavingOff
  grind [still_modSeg, still_segReport]

theorem still_unterminated (x : Seg) : (unterminated x s).still = s.still := by
  unfold unterminated
  grind [still_modSeg, still_bump, still_externalReport, still_segReport]

theorem still_execCarrierRise (x : Seg) {t : State} (x : execCarrierRise x s = .next t) : t.still = s.still := by
  simp only [execCarrierRise, Host.Outcome.next.injEq] at x
  subst x
  try simp only [whenActive]
  grind [still_whenActive, still_modSeg, still_carrierRise]

theorem still_execCoaxByte (x : Seg) (b : Byte) {t : State} (x : execCoaxByte x b s = .next t) : t.still = s.still := by
  simp only [execCoaxByte, Host.Outcome.next.injEq] at x
  subst x
  try simp only [whenActive]
  grind [still_whenActive, still_takeSegByte]

theorem still_execCarrierFall (x : Seg) {t : State} (x : execCarrierFall x s = .next t) : t.still = s.still := by
  simp only [execCarrierFall, Host.Outcome.next.injEq] at x
  subst x
  try simp only [whenActive]
  grind [still_whenActive, still_modSeg, still_settleSweep, still_carrierFall]

theorem still_execSegmentTakeFrame (x : Seg) {t : State} (x : execSegmentTakeFrame x s = .next t) : t.still = s.still := by
  simp only [execSegmentTakeFrame, Host.Outcome.next.injEq] at x
  subst x
  try simp only [whenActive]
  grind [still_whenActive, still_segmentTake]

theorem still_execDeferQuiet (x : Seg) {t : State} (x : execDeferQuiet x s = .next t) : t.still = s.still := by
  simp only [execDeferQuiet, Host.Outcome.next.injEq] at x
  subst x
  try simp only [whenActive]
  grind [still_whenActive, still_deferQuiet]

theorem still_execSegmentSent (x : Seg) {t : State} (x : execSegmentSent x s = .next t) : t.still = s.still := by
  simp only [execSegmentSent, Host.Outcome.next.injEq] at x
  subst x
  try simp only [whenActive]
  grind [still_whenActive, still_settleSweep, still_segmentSent]

theorem still_execCollision (x : Seg) {t : State} (x : execCollision x s = .next t) : t.still = s.still := by
  simp only [execCollision, Host.Outcome.next.injEq] at x
  subst x
  try simp only [whenActive]
  grind [still_whenActive, still_settleSweep, still_collision]

theorem still_execRetryWaitExpiry (x : Seg) {t : State} (x : execRetryWaitExpiry x s = .next t) : t.still = s.still := by
  simp only [execRetryWaitExpiry, Host.Outcome.next.injEq] at x
  subst x
  try simp only [whenActive]
  grind [still_whenActive, still_retryExpiry]

theorem still_execStuck (x : Seg) {t : State} (x : execStuck x s = .next t) : t.still = s.still := by
  simp only [execStuck, Host.Outcome.next.injEq] at x
  subst x
  try simp only [whenActive]
  grind [still_whenActive, still_settleSweep, still_stuckBegins]

theorem still_execStuckHeld (x : Seg) {t : State} (x : execStuckHeld x s = .next t) : t.still = s.still := by
  simp only [execStuckHeld, Host.Outcome.next.injEq] at x
  subst x
  try simp only [whenActive]
  grind [still_whenActive, still_settleSweep, still_stuckHeld]

theorem still_execUnterminated (x : Seg) {t : State} (x : execUnterminated x s = .next t) : t.still = s.still := by
  simp only [execUnterminated, Host.Outcome.next.injEq] at x
  subst x
  try simp only [whenActive]
  grind [still_whenActive, still_settleSweep, still_unterminated]

theorem still_tryTraining (l : Link) : (tryTraining l s).still = s.still := by
  unfold tryTraining
  grind [still_modLink]

theorem still_signalReported (l : Link) : (signalReported l s).still = s.still := by
  unfold signalReported
  grind [still_modLink, still_tryTraining]

theorem still_signalPresent (l : Link) : (signalPresent l s).still = s.still := by
  unfold signalPresent
  grind [still_signalReported]

theorem still_signalLost (l : Link) : (signalLost l s).still = s.still := by
  unfold signalLost
  grind [still_modLink, still_loseConnection]

theorem still_pauseExpiry (l : Link) : (pauseExpiry l s).still = s.still := by
  unfold pauseExpiry
  grind [still_modLink, still_tryTraining]

theorem still_trained (l : Link) : (trained l s).still = s.still := by
  unfold trained
  grind [still_modLink, still_linkConnected]

theorem still_trainingTimeout (l : Link) : (trainingTimeout l s).still = s.still := by
  unfold trainingTimeout
  grind [still_modLink, still_bump]

theorem still_setLinkRx (l : Link) (r : LinkRx) : (setLinkRx l r s).still = s.still := by
  unfold setLinkRx
  grind [still_modLink]

theorem still_beginLinkReception (l : Link) (looped : Bool) :
    (beginLinkReception l looped s).still = s.still := by
  unfold beginLinkReception
  grind [still_bump, still_startRecord, still_setLinkRx]

theorem still_takeLinkByte (l : Link) (b : Byte) : (takeLinkByte l b s).still = s.still := by
  unfold takeLinkByte
  grind [still_bump, still_storeByte, still_dropRecord, still_setLinkRx]

theorem still_endLinkReception (l : Link) : (endLinkReception l s).still = s.still := by
  unfold endLinkReception
  grind [still_bump, still_dropRecord, still_linkReport, still_handOver, still_setLinkRx]

theorem still_frameStart (l : Link) : (frameStart l s).still = s.still := by
  unfold frameStart
  grind [still_beginLinkReception, still_endLinkReception]

theorem still_frameEnd (l : Link) : (frameEnd l s).still = s.still := by
  unfold frameEnd
  grind [still_endLinkReception]

theorem still_linkByte (l : Link) (b : Byte) : (linkByte l b s).still = s.still := by
  unfold linkByte
  grind [still_takeLinkByte]

theorem still_symbolError (l : Link) : (symbolError l s).still = s.still := by
  unfold symbolError
  grind [still_bump, still_linkReport, still_setLinkRx]

theorem still_linkTake (l : Link) : (linkTake l s).still = s.still := by
  unfold linkTake
  grind [still_modLink, still_addRef, still_beginLinkReception]

theorem still_takeLinkBytes (l : Link) (xs : List Byte) :
    (takeLinkBytes l xs s).still = s.still := by
  induction xs generalizing s with
  | nil => rfl
  | cons x xs ih =>
  unfold takeLinkBytes
  grind [still_takeLinkByte]

theorem still_linkSent (l : Link) : (linkSent l s).still = s.still := by
  unfold linkSent
  grind [still_modLink, still_bump, still_flightEnded, still_endLinkReception, still_takeLinkBytes]

theorem still_gapExpiry (l : Link) : (gapExpiry l s).still = s.still := by
  unfold gapExpiry
  grind [still_modLink]

theorem still_takeLinkDown (l : Link) : (takeLinkDown l s).still = s.still := by
  unfold takeLinkDown
  grind [still_modLink, still_loseConnection]

theorem still_takeInterfaceDown (i : Iface) : (takeInterfaceDown i s).still = s.still := by
  unfold takeInterfaceDown
  generalize hq : i.links = xs
  clear hq
  induction xs generalizing s with
  | nil => rfl
  | cons x xs ih => rw [List.foldl_cons, ih]; grind [still_takeLinkDown]

theorem still_clockLoss (i : Iface) : (clockLoss i s).still = s.still := by
  unfold clockLoss
  grind [still_modIface, still_bump, still_takeInterfaceDown]

theorem still_reportSignals (i : Iface) : (reportSignals i s).still = s.still := by
  unfold reportSignals
  generalize hq : i.links = xs
  clear hq
  induction xs generalizing s with
  | nil => rfl
  | cons x xs ih => rw [List.foldl_cons, ih]; grind [still_signalReported]

theorem still_clockHoldExpiry (i : Iface) : (clockHoldExpiry i s).still = s.still := by
  unfold clockHoldExpiry
  grind [still_modIface, still_reportSignals]

theorem still_restartInterface (i : Iface) : (restartInterface i s).still = s.still := by
  unfold restartInterface
  grind [still_bump, still_takeInterfaceDown]

theorem still_execSignalPresent (l : Link) {t : State} (x : execSignalPresent l s = .next t) : t.still = s.still := by
  simp only [execSignalPresent, Host.Outcome.next.injEq] at x
  subst x
  try simp only [whenActive]
  grind [still_whenActive, still_modLink, still_signalPresent]

theorem still_execSignalLost (l : Link) {t : State} (x : execSignalLost l s = .next t) : t.still = s.still := by
  simp only [execSignalLost, Host.Outcome.next.injEq] at x
  subst x
  try simp only [whenActive]
  grind [still_whenActive, still_modLink, still_settleSweep, still_signalLost]

theorem still_execRetrainPauseExpiry (l : Link) {t : State} (x : execRetrainPauseExpiry l s = .next t) : t.still = s.still := by
  simp only [execRetrainPauseExpiry, Host.Outcome.next.injEq] at x
  subst x
  try simp only [whenActive]
  grind [still_whenActive, still_pauseExpiry]

theorem still_execTrained (l : Link) {t : State} (x : execTrained l s = .next t) : t.still = s.still := by
  simp only [execTrained, Host.Outcome.next.injEq] at x
  subst x
  try simp only [whenActive]
  grind [still_whenActive, still_trained]

theorem still_execTrainingTimeout (l : Link) {t : State} (x : execTrainingTimeout l s = .next t) : t.still = s.still := by
  simp only [execTrainingTimeout, Host.Outcome.next.injEq] at x
  subst x
  try simp only [whenActive]
  grind [still_whenActive, still_trainingTimeout]

theorem still_execFrameStart (l : Link) {t : State} (x : execFrameStart l s = .next t) : t.still = s.still := by
  simp only [execFrameStart, Host.Outcome.next.injEq] at x
  subst x
  try simp only [whenActive]
  grind [still_whenActive, still_settleSweep, still_frameStart]

theorem still_execLinkByte (l : Link) (b : Byte) {t : State} (x : execLinkByte l b s = .next t) : t.still = s.still := by
  simp only [execLinkByte, Host.Outcome.next.injEq] at x
  subst x
  try simp only [whenActive]
  grind [still_whenActive, still_linkByte]

theorem still_execSymbolError (l : Link) {t : State} (x : execSymbolError l s = .next t) : t.still = s.still := by
  simp only [execSymbolError, Host.Outcome.next.injEq] at x
  subst x
  try simp only [whenActive]
  grind [still_whenActive, still_settleSweep, still_symbolError]

theorem still_execFrameEnd (l : Link) {t : State} (x : execFrameEnd l s = .next t) : t.still = s.still := by
  simp only [execFrameEnd, Host.Outcome.next.injEq] at x
  subst x
  try simp only [whenActive]
  grind [still_whenActive, still_settleSweep, still_frameEnd]

theorem still_execLinkTakeFrame (l : Link) {t : State} (x : execLinkTakeFrame l s = .next t) : t.still = s.still := by
  simp only [execLinkTakeFrame, Host.Outcome.next.injEq] at x
  subst x
  try simp only [whenActive]
  grind [still_whenActive, still_linkTake]

theorem still_execLinkSent (l : Link) {t : State} (x : execLinkSent l s = .next t) : t.still = s.still := by
  simp only [execLinkSent, Host.Outcome.next.injEq] at x
  subst x
  try simp only [whenActive]
  grind [still_whenActive, still_settleSweep, still_linkSent]

theorem still_execGapExpiry (l : Link) {t : State} (x : execGapExpiry l s = .next t) : t.still = s.still := by
  simp only [execGapExpiry, Host.Outcome.next.injEq] at x
  subst x
  try simp only [whenActive]
  grind [still_whenActive, still_gapExpiry]

theorem still_execClockLoss (i : Iface) {t : State} (x : execClockLoss i s = .next t) : t.still = s.still := by
  simp only [execClockLoss, Host.Outcome.next.injEq] at x
  subst x
  try simp only [whenActive]
  grind [still_whenActive, still_settleSweep, still_clockLoss]

theorem still_execClockHoldExpiry (i : Iface) {t : State} (x : execClockHoldExpiry i s = .next t) : t.still = s.still := by
  simp only [execClockHoldExpiry, Host.Outcome.next.injEq] at x
  subst x
  try simp only [whenActive]
  grind [still_whenActive, still_clockHoldExpiry]

theorem still_refuse (u : Key) (tag : Byte) (r : RefusedReason) :
    (refuse u tag r s).still = s.still := by
  unfold refuse
  grind [still_bump, still_sendStatus]

theorem still_openRest (h : Handoff) (tag : Byte) (copies : Nat) :
    (openRest h tag copies s).still = s.still := by
  unfold openRest
  (repeat' split) <;> first
    | rfl
    | grind [State.still, still_bump, still_sendStatus, still_refuse]

theorem still_printOpen (h : Handoff) (tag : Byte) (copies : Nat) :
    (printOpen h tag copies s).still = s.still := by
  unfold printOpen
  grind [still_endJob, still_refuse, still_openRest]

theorem still_unknownJob (u : Key) (tag : Byte) : (unknownJob u tag s).still = s.still := by
  unfold unknownJob
  grind [still_bump, still_sendStatus]

theorem still_appendBytes (slot : Nat) (xs : List Byte) :
    (appendBytes slot xs s).2.still = s.still := by
  induction xs generalizing s with
  | nil => rfl
  | cons x xs ih =>
  unfold appendBytes
  grind [still_modJob, still_spoolTake, still_spoolTook]

theorem still_printData (u : Key) (tag seq : Byte) (bytes : List Byte) :
    (printData u tag seq bytes s).still = s.still := by
  unfold printData
  grind [still_modJob, still_endJob, still_unknownJob, still_appendBytes]

theorem still_closeJob (slot : Nat) (st : JobState) : (closeJob slot st s).still = s.still := by
  unfold closeJob
  grind [still_modJob]

theorem still_printClose (u : Key) (tag : Byte) (total : Nat) :
    (printClose u tag total s).still = s.still := by
  unfold printClose
  grind [still_bump, still_sendStatus, still_endJob, still_joinReady, still_announce, still_unknownJob, still_closeJob]

theorem still_printCancel (u : Key) (tag : Byte) : (printCancel u tag s).still = s.still := by
  unfold printCancel
  grind [still_askEnd, still_unknownJob]

theorem still_printFrame (h : Handoff) (payload : List Byte) :
    (printFrame h payload s).still = s.still := by
  unfold printFrame
  grind [still_refuse, still_printOpen, still_printData, still_printClose, still_printCancel]

theorem still_holdJob (slot : Nat) (j : Job) : (holdJob slot j s).2.still = s.still := by
  unfold holdJob
  grind [still_modJob]

theorem still_releaseJob (slot : Nat) (j : Job) : (releaseJob slot j s).still = s.still := by
  unfold releaseJob
  grind [still_modJob, still_joinReady, still_announce]

theorem still_moveJob (slot : Nat) (j : Job) (t : Target) (l : Fin 4) :
    (moveJob slot j t l s).2.still = s.still := by
  unfold moveJob
  grind [still_modJob, still_joinReady, still_announce]

theorem still_flushSlots (xs : List Nat) (p q : Nat) :
    (flushSlots xs p q s).2.2.still = s.still := by
  induction xs generalizing s p q with
  | nil => rfl
  | cons x xs ih =>
  unfold flushSlots
  have hl := fun n s => @still_freeLine s n
  grind [still_askEndBy]

theorem still_learnNew (k : Key) (p : Port) : (learnNew k p s).2.still = s.still := by
  unfold learnNew
  grind [still_putEntry, still_bump, still_raise]

theorem still_heardAt (i : Nat) (p : Port) : (heardAt i p s).still = s.still := by
  unfold heardAt
  grind [still_modStation]

theorem still_nodeClash : (nodeClash s).2.still = s.still := by
  unfold nodeClash
  grind [still_bump, still_raise]

theorem still_learn (k : Key) (p : Port) (guarded : Bool) :
    (learn k p guarded s).2.still = s.still := by
  unfold learn
  grind [still_bump, still_raise, still_learnNew, still_heardAt, still_nodeClash]

theorem still_defend (x : Seg) (n : Node) (c : DefendClass) : (defend x n c s).still = s.still := by
  unfold defend
  grind [still_bump, still_sendOwn]

theorem still_forwardClaim (x : Seg) (h : Header) (rid : Nat) (source : SourceEntry) :
    (forwardClaim x h rid source s).still = s.still := by
  unfold forwardClaim
  grind [still_bump, still_offer]

theorem still_claimDefence (x : Seg) (n : Node) (h : Header) (rid : Nat) :
    (claimDefence x n h rid s).still = s.still := by
  unfold claimDefence
  grind [still_bump, still_learnNew, still_heardAt, still_defend, still_forwardClaim]

theorem still_removeAll (c : DirCount) (xs : List Nat) : (removeAll c xs s).still = s.still := by
  induction xs generalizing s with
  | nil => rfl
  | cons x xs ih =>
  unfold removeAll
  grind [still_bump, still_removeEntry]

theorem still_ageSecond : (ageSecond s).still = s.still := by
  unfold ageSecond
  (repeat' split) <;> first
    | rfl
    | grind [State.still, still_removeAll]

theorem still_purgeLearned : (purgeLearned s).2.still = s.still := by
  unfold purgeLearned
  grind [still_removeAll]

theorem still_clearDirectory : (clearDirectory s).still = s.still := by
  unfold clearDirectory
  grind [still_removeEntry, still_atEach]

theorem still_purgeGood (is : List Nat) : (purgeGood is s).still = s.still := by
  unfold purgeGood
  generalize hq : is = xs
  clear hq
  induction xs generalizing s with
  | nil => rfl
  | cons x xs ih => rw [List.foldl_cons, ih]; grind [still_purgeSource]

theorem still_execAging  {t : State} (x : execAging s = .next t) : t.still = s.still := by
  simp only [execAging, Host.Outcome.next.injEq] at x
  subst x
  try simp only [whenActive]
  grind [still_whenActive, still_ageSecond]

theorem still_execArrivalTimeout  {t : State} (x : execArrivalTimeout s = .next t) : t.still = s.still := by
  simp only [execArrivalTimeout, Host.Outcome.next.injEq] at x
  subst x
  try simp only [whenActive]
  grind [still_whenActive, still_arrivalSecond]

theorem still_countAt (p : Port) (c : ForwardCount) : (countAt p c s).still = s.still := by
  unfold countAt
  grind [still_bump]

theorem still_intake (p : Port) (k : Key) (source : SourceEntry) (payload : List Byte) :
    (intake p k source payload s).still = s.still := by
  unfold intake
  (repeat' split) <;> rfl

theorem still_copyTo (d : Dispatch) (q : Port) : (copyTo d q s).still = s.still := by
  unfold copyTo
  grind [still_offer, still_countAt]

theorem still_copies (d : Dispatch) (xs : List Port) : (copies d xs s).still = s.still := by
  induction xs generalizing s with
  | nil => rfl
  | cons x xs ih =>
  unfold copies
  grind [still_copyTo]

theorem still_logUnknown (p : Port) (k : Key) : (logUnknown p k s).still = s.still := by
  unfold logUnknown
  (repeat' split) <;> first
    | rfl
    | grind [State.still, still_bump, still_raise, still_countAt]

theorem still_answerEcho (p : Port) (h : Header) (payload : List Byte) :
    (answerEcho p h payload s).still = s.still := by
  unfold answerEcho
  grind [still_bump, still_sendOwn, still_countAt]

theorem still_toBridge (p : Port) (h : Header) (source : SourceEntry) (payload : List Byte) :
    (toBridge p h source payload s).still = s.still := by
  unfold toBridge
  grind [still_echoReply, still_countAt, still_intake, still_answerEcho]

theorem still_toBroadcast (p : Port) (h : Header) (rid : Nat) (source : SourceEntry) :
    (toBroadcast p h rid source s).still = s.still := by
  unfold toBroadcast
  grind [still_copies]

theorem still_toStation (p : Port) (h : Header) (rid : Nat) (source : SourceEntry) (e : Entry) (t : Station) :
    (toStation p h rid source e t s).still = s.still := by
  unfold toStation
  grind [still_countAt, still_copyTo, still_copies]

theorem still_toUnknown (p : Port) (h : Header) (rid : Nat) (source : SourceEntry) :
    (toUnknown p h rid source s).still = s.still := by
  unfold toUnknown
  grind [still_copies, still_logUnknown]

theorem still_toPrinter (p : Port) (h : Header) (source : SourceEntry) (i : Nat) (t : Target) (l : Fin 4) (payload : List Byte) :
    (toPrinter p h source i t l payload s).still = s.still := by
  unfold toPrinter
  grind [still_printFrame, still_countAt]

theorem still_dispatch (p : Port) (h : Header) (rid : Nat) (source : SourceEntry) (payload : List Byte) :
    (dispatch p h rid source payload s).still = s.still := by
  unfold dispatch
  grind [still_countAt, still_toBridge, still_toBroadcast, still_toStation, still_toUnknown, still_toPrinter]

theorem still_fromSource (p : Port) (h : Header) (rid : Nat) (payload : List Byte) :
    (fromSource p h rid payload s).still = s.still := by
  unfold fromSource
  grind [still_echoReply, still_learn, still_countAt, still_dispatch]

theorem still_claim (x : Seg) (h : Header) (rid : Nat) : (claim x h rid s).still = s.still := by
  unfold claim
  grind [still_claimDefence, still_countAt]

theorem still_judgeFrame (p : Port) (h : Header) (rid : Nat) :
    (judgeFrame p h rid s).still = s.still := by
  unfold judgeFrame
  grind [still_testFrameHanded, still_countAt, still_fromSource, still_claim]

theorem still_takeFrame (p : Port) : (takeFrame p s).still = s.still := by
  unfold takeFrame
  (repeat' split) <;> first
    | rfl
    | grind [State.still, still_releaseRef, still_judgeFrame]

theorem still_takeIndex {target : Option Nat} {i : Nat} {t : State} (x : takeIndex target s = some (i, t)) :
    t.still = s.still := by
  unfold takeIndex at x
  grind [still_bump, still_removeEntry]

theorem still_writeStation {e : StationEdit} {home : Option Port} {i : Nat}
    {news : List QuarantineNews} {t : State}
    (x : writeStation e home s = some (i, news, t)) : t.still = s.still := by
  unfold writeStation at x
  dsimp only at x
  split at x
  · cases x
  · rename_i hx
    have := still_takeIndex hx
    split at x <;> cases x <;>
      grind [still_purgeSource, still_putEntry, still_removeAll, still_purgeGood]

theorem still_run {e : Edit} {r : Option Nat} {news : List QuarantineNews} {t : State}
    (x : e.run s = .applied r news t) :
    t.still = s.still := by
  unfold Edit.run at x
  split at x
  · unfold editStation at x
    grind [still_writeStation]
  · unfold editAlias at x
    dsimp only at x
    repeat' split at x
    all_goals first
      | cases x; done
      | skip
    rename_i hx
    have := still_takeIndex hx
    cases x
    grind [still_putEntry, still_removeAll]
  · unfold editDelete at x
    grind [still_removeEntry]
  all_goals
    unfold editStationAt at x
    grind [still_modStation, still_quarantineStation]

theorem still_takeNews (ns : List QuarantineNews) : (takeNews ns s).still = s.still := by
  induction ns generalizing s with
  | nil => rfl
  | cons n ns ih => exact ih.trans (still_newsTake n)

theorem still_takeEdit (e : Edit) : (takeEdit e s).still = s.still := by
  unfold takeEdit
  grind [still_run, still_takeNews]

end Sys2Proof.Machine
end

