-- ==== Sys2Proof/Tests/Slice0.lean ====
section
/-! SUPPORT. Smoke tests, worked examples, and for each statement with premises states that meet them. -/

namespace Sys2Proof.Tests

open Sys2Proof Sys2Proof.Machine

/-! ### Small states -/

/-- A port in service. -/
def service (bcast accept : Bool) : PortService :=
  { PortService.atReset bcast accept with state := .inService, test := none }

/-- The part after its load, every port IN-SERVICE. -/
def up : State :=
  { State.reset with
    loading := false, window := ⟨true, 0, 60⟩
    service := ⟨.fill (service false false), .fill (service true true)⟩ }

/-- `up` before the window clock runs. -/
def early : State := { up with window := ⟨false, 0, 60⟩ }

/-- One port in another service state, with a test. -/
def placed (p : Port) (st : Service) (t : Option PortTest) (s : State) : State :=
  modService p (fun v => { v with state := st, test := t }) s

/-- A segment that has been changed. -/
def seg (f : SegPort → SegPort) (s : State := up) : State := modSeg .a f s

/-- A link that has been changed. -/
def link (f : LinkPort → LinkPort) (s : State := up) : State := modLink .l0 f s

/-- A line that has been changed. -/
def line (f : LineState → LineState) (s : State := up) : State := modLine .lp1 f s

/-- A header between two trunk nodes. -/
def hdr (kind : Byte) (dest src : Node) (n : Nat) : Header := ⟨.node dest, .node src, kind, n⟩

/-- A station's fields. -/
def station (home : Option Port) (st : Standing := .good) : Station :=
  ⟨home, false, true, true, st, 0, 60, 0⟩

/-- A directory: station 5 at TA, 6 at TB, 7 at L0, 8 with no home, and printer aliases 9 and 10. -/
def known : Table Nat Entry :=
  [(0, .bridgeEntry), (1, ⟨.static, some 5, some 0x4005, .station (station (some (.seg .a)))⟩),
    (2, ⟨.learned, some 6, none, .station (station (some (.seg .b)))⟩),
    (3, ⟨.learned, some 7, some 0x4007, .station (station (some (.link .l0)))⟩),
    (4, ⟨.static, some 8, none, .station (station none)⟩),
    (5, ⟨.static, some 9, none, .printer (.line .lp1) 0⟩),
    (6, ⟨.static, some 10, none, .printer .pool 3⟩)]

/-- `up` with the directory, and a frame handed over by a port in record 0. -/
def handed (p : Port) (h : Header) (payload : List Byte) (s : State := { up with dir := known }) :
    State :=
  { s with
    handover := s.handover.set p [⟨h, 0⟩], records := [(0, ⟨1, payload, 1⟩)]
    nextRecord := 1, pool := ⟨1023, 1, 0⟩ }

/-- A queue entry of record 0. -/
def copy : QueueEntry := ⟨hdr 0x10 5 6 3, 0, some (.seg .b), .index 2⟩

/-- A port with one copy in its queue. -/
def queued (p : Port) (s : State := up) : State :=
  { s with
    queues := s.queues.set p [copy], records := [(0, ⟨1, [1, 2, 3], 1⟩)], nextRecord := 1
    pool := ⟨1023, 1, 0⟩ }

/-- A job in slot 0 of station 5. -/
def job (st : JobState) (bytes : List Byte := [65, 66]) : Job :=
  { submitter := .node 5, tag := 7, aliasIndex := 5, target := .line .lp1, level := 0, state := st
    holdOnClose := false, copies := 1, copiesLeft := 0, bytes := bytes, nextSeq := 1, quiet := 0
    readyOrder := none, line := none, printed := 0, endAsked := none }

/-- `up` with the directory and jobs from slot 0 on. -/
def spooled (js : List Job) : State :=
  { up with
    dir := known, jobs := (List.range js.length).zip js
    pool := ⟨1024 - js.length, 0, js.length⟩, nextOrder := 9 }

/-- LP1 with a job in service. -/
def serving (j : Job) (f : LineState → LineState) : State :=
  line (fun t => f { t with
    select := true, enabled := true, state := .feeding, job := some 0, takenFrom := some 0 })
    (spooled [{ j with line := some .lp1 }])

/-- The job in service. -/
def served (st : JobState) : Job := { job st with line := some .lp1 }

/-- A request of station 5 on TA, number 1. -/
def ask (code : Byte) (params : List Byte) : Request := ⟨.seg .a, .node 5, [1, code] ++ params⟩

/-- `s` with that request at the head of the queue. -/
def asked (code : Byte) (params : List Byte) (s : State := { up with dir := known }) : State :=
  { s with requests := [ask code params] }

/-! ### Well-formedness -/

theorem test_wellFormed_failed_save : (Instr.saveComplete (.failed 4484)).wellFormed = false := by decide
theorem test_wellFormed_failed_save_last : (Instr.saveComplete (.failed 4483)).wellFormed = true := by
  decide
theorem test_wellFormed_station : (Instr.setStation ⟨1, 0, 0, 1, false, false, false⟩).wellFormed = false := by
  decide
theorem test_wellFormed_alias : (Instr.setAlias ⟨1, 0, 0, 1, 0⟩).wellFormed = false := by decide
theorem test_wellFormed_good : (Instr.setAlias ⟨1, 9, 0, 1, 0⟩).wellFormed = true := by decide

/-! ### Worked examples -/

/-- CRC-16 and CRC-32 of the nine digits: the check values of their polynomials (R198). -/
theorem test_crc16 : crc16 [0x31, 0x32, 0x33, 0x34, 0x35, 0x36, 0x37, 0x38, 0x39] = 0x29B1 := by
  decide +kernel
theorem test_crc32 : crc32 [0x31, 0x32, 0x33, 0x34, 0x35, 0x36, 0x37, 0x38, 0x39] = 0xFC891918 := by
  decide +kernel
theorem test_headerCheck : byteSum (trunkHeader (hdr 0x10 5 6 3)) = 0xA5 := by decide

/-- What a command does to one part of a state. -/
def after {α : Type} (c : Instr) (s : State) (f : State → α) : Option α :=
  match exec c s with
  | .next t => some (f t)
  | _ => none

/-- A station's frame goes to its destination's home as it came (R92). -/
theorem test_forward : after (.takeFrame (.seg .a) false) (handed (.seg .a) (hdr 0x10 6 5 1) [1])
    (fun t => (t.queues.get (.seg .b)).map QueueEntry.header) = some [hdr 0x10 6 5 1] := by decide

/-- It is translated where it crosses to the pair side (R94). -/
theorem test_translate : after (.takeFrame (.seg .a) false) (handed (.seg .a) (hdr 0x10 7 5 1) [1])
    (fun t => (t.queues.get (.link .l0)).map QueueEntry.header) =
      some [⟨.address 0x4007, .address 0x4005, 0x10, 1⟩] := by decide

/-- `up` with LP1 idle and its printer on line. -/
def printing (s : State) : State :=
  line (fun t => { t with select := true, state := .idle, enabled := true }) s

/-- An OPEN to an alias of an idle line, then its bytes and its close, print at once (R102 to R111). -/
theorem test_open : after (.takeFrame (.seg .a) false)
    (handed (.seg .a) (hdr 0x80 9 5 4) [1, 7, 1, 0] { printing up with dir := known })
    (fun t => t.jobs.map fun d => (d.2.state, d.2.tag, d.2.target)) =
      some [(.arriving, 7, .line .lp1)] := by decide

theorem test_close : after (.takeFrame (.seg .a) false)
    { handed (.seg .a) (hdr 0x80 9 5 4) [3, 7, 2, 0, 0, 0] (printing (spooled [job .arriving])) with
      pool := ⟨1022, 1, 1⟩ }
    (fun t => ((t.lines.get .lp1).state, (t.lines.get .lp1).data, t.jobs.map fun d => d.2.state)) =
      some (.feeding, 65, [.printing]) := by decide

/-- A station that reaches the quarantine threshold is QUARANTINED and its flag raised (R151, R153). -/
theorem test_quarantine :
    let t := laidTo (.node 8) { up with
      dir := [(4, ⟨.static, some 8, none, .station { station none .suspect with tally := 23 }⟩)] }
    (t.station 4).map Station.standing = some .quarantined ∧ t.raised .stationQuarantined = true ∧
      t.attn = true := by decide

/-! ### States that meet the premises: steps, power and the image -/

theorem meets_UnitCommandsLeaveTheRestAlone_idle :
    (State.reset.pending = [] ∧ State.reset.active = true) ∧
      ({ State.reset with resetLow := true }.pending = [] ∧
        { State.reset with resetLow := true }.active = false) ∧
      { up with time := ⟨998, 59⟩ }.time.ms + 1 < 1000 ∧ 1000 ≤ { up with time := ⟨999, 59⟩ }.time.ms + 1 := by
  decide

/-- The last millisecond of a minute. -/
theorem test_tick : (tick { up with time := ⟨999, 59⟩ }).time = ⟨0, 0⟩ ∧
    (tick { up with time := ⟨999, 59⟩ }).window.time = 1 ∧
    (tick { up with time := ⟨998, 59⟩ }).time = ⟨999, 59⟩ := by decide

theorem meets_ResetAndPowerTakeEveryBlock :
    (up.powered = true ∧ up.resetLow = false) ∧
      ({ up with powered := false }.powered = false ∧ { up with powered := false }.resetLow = false) ∧
      ({ up with resetLow := true }.powered = true ∧ { up with resetLow := true }.resetLow = true) ∧
      ({ up with powered := false, resetLow := true }.powered = false ∧
        { up with powered := false, resetLow := true }.resetLow = true) := by
  decide

/-- Power on with RESET high: a link with signal trains, one without does not, and the load begins. -/
theorem test_powerOn :
    after .powerOn (link (fun t => { t with lineSignal := true }) { up with powered := false })
      (fun t => ((t.links.get .l0).line, (t.links.get .l0).signalSeen, (t.links.get .l1).line, t.loading)) =
      some (.training, true, .noSignal, true) := by decide

/-- A save in flight when RESET goes low leaves the memory as a failed save does. -/
theorem test_reset_loses_save :
    after .resetAssert { up with save := some ⟨ask 0x65 [], []⟩ } (fun t => (t.serial, t.save)) =
      some (.failedSave, none) := by decide

/-- The part at the load of the image of `s`, with some bytes of what the check word covers changed. -/
def imagedAs (s : State) (f : List Byte → List Byte := id) : State :=
  let body := f s.imageBody
  { State.reset with
    serial := (Serial.bytes []).written (Side.trunk.word (crc16 body).toNat ++ body) }

/-- An image with a port's and a line's bytes at the end of their range, and four static entries. -/
def wholeImage : State :=
  imagedAs { up with dir := known } fun b => ((b.set 0x44 7).set 0x48 3).set 0x49 15

/-- The same with bytes beyond it: an entry that is LEARNED, and one with the key of another. -/
def faultyImage : State :=
  imagedAs { up with dir := known } fun b =>
    (((((b.set 0x42 3).set 0x44 8).set 0x48 4).set 0x4B 16).set (0x192 + 2) 1).set (0x192 + 51) 9

/-- A property of the image that a memory holds. -/
def holdsImage (s : State) (f : List Byte → Bool) : Bool := s.serial.image.any f

set_option maxRecDepth 20000 in
theorem meets_LoadEndPutsTheImageInForce :
    (State.reset.active = true ∧ State.reset.loading = true ∧ ImageRead.noAcknowledge ≠ .allRead ∧
      ImageRead.transferFailed ≠ .allRead) ∧
      State.reset.serial.image = none := by
  decide +kernel

theorem meets_LoadEndPutsTheImageInForce_directory (s : State) (f : List Byte → List Byte) :
    (imagedAs s f).directoryOk :=
  ⟨by simp [imagedAs, State.reset, Table.rising], rfl, by simp [imagedAs, State.reset]; decide⟩

theorem meets_SavedImageReadsBack :
    up.savedEntries.length ≤ 255 ∧ up.sweep.steps.length ≤ 32 ∧ Settings.default.ok :=
  ⟨by decide, by decide, Settings.default_ok⟩

theorem meets_SavedImageReadsBack_entry :
    (let t : Station := station (some (.seg .a))
     let e : Entry := ⟨.static, some 253, some 0xFFEF, .station { t with pinned := true }⟩
     e.kind ≠ .bridge ∧ e.keys ≠ [] ∧ (∀ k ∈ e.keys, k.isStation = true) ∧ t.home = some (.seg .a) ∧
      ∃ k ∈ e.keys, k.side = (Port.seg .a).side) ∧
    (let e : Entry := ⟨.static, some 1, none, .printer .pool 3⟩
     e.keys ≠ [] ∧ ∀ k ∈ e.keys, k.isStation = true) := by decide

/-- Of two records with one key the lower index wins, in whatever order they stand (R78). -/
theorem test_image_order :
    let e : Entry := ⟨.static, some 5, none, .station (station none)⟩
    let (t, bad) := loadEntries (inIndexOrder [(2, e), (1, e)]) (up, false)
    t.dir.find 1 = some e ∧ t.dir.find 2 = none ∧ bad = true := by decide

/-! ### Segments -/

/-- A reception into record 0. -/
def hearing (header : List Byte) (count : Nat) (check : List Byte) (stored : List Byte)
    (s : State := up) : State :=
  { seg (fun t => { t with carrier := true, rx := .receiving ⟨header, count, check, 0, false⟩ }) s with
    records := [(0, ⟨1, stored, 1⟩)], nextRecord := 1, pool := ⟨1023, 1, 0⟩ }

/-- Six header bytes from node 5 to node 6, kind 10h, with a length. -/
def sixFor (n : Nat) : List Byte := trunkHeader (hdr 0x10 6 5 n)

theorem meets_CarrierRiseAndBytesAreTaken_rise :
    (up.active = true ∧ (up.segs.get .a).carrier = false ∧ (up.segs.get .a).rx = .idle ∧
      (up.segs.get .a).tx ≠ .sending ∧ (up.segs.get .a).loop ≠ .internal ∧
      up.serviceOf (.seg .a) ≠ .off ∧ 0 < up.pool.free) ∧
    { up with pool := ⟨0, 1024, 0⟩ }.pool.free = 0 ∧
    { up with pool := ⟨64, 960, 0⟩ }.pool.free = up.config.poolLow ∧
    (let s := seg fun t => { t with tx := .sending, loop := .external }
     (s.segs.get .a).loop = .external ∧ (s.segs.get .a).tx = .sending ∧ (s.segs.get .a).rx = .idle) := by
  decide

theorem meets_CarrierRiseAndBytesAreTaken_byte :
    ((hearing [1, 2, 3, 4, 5] 5 [] []).active = true ∧
      ((hearing [1, 2, 3, 4, 5] 5 [] []).segs.get .a).rx = .receiving ⟨[1, 2, 3, 4, 5], 5, [], 0, false⟩ ∧
      (hearing [1, 2, 3, 4, 5] 5 [] []).records.find 0 = some ⟨1, [], 1⟩) ∧
    1010 < trunkLength (sixFor 1011) ∧ trunkLength (sixFor 1010) ≤ 1010 ∧
    ((List.replicate 127 (0 : Byte)).length < trunkLength (sixFor 1010) ∧
      (List.replicate 127 (0 : Byte)).length < 128 * 1) ∧
    (128 * 1 ≤ (List.replicate 128 (0 : Byte)).length ∧
      { hearing (sixFor 129) 134 [] (List.replicate 128 0) with pool := ⟨0, 1024, 0⟩ }.pool.free = 0 ∧
      128 < trunkLength (sixFor 129) ∧ 0 < (hearing (sixFor 129) 134 [] (List.replicate 128 0)).pool.free) ∧
    (trunkLength (sixFor 3) ≤ [1, 2, (3 : Byte)].length ∧ [(9 : Byte)].length < 2 ∧
      2 ≤ [(9 : Byte), 9].length) := by decide +kernel

theorem meets_CarrierFallEndsTheReception :
    (let s := hearing (sixFor 3) 11 (Side.trunk.word (crc16 (sixFor 3 ++ [1, 2, 3])).toNat) [1, 2, 3]
     s.active = true ∧ s.resultWaits = false ∧ (s.segs.get .a).carrier = true ∧
      classifySeg ⟨sixFor 3, 11, Side.trunk.word (crc16 (sixFor 3 ++ [1, 2, 3])).toNat, 0, false⟩
        (s.payload 0) = .good) ∧
    (let s := hearing [1, 2, 3, 4, 5] 5 [] [] early
     classifySeg ⟨[1, 2, 3, 4, 5], 5, [], 0, false⟩ (s.payload 0) = .runt ∧ s.window.running = false) ∧
    (let s := placed (.seg .a) .off none (hearing [1, 2, 3, 4, 5] 5 [] [])
     s.active = true ∧ s.resultWaits = false ∧ s.serviceOf (.seg .a) = .off) ∧
    (let s := { hearing [1, 2, 3, 4, 5, 6] 6 [] [] with
        segWin := ⟨{ SegWindow.zero with runts := 18 }, .zero⟩ }
     classifySeg ⟨[1, 2, 3, 4, 5, 6], 6, [], 0, false⟩ (s.payload 0) = .headerBad ∧
      s.window.running = true ∧ s.serviceOf (.seg .a) ≠ .off ∧
      s.errorSum (.seg .a) + 1 < halfUp s.config.segThreshold ∧
      ¬ s.errorSum (.seg .a) + 2 < halfUp s.config.segThreshold) ∧
    classifySeg ⟨sixFor 3, 10, [0], 0, false⟩ [1, 2, 3] = .lengthBad ∧
    classifySeg ⟨sixFor 3, 11, [0, 0], 0, false⟩ [1, 2, 3] = .bodyBad := by decide +kernel

theorem meets_ReceptionsAreClassifiedInOrder :
    (5 < 6 ∧ byteSum [1, 2, 3, 4, 5, 6] ≠ 0xA5 ∧ byteSum (sixFor 3) = 0xA5 ∧
      (11 = 6 + trunkLength (sixFor 3) + 2 ∧ 12 ≠ 6 + trunkLength (sixFor 3) + 2) ∧
      [0, 0] ≠ Side.trunk.word (crc16 (sixFor 3 ++ [1, 2, 3])).toNat) ∧
    (let h := officeHeader ⟨.address 1, .address 2, 0x10, 0⟩
     let c := h.foldl crc32Byte crc32Start
     (⟨h, 11, c, Side.pair.long (~~~ c).toNat, 0, false, false⟩ : LinkReception).symbolError = false ∧
      classifyLink ⟨h, 11, c, Side.pair.long (~~~ c).toNat, 0, false, false⟩ = .good ∧
      classifyLink ⟨h, 12, c, Side.pair.long (~~~ c).toNat, 0, false, false⟩ = .lengthBad ∧
      classifyLink ⟨h, 11, c, [0, 0, 0, 0], 0, false, false⟩ = .checkBad) := by decide +kernel

theorem meets_DrivenFramesAreReceivedGood :
    (List.replicate 1010 (0 : Byte)).length ≤ 1010 ∧ (List.replicate 1472 (0 : Byte)).length ≤ 1472 := by
  decide +kernel

theorem meets_SegmentSendsItsQueueHead :
    (let s := queued (.seg .a)
     s.active = true ∧ s.serviceOf (.seg .a) = .inService ∧ (s.segs.get .a).loop = .normal ∧
      s.queues.get (.seg .a) = [copy] ∧ (s.segs.get .a).tx = .idle) ∧
    (let s := queued (.seg .a) (seg fun t => { t with tx := .deferring, inFlight := some .head })
     (s.segs.get .a).tx = .deferring ∧ (s.segs.get .a).inFlight = some .head ∧
      (s.segs.get .a).carrier = false) ∧
    (let s := queued (.seg .a) (seg fun t => { t with carrier := true })
     (s.segs.get .a).carrier = true ∧ s.serviceOf (.seg .a) = .inService) ∧
    (let s := placed (.seg .a) .probing none (seg fun t => { t with inFlight := some .head })
     s.serviceOf (.seg .a) ≠ .inService ∧ (s.segs.get .a).inFlight = some .head) ∧
    (let s := queued (.seg .a) (seg fun t => { t with tx := .sending, inFlight := some .head })
     s.active = true ∧ s.resultWaits = false ∧ (s.segs.get .a).tx = .sending ∧
      (s.segs.get .a).loop = .normal ∧ (s.segs.get .a).inFlight = some .head ∧
      s.queues.get (.seg .a) = [copy]) := by decide

/-- A port with a TEST frame in its slot, in record 0; record 1 is a reception's. -/
def slotted (p : Port) (s : State := up) : State :=
  { s with
    slots := s.slots.set p (some 0), nextRecord := 2, pool := ⟨1022, 2, 0⟩
    records := [(0, ⟨1, [8, 9], 2⟩), (1, ⟨1, [], 1⟩)] }

/-- A segment that drives its TEST frame. -/
def drivenTest (loop : LoopMode) (rx : SegRx) (s : State := up) : State :=
  slotted (.seg .a) (seg (fun t => { t with
    tx := .sending, inFlight := some .test, loop := loop, rx := rx
    wire := trunkFrame ⟨.node 254, .node 254, kindTest, 2⟩ [8, 9] }) s)

theorem meets_SegmentSendsItsQueueHead_take :
    (let s := slotted (.seg .a) (placed (.seg .a) .off none (seg fun t => { t with loop := .external }))
     s.active = true ∧ s.slots.get (.seg .a) = some 0 ∧ (s.segs.get .a).tx = .idle ∧
      (s.segs.get .a).loop = .external) ∧
    (let s := slotted (.seg .a) (seg fun t => { t with loop := .internal })
     (s.segs.get .a).tx = .idle ∧ (s.segs.get .a).loop = .internal ∧ (s.segs.get .a).rx = .idle ∧
      0 < s.pool.free ∧ { s with pool := ⟨0, 1024, 0⟩ }.pool.free = 0) ∧
    (let s := slotted (.seg .a) (seg fun t => { t with loop := .internal, rx := .discarding false })
     (s.segs.get .a).tx = .idle ∧ (s.segs.get .a).rx ≠ .idle) ∧
    (let s := slotted (.seg .a) (seg fun t => { t with
        loop := .external, tx := .deferring, inFlight := some .test })
     (s.segs.get .a).inFlight = some .test ∧ (s.segs.get .a).tx = .deferring ∧
      (s.segs.get .a).carrier = false) ∧
    ((up.segs.get .a).loop = .normal ∧ up.queues.get (.seg .a) = []) ∧
    (let s := seg fun t => { t with loop := .internal }
     (s.segs.get .a).loop ≠ .normal ∧ s.slots.get (.seg .a) = none) ∧
    ((drivenTest .external .idle).segs.get .a).tx ≠ .idle := by decide +kernel

theorem meets_SegmentSendsItsQueueHead_sent :
    (let s := drivenTest .external .idle
     s.active = true ∧ s.resultWaits = false ∧ s.slots.get (.seg .a) = some 0 ∧
      (s.segs.get .a).inFlight = some .test ∧ (s.segs.get .a).tx = .sending ∧
      s.testOf (.seg .a) = none ∧ (s.segs.get .a).loop ≠ .internal) ∧
    (let s := drivenTest .internal (.discarding false)
     (s.segs.get .a).loop = .internal ∧ (s.segs.get .a).rx.own = false) ∧
    (let s := drivenTest .internal (.discarding true)
     (s.segs.get .a).rx = .discarding true ∧ s.testOf (.seg .a) = none) ∧
    (let s := drivenTest .internal (.receiving ⟨[], 0, [], 1, true⟩)
     (s.segs.get .a).rx = .receiving ⟨[], 0, [], 1, true⟩ ∧ (s.payload 0).length = 2 ∧
      (s.segs.get .a).wire = trunkFrame ⟨.node 254, .node 254, kindTest, 2⟩ (s.payload 0) ∧
      s.records.find 1 = some ⟨1, [], 1⟩ ∧ 1 ≠ 0) ∧
    (let s := placed (.seg .a) .testing (some ⟨.entry, .external, 2, some 40, .slot⟩)
        (drivenTest .external .idle)
     s.testOf (.seg .a) = some ⟨.entry, .external, 2, some 40, .slot⟩ ∧
      TestPhase.external.sends = true ∧ 0 < s.pool.free) := by decide +kernel

/-- A TEST frame sent in INTERNAL mode is handed over by the receiver, and leaves its slot (R8, R15). -/
theorem test_internal_sent :
    after (.segmentSent .a) (drivenTest .internal (.receiving ⟨[], 0, [], 1, true⟩))
      (fun t => (t.handover.get (.seg .a), t.payload 1, t.slots.get (.seg .a), t.records.find 0)) =
      some ([⟨⟨.node 254, .node 254, kindTest, 2⟩, 1⟩], [8, 9], none, none) := by
  decide +kernel

theorem meets_CollisionRetriesThenDrops_test :
    (let s := drivenTest .external .idle
     s.active = true ∧ s.resultWaits = false ∧ (s.segs.get .a).tx = .sending ∧
      (s.segs.get .a).loop = .external ∧ (s.segs.get .a).inFlight = some .test ∧
      s.slots.get (.seg .a) = some 0 ∧ s.testOf (.seg .a) = none) ∧
    (let s := placed (.seg .a) .testing (some ⟨.entry, .external, 2, some 40, .none⟩)
        (drivenTest .external .idle)
     s.testOf (.seg .a) = some ⟨.entry, .external, 2, some 40, .none⟩ ∧
      TestPhase.external.sends = true ∧ 0 < s.pool.free) ∧
    ((drivenTest .internal .idle).segs.get .a).loop = .internal := by decide +kernel

/-- A collided TEST frame is placed afresh, and its time runs on (R162). -/
theorem test_collided_test :
    after (.collision .a) (placed (.seg .a) .testing (some ⟨.entry, .external, 2, some 40, .none⟩)
        (drivenTest .external .idle))
      (fun t => (t.slots.get (.seg .a), t.testOf (.seg .a), (t.segs.get .a).tx)) =
      some (some 2, some ⟨.entry, .external, 2, some 40, .none⟩, .idle) := by decide +kernel

theorem meets_CollisionRetriesThenDrops :
    (let s := seg fun t => { t with tx := .sending, inFlight := some .head, attempts := 6 }
     s.active = true ∧ s.resultWaits = false ∧ (s.segs.get .a).tx = .sending ∧
      (s.segs.get .a).loop = .normal ∧ (s.segs.get .a).inFlight = some .head ∧
      (s.segs.get .a).attempts < 7) ∧
    (let s := { queued (.seg .a)
        (seg fun t => { t with tx := .sending, inFlight := some .head, attempts := 7 }) with
        segWin := ⟨{ SegWindow.zero with runts := 18 }, .zero⟩ }
     s.active = true ∧ s.resultWaits = false ∧ (s.segs.get .a).tx = .sending ∧
      (s.segs.get .a).loop = .normal ∧ (s.segs.get .a).inFlight = some .head ∧
      (s.segs.get .a).attempts = 7 ∧ s.window.running = true ∧
      s.errorSum (.seg .a) + 1 < halfUp s.config.segThreshold) ∧
    ((seg fun t => { t with tx := .retryWait }).segs.get .a).tx = .retryWait ∧
    (up.segs.get .a).tx ≠ .sending := by decide

theorem meets_StuckAndUnterminatedAreReported :
    (let s := { hearing (sixFor 3) 11 [] [1, 2, 3] with
        segWin := ⟨{ SegWindow.zero with runts := 39 }, .zero⟩ }
     s.active = true ∧ s.resultWaits = false ∧ s.window.running = true ∧
      (s.segs.get .a).carrier = true ∧ (s.segs.get .a).stuck = false ∧
      (s.segs.get .a).rx = .receiving ⟨sixFor 3, 11, [], 0, false⟩ ∧
      s.errorSum (.seg .a) < s.config.segThreshold ∧
      (s.segs.get .a).loop ≠ .external ∧ s.serviceOf (.seg .a) ≠ .off) ∧
    (let s := placed (.seg .a) .off none (seg (fun t => { t with carrier := true, loop := .external }) early)
     s.active = true ∧ s.resultWaits = false ∧ (s.segs.get .a).carrier = true ∧
      (s.segs.get .a).stuck = false ∧ s.serviceOf (.seg .a) = .off) ∧
    (let s := placed (.seg .a) .testing (some ⟨.entry, .external, 2, some 9, .none⟩)
        (seg fun t => { t with carrier := true, loop := .external })
     s.active = true ∧ s.resultWaits = false ∧ (s.segs.get .a).carrier = true ∧
      (s.segs.get .a).stuck = false ∧ s.window.running = true ∧
      s.errorSum (.seg .a) < s.config.segThreshold ∧ (s.segs.get .a).loop = .external ∧
      s.serviceOf (.seg .a) = .testing ∧ s.heldReply = none ∧
      s.testOf (.seg .a) = some ⟨.entry, .external, 2, some 9, .none⟩) ∧
    (let s := seg fun t => { t with carrier := true, stuck := true, heldTimer := some 0 }
     s.active = true ∧ s.resultWaits = false ∧ s.window.running = true ∧
      s.serviceOf (.seg .a) = .inService ∧ s.heldReply = none ∧ (s.segs.get .a).stuck = true ∧
      (s.segs.get .a).heldTimer.isSome = true) ∧
    (let s := { seg (fun t => { t with tx := .sending }) with
        segWin := ⟨{ SegWindow.zero with runts := 39 }, .zero⟩ }
     (s.segs.get .a).tx = .sending ∧ (s.segs.get .a).loop = .normal ∧
      (s.segs.get .a).untermSeen = false ∧ s.errorSum (.seg .a) < s.config.segThreshold) ∧
    ((seg fun t => { t with untermSeen := true }).segs.get .a).untermSeen = true := by decide

/-! ### Links and interfaces -/

theorem meets_SignalAndTrainingMoveTheLine :
    (up.active = true ∧ up.resultWaits = false ∧ up.held .l0 = false ∧
      (up.links.get .l0).line = .noSignal ∧ (up.links.get .l0).retrainPause = none ∧
      (up.links.get .l0).line ≠ .connected ∧ (up.links.get .l0).line ≠ .training) ∧
    { up with ifaces := ⟨⟨true, 0⟩, ⟨false, 0⟩⟩ }.held .l0 = true ∧
    (let s := link fun t => { t with retrainPause := some 1000 }
     ¬ ((s.links.get .l0).line = .noSignal ∧ (s.links.get .l0).retrainPause = none)) ∧
    (let s := link fun t => { t with signalSeen := true, retrainPause := some 0 }
     s.held .l0 = false ∧ (s.links.get .l0).line = .noSignal ∧ (s.links.get .l0).signalSeen = true ∧
      (s.links.get .l0).retrainPause.isSome = true) ∧
    (let s := link fun t => { t with line := .training }
     s.held .l0 = false ∧ (s.links.get .l0).line = .training ∧ s.serviceOf (.link .l0) ≠ .testing) ∧
    (let s := placed (.link .l0) .testing (some ⟨.entry, .waitConnect, 1, none, .none⟩)
        (link fun t => { t with line := .training })
     s.serviceOf (.link .l0) = .testing ∧ s.resultWaits = false ∧
      ((s.testOf (.link .l0)).map PortTest.phase) = some .waitConnect) := by decide

/-- A CONNECTED link. -/
def connected (s : State := up) : State :=
  link (fun t => { t with line := .connected, lineSignal := true, signalSeen := true }) s

theorem meets_ConnectionLossIsTaken :
    ((connected).active = true ∧ (connected).resultWaits = false ∧
      ((connected).links.get .l0).line = .connected ∧
      ((connected).links.get .l0).rx.looping = false ∧
      (connected).serviceOf (.link .l0) = .inService) ∧
    (placed (.link .l0) .off none (connected)).serviceOf (.link .l0) = .off ∧
    (placed (.link .l0) .isolated none (connected)).serviceOf (.link .l0) = .isolated ∧
    (placed (.link .l0) .failed none (connected)).serviceOf (.link .l0) = .failed ∧
    ((connected).errorSum (.link .l0) < (connected).config.linkThreshold ∧
      (connected).flapCount (.link .l0) + 1 < (connected).config.flapLimit ∧
      (queued (.link .l0) connected).queues.get (.link .l0) ≠ [] ∧
      (queued (.link .l0) connected).inFlight (.link .l0) ≠ some .test) ∧
    (connected early).window.running = false := by decide

/-- L0 in PROBING with the loop of a RUN-STEP. -/
def probed : State :=
  { placed (.link .l0) .probing (some ⟨.probe, .external, 1, some 40, .none⟩)
      (link (fun t => { t with loop := .external }) connected) with
    sweep := { Sweep.atReset with
      steps := [⟨.port (.link .l0), .loopExternal, 2, .note, .notRun, 0⟩], run := some ⟨.single, 1⟩
      outstanding := some (.loop 1 .loopExternal none) } }

theorem meets_ConnectionLossIsTaken_test :
    (probed.active = true ∧ probed.resultWaits = false ∧ (probed.links.get .l0).line = .connected ∧
      probed.serviceOf (.link .l0) = .probing ∧
      probed.testOf (.link .l0) = some ⟨.probe, .external, 1, some 40, .none⟩ ∧
      probed.sweep.passWaiting = false ∧
      probed.sweep.step 1 = some ⟨.port (.link .l0), .loopExternal, 2, .note, .notRun, 0⟩ ∧
      (0 : Nat) + 1 < 2) ∧
    (let s := placed (.link .l0) .testing (some ⟨.entry, .external, 2, some 40, .none⟩) connected
     s.serviceOf (.link .l0) = .testing ∧
      s.testOf (.link .l0) = some ⟨.entry, .external, 2, some 40, .none⟩ ∧
      (s.links.get .l0).line = .connected) ∧
    (let s := placed (.link .l0) .testing (some ⟨.entry, .held, 0, none, .none⟩) connected
     s.testOf (.link .l0) = some ⟨.entry, .held, 0, none, .none⟩ ∧ s.serviceOf (.link .l0) = .testing) := by
  decide

/-- In PROBING the loop fails and the link waits for its connection (R166, R170). -/
theorem test_loss_in_probing :
    after (.signalLost .l0) probed (fun t => (t.serviceOf (.link .l0),
        (t.testOf (.link .l0)).map PortTest.phase, t.sweep.steps.map SweepStep.result)) =
      some (.testing, some .waitConnect, [.fail]) := by decide +kernel

/-- The last flap of a window asks for isolation: in either order the link leaves IN-SERVICE. -/
theorem test_flap_below_limit :
    after (.signalLost .l0) (connected)
      (fun t => (t.serviceOf (.link .l0), (t.linkWin.get .l0).flaps)) = some (.testing, 1) := by decide

/-- A link reception into record 0. -/
def linked (r : LinkReception) (stored : List Byte) (s : State := connected) : State :=
  { link (fun t => { t with rx := .receiving r }) s with
    records := [(0, ⟨1, stored, 1⟩)], nextRecord := 1, pool := ⟨1023, 1, 0⟩ }

/-- Seven header bytes with a length. -/
def sevenFor (n : Nat) : List Byte := officeHeader ⟨.address 2, .address 1, 0x10, n⟩

theorem meets_FrameStartAndBytesAreTaken :
    ((connected).active = true ∧ (connected).resultWaits = false ∧ (connected).held .l0 = false ∧
      ((connected).links.get .l0).loop ≠ .internal ∧ ((connected).links.get .l0).rx = .idle ∧
      ((connected).links.get .l0).line = .connected ∧ (connected).serviceOf (.link .l0) ≠ .off ∧
      0 < (connected).pool.free) ∧
    { connected with pool := ⟨0, 1024, 0⟩ }.pool.free = 0 ∧
    { connected with pool := ⟨64, 960, 0⟩ }.pool.free = (connected).config.poolLow ∧
    ((up.links.get .l0).rx = .idle ∧ (up.links.get .l0).line ≠ .connected) ∧
    ((placed (.link .l0) .off none (connected)).serviceOf (.link .l0) = .off ∧
      ((link (fun t => { t with loop := .internal }) connected).links.get .l0).loop = .internal) ∧
    (let r : LinkReception := ⟨[1, 2, 3, 4, 5, 6], 6, crc32Start, [3, 4, 5, 6], 0, false, false⟩
     ((linked r []).links.get .l0).rx = .receiving r ∧
      (linked r []).records.find 0 = some ⟨1, [], 1⟩ ∧ r.header.length < 7) ∧
    (7 ≤ (sevenFor 1472).length ∧ 1472 < officeLength (sevenFor 1473) ∧
      officeLength (sevenFor 3) ≤ [1, 2, (3 : Byte)].length) ∧
    (officeLength (sevenFor 1472) ≤ 1472 ∧
      (List.replicate 127 (0 : Byte)).length < officeLength (sevenFor 1472) ∧
      (List.replicate 127 (0 : Byte)).length < 128 * 1) ∧
    (128 * 1 ≤ (List.replicate 128 (0 : Byte)).length ∧
      (List.replicate 128 (0 : Byte)).length < officeLength (sevenFor 129) ∧
      0 < (linked ⟨sevenFor 129, 135, crc32Start, [], 0, false, false⟩
        (List.replicate 128 0)).pool.free) := by decide +kernel

/-- A whole link frame of no payload. -/
def wholeLink (symbolError : Bool) : LinkReception :=
  let c := (sevenFor 0).foldl crc32Byte crc32Start
  ⟨sevenFor 0, 11, c, Side.pair.long (~~~ c).toNat, 0, symbolError, false⟩

theorem meets_SymbolErrorsAndFrameEndsAreTaken :
    (let s := linked (wholeLink false) [] (connected early)
     s.active = true ∧ s.resultWaits = false ∧ s.held .l0 = false ∧ s.window.running = false ∧
      (s.links.get .l0).rx = .receiving (wholeLink false) ∧ (wholeLink false).looped = false ∧
      classifyLink (wholeLink false) = .good) ∧
    (let s := { linked (wholeLink true) [] with
        linkWin := up.linkWin.set .l0 { LinkWindow.zero with checkBad := 18 } }
     s.active = true ∧ s.resultWaits = false ∧ s.held .l0 = false ∧ s.window.running = true ∧
      s.serviceOf (.link .l0) ≠ .off ∧
      s.errorSum (.link .l0) + 1 < halfUp s.config.linkThreshold) ∧
    (let s := placed (.link .l0) .off none (linked (wholeLink true) [])
     s.active = true ∧ s.resultWaits = false ∧ s.window.running = true ∧
      s.serviceOf (.link .l0) = .off) ∧
    (let s := link (fun t => { t with rx := .discarding false }) early
     (s.links.get .l0).rx = .discarding false ∧ s.held .l0 = false ∧ s.window.running = false) ∧
    (early.links.get .l0).rx = .idle ∧
    classifyLink (wholeLink true) = .symbolError ∧
    classifyLink { wholeLink false with count := 10 } = .checkBad ∧
    classifyLink { wholeLink false with count := 12 } = .lengthBad := by decide +kernel

theorem meets_LinkSendsItsQueueHead :
    (let s := queued (.link .l0) connected
     s.active = true ∧ s.resultWaits = false ∧ (s.links.get .l0).loop = .normal ∧
      s.queues.get (.link .l0) = [copy] ∧ (s.links.get .l0).tx = .idle ∧
      s.serviceOf (.link .l0) = .inService ∧ (s.links.get .l0).line = .connected) ∧
    (let s := queued (.link .l0)
     s.queues.get (.link .l0) = [copy] ∧ (s.links.get .l0).line ≠ .connected) ∧
    (let s := queued (.link .l0) (link (fun t => { t with tx := .sending, inFlight := some .head }) connected)
     (s.links.get .l0).tx = .sending ∧ (s.links.get .l0).inFlight = some .head ∧
      s.queues.get (.link .l0) = [copy]) ∧
    (let s := link (fun t => { t with tx := .gap }) connected
     s.active = true ∧ (s.links.get .l0).tx = .gap ∧ s.queues.get (.link .l0) = []) ∧
    (up.links.get .l0).tx ≠ .gap := by decide

/-- A link that drives its TEST frame. -/
def drivenLinkTest (loop : LoopMode) (rx : LinkRx) (s : State := connected) : State :=
  slotted (.link .l0) (link (fun t => { t with
    tx := .sending, inFlight := some .test, loop := loop, rx := rx
    wire := officeFrame ⟨.address 0xFFFE, .address 0xFFFE, kindTest, 2⟩ [8, 9] }) s)

theorem meets_LinkSendsItsQueueHead_take :
    (let s := slotted (.link .l0) (link (fun t => { t with loop := .external }) connected)
     s.active = true ∧ s.slots.get (.link .l0) = some 0 ∧ (s.links.get .l0).tx = .idle ∧
      (s.links.get .l0).loop = .external ∧ (s.links.get .l0).line = .connected) ∧
    (let s := slotted (.link .l0) (placed (.link .l0) .off none (link fun t => { t with loop := .internal }))
     (s.links.get .l0).tx = .idle ∧ (s.links.get .l0).loop = .internal ∧
      (s.links.get .l0).line ≠ .connected ∧ (s.links.get .l0).rx = .idle ∧ 0 < s.pool.free ∧
      { s with pool := ⟨0, 1024, 0⟩ }.pool.free = 0) ∧
    (let s := slotted (.link .l0) (link fun t => { t with loop := .internal, rx := .discarding false })
     (s.links.get .l0).tx = .idle ∧ (s.links.get .l0).rx ≠ .idle) ∧
    ((drivenLinkTest .internal .idle).links.get .l0).tx ≠ .idle ∧
    ((connected).links.get .l0).loop = .normal ∧ (connected).queues.get (.link .l0) = [] ∧
    (let s := slotted (.link .l0) (link fun t => { t with loop := .external })
     (s.links.get .l0).loop = .external ∧ (s.links.get .l0).line ≠ .connected) ∧
    (let s := link fun t => { t with loop := .internal }
     (s.links.get .l0).loop ≠ .normal ∧ s.slots.get (.link .l0) = none) := by decide +kernel

theorem meets_LinkSendsItsQueueHead_sent :
    (let s := drivenLinkTest .external .idle
     s.active = true ∧ s.resultWaits = false ∧ s.slots.get (.link .l0) = some 0 ∧
      (s.links.get .l0).inFlight = some .test ∧ (s.links.get .l0).tx = .sending ∧
      s.testOf (.link .l0) = none ∧ (s.links.get .l0).loop ≠ .internal) ∧
    (let s := drivenLinkTest .internal (.discarding false)
     (s.links.get .l0).loop = .internal ∧ (s.links.get .l0).rx.own = false) ∧
    (let s := drivenLinkTest .internal (.discarding true)
     (s.links.get .l0).rx = .discarding true ∧ s.testOf (.link .l0) = none) ∧
    (let s := drivenLinkTest .internal (.receiving ⟨[], 0, crc32Start, [], 1, false, true⟩)
     (s.links.get .l0).rx = .receiving ⟨[], 0, crc32Start, [], 1, false, true⟩ ∧
      (s.payload 0).length = 2 ∧ (s.links.get .l0).wire =
        officeFrame ⟨.address 0xFFFE, .address 0xFFFE, kindTest, 2⟩ (s.payload 0) ∧
      s.records.find 1 = some ⟨1, [], 1⟩ ∧ 1 ≠ 0) ∧
    (let s := placed (.link .l0) .testing (some ⟨.entry, .external, 2, some 40, .slot⟩)
        (drivenLinkTest .external .idle)
     s.testOf (.link .l0) = some ⟨.entry, .external, 2, some 40, .slot⟩ ∧
      TestPhase.external.sends = true ∧ 0 < s.pool.free) := by decide +kernel

/-- A TEST frame sent in INTERNAL mode is handed over by the receiver, and the gap begins (R26, R27). -/
theorem test_internal_link_sent :
    after (.linkSent .l0) (drivenLinkTest .internal (.receiving ⟨[], 0, crc32Start, [], 1, false, true⟩))
      (fun t => (t.handover.get (.link .l0), t.payload 1, (t.links.get .l0).tx)) =
      some ([⟨⟨.address 0xFFFE, .address 0xFFFE, kindTest, 2⟩, 1⟩], [8, 9], .gap) := by
  decide +kernel

theorem meets_ClockLossTakesBothLinksDown :
    (up.active = true ∧ up.sweep.outstanding = none ∧ (up.ifaces.get .li0).clockHold = false ∧
      Link.l2.iface ≠ .li0) ∧
    (let s := link (fun t => { t with lineSignal := true }) { up with ifaces := ⟨⟨true, 1000⟩, ⟨false, 0⟩⟩ }
     s.active = true ∧ s.sweep.outstanding = none ∧ (s.ifaces.get .li0).clockHold = true ∧
      Link.l0 ∈ Iface.li0.links ∧ (s.links.get .l0).line = .noSignal ∧
      (s.links.get .l0).retrainPause = none ∧ (s.links.get .l0).lineSignal = true) := by decide

/-! ### Frame memory and flags -/

theorem meets_OffersAreJudgedInOrder :
    (let s := placed (.seg .a) .testing none { up with dir := known }
     s.serviceOf (.seg .a) ≠ .inService ∧ s.serviceOf (.seg .a) ≠ .probing) ∧
    (let s := { up with dir := [(2, ⟨.learned, some 6, none, .station (station none .quarantined)⟩)] }
     s.serviceOf (.seg .b) = .inService ∧ copy.source = .index 2 ∧ s.quarantined 2 = true) ∧
    (let s := { up with records := [(0, ⟨8, List.replicate 1011 0, 1⟩)] }
     Port.side (.seg .a) = .trunk ∧ 1010 < (s.payload copy.record).length) ∧
    (let s := { up with
        queues := ⟨⟨List.replicate 64 copy, []⟩, .fill []⟩, records := [(0, ⟨1, [1], 65⟩)] }
     64 ≤ (s.queues.get (.seg .a)).length) ∧
    (let s := { up with
        records := [(0, ⟨2, [1], 1⟩)], config := { up.config with quota := .fill 1 } }
     s.queues.get (.seg .a) = [] ∧
      s.config.quota.get (.seg .a) < s.quotaUse (.seg .a) + s.blocksOf copy.record) ∧
    (let s := { up with
        records := [(0, ⟨1, [1], 1⟩)], config := { up.config with quota := .fill 1 } }
     s.serviceOf (.seg .a) = .inService ∧ (s.payload copy.record).length ≤ 1010 ∧
      (s.queues.get (.seg .a)).length < 64 ∧
      s.quotaUse (.seg .a) + s.blocksOf copy.record ≤ s.config.quota.get (.seg .a) ∧
      (offer (.seg .a) copy s).1 = true) := by decide +kernel

theorem meets_BlocksAreTakenAndGivenBack :
    ((queued (.seg .a)).records.find 0 = some ⟨1, [1, 2, 3], 1⟩ ∧
      { up with records := [(0, ⟨1, [], 2⟩)] }.records.find 0 = some ⟨1, [], 2⟩) ∧
    ((queued (.seg .a)).queues.get (.seg .a) ≠ [] ∧ (up.links.get .l0).tx ≠ .gap ∧
      Port.link .l1 ≠ .seg .a) ∧
    { up with pool := ⟨96, 928, 0⟩ }.pool.free < up.config.reserve + 1 ∧
    (let s := { up with pool := ⟨97, 287, 640⟩ }
     s.config.reserve + 1 ≤ s.pool.free ∧ s.config.spoolLimit < s.pool.spoolHeld + 1) ∧
    (let s := { up with
        pool := ⟨64, 321, 639⟩, config := { up.config with reserve := 0, poolLow := 64 } }
     s.config.reserve + 1 ≤ s.pool.free ∧ s.pool.spoolHeld + 1 ≤ s.config.spoolLimit ∧
      s.pool.free = s.config.poolLow ∧
      s.pool.spoolHeld + 1 ≠ s.config.spoolLimit - s.config.nearFullMargin) ∧
    (let s := { up with pool := ⟨97, 352, 575⟩ }
     s.config.reserve + 1 ≤ s.pool.free ∧ s.pool.spoolHeld + 1 ≤ s.config.spoolLimit ∧
      s.pool.spoolHeld + 1 = s.config.spoolLimit - s.config.nearFullMargin ∧
      s.pool.free ≠ s.config.poolLow) := by decide

theorem meets_RaisedFlagsCountAndNotify :
    { up with flags := 1 }.raised .directoryFull = true ∧
    (up.raised .nodeClash = false ∧ up.masked .nodeClash = true ∧ up.noticeOut = false ∧
      up.config.notice = none ∧ { up with mask := 0 }.masked .nodeClash = false ∧
      Flag.nodeClash ≠ .imageFault ∧ Flag.nodeClash ≠ .poolLow) ∧
    (let s := { up with config := { up.config with notice := some (.node 5) } }
     s.raised .nodeClash = false ∧ s.masked .nodeClash = true ∧ s.noticeOut = false ∧
      s.config.notice = some (.node 5) ∧ s.route (.node 5) = none) ∧
    (let s := { up with
        dir := known, config := { up.config with notice := some (.node 5) }, pool := ⟨0, 1024, 0⟩ }
     s.route (.node 5) = some (.seg .a, .node 5) ∧ s.pool.free = 0 ∧ s.raised .nodeClash = false) := by
  decide

/-- `up` with the directory, and NOTICE frames for station 5. -/
def noticing : State := { up with dir := known, config := { up.config with notice := some (.node 5) } }

theorem meets_RaisedFlagsCountAndNotify_joined :
    (let s := { noticing with
        queues := noticing.queues.set (.seg .a) (List.replicate 63 copy)
        records := [(0, ⟨1, [], 63⟩)], nextRecord := 1, pool := ⟨1023, 1, 0⟩ }
     s.raised .nodeClash = false ∧ s.masked .nodeClash = true ∧ s.noticeOut = false ∧
      s.config.notice = some (.node 5) ∧ s.route (.node 5) = some (.seg .a, .node 5) ∧
      s.pool.free ≠ 0 ∧ s.pool.free ≠ s.config.poolLow ∧ s.serviceOf (.seg .a) = .inService ∧
      (s.queues.get (.seg .a)).length < 64 ∧
      s.quotaUse (.seg .a) + 1 ≤ s.config.quota.get (.seg .a)) ∧
    (let s := placed (.seg .a) .isolated none noticing
     s.route (.node 5) = some (.seg .a, .node 5) ∧ s.serviceOf (.seg .a) ≠ .inService ∧
      s.serviceOf (.seg .a) ≠ .probing) := by decide +kernel

theorem meets_RaisedFlagsCountAndNotify_records : noticing.recordsOk :=
  ⟨by simp [noticing, up, State.reset, Table.rising], by simp [noticing, up, State.reset]⟩

/-- A flag that counts makes a NOTICE for its destination, and no second one. -/
theorem test_notice :
    let s := raise .nodeClash { up with
      dir := known, config := { up.config with notice := some (.node 5) } }
    (s.queues.get (.seg .a)).map (fun e => e.header.kind) = [kindNotice] ∧ s.noticeOut = true ∧
      ((raise .imageFault s).queues.get (.seg .a)).length = 1 := by decide

/-! ### Forwarding -/

theorem meets_FramesTakenOutOfServiceAreDiscarded :
    let s := placed (.seg .a) .isolated none (handed (.seg .a) (hdr 0x10 6 5 1) [1])
    s.active = true ∧ s.resultWaits = false ∧ s.handover.get (.seg .a) = [⟨hdr 0x10 6 5 1, 0⟩] ∧
      (hdr 0x10 6 5 1).kind ≠ kindTest ∧ s.serviceOf (.seg .a) ≠ .inService := by decide

theorem meets_IngressChecksDiscard :
    (up.active = true ∧ up.resultWaits = false ∧ up.handover.get (.seg .a) = [] ∧
      up.testOf (.seg .a) = none ∧ up.serviceOf (.seg .a) = .inService) ∧
    (handed (.seg .a) (hdr 0xBF 254 254 8) []).handover.get (.seg .a) = [⟨hdr 0xBF 254 254 8, 0⟩] ∧
    (knownKind 0x82 = false ∧ knownKind 0xBE = false ∧ knownKind 0x7F = true ∧
      (0x82 : Byte) ≠ kindTest) ∧
    (Port.link .l0).side = .pair ∧ ((hdr kindClaim 5 5 1).length ≠ 0 ∧ (Port.seg .a).side = .trunk) ∧
    ((0x7F : Byte).toNat < 0x80 ∧ (Key.node 254).isStation = false ∧ (Key.node 0).isStation = false ∧
      (Key.address 0xFFF0).isStation = false ∧ (Key.address 0xFFEF).isStation = true) ∧
    (let s := { up with dir := [(2, ⟨.learned, some 6, none, .station (station none .quarantined)⟩)] }
     s.lookup (.node 6) = some (2, ⟨.learned, some 6, none, .station (station none .quarantined)⟩) ∧
      s.station 2 = some (station none .quarantined) ∧ (station none .quarantined).standing = .quarantined) := by
  decide

theorem meets_TrafficIsCarriedToItsHome :
    (let s := handed (.seg .a) (hdr 0x10 6 5 1) [1]
     s.active = true ∧ s.resultWaits = false ∧ s.handover.get (.seg .a) = [⟨hdr 0x10 6 5 1, 0⟩] ∧
      s.serviceOf (.seg .a) = .inService ∧ (0x10 : Byte).toNat < 0x80 ∧ (Key.node 5).isStation = true ∧
      s.lookup (.node 5) = some (1, ⟨.static, some 5, some 0x4005, .station (station (some (.seg .a)))⟩) ∧
      s.station 1 = some (station (some (.seg .a))) ∧
      (station (some (.seg .a))).standing ≠ .quarantined ∧
      ({ up with dir := known }.lookup (.node 6)).isSome = true) ∧
    ((Key.node 0).class = .invalid ∧ (Key.address 0xFFFD).class = .reserved ∧
      (Key.node 254).class = .bridge ∧ (Key.node 255).class = .broadcast ∧
      (Key.node 253).class = .station ∧ { up with dir := known }.lookup (.node 253) = none) ∧
    (let v := heardAt 1 (.seg .a) { up with dir := known }
     (v.lookup (.node 5)).map Prod.fst = some 1 ∧
      (v.lookup (.node 6)).map Prod.fst = some 2 ∧ (Port.seg .b).side = (Port.seg .a).side ∧
      (v.lookup (.node 7)).map (fun d => d.2.keyOn .pair) = some (some (.address 0x4007)) ∧
      v.sourceKey (.index 1) .pair = some (.address 0x4005) ∧ v.sourceKey (.index 2) .pair = none ∧
      (Port.link .l0).side = (Port.seg .a).side.other) := by decide

/-- A broadcast goes to the other ports, to a link only while its broadcast-forward is on. -/
theorem test_broadcast : after (.takeFrame (.seg .a) false)
    (modService (.link .l1) (fun v => { v with bcast := false })
      (handed (.seg .a) (hdr 0x10 255 5 1) [1]))
    (fun t => Port.all.filter fun p => t.queues.get p ≠ []) =
      some [.seg .b, .link .l0, .link .l2, .link .l3] := by decide

theorem meets_UnknownDestinationsAreLogged :
    (∃ r ∈ [(⟨.node 20, .seg .a, 255⟩ : UnknownRecord)], r.dest = .node 20) ∧ up.unknownLog = [] ∧
    (let log : List UnknownRecord := [⟨.node 20, .seg .a, 1⟩]
     log ≠ [] ∧ log.length < 16 ∧ ∀ r ∈ log, r.dest ≠ .node 21) ∧
    (let log : List UnknownRecord := (List.range 16).map fun k => ⟨.node (byteOf (20 + k)), .seg .a, 1⟩
     16 ≤ log.length ∧ ∀ r ∈ log, r.dest ≠ .node 40) := by decide

theorem meets_FramesForTheBridgeAndTheSpoolAreHandedOver :
    (let s := handed (.seg .a) (hdr kindEchoReq 254 5 64) (List.replicate 64 0)
     s.active = true ∧ s.resultWaits = false ∧ s.serviceOf (.seg .a) = .inService ∧
      s.handover.get (.seg .a) = [⟨hdr kindEchoReq 254 5 64, 0⟩] ∧
      s.station 1 = some (station (some (.seg .a))) ∧ (Key.node 254) = (Port.seg .a).side.bridgeKey ∧
      (s.payload 0).length ≤ 64 ∧
      (sendOwn (.seg .a) (.node 5) kindEchoRep (s.payload 0) s).1 = .joined) ∧
    64 < ((handed (.seg .a) (hdr kindEchoReq 254 5 65) (List.replicate 65 0)).payload 0).length ∧
    (let s := modService (.seg .a) (fun v => { v with accept := true }) { up with
        dir := [(1, ⟨.static, some 5, none, .station { station (some (.seg .a)) with manager := true }⟩)]
        requests := [ask 1 [], ask 1 [], ask 1 []] }
     (s.service.get (.seg .a)).accept = true ∧ s.requests.length < 4 ∧
      (s.station 1).map Station.manager = some true) ∧
    ((Key.node 9).class = .station ∧ ({ up with dir := known }.lookup (.node 9)) =
      some (5, ⟨.static, some 9, none, .printer (.line .lp1) 0⟩)) := by decide

/-! ### The directory -/

/-- A directory with no free index. -/
def full : Table Nat Entry :=
  (0, .bridgeEntry) :: (List.range 255).map fun k =>
    (k + 1, ⟨.static, none, some (BitVec.ofNat 16 (k + 1)), .station (station none)⟩)

set_option maxRecDepth 20000 in
theorem meets_LearningAnswersByTheEntry_new :
    { up with dir := full }.lookup (.node 20) = none ∧ { up with dir := full }.freeIndex = none ∧
      { up with dir := known }.lookup (.node 20) = none ∧ { up with dir := known }.freeIndex = some 7 ∧
      { up with dir := full.take 255 }.freeIndex = some 255 := by decide +kernel

theorem meets_LearningAnswersByTheEntry_held :
    (let s := { up with dir := known }
     s.lookup (.node 8) = some (4, ⟨.static, some 8, none, .station (station none)⟩) ∧
      s.lookup (.node 5) =
        some (1, ⟨.static, some 5, some 0x4005, .station (station (some (.seg .a)))⟩) ∧
      (Port.link .l0).side ≠ (Port.seg .b).side ∧ (Port.seg .a).side = (Port.seg .b).side ∧
      (station (some (.seg .a))).quiet = s.config.claimGuard) ∧
    (let t := { station (some (.seg .a)) with pinned := true, quiet := 59 }
     t.pinned = true ∧ t.quiet < up.config.claimGuard) := by decide

theorem meets_AliasSourcesClash :
    let s := handed (.seg .a) (hdr 0x10 6 9 1) [1]
    s.active = true ∧ s.resultWaits = false ∧ s.handover.get (.seg .a) = [⟨hdr 0x10 6 9 1, 0⟩] ∧
      s.serviceOf (.seg .a) = .inService ∧ (hdr 0x10 6 9 1).kind.toNat < 0x80 ∧
      (Key.node 9).isStation = true ∧
      s.lookup (.node 9) = some (5, ⟨.static, some 9, none, .printer (.line .lp1) 0⟩) ∧
      s.dir.find 5 = some ⟨.static, some 9, none, .printer (.line .lp1) 0⟩ ∧ s.config.notice = none := by
  decide

theorem meets_ClaimsAreDefendedOrForwarded :
    (let s := handed (.seg .a) (hdr kindClaim 255 6 0) []
     s.active = true ∧ s.resultWaits = false ∧ s.handover.get (.seg .a) = [⟨hdr kindClaim 255 6 0, 0⟩] ∧
      s.serviceOf (.seg .a) = .inService ∧ (hdr kindClaim 255 6 0).src = .node 6 ∧
      (Key.node 6).isStation = true ∧
      (s.lookup (.node 6)).map Prod.fst = some 2 ∧
      (station (some (.seg .b))).home = some (.seg Seg.a.other) ∧
      (station (some (.seg .b))).pinned = false ∧
      s.config.claimGuard ≤ (station (some (.seg .b))).quiet) ∧
    (Key.node 0).isStation = false ∧ (Key.node 254).isStation = false ∧
    (let s := { up with dir := known }
     s.lookup (.node 20) = none ∧ (s.lookup (.node 9)).map Prod.fst = some 5 ∧
      (s.lookup (.node 7)).map Prod.fst = some 3 ∧ (s.lookup (.node 8)).map Prod.fst = some 4 ∧
      (s.lookup (.node 5)).map Prod.fst = some 1) ∧
    { station (some (.seg .b)) with quiet := 59 }.quiet < up.config.claimGuard := by decide

/-- The claimant of a number held on the other segment within the guard hears a DEFEND. -/
theorem test_defend : after (.takeFrame (.seg .a) false)
    (handed (.seg .a) (hdr kindClaim 255 6 0) [] { up with
      dir := [(2, ⟨.learned, some 6, none, .station { station (some (.seg .b)) with quiet := 59 }⟩)] })
    (fun t => ((t.queues.get (.seg .a)).map fun e => e.header.kind, t.queues.get (.seg .b))) =
      some ([kindDefend], []) := by decide

theorem meets_EditsOfIndexZeroAreIgnored :
    (⟨0, 254, 0, 0xFF, true, false, false⟩ : StationEdit).index = 0 ∧
    (let a : StationEdit := ⟨1, 254, 0, 1, true, false, false⟩
     a.index ≠ 0 ∧ a.trunk = 254 ∧ ¬ (a.pinned = true ∧ a.home = 0xFF)) ∧
    (let a : StationEdit := ⟨1, 0, 0xFFFE, 0xFF, false, false, false⟩
     a.office = 0xFFFE ∧ ¬ (a.pinned = true ∧ a.home = 0xFF)) ∧
    (⟨1, 254, 0, 1, 0⟩ : AliasEdit).index ≠ 0 ∧ (⟨1, 0, 0xFFFE, 1, 0⟩ : AliasEdit).office = 0xFFFE := by
  decide

/-- The edit of a new station, at any free index or at one named. -/
def edit (index : Byte) : StationEdit := ⟨index, 253, 0, 1, true, false, true⟩

theorem meets_StationAndAliasEditsWriteTheEntry :
    (up.active = true ∧ (edit 0xFF).index ≠ 0 ∧ givenKeys 253 0 ≠ [] ∧
      keysInRange (givenKeys 253 0) = true ∧ editHome 1 = some (some (.seg .a)) ∧
      ¬ ((edit 0xFF).pinned = true ∧ (edit 0xFF).home = 0xFF) ∧
      homeAllowed (givenKeys 253 0) (.seg .a) = true ∧
      (∀ d ∈ known, ∀ k ∈ givenKeys 253 0, d.2.holds k = false) ∧
      { up with dir := known }.freeIndex = some 7) ∧
    ((edit 7).index ≠ 0xFF ∧ 7 = (edit 7).index.toNat ∧ known.find 7 = none) ∧
    ((1 : Byte).toNat = 1 ∧ { up with dir := known }.station 1 = some (station (some (.seg .a))) ∧
      (station (some (.seg .a))).standing ≠ .quarantined) ∧
    (let e : AliasEdit := ⟨5, 9, 0, 1, 0⟩
     e.index ≠ 0 ∧ givenKeys e.trunk e.office ≠ [] ∧ keysInRange (givenKeys e.trunk e.office) = true ∧
      Target.ofCode e.target = some (.line .lp1) ∧ levelOf e.level = some 0 ∧
      (∀ d ∈ known, d.1 ≠ 5 → ∀ k ∈ givenKeys e.trunk e.office, d.2.holds k = false) ∧
      { up with dir := known }.isStationAt (some 5) = false ∧
      { up with dir := known }.hasJob 5 = false) := by decide

/-- A directory with station 20 LEARNED at index 9, in some standing, and station 5 at index 1. -/
def learned (st : Standing) : Table Nat Entry :=
  known ++ [(9, ⟨.learned, some 20, none, .station (station (some (.seg .b)) st)⟩)]

theorem meets_StationAndAliasEditsWriteTheEntry_takeover :
    (let e : StationEdit := ⟨7, 20, 0, 0xFF, false, false, false⟩
     e.index ≠ 0 ∧ e.index ≠ 0xFF ∧ givenKeys e.trunk e.office ≠ [] ∧
      keysInRange (givenKeys e.trunk e.office) = true ∧ editHome e.home = some none ∧
      ¬ (e.pinned = true ∧ e.home = 0xFF) ∧ 7 = e.index.toNat ∧
      (learned .good).find 9 =
        some ⟨.learned, some 20, none, .station (station (some (.seg .b)))⟩ ∧
      (∃ k ∈ givenKeys e.trunk e.office,
        (⟨.learned, some 20, none, .station (station (some (.seg .b)))⟩ : Entry).holds k = true) ∧
      (∀ c ∈ learned .good, c.1 ≠ 7 → c.1 ≠ 9 → ∀ k ∈ givenKeys e.trunk e.office,
        c.2.holds k = false) ∧
      (learned .good).find 7 = none ∧ (learned .quarantined).find 7 = none ∧
      (station (some (.seg .b)) .quarantined).standing = .quarantined) ∧
    (known.find 1 = some ⟨.static, some 5, some 0x4005, .station (station (some (.seg .a)))⟩ ∧
      (station (some (.seg .a))).standing = .good ∧
      (∃ k ∈ givenKeys 20 0x4005,
        (⟨.static, some 5, some 0x4005, .station (station none)⟩ : Entry).holds k = true) ∧
      ∀ k ∈ givenKeys 20 0x4006,
        (⟨.static, some 5, some 0x4005, .station (station none)⟩ : Entry).holds k = false) := by
  decide

theorem meets_StationAndAliasEditsWriteTheEntry_directory :
    { up with dir := learned .good }.directoryOk ∧ { up with dir := learned .quarantined }.directoryOk :=
  ⟨⟨by simp [learned, known, Table.rising], by decide⟩,
    ⟨by simp [learned, known, Table.rising], by decide⟩⟩

/-- A former self that gives up all its keys does not enter QUARANTINED anew; one that keeps a key does
(R65, R154). -/
theorem test_takeover :
    let t (office : Address) := after (.setStation ⟨1, 20, office, 0xFF, false, false, false⟩)
      { up with dir := learned .quarantined } fun t => (t.raised .stationQuarantined,
        t.count (.fault .quarantineTakeover), (t.station 1).map Station.standing, t.dir.find 9)
    t 0x4006 = some (false, 0, some .quarantined, none) ∧
      t 0x4005 = some (true, 1, some .quarantined, none) := by decide

theorem test_edit : after (.setStation (edit 0xFF)) { up with dir := known }
    (fun t => t.dir.find 7) =
      some (some ⟨.static, some 253, none, .station ⟨some (.seg .a), true, false, true, .good, 0, 0, 0⟩⟩) := by
  decide

theorem meets_EditsByIndexActOnTheEntry :
    (up.active = true ∧ (255 : Byte) ≠ 0 ∧ known.find (255 : Byte).toNat = none) ∧
    ((spooled [job .held]).dir.find (5 : Byte).toNat =
        some ⟨.static, some 9, none, .printer (.line .lp1) 0⟩ ∧
      (spooled [job .held]).hasJob 5 = true) ∧
    (known.find (1 : Byte).toNat).isSome = true ∧ { up with dir := known }.hasJob 1 = false ∧
    (spooled [job .arriving]).station 1 = some (station (some (.seg .a))) ∧
    (station (some (.seg .a))).standing ≠ .quarantined := by decide

theorem meets_EditsByIndexActOnTheEntry_renewed :
    { up with dir := learned .quarantined }.station (9 : Byte).toNat =
      some (station (some (.seg .b)) .quarantined) ∧
    { up with dir := learned .quarantined }.jobsOk :=
  ⟨by decide, by simp [up, State.reset, Table.rising], by decide⟩

/-- A QUARANTINED station is renewed: its minutes are set again, no flag, no quarantine counted (R154). -/
theorem test_quarantine_renewed : after (.quarantine 9) { up with dir := learned .quarantined } (fun t =>
    (t.raised .stationQuarantined, t.count (.fault .quarantineRenewed), t.count (.fault .quarantineEdit),
      (t.station 9).map Station.minutes)) = some (false, 1, 0, some 10) := by decide

theorem meets_EditsByIndexActOnTheEntry_jobs : (spooled [job .arriving]).jobsOk :=
  ⟨by simp [spooled, Table.rising], by decide⟩

theorem meets_ExpiriesGoOverTheTables :
    up.active = true ∧ up.window.running = true ∧ { up with dir := known }.directoryOk ∧
      (spooled [job .arriving]).jobsOk ∧ { up with dir := known }.station 255 = none ∧
      { up with dir := known }.station 2 = some (station (some (.seg .b))) :=
  ⟨rfl, rfl, ⟨by simp [known, Table.rising], by decide⟩, meets_EditsByIndexActOnTheEntry_jobs, rfl, rfl⟩

/-! ### Print jobs -/

theorem meets_OpensAreJudgedInOrder :
    (1 ≤ (9 : Byte).toNat ∧ (9 : Byte).toNat ≤ 9) ∧
    { up with dir := [(1, ⟨.static, some 5, none, .station { station none with print := false }⟩)]
      }.mayPrint (.index 1) = false ∧
    ({ up with dir := known }.mayPrint (.index 1) = true ∧ up.noPrinter (.line .lp1) = true ∧
      (printing up).noPrinter (.line .lp1) = false) ∧
    ((spooled [job .held]).jobOf (.node 5) 7 = some (0, job .held) ∧ (job .held).state ≠ .arriving ∧
      (spooled [job .arriving]).jobOf (.node 5) 7 = some (0, job .arriving) ∧
      up.jobOf (.node 5) 7 = none) ∧
    (4 ≤ (spooled (List.replicate 4 (job .held))).liveOf (.node 5) ∧
      (spooled (List.replicate 3 (job .held))).liveOf (.node 5) < 4) ∧
    (∀ slot ∈ List.range 48, (spooled (List.replicate 48 (job .held))).jobs.find slot ≠ none) ∧
    ((spooled (List.replicate 47 (job .held))).jobs.find 47 = none ∧
      ∀ k ∈ List.range 47, (spooled (List.replicate 47 (job .held))).jobs.find k ≠ none) ∧
    (up.config.spoolLimit - up.config.nearFullMargin = 576 ∧
      up.config.spoolLimit - up.config.nearFullMargin ≤ { up with pool := ⟨448, 0, 576⟩ }.pool.spoolHeld ∧
      { up with pool := ⟨449, 0, 575⟩ }.pool.spoolHeld <
        up.config.spoolLimit - up.config.nearFullMargin) := by decide +kernel

theorem meets_DataIsAppendedInTurn :
    (up.arrivingJob (.node 5) 7 = none ∧
      (spooled [job .arriving]).arrivingJob (.node 5) 7 = some (0, job .arriving) ∧
      (2 : Byte) ≠ (job .arriving).nextSeq ∧ (1 : Byte) = (job .arriving).nextSeq ∧
      (spooled [job .arriving]).jobs.find 0 = some (job .arriving)) ∧
    (appendBytes 0 [67] (spooled [job .arriving])).1 = true ∧
    (appendBytes 0 [67] { spooled [job .arriving (List.replicate 128 0)] with pool := ⟨96, 927, 1⟩ }).1 =
      false ∧
    ((job .arriving (List.replicate 128 0)).bytes.length % 128 = 0 ∧
      { up with pool := ⟨96, 927, 1⟩ }.pool.free < up.config.reserve + 1) ∧
    (up.config.reserve + 1 ≤ { up with pool := ⟨384, 0, 640⟩ }.pool.free ∧
      up.config.spoolLimit < { up with pool := ⟨384, 0, 640⟩ }.pool.spoolHeld + 1) := by decide +kernel

/-- The bound of a DATA that is appended: two more blocks, with the free count and the spool-held count at
their limits, and no NOTICE sent. -/
theorem meets_DataIsAppendedInTurn_room :
    let s := { spooled [job .arriving (List.replicate 128 0)] with pool := ⟨98, 288, 638⟩ }
    let new := blocksFor (128 + 129) - blocksFor 128
    s.arrivingJob (.node 5) 7 = some (0, job .arriving (List.replicate 128 0)) ∧ new = 2 ∧
      s.config.reserve + new = s.pool.free ∧ s.pool.spoolHeld + new = s.config.spoolLimit ∧
      s.config.notice = none := by decide +kernel

theorem meets_JobsCloseCancelAndEnd :
    (spooled [job .arriving]).arrivingJob (.node 5) 7 = some (0, job .arriving) ∧
    (3 ≠ (job .arriving).bytes.length ∧ 2 = (job .arriving).bytes.length ∧
      (job .arriving []).bytes.length = 0) ∧
    (spooled [{ job .arriving with holdOnClose := true }]).arrivingJob (.node 5) 7 =
      some (0, { job .arriving with holdOnClose := true }) ∧
    ((spooled [job .ready]).jobOf (.node 5) 7 = some (0, job .ready) ∧
      (spooled [job .ready]).jobs.find 0 = some (job .ready)) ∧
    (let s := serving (job .printing) fun t => { t with byteInFlight := true }
     s.jobOf (.node 5) 7 = some (0, served .printing) ∧ s.jobs.find 0 = some (served .printing) ∧
      (served .printing).line = some .lp1 ∧ (s.lines.get .lp1).state = .feeding ∧
      (s.lines.get .lp1).byteInFlight = true ∧ (s.lines.get .lp1).job = some 0) ∧
    (serving (job .draining) id).jobOf (.node 5) 7 = some (0, served .draining) ∧
    (JobEnd.aborted .gap ≠ .aborted .quarantine ∧ 0 < (spooled [job .ready]).pool.spoolHeld ∧
      (spooled [job .ready]).pool.spoolHeld ≤ blocksFor (job .ready).bytes.length) := by decide

/-! ### Printer lines -/

theorem meets_ChoicesFollowTheLevelOrder :
    up.nextChoice .lp1 = none ∧
    (let j := { job .ready with readyOrder := some 4 }
     let k := { job .ready with level := 1, target := .pool, readyOrder := some 3 }
     (spooled [j, k]).nextChoice .lp1 = some ⟨0, false, 0⟩ ∧
      (line (fun t => { t with holdMask := 1 }) (spooled [j, k])).nextChoice .lp1 =
        some ⟨1, true, 1⟩ ∧
      (line (fun t => { t with holdMask := 1 }) (spooled [j])).nextChoice .lp1 = none ∧
      levelOrder 3 = [0] ++ 1 :: [2, 3]) := by decide

theorem meets_AcknowledgedBytesAdvanceTheJob :
    (up.active = true ∧ (up.lines.get .lp1).byteInFlight = false) ∧
    (let s := serving (job .printing) fun t => { t with byteInFlight := true }
     s.active = true ∧ (s.lines.get .lp1).byteInFlight = true ∧ (s.lines.get .lp1).state = .feeding ∧
      (s.lines.get .lp1).pendingCause = none ∧ (s.lines.get .lp1).job = some 0 ∧
      s.jobs.find 0 = some (served .printing) ∧ (s.lines.get .lp1).good = true ∧
      (s.lines.get .lp1).busy = false ∧
      (served .printing).printed + 1 < (served .printing).bytes.length) ∧
    (let j := { served .printing with printed := 1, copiesLeft := 1 }
     j.bytes.length ≤ j.printed + 1 ∧ 0 < j.copiesLeft ∧ { j with copiesLeft := 0 }.copiesLeft = 0) ∧
    (let j := { job .draining with endAsked := some .cancelledManager }
     let s := serving j fun t => { t with state := .draining, byteInFlight := true }
     s.active = true ∧ (s.lines.get .lp1).byteInFlight = true ∧
      (s.lines.get .lp1).state = .draining ∧ (s.lines.get .lp1).job = some 0 ∧
      s.jobs.find 0 = some { j with line := some .lp1 } ∧
      { j with line := some .lp1 }.endAsked = some .cancelledManager) := by
  decide

theorem meets_FeedingLinesStallAndResume :
    (let s := serving (job .printing) fun t => { t with byteInFlight := true }
     s.active = true ∧ (s.lines.get .lp1).job = some 0 ∧ s.jobs.find 0 = some (served .printing) ∧
      (s.lines.get .lp1).state = .feeding ∧ (s.lines.get .lp1).byteInFlight = true ∧
      (s.lines.get .lp1).pendingCause = none) ∧
    (let s := serving (job .printing) fun t => { t with busy := true, busyWait := some 0 }
     (s.lines.get .lp1).state = .feeding ∧ (s.lines.get .lp1).busyWait.isSome = true ∧
      (s.lines.get .lp1).byteInFlight = false ∧ (s.lines.get .lp1).good = true) ∧
    (let s := serving (job .stalled) fun t => { t with
        state := .stalled, stallCause := some .ackTimeout, retryTimer := some 0 }
     (s.lines.get .lp1).state = .stalled ∧ (s.lines.get .lp1).retryTimer.isSome = true ∧
      (s.lines.get .lp1).stallCause = some .ackTimeout ∧ (s.lines.get .lp1).good = true ∧
      (s.lines.get .lp1).busy = false) := by decide

theorem meets_InputChangesMoveTheLine :
    (let s := serving (job .printing) fun t => { t with byteInFlight := true }
     s.active = true ∧ (s.lines.get .lp1).state = .feeding ∧ (s.lines.get .lp1).byteInFlight = true ∧
      (s.lines.get .lp1).good = true) ∧
    (let s := serving (job .stalled) fun t => { t with
        state := .stalled, stallCause := some .paperOut, paperOut := true }
     (s.lines.get .lp1).state = .stalled ∧ (s.lines.get .lp1).job = some 0 ∧
      s.jobs.find 0 = some (served .stalled) ∧ (s.lines.get .lp1).busy = false ∧
      (s.lines.get .lp1).select = true ∧ (s.lines.get .lp1).paperOut = true ∧
      (s.lines.get .lp1).fault = false) ∧
    (let s := serving (job .stalled) fun t => { t with
        state := .stalled, stallCause := some .offline, select := false }
     (s.lines.get .lp1).stallCause = some .offline ∧ (s.lines.get .lp1).select = false ∧
      (s.lines.get .lp1).paperOut = false ∧ (s.lines.get .lp1).fault = false) ∧
    (let s := serving (job .stalled) fun t => { t with
        state := .stalled, stallCause := some .fault, fault := true }
     (s.lines.get .lp1).stallCause = some .fault ∧ (s.lines.get .lp1).fault = true) ∧
    (let s := serving (job .stalled) fun t => { t with
        state := .stalled, stallCause := some .fault, fault := true, busy := true }
     (s.lines.get .lp1).stallCause = some .fault ∧ (s.lines.get .lp1).busy = true) ∧
    (let s := serving (job .printing) fun t => { t with byteInFlight := true, busy := true }
     (s.lines.get .lp1).state = .feeding ∧ (s.lines.get .lp1).byteInFlight = true ∧
      (s.lines.get .lp1).pendingCause = none ∧ (s.lines.get .lp1).good = true ∧
      (s.lines.get .lp1).busy = true ∧ (s.lines.get .lp1).job = some 0 ∧
      s.jobs.find 0 = some (served .printing) ∧
      (served .printing).printed + 1 < (served .printing).bytes.length) ∧
    (let j := { job .printing with printed := 1, copiesLeft := 1 }
     let s := serving j fun t => { t with byteInFlight := true, busy := true }
     s.jobs.find 0 = some { j with line := some .lp1 } ∧ j.bytes.length ≤ j.printed + 1 ∧
      0 < j.copiesLeft ∧ (s.lines.get .lp1).busy = true) ∧
    (let s := serving (job .printing) fun t => { t with busy := true, busyWait := some 60000 }
     (s.lines.get .lp1).state = .feeding ∧ (s.lines.get .lp1).byteInFlight = false ∧
      (s.lines.get .lp1).good = true ∧ (s.lines.get .lp1).busy = true) ∧
    (((printing up).lines.get .lp1).state = .idle ∧ ((printing up).lines.get .lp1).select = true) ∧
    (let s := line fun t => { t with state := .offline }
     (s.lines.get .lp1).state = .offline ∧ (s.lines.get .lp1).select = false ∧
      s.nextChoice .lp1 = none) ∧
    (up.lines.get .lp1).state = .disabled ∧
    ((serving (job .draining) fun t => { t with state := .draining }).lines.get .lp1).state = .draining ∧
    (let s := line fun t => { t with state := .resetting, initTimer := some 0 }
     (s.lines.get .lp1).initTimer.isSome = true ∧ (s.lines.get .lp1).job = none ∧
      (s.lines.get .lp1).select = false ∧ s.nextChoice .lp1 = none) ∧
    ((line fun t => { t with state := .resetting, initTimer := some 0, select := true }).lines.get
      .lp1).select = true := by decide

/-- A byte that no one acknowledges stalls the line, and the job goes on from that byte. -/
theorem test_ackTimeout :
    after (.ackTimeout .lp1) (serving (job .printing) fun t => { t with byteInFlight := true })
      (fun t => ((t.lines.get .lp1).state, (t.lines.get .lp1).retryTimer,
        t.jobs.map fun d => (d.2.state, d.2.printed))) =
      some (.stalled, some 30000, [(.stalled, 0)]) := by decide

/-! ### Requests -/

/-- The request at the head of the queue is read as a call, and is not refused BUSY. -/
def reads (code : Byte) (params : List Byte) (c : Call) (s : State := { up with dir := known }) : Bool :=
  s.active && decide (readRequest (ask code params) = .call c) && (s.save.isNone || c.isRead)

theorem headIs_of_reads {code : Byte} {params : List Byte} {c : Call} {s : State}
    (h : reads code params c s = true) : (asked code params s).headIs (ask code params) [] c := by
  simp only [reads, Bool.and_eq_true, Bool.or_eq_true, decide_eq_true_eq, Option.isNone_iff_eq_none] at h
  exact ⟨h.1.1, rfl, h.1.2, h.2⟩

theorem test_reads_edit :
    readRequest (ask 0x10 ([1, 1, 7, 0, 0, 253, 0, 0, 1, 5] ++ List.replicate 7 0)) =
      .call (.editEntries 1 [.setStation (edit 7)]) := by decide

theorem test_answer_findEntry :
    after .findEntry (asked 0x13 [1, 5, 0])
      (fun t => (t.requests, (t.queues.get (.seg .a)).map fun e => (t.payload e.record).take 7)) =
      some ([], [[1, 0x13, 0, 0, 1, 1, 2]]) := by decide

theorem meets_AnsweringTouchesFramesOnly :
    { up with counters := [] }.count (.mgmt .repliesSent) < Config.counterMax ∧
      up.count (.mgmt .replyLost) < Config.counterMax ∧
      (let s := placed (.seg .a) .isolated none up
       s.serviceOf (ask 1 []).port ≠ .inService ∧ s.serviceOf (ask 1 []).port ≠ .probing) := by decide

theorem meets_ReadRequestsOnlyAnswer :
    reads 0x12 [0, 1] (.readEntries 0 1) ∧ reads 0x12 [0, 60] (.readEntries 0 60) ∧
      reads 0x12 [0, 0] (.readEntries 0 0) ∧ reads 0x12 [0, 61] (.readEntries 0 61) ∧
      reads 0x13 [1, 0, 0] (.findEntry .trunk 0) ∧ reads 0x13 [1, 253, 0] (.findEntry .trunk 253) ∧
      reads 0x13 [1, 5, 0] (.findEntry .trunk 5) ∧ reads 0x20 [47, 16] (.readJobs 47 16) ∧
      reads 0x20 [48, 1] (.readJobs 48 1) ∧ reads 0x20 [0, 17] (.readJobs 0 17) ∧
      reads 0x34 [2] (.peekNext 2) ∧ reads 0x34 [3] (.peekNext 3) ∧ reads 0x43 [] .readPorts ∧
      reads 0x54 [] .readSweep ∧ reads 0x63 [] .readConfig ∧ reads 0x62 [11, 0] (.readCounters 11 false) ∧
      reads 0x62 [12, 0] (.readCounters 12 false) ∧
      reads 0x63 [] .readConfig { up with save := some ⟨ask 0x65 [], []⟩ } := by decide +kernel

theorem meets_ReadRequestsOnlyAnswer_values :
    findKey .trunk 0 = none ∧ findKey .trunk 253 = some (.node 253) ∧
      (asked 0x13 [1, 253, 0]).lookup (.node 253) = none ∧
      ((asked 0x13 [1, 5, 0]).lookup (.node 5)).isSome = true ∧ Line.ofCode 2 = some .lp2 ∧
      Line.ofCode 3 = none ∧ (groupCounters 11).isSome = true ∧ groupCounters 12 = none := by decide

theorem meets_ClearingRequestsAnswerFirst :
    reads 0x14 [] .readUnknownLog ∧ reads 0x60 [] .readEvents ∧
      reads 0x61 [0, 0] (.setEventMask 0) ∧ reads 0x62 [1, 1] (.readCounters 1 true) ∧
      (groupCounters 1).isSome = true ∧ up.config.notice = none := by decide +kernel

theorem meets_ConfigurationAndImageRequests :
    reads 0x64 ([1] ++ [3, 0, 0, 0]) (.setConfig 1 [⟨3, 0, 0⟩]) ∧
      reads 0x64 ([2] ++ [3, 0, 0, 0] ++ [2, 0, 2, 0]) (.setConfig 2 [⟨3, 0, 0⟩, ⟨2, 0, 2⟩]) ∧
      firstRepeated 1 [] [(⟨3, 0, 0⟩ : SettingGiven), ⟨2, 0, 2⟩] = none ∧
      { up with dir := known }.settingOk ⟨3, 0, 0⟩ = true ∧
      { up with dir := known }.settingOk ⟨2, 0, 2⟩ = false ∧ paramInRange 2 1 = true ∧
      reads 0x65 [] .saveImage ∧
      (let s := asked 0x64 [1, 3, 0, 0, 0] { up with save := some ⟨ask 0x65 [], []⟩ }
       s.active = true ∧ s.requests = [ask 0x64 [1, 3, 0, 0, 0]] ∧
        readRequest (ask 0x64 [1, 3, 0, 0, 0]) = .call (.setConfig 1 [⟨3, 0, 0⟩]) ∧
        (Call.setConfig 1 [⟨3, 0, 0⟩]).isRead = false ∧ s.save.isSome = true) ∧
      (readRequest (ask 0x52 []) = .call .stopSweep ∧ Call.stopSweep.isRead = false ∧
        (Call.readCounters 1 true).isRead = false) := by decide +kernel

/-- The most settings of one request, and none. -/
theorem meets_ConfigurationAndImageRequests_most :
    let gs : List SettingGiven := ([1, 2, 3, 4, 5, 6, 7, 8].map fun k => ⟨k, 0, up.config.param k⟩) ++
      ([1, 2, 3, 4, 5, 6].map fun p => ⟨9, byteOf p, 256⟩) ++
      ([10, 11, 12, 13, 14, 15, 16, 17, 18, 19].map fun k => ⟨k, 0, up.config.param k⟩)
    gs.length = 24 ∧ firstRepeated 1 [] gs = none ∧ ∀ g ∈ gs, up.settingOk g = true := by decide

theorem meets_DirectoryRequestsApplyAllOrNone :
    reads 0x10 ([1, 3, 2] ++ List.replicate 14 0) (.editEntries 1 [.delete 2]) ∧
      (1 ≤ 16 ∧ 16 ≤ 16) ∧ reads 0x11 [] .purgeLearned := by decide +kernel

theorem meets_DirectoryRequestsApplyAllOrNone_outcomes :
    (match runBatch [.delete 0, .delete 2] 1 0 0 [] [] { up with dir := known } with
      | .applied a g took _ => decide (a = 1 ∧ g = 1 ∧ took = [])
      | .refused _ _ => false) = true ∧
    (match runBatch [.delete 2, .delete 20] 1 0 0 [] [] { up with dir := known } with
      | .applied _ _ _ _ => false
      | .refused st k => decide (st = .notFound ∧ k = 2)) = true := by decide

/-- The end of a quarantined station's ARRIVING job comes when the batch has passed: the DELETE of the
alias that the job names is refused (R63, R69). -/
theorem test_batch_quarantine :
    (match runBatch [.quarantine 1, .delete 5] 1 0 0 [] [] (spooled [job .arriving]) with
      | .applied _ _ _ _ => false
      | .refused st k => decide (st = .conflict ∧ k = 2)) = true ∧
    (match runBatch [.quarantine 1] 1 0 0 [] [] (spooled [job .arriving]) with
      | .applied _ _ _ t => decide (t.jobs = [] ∧ t.raised .stationQuarantined = true)
      | .refused _ _ => false) = true := by decide

theorem meets_JobRequestsActOnTheJob :
    reads 0x21 [0] (.holdJob 0) (spooled [job .ready]) ∧ (job .ready).state = .ready ∧
      reads 0x21 [0] (.holdJob 0) (spooled [job .printing]) ∧ (job .printing).inService = true ∧
      reads 0x22 [0] (.releaseJob 0) (spooled [job .held]) ∧
      reads 0x23 [0] (.cancelJob 0) (spooled [job .held]) ∧ (job .held).inService = false ∧
      reads 0x24 [0, 3, 3] (.moveJob 0 3 3) (spooled [job .held]) ∧
      Target.ofCode 3 = some .pool ∧ levelOf 3 = some 3 ∧
      (spooled [job .held]).jobs.find 0 = some (job .held) ∧ 0 < 48 ∧
      reads 0x21 [47] (.holdJob 47) ∧ up.jobs.find 47 = none ∧ reads 0x22 [48] (.releaseJob 48) ∧
      reads 0x23 [48] (.cancelJob 48) ∧ reads 0x25 [] .flushSpool (spooled [job .held]) ∧
      ∀ d ∈ (spooled [job .held]).jobs, d.2.inService = false := by decide +kernel

theorem meets_JobRequestsActOnTheJob_move :
    reads 0x24 [0, 3, 3] (.moveJob 0 3 3) (spooled [job .arriving]) ∧
      reads 0x24 [0, 3, 3] (.moveJob 0 3 3) (spooled [job .printing]) ∧
      (job .arriving).state = .arriving ∧ (job .printing).inService = true ∧
      (targetOr .pool 3).isSome = true ∧ (levelOr 0 3).isSome = true ∧
      (targetOr .pool 4).isSome = false ∧ (levelOr 0 4).isSome = false ∧
      reads 0x24 [48, 3, 3] (.moveJob 48 3 3) ∧ reads 0x24 [47, 4, 3] (.moveJob 47 4 3) ∧
      reads 0x24 [47, 3, 4] (.moveJob 47 3 4) ∧ up.jobs.find 47 = none := by decide +kernel

theorem meets_JobRequestsActOnTheJob_inService :
    (let s := serving (job .printing) fun t => { t with byteInFlight := true }
     reads 0x23 [0] (.cancelJob 0) s ∧ s.jobs.find 0 = some (served .printing) ∧
      (served .printing).line = some .lp1 ∧ (s.lines.get .lp1).job = some 0 ∧
      (s.lines.get .lp1).state = .feeding ∧ (s.lines.get .lp1).byteInFlight = true) ∧
    (let s := serving (job .stalled) fun t => { t with state := .stalled, stallCause := some .offline }
     reads 0x23 [0] (.cancelJob 0) s ∧ s.jobs.find 0 = some (served .stalled) ∧
      (s.lines.get .lp1).state = .stalled ∧ (s.lines.get .lp1).job = some 0) ∧
    (let s := serving (job .stalled) fun t => { t with state := .resetting, initTimer := some 20 }
     reads 0x23 [0] (.cancelJob 0) s ∧ s.jobs.find 0 = some (served .stalled) ∧
      (s.lines.get .lp1).state = .resetting ∧ (s.lines.get .lp1).job = some 0) ∧
    (let s := serving (job .draining) fun t => { t with state := .draining }
     reads 0x23 [0] (.cancelJob 0) s ∧ s.jobs.find 0 = some (served .draining)) ∧
    (let s := serving (job .stalled) fun t => { t with state := .stalled, stallCause := some .offline }
     reads 0x25 [] .flushSpool s ∧ ∀ d ∈ s.jobs, d.2.inService = true ∧ d.2.line = some .lp1 ∧
      (s.lines.get .lp1).job = some d.1) := by decide +kernel

theorem meets_JobRequestsActOnTheJob_jobs : (serving (job .stalled) id).jobsOk :=
  ⟨List.pairwise_singleton .., by decide⟩

/-- Within FLUSH-SPOOL the line of a STALLED job takes no READY one: every job ends (R119, R139). -/
theorem test_flush :
    let s := line (fun t => { t with
      select := true, enabled := true, state := .stalled, stallCause := some .ackTimeout
      job := some 0, takenFrom := some 0 })
      (spooled [{ job .stalled with line := some .lp1 }, { job .ready with readyOrder := some 1 }])
    after .flushSpool (asked 0x25 [] s)
      (fun t => (t.jobs, (t.lines.get .lp1).state, (t.lines.get .lp1).byteInFlight)) =
      some ([], .idle, false) := by decide +kernel

theorem meets_RotateLineSetsTheLevelOrder :
    reads 0x33 [1, 3] (.rotateLine 1 3) ∧ Line.ofCode 1 = some .lp1 ∧ levelOf 3 = some 3 ∧
      (up.lines.get .lp1).state ≠ .idle ∧ levelOf 4 = none ∧ reads 0x33 [1, 4] (.rotateLine 1 4) ∧
      reads 0x33 [3, 0] (.rotateLine 3 0) ∧ Line.ofCode 3 = none ∧ Line.ofCode 0 = none ∧
      ({ up.lines.get .lp1 with rotating := true, takenFrom := some 2 } : LineState).takenFrom = some 2 := by decide +kernel

theorem meets_LineRequestsActOnTheLine :
    Line.ofCode 1 = some .lp1 ∧
      (Line.ofCode 0 = none ∧ Line.ofCode 3 = none) ∧
      (reads 0x31 [1] (.resetLine .lp1) ∧ (up.lines.get .lp1).state = .disabled ∧
        reads 0x31 [1] (.resetLine .lp1) (printing up) ∧ ((printing up).lines.get .lp1).job = none ∧
        ((printing up).lines.get .lp1).state ≠ .disabled) ∧
      (let s := serving (job .printing) fun t => { t with byteInFlight := true }
       reads 0x31 [1] (.resetLine .lp1) s ∧ (s.lines.get .lp1).state = .feeding ∧
        (s.lines.get .lp1).job = some 0 ∧ s.jobs.find 0 = some (served .printing)) ∧
      (let s := serving (job .stalled) fun t => { t with state := .resetting, initTimer := some 7 }
       reads 0x31 [1] (.resetLine .lp1) s ∧ (s.lines.get .lp1).state = .resetting ∧
        (s.lines.get .lp1).job = some 0 ∧ s.jobs.find 0 = some (served .stalled)) ∧
      (let j := { job .draining with endAsked := some .cancelledManager }
       let s := serving j fun t => { t with state := .draining, byteInFlight := true }
       reads 0x31 [1] (.resetLine .lp1) s ∧ (s.lines.get .lp1).state = .draining ∧
        (s.lines.get .lp1).job = some 0 ∧ s.jobs.find 0 = some { j with line := some .lp1 } ∧
        j.endAsked = some .cancelledManager) ∧
      (reads 0x30 [1, 0, 0xFF, 0xFF] (.setLine 1 (some false) 0xFF none) (serving (job .printing) id) ∧
        ((serving (job .printing) id).lines.get .lp1).job.isSome = true ∧
        reads 0x30 [1, 0xFF, 2, 0xFF] (.setLine 1 none 2 none) ∧
        reads 0x30 [1, 0xFF, 0xFF, 15] (.setLine 1 none 0xFF (some 15)) ∧
        reads 0x30 [1, 1, 0xFF, 0xFF] (.setLine 1 (some true) 0xFF none) ∧
        reads 0x30 [1, 0xFF, 3, 0xFF] (.setLine 1 none 3 none) ∧ (3 : Byte) ≠ 0xFF ∧
        reads 0x30 [1, 0xFF, 0, 0xFF] (.setLine 1 none 0 none)) ∧
      (reads 0x32 [1] (.resumeLine 1) ∧ (up.lines.get .lp1).state ≠ .stalled ∧
        (let s := serving (job .stalled) fun t => { t with
            state := .stalled, stallCause := some .busyTimeout }
         reads 0x32 [1] (.resumeLine 1) s ∧ (s.lines.get .lp1).state = .stalled ∧
          (s.lines.get .lp1).stallCause = some .busyTimeout ∧ (s.lines.get .lp1).good = true ∧
          (s.lines.get .lp1).job = some 0 ∧ s.jobs.find 0 = some (served .stalled))) := by decide +kernel

theorem meets_PortRequestsActOnThePort :
    up.resultWaits = false ∧ Port.ofCode 1 = some (.seg .a) ∧ Port.ofCode 6 = some (.link .l3) ∧
      reads 0x40 [6, 0xFF, 0, 0xFF] (.setPort 6 none (some false) none) ∧
      reads 0x40 [1, 0xFF, 0xFF, 1] (.setPort 1 none none (some true)) ∧
      reads 0x40 [1, 0xFF, 1, 0xFF] (.setPort 1 none (some true) none) ∧
      reads 0x40 [1, 0, 0xFF, 0xFF] (.setPort 1 (some false) none none) ∧
      (up.serviceOf (.seg .a) = .inService ∧ up.testOf (.seg .a) = none) ∧
      (let s := placed (.link .l3) .testing (some ⟨.entry, .external, 2, none, .slot⟩) up
       s.serviceOf (.link .l3) ≠ .off ∧
        s.testOf (.link .l3) = some ⟨.entry, .external, 2, none, .slot⟩ ∧
        reads 0x40 [6, 0, 0xFF, 0xFF] (.setPort 6 (some false) none none) s ∧
        reads 0x41 [6] (.restartPort 6) s) ∧
      (let s := placed (.seg .b) .off none up
       reads 0x40 [2, 1, 0xFF, 0xFF] (.setPort 2 (some true) none none) s ∧
        s.serviceOf (.seg .b) = .off ∧ reads 0x41 [2] (.restartPort 2) s) ∧
      reads 0x41 [1] (.restartPort 1) ∧ Iface.ofCode 1 = some .li0 ∧
      reads 0x42 [1] (.restartInterface 1) ∧ (up.ifaces.get .li0).clockHold = false ∧
      (reads 0x42 [1] (.restartInterface 1) (connected) ∧ Link.l0 ∈ Iface.li0.links ∧
        ((connected).links.get .l0).line = .connected ∧ (connected).serviceOf (.link .l0) = .inService ∧
        ((connected).ifaces.get .li0).clockHold = false ∧ (connected).resultWaits = false) ∧
      (let s := placed (.link .l0) .testing (some ⟨.entry, .external, 2, none, .slot⟩) (connected)
       s.testOf (.link .l0) = some ⟨.entry, .external, 2, none, .slot⟩ ∧
        (s.links.get .l0).line = .connected) ∧
      (placed (.link .l0) .failed none (connected)).serviceOf (.link .l0) = .failed ∧
      (placed (.link .l0) .off none (connected)).serviceOf (.link .l0) = .off ∧
      ({ up with ifaces := ⟨⟨true, 0⟩, ⟨false, 0⟩⟩ }.ifaces.get .li0).clockHold = true := by decide +kernel

/-- An ECHO step to station 5, a NOTE at its 2nd failure, and a HALT at its first. -/
def echoStep (action : FailAction) (limit : Nat) : SweepStep :=
  ⟨.station (.node 5), .echo, limit, action, .notRun, 0⟩

/-- `up` with one such step, and a run with its ECHO out. -/
def swept (x : SweepStep) (run : Option SweepRun) : State :=
  { up with
    dir := known
    sweep := { Sweep.atReset with
      steps := [x], run := run
      outstanding := if run.isSome then some (.echo 1 1 (.node 5) 0) else none } }

theorem meets_SweepRequestsDriveTheEngine :
    (let t : StepGiven := ⟨1, 253, .echo, 15, .halt⟩
     reads 0x50 ([1] ++ [0, 1, 253, 0, 1, 15, 5, 0, 0, 0]) (.loadSteps [t]) ∧
      stepFits t.kind t.probe t.action = true ∧ t.step.isSome = true ∧ up.sweep.run = none) ∧
    (let s := swept (echoStep .note 2) (some ⟨.single, 1⟩)
     s.sweep.run.isSome = true ∧ reads 0x50 [0] (.loadSteps []) s ∧
      reads 0x51 [0x10, 0x0E] (.startSweep (some 3600)) s ∧ reads 0x53 [1] (.runStep 1) s ∧
      reads 0x52 [] .stopSweep s ∧ s.sweep.outstanding = some (.echo 1 1 (.node 5) 0)) ∧
    reads 0x51 [0x11, 0x0E] (.startSweep (some 3601)) ∧
    reads 0x51 [0, 0] (.startSweep (some 0)) ∧ up.sweep.steps = [] ∧
    reads 0x53 [0] (.runStep 0) ∧ reads 0x53 [1] (.runStep 1) ∧ up.sweep.steps.length < 1 ∧
    (let s := swept (echoStep .note 2) none
     reads 0x53 [1] (.runStep 1) s ∧ s.sweep.run = none ∧ s.sweep.step 1 = some (echoStep .note 2) ∧
      (echoStep .note 2).target = .station (.node 5) ∧ s.echoPorts (.node 5) ≠ []) ∧
    (reads 0x52 [] .stopSweep ∧ up.sweep.outstanding = none) := by decide +kernel

/-- An ECHO of a pair key whose station lives on TA goes there under the station's node, from 254, and the
probe still waits for the pair key (R41, R178, R179). -/
theorem test_echo_other_side :
    let s := swept { echoStep .note 2 with target := .station (.address 0x4005) } none
    after .runStep (asked 0x53 [1] s) (fun t =>
      (((t.queues.get (.seg .a)).head?).map fun e => (e.header, t.payload e.record),
        t.sweep.outstanding)) =
      some (some (⟨.node 5, .node 254, kindEchoReq, 1⟩, [1]), some (.echo 1 1 (.address 0x4005) 200)) := by
  decide +kernel

/-- `up` with a loop step at TA. -/
def loopSwept (probe : ProbeKind) (run : Option SweepRun) (s : State := up) : State :=
  { s with sweep := { Sweep.atReset with
      steps := [⟨.port (.seg .a), probe, 2, .note, .notRun, 0⟩], run := run
      outstanding := if run.isSome then some (.loop 1 probe none) else none } }

theorem meets_SweepRequestsDriveTheEngine_pass :
    (let s := swept (echoStep .note 2) none
     reads 0x51 [0x10, 0x0E] (.startSweep (some 3600)) s ∧ reads 0x51 [0xFF, 0xFF] (.startSweep none) s ∧
      s.sweep.run = none ∧ s.sweep.step 1 = some (echoStep .note 2) ∧ s.echoPorts (.node 5) ≠ []) ∧
    (let s := loopSwept .loopExternal none
     reads 0x53 [1] (.runStep 1) s ∧ s.sweep.run = none ∧ s.serviceOf (.seg .a) = .inService ∧
      s.heldReply = none ∧
      s.sweep.step 1 = some ⟨.port (.seg .a), .loopExternal, 2, .note, .notRun, 0⟩) ∧
    (let s := loopSwept .loopInternal none
     reads 0x53 [1] (.runStep 1) s ∧ s.serviceOf (.seg .a) = .inService ∧ s.sweep.passWaiting = false ∧
      s.sweep.step 1 = some ⟨.port (.seg .a), .loopInternal, 2, .note, .notRun, 0⟩) ∧
    (let s := loopSwept .loopInternal none (placed (.seg .a) .isolated none up)
     reads 0x53 [1] (.runStep 1) s ∧ s.serviceOf (.seg .a) = .isolated ∧ s.testOf (.seg .a) = none) ∧
    (placed (.seg .a) .off none up).serviceOf (.seg .a) = .off := by decide +kernel

theorem meets_SweepRequestsDriveTheEngine_stop :
    (let s := loopSwept .loopExternal (some ⟨.single, 1⟩)
        (placed (.seg .a) .probing (some ⟨.probe, .external, 1, some 40, .none⟩) up)
     reads 0x52 [] .stopSweep s ∧ s.sweep.run = some ⟨.single, 1⟩ ∧
      s.sweep.outstanding = some (.loop 1 .loopExternal none) ∧
      s.sweep.step 1 = some ⟨.port (.seg .a), .loopExternal, 2, .note, .notRun, 0⟩ ∧
      s.testOf (.seg .a) = some ⟨.probe, .external, 1, some 40, .none⟩ ∧
      s.serviceOf (.seg .a) = .probing ∧ s.heldReply = none) ∧
    (let s := loopSwept .loopInternal (some ⟨.pass, 1⟩)
        (placed (.seg .a) .isolated (some ⟨.loop, .internal, 1, some 4, .none⟩) up)
     reads 0x52 [] .stopSweep s ∧ s.serviceOf (.seg .a) = .isolated ∧
      s.testOf (.seg .a) = some ⟨.loop, .internal, 1, some 4, .none⟩ ∧
      (s.service.get (.seg .a)).holdExpired = false ∧
      ((modService (.seg .a) (fun v => { v with holdExpired := true }) s).service.get
        (.seg .a)).holdExpired = true) ∧
    (placed (.seg .a) .off (some ⟨.loop, .internal, 1, some 4, .none⟩) up).serviceOf (.seg .a) = .off := by
  decide +kernel

/-- STOP-SWEEP gives a PROBING port its service and its queue back (R170, R183). -/
theorem test_stop_loop :
    after .stopSweep (asked 0x52 [] (queued (.seg .b) (loopSwept .loopExternal (some ⟨.single, 1⟩)
        (placed (.seg .a) .probing (some ⟨.probe, .external, 1, some 40, .none⟩) up))))
      (fun t => (t.serviceOf (.seg .a), t.testOf (.seg .a), t.sweep.steps.map SweepStep.result,
        t.sweep.outstanding, (t.queues.get (.seg .b)).length)) =
      some (.inService, none, [.notRun], none, 1) := by decide +kernel

theorem meets_ClearAllAndMalformedRequests :
    reads 0x66 [] .clearAll ∧ up.serviceOf (ask 0x66 []).port ≠ .off ∧
      (let s := placed (.seg .a) .off none { up with dir := known, heldReply := some (ask 0x66 []) }
       reads 0x66 [] .clearAll s ∧ s.serviceOf (ask 0x66 []).port = .off ∧ s.heldReply ≠ none) ∧
      ((hearing (sixFor 3) 6 [] []).segs.get .a).rx.own = false ∧
      ((seg fun t => { t with carrier := true, rx := .discarding false }).segs.get .a).rx.own = false ∧
      ((linked (wholeLink false) []).links.get .l0).rx.own = false ∧
      ((asked 0x66 [0]).active = true ∧ readRequest (ask 0x66 [0]) = .malformed none) ∧
      readRequest (ask 0x64 ([1] ++ [23, 0, 0, 0])) = .malformed (some 1) ∧
      (⟨.seg .a, .node 5, [1]⟩ : Request).payload.length < 2 := by decide +kernel

theorem meets_ClearAllAndMalformedRequests_directory : { up with dir := known }.directoryOk :=
  ⟨by simp [known, Table.rising], by decide⟩

/-- CLEAR-ALL at a line in service, and the loss of its reply to a port that is OFF (R144, R196). -/
theorem test_clearAll_off :
    after .clearAll (asked 0x66 [] (placed (.seg .a) .off none
        (serving (job .printing) fun t => { t with lowest := 1, byteInFlight := true, rotating := true })))
      (fun t => ((t.lines.get .lp1).state, (t.lines.get .lp1).initTimer, (t.lines.get .lp1).lowest,
        t.count (.mgmt .replyLost))) =
      some (.resetting, some 20, 3, 1) := by decide +kernel

/-- A reception under way at CLEAR-ALL goes on to its end, and its frame is then discarded (R17, R81). -/
theorem test_clearAll_reception :
    after .clearAll (asked 0x66 [] (hearing (sixFor 3) 6 [] []))
      (fun t => ((t.segs.get .a).rx, (t.segs.get .a).loop, t.records.find 0)) =
      some (.receiving ⟨sixFor 3, 6, [], 0, false⟩, .internal, some ⟨1, [], 1⟩) := by decide +kernel

/-- The end of an INTERNAL attempt frees a receiver whose own looped-back reception is in DISCARDING, and
leaves one that the coax put there (R1). -/
theorem test_discarding_ends :
    let ended (b : Bool) := ((segmentSent .a (seg fun t => { t with
      carrier := true, loop := .internal, tx := .sending, inFlight := some .test
      rx := .discarding b })).segs.get .a).rx
    ended true = .idle ∧ ended false = .discarding false := by decide +kernel

/-! ### Fault monitoring, tests and the sweep -/

theorem meets_ReportsAreLaidAndJudged :
    ((Key.node 254).isStation = false ∧ (Key.address 0xFFF0).isStation = false ∧
      (Key.node 253).isStation = true ∧ { up with dir := known }.lookup (.node 253) = none) ∧
    ({ up with dir := known }.lookup (.node 9) =
        some (5, ⟨.static, some 9, none, .printer (.line .lp1) 0⟩) ∧
      { up with dir := known }.lookup (.node 8) =
        some (4, ⟨.static, some 8, none, .station (station none)⟩) ∧
      { up with dir := known }.station 4 = some (station none)) ∧
    (up.config.suspectThreshold = min 255 ({ station none with tally := 7 }.tally + 1) ∧
      up.config.quarantineThreshold = min 255 ({ station none .suspect with tally := 23 }.tally + 1) ∧
      up.config.suspectThreshold ≤ up.config.quarantineThreshold) ∧
    (let s := { up with segWin := ⟨{ SegWindow.zero with headerBad := 39 }, .zero⟩ }
     s.window.running = true ∧ (s.marks.get (.seg .a)).errorsMade = false ∧
      (s.segWin.get .a).runts < 65535 ∧ s.errorSum (.seg .a) + 1 = s.config.segThreshold ∧
      s.serviceOf (.seg .a) = .inService ∧
      (placed (.seg .a) .isolated none s).serviceOf (.seg .a) ≠ .inService) ∧
    (let counted (n f : Nat) (m : Marks) : State := { up with
        linkWin := up.linkWin.set .l0 { LinkWindow.zero with checkBad := n, flaps := f }
        marks := up.marks.set (.link .l0) m }
     let s := counted 18 0 .clear
     let t := counted 19 1 .clear
     let u := counted 39 2 { Marks.clear with errorsWarned := true, flapsWarned := true }
     (s.window.running = true ∧ s.errorSum (.link .l0) + 1 < halfUp s.config.linkThreshold ∧
        (s.linkWin.get .l0).flaps + 1 < halfUp s.config.flapLimit) ∧
      (let v := counted 0 1 .clear
       v.errorSum (.link .l0) + 1 < halfUp v.config.linkThreshold ∧
        halfUp v.config.flapLimit ≤ (v.linkWin.get .l0).flaps + 1 ∧
        (v.linkWin.get .l0).flaps + 1 < v.config.flapLimit ∧ (v.linkWin.get .l0).flaps < 65535 ∧
        (v.marks.get (.link .l0)).flapsWarned = false) ∧
      ((t.linkWin.get .l0).checkBad < 65535 ∧
        halfUp t.config.linkThreshold ≤ t.errorSum (.link .l0) + 1 ∧
        t.errorSum (.link .l0) + 1 < t.config.linkThreshold ∧
        (t.marks.get (.link .l0)).errorsWarned = false) ∧
      (u.serviceOf (.link .l0) = .inService ∧ u.heldReply = none ∧ (u.linkWin.get .l0).checkBad < 65535 ∧
        u.errorSum (.link .l0) + 1 = u.config.linkThreshold ∧
        (u.marks.get (.link .l0)).errorsMade = false ∧ (u.linkWin.get .l0).flaps < 65535 ∧
        u.errorSum (.link .l0) < u.config.linkThreshold ∧
        (u.linkWin.get .l0).flaps + 1 = u.config.flapLimit ∧
        (u.marks.get (.link .l0)).flappingMade = false)) := by decide

/-- Of the two requests of one UNTERMINATED the LINE request comes first (R146, R148, R170). -/
theorem test_unterminated_first :
    let s := unterminated .a { seg (fun t => { t with tx := .sending }) with
      segWin := ⟨{ SegWindow.zero with runts := 40 }, .zero⟩ }
    (s.service.get (.seg .a)).cause = some .line ∧ s.count (.faultPort (.seg .a) .requestsErrors) = 1 := by
  decide

/-- A flap limit that has been lowered below the flaps of the window is judged at the next flap report,
not at another one (R158). -/
theorem test_flap_limit :
    let s := { up with
      linkWin := up.linkWin.set .l0 { LinkWindow.zero with flaps := 2 }
      config := { up.config with flapLimit := 1 } }
    (linkReport .l0 .symbolError s).serviceOf (.link .l0) = .inService ∧
      (linkReport .l0 .flap s).serviceOf (.link .l0) = .isolated := by decide

/-- A port under test. -/
def tested (t : PortTest) (s : State := up) : State := placed (.seg .a) .testing (some t) s

theorem meets_PortTestsJudgeThePort :
    (let s := tested ⟨.entry, .internal, 1, some 0, .none⟩
     s.active = true ∧ s.resultWaits = false ∧ s.heldReply = none ∧
      s.testOf (.seg .a) = some ⟨.entry, .internal, 1, some 0, .none⟩ ∧
      TestPhase.internal ≠ .external) ∧
    (tested ⟨.entry, .external, 3, some 0, .none⟩).testOf (.seg .a) =
      some ⟨.entry, .external, 3, some 0, .none⟩ ∧
    (let s := tested ⟨.entry, .external, 1, none, .record⟩
     s.testOf (.seg .a) = some ⟨.entry, .external, 1, none, .record⟩ ∧
      TestPhase.external.sends = true ∧ s.slots.get (.seg .a) = none ∧ s.pool.free ≠ 0) ∧
    (let s := modService (.seg .a) (fun v => { v with holdTimer := some 0 })
        (placed (.seg .a) .isolated none up)
     s.serviceOf (.seg .a) = .isolated ∧ (s.service.get (.seg .a)).holdTimer.isSome = true ∧
      s.testOf (.seg .a) = none ∧ s.resultWaits = false ∧ s.heldReply = none) ∧
    (let t : PortTest := ⟨.entry, .external, 3, some 1, .none⟩
     let s := tested t (handed (.seg .a) (hdr kindTest 254 254 8) (testPayload (.seg .a) 0 .external 3))
     s.active = true ∧ s.resultWaits = false ∧ s.heldReply = none ∧
      s.handover.get (.seg .a) = [⟨hdr kindTest 254 254 8, 0⟩] ∧ s.testOf (.seg .a) = some t ∧
      s.payload 0 = testPayload (.seg .a) (s.service.get (.seg .a)).testNumber .external 3) := by
  decide

theorem meets_SweepTimersEndProbesAndBeginPasses :
    (let s := swept (echoStep .note 2) (some ⟨.single, 1⟩)
     s.active = true ∧ s.sweep.outstanding = some (.echo 1 1 (.node 5) 0) ∧
      s.sweep.run = some ⟨.single, 1⟩ ∧ s.sweep.passWaiting = false ∧
      s.sweep.step 1 = some (echoStep .note 2) ∧
      (echoStep .note 2).fails + 1 < (echoStep .note 2).failLimit) ∧
    ((echoStep .halt 1).failLimit ≤ (echoStep .halt 1).fails + 1 ∧
      (swept (echoStep .halt 1) (some ⟨.single, 1⟩)).sweep.step 1 = some (echoStep .halt 1)) ∧
    (let s := { up with sweep := { Sweep.atReset with timer := some 0, enabled := true } }
     s.sweep.timer.isSome = true ∧ s.sweep.enabled = true ∧ s.sweep.run = none ∧ s.sweep.steps = []) ∧
    up.sweep.timer = none := by decide

/-- A pass of two steps with the first one's ECHO out, and the commands that wait. -/
def passing (pending : List Instr) : State :=
  { swept (echoStep .note 2) (some ⟨.pass, 1⟩) with
    pending := pending
    sweep := { (swept (echoStep .note 2) (some ⟨.pass, 1⟩)).sweep with
      steps := [echoStep .note 2, echoStep .note 2] } }

theorem meets_SweepTimersEndProbesAndBeginPasses_next :
    (let s := passing [.stopSweep]
     s.active = true ∧ s.sweep.outstanding = some (.echo 1 1 (.node 5) 0) ∧
      s.sweep.run = some ⟨.pass, 1⟩ ∧ s.sweep.step 1 = some (echoStep .note 2) ∧
      s.sweep.step (1 + 1) = some (echoStep .note 2) ∧ s.pending.head? = some .stopSweep) ∧
    (let s := passing []
     s.pending.head? ≠ some .stopSweep ∧ s.echoPorts (.node 5) ≠ []) ∧
    (let v : PortTest := ⟨.probe, .external, 1, some 0, .none⟩
     let s := loopSwept .loopExternal (some ⟨.single, 1⟩) (placed (.seg .a) .probing (some v)
        (seg fun t => { t with carrier := true, stuck := true, heldTimer := some 0 }))
     s.active = true ∧ s.testOf (.seg .a) = some v ∧ s.serviceOf (.seg .a) = .probing ∧
      s.heldReply = none ∧ s.sweep.outstanding = some (.loop 1 .loopExternal none) ∧
      s.sweep.run = some ⟨.single, 1⟩ ∧ s.sweep.passWaiting = false ∧
      s.sweep.step 1 = some ⟨.port (.seg .a), .loopExternal, 2, .note, .notRun, 0⟩ ∧
      v.timer.isSome = true ∧ s.window.running = true ∧ (s.segs.get .a).stuck = true ∧
      (s.segs.get .a).heldTimer.isSome = true) := by decide

/-- A STOP-SWEEP that comes at the end of a probe finds no step begun, and none records NOT-RUN (R183). -/
theorem test_stop_between_steps :
    after .echoTimerExpiry (asked 0x52 [] (passing [.stopSweep])) (fun t =>
      after .stopSweep t (fun u => (u.sweep.run, u.sweep.steps.map SweepStep.result,
        u.count (.sweep .stepsNotRun)))) = some (some (none, [.fail, .notRun], 0)) := by decide +kernel

theorem meets_UnitCommandsLeaveTheRestAlone :
    (∃ t, exec (.carrierRise .a) up = .next t) ∧ (∃ t, exec (.ackPulse .lp1) up = .next t) ∧
      Line.lp2 ≠ .lp1 :=
  ⟨⟨_, rfl⟩, ⟨_, rfl⟩, by decide⟩

theorem meets_invariants :
    up.directoryOk ∧ (∃ t, step up = .next t) ∧ up.serial.wf = true ∧
      up.pool.free + up.pool.frameHeld + up.pool.spoolHeld = Config.poolBlocks ∧ up.resultWaits = false :=
  ⟨⟨by simp [up, State.reset, Table.rising], by decide⟩, ⟨_, rfl⟩, by decide, by decide, rfl⟩

/-! ### Images with entries (last: their bytes are summed and read) -/

set_option maxRecDepth 20000 in
theorem meets_LoadEndPutsTheImageInForce_whole :
    wholeImage.active = true ∧ wholeImage.loading = true ∧ holdsImage wholeImage (fun bs =>
      decide ((byteAt bs 0x46).toNat = 7 ∧ (byteAt bs 0x44).getLsbD 1 = false ∧
        (byteAt bs 0x4A).toNat = 3 ∧ (byteAt bs 0x4B).toNat = 15 ∧ (loadParts bs).2 = false ∧
        (imageEntries bs).Nodup ∧ (imageEntries bs).length = 4 ∧
        after (.imageLoadEnd .allRead) wholeImage (fun t => (imageEntries bs).all fun o => match o with
          | some (i, e) => wholeImage.dir.find i = none && t.dir.find i = some e
          | none => false) = some true)) = true := by
  decide +kernel

set_option maxRecDepth 20000 in
theorem meets_LoadEndPutsTheImageInForce_faulty :
    faultyImage.active = true ∧ faultyImage.loading = true ∧ holdsImage faultyImage (fun bs =>
      decide ((byteAt bs 0x44).getLsbD 1 = true ∧ (byteAt bs 0x46).toNat = 8 ∧
        (byteAt bs 0x4A).toNat = 4 ∧ (byteAt bs 0x4D).toNat = 16 ∧ (loadParts bs).2 = true ∧
        none ∈ imageEntries bs ∧ (imageEntries bs).any Option.isSome)) = true ∧
      after (.imageLoadEnd .allRead) faultyImage (fun t =>
        (t.dir.map Prod.fst, t.raised .imageFault, (t.lines.get .lp1).state)) =
        some ([0, 4, 5], true, .resetting) := by
  decide +kernel

end Sys2Proof.Tests
end

/-! The bounds that every step keeps. -/

namespace Sys2Proof.Machine

/-! ### The fields the bounds speak of -/

/-- The fields that the bounds of the serial memory, the configuration, the lists and the counters speak
of. -/
def State.bounded (s : State) :=
  (s.queues, s.requests, s.unknownLog, s.sweep.steps.length, s.counters, s.config, s.serial)

theorem bounded_modJob (k : Nat) (f : Job → Job) (s : State) : (modJob k f s).bounded = s.bounded := by
  unfold modJob
  split <;> rfl

theorem bounded_putEntry (i : Nat) (e : Entry) (s : State) : (putEntry i e s).bounded = s.bounded := by
  unfold putEntry
  split <;> rfl

theorem bounded_dropEntry (i : Nat) (s : State) : (dropEntry i s).bounded = s.bounded := by
  unfold dropEntry
  split <;> rfl

theorem bounded_modStation (i : Nat) (f : Station → Station) (s : State) :
    (modStation i f s).bounded = s.bounded := by
  unfold modStation
  split
  · exact bounded_putEntry i _ s
  · rfl

theorem bounded_addRef (r : Nat) (s : State) : (addRef r s).bounded = s.bounded := by
  unfold addRef
  split <;> rfl

theorem bounded_releaseRef (r : Nat) (s : State) : (releaseRef r s).bounded = s.bounded := by
  unfold releaseRef
  split
  · split <;> rfl
  · rfl

theorem bounded_of_core {s t : State} (h : t.core = s.core) : t.bounded = s.bounded := by
  simp only [State.core, Prod.mk.injEq] at h
  simp only [State.bounded, h]

/-- A property of the state that each write of a bounded field keeps. -/
structure KeptBounded (P : State → Prop) : Prop where
  same : ∀ {s t : State}, P s → t.bounded = s.bounded → P t
  count : ∀ {s : State} (c : Counter) (n : Nat), P s → P (bumpBy c n s)
  clear : ∀ {s : State} (c : Counter), P s → P (clearCount c s)
  queue : ∀ {s : State} (p : Port) (es : List QueueEntry),
    es.length ≤ Config.queueEntries ∨ es.length ≤ (s.queues.get p).length →
    P s → P { s with queues := s.queues.set p es }
  forget : ∀ {s : State} (i : Nat), P s →
    P { s with queues := s.queues.map fun es => es.map (QueueEntry.forget i) }
  request : ∀ {s : State} (rs : List Request),
    rs.length ≤ Config.requestPlaces ∨ rs.length ≤ s.requests.length → P s → P { s with requests := rs }
  log : ∀ {s : State} (us : List UnknownRecord),
    us.length ≤ Config.unknownRecords ∨ us.length ≤ s.unknownLog.length →
    (∀ u ∈ us, u ∈ s.unknownLog ∨ 1 ≤ u.hits ∧ u.hits ≤ 255) → P s → P { s with unknownLog := us }
  steps : ∀ {s : State} (f : Sweep → Sweep),
    (f s.sweep).steps.length ≤ Config.sweepSteps ∨
      (f s.sweep).steps.length = s.sweep.steps.length → P s → P (modSweep f s)
  settings : ∀ {s : State} (c : Settings), (s.config.ok → c.ok) → P s → P { s with config := c }
  serial : ∀ {s : State} (m : Serial), (s.serial.wf = true → m.wf = true) → P s →
    P { s with serial := m }
  reset : ∀ {s : State}, P s → P (resetBlocks s)

/-- Records, jobs and directory entries do not matter to a property of the bounded fields, so every basic
write keeps it. -/
theorem KeptBounded.kept {P : State → Prop} (h : KeptBounded P) : Kept P where
  rest hs e := h.same hs (bounded_of_core e)
  count := h.count
  clear := h.clear
  make _ _ _ hs := h.same hs rfl
  ref r hs := h.same hs (bounded_addRef r _)
  unref r hs := h.same hs (bounded_releaseRef r _)
  fill _ _ hs := h.same hs rfl
  grow _ _ _ hs := h.same hs rfl
  queue := h.queue
  forget := h.forget
  entry i e _ _ _ hs := h.same hs (bounded_putEntry i e _)
  station i f hs := h.same hs (bounded_modStation i f _)
  free i hs := h.same hs (bounded_dropEntry i _)
  second hs := h.same hs rfl
  opened _ _ _ _ _ hs := h.same hs rfl
  job k f _ hs := h.same hs (bounded_modJob k f _)
  quiet hs := h.same hs rfl
  append _ _ _ hs := h.same hs (bounded_modJob _ _ _)
  spool _ _ _ _ hs := h.same hs (bounded_modJob _ _ _)
  ended _ hs := h.same hs rfl
  cleared hs := h.same hs rfl
  request := h.request
  log := h.log
  steps := h.steps
  settings := h.settings
  serial := h.serial
  reset := h.reset

/-! ### What the reset of the blocks leaves of them -/

theorem resetBlocks_serialOk {s : State} (h : s.serialOk) : (resetBlocks s).serialOk := by
  show (abandonSave s).serial.wf = true
  unfold abandonSave
  split
  · rfl
  · exact h

theorem listsOk_reset : State.reset.listsOk := by
  refine ⟨fun p => ?_, ?_⟩
  · simp [State.reset]
  · simp [State.reset, Sweep.atReset]

theorem countersOk_reset : State.reset.countersOk := fun c => by
  simp [State.count, State.reset, Table.find]

/-! ### Each bound is kept -/

theorem kept_serialOk : KeptBounded State.serialOk where
  same h e := by
    simp only [State.bounded, Prod.mk.injEq] at e
    simpa only [State.serialOk, e] using h
  count c n h := by simpa only [State.serialOk, bumpBy_serial] using h
  clear _ h := h
  queue _ _ _ h := h
  forget _ h := h
  request _ _ h := h
  log _ _ _ h := h
  steps _ _ h := h
  settings _ _ h := h
  serial _ hm h := hm h
  reset := resetBlocks_serialOk

theorem kept_configOk : KeptBounded fun s => s.config.ok where
  same h e := by
    simp only [State.bounded, Prod.mk.injEq] at e
    simpa only [e] using h
  count c n h := by simpa only [bumpBy_config] using h
  clear _ h := h
  queue _ _ _ h := h
  forget _ h := h
  request _ _ h := h
  log _ _ _ h := h
  steps _ _ h := h
  settings _ hc h := hc h
  serial _ _ h := h
  reset _ := Settings.default_ok

/-- A list that has fitted its places still does when it is within them or not longer than before. -/
theorem length_le_of_fits {α : Type} {new old : List α} {bound : Nat}
    (h : new.length ≤ bound ∨ new.length ≤ old.length) (ho : old.length ≤ bound) :
    new.length ≤ bound :=
  h.elim id fun h => h.trans ho

theorem kept_listsOk : KeptBounded State.listsOk where
  same h e := by
    simp only [State.bounded, Prod.mk.injEq] at e
    simpa only [State.listsOk, e] using h
  count c n h := by
    simpa only [State.listsOk, bumpBy_queues, bumpBy_requests, bumpBy_unknownLog, bumpBy_sweep] using h
  clear _ h := h
  queue := by
    rintro s p es he ⟨hq, hrest⟩
    refine ⟨fun q => ?_, hrest⟩
    simp only [PerPort.get_set]
    split
    · exact length_le_of_fits he (hq p)
    · exact hq q
  forget := by
    rintro s i ⟨hq, hrest⟩
    exact ⟨fun q => by simpa using hq q, hrest⟩
  request := by
    rintro s rs hr ⟨hq, hrs, hrest⟩
    exact ⟨hq, length_le_of_fits hr hrs, hrest⟩
  log := by
    rintro s us hl hm ⟨hq, hr, hlog, hhits, hsteps⟩
    exact ⟨hq, hr, length_le_of_fits hl hlog, fun u hu => (hm u hu).elim (hhits u) id, hsteps⟩
  steps := by
    rintro s f hf ⟨hq, hr, hlog, hhits, hsteps⟩
    exact ⟨hq, hr, hlog, hhits, length_le_of_fits (hf.imp_right le_of_eq) hsteps⟩
  settings _ _ h := h
  serial _ _ h := h
  reset _ := listsOk_reset

theorem kept_countersOk : KeptBounded State.countersOk where
  same h e := by
    simp only [State.bounded, Prod.mk.injEq] at e
    simpa only [State.countersOk, State.count, e] using h
  count {s} c n h d := by
    by_cases hn : n = 0
    · simpa [bumpBy, hn] using h d
    · rw [count_bumpBy c d n hn]
      split
      · exact Nat.min_le_left _ _
      · exact h d
  clear {s} c h d := by
    simp only [State.count, clearCount, Table.find_drop]
    split
    · exact Nat.zero_le _
    · exact h d
  queue _ _ _ h := h
  forget _ h := h
  request _ _ h := h
  log _ _ _ h := h
  steps _ _ h := h
  settings _ _ h := h
  serial _ _ h := h
  reset _ := countersOk_reset

/-- Settles O56: each bound is kept by every basic write, and so by every step. -/
theorem stepKeepsTheBounds : Obligations.StepKeepsTheBounds :=
  ⟨fun _ _ h x => kept_step kept_serialOk.kept x h, fun _ _ h x => kept_step kept_configOk.kept x h,
    fun _ _ h x => kept_step kept_listsOk.kept x h, fun _ _ h x => kept_step kept_countersOk.kept x h⟩

/-! ### The state after reset -/

theorem get_reset_seg (x : Seg) : State.reset.segs.get x = .atReset false := by
  simp [State.reset]

theorem get_reset_link (l : Link) : State.reset.links.get l = .atReset false := by
  simp [State.reset]

theorem get_reset_line (n : Line) : State.reset.lines.get n = .atReset false false false false := by
  cases n <;> rfl

theorem get_reset_service (p : Port) :
    ∃ bcast accept, State.reset.service.get p = .atReset bcast accept := by
  cases p with
  | seg x => exact ⟨false, false, by simp [State.reset, PerPort.get]⟩
  | link l => exact ⟨true, true, by simp [State.reset, PerPort.get]⟩

/-- Settles O2: the fields of `State.reset`, family by family. -/
theorem resetLeavesTheStatedValues : Obligations.ResetLeavesTheStatedValues := by
  refine ⟨fun p => ?_, fun x => ?_, fun l => ?_, fun n => ?_, rfl, rfl, rfl, rfl, rfl, rfl, rfl, rfl, rfl,
    rfl, rfl, rfl, rfl, rfl, rfl, fun c => rfl⟩
  · obtain ⟨bcast, accept, h⟩ := get_reset_service p
    rw [h]
    simp [PortService.atReset, State.reset]
  · rw [get_reset_seg]
    exact ⟨rfl, rfl, rfl, rfl, rfl, rfl⟩
  · rw [get_reset_link]
    exact ⟨rfl, rfl, rfl, rfl⟩
  · rw [get_reset_line]
    rfl

theorem directoryOk_reset : State.reset.directoryOk := by
  simp [State.directoryOk, State.reset, Table.rising, Table.find, Config.directoryPositions]

theorem keysUnique_reset : State.reset.keysUnique := by
  simp [State.keysUnique, State.reset]

theorem blocksOk_reset : State.reset.blocksOk := by
  simp [State.blocksOk, State.recordsOk, State.jobsOk, State.recordBlocks, State.jobBlocks, State.reset,
    Table.rising]

/-- Settles O60: each invariant holds of `State.reset`. -/
theorem invariantsHoldAtReset : Obligations.InvariantsHoldAtReset :=
  ⟨rfl, Settings.default_ok, listsOk_reset, countersOk_reset, directoryOk_reset, keysUnique_reset,
    blocksOk_reset, rfl⟩

end Sys2Proof.Machine

/-! Power and RESET: every block in its reset state, and the release. -/

namespace Sys2Proof.Machine

/-! ### Power and RESET -/

/-- A link just out of reset whose signal the interface has reported as it finds it (R18, R32). -/
def LinkPort.found (signal : Bool) : LinkPort :=
  { LinkPort.atReset signal with
    signalSeen := signal, line := if signal then .training else .noSignal }

/-- A link in its reset state on a RUNNING interface enters TRAINING where it has signal (R18). -/
theorem report_atReset {l : Link} {signal : Bool} {s : State} (h : s.links.get l = .atReset signal)
    (hr : (s.ifaces.get l.iface).clockHold = false) :
    (if (s.links.get l).lineSignal then signalReported l s else s) =
      { s with links := s.links.set l (.found signal) } := by
  cases signal with
  | false =>
    have hset : s.links.set l (.found false) = s.links := by
      rw [show LinkPort.found false = s.links.get l from h.symm]
      cases l <;> rfl
    rw [hset, h]
    rfl
  | true =>
    rw [if_pos (by rw [h]; rfl)]
    simp [signalReported, tryTraining, State.held, h, hr, modLink, LinkPort.atReset, LinkPort.found]

/-- An interface that is RUNNING reports the signals of its two links in their reset state. -/
theorem reportSignals_atReset {i : Iface} {l m : Link} {b c : Bool} {s : State} (hi : i.links = [l, m])
    (hl : s.links.get l = .atReset b) (hm : s.links.get m = .atReset c) (hne : l ≠ m)
    (hr : ∀ l : Link, (s.ifaces.get l.iface).clockHold = false) :
    reportSignals i s = { s with links := (s.links.set l (.found b)).set m (.found c) } := by
  simp only [reportSignals, hi, List.foldl]
  rw [report_atReset hl (hr l)]
  exact report_atReset (by simpa [hne] using hm) (hr m)

/-- The interfaces report the signals of links in their reset state (R32, R194). -/
theorem release_atReset {s : State} {b₀ b₁ b₂ b₃ : Bool}
    (hl : s.links = ⟨.atReset b₀, .atReset b₁, .atReset b₂, .atReset b₃⟩)
    (hi : s.ifaces = ⟨⟨false, 0⟩, ⟨false, 0⟩⟩) :
    release s = { s with
      loading := true, links := ⟨.found b₀, .found b₁, .found b₂, .found b₃⟩ } := by
  have running : ∀ l : Link, (s.ifaces.get l.iface).clockHold = false := fun l => by
    rw [hi]; cases l <;> rfl
  have first := reportSignals_atReset (s := { s with loading := true }) (i := .li0) (b := b₀) (c := b₁) rfl
    (by rw [hl]; rfl) (by rw [hl]; rfl) (by decide) running
  have second := reportSignals_atReset (s := reportSignals .li0 { s with loading := true }) (i := .li1)
    (b := b₂) (c := b₃) rfl (by rw [first, hl]; rfl) (by rw [first, hl]; rfl) (by decide)
    (by rw [first]; exact running)
  refine second.trans ?_
  rw [first, hl]
  rfl

/-- Every block in its reset state, with what a reset keeps: the waiting commands, the pins, the count of
free values and the serial memory, but for a save in flight. -/
theorem resetBlocks_eq (s : State) : resetBlocks s = { State.reset with
    pending := s.pending, powered := s.powered, resetLow := s.resetLow, commission := s.commission
    choices := s.choices, loading := false
    serial := if s.save.isSome then .failedSave else s.serial
    segs := ⟨.atReset s.segs.a.carrier, .atReset s.segs.b.carrier⟩
    links := ⟨.atReset s.links.l0.lineSignal, .atReset s.links.l1.lineSignal,
      .atReset s.links.l2.lineSignal, .atReset s.links.l3.lineSignal⟩
    lines :=
      ⟨.atReset s.lines.lp1.select s.lines.lp1.paperOut s.lines.lp1.fault s.lines.lp1.busy,
        .atReset s.lines.lp2.select s.lines.lp2.paperOut s.lines.lp2.fault s.lines.lp2.busy⟩ } := by
  unfold resetBlocks abandonSave
  split <;> rfl

/-- The release of RESET after the reset of every block: loading is yes besides, and the links with signal
are in TRAINING. -/
theorem release_resetBlocks (s : State) : release (resetBlocks s) = { resetBlocks s with
    loading := true
    links := ⟨.found s.links.l0.lineSignal, .found s.links.l1.lineSignal,
      .found s.links.l2.lineSignal, .found s.links.l3.lineSignal⟩ } :=
  release_atReset (by rw [resetBlocks_eq]) rfl

/-- Settles O3, by power and the level of RESET. -/
theorem resetAndPowerTakeEveryBlock : Obligations.ResetAndPowerTakeEveryBlock := by
  intro s
  refine ⟨fun hp => ⟨?_, ?_, fun hr => ⟨?_, ?_⟩, fun hr => ⟨?_, ?_⟩⟩,
    fun hp => ⟨?_, ?_, ?_, fun hr => ?_, fun hr => ?_⟩⟩ <;> refine congrArg Host.Outcome.next ?_
  · exact if_pos hp
  · rw [powerLoss, if_pos hp, resetBlocks_eq]
  · rw [resetAssert, if_neg (by simp [hr]), if_pos hp, resetBlocks_eq]
  · exact if_neg (by simp [hr])
  · rw [resetRelease, if_pos hr, if_pos hp, release_resetBlocks, resetBlocks_eq]
    rfl
  · exact if_pos hr
  · exact if_neg (by simp [hp])
  · rw [resetAssert]
    split
    · next hr => rw [← hr]
    · exact if_neg (by simp [hp])
  · rw [resetRelease]
    split
    · exact if_neg (by simp [hp])
    · next hr => rw [← Bool.not_eq_true _ |>.mp hr]
  · rw [powerOn, if_neg (by simp [hp])]
    refine (if_neg (by simp [resetBlocks_eq, hr])).trans ?_
    rw [release_resetBlocks, resetBlocks_eq]
    rfl
  · rw [powerOn, if_neg (by simp [hp])]
    refine (if_pos (by simp [resetBlocks_eq, hr])).trans ?_
    rw [resetBlocks_eq]

end Sys2Proof.Machine

/-! The outcomes of receptions, and the frames the part drives read back. -/

namespace Sys2Proof.Machine

/-! ### The outcomes of receptions (R3, R23) -/

theorem classifySeg_runt {r : SegReception} (payload : List Byte) (h : r.count < 6) :
    classifySeg r payload = .runt :=
  if_pos h

theorem classifySeg_headerBad {r : SegReception} (payload : List Byte) (h : 6 ≤ r.count)
    (hs : byteSum r.header ≠ 0xA5) : classifySeg r payload = .headerBad := by
  rw [classifySeg, if_neg (by omega), if_pos hs]

/-- With a whole, sound header the length and then the frame check decide. -/
theorem classifySeg_of_header {r : SegReception} (payload : List Byte) (h : 6 ≤ r.count)
    (hs : byteSum r.header = 0xA5) : classifySeg r payload =
      if 1010 < trunkLength r.header ∨ r.count ≠ 6 + trunkLength r.header + 2 then .lengthBad
      else if r.check ≠ Side.trunk.word (crc16 (r.header ++ payload)).toNat then .bodyBad
      else .good := by
  rw [classifySeg, if_neg (by omega), if_neg (not_not.2 hs)]
  rfl

/-- A segment reception of the length its sound header gives and with the check of its bytes is good. -/
theorem classifySeg_good {r : SegReception} (payload : List Byte) (hs : byteSum r.header = 0xA5)
    (hl : trunkLength r.header ≤ 1010) (hc : r.count = 6 + trunkLength r.header + 2)
    (hk : r.check = Side.trunk.word (crc16 (r.header ++ payload)).toNat) :
    classifySeg r payload = .good := by
  rw [classifySeg_of_header payload (by omega) hs, if_neg (by omega), if_neg (not_not.2 hk)]

/-- Without a symbol error a link reception of at least 11 bytes with the check of its bytes is judged by
its length. -/
theorem classifyLink_of_check {r : LinkReception} (hs : r.symbolError = false) (hc : 11 ≤ r.count)
    (hk : r.last = Side.pair.long (~~~ r.crc).toNat) : classifyLink r =
      if 1472 < officeLength r.header ∨ r.count ≠ 7 + officeLength r.header + 4 then .lengthBad
      else .good := by
  rw [classifyLink, if_neg (by simp [hs]), if_neg (by omega), if_neg (not_not.2 hk)]
  rfl

theorem classifyLink_checkBad {r : LinkReception} (hs : r.symbolError = false)
    (h : r.count < 11 ∨ r.last ≠ Side.pair.long (~~~ r.crc).toNat) : classifyLink r = .checkBad := by
  rw [classifyLink, if_neg (by simp [hs])]
  split
  · rfl
  · exact if_pos (h.resolve_left (by assumption))

/-- A link reception without a symbol error, of the length its header gives and with the check of its
bytes, is good. -/
theorem classifyLink_good {r : LinkReception} (hs : r.symbolError = false)
    (hl : officeLength r.header ≤ 1472) (hc : r.count = 7 + officeLength r.header + 4)
    (hk : r.last = Side.pair.long (~~~ r.crc).toNat) : classifyLink r = .good := by
  rw [classifyLink_of_check hs (by omega) hk, if_neg (by omega)]

/-- Settles O8, test by test. -/
theorem receptionsAreClassifiedInOrder : Obligations.ReceptionsAreClassifiedInOrder := by
  refine ⟨fun r payload => ⟨classifySeg_runt payload, classifySeg_headerBad payload,
    fun h hs => ⟨fun hl => ?_, fun hl hc => ⟨fun hk => ?_, classifySeg_good payload hs hl hc⟩⟩⟩,
    fun r => ⟨fun hs => if_pos hs, fun hs => ⟨classifyLink_checkBad hs, fun hc hk => ⟨fun hl => ?_,
      fun hl hn => classifyLink_good hs hl hn hk⟩⟩⟩⟩
  · rw [classifySeg_of_header payload h hs, if_pos hl]
  · rw [classifySeg_of_header payload h hs, if_neg (by omega), if_pos hk]
  · rw [classifyLink_of_check hs hc hk, if_pos hl]

/-! ### Wire frames read back (R6, R25, R198) -/

theorem byteOf_toNat (b : Byte) : byteOf b.toNat = b := by simp [byteOf]

/-- A two-byte field reads back in the order it was written. -/
theorem readWord_word (side : Side) {n : Nat} (h : n < 65536) :
    ∃ b c, side.word n = [b, c] ∧ side.readWord b c = n := by
  cases side
  · refine ⟨_, _, rfl, ?_⟩
    simp only [Side.readWord, byteOf, BitVec.toNat_ofNat]
    omega
  · refine ⟨_, _, rfl, ?_⟩
    simp only [Side.readWord, byteOf, BitVec.toNat_ofNat]
    omega

/-- The header check brings the sum of the header bytes to A5h. -/
theorem byteSum_headerCheck (bs : List Byte) : byteSum (bs ++ [headerCheck bs]) = 0xA5 := by
  have h : byteSum (bs ++ [headerCheck bs]) = byteSum bs + headerCheck bs := by
    simp [byteSum]
  rw [h, headerCheck, add_sub_cancel]

theorem length_trunkHeader (h : Header) : (trunkHeader h).length = 6 := by
  simp [trunkHeader, trunkHeaderFive, Side.word]

theorem length_officeHeader (h : Header) : (officeHeader h).length = 7 := by
  simp [officeHeader, Side.word]

/-- A trunk header reads back. -/
theorem readTrunkHeader_trunkHeader (d n : Node) (kind : Byte) {k : Nat} (hk : k < 65536) :
    readTrunkHeader (trunkHeader ⟨.node d, .node n, kind, k⟩) = ⟨.node d, .node n, kind, k⟩ := by
  obtain ⟨b, c, hw, hr⟩ := readWord_word .trunk hk
  simp [readTrunkHeader, trunkHeader, trunkHeaderFive, trunkLength, wordAt, byteAt, hw, hr, Key.value,
    byteOf_toNat]

/-- An office header reads back. -/
theorem readOfficeHeader_officeHeader (d n : Address) (kind : Byte) {k : Nat} (hk : k < 65536) :
    readOfficeHeader (officeHeader ⟨.address d, .address n, kind, k⟩) =
      ⟨.address d, .address n, kind, k⟩ := by
  obtain ⟨b, c, hw, hr⟩ := readWord_word .pair hk
  obtain ⟨b₁, c₁, hw₁, hr₁⟩ := readWord_word .pair d.isLt
  obtain ⟨b₂, c₂, hw₂, hr₂⟩ := readWord_word .pair n.isLt
  simp [readOfficeHeader, officeHeader, officeLength, wordAt, byteAt, hw, hr, hw₁, hr₁, hw₂, hr₂,
    Key.value, Side.key]

theorem trunkFrame_parts (h : Header) (payload : List Byte) :
    (trunkFrame h payload).take 6 = trunkHeader h ∧
      ((trunkFrame h payload).drop 6).take payload.length = payload ∧
      (trunkFrame h payload).drop (6 + payload.length) =
        Side.trunk.word (crc16 (trunkHeader h ++ payload)).toNat ∧
      (trunkFrame h payload).length = 6 + payload.length + 2 := by
  have hl := length_trunkHeader h
  refine ⟨?_, ?_, ?_, ?_⟩
  · simp [trunkFrame, hl]
  · simp [trunkFrame, hl]
  · simp [trunkFrame, List.drop_append, hl]
  · simp [trunkFrame, hl, Side.word, Nat.add_assoc]

theorem officeFrame_parts (h : Header) (payload : List Byte) :
    (officeFrame h payload).take 7 = officeHeader h ∧
      ((officeFrame h payload).drop 7).take payload.length = payload ∧
      (officeFrame h payload).length = 7 + payload.length + 4 := by
  have hl := length_officeHeader h
  refine ⟨?_, ?_, ?_⟩
  · simp [officeFrame, hl]
  · simp [officeFrame, hl]
  · simp [officeFrame, hl, Side.long, Nat.add_assoc]

/-- After a list of bytes the running check has taken all but the last four, and these are held. -/
theorem foldl_roll {r : LinkReception} (hr : r.last = []) (body : List Byte) {last : List Byte}
    (hl : last.length = 4) : (body ++ last).foldl LinkReception.roll r =
      { r with crc := body.foldl crc32Byte r.crc, last := last } := by
  obtain ⟨b₀, b₁, b₂, b₃, rfl⟩ : ∃ b₀ b₁ b₂ b₃, last = [b₀, b₁, b₂, b₃] := by
    match last, hl with
    | [b₀, b₁, b₂, b₃], _ => exact ⟨b₀, b₁, b₂, b₃, rfl⟩
  clear hl
  induction body using List.reverseRecOn generalizing b₀ b₁ b₂ b₃ with
  | nil => simp [LinkReception.roll, hr]
  | append_singleton body x ih =>
    have regroup : body ++ [x] ++ [b₀, b₁, b₂, b₃] = body ++ [x, b₀, b₁, b₂] ++ [b₃] := by simp
    rw [regroup, List.foldl_append, ih]
    simp [LinkReception.roll]

/-- A frame that a segment drives is good where it is received whole. -/
theorem trunkFrame_good {d n : Node} {kind : Byte} {payload : List Byte} (rid : Nat)
    (hp : payload.length ≤ 1010) :
    let w := trunkFrame ⟨.node d, .node n, kind, payload.length⟩ payload
    classifySeg ⟨w.take 6, w.length, w.drop (6 + payload.length), rid, false⟩ payload = .good := by
  intro w
  obtain ⟨hhead, -, hcheck, hlen⟩ := trunkFrame_parts ⟨.node d, .node n, kind, payload.length⟩ payload
  have hread := readTrunkHeader_trunkHeader d n kind (k := payload.length) (by omega)
  have hn : trunkLength (w.take 6) = payload.length := by rw [hhead]; exact congrArg Header.length hread
  refine classifySeg_good payload ?_ (by rw [hn]; exact hp) (by rw [hn]; exact hlen) ?_
  · show byteSum (w.take 6) = 0xA5
    rw [hhead]
    exact byteSum_headerCheck _
  · show w.drop (6 + payload.length) = Side.trunk.word (crc16 (w.take 6 ++ payload)).toNat
    rw [hcheck, hhead]

/-- A frame that a link drives is good where the check has run over all its bytes. -/
theorem officeFrame_good {d n : Address} {kind : Byte} {payload : List Byte} (rid : Nat)
    (hp : payload.length ≤ 1472) :
    let w := officeFrame ⟨.address d, .address n, kind, payload.length⟩ payload
    let r := w.foldl LinkReception.roll ⟨w.take 7, w.length, crc32Start, [], rid, false, false⟩
    r.header = w.take 7 ∧ classifyLink r = .good := by
  intro w r
  let h : Header := ⟨.address d, .address n, kind, payload.length⟩
  obtain ⟨hhead, -, hlen⟩ := officeFrame_parts h payload
  have hread := readOfficeHeader_officeHeader d n kind (k := payload.length) (by omega)
  have hn : officeLength (w.take 7) = payload.length := by
    rw [show w.take 7 = officeHeader h from hhead]
    exact congrArg Header.length hread
  have hr : r = ⟨w.take 7, w.length, (officeHeader h ++ payload).foldl crc32Byte crc32Start,
      Side.pair.long (crc32 (officeHeader h ++ payload)).toNat, rid, false, false⟩ :=
    foldl_roll rfl (officeHeader h ++ payload) (by simp [Side.long])
  rw [hr]
  refine ⟨rfl, classifyLink_good rfl ?_ ?_ ?_⟩
  · rw [hn]; exact hp
  · rw [hn]; exact hlen
  · dsimp only
    rw [crc32]

/-- Settles O9: the parts of the wire frame, its header read back, and its check. -/
theorem drivenFramesAreReceivedGood : Obligations.DrivenFramesAreReceivedGood := by
  refine ⟨fun d n kind payload rid hp => ?_, fun d n kind payload rid hp => ?_⟩
  · obtain ⟨hhead, hbody, -⟩ := trunkFrame_parts ⟨.node d, .node n, kind, payload.length⟩ payload
    refine ⟨?_, hbody, trunkFrame_good rid hp⟩
    rw [hhead]
    exact readTrunkHeader_trunkHeader d n kind (by omega)
  · obtain ⟨hhead, hbody, -⟩ := officeFrame_parts ⟨.address d, .address n, kind, payload.length⟩ payload
    refine ⟨?_, hbody, officeFrame_good rid hp⟩
    rw [hhead]
    exact readOfficeHeader_officeHeader d n kind (by omega)

end Sys2Proof.Machine

/-! Raised flags, released references and purges. -/

namespace Sys2Proof.Machine

/-! ### The flags a state gains (R190) -/

theorem flag_bit_lt (f : Flag) : f.bit < 16 := by cases f <;> decide

/-- The list of the flags is in the order of their bits. -/
theorem flag_all_bit (f : Flag) : Flag.all[f.bit]? = some f := by cases f <;> rfl

theorem flag_bit_inj {f g : Flag} (h : f.bit = g.bit) : f = g := by
  have hf := flag_all_bit f
  rw [h, flag_all_bit] at hf
  exact (Option.some.inj hf).symm

theorem raised_setFlag (f g : Flag) (s : State) :
    (setFlag f s).raised g = true ↔ s.raised g = true ∨ g = f := by
  have hg := flag_bit_lt g
  have hone : (1#16 <<< f.bit).getLsbD g.bit = decide (g.bit = f.bit) := by
    rw [BitVec.getLsbD_shiftLeft, BitVec.getLsbD_one, Bool.eq_iff_iff]
    simp
    omega
  have heq : g.bit = f.bit ↔ g = f := ⟨flag_bit_inj, congrArg Flag.bit⟩
  simp [State.raised, setFlag, hone, heq]

/-- From `s` to `t` no raised flag is lost, and the flags that become raised are among `P`. -/
def gainsFlags (P : Flag → Prop) (s t : State) : Prop :=
  ∀ g, (s.raised g = true → t.raised g = true) ∧ (t.raised g = true → s.raised g = true ∨ P g)

theorem gainsFlags_of_eq {P : Flag → Prop} {s t : State} (h : t.flags = s.flags) : gainsFlags P s t := by
  intro g
  simp only [State.raised, h]
  exact ⟨id, .inl⟩

theorem gainsFlags_trans {P : Flag → Prop} {s t u : State} (h : gainsFlags P s t)
    (k : gainsFlags P t u) : gainsFlags P s u := fun g =>
  ⟨fun hs => (k g).1 ((h g).1 hs), fun hu => ((k g).2 hu).elim (h g).2 .inr⟩

theorem gainsFlags_mono {P Q : Flag → Prop} {s t : State} (hPQ : ∀ g, P g → Q g)
    (h : gainsFlags P s t) : gainsFlags Q s t := fun g => ⟨(h g).1, fun ht => ((h g).2 ht).imp_right (hPQ g)⟩

theorem gainsFlags_setFlag (f : Flag) (s : State) : gainsFlags (· = f) s (setFlag f s) := fun g =>
  ⟨fun hs => (raised_setFlag f g s).2 (.inl hs), (raised_setFlag f g s).1⟩

theorem offer_flags (p : Port) (e : QueueEntry) (s : State) : (offer p e s).2.flags = s.flags := by
  unfold offer
  split <;> simp

section
variable {P : Flag → Prop} {low : State → State} (hl : ∀ s, gainsFlags P s (low s))
include hl

theorem gainsFlags_ownRecordWith (bs : List Byte) (s : State) :
    gainsFlags P s (ownRecordWith low bs s).2 := by
  unfold ownRecordWith
  dsimp only
  split
  · exact gainsFlags_of_eq (by simp)
  · dsimp only
    split
    · exact gainsFlags_trans (gainsFlags_of_eq (t := newRecord _ _ s) rfl) (hl _)
    · exact gainsFlags_of_eq rfl

theorem gainsFlags_sendOwnWith (p : Port) (d : Key) (k : Byte) (bs : List Byte) (s : State) :
    gainsFlags P s (sendOwnWith low p d k bs s).2 := by
  have made := gainsFlags_ownRecordWith hl bs s
  unfold sendOwnWith
  split
  · next e => rwa [e] at made
  · next r w e =>
    rw [e] at made
    have offered := offer_flags p (ownEntry p d k bs.length r) w
    split <;> next e' =>
      rw [e'] at offered
      exact gainsFlags_trans made (gainsFlags_of_eq (by simpa using offered))

theorem gainsFlags_makeNoticeWith (s : State) : gainsFlags P s (makeNoticeWith low s) := by
  unfold makeNoticeWith
  split
  · exact gainsFlags_of_eq rfl
  · split
    · exact gainsFlags_of_eq (by simp)
    · next p d _ =>
      have sent := gainsFlags_sendOwnWith hl p d kindNotice (noticePayload p.side s) s
      split <;> next e => rw [e] at sent; exact gainsFlags_trans sent (gainsFlags_of_eq (by simp))

theorem gainsFlags_raiseWith (f : Flag) (s : State) :
    gainsFlags (fun g => g = f ∨ P g) s (raiseWith low f s) := by
  have marked := gainsFlags_mono (fun g => .inl) (gainsFlags_setFlag f s) (Q := fun g => g = f ∨ P g)
  have made := gainsFlags_mono (fun g => .inr) (gainsFlags_makeNoticeWith hl (setFlag f s))
    (Q := fun g => g = f ∨ P g)
  unfold raiseWith becomeCounting
  split
  · exact gainsFlags_of_eq rfl
  · dsimp only
    split
    · split
      · exact marked
      · exact gainsFlags_trans marked made
    · exact marked

theorem raised_raiseWith (f : Flag) (s : State) : (raiseWith low f s).raised f = true := by
  have marked : (setFlag f s).raised f = true := (raised_setFlag f f s).2 (.inr rfl)
  unfold raiseWith becomeCounting
  split
  · assumption
  · dsimp only
    split
    · split
      · exact marked
      · exact (gainsFlags_makeNoticeWith hl _ f).1 marked
    · exact marked

end

theorem gainsFlags_raiseLowInNotice (s : State) : gainsFlags (· = .poolLow) s (raiseLowInNotice s) :=
  gainsFlags_mono (fun _ h => h.elim id id) (gainsFlags_raiseWith (gainsFlags_setFlag .poolLow) .poolLow s)

/-- A raise raises its flag and no other but POOL-LOW (R190). -/
theorem gainsFlags_raise (f : Flag) (s : State) :
    gainsFlags (fun g => g = f ∨ g = .poolLow) s (raise f s) :=
  gainsFlags_raiseWith gainsFlags_raiseLowInNotice f s

theorem raised_raise (f : Flag) (s : State) : (raise f s).raised f = true :=
  raised_raiseWith gainsFlags_raiseLowInNotice f s

/-- A raise leaves every raised flag raised. -/
theorem raised_raise_of_raised (f : Flag) {g : Flag} {s : State} (h : s.raised g = true) :
    (raise f s).raised g = true :=
  (gainsFlags_raise f s g).1 h

/-! ### References released (R33, R37) -/

theorem PerSeg.set_get {α : Type} (f : PerSeg α) (x : Seg) : f.set x (f.get x) = f := by cases x <;> rfl

theorem PerLink.set_get {α : Type} (f : PerLink α) (l : Link) : f.set l (f.get l) = f := by cases l <;> rfl

theorem PerPort.set_get {α : Type} (f : PerPort α) (p : Port) : f.set p (f.get p) = f := by
  cases p with
  | seg x => exact congrArg (fun g => { f with segs := g }) (f.segs.set_get x)
  | link l => exact congrArg (fun g => { f with links := g }) (f.links.set_get l)

/-- From `s` to `t` nothing changes but the frame records and the block counts. -/
def Released (s t : State) : Prop := ∃ pool records, t = { s with pool := pool, records := records }

theorem released_refl (s : State) : Released s s := ⟨s.pool, s.records, rfl⟩

theorem released_trans {s t u : State} : Released s t → Released t u → Released s u := by
  rintro ⟨pool, records, rfl⟩ ⟨pool', records', rfl⟩
  exact ⟨pool', records', rfl⟩

theorem released_releaseRef (rid : Nat) (s : State) : Released s (releaseRef rid s) := by
  unfold releaseRef
  split
  · split
    · exact ⟨_, _, rfl⟩
    · exact ⟨s.pool, _, rfl⟩
  · exact released_refl s

theorem released_releaseEntries : ∀ (es : List QueueEntry) (s : State), Released s (releaseEntries es s)
  | [], s => released_refl s
  | e :: es, s => released_trans (released_releaseRef e.record s) (released_releaseEntries es _)

theorem released_releaseInFlight (p : Port) (s : State) : Released s (releaseInFlight p s) := by
  unfold releaseInFlight
  split
  · split
    · exact released_releaseRef _ s
    · exact released_refl s
  · exact released_refl s

/-- The last reference released frees the record and its blocks; any other lowers the count. -/
theorem releaseRef_of_find {rid : Nat} {r : FrameRecord} {s : State} (h : s.records.find rid = some r) :
    releaseRef rid s =
      if r.refs ≤ 1 then { s with
        records := s.records.drop rid
        pool := ⟨s.pool.free + r.blocks, s.pool.frameHeld - r.blocks, s.pool.spoolHeld⟩ }
      else { s with records := s.records.put id rid { r with refs := r.refs - 1 } } := by
  unfold releaseRef
  rw [h]

/-! ### Purges by port (R13, R26, R46) -/

/-- An emptied slot: nothing else changes but the frame records and the block counts (R45). -/
theorem emptySlot_eq (p : Port) (s : State) :
    ∃ t, Released s t ∧ emptySlot p s = { t with slots := t.slots.set p none } := by
  unfold emptySlot
  split
  · obtain ⟨pool, records, h⟩ := released_releaseRef _ { s with slots := s.slots.set p none }
    exact ⟨{ s with pool := pool, records := records }, ⟨pool, records, rfl⟩, h⟩
  · next h =>
    refine ⟨s, released_refl s, ?_⟩
    rw [← h, s.slots.set_get p]

/-- A purge by port leaves the queue and the slot empty, the transmitter stopped and the entries counted;
the rest of it is the release of references (R46). -/
theorem purgePort_eq (p : Port) (why : PurgeReason) (s : State) : ∃ pool records,
    purgePort p why s = bumpBy (.queue p why.counter) (s.queues.get p).length (idleTx p { s with
      pool := pool, records := records, slots := s.slots.set p none, queues := s.queues.set p [] }) := by
  obtain ⟨pool₁, records₁, h₁⟩ := released_releaseInFlight p s
  have aborted : abortTx p s = idleTx p { s with pool := pool₁, records := records₁ } := by
    rw [← h₁]
    rfl
  obtain ⟨_, ⟨pool₂, records₂, rfl⟩, h₂⟩ := emptySlot_eq p (abortTx p s)
  have hq : (emptySlot p (abortTx p s)).queues = s.queues := by
    rw [h₂, aborted]
    cases p <;> rfl
  obtain ⟨pool₃, records₃, h₃⟩ := released_releaseEntries (s.queues.get p)
    { emptySlot p (abortTx p s) with queues := s.queues.set p [] }
  refine ⟨pool₃, records₃, ?_⟩
  unfold purgePort
  dsimp only
  rw [hq, h₃, h₂, aborted]
  cases p <;> rfl

theorem purgePort_leaves (p : Port) (why : PurgeReason) (s : State) :
    (purgePort p why s).queues = s.queues.set p [] ∧ (purgePort p why s).slots = s.slots.set p none := by
  obtain ⟨pool, records, h⟩ := purgePort_eq p why s
  rw [h]
  cases p <;> exact ⟨bumpBy_queues .., bumpBy_slots ..⟩

/-- A purge counts the entries that leave (R46, R50). -/
theorem purgePort_count (p : Port) (why : PurgeReason) {s : State} (h : s.queues.get p ≠ []) :
    (purgePort p why s).count (.queue p why.counter) =
      min Config.counterMax (s.count (.queue p why.counter) + (s.queues.get p).length) := by
  obtain ⟨pool, records, hp⟩ := purgePort_eq p why s
  rw [hp, count_bumpBy _ _ _ (by simpa using h), if_pos rfl]
  cases p <;> rfl

/-- Nothing is in flight on a segment after its purge (R13). -/
theorem purgePort_seg (x : Seg) (why : PurgeReason) (s : State) :
    (purgePort (.seg x) why s).segs = s.segs.set x (s.segs.get x).txIdle := by
  obtain ⟨pool, records, h⟩ := purgePort_eq (.seg x) why s
  rw [h]
  exact bumpBy_segs ..

/-- On a link only a gap runs on after its purge (R26). -/
theorem purgePort_link (l : Link) (why : PurgeReason) (s : State) :
    (purgePort (.link l) why s).links =
      s.links.set l (if (s.links.get l).tx = .gap then s.links.get l else (s.links.get l).txIdle) := by
  obtain ⟨pool, records, h⟩ := purgePort_eq (.link l) why s
  rw [h]
  exact bumpBy_links ..

/-! ### The spool's take of a block (R36, R39, R40) -/

/-- A take that the spool's two tests pass moves one block to the spool. -/
theorem spoolTake_taken {s : State} (hr : s.config.reserve + 1 ≤ s.pool.free)
    (hl : s.pool.spoolHeld + 1 ≤ s.config.spoolLimit) : spoolTake s = (true, { s with
      pool := ⟨s.pool.free - 1, s.pool.frameHeld, s.pool.spoolHeld + 1⟩ }) := by
  rw [spoolTake, if_neg (by omega), if_neg (by omega)]

/-- The take of one block falls through the pool-low threshold exactly at it (R39). -/
theorem fellLow_take {s t : State} (hc : t.config = s.config) (hf : t.pool.free = s.pool.free - 1)
    (hr : 0 < s.pool.free) : fellLow s.pool.free t = decide (s.pool.free = s.config.poolLow) := by
  rw [fellLow, hc, hf, Bool.eq_iff_iff]
  simp
  omega

/-- What a block taken by the spool raises, by the two crossings. -/
theorem spoolTook_taken {s t : State} (hc : t.config = s.config) (hf : t.pool.free = s.pool.free - 1)
    (hr : 1 ≤ s.pool.free) : spoolTook s.pool t =
      let u := if s.pool.free = s.config.poolLow then raise .poolLow t else t
      if s.pool.spoolHeld + 1 = s.config.spoolLimit - s.config.nearFullMargin then raise .spoolNearFull u
      else u := by
  have hlow := fellLow_take hc hf hr
  have hnear : (decide (s.pool.spoolHeld < t.nearFullAt) && decide (t.nearFullAt ≤ s.pool.spoolHeld + 1)) =
      decide (s.pool.spoolHeld + 1 = s.config.spoolLimit - s.config.nearFullMargin) := by
    rw [State.nearFullAt, hc, Bool.eq_iff_iff]
    simp
    omega
  simp only [spoolTook, hlow, hnear, decide_eq_true_eq]

/-- Settles O20: the release of a reference, the purge by port, and the spool's take. -/
theorem blocksAreTakenAndGivenBack : Obligations.BlocksAreTakenAndGivenBack := by
  refine ⟨⟨fun rid r s h => ⟨fun hr => ?_, fun hr => ?_⟩, fun p why s => ?_⟩,
    fun s => ⟨fun hr => if_pos hr, fun hr hl => ?_, fun hr hl => ?_⟩⟩
  · rw [releaseRef_of_find h, if_pos hr]
  · rw [releaseRef_of_find h, if_neg (by omega)]
  · obtain ⟨hqueues, hslots⟩ := purgePort_leaves p why s
    refine ⟨by simp [hqueues], by simp [hslots], fun q hq => by simp [hqueues, hq.symm],
      purgePort_count p why, ?_, ?_⟩
    · rintro x rfl
      simp [purgePort_seg, SegPort.txIdle]
    · rintro l rfl hgap
      simp [purgePort_link, hgap, LinkPort.txIdle]
  · rw [spoolTake, if_neg (by omega), if_pos hl]
  · intro t
    rw [spoolTook_taken (s := s) (t := t) rfl rfl (by omega)]
    refine ⟨spoolTake_taken hr hl, fun hlow => ?_, fun hnear => ?_, fun hlow hnear => ?_⟩
    · rw [if_pos hlow]
      dsimp only
      split
      · exact raised_raise_of_raised _ (raised_raise _ _)
      · exact raised_raise _ _
    · dsimp only
      rw [if_pos hnear]
      exact raised_raise _ _
    · dsimp only
      rw [if_neg hlow, if_neg hnear]

end Sys2Proof.Machine

/-! The trunk segments: receptions begin, take bytes and end. -/

namespace Sys2Proof.Machine

/-! ### Segments, records and blocks -/

theorem whenActive_of_active {s : State} (f : State → State) (h : s.active = true) :
    whenActive f s = f s :=
  if_pos h

theorem modSeg_modSeg (x : Seg) (f g : SegPort → SegPort) (s : State) :
    modSeg x f (modSeg x g s) = modSeg x (fun t => f (g t)) s := by
  simp [modSeg]

theorem modSeg_id (x : Seg) {f : SegPort → SegPort} {s : State} (h : f (s.segs.get x) = s.segs.get x) :
    modSeg x f s = s := by
  rw [modSeg, h, s.segs.set_get x]

theorem payload_of_find {rid : Nat} {f : FrameRecord} {s : State} (h : s.records.find rid = some f) :
    s.payload rid = f.payload := by
  rw [State.payload, h]

/-- A byte for which a record has room is added to it (R2). -/
theorem storeByte_room {rid : Nat} {f : FrameRecord} {s : State} (b : Byte)
    (h : s.records.find rid = some f) (hr : f.payload.length < 128 * f.blocks) :
    storeByte rid b s = (true, { s with
      records := s.records.put id rid { f with payload := f.payload ++ [b] } }) := by
  rw [storeByte, h]
  exact if_pos hr

/-- A full record is refused a byte where no block is free (R34). -/
theorem storeByte_refused {rid : Nat} {f : FrameRecord} {s : State} (b : Byte)
    (h : s.records.find rid = some f) (hr : 128 * f.blocks ≤ f.payload.length) (hf : s.pool.free = 0) :
    storeByte rid b s = (false, s) := by
  rw [storeByte, h]
  exact (if_neg (Nat.not_lt.2 hr)).trans (if_pos hf)

/-- With a block free a full record takes one more for a byte; POOL-LOW is raised where the free count
falls through the threshold (R34, R39). -/
theorem storeByte_grown {rid : Nat} {f : FrameRecord} {s : State} (b : Byte)
    (h : s.records.find rid = some f) (hr : 128 * f.blocks ≤ f.payload.length) (hf : 0 < s.pool.free) :
    let v := { s with
      pool := ⟨s.pool.free - 1, s.pool.frameHeld + 1, s.pool.spoolHeld⟩
      records := s.records.put id rid { f with blocks := f.blocks + 1, payload := f.payload ++ [b] } }
    storeByte rid b s = (true, if s.pool.free = s.config.poolLow then raise .poolLow v else v) := by
  intro v
  rw [storeByte, h]
  refine (if_neg (Nat.not_lt.2 hr)).trans ((if_neg (by omega)).trans ?_)
  show (true, if fellLow s.pool.free v then raise .poolLow v else v) = _
  rw [fellLow_take (s := s) (t := v) rfl rfl hf]
  simp only [decide_eq_true_eq]

/-! ### Receptions begin and take bytes (R1, R2) -/

theorem beginSegReception_some (x : Seg) (looped : Bool) {s : State} (h : 0 < s.pool.free) :
    beginSegReception x looped s =
      setSegRx x (.receiving ⟨[], 0, [], s.nextRecord, looped⟩) (recordTaken s) := by
  rw [beginSegReception, startRecord_some h]

theorem beginSegReception_none (x : Seg) (looped : Bool) {s : State} (h : s.pool.free = 0) :
    beginSegReception x looped s =
      setSegRx x (.discarding looped) (bump (.seg x .noBuffer) s) := by
  rw [beginSegReception, startRecord_none h]

/-- A rise of carrier that is taken begins a reception from the coax. -/
theorem exec_carrierRise {x : Seg} {s : State} (ha : s.active = true)
    (hc : (s.segs.get x).carrier = false) (hrx : (s.segs.get x).rx = .idle)
    (htx : (s.segs.get x).tx ≠ .sending ∨ (s.segs.get x).loop = .external)
    (hloop : (s.segs.get x).loop ≠ .internal) (hoff : s.serviceOf (.seg x) ≠ .off) :
    exec (.carrierRise x) s = .next (beginSegReception x false
      (modSeg x (fun t => { t with carrier := true, carrierTime := 0 }) s)) := by
  have takes : (modSeg x (fun t => { t with carrier := true, carrierTime := 0 }) s).takesRise x = true := by
    have hoff' : (s.service.get (.seg x)).state ≠ .off := hoff
    simpa [State.takesRise, State.serviceOf, hrx, hloop, hoff'] using htx
  refine congrArg Host.Outcome.next ?_
  rw [if_neg (by simp [hc]), whenActive_of_active _ (by exact ha), carrierRise, modSeg_modSeg, if_pos takes]

/-- What a reception from the coax makes of a byte is what the receiver makes of it. -/
theorem exec_coaxByte {x : Seg} {s : State} {r : SegReception} (b : Byte) (ha : s.active = true)
    (hl : r.looped = false) (hrx : (s.segs.get x).rx = .receiving r) :
    exec (.coaxByte x b) s = .next (takeSegByte x b s) := by
  refine congrArg Host.Outcome.next ?_
  rw [whenActive_of_active _ ha, if_neg (by simp [hrx, SegRx.looping, hl])]

/-- A byte taken while RECEIVING, by its place (R2). -/
theorem takeSegByte_receiving {x : Seg} {s : State} {r : SegReception} (b : Byte)
    (hrx : (s.segs.get x).rx = .receiving r) :
    takeSegByte x b s =
      let counted := { r with count := r.count + 1 }
      if r.header.length < 6 then setSegRx x (.receiving { counted with header := r.header ++ [b] }) s
      else if 1010 < trunkLength r.header then setSegRx x (.receiving counted) s
      else if (s.payload r.record).length < trunkLength r.header then
        match storeByte r.record b s with
        | (true, s) => setSegRx x (.receiving counted) s
        | (false, s) => setSegRx x (.discarding r.looped) (bump (.seg x .noBuffer) (releaseRef r.record s))
      else if r.check.length < 2 then setSegRx x (.receiving { counted with check := r.check ++ [b] }) s
      else setSegRx x (.receiving counted) s := by
  rw [takeSegByte, hrx]
  rfl

/-- Settles O6: the rise, and the byte by its place. -/
theorem carrierRiseAndBytesAreTaken : Obligations.CarrierRiseAndBytesAreTaken := by
  refine ⟨fun x s ha hc hrx htx hloop hoff => ⟨fun hf => ?_, fun hf => ?_⟩,
    fun x b s r f ha hl hrx hfind => ?_⟩
  · rw [exec_carrierRise ha hc hrx htx hloop hoff]
    exact congrArg Host.Outcome.next (beginSegReception_some x false hf)
  · rw [exec_carrierRise ha hc hrx htx hloop hoff]
    exact congrArg Host.Outcome.next (beginSegReception_none x false hf)
  · have hp := payload_of_find hfind
    rw [exec_coaxByte b ha hl hrx, takeSegByte_receiving b hrx, hp]
    refine ⟨fun hh => ?_, fun hh => ⟨fun hn => ?_, fun hn hlt hroom => ?_, fun hn hlt hfull hfree => ?_,
      fun hn hlt hfull hfree => ?_, fun hn hge hcheck => ?_, fun hn hge hcheck => ?_⟩⟩ <;>
      refine congrArg Host.Outcome.next ?_ <;> dsimp only
    · rw [if_pos hh]
    · rw [if_neg (by omega), if_pos hn]
    · rw [if_neg (by omega), if_neg (by omega), if_pos hlt, storeByte_room b hfind hroom]
    · rw [if_neg (by omega), if_neg (by omega), if_pos hlt, storeByte_refused b hfind hfull hfree, hl]
    · rw [if_neg (by omega), if_neg (by omega), if_pos hlt, storeByte_grown b hfind hfull hfree]
    · rw [if_neg (by omega), if_neg (by omega), if_neg (by omega), if_pos hcheck]
    · rw [if_neg (by omega), if_neg (by omega), if_neg (by omega), if_neg (by omega)]

end Sys2Proof.Machine

/-! What the reports of a segment come to, and the fall of carrier. -/

namespace Sys2Proof.Machine

/-! ### What an attribution leaves as it stands (R150 to R154) -/

/-- The fields of the ports, the lines, the fault monitor's windows, the sweep engine and the requests: what
work on the directory, the jobs and the frame memory leaves alone. -/
def State.ports (s : State) :=
  (s.segs, s.links, s.ifaces, s.slots, s.handover, s.lines, s.segWin, s.linkWin, s.marks, s.service,
    s.sweep, s.requests, s.current, s.heldReply)

theorem ports_of_sameButFrames {s t : State} (h : sameButFrames s t) : t.ports = s.ports := by
  obtain ⟨_, _, _, _, _, _, _, hsegs, hlinks, hifaces, hslots, _, hhandover, _, _, _, hlines, _, hsegWin,
    hlinkWin, hmarks, hservice, hsweep, hrequests, hcurrent, _, hheld, _⟩ := sameButFrames_fields h
  simp only [State.ports, hsegs, hlinks, hifaces, hslots, hhandover, hlines, hsegWin, hlinkWin, hmarks,
    hservice, hsweep, hrequests, hcurrent, hheld]

theorem ports_of_released {s t : State} (h : Released s t) : t.ports = s.ports := by
  obtain ⟨pool, records, rfl⟩ := h
  rfl

theorem ports_bumpBy (c : Counter) (n : Nat) (s : State) : (bumpBy c n s).ports = s.ports :=
  ports_of_sameButFrames (bumpBy_same c n s)

theorem ports_bump (c : Counter) (s : State) : (bump c s).ports = s.ports := ports_bumpBy c 1 s

theorem ports_raise (f : Flag) (s : State) : (raise f s).ports = s.ports :=
  ports_of_sameButFrames (raise_same f s)

theorem ports_modStation (i : Nat) (f : Station → Station) (s : State) :
    (modStation i f s).ports = s.ports := by
  unfold modStation putEntry
  split
  · split <;> rfl
  · rfl

theorem ports_sendStatus (u : Key) (tag : Byte) (a : Answer) (s : State) :
    (sendStatus u tag a s).ports = s.ports := by
  unfold sendStatus
  split
  · exact ports_bump _ s
  · next p d _ =>
    have sent := ports_of_sameButFrames (sendOwn_same p d kindPrintStatus (statusPayload tag a) s)
    split <;> next e => rw [e] at sent; exact (ports_bump _ _).trans sent

theorem ports_endJob (slot : Nat) (e : JobEnd) (s : State) : (endJob slot e s).ports = s.ports := by
  unfold endJob
  split
  · rfl
  · next j _ =>
    dsimp only
    split <;> split <;> split <;> simp only [ports_sendStatus, ports_bump, ports_raise] <;> rfl

theorem ports_abortWhere (test : Job → Bool) (why : AbortReason) : ∀ (slots : List Nat) (s : State),
    (abortWhere test why slots s).ports = s.ports
  | [], _ => rfl
  | slot :: rest, s => by
    unfold abortWhere
    split
    · exact ports_abortWhere test why rest s
    · rw [ports_abortWhere test why rest]
      split
      · exact ports_endJob slot _ s
      · rfl

theorem ports_purgeSourceAt (i : Nat) (p : Port) (s : State) :
    (purgeSourceAt i p s).ports = s.ports :=
  (ports_bumpBy _ _ _).trans ((ports_of_released (released_releaseEntries _ _)).trans rfl)

theorem ports_purgeSource (i : Nat) (s : State) : (purgeSource i s).ports = s.ports := by
  simp only [purgeSource, Port.all, Seg.all, Link.all, List.map, List.cons_append, List.nil_append,
    List.foldl, ports_purgeSourceAt]

theorem ports_enterQuarantine (i : Nat) (cause : FaultCount) (minutes : Nat) (s : State) :
    (enterQuarantine i cause minutes s).ports = s.ports := by
  simp only [enterQuarantine, QuarantineNews.take, setQuarantined, abortArriving, ports_abortWhere,
    ports_bump, ports_raise, ports_purgeSource, ports_modStation]

theorem ports_judgeStanding (i : Nat) (s : State) : (judgeStanding i s).ports = s.ports := by
  have judged : ∀ tally t, (judgeSuspect i tally t).ports = t.ports := fun tally t => by
    unfold judgeSuspect
    split
    · exact ports_enterQuarantine ..
    · rfl
  unfold judgeStanding
  split
  · rfl
  · split
    · split
      · exact (judged _ _).trans ((ports_bump _ _).trans (ports_modStation ..))
      · rfl
    · exact judged _ _
    · exact ports_enterQuarantine ..
    · rfl

/-- An error laid to a station touches no port, no window and no sweep (R150). -/
theorem ports_laidTo (k : Key) (s : State) : (laidTo k s).ports = s.ports := by
  unfold laidTo
  split
  · exact ports_bump _ s
  · split
    · exact ports_bump _ s
    · split
      · exact (ports_judgeStanding _ _).trans ((ports_bump _ _).trans (ports_modStation ..))
      · exact ports_bump _ s

/-! ### The judging after a report (R148) -/

/-- Below half the threshold a judging asks for nothing and marks nothing. -/
theorem judgePort_quiet {p : Port} {s : State} (h : s.errorSum p < halfUp (s.errorThreshold p)) :
    judgePort p false s = ([], s) := by
  have hask : ¬ s.errorThreshold p ≤ s.errorSum p := by unfold halfUp at h; omega
  have hwarn : ¬ halfUp (s.errorThreshold p) ≤ s.errorSum p := by omega
  simp [judgePort, hask, hwarn]
  exact congrArg (fun m => { s with marks := m }) (s.marks.set_get p)

/-- Below the threshold a judging asks for nothing; it may mark and count a warning. -/
theorem judgePort_below {p : Port} {s : State} (h : s.errorSum p < s.errorThreshold p) :
    (judgePort p false s).1 = [] ∧ ∃ marks, (judgePort p false s).2 = { s with marks := marks } ∨
      (judgePort p false s).2 = bump (.faultPort p .errorsWarning) { s with marks := marks } := by
  have hask : ¬ s.errorThreshold p ≤ s.errorSum p := by omega
  simp only [judgePort, hask, decide_false, Bool.false_and, Bool.false_eq_true, if_false, List.append_nil,
    true_and]
  split
  · exact ⟨_, .inr rfl⟩
  · exact ⟨_, .inl rfl⟩

/-- The work of a segment's report beside its count and the judging: a key attributed, or the LINE request
of an UNTERMINATED (R146). -/
def SegReport.further (r : SegReport) (x : Seg) (s : State) : State :=
  match r with
  | .lengthBad k => laidTo k s
  | .bodyBad k => laidTo k s
  | .unterminated => requestIsolation (.seg x) .line s
  | _ => s

/-- A report that enters the window's counts: the count, the further work, the judging. -/
theorem segReport_running {x : Seg} {r : SegReport} {s : State} (hw : s.window.running = true)
    (hr : r ≠ .stuckHeld) : segReport x r s =
      let judged := judgePort (.seg x) false
        (r.further x { s with segWin := s.segWin.set x ((s.segWin.get x).take r) })
      makeRequests (.seg x) judged.1 judged.2 := by
  cases r
  case stuckHeld => exact absurd rfl hr
  all_goals simp only [segReport, hw, SegReport.further]; rfl

theorem segReport_stopped {x : Seg} {s : State} (r : SegReport) (hw : s.window.running = false) :
    segReport x r s = s :=
  if_pos hw

/-- A report adds at most one to the error sum. -/
theorem errorSum_take (x : Seg) (r : SegReport) (s : State) :
    ({ s with segWin := s.segWin.set x ((s.segWin.get x).take r) } : State).errorSum (.seg x) ≤
      s.errorSum (.seg x) + 1 := by
  have up : ∀ n, windowUp n ≤ n + 1 := fun n => Nat.min_le_right _ _
  have headerBad := up (s.segWin.get x).headerBad
  have bodyBad := up (s.segWin.get x).bodyBad
  have lengthBad := up (s.segWin.get x).lengthBad
  have runts := up (s.segWin.get x).runts
  have drops := up (s.segWin.get x).collisionDrops
  cases r <;> simp only [State.errorSum, PerSeg.get_set, if_true, SegWindow.take] <;> omega

/-- The further work of a report that makes no request leaves the ports and the configuration. -/
theorem further_leaves {x : Seg} {r : SegReport} (hu : r ≠ .unterminated) (s : State) :
    (r.further x s).ports = s.ports ∧ (r.further x s).config = s.config := by
  have laid : ∀ k, (laidTo k s).ports = s.ports ∧ (laidTo k s).config = s.config := fun k => by
    have still := still_laidTo (s := s) k
    simp only [State.still, Prod.mk.injEq] at still
    exact ⟨ports_laidTo k s, still.2.2.2.2.2.2.1⟩
  cases r with
  | lengthBad k => exact laid k
  | bodyBad k => exact laid k
  | unterminated => exact absurd rfl hu
  | _ => exact ⟨rfl, rfl⟩

/-- Where no threshold is near, a report enters the window's counts and does its further work, and nothing
more (R146, R148). -/
theorem segReport_quiet {x : Seg} {r : SegReport} {s : State} (hw : s.window.running = true)
    (hr : r ≠ .stuckHeld) (hu : r ≠ .unterminated)
    (hsum : s.errorSum (.seg x) + 1 < halfUp s.config.segThreshold) :
    segReport x r s = r.further x { s with segWin := s.segWin.set x ((s.segWin.get x).take r) } := by
  obtain ⟨hports, hconfig⟩ := further_leaves (x := x) hu
    { s with segWin := s.segWin.set x ((s.segWin.get x).take r) }
  have hwin : (r.further x { s with segWin := s.segWin.set x ((s.segWin.get x).take r) }).segWin =
      s.segWin.set x ((s.segWin.get x).take r) := by
    simp only [State.ports, Prod.mk.injEq] at hports
    exact hports.2.2.2.2.2.2.1
  have hbound := errorSum_take x r s
  rw [segReport_running hw hr, judgePort_quiet]
  · rfl
  · simp only [State.errorSum, hwin, State.errorThreshold, hconfig] at *
    omega

/-! ### The fall of carrier (R3 to R5, R11) -/

/-- The command's end where the work has left the sweep engine as it was, with the rest of the ports. -/
theorem settled_of_ports {t u : State} (h : t.resultWaits = false) (e : u.ports = t.ports) :
    settleSweep u = u :=
  settleSweep_of_sweep h (by simp only [State.ports, Prod.mk.injEq] at e; exact e.2.2.2.2.2.2.2.2.2.2.1)

/-- A good reception is counted and handed over (R4). -/
theorem endSegReception_good {x : Seg} {s : State} {r : SegReception}
    (hrx : (s.segs.get x).rx = .receiving r) (hg : classifySeg r (s.payload r.record) = .good) :
    endSegReception x s = handOver (.seg x) (readTrunkHeader r.header) r.record
      (bump (.seg x .good) (setSegRx x .idle s)) := by
  rw [endSegReception, hrx]
  dsimp only
  rw [hg]
  rfl

/-- A bad one is thrown away and counted, and reported unless the port is OFF (R5). -/
theorem endSegReception_bad {x : Seg} {s : State} {r : SegReception} {c : SegCount} {report : SegReport}
    (hrx : (s.segs.get x).rx = .receiving r)
    (hb : segOutcomeReport (readTrunkHeader r.header) (classifySeg r (s.payload r.record)) =
      some (c, report)) :
    let t := bump (.seg x c) (releaseRef r.record (setSegRx x .idle s))
    endSegReception x s = if r.looped || t.serviceOf (.seg x) ≠ .off then segReport x report t else t := by
  intro t
  rw [endSegReception, hrx]
  dsimp only
  rw [hb]
  rfl

/-- A segment port whose carrier has fallen, with STUCK cleared. -/
def SegPort.carrierLow (t : SegPort) : SegPort :=
  { t with carrier := false, carrierTime := 0, stuck := false, heldTimer := none, heldSent := false }

/-- A segment port after a fall of carrier that ended a reception. -/
def SegPort.fallen (t : SegPort) : SegPort :=
  { t with
    carrier := false, carrierTime := 0, stuck := false, heldTimer := none, heldSent := false, rx := .idle }

theorem setSegRx_carrierLow (x : Seg) (s : State) :
    setSegRx x .idle (modSeg x SegPort.carrierLow s) = modSeg x SegPort.fallen s :=
  modSeg_modSeg x _ _ s

section
variable {x : Seg} {s : State} {r : SegReception} (ha : s.active = true)
  (hwait : s.resultWaits = false) (hc : (s.segs.get x).carrier = true)
  (hrx : (s.segs.get x).rx = .receiving r) (hl : r.looped = false)
include ha hwait hc hrx hl

omit hwait in
theorem exec_carrierFall : exec (.carrierFall x) s =
    .next (settleSweep (endSegReception x (modSeg x SegPort.carrierLow s))) := by
  refine congrArg Host.Outcome.next ?_
  rw [if_pos hc, whenActive_of_active _ (by exact ha), carrierFall, modSeg_modSeg,
    if_neg (by simp [hrx, SegRx.looping, hl])]
  rfl

/-- A fall of carrier at the end of a good reception. -/
theorem exec_carrierFall_good (hg : classifySeg r (s.payload r.record) = .good) :
    exec (.carrierFall x) s = .next (handOver (.seg x) (readTrunkHeader r.header) r.record
      (bump (.seg x .good) (modSeg x SegPort.fallen s))) := by
  rw [exec_carrierFall ha hc hrx hl,
    endSegReception_good (s := modSeg x SegPort.carrierLow s) (r := r) (by simp [hrx, SegPort.carrierLow]) hg,
    setSegRx_carrierLow]
  exact congrArg Host.Outcome.next (settleSweep_of_sweep hwait (by simp))

omit hwait in
/-- A fall of carrier at the end of a bad one. -/
theorem exec_carrierFall_bad {c : SegCount} {report : SegReport}
    (hb : segOutcomeReport (readTrunkHeader r.header) (classifySeg r (s.payload r.record)) =
      some (c, report)) :
    let t := bump (.seg x c) (releaseRef r.record (modSeg x SegPort.fallen s))
    exec (.carrierFall x) s =
      .next (settleSweep (if s.serviceOf (.seg x) ≠ .off then segReport x report t else t)) := by
  intro t
  have hservice : t.serviceOf (.seg x) = s.serviceOf (.seg x) := by simp [t, State.serviceOf]
  rw [exec_carrierFall ha hc hrx hl,
    endSegReception_bad (s := modSeg x SegPort.carrierLow s) (r := r) (by simp [hrx, SegPort.carrierLow]) hb,
    setSegRx_carrierLow, hl, ← hservice]
  simp [t]

/-- One that is not reported: before the window clock runs, or in OFF. -/
theorem exec_carrierFall_unreported {c : SegCount} {report : SegReport}
    (hb : segOutcomeReport (readTrunkHeader r.header) (classifySeg r (s.payload r.record)) =
      some (c, report))
    (hno : s.window.running = false ∨ s.serviceOf (.seg x) = .off) :
    exec (.carrierFall x) s =
      .next (bump (.seg x c) (releaseRef r.record (modSeg x SegPort.fallen s))) := by
  have settled : settleSweep (bump (.seg x c) (releaseRef r.record (modSeg x SegPort.fallen s))) = _ :=
    settleSweep_of_sweep hwait (by simp)
  rw [exec_carrierFall_bad ha hc hrx hl hb]
  refine congrArg Host.Outcome.next ?_
  split
  · next hon => rw [segReport_stopped report (by simpa using hno.resolve_right hon), settled]
  · exact settled

/-- One that is reported with no threshold near: it enters the window's counts, and its key is charged. -/
theorem exec_carrierFall_reported {c : SegCount} {report : SegReport}
    (hb : segOutcomeReport (readTrunkHeader r.header) (classifySeg r (s.payload r.record)) =
      some (c, report))
    (hw : s.window.running = true) (hon : s.serviceOf (.seg x) ≠ .off)
    (hsum : s.errorSum (.seg x) + 1 < halfUp s.config.segThreshold)
    (hr : report ≠ .stuckHeld) (hu : report ≠ .unterminated) :
    exec (.carrierFall x) s = .next (report.further x
      { bump (.seg x c) (releaseRef r.record (modSeg x SegPort.fallen s)) with
        segWin := s.segWin.set x ((s.segWin.get x).take report) }) := by
  have hwin : (bump (.seg x c) (releaseRef r.record (modSeg x SegPort.fallen s))).segWin = s.segWin := by
    simp
  rw [exec_carrierFall_bad ha hc hrx hl hb, if_pos hon,
    segReport_quiet (by simpa using hw) hr hu (by simpa [State.errorSum] using hsum), hwin]
  refine congrArg Host.Outcome.next (settled_of_ports ?_ (further_leaves hu _).1)
  simpa [State.resultWaits] using hwait

end

/-- Settles O7, outcome by outcome. -/
theorem carrierFallEndsTheReception : Obligations.CarrierFallEndsTheReception := by
  intro x s r ha hwait hc hrx hl h outcome u
  refine ⟨exec_carrierFall_good ha hwait hc hrx hl, fun c hpair hno => ?_, fun hw hon hsum =>
    ⟨fun ho => ?_, fun ho => ?_, fun ho => ?_, fun ho => ?_⟩⟩
  · have hb : ∃ report, segOutcomeReport h outcome = some (c, report) := by
      rcases hpair with ⟨ho, rfl⟩ | ⟨ho, rfl⟩ | ⟨ho, rfl⟩ | ⟨ho, rfl⟩ <;> rw [ho] <;> exact ⟨_, rfl⟩
    obtain ⟨report, hb⟩ := hb
    exact exec_carrierFall_unreported ha hwait hc hrx hl hb hno
  all_goals
    have hb := congrArg (segOutcomeReport h) ho
    exact exec_carrierFall_reported ha hwait hc hrx hl hb hw hon hsum (by simp) (by simp)

end Sys2Proof.Machine

/-! Frames the part makes count in their own counters; TEST frames are placed. -/

namespace Sys2Proof.Machine

/-! ### The counters of frames the part makes (R35, R43, R191) -/

/-- The counters in which a NOTICE, or the record of a frame the part makes, is counted. -/
def Counter.noticed : Counter → Bool
  | .pool .ownFrameLost | .queue _ _ => true
  | .mgmt .noticesSent | .mgmt .noticeLost | .mgmt .noticeNoRoute => true
  | _ => false

theorem count_of_counters {s t : State} (c : Counter) (h : t.counters = s.counters) :
    t.count c = s.count c := by
  rw [State.count, State.count, h]

theorem count_bumpBy_other {c d : Counter} (h : c ≠ d) (n : Nat) (s : State) :
    (bumpBy c n s).count d = s.count d := by
  by_cases hn : n = 0
  · simp [bumpBy, hn]
  · rw [count_bumpBy c d n hn, if_neg h]

theorem count_bump_other {c d : Counter} (h : c ≠ d) (s : State) : (bump c s).count d = s.count d :=
  count_bumpBy_other h 1 s

/-- Counting in a noticed counter leaves every other. -/
theorem count_bump_noticed {c d : Counter} (hc : c.noticed = false) (hd : d.noticed = true) (s : State) :
    (bump d s).count c = s.count c :=
  count_bump_other (fun e => by simp [← e, hd] at hc) s

theorem count_releaseRef (c : Counter) (r : Nat) (s : State) : (releaseRef r s).count c = s.count c :=
  count_of_counters c (by simp)

theorem count_addRef (c : Counter) (r : Nat) (s : State) : (addRef r s).count c = s.count c :=
  count_of_counters c (by simp)

section
variable {c : Counter} (hc : c.noticed = false)
include hc

theorem count_offer (p : Port) (e : QueueEntry) (s : State) : (offer p e s).2.count c = s.count c := by
  unfold offer
  split
  · exact count_bump_noticed hc rfl s
  · exact (count_bump_noticed hc rfl _).trans (count_addRef c _ _)

theorem count_ownRecordWith {low : State → State} (hl : ∀ s, (low s).count c = s.count c) (bs : List Byte)
    (s : State) : (ownRecordWith low bs s).2.count c = s.count c := by
  unfold ownRecordWith
  dsimp only
  split
  · exact count_bump_noticed hc rfl s
  · dsimp only
    split
    · exact hl _
    · rfl

theorem count_sendOwnWith {low : State → State} (hl : ∀ s, (low s).count c = s.count c) (p : Port)
    (d : Key) (k : Byte) (bs : List Byte) (s : State) :
    (sendOwnWith low p d k bs s).2.count c = s.count c := by
  have made := count_ownRecordWith hc hl bs s
  unfold sendOwnWith
  split
  · next e => rwa [e] at made
  · next r w e =>
    rw [e] at made
    have offered := count_offer hc p (ownEntry p d k bs.length r) w
    split <;> next e' => rw [e'] at offered; exact (count_releaseRef c r _).trans (offered.trans made)

theorem count_makeNoticeWith {low : State → State} (hl : ∀ s, (low s).count c = s.count c) (s : State) :
    (makeNoticeWith low s).count c = s.count c := by
  unfold makeNoticeWith
  split
  · rfl
  · split
    · exact count_bump_noticed hc rfl s
    · next p d _ =>
      have sent := count_sendOwnWith hc hl p d kindNotice (noticePayload p.side s) s
      split <;> next e => rw [e] at sent; exact (count_bump_noticed hc rfl _).trans sent

theorem count_raiseWith {low : State → State} (hl : ∀ s, (low s).count c = s.count c) (f : Flag)
    (s : State) : (raiseWith low f s).count c = s.count c := by
  unfold raiseWith becomeCounting
  split
  · rfl
  · dsimp only
    split
    · split
      · rfl
      · exact count_makeNoticeWith hc hl _
    · rfl

/-- A raise counts in noticed counters only. -/
theorem count_raise (f : Flag) (s : State) : (raise f s).count c = s.count c :=
  count_raiseWith hc (count_raiseWith hc (low := setFlag .poolLow) (fun _ => rfl) .poolLow) f s

theorem count_ownRecord (bs : List Byte) (s : State) : (ownRecord bs s).2.count c = s.count c :=
  count_ownRecordWith hc (count_raise hc .poolLow) bs s

theorem count_sendOwn (p : Port) (d : Key) (k : Byte) (bs : List Byte) (s : State) :
    (sendOwn p d k bs s).2.count c = s.count c :=
  count_sendOwnWith hc (count_raise hc .poolLow) p d k bs s

end

/-! ### What placing a TEST frame touches (R45, R162) -/

theorem modTest_id (p : Port) (s : State) : modTest p id s = s := by
  show ({ s with service := s.service.set p { s.service.get p with
    test := (s.service.get p).test.map id } } : State) = s
  rw [Option.map_id_fun]
  exact congrArg (fun v => { s with service := v }) (s.service.set_get p)

/-- Placing a TEST frame touches, beside frames, flags, notices and counters, the port's slot, and the wait
and the timer of its test. -/
theorem placeTest_eq (p : Port) (s : State) : ∃ u slots f, sameButFrames s u ∧
    (∀ t : PortTest, (f t).purpose = t.purpose ∧ (f t).phase = t.phase) ∧
    placeTest p s = modTest p f { u with slots := slots } := by
  unfold placeTest
  split
  · exact ⟨s, s.slots, id, sameButFrames_refl s, fun _ => ⟨rfl, rfl⟩, (modTest_id p s).symm⟩
  · next t _ =>
    split
    · exact ⟨s, s.slots, id, sameButFrames_refl s, fun _ => ⟨rfl, rfl⟩, (modTest_id p s).symm⟩
    · split
      · exact ⟨s, s.slots, fun t => { t with wait := .slot }, sameButFrames_refl s,
          fun _ => ⟨rfl, rfl⟩, rfl⟩
      · have made := ownRecord_same (s.testFrame p t) s
        split
        · next w e =>
          rw [e] at made
          exact ⟨bump (.service p .testFrameLost) w, w.slots, fun t => { t with wait := .record },
            sameButFrames_trans made (bump_same _ _), fun _ => ⟨rfl, rfl⟩, rfl⟩
        · next rid w e =>
          rw [e] at made
          exact ⟨w, w.slots.set p (some rid), fun t => { t with
            wait := .none, timer := some (t.timer.getD (frameTime t.phase)) }, made, fun _ => ⟨rfl, rfl⟩, rfl⟩

/-- Placing a TEST frame counts nothing but a loss of its record. -/
theorem count_placeTest {c : Counter} (hc : c.noticed = false) {p : Port}
    (hp : c ≠ .service p .testFrameLost) (s : State) : (placeTest p s).count c = s.count c := by
  unfold placeTest
  split
  · rfl
  · next t _ =>
    split
    · rfl
    · split
      · rfl
      · have made := count_ownRecord hc (s.testFrame p t) s
        split
        · next e =>
          rw [e] at made
          exact (count_bump_other hp.symm _).trans made
        · next e =>
          rw [e] at made
          exact made

end Sys2Proof.Machine

/-! The trunk segments: frames are taken, driven and sent. -/

namespace Sys2Proof.Machine

/-! ### A frame in flight -/

theorem flying_head {x : Seg} {s : State} {e : QueueEntry} {es : List QueueEntry}
    (hf : (s.segs.get x).inFlight = some .head) (hq : s.queues.get (.seg x) = e :: es) :
    s.flying (.seg x) = some (e.header, e.record) := by
  simp [State.flying, State.inFlight, hf, State.frameOf, hq]

theorem flying_test {x : Seg} {s : State} {rid : Nat} (hf : (s.segs.get x).inFlight = some .test)
    (hs : s.slots.get (.seg x) = some rid) : s.flying (.seg x) =
      some (⟨.node 254, .node 254, kindTest, (s.payload rid).length⟩, rid) := by
  simp [State.flying, State.inFlight, hf, State.frameOf, hs, Port.side, Side.bridgeKey]

theorem beginAttempt_of_flying {x : Seg} {s : State} {h : Header} {rid : Nat}
    (hf : s.flying (.seg x) = some (h, rid)) :
    beginAttempt x s = modSeg x (fun t => { t with
      tx := .sending, wire := trunkFrame h (s.payload rid), untermSeen := false }) s := by
  rw [beginAttempt, State.wireFrame, hf]

theorem deferQuiet_of_flying {x : Seg} {s : State} {h : Header} {rid : Nat}
    (htx : (s.segs.get x).tx = .deferring) (hc : (s.segs.get x).carrier = false)
    (hgo : (s.segs.get x).inFlight ≠ some .head ∨ s.serviceOf (.seg x) = .inService)
    (hf : s.flying (.seg x) = some (h, rid)) :
    deferQuiet x s = modSeg x (fun t => { t with
      tx := .sending, wire := trunkFrame h (s.payload rid), untermSeen := false }) s := by
  rw [deferQuiet, if_pos ⟨htx, hc, hgo⟩, beginAttempt_of_flying hf]

theorem modSeg_addRef (x : Seg) (f : SegPort → SegPort) (rid : Nat) (s : State) :
    modSeg x f (addRef rid s) = addRef rid (modSeg x f s) := by
  simp only [addRef, modSeg_records]
  split <;> rfl

theorem payload_addRef (rid k : Nat) (s : State) : (addRef rid s).payload k = s.payload k := by
  unfold addRef
  split
  · next r h =>
    simp only [State.payload, Table.find_put]
    by_cases hk : rid = k
    · rw [← hk, if_pos rfl, h]
    · rw [if_neg hk]
  · rfl

/-- A segment not in INTERNAL mode takes a frame and defers (R6). -/
theorem segmentTake_defers {x : Seg} {s : State} {f : InFlight} {h : Header} {rid : Nat}
    (ht : s.segTakes x = some f) (hl : (s.segs.get x).loop ≠ .internal)
    (hf : s.frameOf (.seg x) f = some (h, rid)) :
    segmentTake x s = addRef rid
      (modSeg x (fun t => { t with inFlight := some f, attempts := 0, tx := .deferring }) s) := by
  have flying : (modSeg x (fun t => { t with
      inFlight := some f, attempts := 0, tx := .deferring }) s).flying (.seg x) = some (h, rid) := by
    rw [← hf]
    cases f <;> simp [State.flying, State.inFlight, State.frameOf, State.payload]
  rw [segmentTake, ht]
  simp [flying, hl]

/-- In INTERNAL mode the attempt begins at once, and its own reception where the receiver is IDLE (R1,
R15). -/
theorem segmentTake_internal {x : Seg} {s : State} {f : InFlight} {h : Header} {rid : Nat}
    (ht : s.segTakes x = some f) (hl : (s.segs.get x).loop = .internal)
    (hf : s.frameOf (.seg x) f = some (h, rid)) :
    let taken := addRef rid (modSeg x (fun t => { t with
      inFlight := some f, attempts := 0, tx := .sending, wire := trunkFrame h (s.payload rid)
      untermSeen := false }) s)
    segmentTake x s = if (s.segs.get x).rx = .idle then beginSegReception x true taken else taken := by
  intro taken
  let deferring := addRef rid
    (modSeg x (fun t => { t with inFlight := some f, attempts := 0, tx := .deferring }) s)
  have flying₀ : (modSeg x (fun t => { t with
      inFlight := some f, attempts := 0, tx := .deferring }) s).flying (.seg x) = some (h, rid) := by
    rw [← hf]
    cases f <;> simp [State.flying, State.inFlight, State.frameOf, State.payload]
  have flying : deferring.flying (.seg x) = some (h, rid) := by
    rw [← hf]
    cases f with
    | head => simp [deferring, State.flying, State.inFlight, State.frameOf]
    | test =>
      simp [deferring, State.flying, State.inFlight, State.frameOf, payload_addRef]
      rfl
  have attempt : beginAttempt x deferring = taken := by
    rw [beginAttempt_of_flying flying, modSeg_addRef, modSeg_modSeg, payload_addRef]
    rfl
  have hl' : (deferring.segs.get x).loop = .internal := by simpa [deferring] using hl
  have hrx : (taken.segs.get x).rx = (s.segs.get x).rx := by simp [taken]
  rw [segmentTake, ht]
  simp only [flying₀]
  refine (if_pos hl').trans ?_
  rw [attempt, hrx]

theorem segTakes_head {x : Seg} {s : State} (htx : (s.segs.get x).tx = .idle)
    (hl : (s.segs.get x).loop = .normal) (hs : s.serviceOf (.seg x) = .inService)
    (hq : s.queues.get (.seg x) ≠ []) : s.segTakes x = some .head := by
  simp [State.segTakes, htx, hl, hs, hq]

theorem segTakes_test {x : Seg} {s : State} {rid : Nat} (htx : (s.segs.get x).tx = .idle)
    (hl : (s.segs.get x).loop ≠ .normal) (hs : s.slots.get (.seg x) = some rid) :
    s.segTakes x = some .test := by
  simp [State.segTakes, htx, hl, hs]

/-! ### A flight ends (R8, R44, R45) -/

theorem flightEnded_head {x : Seg} {s : State} {e : QueueEntry} {es : List QueueEntry}
    (hf : (s.segs.get x).inFlight = some .head) (hq : s.queues.get (.seg x) = e :: es) :
    flightEnded (.seg x) s = releaseRef e.record
      { modSeg x SegPort.txIdle (releaseRef e.record s) with queues := s.queues.set (.seg x) es } := by
  have hflight : s.inFlight (.seg x) = some .head := hf
  have hframe : s.frameOf (.seg x) .head = some (e.header, e.record) := by simp [State.frameOf, hq]
  simp [flightEnded, hflight, releaseInFlight, hframe, idleTx, headLeaves, hq]

/-- The state after a TEST frame has left its slot: its two references are released and its transmitter is
IDLE (R44, R45). -/
def testEnded (x : Seg) (rid : Nat) (s : State) : State :=
  let u := modSeg x SegPort.txIdle (releaseRef rid s)
  releaseRef rid { u with slots := u.slots.set (.seg x) none }

theorem emptySlot_ended {x : Seg} {s : State} {rid : Nat} (hf : (s.segs.get x).inFlight = some .test)
    (hs : s.slots.get (.seg x) = some rid) :
    emptySlot (.seg x) (idleTx (.seg x) (releaseInFlight (.seg x) s)) = testEnded x rid s := by
  have hflight : s.inFlight (.seg x) = some .test := hf
  simp [releaseInFlight, hflight, State.frameOf, hs, idleTx, emptySlot, testEnded]

theorem flightEnded_test {x : Seg} {s : State} {rid : Nat} (hf : (s.segs.get x).inFlight = some .test)
    (hs : s.slots.get (.seg x) = some rid) :
    flightEnded (.seg x) s = fillSlot (.seg x) (testEnded x rid s) := by
  have hflight : s.inFlight (.seg x) = some .test := hf
  rw [← emptySlot_ended hf hs, flightEnded, hflight]

/-- No frame waits for the slot. -/
theorem fillSlot_of_no_wait {p : Port} {s : State}
    (h : ∀ w, s.testOf p = some w → w.wait ≠ .slot) : fillSlot p s = s := by
  unfold fillSlot
  split
  · next w hw => exact if_neg fun hwait => h w hw hwait.1
  · rfl

/-- The frame that waits is placed. -/
theorem fillSlot_of_wait {p : Port} {s : State} {w : PortTest} (hw : s.testOf p = some w)
    (hwait : w.wait = .slot) (hs : s.slots.get p = none) : fillSlot p s = placeTest p s := by
  rw [fillSlot, hw]
  exact if_pos ⟨hwait, hs⟩

theorem segmentSent_plain {x : Seg} {s : State} (htx : (s.segs.get x).tx = .sending)
    (h : (s.segs.get x).loop ≠ .internal ∨ (s.segs.get x).rx.own = false) :
    segmentSent x s = flightEnded (.seg x) (bump (.seg x .sent) s) := by
  have hends : ¬ ((s.segs.get x).loop = .internal ∧ (s.segs.get x).rx.own = true) := by
    rintro ⟨hl, ho⟩
    rcases h with h | h
    · exact h hl
    · simp [h] at ho
  simp only [segmentSent, htx, if_true, hends, if_false]

theorem segmentSent_own {x : Seg} {s : State} (htx : (s.segs.get x).tx = .sending)
    (hl : (s.segs.get x).loop = .internal) (ho : (s.segs.get x).rx.own = true) :
    segmentSent x s = endSegReception x (flightEnded (.seg x)
      (bump (.seg x .sent) (takeSegBytes x (s.segs.get x).wire s))) := by
  simp only [segmentSent, htx, if_true, hl, ho, and_self]

/-! ### The looped-back reception of an INTERNAL-mode attempt (R1, R2, log entry 30) -/

theorem setSegRx_setSegRx (x : Seg) (r r' : SegRx) (s : State) :
    setSegRx x r (setSegRx x r' s) = setSegRx x r s :=
  modSeg_modSeg x _ _ s

theorem setSegRx_self {x : Seg} {r : SegRx} {s : State} (h : (s.segs.get x).rx = r) :
    setSegRx x r s = s :=
  modSeg_id x (by rw [← h])

theorem rx_setSegRx (x : Seg) (r : SegRx) (s : State) : ((setSegRx x r s).segs.get x).rx = r := by
  simp [setSegRx]

theorem takeSegBytes_append (x : Seg) : ∀ (bs cs : List Byte) (s : State),
    takeSegBytes x (bs ++ cs) s = takeSegBytes x cs (takeSegBytes x bs s)
  | [], _, _ => rfl
  | b :: bs, cs, s => takeSegBytes_append x bs cs (takeSegByte x b s)

/-- A receiver that is not RECEIVING takes no byte. -/
theorem takeSegBytes_discarding {x : Seg} {s : State} {looped : Bool}
    (h : (s.segs.get x).rx = .discarding looped) : ∀ bs, takeSegBytes x bs s = s
  | [] => rfl
  | b :: bs => by
    have hb : takeSegByte x b s = s := by rw [takeSegByte, h]
    rw [takeSegBytes, hb, takeSegBytes_discarding h bs]

/-- The header's bytes. -/
theorem takeSegBytes_header {x : Seg} : ∀ {bs : List Byte} {r : SegReception} {s : State},
    (s.segs.get x).rx = .receiving r → r.header.length + bs.length ≤ 6 →
    takeSegBytes x bs s = setSegRx x (.receiving { r with
      header := r.header ++ bs, count := r.count + bs.length }) s
  | [], r, s, hrx, _ => by simpa [takeSegBytes] using (setSegRx_self hrx).symm
  | b :: bs, r, s, hrx, hl => by
    simp only [List.length_cons] at hl
    have hb : takeSegByte x b s = setSegRx x (.receiving { r with
        header := r.header ++ [b], count := r.count + 1 }) s := by
      rw [takeSegByte_receiving b hrx]
      exact if_pos (by omega)
    rw [takeSegBytes, hb, takeSegBytes_header (rx_setSegRx ..) (by simp; omega), setSegRx_setSegRx]
    simp [Nat.add_assoc, Nat.add_comm 1]

/-- The check's bytes. -/
theorem takeSegBytes_check {x : Seg} : ∀ {bs : List Byte} {r : SegReception} {s : State},
    (s.segs.get x).rx = .receiving r → r.header.length = 6 → trunkLength r.header ≤ 1010 →
    (s.payload r.record).length = trunkLength r.header → r.check.length + bs.length ≤ 2 →
    takeSegBytes x bs s = setSegRx x (.receiving { r with
      check := r.check ++ bs, count := r.count + bs.length }) s
  | [], r, s, hrx, _, _, _, _ => by simpa [takeSegBytes] using (setSegRx_self hrx).symm
  | b :: bs, r, s, hrx, hh, hn, hp, hl => by
    simp only [List.length_cons] at hl
    have hb : takeSegByte x b s = setSegRx x (.receiving { r with
        check := r.check ++ [b], count := r.count + 1 }) s := by
      rw [takeSegByte_receiving b hrx]
      dsimp only
      rw [if_neg (by omega), if_neg (by omega), if_neg (by omega), if_pos (by omega)]
    have rest := takeSegBytes_check (bs := bs)
      (rx_setSegRx x (.receiving { r with check := r.check ++ [b], count := r.count + 1 }) s) hh hn hp
      (by simp; omega)
    rw [takeSegBytes, hb, rest, setSegRx_setSegRx]
    simp [Nat.add_assoc, Nat.add_comm 1]

/-- The payload's bytes, where they fit the blocks the record has. -/
theorem takeSegBytes_payload {x : Seg} : ∀ {bs : List Byte} {r : SegReception} {f : FrameRecord} {s : State},
    (s.segs.get x).rx = .receiving r → r.header.length = 6 → trunkLength r.header ≤ 1010 →
    s.records.find r.record = some f → f.payload.length + bs.length ≤ trunkLength r.header →
    f.payload.length + bs.length ≤ 128 * f.blocks →
    ∃ records, takeSegBytes x bs s = setSegRx x (.receiving { r with count := r.count + bs.length })
        { s with records := records } ∧
      records.find r.record = some { f with payload := f.payload ++ bs } ∧
      ∀ k, k ≠ r.record → records.find k = s.records.find k
  | [], r, f, s, hrx, _, _, hf, _, _ =>
    ⟨s.records, by simpa [takeSegBytes] using (setSegRx_self hrx).symm, by simpa using hf, fun _ _ => rfl⟩
  | b :: bs, r, f, s, hrx, hh, hn, hf, hl, hroom => by
    simp only [List.length_cons] at hl hroom
    let grown := s.records.put id r.record { f with payload := f.payload ++ [b] }
    have hb : takeSegByte x b s = setSegRx x (.receiving { r with count := r.count + 1 })
        { s with records := grown } := by
      rw [takeSegByte_receiving b hrx, storeByte_room b hf (by omega), payload_of_find hf]
      dsimp only
      rw [if_neg (by omega), if_neg (by omega), if_pos (by omega)]
    obtain ⟨records, ht, hfind, hother⟩ := takeSegBytes_payload (bs := bs)
      (f := { f with payload := f.payload ++ [b] })
      (rx_setSegRx x (.receiving { r with count := r.count + 1 }) { s with records := grown }) hh hn
      (by simp [setSegRx, grown, Table.find_put]) (by simp; omega) (by simp; omega)
    refine ⟨records, ?_, by simpa using hfind, fun k hk => ?_⟩
    · rw [takeSegBytes, hb, ht]
      show setSegRx x _ (setSegRx x _ { s with records := records }) = _
      rw [setSegRx_setSegRx]
      simp [Nat.add_assoc, Nat.add_comm 1]
    · rw [hother k hk]
      simp [setSegRx, grown, Table.find_put, hk.symm]

/-- A whole wire frame of at most one block, taken into a new record. -/
theorem takeSegBytes_trunkFrame {x : Seg} {s : State} {d n : Node} {kind : Byte} {payload : List Byte}
    {rid : Nat} {looped : Bool} (hrx : (s.segs.get x).rx = .receiving ⟨[], 0, [], rid, looped⟩)
    (hf : s.records.find rid = some ⟨1, [], 1⟩) (hp : payload.length ≤ 128) :
    let h : Header := ⟨.node d, .node n, kind, payload.length⟩
    ∃ records, takeSegBytes x (trunkFrame h payload) s = setSegRx x (.receiving ⟨trunkHeader h,
          6 + payload.length + 2, Side.trunk.word (crc16 (trunkHeader h ++ payload)).toNat, rid, looped⟩)
        { s with records := records } ∧
      records.find rid = some ⟨1, payload, 1⟩ ∧ ∀ k, k ≠ rid → records.find k = s.records.find k := by
  intro h
  have hh : (trunkHeader h).length = 6 := length_trunkHeader h
  have hn : trunkLength (trunkHeader h) = payload.length :=
    congrArg Header.length (readTrunkHeader_trunkHeader d n kind (k := payload.length) (by omega))
  have hn' : trunkLength (trunkHeader h) ≤ 1010 := by omega
  have header := takeSegBytes_header (bs := trunkHeader h) hrx (by simp [hh])
  obtain ⟨records, hbody, hfound, hother⟩ := takeSegBytes_payload (bs := payload) (f := ⟨1, [], 1⟩)
    (rx_setSegRx x (.receiving ⟨trunkHeader h, 6, [], rid, looped⟩) s) hh hn' hf
    (by simp [hn]) (by simpa using hp)
  have hfind : records.find rid = some ⟨1, payload, 1⟩ := hfound
  have hpayload : State.payload { s with records := records } rid = payload :=
    payload_of_find (f := ⟨1, payload, 1⟩) hfind
  have check := takeSegBytes_check (bs := Side.trunk.word (crc16 (trunkHeader h ++ payload)).toNat)
    (rx_setSegRx x (.receiving ⟨trunkHeader h, 6 + payload.length, [], rid, looped⟩)
      { s with records := records }) hh hn' ((congrArg List.length hpayload).trans hn.symm) (by simp [Side.word])
  refine ⟨records, ?_, hfind, hother⟩
  rw [trunkFrame, takeSegBytes_append, takeSegBytes_append, header]
  simp only [List.nil_append, hh, Nat.zero_add]
  rw [hbody]
  show takeSegBytes x _ (setSegRx x _ (setSegRx x _ { s with records := records })) = _
  rw [setSegRx_setSegRx, check, setSegRx_setSegRx]
  rfl

/-! ### A segment sends (R6 to R8, R15) -/

theorem releaseRef_records_congr (rid : Nat) {s t : State} (h : s.records = t.records) :
    (releaseRef rid s).records = (releaseRef rid t).records := by
  unfold releaseRef
  rw [h]
  split
  · split <;> simp
  · exact h

theorem find_releaseRef_other {rid k : Nat} (hk : k ≠ rid) (s : State) :
    (releaseRef rid s).records.find k = s.records.find k := by
  unfold releaseRef
  split
  · split
    · simp [Table.find_drop, hk.symm]
    · simp [Table.find_put, hk.symm]
  · rfl

/-- A release returns blocks to the pool, and takes none. -/
theorem free_releaseRef (rid : Nat) (s : State) : s.pool.free ≤ (releaseRef rid s).pool.free := by
  unfold releaseRef
  split
  · split
    · exact Nat.le_add_right _ _
    · exact Nat.le_refl _
  · exact Nat.le_refl _

theorem freshTest_congr {p : Port} {v : PortTest} {s u t : State} (hn : u.nextRecord = s.nextRecord)
    (hs : u.service = s.service) (h : freshTest p v u t) : freshTest p v s t := by
  simpa only [freshTest, State.testFrame, hn, hs] using h

/-- What a fresh TEST frame leaves as it stands. -/
theorem placeTest_leaves (p : Port) (s : State) : (placeTest p s).segs = s.segs ∧
    (placeTest p s).sweep = s.sweep ∧ (placeTest p s).segWin = s.segWin ∧
    (placeTest p s).links = s.links := by
  obtain ⟨u, slots, f, hsame, -, h⟩ := placeTest_eq p s
  obtain ⟨_, _, _, _, _, _, _, hsegs, hlinks, _, _, _, _, _, _, _, _, _, hsegWin, _, _, _, hsweep, _⟩ :=
    sameButFrames_fields hsame
  rw [h]
  exact ⟨hsegs, hsweep, hsegWin, hlinks⟩

section
variable {x : Seg} {s : State} (ha : s.active = true)
include ha

theorem exec_segmentTake : exec (.segmentTakeFrame x) s = .next (segmentTake x s) :=
  congrArg Host.Outcome.next (whenActive_of_active _ ha)

theorem exec_deferQuiet : exec (.deferQuiet x) s = .next (deferQuiet x s) :=
  congrArg Host.Outcome.next (whenActive_of_active _ ha)

theorem exec_segmentSent : exec (.segmentSent x) s = .next (settleSweep (segmentSent x s)) :=
  congrArg Host.Outcome.next (whenActive_of_active _ ha)

/-- A queue head that has been sent (R8, R44). -/
theorem exec_segmentSent_head {e : QueueEntry} {es : List QueueEntry} (hwait : s.resultWaits = false)
    (htx : (s.segs.get x).tx = .sending) (hl : (s.segs.get x).loop = .normal)
    (hf : (s.segs.get x).inFlight = some .head) (hq : s.queues.get (.seg x) = e :: es) :
    exec (.segmentSent x) s = .next (releaseRef e.record
      { modSeg x SegPort.txIdle (releaseRef e.record (bump (.seg x .sent) s)) with
        queues := s.queues.set (.seg x) es }) := by
  have sent : segmentSent x s = _ := segmentSent_plain htx (.inl (by simp [hl]))
  rw [exec_segmentSent ha, sent, flightEnded_head (e := e) (es := es) (by simpa using hf) (by simpa using hq)]
  refine congrArg Host.Outcome.next ((settleSweep_of_sweep hwait (by simp)).trans ?_)
  simp

end

section
variable {x : Seg} {rid : Nat} {s : State}

theorem testEnded_segs : (testEnded x rid s).segs = s.segs.set x (s.segs.get x).txIdle := by
  simp [testEnded]

theorem testEnded_leaves : (testEnded x rid s).service = s.service ∧
    (testEnded x rid s).sweep = s.sweep ∧ (testEnded x rid s).nextRecord = s.nextRecord ∧
    (testEnded x rid s).handover = s.handover ∧ (testEnded x rid s).segWin = s.segWin ∧
    (testEnded x rid s).slots.get (.seg x) = none := by
  simp [testEnded]

theorem count_testEnded (c : Counter) : (testEnded x rid s).count c = s.count c :=
  count_of_counters c (by simp [testEnded])

theorem free_testEnded : s.pool.free ≤ (testEnded x rid s).pool.free :=
  (free_releaseRef rid s).trans (free_releaseRef rid
    { modSeg x SegPort.txIdle (releaseRef rid s) with
      slots := (modSeg x SegPort.txIdle (releaseRef rid s)).slots.set (.seg x) none })

theorem find_testEnded {k : Nat} (hk : k ≠ rid) : (testEnded x rid s).records.find k = s.records.find k :=
  (find_releaseRef_other hk _).trans (find_releaseRef_other hk s)

end

section
variable {x : Seg} {rid : Nat} {s : State} (ha : s.active = true) (hwait : s.resultWaits = false)
  (hslot : s.slots.get (.seg x) = some rid) (htx : (s.segs.get x).tx = .sending)
  (hf : (s.segs.get x).inFlight = some .test)
include ha hwait hslot htx hf

omit hwait in
/-- A TEST frame that has been sent, with no reception of its own (R8, R45). -/
theorem exec_segmentSent_test (hown : (s.segs.get x).loop ≠ .internal ∨ (s.segs.get x).rx.own = false) :
    exec (.segmentSent x) s =
      .next (settleSweep (fillSlot (.seg x) (testEnded x rid (bump (.seg x .sent) s)))) := by
  rw [exec_segmentSent ha, segmentSent_plain htx hown,
    flightEnded_test (rid := rid) (by simpa using hf) (by simpa using hslot)]

/-- No fresh frame waits for the slot. -/
theorem exec_segmentSent_test_last
    (hown : (s.segs.get x).loop ≠ .internal ∨ (s.segs.get x).rx.own = false)
    (hlast : ∀ w, s.testOf (.seg x) = some w → w.wait ≠ .slot) :
    exec (.segmentSent x) s = .next (testEnded x rid (bump (.seg x .sent) s)) := by
  rw [exec_segmentSent_test ha hslot htx hf hown,
    fillSlot_of_no_wait (by simpa [State.testOf, testEnded] using hlast)]
  exact congrArg Host.Outcome.next (settleSweep_of_sweep hwait (by simp [testEnded]))

/-- In INTERNAL mode the DISCARDING that the attempt's own reception left ends with it (log entry 38). -/
theorem exec_segmentSent_discarding (hl : (s.segs.get x).loop = .internal)
    (hrx : (s.segs.get x).rx = .discarding true)
    (hlast : ∀ w, s.testOf (.seg x) = some w → w.wait ≠ .slot) :
    exec (.segmentSent x) s = .next (setSegRx x .idle (testEnded x rid (bump (.seg x .sent) s))) := by
  have hend : ((testEnded x rid (bump (.seg x .sent) s)).segs.get x).rx = .discarding true := by
    simp [testEnded_segs, SegPort.txIdle, hrx]
  rw [exec_segmentSent ha, segmentSent_own htx hl (by simp [hrx, SegRx.own]), takeSegBytes_discarding hrx,
    flightEnded_test (rid := rid) (by simpa using hf) (by simpa using hslot),
    fillSlot_of_no_wait (by simpa [State.testOf, testEnded] using hlast), endSegReception, hend]
  exact congrArg Host.Outcome.next (settleSweep_of_sweep hwait (by simp [testEnded, setSegRx]))

/-- The fresh frame that waited for the slot is placed (R45). -/
theorem exec_segmentSent_fresh {w : PortTest}
    (hown : (s.segs.get x).loop ≠ .internal ∨ (s.segs.get x).rx.own = false)
    (hw : s.testOf (.seg x) = some w) (hslotWait : w.wait = .slot) (hsends : w.phase.sends = true)
    (hfree : 0 < s.pool.free) :
    ∃ t, exec (.segmentSent x) s = .next t ∧ freshTest (.seg x) w s t ∧
      (t.segs.get x).tx = .idle ∧ (t.segs.get x).inFlight = none ∧ countedUp (.seg x .sent) 1 s t := by
  let ended := testEnded x rid (bump (.seg x .sent) s)
  obtain ⟨hservice, hsweep, hnext, -, -, hempty⟩ :
      ended.service = s.service ∧ ended.sweep = s.sweep ∧ ended.nextRecord = s.nextRecord ∧
        ended.handover = s.handover ∧ ended.segWin = s.segWin ∧ ended.slots.get (.seg x) = none := by
    simpa using testEnded_leaves (x := x) (rid := rid) (s := bump (.seg x .sent) s)
  have hw' : ended.testOf (.seg x) = some w := by rw [← hw, State.testOf, hservice, State.testOf]
  have hfree' : 0 < ended.pool.free := lt_of_lt_of_le (by simpa using hfree) free_testEnded
  obtain ⟨hsegs, hsweep', -⟩ := placeTest_leaves (.seg x) ended
  have hport : ((placeTest (.seg x) ended).segs.get x) = (s.segs.get x).txIdle := by
    rw [hsegs, testEnded_segs]
    simp
  refine ⟨placeTest (.seg x) ended, ?_,
    freshTest_congr hnext hservice (placeTest_fresh hw' hsends hempty hfree'), ?_, ?_, ?_⟩
  · rw [exec_segmentSent_test ha hslot htx hf hown, fillSlot_of_wait hw' hslotWait hempty]
    exact congrArg Host.Outcome.next (settleSweep_of_sweep hwait (hsweep'.trans hsweep))
  · rw [hport]; rfl
  · rw [hport]; rfl
  · rw [countedUp, count_placeTest rfl (by simp), count_testEnded, count_bump, if_pos rfl]

/-- In INTERNAL mode the attempt's own reception has taken every byte and hands the frame over good (R1, R3,
R4, log entry 30). -/
theorem exec_segmentSent_received {r : Nat} (hl : (s.segs.get x).loop = .internal)
    (hrx : (s.segs.get x).rx = .receiving ⟨[], 0, [], r, true⟩)
    (hwire : (s.segs.get x).wire =
      trunkFrame ⟨.node 254, .node 254, kindTest, (s.payload rid).length⟩ (s.payload rid))
    (hp : (s.payload rid).length ≤ 128) (hr : s.records.find r = some ⟨1, [], 1⟩) (hne : r ≠ rid)
    (hlast : ∀ w, s.testOf (.seg x) = some w → w.wait ≠ .slot) :
    ∃ t, exec (.segmentSent x) s = .next t ∧ (t.segs.get x).tx = .idle ∧
      (t.segs.get x).inFlight = none ∧ (t.segs.get x).rx = .idle ∧ t.slots.get (.seg x) = none ∧
      t.payload r = s.payload rid ∧
      t.handover.get (.seg x) = s.handover.get (.seg x) ++
        [⟨⟨.node 254, .node 254, kindTest, (s.payload rid).length⟩, r⟩] ∧
      countedUp (.seg x .sent) 1 s t ∧ countedUp (.seg x .good) 1 s t := by
  let h : Header := ⟨.node 254, .node 254, kindTest, (s.payload rid).length⟩
  let full : SegReception := ⟨trunkHeader h, 6 + (s.payload rid).length + 2,
    Side.trunk.word (crc16 (trunkHeader h ++ s.payload rid)).toNat, r, true⟩
  obtain ⟨records, htake, hfind, -⟩ := takeSegBytes_trunkFrame (d := 254) (n := 254) (kind := kindTest)
    hrx hr hp
  let received := setSegRx x (.receiving full) { s with records := records }
  let ended := testEnded x rid (bump (.seg x .sent) received)
  have htake' : takeSegBytes x (s.segs.get x).wire s = received := by rw [hwire]; exact htake
  have hread : readTrunkHeader full.header = h :=
    readTrunkHeader_trunkHeader 254 254 kindTest (by omega)
  have hn : trunkLength full.header = (s.payload rid).length := congrArg Header.length hread
  have hendrx : (ended.segs.get x).rx = .receiving full := by
    simp [ended, testEnded_segs, SegPort.txIdle, received, setSegRx]
  have hpayload : ended.payload r = s.payload rid := by
    refine payload_of_find (f := ⟨1, s.payload rid, 1⟩) ((find_testEnded hne).trans ?_)
    simpa [received, setSegRx] using hfind
  have hgood : classifySeg full (ended.payload full.record) = .good := by
    rw [hpayload]
    exact classifySeg_good _ (byteSum_headerCheck _) (by omega) (by rw [hn]) rfl
  refine ⟨handOver (.seg x) h r (bump (.seg x .good) (setSegRx x .idle ended)), ?_, ?_⟩
  · rw [exec_segmentSent ha, segmentSent_own htx hl (by simp [hrx, SegRx.own]), htake',
      flightEnded_test (rid := rid) (by simpa [received, setSegRx] using hf)
        (by simpa [received, setSegRx] using hslot),
      fillSlot_of_no_wait (by simpa [State.testOf, testEnded, received, setSegRx] using hlast),
      endSegReception_good hendrx hgood, hread]
    exact congrArg Host.Outcome.next
      (settleSweep_of_sweep hwait (by simp [ended, testEnded, received, setSegRx]))
  · have hsent : countedUp (.seg x .sent) 1 s ended := by
      rw [countedUp, count_testEnded, count_bump, if_pos rfl]
      rfl
    have hgoodCount : ended.count (.seg x .good) = s.count (.seg x .good) := by
      rw [count_testEnded, count_bump_other (by simp)]
      rfl
    have hafter : ∀ c, (handOver (.seg x) h r (bump (.seg x .good) (setSegRx x .idle ended))).count c =
        (bump (.seg x .good) (setSegRx x .idle ended)).count c := fun c => rfl
    refine ⟨?_, ?_, ?_, ?_, hpayload ▸ ?_, ?_, ?_, ?_⟩
    · simp [setSegRx, ended, testEnded_segs, SegPort.txIdle]
    · simp [setSegRx, ended, testEnded_segs, SegPort.txIdle]
    · simp [setSegRx]
    · simp [setSegRx, ended, testEnded]
    · simp [State.payload, setSegRx]
    · simp [setSegRx, ended, testEnded, received, h]
    · rw [countedUp, hafter, count_bump_other (by simp)]
      exact hsent
    · rw [countedUp, hafter, count_bump, if_pos rfl]
      show min _ (ended.count _ + 1) = _
      rw [hgoodCount]

end

/-- What the two modes of a test make of SEGMENT_TAKE_FRAME (R6, R15). -/
theorem exec_segmentTake_test {x : Seg} {s : State} {rid : Nat} (ha : s.active = true)
    (hslot : s.slots.get (.seg x) = some rid) (htx : (s.segs.get x).tx = .idle) :
    let h : Header := ⟨.node 254, .node 254, kindTest, (s.payload rid).length⟩
    ((s.segs.get x).loop = .external → exec (.segmentTakeFrame x) s = .next (addRef rid
      (modSeg x (fun t => { t with inFlight := some .test, attempts := 0, tx := .deferring }) s))) ∧
    ((s.segs.get x).loop = .internal →
      let taken := addRef rid (modSeg x (fun t => { t with
        inFlight := some .test, attempts := 0, tx := .sending, wire := trunkFrame h (s.payload rid)
        untermSeen := false }) s)
      exec (.segmentTakeFrame x) s =
        .next (if (s.segs.get x).rx = .idle then beginSegReception x true taken else taken)) := by
  intro h
  have hframe : s.frameOf (.seg x) .test = some (h, rid) := by
    simp [State.frameOf, hslot, h, Port.side, Side.bridgeKey]
  refine ⟨fun hl => ?_, fun hl => ?_⟩
  · rw [exec_segmentTake ha, segmentTake_defers (segTakes_test htx (by simp [hl]) hslot) (by simp [hl]) hframe]
  · rw [exec_segmentTake ha, segmentTake_internal (segTakes_test htx (by simp [hl]) hslot) hl hframe]

/-- Nothing is taken by a transmitter that is not IDLE, or that finds nothing to take (R6). -/
theorem segTakes_none {x : Seg} {s : State} (h : (s.segs.get x).tx ≠ .idle ∨
    (s.segs.get x).loop = .normal ∧
      (s.serviceOf (.seg x) ≠ .inService ∨ s.queues.get (.seg x) = []) ∨
    (s.segs.get x).loop ≠ .normal ∧ s.slots.get (.seg x) = none) : s.segTakes x = none := by
  unfold State.segTakes
  rcases h with h | ⟨hl, h⟩ | ⟨hl, h⟩
  · simp [h]
  · rcases h with h | h <;> simp [hl, h]
  · simp [hl, h]

theorem exec_segmentTake_none {x : Seg} {s : State} (h : s.segTakes x = none) :
    exec (.segmentTakeFrame x) s = .next s := by
  refine congrArg Host.Outcome.next ?_
  rw [whenActive]
  split
  · rw [segmentTake, h]
  · rfl

theorem exec_deferQuiet_none {x : Seg} {s : State}
    (h : ¬ ((s.segs.get x).tx = .deferring ∧ (s.segs.get x).carrier = false ∧
      ((s.segs.get x).inFlight ≠ some .head ∨ s.serviceOf (.seg x) = .inService))) :
    exec (.deferQuiet x) s = .next s := by
  refine congrArg Host.Outcome.next ?_
  rw [whenActive]
  split
  · exact if_neg h
  · rfl

/-- Settles O10: a queue head taken, driven and sent; where nothing is taken or driven; and a TEST frame in
the two loop modes. -/
theorem segmentSendsItsQueueHead : Obligations.SegmentSendsItsQueueHead := by
  refine ⟨fun x s e es ha hs hl hq => ⟨fun htx => ?_, fun htx hf hc => ?_⟩,
    fun x s => ⟨fun hc => ?_, fun hs hf => ?_, fun h => exec_segmentTake_none (segTakes_none h)⟩,
    fun x s e es ha hwait htx hl hf hq => ?_, fun x s rid ha hslot => ?_⟩
  · rw [exec_segmentTake ha, segmentTake_defers (h := e.header) (rid := e.record)
      (segTakes_head htx hl hs (by simp [hq])) (by simp [hl]) (by simp [State.frameOf, hq])]
  · rw [exec_deferQuiet ha, deferQuiet_of_flying htx hc (.inr hs) (flying_head hf hq)]
  · exact exec_deferQuiet_none fun h => by simp [hc] at h
  · exact exec_deferQuiet_none fun h => h.2.2.elim (fun hne => hne hf) hs
  · refine ⟨_, exec_segmentSent_head ha hwait htx hl hf hq, by simp, by simp [SegPort.txIdle],
      by simp [SegPort.txIdle], by simp [SegPort.txIdle], ?_, ?_, fun p hp => by simp [hp.symm]⟩
    · rw [countedUp, count_releaseRef, count_of_counters (s := bump (.seg x .sent) s) _ (by simp),
        count_bump, if_pos rfl]
    · exact releaseRef_records_congr _ (releaseRef_records_congr _ (by simp))
  · intro v h wire
    refine ⟨fun htx => ⟨(exec_segmentTake_test ha hslot htx).1, fun hl => ?_⟩, fun hf => ⟨fun htx hc => ?_,
      fun hwait htx => ⟨fun hlast => ⟨fun hown => ?_, fun hl hrx => ?_, fun r hl hrx hwire hp hr hne => ?_⟩,
        fun w hw hslotWait hsends hfree hown => ?_⟩⟩⟩
    · have htake := (exec_segmentTake_test ha hslot htx).2 hl
      intro taken
      have hfree : taken.pool.free = s.pool.free := by simp [taken]
      have hnext : taken.nextRecord = s.nextRecord := by simp [taken]
      refine ⟨fun hrx => ?_, fun hrx hno => ?_, fun hrx hsome => ?_⟩
      · rw [htake, if_neg hrx]
      · rw [htake, if_pos hrx, beginSegReception_none x true (hfree.trans hno)]
      · rw [htake, if_pos hrx, beginSegReception_some x true (hfree ▸ hsome), hnext]
    · rw [exec_deferQuiet ha, deferQuiet_of_flying htx hc (.inl (by simp [v, hf])) (flying_test hf hslot)]
    · exact exec_segmentSent_test_last ha hwait hslot htx hf hown hlast
    · exact exec_segmentSent_discarding ha hwait hslot htx hf hl hrx hlast
    · exact exec_segmentSent_received ha hwait hslot htx hf hl hrx hwire hp hr hne hlast
    · exact exec_segmentSent_fresh ha hwait hslot htx hf hown hw hslotWait hsends hfree

end Sys2Proof.Machine

/-! The trunk segments: collisions. -/

namespace Sys2Proof.Machine

/-- The end of a queue head's flight, whatever its queue holds: the transmitter is IDLE, the head leaves, and
references are released (R44). -/
theorem flightEnded_head_eq {x : Seg} {s : State} (hf : (s.segs.get x).inFlight = some .head) :
    ∃ pool records, flightEnded (.seg x) s = { modSeg x SegPort.txIdle s with
      pool := pool, records := records
      queues := s.queues.set (.seg x) (s.queues.get (.seg x)).tail } := by
  cases hq : s.queues.get (.seg x) with
  | nil =>
    refine ⟨s.pool, s.records, ?_⟩
    have hflight : s.inFlight (.seg x) = some .head := hf
    have hqueues : s.queues.set (.seg x) [] = s.queues := by rw [← hq, s.queues.set_get]
    simp only [flightEnded, hflight, releaseInFlight, State.frameOf, hq, List.head?_nil, Option.map_none,
      idleTx, headLeaves, modSeg_queues, List.tail_nil, hqueues]
    rfl
  | cons e es =>
    rw [flightEnded_head hf hq]
    obtain ⟨pool₁, records₁, h₁⟩ := released_releaseRef e.record s
    rw [h₁]
    exact released_releaseRef e.record _

section
variable {x : Seg} {s : State} (ha : s.active = true) (hwait : s.resultWaits = false)
include ha

theorem exec_collision : exec (.collision x) s = .next (settleSweep (collision x s)) :=
  congrArg Host.Outcome.next (whenActive_of_active _ ha)

theorem exec_retryWaitExpiry (htx : (s.segs.get x).tx = .retryWait) : exec (.retryWaitExpiry x) s =
    .next (modSeg x (fun t => { t with tx := .deferring, retryTimer := none }) s) :=
  congrArg Host.Outcome.next ((whenActive_of_active _ ha).trans (if_pos htx))

include hwait

/-- Without an attempt on the coax there is no collision (R9, R15). -/
theorem exec_collision_none (h : (s.segs.get x).tx ≠ .sending ∨ (s.segs.get x).loop = .internal) :
    exec (.collision x) s = .next s := by
  have hnot : ¬ ((s.segs.get x).tx = .sending ∧ (s.segs.get x).loop ≠ .internal) := fun ⟨htx, hl⟩ =>
    h.elim (fun hne => hne htx) hl
  have same : collision x s = s := if_neg hnot
  rw [exec_collision ha, same, settleSweep_of_none hwait]

section
variable (htx : (s.segs.get x).tx = .sending)
include htx

/-- Collisions 1 to 7 of a queue head (R9). -/
theorem exec_collision_retry (hl : (s.segs.get x).loop ≠ .internal)
    (hf : (s.segs.get x).inFlight = some .head) (hk : (s.segs.get x).attempts < 7) :
    exec (.collision x) s = .next (modSeg x (fun t => { t with
      tx := .retryWait, attempts := (s.segs.get x).attempts + 1
      retryTimer := some ((s.segs.get x).attempts + 1), wire := [], untermSeen := false })
      (bump (.seg x .collisions) s)) := by
  rw [exec_collision ha, collision]
  dsimp only
  rw [if_pos ⟨htx, hl⟩, if_neg (by simp [hf]), if_pos (by omega)]
  exact congrArg Host.Outcome.next (settleSweep_of_sweep hwait (by simp))

/-- The 8th collision of a queue head, with no threshold near: the head is dropped, and the report enters the
window's counts (R9, R146). -/
theorem exec_collision_drop (hl : (s.segs.get x).loop ≠ .internal)
    (hf : (s.segs.get x).inFlight = some .head) (hk : (s.segs.get x).attempts = 7)
    (hw : s.window.running = true) (hsum : s.errorSum (.seg x) + 1 < halfUp s.config.segThreshold) :
    let v := bump (.seg x .collisionDrops) (bump (.seg x .collisions) s)
    ∃ pool records, exec (.collision x) s = .next { modSeg x SegPort.txIdle v with
      pool := pool, records := records
      queues := s.queues.set (.seg x) (s.queues.get (.seg x)).tail
      segWin := s.segWin.set x ((s.segWin.get x).take .collisionDrop) } := by
  intro v
  obtain ⟨pool, records, hended⟩ := flightEnded_head_eq (x := x) (s := v) (by simpa [v] using hf)
  refine ⟨pool, records, ?_⟩
  rw [exec_collision ha, collision]
  dsimp only
  rw [if_pos ⟨htx, hl⟩, if_neg (by simp [hf]), if_neg (by omega), hended,
    segReport_quiet (by simpa [v] using hw) (by simp) (by simp) (by simpa [v, State.errorSum] using hsum)]
  refine congrArg Host.Outcome.next ((settleSweep_of_sweep hwait ?_).trans ?_)
  · simp [SegReport.further, v]
  · simp [SegReport.further, v]

/-- A TEST frame that has collided leaves its slot, and a fresh one is placed there (R10, R45, R162). -/
theorem exec_collision_test {rid : Nat} (hl : (s.segs.get x).loop ≠ .internal)
    (hf : (s.segs.get x).inFlight = some .test) (hslot : s.slots.get (.seg x) = some rid) :
    exec (.collision x) s =
      .next (placeTest (.seg x) (testEnded x rid (bump (.seg x .collisions) s))) := by
  rw [exec_collision ha, collision]
  dsimp only
  rw [if_pos ⟨htx, hl⟩, if_pos hf, testCollided,
    emptySlot_ended (rid := rid) (by simpa using hf) (by simpa using hslot)]
  refine congrArg Host.Outcome.next (settleSweep_of_sweep hwait ?_)
  rw [(placeTest_leaves _ _).2.1, testEnded_leaves.2.1]
  simp

/-- Where a test sends, the fresh frame is placed at once, and its time runs on (R162). -/
theorem exec_collision_fresh {rid : Nat} {w : PortTest} (hl : (s.segs.get x).loop ≠ .internal)
    (hf : (s.segs.get x).inFlight = some .test) (hslot : s.slots.get (.seg x) = some rid)
    (hw : s.testOf (.seg x) = some w) (hsends : w.phase.sends = true) (hfree : 0 < s.pool.free) :
    ∃ t, exec (.collision x) s = .next t ∧ freshTest (.seg x) w s t ∧
      (t.segs.get x).tx = .idle ∧ (t.segs.get x).inFlight = none ∧ (t.segs.get x).attempts = 0 ∧
      t.segWin = s.segWin ∧ countedUp (.seg x .collisions) 1 s t ∧
      t.count (.seg x .collisionDrops) = s.count (.seg x .collisionDrops) := by
  let ended := testEnded x rid (bump (.seg x .collisions) s)
  obtain ⟨hservice, -, hnext, -, hwin, hempty⟩ :
      ended.service = s.service ∧ ended.sweep = s.sweep ∧ ended.nextRecord = s.nextRecord ∧
        ended.handover = s.handover ∧ ended.segWin = s.segWin ∧ ended.slots.get (.seg x) = none := by
    simpa using testEnded_leaves (x := x) (rid := rid) (s := bump (.seg x .collisions) s)
  have hw' : ended.testOf (.seg x) = some w := by rw [← hw, State.testOf, hservice, State.testOf]
  have hfree' : 0 < ended.pool.free := lt_of_lt_of_le (by simpa using hfree) free_testEnded
  obtain ⟨hsegs, -, hwin', -⟩ := placeTest_leaves (.seg x) ended
  have hport : ((placeTest (.seg x) ended).segs.get x) = (s.segs.get x).txIdle := by
    rw [hsegs, testEnded_segs]
    simp
  refine ⟨_, exec_collision_test ha hwait htx hl hf hslot,
    freshTest_congr hnext hservice (placeTest_fresh hw' hsends hempty hfree'), congrArg SegPort.tx hport,
    congrArg SegPort.inFlight hport, congrArg SegPort.attempts hport, hwin'.trans hwin, ?_, ?_⟩
  · rw [countedUp, count_placeTest rfl (by simp), count_testEnded, count_bump, if_pos rfl]
  · rw [count_placeTest rfl (by simp), count_testEnded, count_bump_other (by simp)]

end

end

/-- Settles O11: a head's collisions, a TEST frame's, the retry wait, and the states without an attempt on
the coax. -/
theorem collisionRetriesThenDrops : Obligations.CollisionRetriesThenDrops := by
  intro x s ha hwait v
  refine ⟨fun htx hl hf => ⟨exec_collision_retry ha hwait htx (by simp [v, hl]) hf, fun hk hw hsum => ?_⟩,
    fun htx hl hf rid hslot => ⟨fun hnone => ?_, fun w hw => ?_⟩, exec_retryWaitExpiry ha,
    exec_collision_none ha hwait⟩
  · obtain ⟨pool, records, h⟩ := exec_collision_drop ha hwait htx (by simp [v, hl]) hf hk hw hsum
    refine ⟨_, h, by simp [SegPort.txIdle], by simp [SegPort.txIdle], by simp [SegPort.txIdle], by simp,
      by simp [State.serviceOf], by simp [SegWindow.take], ?_, ?_⟩
    · show (bump (.seg x .collisionDrops) (bump (.seg x .collisions) s)).count _ = _
      rw [count_bump_other (by simp), count_bump, if_pos rfl]
    · show (bump (.seg x .collisionDrops) (bump (.seg x .collisions) s)).count _ = _
      rw [count_bump, if_pos rfl, count_bump_other (by simp)]
  · rw [exec_collision_test ha hwait htx (by simp [v, hl]) hf hslot, placeTest]
    have none' : (testEnded x rid (bump (.seg x .collisions) s)).testOf (.seg x) = none := by
      rw [State.testOf, testEnded_leaves.1]
      simpa [State.testOf] using hnone
    rw [none']
    rfl
  · exact exec_collision_fresh ha hwait htx (by simp [v, hl]) hf hslot hw

end Sys2Proof.Machine

/-! The isolation controller's work at one port: what it leaves as it stands. -/

namespace Sys2Proof.Machine

/-! ### Queues that take nothing (R43) -/

/-- A port whose service state refuses every copy. -/
def State.unreachable (s : State) (q : Port) : Prop := s.serviceOf q ≠ .inService ∧ s.serviceOf q ≠ .probing

/-- From `s` to `t` the queue of every unreachable port, and the ports' service, are as they were. -/
def keepsQueues (s t : State) : Prop :=
  t.service = s.service ∧ ∀ q, s.unreachable q → t.queues.get q = s.queues.get q

theorem unreachable_of_service {s t : State} (h : t.service = s.service) (q : Port) :
    t.unreachable q ↔ s.unreachable q := by
  simp only [State.unreachable, State.serviceOf, h]

theorem keepsQueues_trans {s t u : State} (h : keepsQueues s t) (k : keepsQueues t u) : keepsQueues s u :=
  ⟨k.1.trans h.1, fun q hq =>
    (k.2 q ((unreachable_of_service h.1 q).2 hq)).trans (h.2 q hq)⟩

theorem keepsQueues_of_eq {s t : State} (hs : t.service = s.service) (hq : t.queues = s.queues) :
    keepsQueues s t :=
  ⟨hs, fun q _ => by rw [hq]⟩

/-- An unreachable port refuses every copy (R43). -/
theorem judgeOffer_unreachable {p : Port} {s : State} (e : QueueEntry) (h : s.unreachable p) :
    judgeOffer p e s = some .refusedUnreachable :=
  if_pos h

theorem keepsQueues_offer (p : Port) (e : QueueEntry) (s : State) : keepsQueues s (offer p e s).2 := by
  unfold offer
  split
  · exact keepsQueues_of_eq (by simp) (by simp)
  · next hjoins =>
    refine ⟨by simp, fun q hq => ?_⟩
    have hne : p ≠ q := by
      rintro rfl
      rw [judgeOffer_unreachable e hq] at hjoins
      cases hjoins
    simp [hne]

section
variable {low : State → State} (hl : ∀ s, keepsQueues s (low s))
include hl

theorem keepsQueues_ownRecordWith (bs : List Byte) (s : State) :
    keepsQueues s (ownRecordWith low bs s).2 := by
  unfold ownRecordWith
  dsimp only
  split
  · exact keepsQueues_of_eq (by simp) (by simp)
  · dsimp only
    split
    · exact keepsQueues_trans (keepsQueues_of_eq (t := newRecord _ _ s) rfl rfl) (hl _)
    · exact keepsQueues_of_eq rfl rfl

theorem keepsQueues_sendOwnWith (p : Port) (d : Key) (k : Byte) (bs : List Byte) (s : State) :
    keepsQueues s (sendOwnWith low p d k bs s).2 := by
  have made := keepsQueues_ownRecordWith hl bs s
  unfold sendOwnWith
  split
  · next e => rwa [e] at made
  · next r w e =>
    rw [e] at made
    have offered := keepsQueues_offer p (ownEntry p d k bs.length r) w
    split <;> next e' =>
      rw [e'] at offered
      exact keepsQueues_trans (keepsQueues_trans made offered) (keepsQueues_of_eq (by simp) (by simp))

theorem keepsQueues_raiseWith (f : Flag) (s : State) : keepsQueues s (raiseWith low f s) := by
  unfold raiseWith becomeCounting makeNoticeWith
  split
  · exact keepsQueues_of_eq rfl rfl
  · dsimp only
    split
    · split
      · exact keepsQueues_of_eq rfl rfl
      · split
        · exact keepsQueues_of_eq rfl rfl
        · split
          · exact keepsQueues_of_eq (by simp) (by simp)
          · next k _ p d _ =>
            have sent := keepsQueues_trans (keepsQueues_of_eq (t := setFlag f s) rfl rfl)
              (keepsQueues_sendOwnWith hl p d kindNotice (noticePayload p.side (setFlag f s)) (setFlag f s))
            split <;> next e =>
              rw [e] at sent
              exact keepsQueues_trans sent (keepsQueues_of_eq (by simp) (by simp))
    · exact keepsQueues_of_eq rfl rfl

end

/-- The NOTICE of a raise joins no queue of an unreachable port. -/
theorem keepsQueues_raise (f : Flag) (s : State) : keepsQueues s (raise f s) :=
  keepsQueues_raiseWith (keepsQueues_raiseWith (low := setFlag .poolLow)
    (fun _ => keepsQueues_of_eq rfl rfl) .poolLow) f s

theorem keepsQueues_ownRecord (bs : List Byte) (s : State) : keepsQueues s (ownRecord bs s).2 :=
  keepsQueues_ownRecordWith (keepsQueues_raise .poolLow) bs s

theorem keepsQueues_sendOwn (p : Port) (d : Key) (k : Byte) (bs : List Byte) (s : State) :
    keepsQueues s (sendOwn p d k bs s).2 :=
  keepsQueues_sendOwnWith (keepsQueues_raise .poolLow) p d k bs s

/-! ### Work at one port -/

/-- A state without what work at a port and its frames may touch. -/
def State.bare (s : State) : State :=
  { s with
    segs := .fill (.atReset false), links := .fill (.atReset false), pool := ⟨0, 0, 0⟩, records := []
    nextRecord := 0, queues := .fill [], slots := .fill none, service := State.reset.service, flags := 0
    noticeOut := false, counters := [] }

/-- From `s` to `t` the isolation controller has worked at port `p`: other ports, the line conditions, the
queues of the other unreachable ports and the counters that are neither noticed nor the port's own stand. -/
structure AtPort (p : Port) (s t : State) : Prop where
  rest : t.bare = s.bare
  service : ∀ q, q ≠ p → t.service.get q = s.service.get q
  seg : ∀ x, .seg x ≠ p → t.segs.get x = s.segs.get x
  stuck : ∀ x, (t.segs.get x).stuck = (s.segs.get x).stuck
  link : ∀ l, .link l ≠ p → t.links.get l = s.links.get l
  line : ∀ l, (t.links.get l).line = (s.links.get l).line
  queue : ∀ q, q ≠ p → s.unreachable q → t.queues.get q = s.queues.get q
  count : ∀ c : Counter, c.noticed = false → (∀ k, c ≠ .service p k) → t.count c = s.count c

theorem atPort_refl (p : Port) (s : State) : AtPort p s s :=
  ⟨rfl, fun _ _ => rfl, fun _ _ => rfl, fun _ => rfl, fun _ _ => rfl, fun _ => rfl, fun _ _ _ => rfl,
    fun _ _ _ => rfl⟩

theorem AtPort.unreachable {p q : Port} {s t : State} (h : AtPort p s t) (hq : q ≠ p)
    (hs : s.unreachable q) : t.unreachable q := by
  simpa only [State.unreachable, State.serviceOf, h.service q hq] using hs

theorem AtPort.trans {p : Port} {s t u : State} (h : AtPort p s t) (k : AtPort p t u) : AtPort p s u where
  rest := k.rest.trans h.rest
  service q hq := (k.service q hq).trans (h.service q hq)
  seg x hx := (k.seg x hx).trans (h.seg x hx)
  stuck x := (k.stuck x).trans (h.stuck x)
  link l hl := (k.link l hl).trans (h.link l hl)
  line l := (k.line l).trans (h.line l)
  queue q hq hs := (k.queue q hq (h.unreachable hq hs)).trans (h.queue q hq hs)
  count c hc hp := (k.count c hc hp).trans (h.count c hc hp)

/-- The work of making frames, seen from any port. -/
theorem atPort_of_frames {p : Port} {s t : State} (h : sameButFrames s t) (hq : keepsQueues s t)
    (hc : ∀ c : Counter, c.noticed = false → (∀ k, c ≠ .service p k) → t.count c = s.count c) :
    AtPort p s t := by
  obtain ⟨_, _, _, _, _, _, _, hsegs, hlinks, _, hslots, _⟩ := sameButFrames_fields h
  refine ⟨?_, fun _ _ => by rw [hq.1], fun _ _ => by rw [hsegs], fun _ => by rw [hsegs],
    fun _ _ => by rw [hlinks], fun _ => by rw [hlinks], fun q _ => hq.2 q, hc⟩
  have hbare : t.bare = State.bare { t with
      pool := s.pool, records := s.records, nextRecord := s.nextRecord, queues := s.queues
      flags := s.flags, noticeOut := s.noticeOut, counters := s.counters } := rfl
  rw [hbare]
  exact congrArg State.bare h

theorem atPort_released {s t : State} (p : Port) (h : Released s t) : AtPort p s t := by
  obtain ⟨pool, records, rfl⟩ := h
  exact ⟨rfl, fun _ _ => rfl, fun _ _ => rfl, fun _ => rfl, fun _ _ => rfl, fun _ => rfl, fun _ _ _ => rfl,
    fun _ _ _ => rfl⟩

theorem atPort_raise (p : Port) (f : Flag) (s : State) : AtPort p s (raise f s) :=
  atPort_of_frames (raise_same f s) (keepsQueues_raise f s) fun _ hc _ => count_raise hc f s

theorem atPort_modService (p : Port) (f : PortService → PortService) (s : State) :
    AtPort p s (modService p f s) :=
  ⟨rfl, fun q hq => by simp [hq.symm], fun _ _ => rfl, fun _ => rfl, fun _ _ => rfl, fun _ => rfl,
    fun _ _ _ => rfl, fun _ _ _ => rfl⟩

theorem atPort_setSlot (p : Port) (v : PerPort (Option Nat)) (s : State) : AtPort p s { s with slots := v } :=
  ⟨rfl, fun _ _ => rfl, fun _ _ => rfl, fun _ => rfl, fun _ _ => rfl, fun _ => rfl, fun _ _ _ => rfl,
    fun _ _ _ => rfl⟩

theorem atPort_modSeg (x : Seg) {f : SegPort → SegPort} (s : State) (hf : ∀ t, (f t).stuck = t.stuck) :
    AtPort (.seg x) s (modSeg x f s) := by
  refine ⟨rfl, fun _ _ => rfl, fun y hy => ?_, fun y => ?_, fun _ _ => rfl, fun _ => rfl,
    fun _ _ _ => rfl, fun _ _ _ => rfl⟩
  · have hne : x ≠ y := fun h => hy (congrArg Port.seg h.symm)
    simp [hne]
  · simp only [modSeg_segs, PerSeg.get_set]
    split
    · next h => rw [hf, h]
    · rfl

theorem atPort_modLink (l : Link) {f : LinkPort → LinkPort} (s : State) (hf : ∀ t, (f t).line = t.line) :
    AtPort (.link l) s (modLink l f s) := by
  refine ⟨rfl, fun _ _ => rfl, fun _ _ => rfl, fun _ => rfl, fun m hm => ?_, fun m => ?_,
    fun _ _ _ => rfl, fun _ _ _ => rfl⟩
  · have hne : l ≠ m := fun h => hm (congrArg Port.link h.symm)
    simp [hne]
  · simp only [modLink_links, PerLink.get_set]
    split
    · next h => rw [hf, h]
    · rfl

theorem atPort_bumpBy {p : Port} {c : Counter} (hc : c.noticed = true ∨ ∃ k, c = .service p k) (n : Nat)
    (s : State) : AtPort p s (bumpBy c n s) := by
  refine atPort_of_frames (bumpBy_same c n s) (keepsQueues_of_eq (by simp) (by simp)) fun d hd hp => ?_
  refine count_bumpBy_other (fun h => ?_) n s
  rcases hc with hc | ⟨k, hk⟩
  · simp [h, hd] at hc
  · exact hp k (h ▸ hk)

theorem atPort_bump_service (p : Port) (k : ServiceCount) (s : State) :
    AtPort p s (bump (.service p k) s) :=
  atPort_bumpBy (.inr ⟨k, rfl⟩) 1 s

/-! ### The controller's operations at a port -/

theorem atPort_idleTx (p : Port) (s : State) : AtPort p s (idleTx p s) := by
  cases p with
  | seg x => exact atPort_modSeg x s fun _ => rfl
  | link l =>
    refine atPort_modLink l (f := fun t => if t.tx = .gap then t else t.txIdle) s fun t => ?_
    split <;> rfl

theorem atPort_emptySlot (p : Port) (s : State) : AtPort p s (emptySlot p s) := by
  unfold emptySlot
  split
  · exact (atPort_setSlot p _ s).trans (atPort_released p (released_releaseRef _ _))
  · exact atPort_refl p s

theorem atPort_abortTx (p : Port) (s : State) : AtPort p s (abortTx p s) :=
  (atPort_released p (released_releaseInFlight p s)).trans (atPort_idleTx p _)

theorem atPort_purgePort (p : Port) (why : PurgeReason) (s : State) : AtPort p s (purgePort p why s) := by
  obtain ⟨pool, records, h⟩ := purgePort_eq p why s
  rw [h]
  refine AtPort.trans ?_ ((atPort_idleTx p _).trans (atPort_bumpBy (.inl rfl) _ _))
  exact ⟨rfl, fun _ _ => rfl, fun _ _ => rfl, fun _ => rfl, fun _ _ => rfl, fun _ => rfl,
    fun q hq _ => by simp [hq.symm], fun _ _ _ => rfl⟩

theorem atPort_abandonSeg (x : Seg) (s : State) : AtPort (.seg x) s (abandonSeg x s) := by
  unfold abandonSeg
  split
  · exact (atPort_released _ (released_releaseRef _ s)).trans (atPort_modSeg x _ fun _ => rfl)
  · exact atPort_modSeg x s fun _ => rfl

theorem atPort_abandonLink (l : Link) (s : State) : AtPort (.link l) s (abandonLink l s) := by
  unfold abandonLink
  split
  · exact (atPort_released _ (released_releaseRef _ s)).trans (atPort_modLink l _ fun _ => rfl)
  · exact atPort_modLink l s fun _ => rfl

theorem atPort_setLoopMode (p : Port) (m : LoopMode) (s : State) : AtPort p s (setLoopMode p m s) := by
  have aborted : AtPort p s (if s.inFlight p = some .test then emptySlot p (abortTx p s) else s) := by
    split
    · exact (atPort_abortTx p s).trans (atPort_emptySlot p _)
    · exact atPort_refl p s
  unfold setLoopMode
  split
  · exact atPort_refl p s
  · cases p with
    | seg x => exact aborted.trans ((atPort_abandonSeg x _).trans (atPort_modSeg x _ fun _ => rfl))
    | link l => exact aborted.trans ((atPort_abandonLink l _).trans (atPort_modLink l _ fun _ => rfl))

theorem atPort_endTest (p : Port) (s : State) : AtPort p s (endTest p s) :=
  ((atPort_setLoopMode p .normal s).trans (atPort_emptySlot p _)).trans
    (atPort_modService p (fun v => { v with test := none }) _)

theorem atPort_placeTest (p : Port) (s : State) : AtPort p s (placeTest p s) := by
  unfold placeTest
  split
  · exact atPort_refl p s
  · next t _ =>
    split
    · exact atPort_refl p s
    · split
      · exact atPort_modService p _ s
      · have made : AtPort p s (ownRecord (s.testFrame p t) s).2 :=
          atPort_of_frames (ownRecord_same _ s) (keepsQueues_ownRecord _ s) fun _ hc _ => count_ownRecord hc _ s
        split
        · next w e =>
          rw [e] at made
          exact made.trans ((atPort_modService p _ w).trans (atPort_bump_service p _ _))
        · next rid w e =>
          rw [e] at made
          exact made.trans ((atPort_setSlot p _ w).trans (atPort_modService p _ _))

theorem atPort_startPhase (p : Port) (ph : TestPhase) (s : State) : AtPort p s (startPhase p ph s) :=
  ((atPort_modService p _ s).trans (atPort_setLoopMode p _ _)).trans (atPort_placeTest p _)

theorem atPort_beginTest (p : Port) (why : TestPurpose) (ph : TestPhase) (s : State) :
    AtPort p s (beginTest p why ph s) :=
  (atPort_modService p _ s).trans (atPort_startPhase p ph _)

/-- A service state that no held reply waits for. -/
theorem settleHeld_none {p : Port} {st : Service} {s : State} (h : s.heldReply = none) :
    settleHeld p st s = s := by
  unfold settleHeld
  rw [h]

theorem setService_of_none {p : Port} {st : Service} {s : State} (h : s.heldReply = none) :
    setService p st s = modService p (fun v => { v with state := st }) s :=
  settleHeld_none h

end Sys2Proof.Machine

/-! Isolation, and the line condition of a segment: STUCK, STUCK held, UNTERMINATED. -/

namespace Sys2Proof.Machine

/-! ### The service record of the port worked at -/

theorem service_raise (f : Flag) (s : State) : (raise f s).service = s.service := (keepsQueues_raise f s).1

theorem service_emptySlot (p : Port) (s : State) : (emptySlot p s).service = s.service := by
  obtain ⟨_, ⟨pool, records, rfl⟩, h⟩ := emptySlot_eq p s
  rw [h]

theorem service_abortTx (p : Port) (s : State) : (abortTx p s).service = s.service := by
  obtain ⟨pool, records, h⟩ := released_releaseInFlight p s
  rw [abortTx, h]
  cases p <;> rfl

theorem service_purgePort (p : Port) (why : PurgeReason) (s : State) :
    (purgePort p why s).service = s.service := by
  obtain ⟨pool, records, h⟩ := purgePort_eq p why s
  rw [h, bumpBy_service]
  cases p <;> rfl

theorem service_setLoopMode (p : Port) (m : LoopMode) (s : State) :
    (setLoopMode p m s).service = s.service := by
  have aborted : (if s.inFlight p = some .test then emptySlot p (abortTx p s) else s).service = s.service := by
    split
    · rw [service_emptySlot, service_abortTx]
    · rfl
  unfold setLoopMode
  split
  · rfl
  · cases p with
    | seg x =>
      dsimp only [modSeg_service]
      unfold abandonSeg
      split <;> simpa [dropRecord] using aborted
    | link l =>
      dsimp only [modLink_service]
      unfold abandonLink
      split <;> simpa [dropRecord] using aborted

theorem service_endTest (p : Port) (s : State) :
    (endTest p s).service = s.service.set p { s.service.get p with test := none } := by
  simp only [endTest, modService_service, service_emptySlot, service_setLoopMode]

/-! ### A port is isolated (R165, R167) -/

/-- The record of a port isolated with a cause. -/
def PortService.isolatedFor (v : PortService) (c : IsolationCause) : PortService :=
  { v with
    state := .isolated, cause := some c, holdTimer := some v.holdTime, holdExpired := false
    restoreDue := true }

section
variable {p : Port} {c : IsolationCause} {s : State} (h : s.heldReply = none)
include h

theorem enterIsolated_eq : ∃ k, enterIsolated p c s = raise .portIsolated (bump (.service p k)
    (modService p (fun v => { v with
        cause := some c, holdTimer := some v.holdTime, holdExpired := false, restoreDue := true })
      (purgePort p .isolation (modService p (fun v => { v with state := .isolated }) s)))) := by
  unfold enterIsolated
  rw [setService_of_none h]
  exact ⟨_, rfl⟩

theorem atPort_enterIsolated : AtPort p s (enterIsolated p c s) := by
  obtain ⟨k, e⟩ := enterIsolated_eq (p := p) (c := c) h
  rw [e]
  exact (atPort_modService p _ s).trans ((atPort_purgePort p _ _).trans ((atPort_modService p _ _).trans
    ((atPort_bump_service p k _).trans (atPort_raise p _ _))))

theorem service_enterIsolated :
    (enterIsolated p c s).service.get p = (s.service.get p).isolatedFor c := by
  obtain ⟨k, e⟩ := enterIsolated_eq (p := p) (c := c) h
  rw [e, service_raise]
  simp [service_purgePort, PortService.isolatedFor]

theorem queue_enterIsolated : (enterIsolated p c s).queues.get p = [] := by
  obtain ⟨k, e⟩ := enterIsolated_eq (p := p) (c := c) h
  rw [e, (keepsQueues_raise _ _).2 p]
  · simp [(purgePort_leaves p _ _).1]
  · simp [State.unreachable, State.serviceOf, service_purgePort]

theorem raised_enterIsolated : (enterIsolated p c s).raised .portIsolated = true := by
  obtain ⟨k, e⟩ := enterIsolated_eq (p := p) (c := c) h
  rw [e]
  exact raised_raise _ _

end

theorem segs_enterIsolated {x : Seg} {c : IsolationCause} {s : State} (h : s.heldReply = none) :
    (enterIsolated (.seg x) c s).segs.get x = (s.segs.get x).txIdle := by
  obtain ⟨k, e⟩ := enterIsolated_eq (p := .seg x) (c := c) h
  rw [e, (sameButFrames_fields (raise_same _ _)).2.2.2.2.2.2.2.1]
  simp [purgePort_seg]

theorem AtPort.sweep {p : Port} {s t : State} (h : AtPort p s t) : t.sweep = s.sweep :=
  (congrArg State.sweep h.rest : t.bare.sweep = s.bare.sweep)

theorem AtPort.segWin {p : Port} {s t : State} (h : AtPort p s t) : t.segWin = s.segWin :=
  (congrArg State.segWin h.rest : t.bare.segWin = s.bare.segWin)

theorem AtPort.config {p : Port} {s t : State} (h : AtPort p s t) : t.config = s.config :=
  (congrArg State.config h.rest : t.bare.config = s.bare.config)

theorem AtPort.heldReply {p : Port} {s t : State} (h : AtPort p s t) : t.heldReply = s.heldReply :=
  (congrArg State.heldReply h.rest : t.bare.heldReply = s.bare.heldReply)

/-! ### Reports below the threshold (R146, R148) -/

/-- From `s` to `t` a judging has at most marked a warning at a port, and counted it. -/
def Judged (p : Port) (s t : State) : Prop :=
  ∃ marks, t = { s with marks := marks } ∨ t = bump (.faultPort p .errorsWarning) { s with marks := marks }

theorem Judged.fields {p : Port} {s t : State} (h : Judged p s t) : t.segs = s.segs ∧
    t.service = s.service ∧ t.sweep = s.sweep ∧ t.segWin = s.segWin ∧ t.records = s.records ∧
    t.queues = s.queues ∧ t.heldReply = s.heldReply ∧
    ∀ c, c ≠ .faultPort p .errorsWarning → t.count c = s.count c := by
  obtain ⟨marks, rfl | rfl⟩ := h
  · exact ⟨rfl, rfl, rfl, rfl, rfl, rfl, rfl, fun _ _ => rfl⟩
  · exact ⟨by simp, by simp, by simp, by simp, by simp, by simp, by simp,
      fun c hc => count_bump_other hc.symm _⟩

/-- Where the error sum stays below the threshold, a report comes to its count, its further work and a
judging that asks for nothing. -/
theorem segReport_below {x : Seg} {r : SegReport} {s : State} (hw : s.window.running = true)
    (hr : r ≠ .stuckHeld) :
    let t := r.further x { s with segWin := s.segWin.set x ((s.segWin.get x).take r) }
    t.errorSum (.seg x) < t.config.segThreshold → Judged (.seg x) t (segReport x r s) := by
  intro t hsum
  obtain ⟨hnone, hjudged⟩ := judgePort_below (p := .seg x) hsum
  rw [segReport_running hw hr]
  show Judged _ t (makeRequests (.seg x) (judgePort (.seg x) false t).1 (judgePort (.seg x) false t).2)
  rw [hnone]
  exact hjudged

/-- Neither STUCK nor UNTERMINATED enters the error sum. -/
theorem errorSum_line {x : Seg} {r : SegReport} (hr : r = .stuck ∨ r = .unterminated) (s : State) :
    ({ s with segWin := s.segWin.set x ((s.segWin.get x).take r) } : State).errorSum (.seg x) =
      s.errorSum (.seg x) := by
  rcases hr with rfl | rfl <;> simp [State.errorSum, SegWindow.take]

/-- A STUCK taken into the window's counts, where the threshold is not met. -/
theorem segReport_stuck {x : Seg} {s : State} (hw : s.window.running = true)
    (hsum : s.errorSum (.seg x) < s.config.segThreshold) :
    Judged (.seg x) { s with segWin := s.segWin.set x ((s.segWin.get x).take .stuck) }
      (segReport x .stuck s) :=
  segReport_below hw (by simp) (lt_of_eq_of_lt (errorSum_line (.inl rfl) s) hsum)

/-- The LINE request of an UNTERMINATED at an IN-SERVICE segment isolates it, and the judging after it asks for
nothing (R146, R167). -/
theorem segReport_unterminated {x : Seg} {s : State} (hw : s.window.running = true)
    (hs : s.serviceOf (.seg x) = .inService) (hheld : s.heldReply = none)
    (hsum : s.errorSum (.seg x) < s.config.segThreshold) :
    let t := bump (.faultPort (.seg x) .requestsLine)
      { s with segWin := s.segWin.set x ((s.segWin.get x).take .unterminated) }
    Judged (.seg x) (enterIsolated (.seg x) .line t) (segReport x .unterminated s) := by
  intro t
  have isolated : SegReport.further .unterminated x
      { s with segWin := s.segWin.set x ((s.segWin.get x).take .unterminated) } =
        enterIsolated (.seg x) .line t := by
    have hs' : t.serviceOf (.seg x) = .inService := by simpa [t, State.serviceOf] using hs
    show isolate (.seg x) .line t = _
    rw [isolate, hs']
  have work := atPort_enterIsolated (p := .seg x) (c := .line) (s := t) (by simpa [t] using hheld)
  rw [← isolated]
  refine segReport_below hw (by simp) ?_
  rw [isolated]
  have hsame : (enterIsolated (.seg x) .line t).errorSum (.seg x) = s.errorSum (.seg x) := by
    rw [← errorSum_line (x := x) (.inr rfl) s]
    simp [State.errorSum, work.segWin, t]
  rw [hsame, work.config]
  simpa [t] using hsum

/-- A STUCK-HELD at an IN-SERVICE segment isolates it (R146, R167). -/
theorem segReport_stuckHeld {x : Seg} {s : State} (hw : s.window.running = true)
    (hs : s.serviceOf (.seg x) = .inService) :
    segReport x .stuckHeld s =
      enterIsolated (.seg x) .line (bump (.faultPort (.seg x) .requestsLine) s) := by
  have hs' : (bump (.faultPort (.seg x) .requestsLine) s).serviceOf (.seg x) = .inService := by
    simpa [State.serviceOf] using hs
  have request : segReport x .stuckHeld s =
      isolate (.seg x) .line (bump (.faultPort (.seg x) .requestsLine) s) := by
    simp only [segReport, hw]
    rfl
  rw [request, isolate, hs']

/-! ### STUCK (R11) -/

/-- A segment whose line has become STUCK, with a reception in progress abandoned. -/
def stuckLine (x : Seg) (s : State) : State :=
  stuckReception x (modSeg x (fun t => { t with stuck := true, carrierTime := max 6 t.carrierTime }) s)

theorem stuckReception_receiving {x : Seg} {s : State} {r : SegReception}
    (h : (s.segs.get x).rx = .receiving r) :
    stuckReception x s = setSegRx x (.discarding false) (releaseRef r.record s) := by
  rw [stuckReception, h]
  rfl

/-- The abandoned reception's record is released, and nothing else changes but the receiver (R1, R11). -/
theorem stuckReception_eq (x : Seg) (s : State) :
    ∃ rx pool records, stuckReception x s = { setSegRx x rx s with pool := pool, records := records } := by
  unfold stuckReception
  split
  · next r h =>
    obtain ⟨pool, records, hr⟩ := released_releaseRef r.record s
    exact ⟨.discarding false, pool, records, by rw [dropRecord, hr]; rfl⟩
  · exact ⟨(s.segs.get x).rx, s.pool, s.records, (setSegRx_self rfl).symm⟩

theorem stuckLine_receiving {x : Seg} {s : State} {r : SegReception}
    (h : (s.segs.get x).rx = .receiving r) :
    ((stuckLine x s).segs.get x).rx = .discarding false ∧
      (stuckLine x s).records = (releaseRef r.record s).records := by
  rw [stuckLine, stuckReception_receiving (r := r) (by simp [h])]
  exact ⟨rx_setSegRx .., releaseRef_records_congr _ rfl⟩

/-- The line is STUCK and carrier time at least 6; beside the segments only the frame memory is touched. -/
theorem stuckLine_leaves (x : Seg) (s : State) :
    ((stuckLine x s).segs.get x).stuck = true ∧ 6 ≤ ((stuckLine x s).segs.get x).carrierTime ∧
      ((stuckLine x s).segs.get x).loop = (s.segs.get x).loop ∧
      (∃ segs pool records, stuckLine x s = { s with segs := segs, pool := pool, records := records }) := by
  obtain ⟨rx, pool, records, h⟩ := stuckReception_eq x
    (modSeg x (fun t => { t with stuck := true, carrierTime := max 6 t.carrierTime }) s)
  rw [stuckLine, h]
  refine ⟨by simp [setSegRx], by simp [setSegRx], by simp [setSegRx], _, pool, records, rfl⟩

section
variable {x : Seg} {s : State} (ha : s.active = true)
include ha

theorem exec_stuck (hc : (s.segs.get x).carrier = true) (hs : (s.segs.get x).stuck = false) :
    exec (.stuck x) s = .next (settleSweep (if (stuckLine x s).serviceOf (.seg x) = .off then stuckLine x s
      else reportStuck x (bump (.seg x .stuck)
        (modSeg x (fun t => { t with heldTimer := some 50 }) (stuckLine x s))))) := by
  refine congrArg Host.Outcome.next ?_
  rw [whenActive_of_active _ ha, stuckBegins]
  dsimp only
  rw [if_pos ⟨hc, hs⟩]
  rfl

/-- The STUCK of a port in OFF is neither counted nor reported. -/
theorem exec_stuck_off (hc : (s.segs.get x).carrier = true) (hs : (s.segs.get x).stuck = false)
    (hwait : s.resultWaits = false) (hoff : s.serviceOf (.seg x) = .off) :
    exec (.stuck x) s = .next (stuckLine x s) := by
  obtain ⟨-, -, -, segs, pool, records, h⟩ := stuckLine_leaves x s
  have hoff' : (stuckLine x s).serviceOf (.seg x) = .off := by rw [h]; exact hoff
  rw [exec_stuck ha hc hs, if_pos hoff']
  exact congrArg Host.Outcome.next (settleSweep_of_sweep hwait (by rw [h]))

/-- A STUCK counted, with STUCK-HELD awaited. -/
def stuckCounted (x : Seg) (s : State) : State :=
  bump (.seg x .stuck) (modSeg x (fun t => { t with heldTimer := some 50 }) (stuckLine x s))

omit ha in
theorem stuckCounted_leaves (x : Seg) (s : State) :
    ((stuckCounted x s).segs.get x).stuck = true ∧ 6 ≤ ((stuckCounted x s).segs.get x).carrierTime ∧
      ((stuckCounted x s).segs.get x).loop = (s.segs.get x).loop ∧
      ((stuckCounted x s).segs.get x).heldTimer = some 50 ∧
      (∃ segs pool records, stuckCounted x s =
        bump (.seg x .stuck) { s with segs := segs, pool := pool, records := records }) := by
  obtain ⟨hstuck, htime, hloop, segs, pool, records, h⟩ := stuckLine_leaves x s
  refine ⟨by simpa [stuckCounted] using hstuck, by simpa [stuckCounted] using htime,
    by simpa [stuckCounted] using hloop, by simp [stuckCounted],
    segs.set x { segs.get x with heldTimer := some 50 }, pool, records, ?_⟩
  rw [stuckCounted, h]
  rfl

theorem exec_stuck_counted (hc : (s.segs.get x).carrier = true) (hs : (s.segs.get x).stuck = false)
    (hon : s.serviceOf (.seg x) ≠ .off) :
    exec (.stuck x) s = .next (settleSweep (reportStuck x (stuckCounted x s))) := by
  obtain ⟨-, -, -, segs, pool, records, h⟩ := stuckLine_leaves x s
  have hon' : (stuckLine x s).serviceOf (.seg x) ≠ .off := by rw [h]; exact hon
  rw [exec_stuck ha hc hs, if_neg hon']
  rfl

end

/-- What the report of a counted STUCK comes to below the threshold. -/
theorem segReport_stuckCounted {x : Seg} {s : State} (hw : s.window.running = true)
    (hsum : s.errorSum (.seg x) < s.config.segThreshold) :
    Judged (.seg x) { stuckCounted x s with
      segWin := s.segWin.set x ((s.segWin.get x).take .stuck) } (segReport x .stuck (stuckCounted x s)) := by
  obtain ⟨-, -, -, -, segs, pool, records, h⟩ := stuckCounted_leaves x s
  have hwin : (stuckCounted x s).segWin = s.segWin := by rw [h]; simp
  have report := segReport_stuck (x := x) (s := stuckCounted x s) (by rw [h]; simpa using hw)
    (by rw [h]; simpa [State.errorSum] using hsum)
  rwa [hwin] at report

/-- A failed EXTERNAL phase of an entry test isolates the port with cause TEST and ends the test (R165). -/
theorem entryFailedExternal_spec {p : Port} {s : State} (h : s.heldReply = none) :
    let t := entryFailedExternal p s
    AtPort p s t ∧ t.serviceOf p = .isolated ∧ (t.service.get p).cause = some .test ∧ t.testOf p = none := by
  intro t
  let ended := bump (.service p .testsFailedExternal) (modService p (fun v => { v with
    failedTests := min 255 (v.failedTests + 1), holdTime := min 320 (2 * v.holdTime) }) (endTest p s))
  have work : AtPort p s ended := (atPort_endTest p s).trans
    ((atPort_modService p _ _).trans (atPort_bump_service p _ _))
  have hheld : ended.heldReply = none := work.heldReply.trans h
  have record : t.service.get p = (ended.service.get p).isolatedFor .test := service_enterIsolated hheld
  have hnone : (ended.service.get p).test = none := by simp [ended, service_endTest]
  refine ⟨work.trans (atPort_enterIsolated hheld), ?_, ?_, ?_⟩
  · rw [State.serviceOf, record]; rfl
  · rw [record]; rfl
  · rw [State.testOf, record]; exact hnone

/-- A line report fails the EXTERNAL phase of an entry test. -/
theorem externalReport_entry {x : Seg} {s : State} {v : PortTest} (hv : s.testOf (.seg x) = some v)
    (hp : v.purpose = .entry) (hph : v.phase = .external) :
    externalReport x s = entryFailedExternal (.seg x) s := by
  simp [externalReport, hv, hph, phaseFailed, PortTest.isLoop, hp]

/-- A STUCK in no EXTERNAL mode, or in OFF. -/
theorem exec_stuck_reported {x : Seg} {s : State} (ha : s.active = true) (hwait : s.resultWaits = false)
    (hc : (s.segs.get x).carrier = true) (hs : (s.segs.get x).stuck = false)
    (hrun : s.serviceOf (.seg x) = .off ∨
      s.window.running = true ∧ s.errorSum (.seg x) < s.config.segThreshold)
    (hmode : (s.segs.get x).loop ≠ .external ∨ s.serviceOf (.seg x) = .off) :
    ∃ t, exec (.stuck x) s = .next t ∧ (t.segs.get x).stuck = true ∧ 6 ≤ (t.segs.get x).carrierTime ∧
      (∀ r, (s.segs.get x).rx = .receiving r → (t.segs.get x).rx = .discarding false ∧
        t.records = (releaseRef r.record s).records) ∧
      t.serviceOf (.seg x) = s.serviceOf (.seg x) ∧
      (s.serviceOf (.seg x) = .off → t.counters = s.counters ∧ t.segWin = s.segWin) ∧
      (s.serviceOf (.seg x) ≠ .off → (t.segs.get x).heldTimer = some 50 ∧
        (t.segWin.get x).stuck = windowUp (s.segWin.get x).stuck ∧
        t.count (.seg x .stuck) = min Config.counterMax (s.count (.seg x .stuck) + 1)) := by
  by_cases hoff : s.serviceOf (.seg x) = .off
  · obtain ⟨hstuck, htime, -, segs, pool, records, h⟩ := stuckLine_leaves x s
    refine ⟨_, exec_stuck_off ha hc hs hwait hoff, hstuck, htime, fun r => stuckLine_receiving, ?_,
      fun _ => ?_, fun hon => absurd hoff hon⟩
    · rw [h]; rfl
    · rw [h]; exact ⟨rfl, rfl⟩
  · obtain ⟨hw, hsum⟩ := hrun.resolve_left hoff
    obtain ⟨hstuck, htime, hloop, htimer, segs, pool, records, h⟩ := stuckCounted_leaves x s
    obtain ⟨hsegs, hservice, hsweep, hwin, hrecords, -, -, hcount⟩ := (segReport_stuckCounted hw hsum).fields
    have hreport : reportStuck x (stuckCounted x s) = segReport x .stuck (stuckCounted x s) := by
      rw [reportStuck, hloop]
      exact if_neg (hmode.resolve_right hoff)
    refine ⟨segReport x .stuck (stuckCounted x s), ?_, ?_, ?_, fun r hr => ⟨?_, ?_⟩, ?_,
      fun hoff' => absurd hoff' hoff, fun _ => ⟨?_, ?_, ?_⟩⟩
    · rw [exec_stuck_counted ha hc hs hoff, hreport]
      exact congrArg Host.Outcome.next (settleSweep_of_sweep hwait (hsweep.trans (by rw [h]; simp)))
    · rw [hsegs]; exact hstuck
    · rw [hsegs]; exact htime
    · rw [hsegs]
      simpa [stuckCounted] using (stuckLine_receiving hr).1
    · rw [hrecords]
      simpa [stuckCounted] using (stuckLine_receiving hr).2
    · rw [State.serviceOf, hservice, h]
      simp [State.serviceOf]
    · rw [hsegs]; exact htimer
    · rw [hwin]
      simp [SegWindow.take]
    · rw [hcount _ (by simp)]
      show (stuckCounted x s).count _ = _
      rw [h, count_bump, if_pos rfl]
      rfl

/-- A STUCK in the EXTERNAL phase of an entry test. -/
theorem exec_stuck_entry {x : Seg} {s : State} {v : PortTest} (ha : s.active = true)
    (hwait : s.resultWaits = false) (hc : (s.segs.get x).carrier = true) (hs : (s.segs.get x).stuck = false)
    (hw : s.window.running = true) (hsum : s.errorSum (.seg x) < s.config.segThreshold)
    (hmode : (s.segs.get x).loop = .external) (hon : s.serviceOf (.seg x) ≠ .off)
    (hheld : s.heldReply = none) (hv : s.testOf (.seg x) = some v) (hp : v.purpose = .entry)
    (hph : v.phase = .external) :
    ∃ t, exec (.stuck x) s = .next t ∧ (t.segs.get x).stuck = true ∧ t.serviceOf (.seg x) = .isolated ∧
      (t.service.get (.seg x)).cause = some .test ∧ t.testOf (.seg x) = none := by
  obtain ⟨hstuck, -, hloop, -, segs, pool, records, h⟩ := stuckCounted_leaves x s
  obtain ⟨hsegs, hservice, hsweep, -, -, -, hheld', -⟩ := (segReport_stuckCounted hw hsum).fields
  have hv' : (segReport x .stuck (stuckCounted x s)).testOf (.seg x) = some v := by
    rw [State.testOf, hservice, h, ← hv]
    simp [State.testOf]
  have hreport : reportStuck x (stuckCounted x s) =
      entryFailedExternal (.seg x) (segReport x .stuck (stuckCounted x s)) := by
    rw [reportStuck, hloop, ← externalReport_entry hv' hp hph]
    exact if_pos hmode
  obtain ⟨work, hisolated, hcause, hnone⟩ := entryFailedExternal_spec (p := .seg x)
    (s := segReport x .stuck (stuckCounted x s)) (hheld'.trans (by rw [h]; simpa using hheld))
  refine ⟨_, ?_, ?_, hisolated, hcause, hnone⟩
  · rw [exec_stuck_counted ha hc hs hon, hreport]
    exact congrArg Host.Outcome.next
      (settleSweep_of_sweep hwait (work.sweep.trans (hsweep.trans (by rw [h]; simp))))
  · rw [work.stuck, hsegs]
    exact hstuck

/-! ### STUCK held and UNTERMINATED (R11, R12) -/

section
variable {x : Seg} {s : State} (ha : s.active = true) (hwait : s.resultWaits = false)
  (hw : s.window.running = true) (hs : s.serviceOf (.seg x) = .inService) (hheld : s.heldReply = none)
include ha hwait hw hs hheld

/-- A STUCK held isolates an IN-SERVICE segment with cause LINE. -/
theorem exec_stuckHeld (hstuck : (s.segs.get x).stuck = true)
    (htimer : (s.segs.get x).heldTimer.isSome = true) :
    ∃ t, exec (.stuckHeld x) s = .next t ∧ (t.segs.get x).heldTimer = none ∧
      t.serviceOf (.seg x) = .isolated ∧ (t.service.get (.seg x)).cause = some .line ∧
      t.queues.get (.seg x) = [] ∧ t.raised .portIsolated = true := by
  let u := bump (.faultPort (.seg x) .requestsLine)
    (modSeg x (fun t => { t with heldTimer := none, heldSent := true }) s)
  have hheld' : u.heldReply = none := by simpa [u] using hheld
  have record := service_enterIsolated (p := .seg x) (c := .line) hheld'
  have hreport : stuckHeld x s = enterIsolated (.seg x) .line u := by
    rw [stuckHeld, if_pos ⟨hstuck, htimer, by simp [hs]⟩]
    exact segReport_stuckHeld (by simpa using hw) hs
  refine ⟨enterIsolated (.seg x) .line u, ?_, ?_, ?_, ?_, queue_enterIsolated hheld',
    raised_enterIsolated hheld'⟩
  · refine congrArg Host.Outcome.next ?_
    rw [whenActive_of_active _ ha, hreport]
    exact settleSweep_of_sweep hwait ((atPort_enterIsolated hheld').sweep.trans (by simp [u]))
  · rw [segs_enterIsolated hheld']
    simp [u, SegPort.txIdle]
  · rw [State.serviceOf, record]; rfl
  · rw [record]; rfl

/-- REFL found high in an attempt isolates an IN-SERVICE segment with cause LINE. -/
theorem exec_unterminated (htx : (s.segs.get x).tx = .sending) (hl : (s.segs.get x).loop = .normal)
    (hseen : (s.segs.get x).untermSeen = false)
    (hsum : s.errorSum (.seg x) < s.config.segThreshold) :
    ∃ t, exec (.unterminated x) s = .next t ∧ t.serviceOf (.seg x) = .isolated ∧
      (t.service.get (.seg x)).cause = some .line ∧ t.queues.get (.seg x) = [] ∧
      (t.segs.get x).tx = .idle ∧
      t.count (.seg x .unterminated) = min Config.counterMax (s.count (.seg x .unterminated) + 1) := by
  let seen := bump (.seg x .unterminated) (modSeg x (fun t => { t with untermSeen := true }) s)
  let u := bump (.faultPort (.seg x) .requestsLine)
    { seen with segWin := seen.segWin.set x ((seen.segWin.get x).take .unterminated) }
  have hheld' : u.heldReply = none := by simpa [u, seen] using hheld
  have record := service_enterIsolated (p := .seg x) (c := .line) hheld'
  have work := atPort_enterIsolated (p := .seg x) (c := .line) hheld'
  obtain ⟨hsegs, hservice, hsweep, -, -, hqueues, -, hcount⟩ := (segReport_unterminated (s := seen)
    (by simpa [seen] using hw) (by simpa [seen, State.serviceOf] using hs) (by simpa [seen] using hheld)
    (by simpa [seen, State.errorSum] using hsum)).fields
  have hreport : unterminated x s = segReport x .unterminated seen := by
    rw [unterminated]
    dsimp only
    rw [if_pos ⟨htx, by simp [hl], hseen⟩, if_neg (by simp [hl])]
  refine ⟨segReport x .unterminated seen, ?_, ?_, ?_, ?_, ?_, ?_⟩
  · refine congrArg Host.Outcome.next ?_
    rw [whenActive_of_active _ ha, hreport]
    exact settleSweep_of_sweep hwait (hsweep.trans (work.sweep.trans (by simp [u, seen])))
  · rw [State.serviceOf, hservice, record]; rfl
  · rw [hservice, record]; rfl
  · rw [hqueues]
    exact queue_enterIsolated hheld'
  · rw [hsegs, segs_enterIsolated hheld']
    simp [SegPort.txIdle]
  · rw [hcount _ (by simp), work.count _ rfl (by simp), count_bump_other (by simp)]
    show seen.count _ = _
    rw [count_bump, if_pos rfl]
    rfl

end

/-- One UNTERMINATED for each attempt. -/
theorem exec_unterminated_seen {x : Seg} {s : State} (hwait : s.resultWaits = false)
    (hseen : (s.segs.get x).untermSeen = true) : exec (.unterminated x) s = .next s := by
  have same : unterminated x s = s := if_neg (by simp [hseen])
  refine congrArg Host.Outcome.next ?_
  rw [whenActive, same, settleSweep_of_none hwait]
  exact ite_self s

/-- Settles O12. -/
theorem stuckAndUnterminatedAreReported : Obligations.StuckAndUnterminatedAreReported := by
  refine ⟨fun x s ha hwait hc hs hrun => ⟨exec_stuck_reported ha hwait hc hs hrun,
    fun v hmode htesting hheld hv hp hph => ?_⟩, fun x s ha hwait hw hs hheld =>
    ⟨exec_stuckHeld ha hwait hw hs hheld, exec_unterminated ha hwait hw hs hheld,
      exec_unterminated_seen hwait⟩⟩
  have hon : s.serviceOf (.seg x) ≠ .off := by simp [htesting]
  obtain ⟨hw, hsum⟩ := hrun.resolve_left hon
  exact exec_stuck_entry ha hwait hc hs hw hsum hmode hon hheld hv hp hph

end Sys2Proof.Machine

/-! CLEAR-ALL at the ports: each is purged, and one that is not OFF begins its entry test. -/

namespace Sys2Proof.Machine

/-! ### Loop modes and tests leave the queues -/

theorem queues_of_released {s t : State} (h : Released s t) : t.queues = s.queues := by
  obtain ⟨pool, records, rfl⟩ := h
  rfl

theorem queues_emptySlot (p : Port) (s : State) : (emptySlot p s).queues = s.queues := by
  obtain ⟨_, ⟨pool, records, rfl⟩, h⟩ := emptySlot_eq p s
  rw [h]

theorem queues_abortTx (p : Port) (s : State) : (abortTx p s).queues = s.queues := by
  have released := queues_of_released (released_releaseInFlight p s)
  cases p <;> exact released

theorem queues_setLoopMode (p : Port) (m : LoopMode) (s : State) :
    (setLoopMode p m s).queues = s.queues := by
  have aborted : (if s.inFlight p = some .test then emptySlot p (abortTx p s) else s).queues = s.queues := by
    split
    · rw [queues_emptySlot, queues_abortTx]
    · rfl
  unfold setLoopMode
  split
  · rfl
  · cases p with
    | seg x =>
      dsimp only [modSeg_queues]
      unfold abandonSeg
      split <;> simpa [dropRecord] using aborted
    | link l =>
      dsimp only [modLink_queues]
      unfold abandonLink
      split <;> simpa [dropRecord] using aborted

/-- Placing a TEST frame leaves the queue of its port, where that takes nothing. -/
theorem queue_placeTest {p : Port} {s : State} (h : s.unreachable p) :
    (placeTest p s).queues.get p = s.queues.get p := by
  unfold placeTest
  split
  · rfl
  · next t _ =>
    split
    · rfl
    · split
      · rfl
      · have made := (keepsQueues_ownRecord (s.testFrame p t) s).2 p h
        split
        · next e =>
          rw [e] at made
          simpa [modTest] using made
        · next e =>
          rw [e] at made
          exact made

theorem AtPort.ready {p : Port} {s t : State} (h : AtPort p s t) (q : Port) : t.ready q = s.ready q := by
  cases q with
  | seg x => rfl
  | link l => exact congrArg (fun v => decide (v = LinkLine.connected)) (h.line l)

/-! ### An entry test begins (R164) -/

/-- The test that begins has its purpose and its phase; the port's service state stands. -/
theorem beginTest_leaves (p : Port) (why : TestPurpose) (ph : TestPhase) (s : State) :
    (beginTest p why ph s).serviceOf p = s.serviceOf p ∧
      ∃ v, (beginTest p why ph s).testOf p = some v ∧ v.purpose = why ∧ v.phase = ph := by
  let begun := modTest p (fun t => { t with phase := ph, sequence := 1, timer := none, wait := .none })
    (modService p (fun v => { v with
      testNumber := v.testNumber + 1, test := some ⟨why, ph, 1, none, .none⟩ }) s)
  obtain ⟨u, slots, f, hsame, hf, h⟩ := placeTest_eq p (setLoopMode p ph.mode begun)
  have hservice : u.service = begun.service := by
    obtain ⟨_, _, _, _, _, _, _, _, _, _, _, _, _, _, _, _, _, _, _, _, _, service, _⟩ :=
      sameButFrames_fields hsame
    rw [service, service_setLoopMode]
  have e : beginTest p why ph s = modTest p f { u with slots := slots } := h
  obtain ⟨hwhy, hph⟩ := hf ⟨why, ph, 1, none, .none⟩
  rw [e]
  refine ⟨by simp [State.serviceOf, modTest, hservice, begun], f ⟨why, ph, 1, none, .none⟩, ?_, hwhy, hph⟩
  simp [State.testOf, modTest, hservice, begun]

theorem queue_beginTest {p : Port} {why : TestPurpose} {ph : TestPhase} {s : State} (h : s.unreachable p) :
    (beginTest p why ph s).queues.get p = s.queues.get p := by
  unfold beginTest startPhase
  rw [queue_placeTest, queues_setLoopMode]
  · rfl
  · simpa [State.unreachable, State.serviceOf, service_setLoopMode, modTest] using h

section
variable {p : Port} {s : State} (h : s.heldReply = none)
include h

theorem enterTesting_eq : ∃ u, AtPort p s u ∧ u.serviceOf p = .testing ∧ u.queues = s.queues ∧
    enterTesting p s = beginTest p .entry (if s.ready p then .internal else .waitConnect) u := by
  let u := modService p (fun v => { v with state := .testing }) (stopHold p s)
  have work : AtPort p s u := (atPort_modService p _ s).trans (atPort_modService p _ _)
  have hset : setService p .testing (stopHold p s) = u := setService_of_none h
  refine ⟨u, work, by simp [u, State.serviceOf], rfl, ?_⟩
  rw [enterTesting, hset, beginEntry, work.ready]

theorem atPort_enterTesting : AtPort p s (enterTesting p s) := by
  obtain ⟨u, work, -, -, e⟩ := enterTesting_eq (p := p) h
  rw [e]
  exact work.trans (atPort_beginTest p _ _ u)

theorem enterTesting_leaves : (enterTesting p s).serviceOf p = .testing ∧
    (enterTesting p s).entryTest p (if s.ready p then .internal else .waitConnect) ∧
    (enterTesting p s).queues.get p = s.queues.get p := by
  obtain ⟨u, -, htesting, hqueues, e⟩ := enterTesting_eq (p := p) h
  obtain ⟨hservice, htest⟩ := beginTest_leaves p .entry (if s.ready p then .internal else .waitConnect) u
  rw [e]
  refine ⟨hservice.trans htesting, htest, ?_⟩
  rw [queue_beginTest (by simp [State.unreachable, htesting]), hqueues]

end

/-! ### CLEAR-ALL at one port (R17, R32, R174) -/

/-- A port purged for CLEAR-ALL, its test cut off and its record back at the start values. -/
def clearRecord (p : Port) (s : State) : State :=
  modService p (fun v => { v with holdTime := 5, failedTests := 0, cause := none, restoreDue := false })
    (purgePort p .clearAll (if (s.testOf p).isSome then endTest p s else s))

theorem clearService_eq (p : Port) (s : State) : clearService p s =
    if (clearRecord p s).serviceOf p = .off then stopHold p (clearRecord p s)
    else enterTesting p (clearRecord p s) := rfl

theorem atPort_clearRecord (p : Port) (s : State) : AtPort p s (clearRecord p s) := by
  refine AtPort.trans ?_ ((atPort_purgePort p .clearAll _).trans (atPort_modService p _ _))
  split
  · exact atPort_endTest p s
  · exact atPort_refl p s

theorem clearRecord_leaves (p : Port) (s : State) :
    (clearRecord p s).serviceOf p = s.serviceOf p ∧ (clearRecord p s).queues.get p = [] := by
  refine ⟨?_, by simp [clearRecord, (purgePort_leaves p _ _).1]⟩
  simp only [State.serviceOf, clearRecord, modService_service, PerPort.get_set, if_true, service_purgePort]
  split
  · simp [service_endTest]
  · rfl

/-- From `s` to `t` CLEAR-ALL has emptied a port's queue, and a port that is not OFF has begun its entry
test. -/
structure PortCleared (p : Port) (s t : State) : Prop where
  queue : t.queues.get p = []
  testing : s.serviceOf p ≠ .off →
    t.serviceOf p = .testing ∧ t.entryTest p (if s.ready p then .internal else .waitConnect)
  off : s.serviceOf p = .off → t.serviceOf p = .off

theorem PortCleared.unreachable {p : Port} {s t : State} (h : PortCleared p s t) : t.unreachable p := by
  by_cases hoff : s.serviceOf p = .off
  · simp [State.unreachable, h.off hoff]
  · simp [State.unreachable, (h.testing hoff).1]

/-- Work without the receiver is that work at a state, and gives a state, that differ from those around them
by the receiver alone. -/
theorem keepReceiver_around (p : Port) (f : State → State) (s : State) : ∃ u, AtPort p s u ∧
    u.service = s.service ∧ AtPort p (f u) (keepReceiver p f s) ∧
    (keepReceiver p f s).service = (f u).service ∧ (keepReceiver p f s).queues = (f u).queues := by
  cases p with
  | seg x =>
    unfold keepReceiver
    dsimp only
    split
    · exact ⟨s, atPort_refl _ s, rfl, atPort_refl _ _, rfl, rfl⟩
    · exact ⟨_, atPort_modSeg x (f := fun t => { t with rx := .idle }) s fun _ => rfl, rfl,
        atPort_modSeg x _ fun _ => rfl, rfl, rfl⟩
  | link l =>
    unfold keepReceiver
    dsimp only
    split
    · exact ⟨s, atPort_refl _ s, rfl, atPort_refl _ _, rfl, rfl⟩
    · exact ⟨_, atPort_modLink l (f := fun t => { t with rx := .idle }) s fun _ => rfl, rfl,
        atPort_modLink l _ fun _ => rfl, rfl, rfl⟩

section
variable {p : Port} {s : State} (h : s.heldReply = none)
include h

theorem atPort_clearService : AtPort p s (clearService p s) := by
  have work := atPort_clearRecord p s
  rw [clearService_eq]
  split
  · exact work.trans (atPort_modService p _ _)
  · exact work.trans (atPort_enterTesting (work.heldReply.trans h))

theorem portCleared_clearService : PortCleared p s (clearService p s) := by
  have work := atPort_clearRecord p s
  obtain ⟨hservice, hempty⟩ := clearRecord_leaves p s
  rw [clearService_eq, hservice]
  split
  · next hoff =>
    have hstill : (stopHold p (clearRecord p s)).serviceOf p = (clearRecord p s).serviceOf p := by
      simp [stopHold, State.serviceOf]
    exact ⟨hempty, fun hon => absurd hoff hon, fun _ => hstill.trans (hservice.trans hoff)⟩
  · next hon =>
    obtain ⟨htesting, htest, hqueue⟩ := enterTesting_leaves (p := p) (work.heldReply.trans h)
    rw [work.ready] at htest
    exact ⟨hqueue.trans hempty, fun _ => ⟨htesting, htest⟩, fun hoff => absurd hoff hon⟩

theorem atPort_clearPort : AtPort p s (clearPort p s) := by
  obtain ⟨u, aside, -, back, -, -⟩ := keepReceiver_around p (clearService p) s
  exact aside.trans ((atPort_clearService (aside.heldReply.trans h)).trans back)

theorem portCleared_clearPort : PortCleared p s (clearPort p s) := by
  obtain ⟨u, aside, hu, -, hservice, hqueues⟩ := keepReceiver_around p (clearService p) s
  have hserviceOf : u.serviceOf p = s.serviceOf p := by rw [State.serviceOf, hu, State.serviceOf]
  have cleared := portCleared_clearService (p := p) (aside.heldReply.trans h)
  refine ⟨(congrArg (PerPort.get · p) hqueues).trans cleared.queue, fun hon => ?_, fun hoff => ?_⟩
  · rw [← aside.ready p, State.serviceOf, State.entryTest, State.testOf, clearPort, hservice]
    exact cleared.testing (by rwa [hserviceOf])
  · rw [State.serviceOf, clearPort, hservice]
    exact cleared.off (hserviceOf.trans hoff)

end

/-! ### CLEAR-ALL at every port -/

/-- From `s` to `t` CLEAR-ALL has been at a list of ports. -/
structure PortsCleared (ps : List Port) (s t : State) : Prop where
  rest : t.bare = s.bare
  ports : ∀ p ∈ ps, PortCleared p s t
  others : ∀ p ∉ ps, t.service.get p = s.service.get p ∧ (s.unreachable p → t.queues.get p = s.queues.get p)
  segRx : ∀ x, (s.segs.get x).rx.own = false → (t.segs.get x).rx = (s.segs.get x).rx
  linkRx : ∀ l, (s.links.get l).rx.own = false → (t.links.get l).rx = (s.links.get l).rx
  count : ∀ c : Counter, c.noticed = false → (∀ p k, c ≠ .service p k) → t.count c = s.count c

theorem clearPort_segRx {p : Port} {s : State} (h : s.heldReply = none) {x : Seg}
    (hx : (s.segs.get x).rx.own = false) : ((clearPort p s).segs.get x).rx = (s.segs.get x).rx := by
  by_cases hp : .seg x = p
  · subst hp
    exact keepReceiver_seg _ hx
  · rw [(atPort_clearPort h).seg x hp]

theorem clearPort_linkRx {p : Port} {s : State} (h : s.heldReply = none) {l : Link}
    (hl : (s.links.get l).rx.own = false) : ((clearPort p s).links.get l).rx = (s.links.get l).rx := by
  by_cases hp : .link l = p
  · subst hp
    exact keepReceiver_link _ hl
  · rw [(atPort_clearPort h).link l hp]

theorem portsCleared_foldl : ∀ (ps : List Port) {s : State}, ps.Nodup → s.heldReply = none →
    PortsCleared ps s (ps.foldl (fun s p => clearPort p s) s)
  | [], s, _, _ => ⟨rfl, by simp, fun _ _ => ⟨rfl, fun _ => rfl⟩, fun _ _ => rfl, fun _ _ => rfl,
      fun _ _ _ => rfl⟩
  | p :: ps, s, hnodup, h => by
    obtain ⟨hp, hps⟩ := List.nodup_cons.1 hnodup
    have first := atPort_clearPort (p := p) h
    have cleared := portCleared_clearPort (p := p) h
    have later := portsCleared_foldl ps hps (first.heldReply.trans h)
    refine ⟨later.rest.trans first.rest, fun q hq => ?_, fun q hq => ?_, fun x hx => ?_, fun l hl => ?_,
      fun c hc hs => (later.count c hc hs).trans (first.count c hc (hs p))⟩
    · by_cases hqp : q = p
      · subst hqp
        obtain ⟨hservice, hqueue⟩ := later.others q hp
        have htest : ∀ ph, (clearPort q s).entryTest q ph →
            State.entryTest (ps.foldl (fun s p => clearPort p s) (clearPort q s)) q ph := fun ph hph => by
          simpa only [State.entryTest, State.testOf, hservice] using hph
        refine ⟨(hqueue cleared.unreachable).trans cleared.queue, fun hon => ?_, fun hoff => ?_⟩
        · obtain ⟨htesting, hentry⟩ := cleared.testing hon
          exact ⟨(congrArg PortService.state hservice).trans htesting, htest _ hentry⟩
        · exact (congrArg PortService.state hservice).trans (cleared.off hoff)
      · have there := later.ports q ((List.mem_cons.1 hq).resolve_left hqp)
        have hservice : (clearPort p s).serviceOf q = s.serviceOf q :=
          congrArg PortService.state (first.service q hqp)
        refine ⟨there.queue, fun hon => ?_, fun hoff => there.off (hservice.trans hoff)⟩
        rw [← first.ready q]
        exact there.testing (by rwa [hservice])
    · obtain ⟨hqp, hqps⟩ := List.ne_and_not_mem_of_not_mem_cons hq
      obtain ⟨hservice, hqueue⟩ := later.others q hqps
      exact ⟨hservice.trans (first.service q hqp), fun hun =>
        (hqueue (first.unreachable hqp hun)).trans (first.queue q hqp hun)⟩
    · have kept := clearPort_segRx (p := p) h hx
      exact (later.segRx x (by rwa [kept])).trans kept
    · have kept := clearPort_linkRx (p := p) h hl
      exact (later.linkRx l (by rwa [kept])).trans kept

theorem mem_allPorts (p : Port) : p ∈ Port.all := by
  cases p with
  | seg x => cases x <;> decide
  | link l => cases l <;> decide

end Sys2Proof.Machine

/-! CLEAR-ALL and requests that cannot be read. -/

namespace Sys2Proof.Machine

/-! ### CLEAR-ALL at the tables (R78, R121, R144, R185) -/

theorem removeEntry_of_ne {i : Nat} (h : i ≠ 0) (s : State) : removeEntry i s = { s with
    dir := s.dir.drop i, queues := s.queues.map fun es => es.map (QueueEntry.forget i) } :=
  if_neg h

/-- Entries removed at a list of positions, none of them 0. -/
theorem removeEach_eq : ∀ (is : List Nat) (s : State), (∀ i ∈ is, i ≠ 0) → ∃ queues,
    atEach removeEntry is s = { s with dir := s.dir.filter fun e => e.1 ∉ is, queues := queues }
  | [], s, _ => ⟨s.queues, by simp [atEach]⟩
  | i :: is, s, h => by
    obtain ⟨queues, later⟩ := removeEach_eq is (removeEntry i s) fun j hj => h j (List.mem_cons_of_mem i hj)
    refine ⟨queues, later.trans ?_⟩
    rw [removeEntry_of_ne (h i List.mem_cons_self)]
    simp [Table.drop, List.filter_filter, Bool.and_comm]

/-- The one entry at position 0 of a table whose keys rise. -/
theorem filter_zero_of_rising {α : Type} {v : α} : ∀ {t : Table Nat α}, t.rising → t.find 0 = some v →
    t.filter (fun e => e.1 = 0) = [(0, v)]
  | [], _, h => by cases h
  | (k, w) :: t, hrise, h => by
    obtain ⟨habove, -⟩ := List.pairwise_cons.1 hrise
    have hk : k = 0 := by
      by_contra hk
      rw [Table.find, if_neg hk] at h
      have := habove _ (Table.mem_of_find h)
      omega
    subst hk
    have hv : w = v := by simpa [Table.find] using h
    have hnone : t.filter (fun e => e.1 = 0) = [] := List.filter_eq_nil_iff.2 fun e he => by
      have := habove e he
      simp only [decide_eq_true_eq]
      omega
    simp [hv, hnone]

/-- Only the bridge's entry is left (R78). -/
theorem clearDirectory_eq {s : State} (h : s.directoryOk) : ∃ queues,
    clearDirectory s = { s with dir := [(0, .bridgeEntry)], queues := queues } := by
  obtain ⟨hrise, hbridge, -⟩ := h
  obtain ⟨queues, removed⟩ := removeEach_eq (s.indices.filter (· ≠ 0)) s (by simp)
  refine ⟨queues, removed.trans ?_⟩
  have hkept : s.dir.filter (fun e => e.1 ∉ s.indices.filter (· ≠ 0)) = s.dir.filter (fun e => e.1 = 0) := by
    refine List.filter_congr fun e he => ?_
    have hmem : e.1 ∈ s.indices := List.mem_map_of_mem he
    simp [hmem]
  rw [hkept, filter_zero_of_rising hrise hbridge]

/-- The INIT pulse at a line that serves no job changes that line alone (R136). -/
theorem startInit_of_no_job {n : Line} {s : State} (h : (s.lines.get n).job = none) :
    startInit n s = { s with lines := s.lines.set n (s.lines.get n).pulsing } := by
  have hidle : (({ s with lines := s.lines.set n (s.lines.get n).pulsing } : State).lines.get n).job = none := by
    simpa [LineState.pulsing] using h
  have pulse : startInit n s =
      lineJobState n .stalled { s with lines := s.lines.set n (s.lines.get n).pulsing } := rfl
  rw [pulse, lineJobState, modLineJob, hidle]

/-- CLEAR-ALL at a line whose jobs are gone: the line is cleared, and nothing else changes. -/
theorem clearLine_eq (n : Line) (s : State) :
    clearLine n s = { s with lines := s.lines.set n (s.lines.get n).cleared } := by
  have hlines := clearLine_lines n s
  have hrest : clearLine n s = { s with lines := (clearLine n s).lines } := by
    unfold clearLine
    dsimp only
    split
    · rfl
    · rw [startInit_of_no_job (by simp)]
      rfl
  rw [hrest, hlines]

/-- A state with its directory, jobs, lines, sweep list and unknown log cleared. -/
def State.tablesCleared (s : State) (queues : PerPort (List QueueEntry)) : State :=
  { clearSweep (clearJobs s) with
    dir := [(0, .bridgeEntry)], queues := queues, unknownLog := []
    lines := (s.lines.set .lp1 (s.lines.get .lp1).cleared).set .lp2 (s.lines.get .lp2).cleared }

theorem clearBlocks_eq {s : State} (h : s.directoryOk) : ∃ queues, clearBlocks s =
    clearFlags (beginWindow (Port.all.foldl (fun s p => clearPort p s) (s.tablesCleared queues))) := by
  obtain ⟨queues, hdir⟩ := clearDirectory_eq h
  refine ⟨queues, ?_⟩
  unfold clearBlocks
  dsimp only
  rw [hdir, clearLine_eq, clearLine_eq]
  rfl

/-! ### The state after CLEAR-ALL (R196) -/

/-- From `s` to `t` every table is cleared, a window has begun and every port has met CLEAR-ALL. -/
structure AllCleared (s t : State) : Prop where
  tables : t.jobs = [] ∧ t.unknownLog = [] ∧ t.sweep.steps = [] ∧ t.sweep.run = none ∧
    t.dir = [(0, .bridgeEntry)]
  window : t.windowBegun
  kept : t.config = s.config ∧ t.mask = s.mask ∧ t.serial = s.serial ∧ t.requests = s.requests
  lines : ∀ n, t.lines.get n = (s.lines.get n).cleared
  ports : ∀ p, PortCleared p s t
  segRx : ∀ x, (s.segs.get x).rx.own = false → (t.segs.get x).rx = (s.segs.get x).rx
  linkRx : ∀ l, (s.links.get l).rx.own = false → (t.links.get l).rx = (s.links.get l).rx

/-- The frames the part makes after it find no queue that takes them. -/
theorem AllCleared.of_frames {s t w : State} (h : AllCleared s t) (hsame : sameButFrames t w)
    (hqueues : keepsQueues t w) : AllCleared s w := by
  obtain ⟨-, -, -, -, -, -, hserial, hsegs, hlinks, -, -, hdir, -, hlog, hjobs, -, hlines, hwindow, hsegWin,
    hlinkWin, hmarks, hservice, hsweep, hrequests, -, -, -, hconfig, hmask, -⟩ := sameButFrames_fields hsame
  refine ⟨?_, ?_, ?_, ?_, fun p => ⟨?_, ?_, ?_⟩, ?_, ?_⟩
  · rw [hjobs, hlog, hsweep, hdir]
    exact h.tables
  · simpa only [State.windowBegun, hwindow, hsegWin, hlinkWin, hmarks, hconfig] using h.window
  · rw [hconfig, hmask, hserial, hrequests]
    exact h.kept
  · rw [hlines]
    exact h.lines
  · exact (hqueues.2 p (h.ports p).unreachable).trans (h.ports p).queue
  · simpa only [State.serviceOf, State.entryTest, State.testOf, hservice] using (h.ports p).testing
  · simpa only [State.serviceOf, hservice] using (h.ports p).off
  · rw [hsegs]
    exact h.segRx
  · rw [hlinks]
    exact h.linkRx

theorem AllCleared.withReply {s t : State} (h : AllCleared s t) (reply : Option Request) :
    AllCleared s { t with heldReply := reply } :=
  ⟨h.tables, h.window, h.kept, h.lines, fun p => ⟨(h.ports p).queue, (h.ports p).testing, (h.ports p).off⟩,
    h.segRx, h.linkRx⟩

/-- A reply held before is lost and counted; nothing else changes. -/
theorem loseHeld_eq (s : State) : ∃ counters, loseHeld s = { s with heldReply := none, counters := counters } ∧
    (∀ c, c ≠ .mgmt .replyLost → (loseHeld s).count c = s.count c) ∧
    (s.heldReply = none → (loseHeld s).count (.mgmt .replyLost) = s.count (.mgmt .replyLost)) ∧
    (s.heldReply ≠ none → countedUp (.mgmt .replyLost) 1 s (loseHeld s)) := by
  unfold loseHeld
  split
  · next held =>
    refine ⟨_, rfl, fun c hc => count_bump_other hc.symm _, fun h => by simp [h] at held, fun _ => ?_⟩
    rw [countedUp, count_bump, if_pos rfl]
    rfl
  · next held =>
    have hnone : s.heldReply = none := by simpa using held
    refine ⟨s.counters, by rw [← hnone], fun _ _ => rfl, fun _ => rfl, fun h => absurd hnone h⟩

/-- What CLEAR-ALL does at every block, where no reply is held. -/
theorem clearBlocks_spec {s : State} (h : s.directoryOk) (hheld : s.heldReply = none) :
    AllCleared s (clearBlocks s) ∧ (clearBlocks s).heldReply = none ∧
      (clearBlocks s).flags = 0 ∧ (clearBlocks s).noticeOut = false ∧
      ∀ c : Counter, c.noticed = false → (∀ p k, c ≠ .service p k) → (clearBlocks s).count c = s.count c := by
  obtain ⟨queues, e⟩ := clearBlocks_eq h
  have cleared := portsCleared_foldl Port.all (s := s.tablesCleared queues) (by decide) hheld
  rw [e]
  generalize Port.all.foldl (fun s p => clearPort p s) (s.tablesCleared queues) = t at cleared
  have field : ∀ {α : Type} (f : State → α), f t.bare = f (s.tablesCleared queues).bare :=
    fun f => congrArg f cleared.rest
  refine ⟨⟨⟨field State.jobs, field State.unknownLog, field fun u => u.sweep.steps, field fun u => u.sweep.run,
      field State.dir⟩, ⟨rfl, ?_, ?_, ?_⟩, ⟨field State.config, field State.mask, field State.serial,
      field State.requests⟩, fun n => ?_, fun p => ?_, cleared.segRx, cleared.linkRx⟩,
    (field State.heldReply).trans hheld, rfl, rfl, cleared.count⟩
  · simp
  · simp
  · simp
  · have hlines : t.lines = (s.tablesCleared queues).lines := field State.lines
    show t.lines.get n = _
    rw [hlines]
    cases n <;> rfl
  · have there := cleared.ports p (mem_allPorts p)
    exact ⟨there.queue, there.testing, there.off⟩

theorem AllCleared.of_loseHeld {s t : State} (h : AllCleared (loseHeld s) t) : AllCleared s t := by
  obtain ⟨counters, e, -⟩ := loseHeld_eq s
  rw [e] at h
  exact ⟨h.tables, h.window, h.kept, h.lines,
    fun p => ⟨(h.ports p).queue, (h.ports p).testing, (h.ports p).off⟩, h.segRx, h.linkRx⟩

/-! ### A reply that no queue takes (R188, R196) -/

section
variable {s : State} (h : s.dir = [(0, .bridgeEntry)])
include h

/-- Where the bridge alone has an entry, no frame made for a station has a route. -/
theorem route_of_bridge_alone (k : Key) : s.route k = none := by
  have bridge : ∀ {i e}, s.dir.find? (fun e => e.2.holds k) = some (i, e) → e = .bridgeEntry := fun hfind => by
    have hmem := List.mem_of_find?_eq_some hfind
    rw [h] at hmem
    exact (Prod.mk.inj (List.mem_singleton.1 hmem)).2
  unfold State.route State.lookup
  split
  · next i e hfind =>
    have hentry : e = .bridgeEntry := by
      split at hfind
      · exact bridge hfind
      · exact bridge hfind
      · cases hfind
    rw [hentry]
    rfl
  · rfl

theorem noticeOut_raise (f : Flag) : (raise f s).noticeOut = s.noticeOut := by
  have made : (makeNoticeWith raiseLowInNotice (setFlag f s)).noticeOut = s.noticeOut := by
    unfold makeNoticeWith
    split
    · rfl
    · rw [route_of_bridge_alone (s := setFlag f s) h]
      simp
  unfold raise raiseWith becomeCounting
  dsimp only
  split
  · rfl
  · split
    · split
      · rfl
      · exact made
    · rfl

theorem noticeOut_ownRecord (bs : List Byte) : (ownRecord bs s).2.noticeOut = s.noticeOut := by
  unfold ownRecord ownRecordWith
  dsimp only
  split
  · simp
  · dsimp only
    split
    · exact noticeOut_raise (s := newRecord _ bs s) h _
    · rfl

end

theorem noticeOut_offer (p : Port) (e : QueueEntry) (s : State) : (offer p e s).2.noticeOut = s.noticeOut := by
  unfold offer
  split <;> simp

theorem sendOwn_of_no_record {p : Port} {d : Key} {k : Byte} {bs : List Byte} {s w : State}
    (h : ownRecord bs s = (none, w)) : sendOwn p d k bs s = (.noRecord, w) := by
  rw [ownRecord] at h
  rw [sendOwn, sendOwnWith, h]

theorem sendOwn_of_record {p : Port} {d : Key} {k : Byte} {bs : List Byte} {s w : State} {r : Nat}
    (h : ownRecord bs s = (some r, w)) :
    let offered := offer p (ownEntry p d k bs.length r) w
    sendOwn p d k bs s = (if offered.1 then .joined else .refused, releaseRef r offered.2) := by
  intro offered
  rw [ownRecord] at h
  rw [sendOwn, sendOwnWith, h]
  dsimp only
  split <;> next e => simp [offered, e]

theorem noticeOut_sendOwn {s : State} (h : s.dir = [(0, .bridgeEntry)]) (p : Port) (d : Key) (k : Byte)
    (bs : List Byte) : (sendOwn p d k bs s).2.noticeOut = s.noticeOut := by
  have made := noticeOut_ownRecord h bs
  rcases e : ownRecord bs s with ⟨_ | r, w⟩ <;> rw [e] at made
  · rw [sendOwn_of_no_record e]
    exact made
  · rw [sendOwn_of_record e]
    simpa [noticeOut_offer] using made

/-- An unreachable port's queue takes no frame the part makes. -/
theorem sendOwn_unreachable {p : Port} {s : State} (h : s.unreachable p) (d : Key) (k : Byte)
    (bs : List Byte) : (sendOwn p d k bs s).1 ≠ .joined := by
  have made := (keepsQueues_ownRecord bs s).1
  rcases e : ownRecord bs s with ⟨_ | r, w⟩ <;> rw [e] at made
  · rw [sendOwn_of_no_record e]
    simp
  · have refused : (offer p (ownEntry p d k bs.length r) w).1 = false := by
      rw [offer, judgeOffer_unreachable _ ((unreachable_of_service made p).2 h)]
    rw [sendOwn_of_record e]
    simp [refused]

theorem sendReply_unreachable {q : Request} {s : State} (h : s.unreachable q.port) :
    sendReply q .done [] s =
      bump (.mgmt .replyLost) (sendOwn q.port q.source kindMgmtReply (replyPayload q .done []) s).2 := by
  have hlost := sendOwn_unreachable h q.source kindMgmtReply (replyPayload q .done [])
  have hstatus : countStatus .done s = s := rfl
  rw [sendReply, hstatus]
  split
  · next e =>
    rw [e] at hlost
    exact absurd rfl hlost
  · next e => rw [e]

/-- The flags that a frame the part makes may raise (R39). -/
theorem gainsFlags_sendOwn (p : Port) (d : Key) (k : Byte) (bs : List Byte) (s : State) :
    gainsFlags (· = .poolLow) s (sendOwn p d k bs s).2 :=
  gainsFlags_sendOwnWith (fun s => gainsFlags_mono (fun _ h => h.elim id id) (gainsFlags_raise .poolLow s))
    p d k bs s

/-! ### CLEAR-ALL and malformed requests (R187, R196) -/

theorem exec_clearAll {s : State} {q : Request} {rest : List Request} (h : s.headIs q rest .clearAll) :
    exec .clearAll s = .next (endCurrent (clearAll q (becomeCurrent q rest s))) := by
  obtain ⟨hactive, hrequests, hread, hsave⟩ := h
  have hsave' : s.save = none := hsave.resolve_right (by simp [Call.isRead])
  refine congrArg Host.Outcome.next ?_
  rw [whenActive_of_active _ hactive]
  simp [takeCall, hrequests, hread, becomeCurrent, hsave']

theorem AllCleared.serviceOf_off {s t : State} (h : AllCleared s t) (p : Port) :
    t.serviceOf p = .off ↔ s.serviceOf p = .off := by
  refine ⟨fun hoff => ?_, (h.ports p).off⟩
  by_contra hon
  rw [((h.ports p).testing hon).1] at hoff
  cases hoff

/-- CLEAR-ALL's own reply is judged after the rest of its work. -/
theorem clearAll_eq (q : Request) (s : State) : clearAll q s =
    if (clearBlocks (loseHeld s)).serviceOf q.port = .off then sendReply q .done [] (clearBlocks (loseHeld s))
    else { clearBlocks (loseHeld s) with heldReply := some q } := rfl

/-- What CLEAR-ALL does before its own reply. -/
theorem clearBlocks_loseHeld {s : State} (h : s.directoryOk) :
    let t := clearBlocks (loseHeld s)
    AllCleared s t ∧ t.heldReply = none ∧ t.flags = 0 ∧ t.noticeOut = false ∧
      ∀ c : Counter, c.noticed = false → (∀ p k, c ≠ .service p k) → t.count c = (loseHeld s).count c := by
  intro t
  obtain ⟨counters, e, -⟩ := loseHeld_eq s
  obtain ⟨cleared, later⟩ := clearBlocks_spec (s := loseHeld s) (by rw [e]; exact h) (by rw [e])
  exact ⟨cleared.of_loseHeld, later⟩

/-- A CLEAR-ALL whose arrival port is not OFF holds its reply. -/
theorem clearAll_held {s : State} {q : Request} (h : s.directoryOk) (hon : s.serviceOf q.port ≠ .off) :
    let t := clearAll q s
    AllCleared s t ∧ t.noticeOut = false ∧ t.heldReply = some q ∧ t.flags = 0 ∧
      t.count (.mgmt .replyLost) = (loseHeld s).count (.mgmt .replyLost) := by
  obtain ⟨cleared, -, hflags, hnotice, hcount⟩ := clearBlocks_loseHeld h
  rw [clearAll_eq]
  generalize clearBlocks (loseHeld s) = t at cleared hflags hnotice hcount
  rw [if_neg (mt (cleared.serviceOf_off q.port).1 hon)]
  exact ⟨cleared.withReply _, hnotice, rfl, hflags, hcount _ rfl (by simp)⟩

/-- A CLEAR-ALL whose arrival port is OFF loses its reply. -/
theorem clearAll_lost {s : State} {q : Request} (h : s.directoryOk) (hoff : s.serviceOf q.port = .off) :
    let t := clearAll q s
    AllCleared s t ∧ t.noticeOut = false ∧ t.heldReply = none ∧
      (∀ f, f ≠ .poolLow → t.raised f = false) ∧
      t.count (.mgmt .repliesSent) = s.count (.mgmt .repliesSent) ∧
      countedUp (.mgmt .replyLost) 1 (loseHeld s) t := by
  obtain ⟨cleared, hheld, hflags, hnotice, hcount⟩ := clearBlocks_loseHeld h
  obtain ⟨-, -, hlost, -⟩ := loseHeld_eq s
  rw [clearAll_eq]
  generalize clearBlocks (loseHeld s) = t at cleared hheld hflags hnotice hcount
  let made := (sendOwn q.port q.source kindMgmtReply (replyPayload q .done []) t).2
  have e : sendReply q .done [] t = bump (.mgmt .replyLost) made :=
    sendReply_unreachable (cleared.ports q.port).unreachable
  have hsame : sameButFrames t made := sendOwn_same ..
  have hcleared : AllCleared s made := cleared.of_frames hsame (keepsQueues_sendOwn ..)
  have hreply : made.heldReply = none := by
    obtain ⟨_, _, _, _, _, _, _, _, _, _, _, _, _, _, _, _, _, _, _, _, _, _, _, _, _, _, heldReply, _⟩ :=
      sameButFrames_fields hsame
    exact heldReply.trans hheld
  rw [if_pos ((cleared.serviceOf_off q.port).2 hoff), e]
  refine ⟨hcleared.of_frames (bump_same _ _) (keepsQueues_of_eq (by simp) (by simp)), ?_, by simpa using hreply,
    fun f hf => ?_, ?_, ?_⟩
  · rw [bump_noticeOut]
    exact (noticeOut_sendOwn cleared.tables.2.2.2.2 ..).trans hnotice
  · have hgain := (gainsFlags_sendOwn q.port q.source kindMgmtReply (replyPayload q .done []) t f).2
    have hnone : t.raised f = false := by simp [State.raised, hflags]
    have hmade : made.raised f = false := by
      by_contra hraised
      rcases hgain (by simpa using hraised) with hraised | hlow
      · simp [hnone] at hraised
      · exact hf hlow
    simpa [State.raised] using hmade
  · rw [count_bump_other (by simp)]
    exact (count_sendOwn rfl ..).trans ((hcount _ rfl (by simp)).trans (hlost _ (by simp)))
  · rw [countedUp, count_bump, if_pos rfl]
    exact congrArg (fun n => min Config.counterMax (n + 1))
      ((count_sendOwn rfl ..).trans (hcount _ rfl (by simp)))

/-- Two losses count as two (R16). -/
theorem countedUp_trans {c : Counter} {m n : Nat} {s t u : State} (h : countedUp c m s t)
    (k : countedUp c n t u) : countedUp c (m + n) s u := by
  rw [countedUp] at h k ⊢
  omega

/-- A request too short to hold a code cannot be read. -/
theorem readRequest_short {q : Request} (h : q.payload.length < 2) : readRequest q = .malformed none := by
  unfold readRequest
  split
  · next e => simp [e] at h
  · rfl

theorem exec_malformedRequestTaken {s : State} {q : Request} {rest : List Request} {position : Option Nat}
    (hactive : s.active = true) (hrequests : s.requests = q :: rest)
    (hread : readRequest q = .malformed position) : exec .malformedRequestTaken s =
      .next (answered q .malformed (position.toList.map byteOf) (becomeCurrent q rest s)) := by
  refine congrArg Host.Outcome.next ?_
  rw [whenActive_of_active _ hactive]
  simp only [takeMalformed, hrequests, hread]
  rfl

/-- Settles O51. -/
theorem clearAllAndMalformedRequests : Obligations.ClearAllAndMalformedRequests := by
  refine fun s q rest => ⟨fun hhead hdir => ⟨_, exec_clearAll hhead, ?_⟩,
    fun position => exec_malformedRequestTaken, readRequest_short⟩
  let u := becomeCurrent q rest s
  have hu : u.directoryOk := hdir
  obtain ⟨-, -, -, hnone, hsome⟩ := loseHeld_eq u
  obtain ⟨cleared, hnotice⟩ : AllCleared u (clearAll q u) ∧ (clearAll q u).noticeOut = false := by
    by_cases hoff : s.serviceOf q.port = .off
    · exact ⟨(clearAll_lost hu hoff).1, (clearAll_lost hu hoff).2.1⟩
    · exact ⟨(clearAll_held hu hoff).1, (clearAll_held hu hoff).2.1⟩
  obtain ⟨hjobs, hlog, hsteps, hrun, hdirectory⟩ := cleared.tables
  obtain ⟨hconfig, hmask, hserial, hrequests⟩ := cleared.kept
  refine ⟨hjobs, hlog, hsteps, hrun, hnotice, hrequests, rfl, cleared.window, hdirectory, hconfig, hmask, hserial,
    fun p => (cleared.ports p).queue, fun p => (cleared.ports p).testing, fun p => (cleared.ports p).off,
    by decide, cleared.lines, cleared.segRx, cleared.linkRx, fun hon => ?_, fun hoff => ?_⟩
  · obtain ⟨-, -, hheld, hflags, hcount⟩ := clearAll_held hu hon
    exact ⟨hheld, hflags, fun h => hcount.trans (hnone h), fun h => hcount.trans (hsome h)⟩
  · obtain ⟨-, -, hheld, hraised, hsent, hlost⟩ := clearAll_lost hu hoff
    refine ⟨hheld, hraised, hsent, ?_⟩
    split
    · next h => exact hlost.trans (congrArg (fun n => min Config.counterMax (n + 1)) (hnone h))
    · next h => exact countedUp_trans (hsome h) hlost

end Sys2Proof.Machine

/-! The pair links: signal, training and the retrain pause. -/

namespace Sys2Proof.Machine

/-! ### One link of the family -/

theorem modLink_modLink (l : Link) (f g : LinkPort → LinkPort) (s : State) :
    modLink l f (modLink l g s) = modLink l (fun t => f (g t)) s := by
  simp [modLink]

theorem modLink_id (l : Link) {f : LinkPort → LinkPort} {s : State}
    (h : f (s.links.get l) = s.links.get l) : modLink l f s = s := by
  rw [modLink, h, s.links.set_get l]

/-- Two changes of a link come to the same where they give its value the same. -/
theorem modLink_congr {l : Link} {f g : LinkPort → LinkPort} {s : State}
    (h : f (s.links.get l) = g (s.links.get l)) : modLink l f s = modLink l g s := by
  rw [modLink, modLink, h]

/-! ### A phase of a port's test begins (R164) -/

/-- Placing a TEST frame changes nothing in the port's record but the wait and the timer of its test
(R162). -/
theorem service_placeTest (p : Port) (s : State) : ∃ f : PortTest → PortTest,
    (∀ t, ∃ timer wait, f t = { t with timer := timer, wait := wait }) ∧
    (placeTest p s).service =
      s.service.set p { s.service.get p with test := (s.testOf p).map f } := by
  have same : s.service.set p { s.service.get p with test := (s.testOf p).map id } = s.service := by
    rw [Option.map_id_fun]
    exact s.service.set_get p
  unfold placeTest
  split
  · exact ⟨id, fun t => ⟨t.timer, t.wait, rfl⟩, same.symm⟩
  · next t _ =>
    split
    · exact ⟨id, fun t => ⟨t.timer, t.wait, rfl⟩, same.symm⟩
    · split
      · exact ⟨fun t => { t with wait := .slot }, fun t => ⟨t.timer, .slot, rfl⟩, rfl⟩
      · have made := (keepsQueues_ownRecord (s.testFrame p t) s).1
        split
        · next w e =>
          have hw : w.service = s.service := by rwa [e] at made
          refine ⟨fun t => { t with wait := .record }, fun t => ⟨t.timer, .record, rfl⟩, ?_⟩
          simp [modTest, hw, State.testOf]
        · next rid w e =>
          have hw : w.service = s.service := by rwa [e] at made
          refine ⟨fun t => { t with wait := .none, timer := some (t.timer.getD (frameTime t.phase)) },
            fun t => ⟨_, .none, rfl⟩, ?_⟩
          simp [modTest, hw, State.testOf]

/-- A phase begun on a port with a test: the first frame of it is out (R164). -/
theorem service_startPhase {p : Port} {v : PortTest} (ph : TestPhase) {s : State}
    (hv : s.testOf p = some v) : ∃ timer wait, (startPhase p ph s).service = s.service.set p
      { s.service.get p with test := some ⟨v.purpose, ph, 1, timer, wait⟩ } := by
  let begun := modTest p (fun t => { t with phase := ph, sequence := 1, timer := none, wait := .none }) s
  obtain ⟨f, hf, h⟩ := service_placeTest p (setLoopMode p ph.mode begun)
  obtain ⟨timer, wait, hft⟩ := hf ⟨v.purpose, ph, 1, none, .none⟩
  have hservice : (setLoopMode p ph.mode begun).service = s.service.set p { s.service.get p with
      test := some ⟨v.purpose, ph, 1, none, .none⟩ } := by
    have hv' : (s.service.get p).test = some v := hv
    rw [service_setLoopMode]
    simp [begun, modTest, hv']
  have e : startPhase p ph s = placeTest p (setLoopMode p ph.mode begun) := rfl
  refine ⟨timer, wait, ?_⟩
  rw [e, h]
  simp [State.testOf, hservice, hft]

theorem loopMode_setLoopMode (p : Port) (m : LoopMode) (s : State) :
    (setLoopMode p m s).loopMode p = m := by
  unfold setLoopMode
  split
  · assumption
  · cases p <;> simp [State.loopMode]

theorem loopMode_startPhase (p : Port) (ph : TestPhase) (s : State) :
    (startPhase p ph s).loopMode p = ph.mode := by
  let begun := modTest p (fun t => { t with phase := ph, sequence := 1, timer := none, wait := .none }) s
  obtain ⟨hsegs, -, -, hlinks⟩ := placeTest_leaves p (setLoopMode p ph.mode begun)
  have e : startPhase p ph s = placeTest p (setLoopMode p ph.mode begun) := rfl
  have mode := loopMode_setLoopMode p ph.mode begun
  rw [e]
  cases p with
  | seg x => rw [State.loopMode, hsegs]; exact mode
  | link l => rw [State.loopMode, hlinks]; exact mode

/-! ### Signal and training (R18, R19, R29) -/

section
variable {l : Link} {s : State} (ha : s.active = true)
include ha

/-- In CLOCK-HOLD the signal stands for the hold's end to report, and no more (R29, log entry 7). -/
theorem exec_signalPresent_held (hh : s.held l = true) : exec (.signalPresent l) s =
    .next (modLink l (fun t => { t with lineSignal := true }) s) := by
  refine congrArg Host.Outcome.next ?_
  rw [whenActive_of_active _ (by exact ha)]
  exact if_pos hh

theorem exec_signalPresent (hh : s.held l = false) : exec (.signalPresent l) s =
    .next (tryTraining l (modLink l (fun t => { t with lineSignal := true, signalSeen := true }) s)) := by
  refine congrArg Host.Outcome.next ?_
  rw [whenActive_of_active _ (by exact ha)]
  refine (if_neg (by simpa [State.held] using hh)).trans ?_
  rw [signalReported, modLink_modLink]

omit ha in
/-- A NO-SIGNAL link whose signal is seen, with no pause and a RUNNING interface, enters TRAINING. -/
theorem tryTraining_enters (hl : (s.links.get l).line = .noSignal) (hseen : (s.links.get l).signalSeen = true)
    (hp : (s.links.get l).retrainPause = none) (hh : s.held l = false) :
    tryTraining l s = modLink l (fun t => { t with line := .training, trainingTime := 0 }) s :=
  if_pos ⟨hl, hseen, hp, hh⟩

omit ha in
/-- A link that is not in NO-SIGNAL, or whose pause runs, stays as it is. -/
theorem tryTraining_stays (h : ¬ ((s.links.get l).line = .noSignal ∧ (s.links.get l).retrainPause = none)) :
    tryTraining l s = s :=
  if_neg fun ⟨hl, _, hp, _⟩ => h ⟨hl, hp⟩

theorem exec_signalPresent_trains (hh : s.held l = false) (hl : (s.links.get l).line = .noSignal)
    (hp : (s.links.get l).retrainPause = none) : exec (.signalPresent l) s = .next (modLink l (fun t =>
      { t with lineSignal := true, signalSeen := true, line := .training, trainingTime := 0 }) s) := by
  rw [exec_signalPresent ha hh, tryTraining_enters (by simpa using hl) (by simp) (by simpa using hp)
    (by simpa [State.held] using hh), modLink_modLink]

theorem exec_signalPresent_seen (hh : s.held l = false)
    (h : ¬ ((s.links.get l).line = .noSignal ∧ (s.links.get l).retrainPause = none)) :
    exec (.signalPresent l) s =
      .next (modLink l (fun t => { t with lineSignal := true, signalSeen := true }) s) := by
  rw [exec_signalPresent ha hh, tryTraining_stays (by simpa using h)]

theorem exec_retrainPauseExpiry (hh : s.held l = false) (hl : (s.links.get l).line = .noSignal)
    (hseen : (s.links.get l).signalSeen = true) (hp : (s.links.get l).retrainPause.isSome = true) :
    exec (.retrainPauseExpiry l) s = .next (modLink l (fun t => { t with
      retrainPause := none, line := .training, trainingTime := 0 }) s) := by
  refine congrArg Host.Outcome.next ?_
  rw [whenActive_of_active _ ha, pauseExpiry, if_pos hp, tryTraining_enters (by simpa using hl)
    (by simpa using hseen) (by simp) (by simpa [State.held] using hh), modLink_modLink]

theorem exec_trained (hh : s.held l = false) (hl : (s.links.get l).line = .training) :
    exec (.trained l) s = .next (linkConnected l (modLink l (fun t => { t with line := .connected }) s)) := by
  refine congrArg Host.Outcome.next ?_
  rw [whenActive_of_active _ ha, trained, if_pos ⟨hl, hh⟩]

omit ha in
/-- Out of TESTING no test waits for a connection. -/
theorem linkConnected_of_not_testing (h : s.serviceOf (.link l) ≠ .testing) : linkConnected l s = s := by
  unfold linkConnected
  split
  · exact if_neg fun ht => h ht.1
  · rfl

omit ha in
/-- The INTERNAL phase of a test that waited for its connection begins (R19, R166). -/
theorem linkConnected_of_wait {v : PortTest} (ht : s.serviceOf (.link l) = .testing)
    (hv : s.testOf (.link l) = some v) (hph : v.phase = .waitConnect) :
    linkConnected l s = startPhase (.link l) .internal s := by
  rw [linkConnected, hv]
  exact if_pos ⟨ht, hph⟩

theorem exec_trained_begins {v : PortTest} (hh : s.held l = false) (hl : (s.links.get l).line = .training)
    (ht : s.serviceOf (.link l) = .testing) (hv : s.testOf (.link l) = some v)
    (hph : v.phase = .waitConnect) :
    ∃ t, exec (.trained l) s = .next t ∧ (t.links.get l).line = .connected ∧
      (t.links.get l).loop = .internal ∧ ((t.testOf (.link l)).map PortTest.phase) = some .internal ∧
      ((t.testOf (.link l)).map PortTest.sequence) = some 1 := by
  let u := modLink l (fun t => { t with line := .connected }) s
  obtain ⟨timer, wait, hservice⟩ := service_startPhase (p := .link l) .internal (s := u) (v := v) hv
  refine ⟨startPhase (.link l) .internal u, ?_, ?_, loopMode_startPhase (.link l) .internal u, ?_, ?_⟩
  · rw [exec_trained ha hh hl, linkConnected_of_wait (s := u) ht hv hph]
  · rw [(atPort_startPhase (.link l) .internal u).line l]
    simp [u]
  · simp [State.testOf, hservice]
  · simp [State.testOf, hservice]

theorem exec_trainingTimeout (hl : (s.links.get l).line = .training) : exec (.trainingTimeout l) s =
    .next (bump (.link l .trainingFailures) (modLink l (fun t => { t with
      line := .noSignal, retrainPause := some 1000 }) s)) :=
  congrArg Host.Outcome.next ((whenActive_of_active _ ha).trans (if_pos hl))

/-- A signal lost before the link was connected is no flap. -/
theorem exec_signalLost_unconnected (hwait : s.resultWaits = false)
    (hl : (s.links.get l).line ≠ .connected) : exec (.signalLost l) s = .next (modLink l (fun t =>
      { t with lineSignal := false, signalSeen := false, line := .noSignal }) s) := by
  have lost : signalLost l (modLink l (fun t => { t with lineSignal := false }) s) =
      modLink l (fun t => { t with lineSignal := false, signalSeen := false, line := .noSignal }) s := by
    have hline : ((modLink l (fun t => { t with lineSignal := false }) s).links.get l).line =
        (s.links.get l).line := by simp
    unfold signalLost
    dsimp only
    rw [hline]
    split
    · next hn => exact (modLink_modLink ..).trans (modLink_congr (by simp [hn]))
    · rw [modLink_modLink, modLink_modLink]
    · next hc => exact absurd hc hl
  refine congrArg Host.Outcome.next ?_
  rw [whenActive_of_active _ (by exact ha), lost]
  exact settleSweep_of_sweep hwait rfl

end

/-- Outside TRAINING a report of trained is nothing (R19). -/
theorem exec_trained_none {l : Link} {s : State} (hl : (s.links.get l).line ≠ .training) :
    exec (.trained l) s = .next s := by
  have same : trained l s = s := if_neg fun h => hl h.1
  refine congrArg Host.Outcome.next ?_
  rw [whenActive, same]
  exact ite_self s

/-- Settles O13, report by report. -/
theorem signalAndTrainingMoveTheLine : Obligations.SignalAndTrainingMoveTheLine := by
  intro l s ha hwait
  refine ⟨exec_signalPresent_held ha, fun hh ⟨hl, hp⟩ => exec_signalPresent_trains ha hh hl hp,
    exec_signalPresent_seen ha, exec_retrainPauseExpiry ha, fun hh hl hs => ?_, fun hh hl ht hv => ?_,
    exec_trainingTimeout ha, exec_signalLost_unconnected ha hwait, exec_trained_none⟩
  · rw [exec_trained ha hh hl, linkConnected_of_not_testing (by simpa [State.serviceOf] using hs)]
  · obtain ⟨v, hv, hph⟩ := Option.map_eq_some_iff.1 hv
    exact exec_trained_begins ha hh hl ht hv hph

end Sys2Proof.Machine

/-! The pair links: receptions begin, take bytes and end; what their reports come to. -/

namespace Sys2Proof.Machine

/-! ### Receptions begin and take bytes (R21, R22) -/

theorem beginLinkReception_some (l : Link) (looped : Bool) {s : State} (h : 0 < s.pool.free) :
    beginLinkReception l looped s =
      setLinkRx l (.receiving ⟨[], 0, crc32Start, [], s.nextRecord, false, looped⟩) (recordTaken s) := by
  rw [beginLinkReception, startRecord_some h]

theorem beginLinkReception_none (l : Link) (looped : Bool) {s : State} (h : s.pool.free = 0) :
    beginLinkReception l looped s =
      setLinkRx l (.discarding looped) (bump (.link l .noBuffer) s) := by
  rw [beginLinkReception, startRecord_none h]

/-- A new reception leaves the sweep engine. -/
theorem sweep_recordTaken (s : State) : (recordTaken s).sweep = s.sweep := by
  obtain ⟨_, _, _, _, _, _, _, _, _, _, _, _, _, _, _, _, _, _, _, _, _, _, hsweep, _⟩ :=
    sameButFrames_fields (recordTaken_same s)
  exact hsweep

/-- The running check's step changes the check and the last four bytes alone. -/
theorem roll_eq (r : LinkReception) (b : Byte) :
    ∃ crc last, r.roll b = { r with crc := crc, last := last } := by
  unfold LinkReception.roll
  split <;> exact ⟨_, _, rfl⟩

/-- A byte taken while RECEIVING, by its place (R22). -/
theorem takeLinkByte_receiving {l : Link} {s : State} {r : LinkReception} (b : Byte)
    (hrx : (s.links.get l).rx = .receiving r) :
    takeLinkByte l b s =
      let counted := { r.roll b with count := r.count + 1 }
      if r.header.length < 7 then setLinkRx l (.receiving { counted with header := r.header ++ [b] }) s
      else if officeLength r.header ≤ 1472 ∧ (s.payload r.record).length < officeLength r.header then
        match storeByte r.record b s with
        | (true, s) => setLinkRx l (.receiving counted) s
        | (false, s) => setLinkRx l (.discarding r.looped) (bump (.link l .noBuffer) (releaseRef r.record s))
      else setLinkRx l (.receiving counted) s := by
  obtain ⟨crc, last, h⟩ := roll_eq r b
  rw [takeLinkByte, hrx]
  dsimp only
  rw [h]
  rfl

section
variable {l : Link} {s : State} (ha : s.active = true) (hh : s.held l = false)
include ha hh

/-- A frame start that finds the receiver IDLE. -/
theorem exec_frameStart (hrx : (s.links.get l).rx = .idle) : exec (.frameStart l) s =
    .next (settleSweep (if (s.links.get l).line = .connected ∧ s.serviceOf (.link l) ≠ .off ∧
      (s.links.get l).loop ≠ .internal then beginLinkReception l false s else s)) := by
  have started : frameStart l s = if (s.links.get l).line = .connected ∧ s.serviceOf (.link l) ≠ .off ∧
      (s.links.get l).loop ≠ .internal then beginLinkReception l false s else s := by
    simp [frameStart, hh, hrx, LinkRx.outside]
  refine congrArg Host.Outcome.next ?_
  rw [whenActive_of_active _ ha, started]

theorem exec_frameStart_begins (hwait : s.resultWaits = false) (hrx : (s.links.get l).rx = .idle)
    (hl : (s.links.get l).line = .connected) (hon : s.serviceOf (.link l) ≠ .off)
    (hloop : (s.links.get l).loop ≠ .internal) :
    exec (.frameStart l) s = .next (beginLinkReception l false s) := by
  have hsweep : (beginLinkReception l false s).sweep = s.sweep := by
    rcases Nat.eq_zero_or_pos s.pool.free with hf | hf
    · rw [beginLinkReception_none l false hf]
      simp [setLinkRx]
    · rw [beginLinkReception_some l false hf]
      exact sweep_recordTaken s
  rw [exec_frameStart ha hh hrx, if_pos ⟨hl, hon, hloop⟩, settleSweep_of_sweep hwait hsweep]

theorem exec_frameStart_ignored (hwait : s.resultWaits = false) (hrx : (s.links.get l).rx = .idle)
    (h : (s.links.get l).line ≠ .connected ∨ s.serviceOf (.link l) = .off ∨
      (s.links.get l).loop = .internal) : exec (.frameStart l) s = .next s := by
  have hnot : ¬ ((s.links.get l).line = .connected ∧ s.serviceOf (.link l) ≠ .off ∧
      (s.links.get l).loop ≠ .internal) := fun ⟨hl, hon, hloop⟩ => by
    rcases h with h | h | h
    · exact h hl
    · exact hon h
    · exact hloop h
  rw [exec_frameStart ha hh hrx, if_neg hnot, settleSweep_of_none hwait]

/-- What a reception from the line makes of a byte is what the receiver makes of it. -/
theorem exec_linkByte {r : LinkReception} (b : Byte) (hrx : (s.links.get l).rx = .receiving r)
    (hl : r.looped = false) : exec (.linkByte l b) s = .next (takeLinkByte l b s) := by
  refine congrArg Host.Outcome.next ?_
  rw [whenActive_of_active _ ha, linkByte, if_neg (by simp [hrx, LinkRx.looping, hl, hh])]

end

/-- Settles O15: the frame start, and the byte by its place. -/
theorem frameStartAndBytesAreTaken : Obligations.FrameStartAndBytesAreTaken := by
  intro l s ha hwait hh
  refine ⟨fun hrx hl hon hloop => ⟨fun hf => ?_, fun hf => ?_⟩, exec_frameStart_ignored ha hh hwait,
    fun b r f hrx hl hfind => ?_⟩
  · rw [exec_frameStart_begins ha hh hwait hrx hl hon hloop]
    exact congrArg Host.Outcome.next (beginLinkReception_some l false hf)
  · rw [exec_frameStart_begins ha hh hwait hrx hl hon hloop]
    exact congrArg Host.Outcome.next (beginLinkReception_none l false hf)
  · have hp := payload_of_find hfind
    rw [exec_linkByte ha hh b hrx hl, takeLinkByte_receiving b hrx, hp]
    refine ⟨fun hhead => ?_, fun hhead => ⟨fun hn => ?_, fun hn hlt hroom => ?_,
      fun hn hlt hfull hfree => ?_, fun hn hlt hfull hfree => ?_⟩⟩ <;>
      refine congrArg Host.Outcome.next ?_ <;> dsimp only
    · rw [if_pos hhead]
    · rw [if_neg (by omega), if_neg (by omega)]
    · rw [if_neg (by omega), if_pos ⟨hn, hlt⟩, storeByte_room b hfind hroom]
    · rw [if_neg (by omega), if_pos ⟨hn, hlt⟩, storeByte_refused b hfind hfull hfree, hl]
    · rw [if_neg (by omega), if_pos ⟨hn, hlt⟩, storeByte_grown b hfind hfull hfree]

/-! ### What a link's reports come to (R147, R148) -/

theorem linkReportCauses_stopped {l : Link} {s : State} (r : LinkReport) (hw : s.window.running = false) :
    linkReportCauses l r s = ([], s) :=
  if_pos hw

/-- A length-bad report is laid to its source key, and is not followed by a judging (R150, log entry 56). -/
theorem linkReportCauses_lengthBad {l : Link} {s : State} (k : Key) (hw : s.window.running = true) :
    linkReportCauses l (.lengthBad k) s = ([], laidTo k s) :=
  if_neg (by simp [hw])

/-- Any other report enters the window's counts, and the port is judged. -/
theorem linkReportCauses_counted {l : Link} {s : State} {r : LinkReport} (hr : ∀ k, r ≠ .lengthBad k)
    (hw : s.window.running = true) : linkReportCauses l r s = judgePort (.link l) (decide (r = .flap))
      { s with linkWin := s.linkWin.set l ((s.linkWin.get l).take r) } := by
  refine (if_neg (by simp [hw])).trans ?_
  cases r with
  | lengthBad k => exact absurd rfl (hr k)
  | _ => rfl

theorem linkReport_stopped {l : Link} {s : State} (r : LinkReport) (hw : s.window.running = false) :
    linkReport l r s = s := by
  rw [linkReport, linkReportCauses_stopped r hw]
  rfl

theorem linkReport_lengthBad {l : Link} {s : State} (k : Key) (hw : s.window.running = true) :
    linkReport l (.lengthBad k) s = laidTo k s := by
  rw [linkReport, linkReportCauses_lengthBad k hw]
  rfl

/-- A report adds at most one to the error sum. -/
theorem errorSum_linkTake (l : Link) (r : LinkReport) (s : State) :
    ({ s with linkWin := s.linkWin.set l ((s.linkWin.get l).take r) } : State).errorSum (.link l) ≤
      s.errorSum (.link l) + 1 := by
  have up : ∀ n, windowUp n ≤ n + 1 := fun n => Nat.min_le_right _ _
  have checkBad := up (s.linkWin.get l).checkBad
  have symbolErrors := up (s.linkWin.get l).symbolErrors
  cases r <;> simp only [State.errorSum, PerLink.get_set, if_true, LinkWindow.take] <;> omega

/-- Where no threshold is near, an error report enters the window's counts, and nothing more. -/
theorem linkReport_quiet {l : Link} {s : State} {r : LinkReport} (hr : ∀ k, r ≠ .lengthBad k)
    (hf : r ≠ .flap) (hw : s.window.running = true)
    (hsum : s.errorSum (.link l) + 1 < halfUp s.config.linkThreshold) :
    linkReport l r s = { s with linkWin := s.linkWin.set l ((s.linkWin.get l).take r) } := by
  have hbound := errorSum_linkTake l r s
  rw [linkReport, linkReportCauses_counted hr hw, decide_eq_false hf, judgePort_quiet]
  · rfl
  · simp only [State.errorThreshold]
    omega

/-! ### Symbol errors (R22) -/

/-- A symbol error's mark on a reception in progress. -/
def markSymbolError (l : Link) (s : State) : State :=
  match (s.links.get l).rx with
  | .receiving r => setLinkRx l (.receiving { r with symbolError := true }) s
  | _ => s

theorem symbolError_eq (l : Link) (s : State) : symbolError l s = if s.held l then s else
    linkReport l .symbolError (bump (.link l .symbolErrors) (markSymbolError l s)) := rfl

theorem markSymbolError_receiving {l : Link} {s : State} {r : LinkReception}
    (h : (s.links.get l).rx = .receiving r) :
    markSymbolError l s = setLinkRx l (.receiving { r with symbolError := true }) s := by
  rw [markSymbolError, h]

theorem markSymbolError_other {l : Link} {s : State}
    (h : (s.links.get l).rx = .idle ∨ ∃ b, (s.links.get l).rx = .discarding b) :
    markSymbolError l s = s := by
  rcases h with h | ⟨b, h⟩ <;> rw [markSymbolError, h]

theorem markSymbolError_eq (l : Link) (s : State) : ∃ rx, markSymbolError l s = setLinkRx l rx s := by
  unfold markSymbolError
  split
  · exact ⟨_, rfl⟩
  · exact ⟨(s.links.get l).rx, (modLink_id l rfl).symm⟩

section
variable {l : Link} {s : State} (ha : s.active = true) (hwait : s.resultWaits = false)
  (hh : s.held l = false)
include ha hwait hh

/-- Before the window clock runs a symbol error is counted and marked, and no more. -/
theorem exec_symbolError_stopped (hw : s.window.running = false) : exec (.symbolError l) s =
    .next (bump (.link l .symbolErrors) (markSymbolError l s)) := by
  obtain ⟨rx, h⟩ := markSymbolError_eq l s
  refine congrArg Host.Outcome.next ?_
  rw [whenActive_of_active _ ha, symbolError_eq, if_neg (by simp [hh]),
    linkReport_stopped _ (by simpa [h, setLinkRx] using hw)]
  exact settleSweep_of_sweep hwait (by simp [h, setLinkRx])

/-- Where no threshold is near it enters the window's counts besides. -/
theorem exec_symbolError_quiet (hw : s.window.running = true)
    (hsum : s.errorSum (.link l) + 1 < halfUp s.config.linkThreshold) : exec (.symbolError l) s =
    .next { bump (.link l .symbolErrors) (markSymbolError l s) with
      linkWin := s.linkWin.set l ((s.linkWin.get l).take .symbolError) } := by
  obtain ⟨rx, h⟩ := markSymbolError_eq l s
  have hwin : (bump (.link l .symbolErrors) (markSymbolError l s)).linkWin = s.linkWin := by
    simp [h, setLinkRx]
  refine congrArg Host.Outcome.next ?_
  rw [whenActive_of_active _ ha, symbolError_eq, if_neg (by simp [hh]),
    linkReport_quiet (by simp) (by simp) (by simpa [h, setLinkRx] using hw)
      (by simpa [h, setLinkRx, State.errorSum] using hsum), hwin]
  exact settleSweep_of_sweep hwait (by simp [h, setLinkRx])

end

/-! ### Frame ends (R21, R23, R24) -/

/-- A good reception is counted and handed over (R24). -/
theorem endLinkReception_good {l : Link} {s : State} {r : LinkReception}
    (hrx : (s.links.get l).rx = .receiving r) (hg : classifyLink r = .good) :
    endLinkReception l s = handOver (.link l) (readOfficeHeader r.header) r.record
      (bump (.link l .good) (setLinkRx l .idle s)) := by
  rw [endLinkReception, hrx]
  dsimp only
  rw [hg]
  rfl

/-- A bad one is thrown away and counted, and reported unless the link is OFF (R24). -/
theorem endLinkReception_bad {l : Link} {s : State} {r : LinkReception} {c : LinkCount}
    {report : LinkReport} (hrx : (s.links.get l).rx = .receiving r)
    (hb : linkOutcomeReport (readOfficeHeader r.header) (classifyLink r) = some (c, report)) :
    let t := bump (.link l c) (releaseRef r.record (setLinkRx l .idle s))
    endLinkReception l s =
      if r.looped || t.serviceOf (.link l) ≠ .off then linkReport l report t else t := by
  intro t
  rw [endLinkReception, hrx]
  dsimp only
  rw [hb]
  rfl

theorem exec_frameEnd_idle {l : Link} {s : State} (ha : s.active = true) (hwait : s.resultWaits = false)
    (hrx : (s.links.get l).rx = .idle) : exec (.frameEnd l) s = .next s := by
  have same : frameEnd l s = s := by simp [frameEnd, endLinkReception, hrx]
  refine congrArg Host.Outcome.next ?_
  rw [whenActive_of_active _ ha, same, settleSweep_of_none hwait]

/-- A receiver in DISCARDING returns to IDLE (R21). -/
theorem exec_frameEnd_discarding {l : Link} {s : State} {b : Bool} (ha : s.active = true)
    (hwait : s.resultWaits = false) (hrx : (s.links.get l).rx = .discarding b) :
    exec (.frameEnd l) s = .next (setLinkRx l .idle s) := by
  have back : frameEnd l s = setLinkRx l .idle s := by
    simp [frameEnd, endLinkReception, hrx, LinkRx.looping]
  refine congrArg Host.Outcome.next ?_
  rw [whenActive_of_active _ ha, back]
  exact settleSweep_of_sweep hwait rfl

section
variable {l : Link} {s : State} {r : LinkReception} (ha : s.active = true)
  (hwait : s.resultWaits = false) (hrx : (s.links.get l).rx = .receiving r) (hl : r.looped = false)
include ha hwait hrx hl

omit hwait in
theorem exec_frameEnd : exec (.frameEnd l) s = .next (settleSweep (endLinkReception l s)) := by
  refine congrArg Host.Outcome.next ?_
  rw [whenActive_of_active _ ha, frameEnd, if_neg (by simp [hrx, LinkRx.looping, hl])]

theorem exec_frameEnd_good (hg : classifyLink r = .good) : exec (.frameEnd l) s =
    .next (handOver (.link l) (readOfficeHeader r.header) r.record
      (bump (.link l .good) (setLinkRx l .idle s))) := by
  rw [exec_frameEnd ha hrx hl, endLinkReception_good hrx hg]
  exact congrArg Host.Outcome.next (settleSweep_of_sweep hwait (by simp [setLinkRx]))

omit hwait in
theorem exec_frameEnd_bad {c : LinkCount} {report : LinkReport}
    (hb : linkOutcomeReport (readOfficeHeader r.header) (classifyLink r) = some (c, report)) :
    let t := bump (.link l c) (releaseRef r.record (setLinkRx l .idle s))
    exec (.frameEnd l) s =
      .next (settleSweep (if s.serviceOf (.link l) ≠ .off then linkReport l report t else t)) := by
  intro t
  have hservice : t.serviceOf (.link l) = s.serviceOf (.link l) := by simp [t, State.serviceOf, setLinkRx]
  rw [exec_frameEnd ha hrx hl, endLinkReception_bad hrx hb, hl, ← hservice]
  simp [t]

/-- A bad frame that is not reported: before the window clock runs, or in OFF. -/
theorem exec_frameEnd_unreported {c : LinkCount} {report : LinkReport}
    (hb : linkOutcomeReport (readOfficeHeader r.header) (classifyLink r) = some (c, report))
    (hno : s.window.running = false ∨ s.serviceOf (.link l) = .off) : exec (.frameEnd l) s =
      .next (bump (.link l c) (releaseRef r.record (setLinkRx l .idle s))) := by
  have settled : settleSweep (bump (.link l c) (releaseRef r.record (setLinkRx l .idle s))) = _ :=
    settleSweep_of_sweep hwait (by simp [setLinkRx])
  rw [exec_frameEnd_bad ha hrx hl hb]
  refine congrArg Host.Outcome.next ?_
  split
  · next hon =>
    rw [linkReport_stopped report (by simpa [setLinkRx] using hno.resolve_right hon), settled]
  · exact settled

section
variable {c : LinkCount} {report : LinkReport}
  (hb : linkOutcomeReport (readOfficeHeader r.header) (classifyLink r) = some (c, report))
  (hw : s.window.running = true) (hon : s.serviceOf (.link l) ≠ .off)
include hb hw hon

/-- One that is reported with no threshold near enters the window's counts. -/
theorem exec_frameEnd_reported (hr : ∀ k, report ≠ .lengthBad k) (hf : report ≠ .flap)
    (hsum : s.errorSum (.link l) + 1 < halfUp s.config.linkThreshold) : exec (.frameEnd l) s =
      .next { bump (.link l c) (releaseRef r.record (setLinkRx l .idle s)) with
        linkWin := s.linkWin.set l ((s.linkWin.get l).take report) } := by
  have hwin : (bump (.link l c) (releaseRef r.record (setLinkRx l .idle s))).linkWin = s.linkWin := by
    simp [setLinkRx]
  rw [exec_frameEnd_bad ha hrx hl hb, if_pos hon, linkReport_quiet hr hf (by simpa [setLinkRx] using hw)
    (by simpa [setLinkRx, State.errorSum] using hsum), hwin]
  exact congrArg Host.Outcome.next (settleSweep_of_sweep hwait (by simp [setLinkRx]))

/-- A length-bad frame is laid to its source key. -/
theorem exec_frameEnd_laid {k : Key} (hk : report = .lengthBad k) : exec (.frameEnd l) s =
    .next (laidTo k (bump (.link l c) (releaseRef r.record (setLinkRx l .idle s)))) := by
  rw [exec_frameEnd_bad ha hrx hl hb, if_pos hon, hk,
    linkReport_lengthBad k (by simpa [setLinkRx] using hw)]
  refine congrArg Host.Outcome.next (settled_of_ports ?_ (ports_laidTo k _))
  simpa [State.resultWaits, setLinkRx] using hwait

end

end

/-- Settles O16: the symbol error before and while the window clock runs, and the frame end outcome by
outcome. -/
theorem symbolErrorsAndFrameEndsAreTaken : Obligations.SymbolErrorsAndFrameEndsAreTaken := by
  refine ⟨fun l s ha hwait hh hw => ⟨fun r hrx => ?_, fun hrx => ?_⟩,
    fun l s ha hwait hh hw hsum => ⟨fun r hrx => ?_, fun hrx => ?_⟩,
    fun l s ha hwait => ⟨exec_frameEnd_idle ha hwait, fun b => exec_frameEnd_discarding ha hwait,
      fun r hrx hl => ⟨exec_frameEnd_good ha hwait hrx hl, fun c hno hpair => ?_, fun hw hon hsum => ?_⟩⟩⟩
  · rw [exec_symbolError_stopped ha hwait hh hw, markSymbolError_receiving hrx]
  · rw [exec_symbolError_stopped ha hwait hh hw, markSymbolError_other hrx]
  · rw [exec_symbolError_quiet ha hwait hh hw hsum, markSymbolError_receiving hrx]
    rfl
  · rw [exec_symbolError_quiet ha hwait hh hw hsum, markSymbolError_other hrx]
    rfl
  · have hb : ∃ report, linkOutcomeReport (readOfficeHeader r.header) (classifyLink r) =
        some (c, report) := by
      rcases hpair with ⟨ho, rfl⟩ | ⟨ho, rfl⟩ | ⟨ho, rfl⟩ <;> rw [ho] <;> exact ⟨_, rfl⟩
    obtain ⟨report, hb⟩ := hb
    exact exec_frameEnd_unreported ha hwait hrx hl hb hno
  · have hb : ∀ o, classifyLink r = o → linkOutcomeReport (readOfficeHeader r.header) (classifyLink r) =
        linkOutcomeReport (readOfficeHeader r.header) o := fun o ho => by rw [ho]
    refine ⟨fun ho => ?_, fun ho => ?_, fun ho => ?_⟩
    · exact exec_frameEnd_reported ha hwait hrx hl (hb _ ho) hw hon (by simp) (by simp) hsum
    · exact exec_frameEnd_reported ha hwait hrx hl (hb _ ho) hw hon (by simp) (by simp) hsum
    · have hwin : s.linkWin.set l (s.linkWin.get l) =
          (bump (.link l .lengthBad) (releaseRef r.record (setLinkRx l .idle s))).linkWin := by
        simp [setLinkRx, s.linkWin.set_get]
      rw [exec_frameEnd_laid ha hwait hrx hl (hb _ ho) hw hon rfl]
      dsimp only
      rw [hwin]

end Sys2Proof.Machine

/-! The pair links: frames are taken, driven and sent. -/

namespace Sys2Proof.Machine

/-! ### A link takes a frame (R25) -/

theorem modLink_addRef (l : Link) (f : LinkPort → LinkPort) (rid : Nat) (s : State) :
    modLink l f (addRef rid s) = addRef rid (modLink l f s) := by
  simp only [addRef, modLink_records]
  split <;> rfl

/-- A link that takes a frame drives it at once; in INTERNAL mode its own reception begins where the receiver
is IDLE (R21, R25). -/
theorem linkTake_some {l : Link} {s : State} {f : InFlight} {h : Header} {rid : Nat}
    (ht : s.linkTakes l = some f) (hf : s.frameOf (.link l) f = some (h, rid)) :
    let taken := addRef rid (modLink l (fun t => { t with
      inFlight := some f, tx := .sending, wire := officeFrame h (s.payload rid) }) s)
    linkTake l s = if (s.links.get l).loop = .internal ∧ (s.links.get l).rx = .idle then
      beginLinkReception l true taken else taken := by
  intro taken
  let sending := modLink l (fun t => { t with inFlight := some f, tx := .sending }) s
  have flying₀ : (modLink l (fun t => { t with inFlight := some f, tx := .sending }) s).flying (.link l) =
      some (h, rid) := by
    rw [← hf]
    cases f <;> simp [State.flying, State.inFlight, State.frameOf, State.payload]
  have flying : (addRef rid sending).flying (.link l) = some (h, rid) := by
    rw [← hf]
    cases f with
    | head => simp [sending, State.flying, State.inFlight, State.frameOf]
    | test =>
      simp [sending, State.flying, State.inFlight, State.frameOf, payload_addRef]
      rfl
  have driven : modLink l (fun t => { t with wire := (addRef rid sending).wireFrame (.link l) })
      (addRef rid sending) = taken := by
    have wire : (addRef rid sending).wireFrame (.link l) = officeFrame h (s.payload rid) := by
      rw [State.wireFrame, flying]
      exact congrArg (officeFrame h) (payload_addRef rid rid sending)
    rw [wire, modLink_addRef, modLink_modLink]
  have mode : (taken.links.get l).loop = (s.links.get l).loop := by simp [taken]
  have receiver : (taken.links.get l).rx = (s.links.get l).rx := by simp [taken]
  rw [linkTake, ht]
  simp only [flying₀]
  refine Eq.trans (b := (fun u : State => if (u.links.get l).loop = .internal ∧ (u.links.get l).rx = .idle
    then beginLinkReception l true u else u) (modLink l (fun t => { t with
      wire := (addRef rid sending).wireFrame (.link l) }) (addRef rid sending))) rfl ?_
  rw [driven]
  dsimp only
  rw [mode, receiver]

theorem linkTakes_head {l : Link} {s : State} (htx : (s.links.get l).tx = .idle)
    (hl : (s.links.get l).loop = .normal) (hs : s.serviceOf (.link l) = .inService)
    (hline : (s.links.get l).line = .connected) (hq : s.queues.get (.link l) ≠ []) :
    s.linkTakes l = some .head := by
  simp [State.linkTakes, htx, hl, hs, hline, hq]

theorem linkTakes_test {l : Link} {s : State} {rid : Nat} (htx : (s.links.get l).tx = .idle)
    (hl : (s.links.get l).loop = .internal ∨
      (s.links.get l).loop = .external ∧ (s.links.get l).line = .connected)
    (hs : s.slots.get (.link l) = some rid) : s.linkTakes l = some .test := by
  rcases hl with hl | ⟨hl, hline⟩
  · simp [State.linkTakes, htx, hl, hs]
  · simp [State.linkTakes, htx, hl, hline, hs]

/-- Nothing is taken by a transmitter that is not IDLE, or that finds nothing to take. -/
theorem linkTakes_none {l : Link} {s : State} (h : (s.links.get l).tx ≠ .idle ∨
    (s.links.get l).loop = .normal ∧ (s.serviceOf (.link l) ≠ .inService ∨
      (s.links.get l).line ≠ .connected ∨ s.queues.get (.link l) = []) ∨
    (s.links.get l).loop = .external ∧ (s.links.get l).line ≠ .connected ∨
    (s.links.get l).loop ≠ .normal ∧ s.slots.get (.link l) = none) : s.linkTakes l = none := by
  unfold State.linkTakes
  rcases h with h | ⟨hl, h⟩ | ⟨hl, h⟩ | ⟨hl, h⟩
  · simp [h]
  · rcases h with h | h | h <;> simp [hl, h]
  · simp [hl, h]
  · cases hm : (s.links.get l).loop with
    | normal => exact absurd hm hl
    | internal => simp [hm, h]
    | external => simp [hm, h]

theorem exec_linkTake_none {l : Link} {s : State} (h : s.linkTakes l = none) :
    exec (.linkTakeFrame l) s = .next s := by
  refine congrArg Host.Outcome.next ?_
  rw [whenActive]
  split
  · rw [linkTake, h]
  · rfl

theorem exec_gapExpiry_none {l : Link} {s : State} (h : (s.links.get l).tx ≠ .gap) :
    exec (.gapExpiry l) s = .next s := by
  have same : gapExpiry l s = s := if_neg h
  refine congrArg Host.Outcome.next ?_
  rw [whenActive, same]
  exact ite_self s

/-! ### The end of a link's flight (R26, R44, R45) -/

theorem idleTx_link {l : Link} {s : State} (h : (s.links.get l).tx ≠ .gap) :
    idleTx (.link l) s = modLink l LinkPort.txIdle s :=
  modLink_congr (f := fun t => if t.tx = .gap then t else t.txIdle) (if_neg h)

theorem flightEnded_linkHead {l : Link} {s : State} {e : QueueEntry} {es : List QueueEntry}
    (hf : (s.links.get l).inFlight = some .head) (htx : (s.links.get l).tx ≠ .gap)
    (hq : s.queues.get (.link l) = e :: es) :
    flightEnded (.link l) s = releaseRef e.record
      { modLink l LinkPort.txIdle (releaseRef e.record s) with
        queues := s.queues.set (.link l) es } := by
  have hflight : s.inFlight (.link l) = some .head := hf
  have hframe : s.frameOf (.link l) .head = some (e.header, e.record) := by simp [State.frameOf, hq]
  have idle : idleTx (.link l) (releaseRef e.record s) =
      modLink l LinkPort.txIdle (releaseRef e.record s) :=
    idleTx_link (by simpa using htx)
  simp [flightEnded, hflight, releaseInFlight, hframe, idle, headLeaves, hq]

/-- The state after a link's TEST frame has left its slot: its two references are released and its transmitter
is IDLE. -/
def linkTestEnded (l : Link) (rid : Nat) (s : State) : State :=
  let u := modLink l LinkPort.txIdle (releaseRef rid s)
  releaseRef rid { u with slots := u.slots.set (.link l) none }

theorem flightEnded_linkTest {l : Link} {s : State} {rid : Nat}
    (hf : (s.links.get l).inFlight = some .test) (htx : (s.links.get l).tx ≠ .gap)
    (hs : s.slots.get (.link l) = some rid) :
    flightEnded (.link l) s = fillSlot (.link l) (linkTestEnded l rid s) := by
  have hflight : s.inFlight (.link l) = some .test := hf
  have idle : idleTx (.link l) (releaseRef rid s) = modLink l LinkPort.txIdle (releaseRef rid s) :=
    idleTx_link (by simpa using htx)
  simp [flightEnded, releaseInFlight, hflight, State.frameOf, hs, idle, emptySlot, linkTestEnded]

section
variable {l : Link} {rid : Nat} {s : State}

theorem linkTestEnded_links :
    (linkTestEnded l rid s).links = s.links.set l (s.links.get l).txIdle := by
  simp [linkTestEnded]

theorem linkTestEnded_leaves : (linkTestEnded l rid s).service = s.service ∧
    (linkTestEnded l rid s).sweep = s.sweep ∧ (linkTestEnded l rid s).nextRecord = s.nextRecord ∧
    (linkTestEnded l rid s).slots.get (.link l) = none := by
  simp [linkTestEnded]

theorem count_linkTestEnded (c : Counter) : (linkTestEnded l rid s).count c = s.count c :=
  count_of_counters c (by simp [linkTestEnded])

theorem free_linkTestEnded : s.pool.free ≤ (linkTestEnded l rid s).pool.free :=
  (free_releaseRef rid s).trans (free_releaseRef rid
    { modLink l LinkPort.txIdle (releaseRef rid s) with
      slots := (modLink l LinkPort.txIdle (releaseRef rid s)).slots.set (.link l) none })

theorem find_linkTestEnded {k : Nat} (hk : k ≠ rid) :
    (linkTestEnded l rid s).records.find k = s.records.find k :=
  (find_releaseRef_other hk _).trans (find_releaseRef_other hk s)

end

/-- The gap that a link holds after a frame. -/
def beginGap (l : Link) (s : State) : State := modLink l (fun t => { t with tx := .gap }) s

theorem linkSent_plain {l : Link} {s : State} (htx : (s.links.get l).tx = .sending)
    (h : (s.links.get l).loop ≠ .internal ∨ (s.links.get l).rx.own = false) :
    linkSent l s = beginGap l (flightEnded (.link l) (bump (.link l .sent) s)) := by
  have hends : ¬ ((s.links.get l).loop = .internal ∧ (s.links.get l).rx.own = true) := by
    rintro ⟨hl, ho⟩
    rcases h with h | h
    · exact h hl
    · simp [h] at ho
  simp only [linkSent, htx, if_true, hends, if_false, beginGap]

theorem linkSent_own {l : Link} {s : State} (htx : (s.links.get l).tx = .sending)
    (hl : (s.links.get l).loop = .internal) (ho : (s.links.get l).rx.own = true) :
    linkSent l s = endLinkReception l (beginGap l (flightEnded (.link l)
      (bump (.link l .sent) (takeLinkBytes l (s.links.get l).wire s)))) := by
  simp only [linkSent, htx, if_true, hl, ho, and_self, beginGap]

/-! ### The looped-back reception of an INTERNAL-mode transmission (R21, R22, log entry 30) -/

theorem setLinkRx_setLinkRx (l : Link) (r r' : LinkRx) (s : State) :
    setLinkRx l r (setLinkRx l r' s) = setLinkRx l r s :=
  modLink_modLink l _ _ s

theorem setLinkRx_self {l : Link} {r : LinkRx} {s : State} (h : (s.links.get l).rx = r) :
    setLinkRx l r s = s :=
  modLink_id l (by rw [← h])

theorem rx_setLinkRx (l : Link) (r : LinkRx) (s : State) : ((setLinkRx l r s).links.get l).rx = r := by
  simp [setLinkRx]

theorem takeLinkBytes_append (l : Link) : ∀ (bs cs : List Byte) (s : State),
    takeLinkBytes l (bs ++ cs) s = takeLinkBytes l cs (takeLinkBytes l bs s)
  | [], _, _ => rfl
  | b :: bs, cs, s => takeLinkBytes_append l bs cs (takeLinkByte l b s)

/-- A receiver that is not RECEIVING takes no byte. -/
theorem takeLinkBytes_discarding {l : Link} {s : State} {looped : Bool}
    (h : (s.links.get l).rx = .discarding looped) : ∀ bs, takeLinkBytes l bs s = s
  | [] => rfl
  | b :: bs => by
    have hb : takeLinkByte l b s = s := by rw [takeLinkByte, h]
    rw [takeLinkBytes, hb, takeLinkBytes_discarding h bs]

/-- The running check runs on whatever the header and the count. -/
theorem roll_with (r : LinkReception) (b : Byte) (header : List Byte) (n : Nat) :
    LinkReception.roll { r with header := header, count := n } b =
      { r.roll b with header := header, count := n } := by
  simp only [LinkReception.roll]
  split <;> rfl

theorem foldl_roll_with : ∀ (bs : List Byte) (r : LinkReception) (header : List Byte) (n : Nat),
    bs.foldl LinkReception.roll { r with header := header, count := n } =
      { bs.foldl LinkReception.roll r with header := header, count := n }
  | [], _, _, _ => rfl
  | b :: bs, r, header, n => by
    rw [List.foldl_cons, roll_with, foldl_roll_with bs, List.foldl_cons]

/-- A reception with a list of bytes taken into its running check, with a header and a count. -/
def LinkReception.rolled (r : LinkReception) (bs header : List Byte) (n : Nat) : LinkReception :=
  { bs.foldl LinkReception.roll r with header := header, count := n }

theorem rolled_rolled (r : LinkReception) (bs cs header header' : List Byte) (m n : Nat) :
    (r.rolled bs header m).rolled cs header' n = r.rolled (bs ++ cs) header' n := by
  rw [LinkReception.rolled, LinkReception.rolled, foldl_roll_with, LinkReception.rolled,
    List.foldl_append]

/-- A byte of the header is counted, checked and held (R22). -/
theorem takeLinkByte_header {l : Link} {s : State} {r : LinkReception} (b : Byte)
    (hrx : (s.links.get l).rx = .receiving r) (hh : r.header.length < 7) :
    takeLinkByte l b s =
      setLinkRx l (.receiving (r.rolled [b] (r.header ++ [b]) (r.count + 1))) s := by
  rw [takeLinkByte_receiving b hrx]
  exact if_pos hh

/-- The header's bytes. -/
theorem takeLinkBytes_header {l : Link} : ∀ {bs : List Byte} {r : LinkReception} {s : State},
    (s.links.get l).rx = .receiving r → r.header.length + bs.length ≤ 7 →
    takeLinkBytes l bs s =
      setLinkRx l (.receiving (r.rolled bs (r.header ++ bs) (r.count + bs.length))) s
  | [], r, s, hrx, _ => by simpa [takeLinkBytes, LinkReception.rolled] using (setLinkRx_self hrx).symm
  | b :: bs, r, s, hrx, hl => by
    simp only [List.length_cons] at hl
    rw [takeLinkBytes, takeLinkByte_header b hrx (by omega),
      takeLinkBytes_header (rx_setLinkRx ..) (by simp [LinkReception.rolled]; omega),
      setLinkRx_setLinkRx, rolled_rolled]
    simp [LinkReception.rolled, Nat.add_assoc, Nat.add_comm 1]

/-- A byte behind the header and the payload is counted and checked alone. -/
theorem takeLinkByte_beyond {l : Link} {s : State} {r : LinkReception} (b : Byte)
    (hrx : (s.links.get l).rx = .receiving r) (hh : r.header.length = 7)
    (hp : officeLength r.header ≤ (s.payload r.record).length) :
    takeLinkByte l b s = setLinkRx l (.receiving (r.rolled [b] r.header (r.count + 1))) s := by
  obtain ⟨crc, last, hroll⟩ := roll_eq r b
  rw [takeLinkByte_receiving b hrx]
  dsimp only
  rw [if_neg (by omega), if_neg (by omega)]
  simp [LinkReception.rolled, hroll]

/-- The check's bytes. -/
theorem takeLinkBytes_check {l : Link} : ∀ {bs : List Byte} {r : LinkReception} {s : State},
    (s.links.get l).rx = .receiving r → r.header.length = 7 →
    officeLength r.header ≤ (s.payload r.record).length →
    takeLinkBytes l bs s = setLinkRx l (.receiving (r.rolled bs r.header (r.count + bs.length))) s
  | [], r, s, hrx, _, _ => by simpa [takeLinkBytes, LinkReception.rolled] using (setLinkRx_self hrx).symm
  | b :: bs, r, s, hrx, hh, hp => by
    obtain ⟨crc, last, hroll⟩ := roll_eq r b
    rw [takeLinkBytes, takeLinkByte_beyond b hrx hh hp,
      takeLinkBytes_check (rx_setLinkRx ..) (by simpa [LinkReception.rolled] using hh)
        (by simpa [LinkReception.rolled, hroll, State.payload, setLinkRx] using hp),
      setLinkRx_setLinkRx, rolled_rolled]
    simp [LinkReception.rolled, Nat.add_assoc, Nat.add_comm 1]

/-- A byte of the payload, for which the record has room. -/
theorem takeLinkByte_payload {l : Link} {s : State} {r : LinkReception} {f : FrameRecord} (b : Byte)
    (hrx : (s.links.get l).rx = .receiving r) (hh : r.header.length = 7)
    (hn : officeLength r.header ≤ 1472) (hf : s.records.find r.record = some f)
    (hl : f.payload.length < officeLength r.header) (hroom : f.payload.length < 128 * f.blocks) :
    takeLinkByte l b s = setLinkRx l (.receiving (r.rolled [b] r.header (r.count + 1)))
      { s with records := s.records.put id r.record { f with payload := f.payload ++ [b] } } := by
  obtain ⟨crc, last, hroll⟩ := roll_eq r b
  rw [takeLinkByte_receiving b hrx, storeByte_room b hf hroom, payload_of_find hf]
  dsimp only
  rw [if_neg (by omega), if_pos ⟨hn, hl⟩]
  simp [LinkReception.rolled, hroll]

/-- The payload's bytes, where they fit the blocks the record has. -/
theorem takeLinkBytes_payload {l : Link} : ∀ {bs : List Byte} {r : LinkReception} {f : FrameRecord}
    {s : State}, (s.links.get l).rx = .receiving r → r.header.length = 7 →
    officeLength r.header ≤ 1472 → s.records.find r.record = some f →
    f.payload.length + bs.length ≤ officeLength r.header →
    f.payload.length + bs.length ≤ 128 * f.blocks →
    ∃ records, takeLinkBytes l bs s =
        setLinkRx l (.receiving (r.rolled bs r.header (r.count + bs.length))) { s with records := records } ∧
      records.find r.record = some { f with payload := f.payload ++ bs } ∧
      ∀ k, k ≠ r.record → records.find k = s.records.find k
  | [], r, f, s, hrx, _, _, hf, _, _ => by
    refine ⟨s.records, ?_, by simpa using hf, fun _ _ => rfl⟩
    simpa [takeLinkBytes, LinkReception.rolled] using (setLinkRx_self hrx).symm
  | b :: bs, r, f, s, hrx, hh, hn, hf, hl, hroom => by
    simp only [List.length_cons] at hl hroom
    let grown := s.records.put id r.record { f with payload := f.payload ++ [b] }
    obtain ⟨crc, last, hroll⟩ := roll_eq r b
    have hrecord : (r.rolled [b] r.header (r.count + 1)).record = r.record := by
      simp [LinkReception.rolled, hroll]
    obtain ⟨records, ht, hfind, hother⟩ := takeLinkBytes_payload (bs := bs)
      (f := { f with payload := f.payload ++ [b] })
      (rx_setLinkRx l (.receiving (r.rolled [b] r.header (r.count + 1))) { s with records := grown }) hh hn
      (by simp [setLinkRx, grown, Table.find_put, hrecord])
      (by simp [LinkReception.rolled]; omega) (by simp; omega)
    rw [hrecord] at hfind hother
    refine ⟨records, ?_, by simpa using hfind, fun k hk => ?_⟩
    · rw [takeLinkBytes, takeLinkByte_payload b hrx hh hn hf (by omega) (by omega), ht]
      show setLinkRx l _ (setLinkRx l _ { s with records := records }) = _
      rw [setLinkRx_setLinkRx, rolled_rolled]
      simp [LinkReception.rolled, Nat.add_assoc, Nat.add_comm 1]
    · rw [hother k hk]
      simp [setLinkRx, grown, Table.find_put, hk.symm]

/-- A whole wire frame of at most one block, taken into a new record: its payload is held, and the reception
is good. -/
theorem takeLinkBytes_officeFrame {l : Link} {s : State} {d n : Address} {kind : Byte}
    {payload : List Byte} {rid : Nat} {looped : Bool}
    (hrx : (s.links.get l).rx = .receiving ⟨[], 0, crc32Start, [], rid, false, looped⟩)
    (hf : s.records.find rid = some ⟨1, [], 1⟩) (hp : payload.length ≤ 128) :
    let h : Header := ⟨.address d, .address n, kind, payload.length⟩
    ∃ records r, takeLinkBytes l (officeFrame h payload) s =
        setLinkRx l (.receiving r) { s with records := records } ∧
      r.header = officeHeader h ∧ r.record = rid ∧ classifyLink r = .good ∧
      records.find rid = some ⟨1, payload, 1⟩ ∧ ∀ k, k ≠ rid → records.find k = s.records.find k := by
  intro h
  let fresh : LinkReception := ⟨[], 0, crc32Start, [], rid, false, looped⟩
  let check := Side.pair.long (crc32 (officeHeader h ++ payload)).toNat
  have hh : (officeHeader h).length = 7 := length_officeHeader h
  have hn : officeLength (officeHeader h) = payload.length :=
    congrArg Header.length (readOfficeHeader_officeHeader d n kind (k := payload.length) (by omega))
  let headed := fresh.rolled (officeHeader h) (officeHeader h) 7
  let full := fresh.rolled (officeHeader h ++ payload) (officeHeader h) (7 + payload.length)
  let whole := fresh.rolled (officeHeader h ++ payload ++ check) (officeHeader h) (7 + payload.length + 4)
  have hrecord : ∀ bs header m, (fresh.rolled bs header m).record = rid := fun bs header m => by
    induction bs using List.reverseRecOn generalizing header m with
    | nil => rfl
    | append_singleton bs b ih =>
      obtain ⟨crc, last, hroll⟩ := roll_eq (bs.foldl LinkReception.roll fresh) b
      have := ih [] 0
      simp only [LinkReception.rolled, List.foldl_append, List.foldl_cons, List.foldl_nil, hroll] at this ⊢
      exact this
  have hlast : whole = { fresh with
      header := officeHeader h, count := 7 + payload.length + 4
      crc := (officeHeader h ++ payload).foldl crc32Byte crc32Start, last := check } := by
    show LinkReception.rolled _ _ _ _ = _
    rw [LinkReception.rolled, foldl_roll (r := fresh) rfl _ (by simp [check, Side.long])]
  have header := takeLinkBytes_header (bs := officeHeader h) hrx (by simp [hh])
  obtain ⟨records, hbody, hfound, hother⟩ := takeLinkBytes_payload (bs := payload) (f := ⟨1, [], 1⟩)
    (rx_setLinkRx l (.receiving headed) s) hh (by show officeLength (officeHeader h) ≤ _; omega)
    (by rw [hrecord]; exact hf) (by show _ ≤ officeLength (officeHeader h); simp [hn]) (by simpa using hp)
  rw [hrecord] at hfound hother
  have hfind : records.find rid = some ⟨1, payload, 1⟩ := hfound
  have hpayload : State.payload { s with records := records } rid = payload :=
    payload_of_find (f := ⟨1, payload, 1⟩) hfind
  have checked := takeLinkBytes_check (bs := check)
    (rx_setLinkRx l (.receiving full) { s with records := records }) hh
    (by rw [hrecord]; show officeLength (officeHeader h) ≤ (State.payload { s with records := records } rid).length
        rw [hpayload, hn])
  refine ⟨records, whole, ?_, rfl, hrecord _ _ _, ?_, hfind, hother⟩
  · rw [officeFrame, takeLinkBytes_append, takeLinkBytes_append, header]
    simp only [List.nil_append, hh, Nat.zero_add]
    rw [hbody]
    show takeLinkBytes l _ (setLinkRx l _ (setLinkRx l _ { s with records := records })) = _
    rw [setLinkRx_setLinkRx, rolled_rolled]
    exact checked.trans (by rw [setLinkRx_setLinkRx, rolled_rolled]; rfl)
  · rw [hlast]
    refine classifyLink_good rfl ?_ ?_ ?_
    · show officeLength (officeHeader h) ≤ 1472
      omega
    · show 7 + payload.length + 4 = 7 + officeLength (officeHeader h) + 4
      rw [hn]
    · dsimp only
      rw [show check = Side.pair.long (crc32 (officeHeader h ++ payload)).toNat from rfl, crc32]

/-! ### A link sends (R25 to R27) -/

section
variable {l : Link} {s : State} (ha : s.active = true)
include ha

theorem exec_linkTake : exec (.linkTakeFrame l) s = .next (linkTake l s) :=
  congrArg Host.Outcome.next (whenActive_of_active _ ha)

theorem exec_gapExpiry (h : (s.links.get l).tx = .gap) :
    exec (.gapExpiry l) s = .next (modLink l (fun t => { t with tx := .idle }) s) :=
  congrArg Host.Outcome.next ((whenActive_of_active _ ha).trans (if_pos h))

theorem exec_linkSent : exec (.linkSent l) s = .next (settleSweep (linkSent l s)) :=
  congrArg Host.Outcome.next (whenActive_of_active _ ha)

/-- A queue head that has been sent (R26, R44). -/
theorem exec_linkSent_head {e : QueueEntry} {es : List QueueEntry} (hwait : s.resultWaits = false)
    (htx : (s.links.get l).tx = .sending) (hl : (s.links.get l).loop = .normal)
    (hf : (s.links.get l).inFlight = some .head) (hq : s.queues.get (.link l) = e :: es) :
    exec (.linkSent l) s = .next (beginGap l (releaseRef e.record
      { modLink l LinkPort.txIdle (releaseRef e.record (bump (.link l .sent) s)) with
        queues := s.queues.set (.link l) es })) := by
  rw [exec_linkSent ha, linkSent_plain htx (.inl (by simp [hl])),
    flightEnded_linkHead (e := e) (es := es) (by simpa using hf) (by simp [htx]) (by simpa using hq)]
  refine congrArg Host.Outcome.next ((settleSweep_of_sweep hwait (by simp [beginGap])).trans ?_)
  simp

end

section
variable {l : Link} {rid : Nat} {s : State} (ha : s.active = true) (hwait : s.resultWaits = false)
  (hslot : s.slots.get (.link l) = some rid) (htx : (s.links.get l).tx = .sending)
  (hf : (s.links.get l).inFlight = some .test)
include ha hwait hslot htx hf

omit hwait in
/-- A TEST frame that has been sent, with no reception of its own (R26, R45). -/
theorem exec_linkSent_test (hown : (s.links.get l).loop ≠ .internal ∨ (s.links.get l).rx.own = false) :
    exec (.linkSent l) s = .next (settleSweep
      (beginGap l (fillSlot (.link l) (linkTestEnded l rid (bump (.link l .sent) s))))) := by
  rw [exec_linkSent ha, linkSent_plain htx hown,
    flightEnded_linkTest (rid := rid) (by simpa using hf) (by simp [htx]) (by simpa using hslot)]

/-- No fresh frame waits for the slot. -/
theorem exec_linkSent_test_last
    (hown : (s.links.get l).loop ≠ .internal ∨ (s.links.get l).rx.own = false)
    (hlast : ∀ w, s.testOf (.link l) = some w → w.wait ≠ .slot) :
    exec (.linkSent l) s = .next (beginGap l (linkTestEnded l rid (bump (.link l .sent) s))) := by
  rw [exec_linkSent_test ha hslot htx hf hown,
    fillSlot_of_no_wait (by simpa [State.testOf, linkTestEnded] using hlast)]
  exact congrArg Host.Outcome.next (settleSweep_of_sweep hwait (by simp [beginGap, linkTestEnded]))

/-- In INTERNAL mode the DISCARDING that the transmission's own reception left ends with it (log entry
38). -/
theorem exec_linkSent_discarding (hl : (s.links.get l).loop = .internal)
    (hrx : (s.links.get l).rx = .discarding true)
    (hlast : ∀ w, s.testOf (.link l) = some w → w.wait ≠ .slot) :
    exec (.linkSent l) s =
      .next (setLinkRx l .idle (beginGap l (linkTestEnded l rid (bump (.link l .sent) s)))) := by
  have hend : ((beginGap l (linkTestEnded l rid (bump (.link l .sent) s))).links.get l).rx =
      .discarding true := by
    simp [beginGap, linkTestEnded_links, LinkPort.txIdle, hrx]
  rw [exec_linkSent ha, linkSent_own htx hl (by simp [hrx, LinkRx.own]), takeLinkBytes_discarding hrx,
    flightEnded_linkTest (rid := rid) (by simpa using hf) (by simp [htx]) (by simpa using hslot),
    fillSlot_of_no_wait (by simpa [State.testOf, linkTestEnded] using hlast), endLinkReception, hend]
  exact congrArg Host.Outcome.next
    (settleSweep_of_sweep hwait (by simp [beginGap, linkTestEnded, setLinkRx]))

/-- The fresh frame that waited for the slot is placed (R45). -/
theorem exec_linkSent_fresh {w : PortTest}
    (hown : (s.links.get l).loop ≠ .internal ∨ (s.links.get l).rx.own = false)
    (hw : s.testOf (.link l) = some w) (hslotWait : w.wait = .slot) (hsends : w.phase.sends = true)
    (hfree : 0 < s.pool.free) :
    ∃ t, exec (.linkSent l) s = .next t ∧ freshTest (.link l) w s t ∧
      (t.links.get l).tx = .gap ∧ (t.links.get l).inFlight = none ∧ countedUp (.link l .sent) 1 s t := by
  let ended := linkTestEnded l rid (bump (.link l .sent) s)
  obtain ⟨hservice, hsweep, hnext, hempty⟩ :
      ended.service = s.service ∧ ended.sweep = s.sweep ∧ ended.nextRecord = s.nextRecord ∧
        ended.slots.get (.link l) = none := by
    simpa using linkTestEnded_leaves (l := l) (rid := rid) (s := bump (.link l .sent) s)
  have hw' : ended.testOf (.link l) = some w := by rw [← hw, State.testOf, hservice, State.testOf]
  have hfree' : 0 < ended.pool.free := lt_of_lt_of_le (by simpa using hfree) free_linkTestEnded
  obtain ⟨-, hsweep', -, hlinks⟩ := placeTest_leaves (.link l) ended
  have fresh : freshTest (.link l) w ended (placeTest (.link l) ended) :=
    placeTest_fresh hw' hsends hempty hfree'
  refine ⟨beginGap l (placeTest (.link l) ended), ?_, freshTest_congr hnext hservice fresh,
    by simp [beginGap], ?_, ?_⟩
  · rw [exec_linkSent_test ha hslot htx hf hown, fillSlot_of_wait hw' hslotWait hempty]
    exact congrArg Host.Outcome.next (settleSweep_of_sweep hwait (hsweep'.trans hsweep))
  · simp [beginGap, hlinks, ended, linkTestEnded_links, LinkPort.txIdle]
  · show (placeTest (.link l) ended).count _ = _
    rw [count_placeTest rfl (by simp), count_linkTestEnded, count_bump, if_pos rfl]

/-- In INTERNAL mode the transmission's own reception has taken every byte and hands the frame over good
(R21, R23, R24, log entry 30). -/
theorem exec_linkSent_received {r : Nat} (hl : (s.links.get l).loop = .internal)
    (hrx : (s.links.get l).rx = .receiving ⟨[], 0, crc32Start, [], r, false, true⟩)
    (hwire : (s.links.get l).wire = officeFrame
      ⟨.address 0xFFFE, .address 0xFFFE, kindTest, (s.payload rid).length⟩ (s.payload rid))
    (hp : (s.payload rid).length ≤ 128) (hr : s.records.find r = some ⟨1, [], 1⟩) (hne : r ≠ rid)
    (hlast : ∀ w, s.testOf (.link l) = some w → w.wait ≠ .slot) :
    ∃ t, exec (.linkSent l) s = .next t ∧ (t.links.get l).tx = .gap ∧
      (t.links.get l).inFlight = none ∧ (t.links.get l).rx = .idle ∧
      t.slots.get (.link l) = none ∧ t.payload r = s.payload rid ∧
      t.handover.get (.link l) = s.handover.get (.link l) ++
        [⟨⟨.address 0xFFFE, .address 0xFFFE, kindTest, (s.payload rid).length⟩, r⟩] ∧
      countedUp (.link l .sent) 1 s t ∧ countedUp (.link l .good) 1 s t := by
  let h : Header := ⟨.address 0xFFFE, .address 0xFFFE, kindTest, (s.payload rid).length⟩
  obtain ⟨records, full, htake, hheader, hrecord, hgood, hfind, -⟩ :=
    takeLinkBytes_officeFrame (d := 0xFFFE) (n := 0xFFFE) (kind := kindTest) hrx hr hp
  let received := setLinkRx l (.receiving full) { s with records := records }
  let ended := linkTestEnded l rid (bump (.link l .sent) received)
  let gap := beginGap l ended
  have htake' : takeLinkBytes l (s.links.get l).wire s = received := by rw [hwire]; exact htake
  have hread : readOfficeHeader full.header = h := by
    rw [hheader]
    exact readOfficeHeader_officeHeader 0xFFFE 0xFFFE kindTest (by omega)
  have hgaprx : (gap.links.get l).rx = .receiving full := by
    simp [gap, beginGap, ended, linkTestEnded_links, LinkPort.txIdle, received, setLinkRx]
  have hpayload : gap.payload r = s.payload rid := by
    refine payload_of_find (f := ⟨1, s.payload rid, 1⟩) ((find_linkTestEnded hne).trans ?_)
    simpa [received, setLinkRx] using hfind
  refine ⟨handOver (.link l) h r (bump (.link l .good) (setLinkRx l .idle gap)), ?_, ?_⟩
  · rw [exec_linkSent ha, linkSent_own htx hl (by simp [hrx, LinkRx.own]), htake',
      flightEnded_linkTest (rid := rid) (by simpa [received, setLinkRx] using hf)
        (by simp [received, setLinkRx, htx]) (by simpa [received, setLinkRx] using hslot),
      fillSlot_of_no_wait (by simpa [State.testOf, linkTestEnded, received, setLinkRx] using hlast),
      endLinkReception_good hgaprx hgood, hread, hrecord]
    exact congrArg Host.Outcome.next
      (settleSweep_of_sweep hwait (by simp [gap, beginGap, ended, linkTestEnded, received, setLinkRx]))
  · have hsent : countedUp (.link l .sent) 1 s ended := by
      rw [countedUp, count_linkTestEnded, count_bump, if_pos rfl]
      rfl
    have hgoodCount : ended.count (.link l .good) = s.count (.link l .good) := by
      rw [count_linkTestEnded, count_bump_other (by simp)]
      rfl
    have hafter : ∀ c, (handOver (.link l) h r (bump (.link l .good) (setLinkRx l .idle gap))).count c =
        (bump (.link l .good) (setLinkRx l .idle gap)).count c := fun c => rfl
    refine ⟨by simp [setLinkRx, gap, beginGap], ?_, by simp [setLinkRx], ?_, hpayload ▸ ?_, ?_, ?_, ?_⟩
    · simp [setLinkRx, gap, beginGap, ended, linkTestEnded_links, LinkPort.txIdle]
    · simp [setLinkRx, gap, beginGap, ended, linkTestEnded]
    · simp [State.payload, setLinkRx]
    · simp [setLinkRx, gap, beginGap, ended, linkTestEnded, received, h]
    · rw [countedUp, hafter, count_bump_other (by simp)]
      exact hsent
    · rw [countedUp, hafter, count_bump, if_pos rfl]
      show min _ (ended.count _ + 1) = _
      rw [hgoodCount]

end

/-- What the modes make of LINK_TAKE_FRAME, where the slot holds a TEST frame (R25, R27). -/
theorem exec_linkTake_test {l : Link} {s : State} {rid : Nat} (ha : s.active = true)
    (hslot : s.slots.get (.link l) = some rid) (htx : (s.links.get l).tx = .idle)
    (hl : (s.links.get l).loop = .internal ∨
      (s.links.get l).loop = .external ∧ (s.links.get l).line = .connected) :
    let taken := addRef rid (modLink l (fun t => { t with
      inFlight := some .test, tx := .sending
      wire := officeFrame ⟨.address 0xFFFE, .address 0xFFFE, kindTest, (s.payload rid).length⟩
        (s.payload rid) }) s)
    exec (.linkTakeFrame l) s = .next (if (s.links.get l).loop = .internal ∧ (s.links.get l).rx = .idle then
      beginLinkReception l true taken else taken) := by
  have hframe : s.frameOf (.link l) .test =
      some (⟨.address 0xFFFE, .address 0xFFFE, kindTest, (s.payload rid).length⟩, rid) := by
    simp [State.frameOf, hslot, Port.side, Side.bridgeKey]
  rw [exec_linkTake ha, linkTake_some (linkTakes_test htx hl hslot) hframe]

/-- Settles O17: a queue head taken and sent; the gap, and where nothing is taken; and a TEST frame in the two
loop modes. -/
theorem linkSendsItsQueueHead : Obligations.LinkSendsItsQueueHead := by
  refine ⟨fun l s e es ha hwait hl hq => ⟨fun htx hs hline => ?_, fun htx hf => ?_⟩,
    fun l s ha => ⟨exec_gapExpiry ha, exec_gapExpiry_none, fun h => exec_linkTake_none (linkTakes_none h)⟩,
    fun l s rid ha hslot => ?_⟩
  · rw [exec_linkTake ha, linkTake_some (h := e.header) (rid := e.record)
      (linkTakes_head htx hl hs hline (by simp [hq])) (by simp [State.frameOf, hq]),
      if_neg (by simp [hl])]
  · refine ⟨_, exec_linkSent_head ha hwait htx hl hf hq, by simp [beginGap], by simp [beginGap],
      by simp [beginGap, LinkPort.txIdle], ?_, ?_, fun p hp => by simp [beginGap, hp.symm]⟩
    · show State.count (releaseRef e.record _) _ = _
      rw [count_releaseRef, count_of_counters (s := bump (.link l .sent) s) _ (by simp), count_bump,
        if_pos rfl]
    · exact releaseRef_records_congr _ (releaseRef_records_congr _ (by simp))
  · intro v h wire
    refine ⟨fun htx => ?_, fun hf hwait htx => ⟨fun hlast => ⟨fun hown => ?_, fun hl hrx => ?_,
      fun r hl hrx hwire hp hr hne => ?_⟩, fun w hw hslotWait hsends hfree hown => ?_⟩⟩
    · intro taken
      refine ⟨fun hl hline => ?_, fun hl => ?_⟩
      · rw [exec_linkTake_test ha hslot htx (.inr ⟨hl, hline⟩), if_neg fun hb => ?_]
        exact absurd (hl.symm.trans hb.1) (by decide)
      · have htake := exec_linkTake_test ha hslot htx (.inl hl)
        have hfree : taken.pool.free = s.pool.free := by simp [taken]
        have hnext : taken.nextRecord = s.nextRecord := by simp [taken]
        refine ⟨fun hrx => ?_, fun hrx hno => ?_, fun hrx hsome => ?_⟩
        · rw [htake, if_neg fun hb => hrx hb.2]
        · rw [htake, if_pos ⟨hl, hrx⟩]
          exact congrArg Host.Outcome.next (beginLinkReception_none l true (hfree.trans hno))
        · rw [htake, if_pos ⟨hl, hrx⟩, ← hnext]
          exact congrArg Host.Outcome.next (beginLinkReception_some l true (hfree ▸ hsome))
    · exact exec_linkSent_test_last ha hwait hslot htx hf hown hlast
    · exact exec_linkSent_discarding ha hwait hslot htx hf hl hrx hlast
    · exact exec_linkSent_received ha hwait hslot htx hf hl hrx hwire hp hr hne hlast
    · exact exec_linkSent_fresh ha hwait hslot htx hf hown hw hslotWait hsends hfree

end Sys2Proof.Machine

/-! The counters of links and interfaces and of purges, which no frame the part makes touches. -/

namespace Sys2Proof.Machine

/-! ### The counters of frames the part makes, one by one (R35, R43, R50, R191) -/

/-- The counters in which a frame the part makes is counted: its record, its offer, its NOTICE. Those of the
purges are not among them. -/
def Counter.framed : Counter → Bool
  | .pool .ownFrameLost => true
  | .queue _ .joined | .queue _ .refusedUnreachable | .queue _ .refusedQuarantinedSource => true
  | .queue _ .refusedTooLong | .queue _ .refusedQueueFull => true
  | .mgmt .noticesSent | .mgmt .noticeLost | .mgmt .noticeNoRoute => true
  | _ => false

/-- Counting in a framed counter leaves every other. -/
theorem count_bump_framed {c d : Counter} (hc : c.framed = false) (hd : d.framed = true) (s : State) :
    (bump d s).count c = s.count c :=
  count_bump_other (fun e => by simp [← e, hd] at hc) s

/-- A refusal is counted in a framed counter. -/
theorem judgeOffer_framed {p : Port} {e : QueueEntry} {s : State} {k : QueueCount}
    (h : judgeOffer p e s = some k) : (Counter.queue p k).framed = true := by
  revert h
  unfold judgeOffer
  dsimp only
  split_ifs <;> rintro ⟨⟩ <;> rfl

section
variable {c : Counter} (hc : c.framed = false)
include hc

theorem framed_offer (p : Port) (e : QueueEntry) (s : State) : (offer p e s).2.count c = s.count c := by
  unfold offer
  split
  · next hrefused => exact count_bump_framed hc (judgeOffer_framed hrefused) s
  · exact (count_bump_framed hc rfl _).trans (count_addRef c _ _)

section
variable {low : State → State} (hl : ∀ s, (low s).count c = s.count c)
include hl

theorem framed_ownRecordWith (bs : List Byte) (s : State) :
    (ownRecordWith low bs s).2.count c = s.count c := by
  unfold ownRecordWith
  dsimp only
  split
  · exact count_bump_framed hc rfl s
  · dsimp only
    split
    · exact hl _
    · rfl

theorem framed_sendOwnWith (p : Port) (d : Key) (k : Byte) (bs : List Byte) (s : State) :
    (sendOwnWith low p d k bs s).2.count c = s.count c := by
  have made := framed_ownRecordWith hc hl bs s
  unfold sendOwnWith
  split
  · next e => rwa [e] at made
  · next r w e =>
    rw [e] at made
    have offered := framed_offer hc p (ownEntry p d k bs.length r) w
    split <;> next e' => rw [e'] at offered; exact (count_releaseRef c r _).trans (offered.trans made)

theorem framed_raiseWith (f : Flag) (s : State) : (raiseWith low f s).count c = s.count c := by
  have noticed : ∀ t, (makeNoticeWith low t).count c = t.count c := fun t => by
    unfold makeNoticeWith
    split
    · rfl
    · split
      · exact count_bump_framed hc rfl t
      · next p d _ =>
        have sent := framed_sendOwnWith hc hl p d kindNotice (noticePayload p.side t) t
        split <;> next e => rw [e] at sent; exact (count_bump_framed hc rfl _).trans sent
  unfold raiseWith becomeCounting
  split
  · rfl
  · dsimp only
    split
    · split
      · rfl
      · exact noticed _
    · rfl

end

/-- A raise counts in framed counters only. -/
theorem framed_raise (f : Flag) (s : State) : (raise f s).count c = s.count c :=
  framed_raiseWith hc (framed_raiseWith hc (low := setFlag .poolLow) (fun _ => rfl) .poolLow) f s

theorem framed_ownRecord (bs : List Byte) (s : State) : (ownRecord bs s).2.count c = s.count c :=
  framed_ownRecordWith hc (framed_raise hc .poolLow) bs s

theorem framed_sendOwn (p : Port) (d : Key) (k : Byte) (bs : List Byte) (s : State) :
    (sendOwn p d k bs s).2.count c = s.count c :=
  framed_sendOwnWith hc (framed_raise hc .poolLow) p d k bs s

/-- Placing a TEST frame counts nothing else but a loss of its record. -/
theorem framed_placeTest {p : Port} (hp : c ≠ .service p .testFrameLost) (s : State) :
    (placeTest p s).count c = s.count c := by
  unfold placeTest
  split
  · rfl
  · next t _ =>
    split
    · rfl
    · split
      · rfl
      · have made := framed_ownRecord hc (s.testFrame p t) s
        split
        · next e =>
          rw [e] at made
          exact (count_bump_other hp.symm _).trans made
        · next e =>
          rw [e] at made
          exact made

end

/-- The counters of the links and the interfaces, and those of the purges for a loss of connection. -/
def Counter.ofLine : Counter → Bool
  | .link _ _ | .iface _ _ | .queue _ .purgedLinkLoss => true
  | _ => false

theorem Counter.framed_of_ofLine {c : Counter} (h : c.ofLine = true) : c.framed = false := by
  unfold Counter.ofLine at h
  split at h
  · rfl
  · rfl
  · rfl
  · cases h

/-- Counting elsewhere leaves them. -/
theorem count_bumpBy_elsewhere {c d : Counter} (hc : c.ofLine = true) (hd : d.ofLine = false) (n : Nat)
    (s : State) : (bumpBy d n s).count c = s.count c :=
  count_bumpBy_other (fun e => by simp [e, hc] at hd) n s

theorem count_bump_elsewhere {c d : Counter} (hc : c.ofLine = true) (hd : d.ofLine = false) (s : State) :
    (bump d s).count c = s.count c :=
  count_bumpBy_elsewhere hc hd 1 s

end Sys2Proof.Machine

/-! The isolation controller's work at one port whatever reply is held: what it leaves as it stands at that
port's line, and at every other port. -/

namespace Sys2Proof.Machine

/-! ### The line of a link under the controller's work -/

/-- From `v` to `w` a link's line is as it was, and a receiver that was IDLE still is. -/
structure LinkPort.LineKept (v w : LinkPort) : Prop where
  line : w.line = v.line
  seen : w.signalSeen = v.signalSeen
  pause : w.retrainPause = v.retrainPause
  rx : v.rx = .idle → w.rx = .idle

theorem LinkPort.LineKept.refl (v : LinkPort) : v.LineKept v := ⟨rfl, rfl, rfl, id⟩

theorem LinkPort.LineKept.trans {u v w : LinkPort} (h : u.LineKept v) (k : v.LineKept w) : u.LineKept w :=
  ⟨k.line.trans h.line, k.seen.trans h.seen, k.pause.trans h.pause, fun hrx => k.rx (h.rx hrx)⟩

/-- From `s` to `t` every link's line is as it was. -/
def LinesKept (s t : State) : Prop := ∀ l, (s.links.get l).LineKept (t.links.get l)

theorem linesKept_of_links {s t : State} (h : t.links = s.links) : LinesKept s t := fun l => by
  rw [h]
  exact .refl _

theorem LinesKept.trans {s t u : State} (h : LinesKept s t) (k : LinesKept t u) : LinesKept s u :=
  fun l => (h l).trans (k l)

theorem linesKept_modLink (l : Link) {f : LinkPort → LinkPort} (s : State)
    (h : (s.links.get l).LineKept (f (s.links.get l))) : LinesKept s (modLink l f s) := fun m => by
  by_cases hm : l = m
  · subst hm
    simpa using h
  · simp only [modLink_links, PerLink.get_set, hm, if_false]
    exact .refl _

theorem links_of_released {s t : State} (h : Released s t) : t.links = s.links := by
  obtain ⟨pool, records, rfl⟩ := h
  rfl

theorem links_emptySlot (p : Port) (s : State) : (emptySlot p s).links = s.links := by
  obtain ⟨_, ⟨pool, records, rfl⟩, h⟩ := emptySlot_eq p s
  rw [h]

theorem linesKept_idleTx (p : Port) (s : State) : LinesKept s (idleTx p s) := by
  cases p with
  | seg x => exact linesKept_of_links rfl
  | link l =>
    refine linesKept_modLink l (f := fun t => if t.tx = .gap then t else t.txIdle) s ?_
    split
    · exact .refl _
    · exact ⟨rfl, rfl, rfl, id⟩

theorem linesKept_abortTx (p : Port) (s : State) : LinesKept s (abortTx p s) :=
  (linesKept_of_links (links_of_released (released_releaseInFlight p s))).trans (linesKept_idleTx p _)

theorem linesKept_abandonLink (l : Link) (s : State) : LinesKept s (abandonLink l s) := by
  unfold abandonLink
  split
  · next r _ =>
    refine (linesKept_of_links (links_of_released (released_releaseRef r.record s))).trans ?_
    exact linesKept_modLink l _ ⟨rfl, rfl, rfl, fun _ => rfl⟩
  · exact linesKept_modLink l s ⟨rfl, rfl, rfl, fun _ => rfl⟩

theorem links_abandonSeg (x : Seg) (s : State) : (abandonSeg x s).links = s.links := by
  unfold abandonSeg
  split
  · next r _ =>
    show (releaseRef r.record s).links = s.links
    exact links_of_released (released_releaseRef r.record s)
  · rfl

theorem linesKept_setLoopMode (p : Port) (m : LoopMode) (s : State) : LinesKept s (setLoopMode p m s) := by
  have aborted : LinesKept s (if s.inFlight p = some .test then emptySlot p (abortTx p s) else s) := by
    split
    · exact (linesKept_abortTx p s).trans (linesKept_of_links (links_emptySlot p _))
    · exact linesKept_of_links rfl
  unfold setLoopMode
  split
  · exact linesKept_of_links rfl
  · cases p with
    | seg x => exact aborted.trans (linesKept_of_links (links_abandonSeg x _))
    | link l =>
      exact aborted.trans ((linesKept_abandonLink l _).trans (linesKept_modLink l _ ⟨rfl, rfl, rfl, id⟩))

theorem linesKept_endTest (p : Port) (s : State) : LinesKept s (endTest p s) :=
  (linesKept_setLoopMode p .normal s).trans (linesKept_of_links (links_emptySlot p _))

theorem linesKept_purgePort (p : Port) (why : PurgeReason) (s : State) :
    LinesKept s (purgePort p why s) := by
  obtain ⟨pool, records, h⟩ := purgePort_eq p why s
  rw [h]
  refine LinesKept.trans (t := { s with
      pool := pool, records := records, slots := s.slots.set p none, queues := s.queues.set p [] })
    (linesKept_of_links rfl) ((linesKept_idleTx p _).trans (linesKept_of_links (by simp)))

/-! ### The counters under the controller's work -/

theorem counters_emptySlot (p : Port) (s : State) : (emptySlot p s).counters = s.counters := by
  obtain ⟨_, ⟨pool, records, rfl⟩, h⟩ := emptySlot_eq p s
  rw [h]

theorem counters_abortTx (p : Port) (s : State) : (abortTx p s).counters = s.counters := by
  obtain ⟨pool, records, h⟩ := released_releaseInFlight p s
  rw [abortTx, h]
  cases p <;> rfl

theorem counters_setLoopMode (p : Port) (m : LoopMode) (s : State) :
    (setLoopMode p m s).counters = s.counters := by
  have aborted : (if s.inFlight p = some .test then emptySlot p (abortTx p s) else s).counters =
      s.counters := by
    split
    · rw [counters_emptySlot, counters_abortTx]
    · rfl
  unfold setLoopMode
  split
  · rfl
  · cases p with
    | seg x =>
      dsimp only [modSeg_counters]
      unfold abandonSeg
      split <;> simpa [dropRecord] using aborted
    | link l =>
      dsimp only [modLink_counters]
      unfold abandonLink
      split <;> simpa [dropRecord] using aborted

theorem count_endTest (c : Counter) (p : Port) (s : State) : (endTest p s).count c = s.count c :=
  count_of_counters c ((counters_emptySlot p _).trans (counters_setLoopMode p .normal s))

theorem count_purgePort_other {c : Counter} {p : Port} {why : PurgeReason} (h : c ≠ .queue p why.counter)
    (s : State) : (purgePort p why s).count c = s.count c := by
  obtain ⟨pool, records, e⟩ := purgePort_eq p why s
  rw [e, count_bumpBy_other h.symm]
  cases p <;> rfl

/-! ### Work at one port, whatever reply is held -/

/-- From `s` to `t` the isolation controller has worked at port `p`: every link's line, the other ports, the
queues of the other unreachable ports, the interfaces and the counters of the lines stand. -/
structure Works (p : Port) (s t : State) : Prop where
  lines : LinesKept s t
  service : ∀ q, q ≠ p → t.service.get q = s.service.get q
  link : ∀ l, .link l ≠ p → t.links.get l = s.links.get l
  queue : ∀ q, q ≠ p → s.unreachable q → t.queues.get q = s.queues.get q
  ifaces : t.ifaces = s.ifaces
  count : ∀ c : Counter, c.ofLine = true → t.count c = s.count c

theorem Works.unreachable {p q : Port} {s t : State} (h : Works p s t) (hq : q ≠ p)
    (hs : s.unreachable q) : t.unreachable q := by
  simpa only [State.unreachable, State.serviceOf, h.service q hq] using hs

theorem works_refl (p : Port) (s : State) : Works p s s :=
  ⟨linesKept_of_links rfl, fun _ _ => rfl, fun _ _ => rfl, fun _ _ _ => rfl, rfl, fun _ _ => rfl⟩

theorem Works.trans {p : Port} {s t u : State} (h : Works p s t) (k : Works p t u) : Works p s u where
  lines := h.lines.trans k.lines
  service q hq := (k.service q hq).trans (h.service q hq)
  link l hl := (k.link l hl).trans (h.link l hl)
  queue q hq hs := (k.queue q hq (h.unreachable hq hs)).trans (h.queue q hq hs)
  ifaces := k.ifaces.trans h.ifaces
  count c hc := (k.count c hc).trans (h.count c hc)

theorem AtPort.ifaces {p : Port} {s t : State} (h : AtPort p s t) : t.ifaces = s.ifaces :=
  (congrArg State.ifaces h.rest : t.bare.ifaces = s.bare.ifaces)

/-- Work at a port in the narrower sense that keeps the lines and their counters. -/
theorem AtPort.works {p : Port} {s t : State} (h : AtPort p s t) (hl : LinesKept s t)
    (hc : ∀ c : Counter, c.ofLine = true → t.count c = s.count c) : Works p s t :=
  ⟨hl, h.service, h.link, h.queue, h.ifaces, hc⟩

/-- Work that leaves the ports and their queues alone. -/
theorem works_of_eq {p : Port} {s t : State} (hlinks : t.links = s.links) (hservice : t.service = s.service)
    (hqueues : t.queues = s.queues) (hifaces : t.ifaces = s.ifaces)
    (hc : ∀ c : Counter, c.ofLine = true → t.count c = s.count c) : Works p s t :=
  ⟨linesKept_of_links hlinks, fun _ _ => by rw [hservice], fun _ _ => by rw [hlinks],
    fun _ _ _ => by rw [hqueues], hifaces, hc⟩

theorem raise_lines (f : Flag) (s : State) :
    (raise f s).links = s.links ∧ (raise f s).slots = s.slots := by
  obtain ⟨_, _, _, _, _, _, _, _, hlinks, _, hslots, _⟩ := sameButFrames_fields (raise_same f s)
  exact ⟨hlinks, hslots⟩

theorem links_placeTest (p : Port) (s : State) : (placeTest p s).links = s.links := by
  obtain ⟨-, -, -, hlinks⟩ := placeTest_leaves p s
  exact hlinks

section
variable (p : Port) (s : State)

theorem works_bump {c : Counter} (hc : c.ofLine = false) : Works p s (bump c s) :=
  works_of_eq (by simp) (by simp) (by simp) (by simp) fun _ hd => count_bump_elsewhere hd hc s

theorem works_modService (f : PortService → PortService) : Works p s (modService p f s) :=
  (atPort_modService p f s).works (linesKept_of_links rfl) fun _ _ => rfl

theorem works_raise (f : Flag) : Works p s (raise f s) :=
  (atPort_raise p f s).works (linesKept_of_links (raise_lines f s).1)
    fun _ hc => framed_raise (Counter.framed_of_ofLine hc) f s

theorem works_setLoopMode (m : LoopMode) : Works p s (setLoopMode p m s) :=
  (atPort_setLoopMode p m s).works (linesKept_setLoopMode p m s)
    fun c _ => count_of_counters c (counters_setLoopMode p m s)

theorem works_emptySlot : Works p s (emptySlot p s) :=
  (atPort_emptySlot p s).works (linesKept_of_links (links_emptySlot p s))
    fun c _ => count_of_counters c (counters_emptySlot p s)

theorem works_abortTx : Works p s (abortTx p s) :=
  (atPort_abortTx p s).works (linesKept_abortTx p s) fun c _ => count_of_counters c (counters_abortTx p s)

theorem works_endTest : Works p s (endTest p s) :=
  (atPort_endTest p s).works (linesKept_endTest p s) fun c _ => count_endTest c p s

theorem works_purgePort {why : PurgeReason} (h : why ≠ .linkLoss) : Works p s (purgePort p why s) := by
  refine (atPort_purgePort p why s).works (linesKept_purgePort p why s) fun c hc => ?_
  refine count_purgePort_other (fun e => ?_) s
  cases why <;> simp [e, PurgeReason.counter, Counter.ofLine] at hc h

theorem works_placeTest : Works p s (placeTest p s) :=
  (atPort_placeTest p s).works (linesKept_of_links (links_placeTest p s)) fun c hc =>
    framed_placeTest (Counter.framed_of_ofLine hc) (fun e => by simp [e, Counter.ofLine] at hc) s

theorem works_startPhase (ph : TestPhase) : Works p s (startPhase p ph s) :=
  ((works_modService p s _).trans (works_setLoopMode p _ _)).trans (works_placeTest p _)

theorem works_beginTest (why : TestPurpose) (ph : TestPhase) : Works p s (beginTest p why ph s) :=
  (works_modService p s _).trans (works_startPhase p _ ph)

theorem works_handResult (pass : Bool) : Works p s (handResult p pass s) := by
  have counted := works_bump p s (c := .service p (if pass then .probesPass else .probesFail)) rfl
  unfold handResult
  dsimp only
  split
  · exact counted.trans (works_of_eq rfl rfl rfl rfl fun _ _ => rfl)
  · exact counted

theorem works_cutTest : Works p s (cutTest p s) := by
  unfold cutTest
  split
  · exact works_refl p s
  · split
    · exact (works_endTest p s).trans (works_handResult p _ false)
    · exact works_endTest p s

end

/-! ### A port enters a service state -/

/-- In TESTING and PROBING a held reply waits on (R196). -/
theorem setService_waits {p : Port} {st : Service} {s : State} (h : st = .testing ∨ st = .probing) :
    setService p st s = modService p (fun v => { v with state := st }) s := by
  unfold setService settleHeld
  split
  · rfl
  · split
    · rcases h with rfl | rfl <;> rfl
    · rfl

/-- In a state other than IN-SERVICE a reply held for the port waits on or is lost, and nothing else
changes (R196). -/
theorem setService_eq {p : Port} {st : Service} {s : State} (h : st ≠ .inService) : ∃ reply counters,
    setService p st s =
        { modService p (fun v => { v with state := st }) s with heldReply := reply, counters := counters } ∧
      ∀ c, c ≠ .mgmt .replyLost → (setService p st s).count c = s.count c := by
  let u := modService p (fun v => { v with state := st }) s
  have waits : ∃ reply counters, u = { u with heldReply := reply, counters := counters } ∧
      ∀ c, c ≠ .mgmt .replyLost → u.count c = s.count c := ⟨u.heldReply, u.counters, rfl, fun _ _ => rfl⟩
  have lost : ∃ reply counters, loseHeld u = { u with heldReply := reply, counters := counters } ∧
      ∀ c, c ≠ .mgmt .replyLost → (loseHeld u).count c = s.count c := by
    obtain ⟨counters, e, hcount, -⟩ := loseHeld_eq u
    exact ⟨none, counters, e, hcount⟩
  have e : setService p st s = settleHeld p st u := rfl
  rw [e]
  unfold settleHeld
  split
  · exact waits
  · split
    · cases st with
      | inService => exact absurd rfl h
      | probing | testing => exact waits
      | isolated | failed | off => exact lost
    · exact waits

theorem works_setService {p : Port} {st : Service} (s : State) (h : st ≠ .inService) :
    Works p s (setService p st s) := by
  obtain ⟨reply, counters, e, hcount⟩ := setService_eq (p := p) (s := s) h
  have moved := works_modService p s (fun v => { v with state := st })
  refine ⟨?_, ?_, ?_, ?_, ?_, fun c hc => hcount c fun e => by simp [e, Counter.ofLine] at hc⟩ <;> rw [e]
  · exact moved.lines
  · exact moved.service
  · exact moved.link
  · exact moved.queue
  · rfl

theorem service_setService {p : Port} {st : Service} (s : State) (h : st ≠ .inService) :
    (setService p st s).service = s.service.set p { s.service.get p with state := st } := by
  obtain ⟨_, _, e, -⟩ := setService_eq (p := p) (s := s) h
  rw [e]
  rfl

end Sys2Proof.Machine

/-! What the isolation controller leaves of a port that it isolates, tests, cuts off or takes OFF (R164, R165,
R167, R170, R171). -/

namespace Sys2Proof.Machine

/-! ### Loop modes and slots -/

theorem loopMode_modService (p : Port) (f : PortService → PortService) (s : State) :
    (modService p f s).loopMode p = s.loopMode p := by cases p <;> rfl

theorem loopMode_bumpBy (p : Port) (c : Counter) (n : Nat) (s : State) :
    (bumpBy c n s).loopMode p = s.loopMode p := by cases p <;> simp [State.loopMode]

theorem loopMode_purgePort (p : Port) (why : PurgeReason) (s : State) :
    (purgePort p why s).loopMode p = s.loopMode p := by
  cases p with
  | seg x => simp [State.loopMode, purgePort_seg]; rfl
  | link l =>
    simp only [State.loopMode, purgePort_link, PerLink.get_set, if_true]
    split <;> rfl

theorem loopMode_endTest (p : Port) (s : State) : (endTest p s).loopMode p = .normal := by
  have mode := loopMode_setLoopMode p .normal s
  obtain ⟨u, hu, e⟩ := emptySlot_eq p (setLoopMode p .normal s)
  obtain ⟨pool, records, rfl⟩ := hu
  unfold endTest
  dsimp only
  rw [loopMode_modService, e]
  cases p <;> exact mode

theorem slot_emptySlot (p : Port) (s : State) : (emptySlot p s).slots.get p = none := by
  obtain ⟨u, -, e⟩ := emptySlot_eq p s
  rw [e]
  simp

theorem slot_endTest (p : Port) (s : State) : (endTest p s).slots.get p = none := by
  simp [endTest, slot_emptySlot]

theorem slots_of_released {s t : State} (h : Released s t) : t.slots = s.slots := by
  obtain ⟨pool, records, rfl⟩ := h
  rfl

/-- A change of loop mode fills no slot. -/
theorem slot_setLoopMode {p : Port} {s : State} (m : LoopMode) (h : s.slots.get p = none) :
    (setLoopMode p m s).slots.get p = none := by
  have aborted : (if s.inFlight p = some .test then emptySlot p (abortTx p s) else s).slots.get p = none := by
    split
    · exact slot_emptySlot p _
    · exact h
  unfold setLoopMode
  split
  · exact h
  · cases p with
    | seg x =>
      dsimp only [modSeg_slots]
      unfold abandonSeg
      split
      · next r _ =>
        dsimp only [modSeg_slots, dropRecord]
        rw [slots_of_released (released_releaseRef r.record _)]
        exact aborted
      · exact aborted
    | link l =>
      dsimp only [modLink_slots]
      unfold abandonLink
      split
      · next r _ =>
        dsimp only [modLink_slots, dropRecord]
        rw [slots_of_released (released_releaseRef r.record _)]
        exact aborted
      · exact aborted

/-! ### The test is cut off (R164, R170) -/

theorem service_handResult (p : Port) (pass : Bool) (s : State) :
    (handResult p pass s).service = s.service := by
  unfold handResult
  dsimp only
  split <;> simp [modSweep]

/-- A cut takes the test away, and nothing else of the port's record. -/
theorem service_cutTest (p : Port) (s : State) :
    (cutTest p s).service = s.service.set p { s.service.get p with test := none } := by
  unfold cutTest
  split
  · next h =>
    have e : { s.service.get p with test := none } = s.service.get p := by
      rw [← h]
      rfl
    rw [e, PerPort.set_get]
  · split
    · rw [service_handResult, service_endTest]
    · exact service_endTest p s

theorem queues_handResult (p : Port) (pass : Bool) (s : State) :
    (handResult p pass s).queues = s.queues := by
  unfold handResult
  dsimp only
  split <;> simp [modSweep]

theorem queues_endTest (p : Port) (s : State) : (endTest p s).queues = s.queues := by
  simp [endTest, queues_emptySlot, queues_setLoopMode]

theorem queues_cutTest (p : Port) (s : State) : (cutTest p s).queues = s.queues := by
  unfold cutTest
  split
  · rfl
  · split
    · rw [queues_handResult, queues_endTest]
    · exact queues_endTest p s

/-- A cut gives the sweep engine no result but a loop's. -/
theorem sweep_cutTest {p : Port} {s : State} (h : ∀ v, s.testOf p = some v → v.purpose = .entry) :
    (cutTest p s).sweep = s.sweep := by
  unfold cutTest
  split
  · rfl
  · next t e =>
    rw [if_neg (by simp [PortTest.isLoop, h t e])]
    exact (atPort_endTest p s).sweep

/-- A loop cut off has FAILED, which is counted, and the engine has the result. -/
theorem cutTest_loop {p : Port} {v : PortTest} {s : State} (hv : s.testOf p = some v)
    (hloop : v.purpose ≠ .entry) : cutTest p s = handResult p false (endTest p s) := by
  simp [cutTest, hv, PortTest.isLoop, hloop]

/-! ### A test begins (R164, R169) -/

/-- A test begun has a new number and stands in the port's record, and nothing else of that changes. -/
theorem service_beginTest (p : Port) (why : TestPurpose) (ph : TestPhase) (s : State) :
    ∃ timer wait, (beginTest p why ph s).service = s.service.set p { s.service.get p with
      testNumber := (s.service.get p).testNumber + 1, test := some ⟨why, ph, 1, timer, wait⟩ } := by
  obtain ⟨timer, wait, e⟩ := service_startPhase (p := p) (v := ⟨why, ph, 1, none, .none⟩) ph
    (s := modService p (fun v => { v with
      testNumber := v.testNumber + 1, test := some ⟨why, ph, 1, none, .none⟩ }) s)
    (by simp [State.testOf])
  refine ⟨timer, wait, e.trans ?_⟩
  simp

/-- A test that waits for its link sends nothing: the loop mode is NORMAL, and the record has the test. -/
theorem beginTest_waitConnect (p : Port) (why : TestPurpose) (s : State) :
    beginTest p why .waitConnect s = setLoopMode p .normal (modService p (fun v => { v with
      testNumber := v.testNumber + 1, test := some ⟨why, .waitConnect, 1, none, .none⟩ }) s) := by
  let begun := modService p (fun v => { v with
      testNumber := v.testNumber + 1, test := some ⟨why, .waitConnect, 1, none, .none⟩ }) s
  have placed : placeTest p (setLoopMode p .normal begun) = setLoopMode p .normal begun := by
    have ht : (setLoopMode p .normal begun).testOf p = some ⟨why, .waitConnect, 1, none, .none⟩ := by
      simp [State.testOf, service_setLoopMode, begun]
    simp [placeTest, ht, TestPhase.sends]
  have same : modTest p (fun t => { t with
      phase := .waitConnect, sequence := 1, timer := none, wait := .none }) begun = begun := by
    simp [modTest, modService, begun]
  unfold beginTest startPhase
  dsimp only
  rw [show modService p _ s = begun from rfl, same]
  exact placed

/-- The record of a port that enters its entry test in a phase. -/
def PortService.tested (v : PortService) (ph : TestPhase) (timer : Option Nat) (wait : FrameWait) : PortService :=
  { v with
    state := .testing, holdTimer := none, holdExpired := false, testNumber := v.testNumber + 1
    test := some ⟨.entry, ph, 1, timer, wait⟩ }

/-- The port in TESTING with its hold timer stopped, before its entry test. -/
def intoTesting (p : Port) (s : State) : State :=
  modService p (fun v => { v with state := .testing, holdTimer := none, holdExpired := false }) s

theorem enterTesting_begins (p : Port) (s : State) : enterTesting p s = beginEntry p (intoTesting p s) := by
  unfold enterTesting
  rw [setService_waits (.inl rfl)]
  simp [stopHold, modService, intoTesting]

/-- The phase that an entry test begins in (R164). -/
def State.entryPhase (s : State) (p : Port) : TestPhase := if s.ready p then .internal else .waitConnect

theorem beginEntry_eq (p : Port) (s : State) : beginEntry p s = beginTest p .entry (s.entryPhase p) s := rfl

theorem entryPhase_intoTesting (p : Port) (s : State) : (intoTesting p s).entryPhase p = s.entryPhase p := by
  cases p <;> rfl

theorem entryPhase_of_not_connected {l : Link} {s : State} (h : (s.links.get l).line ≠ .connected) :
    s.entryPhase (.link l) = .waitConnect := by
  simp [State.entryPhase, State.ready, h]

theorem enterTesting_eq_beginTest (p : Port) (s : State) :
    enterTesting p s = beginTest p .entry (s.entryPhase p) (intoTesting p s) := by
  rw [enterTesting_begins, beginEntry_eq, entryPhase_intoTesting]

theorem works_enterTesting (p : Port) (s : State) : Works p s (enterTesting p s) := by
  rw [enterTesting_eq_beginTest]
  exact (works_modService p s _).trans (works_beginTest p _ _ _)

theorem record_enterTesting (p : Port) (s : State) : ∃ timer wait,
    (enterTesting p s).service.get p = (s.service.get p).tested (s.entryPhase p) timer wait := by
  obtain ⟨timer, wait, e⟩ := service_beginTest p .entry (s.entryPhase p) (intoTesting p s)
  refine ⟨timer, wait, ?_⟩
  rw [enterTesting_eq_beginTest, e]
  simp [intoTesting, PortService.tested]

theorem queue_enterTesting (p : Port) (s : State) :
    (enterTesting p s).queues.get p = s.queues.get p := by
  rw [enterTesting_eq_beginTest, queue_beginTest (by simp [State.unreachable, State.serviceOf, intoTesting])]
  simp [intoTesting]

theorem sweep_enterTesting (p : Port) (s : State) : (enterTesting p s).sweep = s.sweep := by
  rw [enterTesting_eq_beginTest, (atPort_beginTest p _ _ _).sweep]
  simp [intoTesting]

/-! ### A port is isolated (R165, R167) -/

theorem enterIsolated_raises (p : Port) (c : IsolationCause) (s : State) :
    ∃ k, k ≠ .probesFail ∧ enterIsolated p c s = raise .portIsolated (bump (.service p k)
      (modService p (fun v => { v with
          cause := some c, holdTimer := some v.holdTime, holdExpired := false, restoreDue := true })
        (purgePort p .isolation (setService p .isolated s)))) := by
  unfold enterIsolated
  refine ⟨_, ?_, rfl⟩
  cases c <;> simp

section
variable (p : Port) (c : IsolationCause) (s : State)

theorem works_enterIsolated : Works p s (enterIsolated p c s) := by
  obtain ⟨k, -, e⟩ := enterIsolated_raises p c s
  rw [e]
  exact ((((works_setService s (by simp)).trans (works_purgePort p _ (by simp))).trans
    (works_modService p _ _)).trans (works_bump p _ rfl)).trans (works_raise p _ _)

theorem record_enterIsolated :
    (enterIsolated p c s).service.get p = (s.service.get p).isolatedFor c := by
  obtain ⟨k, -, e⟩ := enterIsolated_raises p c s
  rw [e, service_raise]
  simp [service_purgePort, service_setService, PortService.isolatedFor]

theorem purged_enterIsolated : (enterIsolated p c s).queues.get p = [] := by
  obtain ⟨k, -, e⟩ := enterIsolated_raises p c s
  rw [e, (keepsQueues_raise _ _).2 p]
  · simp [(purgePort_leaves p _ _).1]
  · simp [State.unreachable, State.serviceOf, service_purgePort, service_setService]

theorem slot_enterIsolated : (enterIsolated p c s).slots.get p = none := by
  obtain ⟨k, -, e⟩ := enterIsolated_raises p c s
  rw [e, (raise_lines _ _).2]
  simp [(purgePort_leaves p _ _).2]

theorem sweep_enterIsolated : (enterIsolated p c s).sweep = s.sweep := by
  obtain ⟨k, -, e⟩ := enterIsolated_raises p c s
  obtain ⟨_, _, hset, -⟩ := setService_eq (p := p) (st := .isolated) (s := s) (by simp)
  rw [e, (atPort_raise p _ _).sweep]
  simp [(atPort_purgePort p _ _).sweep, hset]

theorem loopMode_raise (f : Flag) : (raise f s).loopMode p = s.loopMode p := by
  obtain ⟨_, _, _, _, _, _, _, hsegs, hlinks, _⟩ := sameButFrames_fields (raise_same f s)
  cases p <;> simp [State.loopMode, hsegs, hlinks]

theorem loopMode_enterIsolated : (enterIsolated p c s).loopMode p = s.loopMode p := by
  obtain ⟨k, -, e⟩ := enterIsolated_raises p c s
  obtain ⟨_, _, hset, -⟩ := setService_eq (p := p) (st := .isolated) (s := s) (by simp)
  rw [e, loopMode_raise, bump, loopMode_bumpBy, loopMode_modService, loopMode_purgePort, hset]
  cases p <;> rfl

/-- An isolation is no failed probe. -/
theorem probesFail_enterIsolated :
    (enterIsolated p c s).count (.service p .probesFail) = s.count (.service p .probesFail) := by
  obtain ⟨k, hk, e⟩ := enterIsolated_raises p c s
  obtain ⟨_, _, hset, hcount⟩ := setService_eq (p := p) (st := .isolated) (s := s) (by simp)
  rw [e, framed_raise rfl, count_bump_other (by simp [hk])]
  exact (count_purgePort_other (by simp) _).trans (hcount _ (by simp))

end

end Sys2Proof.Machine

/-! A link's line goes down, its flap is reported, and the requests that follow (R20, R26, R30, R147 to R149,
R167). -/

namespace Sys2Proof.Machine

/-! ### Requests that are ignored (R167) -/

/-- From `s` to `t` isolation requests at port `p` were ignored: only their counts stand higher. -/
def Ignored (p : Port) (s t : State) : Prop := ∃ counters, t = { s with counters := counters } ∧
  ∀ c, (∀ k, c ≠ .faultPort p k) → c ≠ .service p .requestsIgnored → t.count c = s.count c

theorem ignored_refl (p : Port) (s : State) : Ignored p s s := ⟨s.counters, rfl, fun _ _ _ => rfl⟩

theorem Ignored.trans {p : Port} {s t u : State} (h : Ignored p s t) (k : Ignored p t u) : Ignored p s u := by
  obtain ⟨_, rfl, hcount⟩ := h
  obtain ⟨counters, rfl, kcount⟩ := k
  exact ⟨counters, rfl, fun c hf hi => (kcount c hf hi).trans (hcount c hf hi)⟩

theorem Ignored.unreachable {p q : Port} {s t : State} (h : Ignored p s t) (hs : s.unreachable q) :
    t.unreachable q := by
  obtain ⟨_, rfl, -⟩ := h
  exact hs

theorem Ignored.works {p : Port} {s t : State} (h : Ignored p s t) : Works p s t := by
  obtain ⟨counters, rfl, hcount⟩ := h
  exact works_of_eq rfl rfl rfl rfl fun c hc => hcount c (fun k e => by simp [e, Counter.ofLine] at hc)
    fun e => by simp [e, Counter.ofLine] at hc

theorem ignored_bump_faultPort (p : Port) (k : FaultPortCount) (s : State) :
    Ignored p s (bump (.faultPort p k) s) :=
  ⟨_, rfl, fun _ hf _ => count_bump_other (hf k).symm s⟩

/-- A request at a port that is neither IN-SERVICE nor PROBING is ignored and counted (R167). -/
theorem isolate_unreachable {p : Port} (c : IsolationCause) {s : State} (h : s.unreachable p) :
    isolate p c s = bump (.service p .requestsIgnored) s := by
  obtain ⟨hin, hprobing⟩ := h
  unfold isolate
  split
  · next e => exact absurd e hin
  · next e => exact absurd e hprobing
  · rfl

theorem ignored_isolate {p : Port} (c : IsolationCause) {s : State} (h : s.unreachable p) :
    Ignored p s (isolate p c s) := by
  rw [isolate_unreachable c h]
  exact ⟨_, rfl, fun _ _ hi => count_bump_other hi.symm s⟩

theorem ignored_requestIsolation {p : Port} (c : IsolationCause) {s : State} (h : s.unreachable p) :
    Ignored p s (requestIsolation p c s) :=
  (ignored_bump_faultPort p _ s).trans (ignored_isolate c ((ignored_bump_faultPort p _ s).unreachable h))

theorem ignored_makeRequests {p : Port} : ∀ (cs : List IsolationCause) {s : State}, s.unreachable p →
    Ignored p s (makeRequests p cs s)
  | [], s, _ => ignored_refl p s
  | c :: cs, _, h =>
    have first := ignored_requestIsolation c h
    first.trans (ignored_makeRequests cs (first.unreachable h))

/-! ### What a loss of connection leaves elsewhere -/

/-- From `s` to `t` a link has lost its connection: the other links and ports, the queues of the other
unreachable ports, the interfaces and the counters of the other lines stand. -/
structure LossAt (l : Link) (s t : State) : Prop where
  link : ∀ m, m ≠ l → t.links.get m = s.links.get m
  service : ∀ q, q ≠ .link l → t.service.get q = s.service.get q
  queue : ∀ q, q ≠ .link l → s.unreachable q → t.queues.get q = s.queues.get q
  ifaces : t.ifaces = s.ifaces
  count : ∀ c : Counter, c.ofLine = true → (∀ k, c ≠ .link l k) → c ≠ .queue (.link l) .purgedLinkLoss →
    t.count c = s.count c

theorem LossAt.trans {l : Link} {s t u : State} (h : LossAt l s t) (k : LossAt l t u) : LossAt l s u where
  link m hm := (k.link m hm).trans (h.link m hm)
  service q hq := (k.service q hq).trans (h.service q hq)
  queue q hq hs := by
    have ht : t.unreachable q := by simpa only [State.unreachable, State.serviceOf, h.service q hq] using hs
    exact (k.queue q hq ht).trans (h.queue q hq hs)
  ifaces := k.ifaces.trans h.ifaces
  count c hc hl hp := (k.count c hc hl hp).trans (h.count c hc hl hp)

theorem Works.lossAt {l : Link} {s t : State} (h : Works (.link l) s t) : LossAt l s t :=
  ⟨fun m hm => h.link m fun e => hm (by injection e), h.service, h.queue, h.ifaces, fun c hc _ _ => h.count c hc⟩

theorem lossAt_modLink (l : Link) (f : LinkPort → LinkPort) (s : State) : LossAt l s (modLink l f s) :=
  ⟨fun m hm => by simp [hm.symm], fun _ _ => by simp, fun _ _ _ => by simp, by simp, fun _ _ _ _ => rfl⟩

theorem lossAt_purgePort (l : Link) (why : PurgeReason) (s : State) :
    LossAt l s (purgePort (.link l) why s) := by
  have work := atPort_purgePort (.link l) why s
  refine ⟨fun m hm => work.link m fun e => hm (by injection e), work.service, work.queue, work.ifaces,
    fun c hc _ hp => count_purgePort_other (fun e => ?_) s⟩
  cases why <;> simp [e, PurgeReason.counter, Counter.ofLine] at hc hp

/-! ### The line goes down (R20, R26, R30) -/

/-- A test in progress stands: its purpose and phase, and all of it in a phase that sends nothing. -/
def TestStands (a b : Option PortTest) : Prop :=
  b.map PortTest.purpose = a.map PortTest.purpose ∧ b.map PortTest.phase = a.map PortTest.phase ∧
    ∀ v, a = some v → v.phase.sends = false → b = some v

theorem testStands_refl (a : Option PortTest) : TestStands a a := ⟨rfl, rfl, fun _ h _ => h⟩

/-- A phase that sends nothing has no frame to place. -/
theorem placeTest_of_quiet {p : Port} {v : PortTest} {s : State} (hv : s.testOf p = some v)
    (h : v.phase.sends = false) : placeTest p s = s := by
  simp [placeTest, hv, h]

theorem testStands_placeTest (p : Port) (s : State) : ∃ test, (placeTest p s).service =
    s.service.set p { s.service.get p with test := test } ∧ TestStands (s.testOf p) test := by
  obtain ⟨f, hf, e⟩ := service_placeTest p s
  refine ⟨(s.testOf p).map f, e, ?_, ?_, fun v hv hquiet => ?_⟩
  · cases s.testOf p with
    | none => rfl
    | some t => obtain ⟨_, _, ht⟩ := hf t; simp [ht]
  · cases s.testOf p with
    | none => rfl
    | some t => obtain ⟨_, _, ht⟩ := hf t; simp [ht]
  · have stands : (placeTest p s).testOf p = some v := by rw [placeTest_of_quiet hv hquiet, hv]
    simpa [State.testOf, e] using stands

/-- The TEST frame in flight is lost, and the slot is filled again where a fresh one waits (R26). -/
theorem fillSlot_cases (p : Port) (s : State) : fillSlot p s = s ∨ fillSlot p s = placeTest p s := by
  unfold fillSlot
  split
  · split
    · exact .inr rfl
    · exact .inl rfl
  · exact .inl rfl

/-- What stopping a link's transmitter leaves. -/
structure TxStopped (l : Link) (s t : State) : Prop where
  atPort : AtPort (.link l) s t
  works : Works (.link l) s t
  record : ∃ test, t.service = s.service.set (.link l) { s.service.get (.link l) with test := test } ∧
    TestStands (s.testOf (.link l)) test
  queues : s.inFlight (.link l) ≠ some .test ∨ s.testOf (.link l) = none → t.queues = s.queues
  count : ∀ c : Counter, c.framed = false → c ≠ .service (.link l) .testFrameLost → t.count c = s.count c

theorem record_stands (l : Link) (s : State) : ∃ test,
    s.service = s.service.set (.link l) { s.service.get (.link l) with test := test } ∧
      TestStands (s.testOf (.link l)) test :=
  ⟨s.testOf (.link l), (PerPort.set_get _ _).symm, testStands_refl _⟩

theorem txStopped_stopTx (l : Link) (s : State) : TxStopped l s (stopTx l s) := by
  let p := Port.link l
  have unchanged : TxStopped l s s :=
    ⟨atPort_refl _ s, works_refl _ s, record_stands l s, fun _ => rfl, fun _ _ _ => rfl⟩
  unfold stopTx
  dsimp only
  split
  · split
    · next hflight =>
      let u := emptySlot p (abortTx p s)
      have work : AtPort p s u := (atPort_abortTx p s).trans (atPort_emptySlot p _)
      have works : Works p s u := (works_abortTx p s).trans (works_emptySlot p _)
      have service : u.service = s.service := by simp [u, service_emptySlot, service_abortTx]
      have count : ∀ c : Counter, u.count c = s.count c := fun c =>
        count_of_counters c ((counters_emptySlot p _).trans (counters_abortTx p s))
      have queues : u.queues = s.queues := by simp [u, queues_emptySlot, queues_abortTx]
      have flying : s.inFlight p = some .test := hflight
      rcases fillSlot_cases p u with e | e
      · rw [e]
        exact ⟨work, works, by rw [service]; exact record_stands l s, fun _ => queues, fun c _ _ => count c⟩
      · rw [e]
        obtain ⟨test, hservice, hstands⟩ := testStands_placeTest p u
        refine ⟨work.trans (atPort_placeTest p u), works.trans (works_placeTest p u), ⟨test, ?_, ?_⟩,
          fun h => ?_, fun c hc hp => (framed_placeTest hc hp u).trans (count c)⟩
        · rw [hservice, service]
        · simpa [State.testOf, service] using hstands
        · have untested : u.testOf p = none := by
            rw [State.testOf, service]
            exact h.resolve_left (absurd flying)
          rw [placeTest, untested]
          exact queues
    · have work := atPort_modLink l (f := fun t => { t with tx := .stopped, wire := [] }) s fun _ => rfl
      exact ⟨work, work.works (linesKept_modLink l s ⟨rfl, rfl, rfl, id⟩) fun _ _ => rfl, record_stands l s,
        fun _ => rfl, fun _ _ _ => rfl⟩
  · exact unchanged

/-- What a line that goes down leaves. -/
structure Dropped (l : Link) (s t : State) : Prop where
  others : LossAt l s t
  bare : t.bare = s.bare
  line : (t.links.get l).line = .noSignal
  seen : (t.links.get l).signalSeen = (s.links.get l).signalSeen
  pause : (t.links.get l).retrainPause = (s.links.get l).retrainPause
  rx : (s.links.get l).rx.looping = false → (t.links.get l).rx = .idle
  record : ∃ test, t.service = s.service.set (.link l) { s.service.get (.link l) with test := test } ∧
    TestStands (s.testOf (.link l)) test
  queues : s.inFlight (.link l) ≠ some .test ∨ s.testOf (.link l) = none → t.queues = s.queues
  count : ∀ c : Counter, c.framed = false → c ≠ .service (.link l) .testFrameLost → t.count c = s.count c

/-- An abandoned reception leaves the receiver IDLE, and nothing else but its record changes (R24). -/
theorem abandonLink_eq (l : Link) (s : State) : ∃ pool records, abandonLink l s =
    modLink l (fun t => { t with rx := .idle }) { s with pool := pool, records := records } := by
  unfold abandonLink
  split
  · next r _ =>
    obtain ⟨pool, records, e⟩ := released_releaseRef r.record s
    exact ⟨pool, records, by rw [dropRecord, e]⟩
  · exact ⟨s.pool, s.records, rfl⟩

theorem dropped_dropLine (l : Link) (s : State) : Dropped l s (dropLine l s) := by
  have down : ∀ u : State, AtPort (.link l) s u → Works (.link l) s u → u.service = s.service →
      u.queues = s.queues → u.counters = s.counters → u.inFlight (.link l) = s.inFlight (.link l) →
      ((s.links.get l).rx.looping = false → (u.links.get l).rx = .idle) →
      Dropped l s (modLink l (fun t => { t with line := .noSignal }) (stopTx l u)) :=
    fun u work works service queues counters flight rx => by
      have stop := txStopped_stopTx l u
      have kept := (works.lines l).trans (stop.works.lines l)
      refine ⟨(works.lossAt.trans stop.works.lossAt).trans (lossAt_modLink l _ _),
        (congrArg _ rfl).trans ((stop.atPort.rest).trans work.rest), by simp, ?_, ?_, fun h => ?_, ?_,
        fun h => ?_, fun c hc hp => (stop.count c hc hp).trans (count_of_counters c counters)⟩
      · simpa using kept.seen
      · simpa using kept.pause
      · simpa using (stop.works.lines l).rx (rx h)
      · obtain ⟨test, e, hstands⟩ := stop.record
        refine ⟨test, ?_, by simpa [State.testOf, service] using hstands⟩
        rw [modLink_service, e, service]
      · rw [modLink_queues, stop.queues (by rwa [flight, State.testOf, service]), queues]
  unfold dropLine
  dsimp only
  split
  · next h => exact down s (atPort_refl _ s) (works_refl _ s) rfl rfl rfl rfl fun h' => by simp [h] at h'
  · obtain ⟨pool, records, e⟩ := abandonLink_eq l s
    have work := atPort_abandonLink l s
    have counters : (abandonLink l s).counters = s.counters := by rw [e]; rfl
    refine down _ work (work.works (linesKept_abandonLink l s) fun c _ => count_of_counters c counters) ?_ ?_
      counters ?_ fun _ => ?_ <;> rw [e]
    · rfl
    · rfl
    · simp [State.inFlight]
    · simp

end Sys2Proof.Machine

/-! A CONNECTED link loses its connection: the flap, the requests it brings and the isolation controller's
answer (R20, R147, R148, R164, R166, R167, R170). -/

namespace Sys2Proof.Machine

/-! ### The judging of a port (R148) -/

/-- A judging sets the marks and counts in the counters of the port's warnings. -/
theorem judgePort_eq (p : Port) (flap : Bool) (s : State) : ∃ counters marks,
    (judgePort p flap s).2 = { s with counters := counters, marks := marks } ∧
      ∀ c, (∀ k, c ≠ .faultPort p k) → (judgePort p flap s).2.count c = s.count c := by
  unfold judgePort
  dsimp only
  split
  · split
    · exact ⟨_, _, rfl, fun c hc => (count_bump_other (hc _).symm _).trans (count_bump_other (hc _).symm _)⟩
    · exact ⟨_, _, rfl, fun c hc => count_bump_other (hc _).symm _⟩
  · split
    · exact ⟨_, _, rfl, fun c hc => count_bump_other (hc _).symm _⟩
    · exact ⟨_, _, rfl, fun _ _ => rfl⟩

/-- Below the threshold and the flap limit nothing is asked for. -/
theorem judgePort_asks_nothing {p : Port} (flap : Bool) {s : State} (he : s.errorSum p < s.errorThreshold p)
    (hf : s.flapCount p < s.config.flapLimit) : (judgePort p flap s).1 = [] := by
  simp [judgePort, Nat.not_le.2 he, Nat.not_le.2 hf]

/-! ### The flap is reported (R20, R147) -/

/-- From `d` to `j` a link's flap has been counted and reported, and no request has been answered. -/
def Flapped (l : Link) (d j : State) : Prop := ∃ counters marks linkWin choices,
  j = { d with counters := counters, marks := marks, linkWin := linkWin, choices := choices } ∧
    countedUp (.link l .flaps) 1 d j ∧
    ∀ c, c ≠ .link l .flaps → (∀ k, c ≠ .faultPort (.link l) k) →
      c ≠ .service (.link l) .requestsIgnored → j.count c = d.count c

theorem Flapped.ignored {l : Link} {d j k : State} (h : Flapped l d j) (i : Ignored (.link l) j k) :
    Flapped l d k := by
  obtain ⟨_, marks, linkWin, choices, rfl, hup, hcount⟩ := h
  obtain ⟨counters, rfl, icount⟩ := i
  refine ⟨counters, marks, linkWin, choices, rfl, ?_, fun c hc hf hi => (icount c hf hi).trans (hcount c hc hf hi)⟩
  exact (icount _ (by simp) (by simp)).trans hup

theorem Flapped.choose {l : Link} {d j : State} (h : Flapped l d j) (n : Nat) :
    Flapped l d { j with choices := n } := by
  obtain ⟨counters, marks, linkWin, _, rfl, hup, hcount⟩ := h
  exact ⟨counters, marks, linkWin, n, rfl, hup, hcount⟩

theorem countedUp_bump (c : Counter) (s : State) : countedUp c 1 s (bump c s) := by
  simp [countedUp, count_bump]

theorem flapped_linkReportCauses (l : Link) (d : State) :
    Flapped l d (linkReportCauses l .flap (bump (.link l .flaps) d)).2 := by
  let u := bump (.link l .flaps) d
  have up : countedUp (.link l .flaps) 1 d u := countedUp_bump _ d
  have others : ∀ c, c ≠ .link l .flaps → u.count c = d.count c := fun c hc => count_bump_other hc.symm d
  by_cases hw : d.window.running = true
  · have e := linkReportCauses_counted (l := l) (s := u) (r := .flap) (by simp) hw
    obtain ⟨counters, marks, ej, hcount⟩ := judgePort_eq (.link l) (decide (LinkReport.flap = .flap))
      { u with linkWin := u.linkWin.set l ((u.linkWin.get l).take .flap) }
    rw [e]
    refine ⟨counters, marks, u.linkWin.set l ((u.linkWin.get l).take .flap), u.choices, ej.trans rfl, ?_,
      fun c hc hf _ => (hcount c hf).trans (others c hc)⟩
    exact (hcount _ (by simp)).trans up
  · rw [linkReportCauses_stopped .flap (by simpa using hw)]
    exact ⟨u.counters, u.marks, u.linkWin, u.choices, rfl, up, fun c hc _ _ => others c hc⟩

/-- No request comes of a flap where the window does not run, or no threshold is reached. -/
def State.flapQuiet (s : State) (l : Link) : Prop :=
  s.window.running = false ∨
    s.errorSum (.link l) < s.config.linkThreshold ∧ s.flapCount (.link l) + 1 < s.config.flapLimit

theorem flapQuiet_of_bare {l : Link} {s t : State} (h : t.bare = s.bare) (hs : s.flapQuiet l) :
    t.flapQuiet l := by
  have hwindow : t.window = s.window := (congrArg State.window h : t.bare.window = s.bare.window)
  have hconfig : t.config = s.config := (congrArg State.config h : t.bare.config = s.bare.config)
  have hwin : t.linkWin = s.linkWin := (congrArg State.linkWin h : t.bare.linkWin = s.bare.linkWin)
  simpa only [State.flapQuiet, State.errorSum, State.flapCount, hwindow, hconfig, hwin] using hs

theorem linkReportCauses_quiet {l : Link} {d : State} (h : d.flapQuiet l) :
    (linkReportCauses l .flap (bump (.link l .flaps) d)).1 = [] := by
  let u := bump (.link l .flaps) d
  have hwin : u.linkWin = d.linkWin := bump_linkWin ..
  have hconfig : u.config = d.config := bump_config ..
  have stopped : d.window.running = false → (linkReportCauses l .flap u).1 = [] := fun hw => by
    rw [linkReportCauses_stopped (s := u) .flap hw]
  rcases h with hw | ⟨he, hf⟩
  · exact stopped hw
  · by_cases hw : d.window.running = true
    · rw [linkReportCauses_counted (s := u) (r := .flap) (by simp) hw]
      refine judgePort_asks_nothing _ ?_ ?_
      · simpa [State.errorSum, State.errorThreshold, LinkWindow.take, hwin, hconfig] using he
      · simp only [State.flapCount, PerLink.get_set, if_true, LinkWindow.take, windowUp, hwin, hconfig]
        simp only [State.flapCount] at hf
        omega
    · exact stopped (by simpa using hw)

/-! ### The order of the news and the requests (R167) -/

theorem serviceOf_enterIsolated (p : Port) (c : IsolationCause) (s : State) :
    (enterIsolated p c s).serviceOf p = .isolated := by
  simp [State.serviceOf, record_enterIsolated, PortService.isolatedFor]

theorem serviceOf_enterTesting (p : Port) (s : State) : (enterTesting p s).serviceOf p = .testing := by
  obtain ⟨timer, wait, e⟩ := record_enterTesting p s
  simp [State.serviceOf, e, PortService.tested]

theorem unreachable_of_testing {p : Port} {s : State} (h : s.serviceOf p = .testing) : s.unreachable p := by
  simp [State.unreachable, h]

theorem unreachable_of_isolated {p : Port} {s : State} (h : s.serviceOf p = .isolated) : s.unreachable p := by
  simp [State.unreachable, h]

/-- Where a request isolates, it leaves the port ISOLATED. -/
theorem serviceOf_isolate {p : Port} {s : State} (c : IsolationCause) (h : ¬ s.unreachable p) :
    (isolate p c s).serviceOf p = .isolated := by
  unfold isolate
  split
  · exact serviceOf_enterIsolated p c s
  · exact serviceOf_enterIsolated p c _
  · next hin hprobing => exact absurd ⟨hin, hprobing⟩ h

/-- The news of a loss leaves every link unreachable: one that was not is TESTING. -/
theorem unreachable_connectionLost (l : Link) (s : State) : (connectionLost l s).unreachable (.link l) := by
  unfold connectionLost
  dsimp only
  split
  · exact unreachable_of_testing (serviceOf_enterTesting _ _)
  · exact unreachable_of_testing (serviceOf_enterTesting _ _)
  · next ht =>
    split
    · exact unreachable_of_testing ht
    · split
      · exact unreachable_of_testing ht
      · refine unreachable_of_testing ?_
        rw [beginEntry, (beginTest_leaves _ _ _ _).1]
        simpa [State.serviceOf, service_endTest] using ht
  · next hin hprobing _ => exact ⟨hin, hprobing⟩

/-- The controller's answer to a loss of connection in a state `j`: the news is taken, or at a link that is
IN-SERVICE or PROBING a request is, and the news then finds it ISOLATED. -/
def LossAnswered (l : Link) (j a : State) : Prop :=
  a = connectionLost l j ∨ ¬ j.unreachable (.link l) ∧ ∃ c, a = isolate (.link l) c j

theorem connectionLost_of_isolated {l : Link} {s : State} (h : s.serviceOf (.link l) = .isolated) :
    connectionLost l s = s := by
  simp [connectionLost, h]

/-- In any state but OFF the line goes down, the flap is reported, the controller answers, and the requests
that are left are ignored. -/
theorem loseConnection_answered {l : Link} {s : State} (hon : (dropLine l s).serviceOf (.link l) ≠ .off) :
    ∃ j a, Flapped l (dropLine l s) j ∧ LossAnswered l j a ∧ Ignored (.link l) a (loseConnection l s) ∧
      ((dropLine l s).flapQuiet l → a = connectionLost l j) := by
  have flapped := flapped_linkReportCauses l (dropLine l s)
  have quiet := linkReportCauses_quiet (l := l) (d := dropLine l s)
  unfold loseConnection
  dsimp only
  rw [if_neg hon]
  split
  · next j e =>
    rw [e] at flapped
    exact ⟨j, _, flapped, .inl rfl, ignored_refl _ _, fun _ => rfl⟩
  · next causes j hcauses e =>
    rw [e] at flapped quiet
    have chosen := flapped.choose (j.choices + 1)
    split
    · next w ew =>
      obtain ⟨-, rfl⟩ := Prod.mk.inj ew
      exact ⟨_, _, chosen, .inl rfl, ignored_makeRequests causes (unreachable_connectionLost l _), fun _ => rfl⟩
    · next w ew =>
      obtain ⟨-, rfl⟩ := Prod.mk.inj ew
      let k : State := { j with choices := j.choices + 1 }
      have asked : (dropLine l s).flapQuiet l → False := fun h => hcauses (quiet h)
      by_cases hk : k.unreachable (.link l)
      · exact ⟨_, _, chosen.ignored (ignored_makeRequests causes hk), .inl rfl, ignored_refl _ _, fun _ => rfl⟩
      · cases causes with
        | nil => exact absurd rfl hcauses
        | cons c cs =>
          let b := bump (.faultPort (.link l) (requestCounter c)) k
          have isolated : (isolate (.link l) c b).serviceOf (.link l) = .isolated := serviceOf_isolate c hk
          have rest := ignored_makeRequests cs (unreachable_of_isolated isolated)
          refine ⟨b, _, chosen.ignored (ignored_bump_faultPort _ _ k), .inr ⟨hk, c, rfl⟩, ?_,
            fun h => (asked h).elim⟩
          have still : (makeRequests (.link l) cs (isolate (.link l) c b)).serviceOf (.link l) = .isolated := by
            obtain ⟨_, e, -⟩ := rest
            rw [e]
            exact isolated
          show Ignored _ _ (connectionLost l (makeRequests (.link l) cs (isolate (.link l) c b)))
          rw [connectionLost_of_isolated still]
          exact rest

end Sys2Proof.Machine

/-! What a loss of connection leaves, state by state (R20, R46, R163, R164, R166, R167, R170). -/

namespace Sys2Proof.Machine

/-! ### The flap is taken, and no answer given -/

/-- From `s` to `j` the line of a link has gone down and its flap has been counted. -/
structure FlapTaken (l : Link) (s j : State) : Prop where
  others : LossAt l s j
  line : (j.links.get l).line = .noSignal
  seen : (j.links.get l).signalSeen = (s.links.get l).signalSeen
  pause : (j.links.get l).retrainPause = (s.links.get l).retrainPause
  rx : (s.links.get l).rx.looping = false → (j.links.get l).rx = .idle
  record : ∃ test, j.service.get (.link l) = { s.service.get (.link l) with test := test } ∧
    TestStands (s.testOf (.link l)) test
  queues : s.inFlight (.link l) ≠ some .test → j.queues = s.queues
  sweep : j.sweep = s.sweep
  flaps : countedUp (.link l .flaps) 1 s j
  count : ∀ c : Counter, c.framed = false → c ≠ .link l .flaps → (∀ k, c ≠ .faultPort (.link l) k) →
    c ≠ .service (.link l) .requestsIgnored → c ≠ .service (.link l) .testFrameLost → j.count c = s.count c

theorem Dropped.record_get {l : Link} {s d : State} (h : Dropped l s d) : ∃ test,
    d.service.get (.link l) = { s.service.get (.link l) with test := test } ∧
      TestStands (s.testOf (.link l)) test := by
  obtain ⟨test, e, stands⟩ := h.record
  exact ⟨test, by simp [e], stands⟩

theorem Dropped.serviceOf {l : Link} {s d : State} (h : Dropped l s d) :
    d.serviceOf (.link l) = s.serviceOf (.link l) := by
  obtain ⟨test, e, -⟩ := h.record_get
  simp [State.serviceOf, e]

theorem Dropped.flapTaken {l : Link} {s d j : State} (h : Dropped l s d) (k : Flapped l d j) :
    FlapTaken l s j := by
  obtain ⟨counters, marks, linkWin, choices, rfl, up, count⟩ := k
  have elsewhere : LossAt l d
      { d with counters := counters, marks := marks, linkWin := linkWin, choices := choices } :=
    ⟨fun _ _ => rfl, fun _ _ => rfl, fun _ _ _ => rfl, rfl, fun c hc hl _ => count c (hl .flaps)
      (fun k e => by simp [e, Counter.ofLine] at hc) fun e => by simp [e, Counter.ofLine] at hc⟩
  have flaps : d.count (.link l .flaps) = s.count (.link l .flaps) := h.count _ rfl (by simp)
  refine ⟨h.others.trans elsewhere, h.line, h.seen, h.pause, h.rx, h.record_get,
    fun hf => h.queues (.inl hf),
    (congrArg State.sweep h.bare : d.bare.sweep = s.bare.sweep), ?_,
    fun c hframed hflaps hfault hignored hlost =>
      (count c hflaps hfault hignored).trans (h.count c hframed hlost)⟩
  rw [countedUp] at up ⊢
  rw [up, flaps]

theorem FlapTaken.serviceOf {l : Link} {s j : State} (h : FlapTaken l s j) :
    j.serviceOf (.link l) = s.serviceOf (.link l) := by
  obtain ⟨test, e, -⟩ := h.record
  simp [State.serviceOf, e]

theorem FlapTaken.not_ready {l : Link} {s j : State} (h : FlapTaken l s j) :
    (j.links.get l).line ≠ .connected := by simp [h.line]

theorem FlapTaken.unreachable_iff {l : Link} {s j : State} (h : FlapTaken l s j) :
    j.unreachable (.link l) ↔ s.unreachable (.link l) := by
  simp [State.unreachable, h.serviceOf]

/-- A link that is not OFF loses its connection: the flap is taken, the controller answers, and the requests
that are left are ignored. -/
theorem loseConnection_steps {l : Link} {s : State} (hon : s.serviceOf (.link l) ≠ .off) :
    ∃ j a, FlapTaken l s j ∧ LossAnswered l j a ∧ Ignored (.link l) a (loseConnection l s) ∧
      (s.flapQuiet l → a = connectionLost l j) := by
  have down := dropped_dropLine l s
  obtain ⟨j, a, flapped, answer, ignored, quiet⟩ := loseConnection_answered (down.serviceOf ▸ hon)
  exact ⟨j, a, down.flapTaken flapped, answer, ignored, fun h => quiet (flapQuiet_of_bare down.bare h)⟩

theorem loseConnection_off {l : Link} {s : State} (hoff : s.serviceOf (.link l) = .off) :
    loseConnection l s = dropLine l s := by
  have off := (dropped_dropLine l s).serviceOf.trans hoff
  simp [loseConnection, connectionLost, off]

/-! ### After the flap -/

/-- From `j` to `a` a link's loss has been answered: the lines, the flaps and all that is not its own
stand. -/
structure Answered (l : Link) (j a : State) : Prop where
  others : LossAt l j a
  lines : LinesKept j a
  flaps : a.count (.link l .flaps) = j.count (.link l .flaps)

theorem Works.answered {l : Link} {s t : State} (h : Works (.link l) s t) : Answered l s t :=
  ⟨h.lossAt, h.lines, h.count _ rfl⟩

theorem Answered.trans {l : Link} {s t u : State} (h : Answered l s t) (k : Answered l t u) : Answered l s u :=
  ⟨h.others.trans k.others, h.lines.trans k.lines, k.flaps.trans h.flaps⟩

theorem answered_purgePort (l : Link) (why : PurgeReason) (s : State) :
    Answered l s (purgePort (.link l) why s) :=
  ⟨lossAt_purgePort l why s, linesKept_purgePort _ why s, count_purgePort_other (by simp) s⟩

/-! ### A link that was IN-SERVICE or PROBING -/

/-- The loop of a PROBING port cut off, and any other test left (R170). -/
def loopCut (p : Port) (s : State) : State := if s.serviceOf p = .probing then cutTest p s else s

theorem works_loopCut (p : Port) (s : State) : Works p s (loopCut p s) := by
  unfold loopCut
  split
  · exact works_cutTest p s
  · exact works_refl p s

theorem connectionLost_reached {l : Link} {s : State} (h : ¬ s.unreachable (.link l)) :
    connectionLost l s = enterTesting (.link l) (purgePort (.link l) .linkLoss (loopCut (.link l) s)) := by
  have state : s.serviceOf (.link l) = .inService ∨ s.serviceOf (.link l) = .probing := by
    simpa only [State.unreachable, not_and_or, not_not, ne_eq] using h
  rcases state with e | e <;> simp [connectionLost, loopCut, e]

theorem isolate_reached {p : Port} (c : IsolationCause) {s : State} (h : ¬ s.unreachable p) :
    isolate p c s = enterIsolated p c (loopCut p s) := by
  have state : s.serviceOf p = .inService ∨ s.serviceOf p = .probing := by
    simpa only [State.unreachable, not_and_or, not_not, ne_eq] using h
  rcases state with e | e <;> simp [isolate, loopCut, e]

/-- What the answer leaves of a link that was IN-SERVICE or PROBING, after `w`, in which its loop has been
cut off: it is TESTING and waits for its line, or ISOLATED. -/
structure TakenDown (l : Link) (w a : State) : Prop where
  answered : Answered l w a
  queue : a.queues.get (.link l) = []
  slot : a.slots.get (.link l) = none
  sweep : a.sweep = w.sweep
  loop : w.loopMode (.link l) = .normal → a.loopMode (.link l) = .normal
  probesFail : a.count (.service (.link l) .probesFail) = w.count (.service (.link l) .probesFail)
  state : (∃ timer wait, a.service.get (.link l) =
      (w.service.get (.link l)).tested .waitConnect timer wait) ∨
    ∃ c, a.service.get (.link l) = (w.service.get (.link l)).isolatedFor c

section
variable {p : Port} {why : TestPurpose} {s : State}

theorem loopMode_beginTest (ph : TestPhase) : (beginTest p why ph s).loopMode p = ph.mode :=
  loopMode_startPhase p ph _

theorem count_beginTest_waits (c : Counter) : (beginTest p why .waitConnect s).count c = s.count c := by
  rw [beginTest_waitConnect]
  exact count_of_counters c (counters_setLoopMode p .normal _)

theorem slot_beginTest_waits (h : s.slots.get p = none) :
    (beginTest p why .waitConnect s).slots.get p = none := by
  rw [beginTest_waitConnect]
  exact slot_setLoopMode .normal h

end

/-- An entry test that waits for its link: the loop mode is NORMAL, nothing is counted, no frame placed. -/
theorem enterTesting_waits {l : Link} {s : State} (h : (s.links.get l).line ≠ .connected) :
    enterTesting (.link l) s = beginTest (.link l) .entry .waitConnect (intoTesting (.link l) s) := by
  rw [enterTesting_eq_beginTest, entryPhase_of_not_connected h]

theorem takenDown_enterTesting {l : Link} {w : State} (h : (w.links.get l).line ≠ .connected) :
    TakenDown l w (enterTesting (.link l) (purgePort (.link l) .linkLoss w)) := by
  let p := Port.link l
  let u := purgePort p .linkLoss w
  have hline : (u.links.get l).line ≠ .connected := by rwa [((linesKept_purgePort p .linkLoss w) l).line]
  have queue : u.queues.get p = [] := by simp [u, (purgePort_leaves p .linkLoss w).1]
  have slot : u.slots.get p = none := by simp [u, (purgePort_leaves p .linkLoss w).2]
  have service : u.service = w.service := service_purgePort p .linkLoss w
  have waits := enterTesting_waits hline
  refine ⟨(answered_purgePort l _ w).trans (works_enterTesting p u).answered, ?_, ?_, ?_, fun _ => ?_, ?_,
    .inl ?_⟩
  · rw [queue_enterTesting, queue]
  · rw [waits]
    exact slot_beginTest_waits (by simpa [intoTesting] using slot)
  · rw [sweep_enterTesting]
    exact (atPort_purgePort p .linkLoss w).sweep
  · rw [waits, loopMode_beginTest]
    rfl
  · rw [waits, count_beginTest_waits]
    exact count_purgePort_other (by simp) w
  · obtain ⟨timer, wait, e⟩ := record_enterTesting p u
    exact ⟨timer, wait, by rw [e, service, entryPhase_of_not_connected hline]⟩

theorem takenDown_enterIsolated (l : Link) (c : IsolationCause) (w : State) :
    TakenDown l w (enterIsolated (.link l) c w) :=
  ⟨(works_enterIsolated _ c w).answered, purged_enterIsolated _ c w, slot_enterIsolated _ c w,
    sweep_enterIsolated _ c w, fun h => (loopMode_enterIsolated _ c w).trans h, probesFail_enterIsolated _ c w,
    .inr ⟨c, record_enterIsolated _ c w⟩⟩

/-- Whichever is taken first, the link is taken down. -/
theorem takenDown_of_answer {l : Link} {j a : State} (hreach : ¬ j.unreachable (.link l))
    (hline : (j.links.get l).line ≠ .connected) (h : LossAnswered l j a) :
    TakenDown l (loopCut (.link l) j) a := by
  have down : ((loopCut (.link l) j).links.get l).line ≠ .connected := by
    rwa [(works_loopCut (.link l) j).lines l |>.line]
  rcases h with rfl | ⟨-, c, rfl⟩
  · rw [connectionLost_reached hreach]
    exact takenDown_enterTesting down
  · rw [isolate_reached c hreach]
    exact takenDown_enterIsolated l c _

/-! ### A link in TESTING (R166) -/

theorem connectionLost_unmoved {l : Link} {s : State} (h : s.unreachable (.link l))
    (ht : s.serviceOf (.link l) ≠ .testing) : connectionLost l s = s := by
  obtain ⟨hin, hprobing⟩ := h
  unfold connectionLost
  dsimp only
  split
  · next e => exact absurd e hin
  · next e => exact absurd e hprobing
  · next e => exact absurd e ht
  · rfl

theorem connectionLost_idle {l : Link} {s : State} (ht : s.serviceOf (.link l) = .testing)
    (hv : s.testOf (.link l) = none) : connectionLost l s = s := by
  simp [connectionLost, ht, hv]

theorem connectionLost_held {l : Link} {v : PortTest} {s : State} (ht : s.serviceOf (.link l) = .testing)
    (hv : s.testOf (.link l) = some v) (hph : v.phase = .held) : connectionLost l s = s := by
  simp [connectionLost, ht, hv, hph]

/-- The test in progress abandoned and counted (R166). -/
def abandoned (l : Link) (s : State) : State :=
  bump (.service (.link l) .testsAbandoned) (endTest (.link l) s)

theorem connectionLost_retests {l : Link} {v : PortTest} {s : State} (ht : s.serviceOf (.link l) = .testing)
    (hv : s.testOf (.link l) = some v) (hph : v.phase ≠ .held) :
    connectionLost l s = beginEntry (.link l) (abandoned l s) := by
  simp [connectionLost, ht, hv, hph, abandoned]

theorem works_abandoned (l : Link) (s : State) : Works (.link l) s (abandoned l s) :=
  (works_endTest _ s).trans (works_bump _ _ rfl)

/-- A link whose test was abandoned has begun it afresh and waits for its line. -/
structure Retested (l : Link) (j a : State) : Prop where
  answered : Answered l j a
  sweep : a.sweep = j.sweep
  record : ∃ timer wait, a.service.get (.link l) = { j.service.get (.link l) with
    testNumber := (j.service.get (.link l)).testNumber + 1
    test := some ⟨.entry, .waitConnect, 1, timer, wait⟩ }
  loop : a.loopMode (.link l) = .normal
  slot : a.slots.get (.link l) = none
  abandoned : countedUp (.service (.link l) .testsAbandoned) 1 j a

theorem retested_beginEntry {l : Link} {j : State} (h : (j.links.get l).line ≠ .connected) :
    Retested l j (beginEntry (.link l) (abandoned l j)) := by
  have works := works_abandoned l j
  have line : ((abandoned l j).links.get l).line ≠ .connected := by rwa [(works.lines l).line]
  have slot : (abandoned l j).slots.get (.link l) = none := by simp [abandoned, slot_endTest]
  have service : (abandoned l j).service = (endTest (.link l) j).service := by simp [abandoned]
  rw [beginEntry_eq, entryPhase_of_not_connected line]
  refine ⟨(works.trans (works_beginTest _ _ _ _)).answered, ?_, ?_, ?_, slot_beginTest_waits slot, ?_⟩
  · rw [(atPort_beginTest _ _ _ _).sweep]
    simp [abandoned, (atPort_endTest (.link l) j).sweep]
  · obtain ⟨timer, wait, e⟩ := service_beginTest (.link l) .entry .waitConnect (abandoned l j)
    refine ⟨timer, wait, ?_⟩
    rw [e, service, service_endTest]
    simp
  · exact loopMode_beginTest .waitConnect
  · rw [countedUp, count_beginTest_waits, abandoned, count_bump, if_pos rfl, count_endTest]

/-! ### A loop cut off by the loss (R170, R181) -/

theorem sweep_handResult_loop {p : Port} {pass : Bool} {n : Nat} {k : ProbeKind} {r : Option Bool} {s : State}
    (h : s.sweep.outstanding = some (.loop n k r)) : (handResult p pass s).sweep =
      { s.sweep with outstanding := some (.loop n k (some pass)) } := by
  simp [handResult, h, modSweep]

theorem sweep_handResult_none {p : Port} {pass : Bool} {s : State} (h : s.sweep.outstanding = none) :
    (handResult p pass s).sweep = s.sweep := by
  simp [handResult, h]

theorem count_handResult (p : Port) (pass : Bool) (c : Counter) (s : State) : (handResult p pass s).count c =
    (bump (.service p (if pass then .probesPass else .probesFail)) s).count c := by
  unfold handResult
  dsimp only
  split <;> rfl

theorem loopMode_handResult (p : Port) (pass : Bool) (s : State) :
    (handResult p pass s).loopMode p = s.loopMode p := by
  unfold handResult
  dsimp only
  split <;> cases p <;> simp [State.loopMode, modSweep]

/-- With no probe outstanding a cut gives the engine nothing. -/
theorem sweep_loopCut {p : Port} {s : State} (h : s.sweep.outstanding = none ∨ s.serviceOf p ≠ .probing) :
    (loopCut p s).sweep = s.sweep := by
  have ended : (endTest p s).sweep = s.sweep := (atPort_endTest p s).sweep
  unfold loopCut
  split
  · next hp =>
    have hnone := h.resolve_right (absurd hp)
    unfold cutTest
    split
    · rfl
    · split
      · rw [sweep_handResult_none (by rw [ended, hnone]), ended]
      · exact ended
  · rfl

theorem service_loopCut (p : Port) (s : State) : ∃ test,
    (loopCut p s).service = s.service.set p { s.service.get p with test := test } := by
  unfold loopCut
  split
  · exact ⟨none, service_cutTest p s⟩
  · exact ⟨(s.service.get p).test, (PerPort.set_get _ _).symm⟩

theorem queues_loopCut (p : Port) (s : State) : (loopCut p s).queues = s.queues := by
  unfold loopCut
  split
  · exact queues_cutTest p s
  · rfl

/-- A loop cut off: its test is over with result FAIL, which is counted and given to the engine. -/
theorem loopCut_loop {p : Port} {v : PortTest} {n : Nat} {k : ProbeKind} {r : Option Bool} {s : State}
    (hs : s.serviceOf p = .probing) (hv : s.testOf p = some v) (hloop : v.purpose ≠ .entry)
    (hout : s.sweep.outstanding = some (.loop n k r)) :
    (loopCut p s).sweep = { s.sweep with outstanding := some (.loop n k (some false)) } ∧
      (loopCut p s).loopMode p = .normal ∧ (loopCut p s).testOf p = none ∧
      countedUp (.service p .probesFail) 1 s (loopCut p s) := by
  have ended : (endTest p s).sweep = s.sweep := (atPort_endTest p s).sweep
  have cut : loopCut p s = handResult p false (endTest p s) := by
    rw [loopCut, if_pos hs, cutTest_loop hv hloop]
  rw [cut]
  refine ⟨?_, ?_, ?_, ?_⟩
  · rw [sweep_handResult_loop (ended ▸ hout), ended]
  · rw [loopMode_handResult, loopMode_endTest]
  · simp [State.testOf, service_handResult, service_endTest]
  · rw [countedUp, count_handResult, count_bump]
    simp [count_endTest]

/-! ### The loss as a whole -/

/-- From `s` to `t` the line of a link has gone down, and all that is not the link's own stands. -/
structure LineDown (l : Link) (s t : State) : Prop where
  others : LossAt l s t
  line : (t.links.get l).line = .noSignal
  seen : (t.links.get l).signalSeen = (s.links.get l).signalSeen
  pause : (t.links.get l).retrainPause = (s.links.get l).retrainPause
  rx : (s.links.get l).rx.looping = false → (t.links.get l).rx = .idle

theorem LineDown.answered {l : Link} {s t u : State} (h : LineDown l s t) (k : Answered l t u) :
    LineDown l s u :=
  ⟨h.others.trans k.others, (k.lines l).line.trans h.line, (k.lines l).seen.trans h.seen,
    (k.lines l).pause.trans h.pause, fun hrx => (k.lines l).rx (h.rx hrx)⟩

theorem Dropped.lineDown {l : Link} {s t : State} (h : Dropped l s t) : LineDown l s t :=
  ⟨h.others, h.line, h.seen, h.pause, h.rx⟩

theorem FlapTaken.lineDown {l : Link} {s t : State} (h : FlapTaken l s t) : LineDown l s t :=
  ⟨h.others, h.line, h.seen, h.pause, h.rx⟩

/-- From `s` to `t` a CONNECTED link has lost its connection, and the sweep engine has not yet taken what it
was given. -/
structure Lost (l : Link) (s t : State) : Prop where
  down : LineDown l s t
  off : s.serviceOf (.link l) = .off →
    t.serviceOf (.link l) = .off ∧ t.count (.link l .flaps) = s.count (.link l .flaps)
  flap : s.serviceOf (.link l) ≠ .off → countedUp (.link l .flaps) 1 s t
  stays : s.serviceOf (.link l) = .isolated ∨ s.serviceOf (.link l) = .failed →
    t.serviceOf (.link l) = s.serviceOf (.link l)
  reached : s.serviceOf (.link l) = .inService ∨ s.serviceOf (.link l) = .probing →
    t.queues.get (.link l) = [] ∧ (t.serviceOf (.link l) = .testing ∨ t.serviceOf (.link l) = .isolated)
  held : ∀ v, s.serviceOf (.link l) = .testing → s.testOf (.link l) = some v → v.phase = .held →
    t.serviceOf (.link l) = .testing ∧ t.testOf (.link l) = some v
  retested : ∀ v, s.serviceOf (.link l) = .testing → s.testOf (.link l) = some v → v.phase ≠ .held →
    t.serviceOf (.link l) = .testing ∧ t.entryTest (.link l) .waitConnect ∧
      t.loopMode (.link l) = .normal ∧ t.slots.get (.link l) = none ∧
      (t.service.get (.link l)).testNumber = (s.service.get (.link l)).testNumber + 1 ∧
      (t.service.get (.link l)).failedTests = (s.service.get (.link l)).failedTests ∧
      countedUp (.service (.link l) .testsAbandoned) 1 s t
  sweep : s.sweep.outstanding = none ∨ s.serviceOf (.link l) ≠ .probing → t.sweep = s.sweep

end Sys2Proof.Machine

/-! A loss of connection, put together: what it leaves in every service state, what it leaves where the flap
makes no request, and what a loop of the sweep engine comes to (R20, R46, R163, R164, R166, R170). -/

namespace Sys2Proof.Machine

section
variable {l : Link} {s : State}

theorem lost_off (hoff : s.serviceOf (.link l) = .off) : Lost l s (loseConnection l s) := by
  have down := dropped_dropLine l s
  rw [loseConnection_off hoff]
  exact {
    down := down.lineDown
    off := fun _ => ⟨down.serviceOf.trans hoff, down.count _ rfl (by simp)⟩
    flap := fun h => absurd hoff h
    stays := by simp [hoff]
    reached := by simp [hoff]
    held := by simp [hoff]
    retested := by simp [hoff]
    sweep := fun _ => (congrArg State.sweep down.bare : (dropLine l s).bare.sweep = s.bare.sweep) }

/-- The flap is counted once, whatever the answer. -/
theorem FlapTaken.countedUp {j t : State} (h : FlapTaken l s j) (k : Answered l j t) :
    countedUp (.link l .flaps) 1 s t := k.flaps.trans h.flaps

theorem ignored_leaves {p : Port} {a t : State} (h : Ignored p a t) : t.service = a.service ∧
    t.queues = a.queues ∧ t.slots = a.slots ∧ t.sweep = a.sweep ∧ t.loopMode = a.loopMode := by
  obtain ⟨counters, rfl, -⟩ := h
  refine ⟨rfl, rfl, rfl, rfl, ?_⟩
  funext p
  cases p <;> rfl

/-- An ISOLATED or FAILED link stays, and so does a TESTING one whose test is HELD (R166, log entry 16). -/
theorem lost_unmoved {j : State} (taken : FlapTaken l s j) (ignored : Ignored (.link l) j (loseConnection l s))
    (hun : s.unreachable (.link l)) (hon : s.serviceOf (.link l) ≠ .off)
    (hheld : ∀ v, s.serviceOf (.link l) = .testing → s.testOf (.link l) = some v → v.phase = .held) :
    Lost l s (loseConnection l s) := by
  obtain ⟨service, -, -, sweep, -⟩ := ignored_leaves ignored
  have answered := ignored.works.answered
  have state : (loseConnection l s).serviceOf (.link l) = s.serviceOf (.link l) := by
    rw [State.serviceOf, service]
    exact taken.serviceOf
  exact {
    down := taken.lineDown.answered answered
    off := fun h => absurd h hon
    flap := fun _ => taken.countedUp answered
    stays := fun _ => state
    reached := fun h => absurd hun (by rcases h with h | h <;> simp [State.unreachable, h])
    held := fun v ht hv hph => by
      obtain ⟨test, e, -, -, stands⟩ := taken.record
      refine ⟨state.trans ht, ?_⟩
      rw [State.testOf, service, e]
      exact stands v hv (by rw [hph]; rfl)
    retested := fun v ht hv hph => absurd (hheld v ht hv) hph
    sweep := fun _ => sweep.trans taken.sweep }

/-- A link in TESTING whose test is not HELD tests afresh (R166). -/
theorem lost_retested {j a : State} {v : PortTest} (taken : FlapTaken l s j) (again : Retested l j a)
    (ignored : Ignored (.link l) a (loseConnection l s)) (ht : s.serviceOf (.link l) = .testing)
    (hv : s.testOf (.link l) = some v) (hph : v.phase ≠ .held) : Lost l s (loseConnection l s) := by
  obtain ⟨service, -, slots, sweep, loop⟩ := ignored_leaves ignored
  have answered := again.answered.trans ignored.works.answered
  obtain ⟨test, e, -⟩ := taken.record
  obtain ⟨timer, wait, e'⟩ := again.record
  have record : (loseConnection l s).service.get (.link l) = { s.service.get (.link l) with
      testNumber := (s.service.get (.link l)).testNumber + 1
      test := some ⟨.entry, .waitConnect, 1, timer, wait⟩ } := by rw [service, e', e]
  have count : j.count (.service (.link l) .testsAbandoned) = s.count (.service (.link l) .testsAbandoned) :=
    taken.count _ rfl (by simp) (by simp) (by simp) (by simp)
  have counted : countedUp (.service (.link l) .testsAbandoned) 1 s (loseConnection l s) := by
    obtain ⟨_, -, same⟩ := ignored
    rw [countedUp, same _ (by simp) (by simp), again.abandoned, count]
  exact {
    down := taken.lineDown.answered answered
    off := by simp [ht]
    flap := fun _ => taken.countedUp answered
    stays := by simp [ht]
    reached := by simp [ht]
    held := fun v' _ hv' hph' => absurd hph' (by rw [hv] at hv'; injection hv' with hv'; rwa [← hv'])
    retested := fun _ _ _ _ => ⟨by simpa [State.serviceOf, record] using ht,
      ⟨⟨.entry, .waitConnect, 1, timer, wait⟩, by simp [State.testOf, record], rfl, rfl⟩,
      by rw [loop]; exact again.loop, by rw [slots]; exact again.slot, by simp [record], by simp [record], counted⟩
    sweep := fun _ => sweep.trans (again.sweep.trans taken.sweep) }

/-- A link that was IN-SERVICE or PROBING is taken down. -/
theorem lost_reached {j a : State} (taken : FlapTaken l s j) (down : TakenDown l (loopCut (.link l) j) a)
    (ignored : Ignored (.link l) a (loseConnection l s)) (hreach : ¬ s.unreachable (.link l)) :
    Lost l s (loseConnection l s) := by
  obtain ⟨service, queues, slots, sweep, loop⟩ := ignored_leaves ignored
  have answered := ((works_loopCut _ j).answered.trans down.answered).trans ignored.works.answered
  have state : s.serviceOf (.link l) = .inService ∨ s.serviceOf (.link l) = .probing := by
    simpa only [State.unreachable, not_and_or, not_not, ne_eq] using hreach
  exact {
    down := taken.lineDown.answered answered
    off := fun h => by simp [h] at state
    flap := fun _ => taken.countedUp answered
    stays := fun h => by rcases h with h | h <;> simp [h] at state
    reached := fun _ => by
      refine ⟨by rw [queues]; exact down.queue, ?_⟩
      rw [State.serviceOf, service]
      rcases down.state with ⟨_, _, e⟩ | ⟨_, e⟩
      · exact .inl (by simp [e, PortService.tested])
      · exact .inr (by simp [e, PortService.isolatedFor])
    held := fun v h => by simp [h] at state
    retested := fun v h => by simp [h] at state
    sweep := fun h => by
      rw [sweep, down.sweep, sweep_loopCut (by rwa [taken.sweep, taken.serviceOf]), taken.sweep] }

/-- What a loss of connection leaves, in every service state. -/
theorem lost_loseConnection (l : Link) (s : State) : Lost l s (loseConnection l s) := by
  by_cases hoff : s.serviceOf (.link l) = .off
  · exact lost_off hoff
  obtain ⟨j, a, taken, answer, ignored, -⟩ := loseConnection_steps hoff
  by_cases hreach : s.unreachable (.link l)
  · have ha : a = connectionLost l j := answer.resolve_right fun h => h.1 (taken.unreachable_iff.2 hreach)
    obtain ⟨test, e, -, hphase, stands⟩ := taken.record
    have ejt : j.testOf (.link l) = test := by simp [State.testOf, e]
    by_cases ht : s.serviceOf (.link l) = .testing
    · have jt : j.serviceOf (.link l) = .testing := taken.serviceOf.trans ht
      cases hv : s.testOf (.link l) with
      | none =>
        have none : j.testOf (.link l) = none := by simpa [hv, ejt] using hphase
        rw [ha, connectionLost_idle jt none] at ignored
        exact lost_unmoved taken ignored hreach hoff (by simp [hv])
      | some v =>
        obtain ⟨w, hw, hwp⟩ : ∃ w, j.testOf (.link l) = some w ∧ w.phase = v.phase := by
          simpa [hv, ejt] using hphase
        by_cases hph : v.phase = .held
        · rw [ha, connectionLost_held jt hw (hwp.trans hph)] at ignored
          exact lost_unmoved taken ignored hreach hoff (by simpa [hv] using fun _ => hph)
        · rw [ha, connectionLost_retests jt hw (by rwa [hwp])] at ignored
          exact lost_retested taken (retested_beginEntry taken.not_ready) ignored ht hv hph
    · rw [ha, connectionLost_unmoved (taken.unreachable_iff.2 hreach) (by rwa [taken.serviceOf])] at ignored
      exact lost_unmoved taken ignored hreach hoff fun _ h => absurd h ht
  · have jreach : ¬ j.unreachable (.link l) := fun h => hreach (taken.unreachable_iff.1 h)
    exact lost_reached taken (takenDown_of_answer jreach taken.not_ready answer) ignored hreach

/-- Where the flap makes no request, a link that was IN-SERVICE or PROBING is TESTING and waits for its line,
and its purged queue is counted as LINK-LOSS (R46, R164, R166). -/
theorem lost_quiet (hreach : ¬ s.unreachable (.link l)) (hquiet : s.flapQuiet l) :
    let t := loseConnection l s
    t.serviceOf (.link l) = .testing ∧ t.entryTest (.link l) .waitConnect ∧
      (t.service.get (.link l)).testNumber = (s.service.get (.link l)).testNumber + 1 ∧
      (s.queues.get (.link l) ≠ [] → s.inFlight (.link l) ≠ some .test →
        countedUp (.queue (.link l) .purgedLinkLoss) (s.queues.get (.link l)).length s t) := by
  have hon : s.serviceOf (.link l) ≠ .off := fun h => hreach (by simp [State.unreachable, h])
  obtain ⟨j, a, taken, -, ignored, quiet⟩ := loseConnection_steps hon
  have jreach : ¬ j.unreachable (.link l) := fun h => hreach (taken.unreachable_iff.1 h)
  let w := loopCut (.link l) j
  let u := purgePort (.link l) .linkLoss w
  have ha : a = enterTesting (.link l) u := (quiet hquiet).trans (connectionLost_reached jreach)
  have wworks : Works (.link l) j w := works_loopCut _ j
  have line : (u.links.get l).line ≠ .connected := by
    rw [((linesKept_purgePort _ _ w) l).line, (wworks.lines l).line]
    exact taken.not_ready
  obtain ⟨test, e, -⟩ := taken.record
  obtain ⟨test', e'⟩ := service_loopCut (.link l) j
  obtain ⟨timer, wait, e''⟩ := record_enterTesting (.link l) u
  have record : (loseConnection l s).service.get (.link l) =
      { s.service.get (.link l) with test := test' }.tested .waitConnect timer wait := by
    rw [(ignored_leaves ignored).1, ha, e'', entryPhase_of_not_connected line]
    simp [u, service_purgePort, w, e', e, PortService.tested]
  refine ⟨by simp [State.serviceOf, record, PortService.tested],
    ⟨_, by rw [State.testOf, record]; rfl, rfl, rfl⟩, by simp [record, PortService.tested],
    fun hqueue hflight => ?_⟩
  have queue : w.queues.get (.link l) = s.queues.get (.link l) := by rw [queues_loopCut, taken.queues hflight]
  have before : w.count (.queue (.link l) .purgedLinkLoss) = s.count (.queue (.link l) .purgedLinkLoss) :=
    (wworks.count _ rfl).trans (taken.count _ rfl (by simp) (by simp) (by simp) (by simp))
  have purged : u.count (.queue (.link l) .purgedLinkLoss) = _ :=
    purgePort_count (.link l) .linkLoss (s := w) (by rwa [queue])
  have after : a.count (.queue (.link l) .purgedLinkLoss) = u.count (.queue (.link l) .purgedLinkLoss) := by
    rw [ha]
    exact (works_enterTesting _ u).count _ rfl
  have last := ignored.works.count (.queue (.link l) .purgedLinkLoss) rfl
  rw [countedUp, last, after, purged, queue]
  exact congrArg _ (congrArg (· + _) before)

/-- A loop of a PROBING link cut off by the loss has FAILED; the engine has its result, and the link's test is
over, or is the entry test that waits for its line (R163, R166, R170). -/
theorem lost_loop {v : PortTest} {n : Nat} {k : ProbeKind} {r : Option Bool}
    (hs : s.serviceOf (.link l) = .probing) (hv : s.testOf (.link l) = some v) (hloop : v.purpose ≠ .entry)
    (hout : s.sweep.outstanding = some (.loop n k r)) :
    let t := loseConnection l s
    t.sweep = { s.sweep with outstanding := some (.loop n k (some false)) } ∧
      t.loopMode (.link l) = .normal ∧ t.slots.get (.link l) = none ∧
      countedUp (.service (.link l) .probesFail) 1 s t ∧
      (t.serviceOf (.link l) = .testing → t.entryTest (.link l) .waitConnect) ∧
      (t.serviceOf (.link l) = .isolated → t.testOf (.link l) = none) := by
  have hreach : ¬ s.unreachable (.link l) := by simp [State.unreachable, hs]
  obtain ⟨j, a, taken, answer, ignored, -⟩ := loseConnection_steps (l := l) (s := s) (by simp [hs])
  have down := takenDown_of_answer (fun h => hreach (taken.unreachable_iff.1 h)) taken.not_ready answer
  obtain ⟨service, -, slots, sweep, loop⟩ := ignored_leaves ignored
  obtain ⟨test, e, hpurpose, -, -⟩ := taken.record
  obtain ⟨w, hw, hwp⟩ : ∃ w, j.testOf (.link l) = some w ∧ w.purpose = v.purpose := by
    have ejt : j.testOf (.link l) = test := by simp [State.testOf, e]
    simpa [hv, ejt] using hpurpose
  obtain ⟨csweep, cloop, ctest, ccount⟩ := loopCut_loop (taken.serviceOf.trans hs) hw (by rwa [hwp])
    (taken.sweep ▸ hout)
  have counted : countedUp (.service (.link l) .probesFail) 1 s (loseConnection l s) := by
    obtain ⟨_, -, same⟩ := ignored
    rw [countedUp, same _ (by simp) (by simp), down.probesFail, ccount,
      taken.count _ rfl (by simp) (by simp) (by simp) (by simp)]
  refine ⟨by rw [sweep, down.sweep, csweep, taken.sweep], by rw [loop]; exact down.loop cloop,
    by rw [slots]; exact down.slot, counted, fun h => ?_, fun h => ?_⟩ <;>
    rw [State.serviceOf, service] at h <;> rcases down.state with ⟨_, _, er⟩ | ⟨_, er⟩
  · exact ⟨_, by rw [State.testOf, service, er]; rfl, rfl, rfl⟩
  · simp [er, PortService.isolatedFor] at h
  · simp [er, PortService.tested] at h
  · rw [State.testOf, service, er]
    exact ctest

end

end Sys2Proof.Machine

/-! What the sweep engine, going on by itself, leaves of the lines, of their counters and of a port that takes
no frames (R177 to R181). -/

namespace Sys2Proof.Machine

/-! ### Work aside from the ports -/

/-- From `s` to `t` the links and the ports' records stand, an empty queue of an unreachable port stays empty,
and the lines' counters stand. -/
structure Aside (s t : State) : Prop where
  links : t.links = s.links
  service : t.service = s.service
  empty : ∀ p, s.unreachable p → s.queues.get p = [] → t.queues.get p = []
  count : ∀ c : Counter, c.ofLine = true → t.count c = s.count c

theorem aside_of_eq {s t : State} (hlinks : t.links = s.links) (hservice : t.service = s.service)
    (hqueues : t.queues = s.queues) (hc : ∀ c : Counter, c.ofLine = true → t.count c = s.count c) : Aside s t :=
  ⟨hlinks, hservice, fun _ _ h => by rwa [hqueues], hc⟩

theorem aside_refl (s : State) : Aside s s := aside_of_eq rfl rfl rfl fun _ _ => rfl

theorem Aside.trans {s t u : State} (h : Aside s t) (k : Aside t u) : Aside s u where
  links := k.links.trans h.links
  service := k.service.trans h.service
  empty p hp hq := k.empty p ((unreachable_of_service h.service p).2 hp) (h.empty p hp hq)
  count c hc := (k.count c hc).trans (h.count c hc)

/-- Work that changes the ports in nothing but their queues. -/
theorem aside_of_ports {s t : State} (h : t.ports = s.ports)
    (hq : ∀ p, s.unreachable p → s.queues.get p = [] → t.queues.get p = [])
    (hc : ∀ c : Counter, c.ofLine = true → t.count c = s.count c) : Aside s t := by
  simp only [State.ports, Prod.mk.injEq] at h
  obtain ⟨-, hlinks, -, -, -, -, -, -, -, hservice, -⟩ := h
  exact ⟨hlinks, hservice, hq, hc⟩

theorem aside_of_frames {s t : State} (h : sameButFrames s t) (hq : keepsQueues s t)
    (hc : ∀ c : Counter, c.framed = false → t.count c = s.count c) : Aside s t :=
  aside_of_ports (ports_of_sameButFrames h) (fun p hp he => by rw [hq.2 p hp, he])
    fun c hl => hc c (Counter.framed_of_ofLine hl)

theorem aside_bumpBy {c : Counter} (hc : c.ofLine = false) (n : Nat) (s : State) : Aside s (bumpBy c n s) :=
  aside_of_eq (by simp) (by simp) (by simp) fun _ hd => count_bumpBy_elsewhere hd hc n s

theorem aside_bump {c : Counter} (hc : c.ofLine = false) (s : State) : Aside s (bump c s) :=
  aside_bumpBy hc 1 s

theorem aside_released {s t : State} (h : Released s t) : Aside s t := by
  obtain ⟨_, _, rfl⟩ := h
  exact aside_of_eq rfl rfl rfl fun _ _ => rfl

theorem aside_raise (f : Flag) (s : State) : Aside s (raise f s) :=
  aside_of_frames (raise_same f s) (keepsQueues_raise f s) fun _ hc => framed_raise hc f s

theorem aside_ownRecord (bs : List Byte) (s : State) : Aside s (ownRecord bs s).2 :=
  aside_of_frames (ownRecord_same bs s) (keepsQueues_ownRecord bs s) fun _ hc => framed_ownRecord hc bs s

theorem aside_offer (p : Port) (e : QueueEntry) (s : State) : Aside s (offer p e s).2 :=
  aside_of_frames (offer_same p e s) (keepsQueues_offer p e s) fun _ hc => framed_offer hc p e s

theorem aside_sendOwn (p : Port) (d : Key) (k : Byte) (bs : List Byte) (s : State) :
    Aside s (sendOwn p d k bs s).2 :=
  aside_of_frames (sendOwn_same p d k bs s) (keepsQueues_sendOwn p d k bs s)
    fun _ hc => framed_sendOwn hc p d k bs s

theorem aside_modSweep (f : Sweep → Sweep) (s : State) : Aside s (modSweep f s) :=
  aside_of_eq rfl rfl rfl fun _ _ => rfl

theorem aside_modStation (i : Nat) (f : Station → Station) (s : State) : Aside s (modStation i f s) := by
  have same : (modStation i f s).queues = s.queues ∧ (modStation i f s).counters = s.counters := by
    unfold modStation putEntry
    split
    · split <;> exact ⟨rfl, rfl⟩
    · exact ⟨rfl, rfl⟩
  exact aside_of_ports (ports_modStation i f s) (fun _ _ h => by rwa [same.1])
    fun c _ => count_of_counters c same.2

/-! ### Jobs and stations (R112 to R114, R153, R181) -/

theorem aside_sendStatus (u : Key) (tag : Byte) (a : Answer) (s : State) : Aside s (sendStatus u tag a s) := by
  unfold sendStatus
  split
  · exact aside_bump rfl s
  · next p d _ =>
    have sent := aside_sendOwn p d kindPrintStatus (statusPayload tag a) s
    split <;> next e => rw [e] at sent; exact sent.trans (aside_bump rfl _)

theorem aside_if {b : Prop} [Decidable b] {f : State → State} (h : ∀ s, Aside s (f s)) (s : State) :
    Aside s (if b then f s else s) := by
  split
  · exact h s
  · exact aside_refl s

theorem aside_unless {b : Prop} [Decidable b] {f : State → State} (h : ∀ s, Aside s (f s)) (s : State) :
    Aside s (if b then s else f s) := by
  split
  · exact aside_refl s
  · exact h s

theorem aside_endJob (slot : Nat) (e : JobEnd) (s : State) : Aside s (endJob slot e s) := by
  unfold endJob
  split
  · exact aside_refl s
  · next j _ =>
    have given : Aside s { returnSpoolBlocks (blocksFor j.bytes.length) s with jobs := s.jobs.drop slot } :=
      aside_of_eq rfl rfl rfl fun _ _ => rfl
    refine Aside.trans ?_ (aside_unless (aside_sendStatus j.submitter j.tag (.ended e)) _)
    refine Aside.trans ?_ (aside_bump (c := .spool e.counter) rfl _)
    refine Aside.trans ?_ (aside_if (aside_raise .jobAborted) _)
    exact given.trans (aside_if (aside_raise .spoolEmpty) _)

theorem aside_abortWhere (test : Job → Bool) (why : AbortReason) : ∀ (slots : List Nat) (s : State),
    Aside s (abortWhere test why slots s)
  | [], s => aside_refl s
  | slot :: rest, s => by
    unfold abortWhere
    split
    · exact aside_abortWhere test why rest s
    · exact (aside_if (aside_endJob slot _) s).trans (aside_abortWhere test why rest _)

theorem aside_purgeSourceAt (i : Nat) (p : Port) (s : State) : Aside s (purgeSourceAt i p s) := by
  let es := s.queues.get p
  let u : State := { s with queues := s.queues.set p (keptBySource i (s.inFlight p = some .head) es) }
  have kept : Aside s u := by
    refine aside_of_ports rfl (fun q _ he => ?_) fun _ _ => rfl
    by_cases hq : p = q
    · subst hq
      simp [u, es, he, keptBySource]
    · simpa [u, hq] using he
  exact (kept.trans (aside_released (released_releaseEntries _ u))).trans (aside_bumpBy rfl _ _)

theorem aside_purgeSource (i : Nat) (s : State) : Aside s (purgeSource i s) := by
  have each : ∀ (ps : List Port) (s : State), Aside s (ps.foldl (fun s p => purgeSourceAt i p s) s) := by
    intro ps
    induction ps with
    | nil => exact aside_refl
    | cons p ps ih => exact fun s => (aside_purgeSourceAt i p s).trans (ih _)
  exact each Port.all s

theorem aside_takeNews (n : QuarantineNews) (s : State) : Aside s (n.take s) := by
  unfold QuarantineNews.take abortArriving
  split
  · exact ((aside_raise _ s).trans (aside_bump rfl _)).trans (aside_abortWhere _ _ _ _)
  · exact aside_abortWhere _ _ _ s

theorem aside_setQuarantined (i minutes : Nat) (s : State) : Aside s (setQuarantined i minutes s) := by
  unfold setQuarantined
  exact (aside_modStation i _ s).trans (aside_purgeSource i _)

theorem aside_quarantineStation (i : Nat) (cause : FaultCount) (s : State) :
    Aside s (quarantineStation i cause s).2 := by
  have set := aside_setQuarantined i s.config.quarantineTime s
  cases h : s.quarantined i with
  | true =>
    simp only [quarantineStation, h, if_true]
    exact set.trans (aside_bump (c := .fault .quarantineRenewed) rfl _)
  | false =>
    simp only [quarantineStation, h, Bool.false_eq_true, if_false]
    exact set

theorem aside_markSuspect (k : Key) (s : State) : Aside s (markSuspect k s) := by
  unfold markSuspect
  split
  · exact aside_if (fun s => (aside_modStation _ _ s).trans (aside_bump rfl _)) s
  · exact aside_bump rfl s

theorem aside_sweepQuarantine (k : Key) (s : State) : Aside s (sweepQuarantine k s) := by
  unfold sweepQuarantine
  split
  · exact (aside_quarantineStation _ _ s).trans (aside_takeNews _ _)
  · exact aside_bump rfl s

/-! ### The engine's own work (R177, R178, R181) -/

theorem aside_modStep (n : Nat) (f : SweepStep → SweepStep) (s : State) : Aside s (modStep n f s) :=
  aside_modSweep _ s

theorem aside_haltSweep (s : State) : Aside s (haltSweep s) := (aside_modSweep _ s).trans (aside_raise _ _)

theorem aside_passDone (s : State) : Aside s (passDone s) := by
  unfold passDone
  exact (((aside_modSweep _ s).trans (aside_bump rfl _)).trans (aside_raise _ _)).trans (aside_modSweep _ _)

theorem aside_advance (s : State) : Aside s (advance s) := by
  unfold advance beginPass
  split
  · exact aside_refl s
  · exact aside_modSweep _ s
  · dsimp only
    split <;> exact (aside_modSweep _ s).trans (aside_modSweep _ _)

theorem aside_offerEcho (k : Key) (rid : Nat) : ∀ (ps : List Port) (s : State),
    Aside s (offerEcho k rid ps s).2
  | [], s => aside_refl s
  | p :: ps, s => (aside_offer p _ s).trans (aside_offerEcho k rid ps _)

theorem aside_beginEcho (n : Nat) (k : Key) (ports : List Port) (s : State) :
    Aside s (beginEcho n k ports s) := by
  unfold beginEcho
  dsimp only
  refine (aside_modSweep (fun w => { w with probeNumber := s.sweep.probeNumber + 1 }) s).trans
    (Aside.trans ?_ (aside_modSweep _ _))
  have made := aside_ownRecord [s.sweep.probeNumber + 1]
    (modSweep (fun w => { w with probeNumber := s.sweep.probeNumber + 1 }) s)
  split
  · next e =>
    rw [e] at made
    exact made.trans (aside_bump rfl _)
  · next rid u e =>
    rw [e] at made
    have offered := aside_offerEcho k rid ports u
    split
    · next e' =>
      rw [e'] at offered
      exact (made.trans offered).trans (aside_released (released_releaseRef rid _))
    · next e' =>
      rw [e'] at offered
      exact ((made.trans offered).trans (aside_released (released_releaseRef rid _))).trans (aside_bump rfl _)

end Sys2Proof.Machine

/-! What the sweep engine leaves of one port, whichever steps it goes through: the port's record and its empty
queue, where no frame goes to it, and every link's line (R169, R177 to R181). -/

namespace Sys2Proof.Machine

/-- What stands of an unreachable port: its record but for its test and the test number, a TESTING port's
whole record, and its empty queue. -/
structure PortSpared (p : Port) (s t : State) : Prop where
  record : ∃ test n, t.service.get p = { s.service.get p with test := test, testNumber := n }
  testing : s.serviceOf p = .testing → t.service.get p = s.service.get p
  empty : s.queues.get p = [] → t.queues.get p = []

/-- From `s` to `t` the lines and their counters stand, and port `p` where it is unreachable. -/
structure Spared (p : Port) (s t : State) : Prop where
  lines : LinesKept s t
  count : ∀ c : Counter, c.ofLine = true → t.count c = s.count c
  port : s.unreachable p → PortSpared p s t

theorem portSpared_of_service {p : Port} {s t : State} (h : t.service.get p = s.service.get p)
    (hq : s.queues.get p = [] → t.queues.get p = []) : PortSpared p s t :=
  ⟨⟨(s.service.get p).test, (s.service.get p).testNumber, h⟩, fun _ => h, hq⟩

theorem PortSpared.serviceOf {p : Port} {s t : State} (h : PortSpared p s t) :
    t.serviceOf p = s.serviceOf p := by
  obtain ⟨test, n, e⟩ := h.record
  simp [State.serviceOf, e]

theorem PortSpared.trans {p : Port} {s t u : State} (h : PortSpared p s t) (k : PortSpared p t u) :
    PortSpared p s u where
  record := by
    obtain ⟨_, _, e⟩ := h.record
    obtain ⟨test, n, e'⟩ := k.record
    exact ⟨test, n, by rw [e', e]⟩
  testing ht := (k.testing (h.serviceOf.trans ht)).trans (h.testing ht)
  empty hq := k.empty (h.empty hq)

section
variable {p : Port}

theorem Spared.trans {s t u : State} (h : Spared p s t) (k : Spared p t u) : Spared p s u where
  lines := h.lines.trans k.lines
  count c hc := (k.count c hc).trans (h.count c hc)
  port hp := (h.port hp).trans (k.port (by simpa only [State.unreachable, (h.port hp).serviceOf] using hp))

theorem Aside.spared {s t : State} (h : Aside s t) : Spared p s t :=
  ⟨linesKept_of_links h.links, h.count, fun hp => portSpared_of_service (by rw [h.service]) (h.empty p hp)⟩

theorem spared_refl (s : State) : Spared p s s := (aside_refl s).spared

/-- The controller's work at another port. -/
theorem Works.spared_other {q : Port} (hq : p ≠ q) {s t : State} (h : Works q s t) : Spared p s t :=
  ⟨h.lines, h.count, fun hp => portSpared_of_service (h.service p hq) fun he => by rw [h.queue p hq hp, he]⟩

/-- The controller's work at a port that takes frames. -/
theorem Works.spared_reachable {s t : State} (h : Works p s t) (hp : ¬ s.unreachable p) : Spared p s t :=
  ⟨h.lines, h.count, fun h => absurd h hp⟩

/-! ### Loops and isolations (R167, R169) -/

theorem works_isolate (p : Port) (c : IsolationCause) (s : State) : Works p s (isolate p c s) := by
  unfold isolate
  split
  · exact works_enterIsolated p c s
  · exact (works_cutTest p s).trans (works_enterIsolated p c _)
  · exact works_bump p s rfl

theorem spared_isolate (q : Port) (c : IsolationCause) (s : State) : Spared p s (isolate q c s) := by
  by_cases hq : p = q
  · subst hq
    by_cases hp : s.unreachable p
    · have work := works_isolate p c s
      rw [isolate_unreachable c hp] at work ⊢
      exact ⟨work.lines, work.count, fun _ => portSpared_of_service (by simp) fun h => by simpa using h⟩
    · exact (works_isolate p c s).spared_reachable hp
  · exact (works_isolate q c s).spared_other hq

/-- A loop begun at a port that takes no frames and is not TESTING leaves it there (R169). -/
theorem portSpared_beginTest {why : TestPurpose} {ph : TestPhase} {s : State} (hp : s.unreachable p)
    (ht : s.serviceOf p ≠ .testing) : PortSpared p s (beginTest p why ph s) where
  record := by
    obtain ⟨timer, wait, e⟩ := service_beginTest p why ph s
    exact ⟨_, _, by rw [e, PerPort.get_set, if_pos rfl]⟩
  testing h := absurd h ht
  empty h := by rw [queue_beginTest hp, h]

theorem spared_startLoop (q : Port) (k : ProbeKind) (s : State) : Spared p s (startLoop q k s).2 := by
  have direct : s.unreachable q → s.serviceOf q ≠ .testing → Spared p s (beginTest q .loop k.phase s) := by
    intro hun ht
    have work := works_beginTest q s .loop k.phase
    by_cases hq : p = q
    · subst hq
      exact ⟨work.lines, work.count, fun _ => portSpared_beginTest hun ht⟩
    · exact work.spared_other hq
  unfold startLoop
  split
  · next e => exact direct (by simp [State.unreachable, e]) (by simp [e])
  · next e => exact direct (by simp [State.unreachable, e]) (by simp [e])
  · next e =>
    split
    · have work := (works_setService (p := q) (st := .probing) s (by simp)).trans
        (works_beginTest q _ .probe .external)
      by_cases hq : p = q
      · subst hq
        exact work.spared_reachable (by simp [State.unreachable, e])
      · exact work.spared_other hq
    · exact spared_refl s
  · exact spared_refl s

/-! ### Steps (R177, R178, R181) -/

theorem spared_failAction (x : SweepStep) (s : State) : Spared p s (failAction x s) := by
  have target : ∀ t u, Spared p u (isolateTarget t u) := fun t u => by
    unfold isolateTarget
    split
    · exact spared_isolate _ _ u
    · split
      · exact spared_isolate _ _ u
      · exact (aside_bump rfl u).spared
    · exact spared_refl u
  unfold failAction
  dsimp only
  refine (aside_bump (c := .sweep x.action.counter) rfl s).spared.trans ?_
  split
  · exact spared_refl _
  · exact (aside_haltSweep _).spared
  · exact target _ _
  · exact (aside_markSuspect _ _).spared
  · exact (aside_sweepQuarantine _ _).spared
  · exact spared_refl _

theorem spared_endStep (n : Nat) (r : StepResult) (s : State) : Spared p s (endStep n r s) := by
  unfold endStep
  dsimp only
  refine ((aside_modStep n (fun t => { t with result := r }) s).trans
    (aside_bump (c := .sweep (resultCounter r)) rfl _)).spared.trans ?_
  split
  · exact (aside_modStep n _ _).spared
  · split
    · exact spared_refl _
    · split
      · exact (aside_modStep n _ _).spared.trans (spared_failAction _ _)
      · exact (aside_modStep n _ _).spared
  · exact spared_refl _
  · exact spared_refl _

theorem spared_beginStep (n : Nat) (x : SweepStep) (s : State) : Spared p s (beginStep n x s).2 := by
  unfold beginStep
  split
  · exact spared_refl s
  · next q _ =>
    have started := spared_startLoop (p := p) q x.probe s
    split
    · next u e =>
      rw [e] at started
      exact started.trans
        (aside_modSweep (fun w => { w with outstanding := some (.loop n x.probe none) }) u).spared
    · next e =>
      rw [e] at started
      exact started
  · split
    · exact spared_refl s
    · exact (aside_beginEcho _ _ _ s).spared

theorem spared_runSteps : ∀ (fuel : Nat) (s : State), Spared p s (runSteps fuel s)
  | 0, s => spared_refl s
  | fuel + 1, s => by
    unfold runSteps
    split
    · exact spared_refl s
    · next r _ =>
      split
      · exact (aside_passDone s).spared
      · next x _ =>
        have begun := spared_beginStep (p := p) r.position x s
        split
        · next e =>
          rw [e] at begun
          exact begun
        · next e =>
          rw [e] at begun
          exact ((begun.trans (spared_endStep _ _ _)).trans (aside_advance _).spared).trans
            (spared_runSteps fuel _)

theorem spared_probeEnded (n : Nat) (r : StepResult) (s : State) : Spared p s (probeEnded n r s) := by
  have ended := ((aside_modSweep (fun w => { w with outstanding := none }) s).spared (p := p)).trans
    ((spared_endStep n r _).trans (aside_advance _).spared)
  unfold probeEnded
  dsimp only
  split
  · exact ended
  · exact ended.trans (spared_runSteps _ _)

/-- What the engine does with a loop's result spares every unreachable port (R180, R181). -/
theorem spared_settleSweep (s : State) : Spared p s (settleSweep s) := by
  unfold settleSweep
  split
  · exact spared_probeEnded _ _ s
  · exact spared_refl s

end

end Sys2Proof.Machine

/-! A CONNECTED link loses its connection (R20, R24, R46, R163, R164, R166 to R170, R181). -/

namespace Sys2Proof.Machine

/-! ### A RUN-STEP's loop fails below the fail limit (R181) -/

/-- A step with its result and its fails. -/
def SweepStep.failed (x : SweepStep) : SweepStep := { x with result := .fail, fails := x.fails + 1 }

theorem step_modify {w : Sweep} {n : Nat} {x : SweepStep} (f : SweepStep → SweepStep)
    (h : w.step n = some x) : ({ w with steps := w.steps.modify (n - 1) f } : Sweep).step n = some (f x) := by
  unfold Sweep.step at h ⊢
  split
  · next hn => simp [hn] at h
  · next hn =>
    rw [if_neg hn] at h
    simp [h]

theorem modStep_modStep (n : Nat) (f g : SweepStep → SweepStep) (s : State) :
    modStep n f (modStep n g s) = modStep n (fun x => f (g x)) s := by
  simp only [modStep, modSweep, List.modify_modify_eq]
  rfl

theorem bump_modSweep (c : Counter) (f : Sweep → Sweep) (s : State) :
    bump c (modSweep f s) = modSweep f (bump c s) := rfl

theorem bump_modStep (c : Counter) (n : Nat) (f : SweepStep → SweepStep) (s : State) :
    bump c (modStep n f s) = modStep n f (bump c s) := rfl

/-- A step that fails below its fail limit takes no fail action. -/
theorem endStep_below {n : Nat} {x : SweepStep} {s : State} (hstep : s.sweep.step n = some x)
    (hfails : x.fails + 1 < x.failLimit) :
    endStep n .fail s = modStep n SweepStep.failed (bump (.sweep .stepsFail) s) := by
  have marked : (modStep n (fun t => { t with result := .fail }) (bump (.sweep .stepsFail) s)).sweep.step n =
      some { x with result := .fail } :=
    step_modify (w := (bump (.sweep .stepsFail) s).sweep) (fun t => { t with result := .fail })
      (by rwa [bump_sweep])
  unfold endStep
  dsimp only [resultCounter]
  rw [bump_modStep, marked]
  dsimp only
  rw [if_neg (by omega), modStep_modStep]
  rfl

/-- A RUN-STEP ends with its step where no pass waits. -/
theorem advance_single {n : Nat} {s : State} (hrun : s.sweep.run = some ⟨.single, n⟩)
    (hwait : s.sweep.passWaiting = false) :
    advance s = modSweep (fun w => { w with run := none, passWaiting := false }) s := by
  simp [advance, hrun, hwait, modSweep]

/-- The engine between runs begins nothing. -/
theorem runSweep_idle {s : State} (h : s.sweep.run = none) : runSweep s = s := by
  simp [runSweep, runSteps, h]

/-- The engine's tables after a RUN-STEP whose step failed. -/
def Sweep.stepFailed (w : Sweep) (n : Nat) : Sweep :=
  { w with
    steps := w.steps.modify (n - 1) SweepStep.failed, run := none, passWaiting := false, outstanding := none }

/-- All the engine does is to record the FAIL and to end the run. -/
theorem settleSweep_single {t : State} {n : Nat} {k : ProbeKind} {x : SweepStep}
    (hout : t.sweep.outstanding = some (.loop n k (some false))) (hrun : t.sweep.run = some ⟨.single, n⟩)
    (hwait : t.sweep.passWaiting = false) (hstep : t.sweep.step n = some x)
    (hfails : x.fails + 1 < x.failLimit) :
    settleSweep t = modSweep (fun w => w.stepFailed n) (bump (.sweep .stepsFail) t) := by
  have ended := endStep_below (s := modSweep (fun w => { w with outstanding := none }) t) hstep hfails
  rw [bump_modSweep] at ended
  have probe : settleSweep t = probeEnded n .fail t := by simp [settleSweep, hout]
  have hb : (bump (.sweep .stepsFail) t).sweep = t.sweep := bump_sweep ..
  rw [probe, probeEnded, ended]
  generalize bump (.sweep .stepsFail) t = u at hb ⊢
  rw [advance_single (n := n) (by simpa [modStep, modSweep, hb] using hrun)
    (by simpa [modStep, modSweep, hb] using hwait)]
  have idle : ∀ v : State, v.sweep.run = none → (if v.stopWaits then v else runSweep v) = v := fun v hv => by
    rw [runSweep_idle hv, ite_self]
  exact (idle _ rfl).trans rfl

theorem step_stepFailed {w : Sweep} {n : Nat} {x : SweepStep} (h : w.step n = some x) :
    (w.stepFailed n).step n = some x.failed :=
  step_modify (w := { w with run := none, passWaiting := false, outstanding := none }) SweepStep.failed h

/-! ### The command -/

/-- The link without its signal, before the loss of its connection is taken. -/
def signalGone (l : Link) (s : State) : State :=
  modLink l (fun t => { t with lineSignal := false, signalSeen := false }) s

theorem exec_signalLost_connected {l : Link} {s : State} (ha : s.active = true)
    (hl : (s.links.get l).line = .connected) :
    exec (.signalLost l) s = .next (settleSweep (loseConnection l (signalGone l s))) := by
  have lost : signalLost l (modLink l (fun t => { t with lineSignal := false }) s) =
      loseConnection l (signalGone l s) := by
    have hline : ((modLink l (fun t => { t with lineSignal := false }) s).links.get l).line = .connected := by
      simp [hl]
    unfold signalLost
    dsimp only
    rw [hline, modLink_modLink]
    rfl
  refine congrArg Host.Outcome.next ?_
  rw [whenActive_of_active _ (show (modLink l _ s).active = true from ha), lost]

section
variable {l : Link} {s : State}

/-- What the sweep engine leaves of a loss of connection: the line, its flaps, and the link where it takes no
frames. -/
theorem loss_spared (l : Link) (s : State) :
    Spared (.link l) (loseConnection l s) (settleSweep (loseConnection l s)) := spared_settleSweep _

/-- Where the link was not PROBING the engine has nothing to take. -/
theorem settleSweep_loss (hwait : s.resultWaits = false) (h : s.serviceOf (.link l) ≠ .probing) :
    settleSweep (loseConnection l s) = loseConnection l s :=
  settleSweep_of_sweep hwait ((lost_loseConnection l s).sweep (.inr h))

/-- A link taken down stays so when the engine goes on. -/
theorem loss_reached (h : s.serviceOf (.link l) = .inService ∨ s.serviceOf (.link l) = .probing) :
    let t := settleSweep (loseConnection l s)
    t.queues.get (.link l) = [] ∧ (t.serviceOf (.link l) = .testing ∨ t.serviceOf (.link l) = .isolated) := by
  obtain ⟨hqueue, hstate⟩ := (lost_loseConnection l s).reached h
  have hun : (loseConnection l s).unreachable (.link l) := by
    rcases hstate with e | e <;> simp [State.unreachable, e]
  have port := (loss_spared l s).port hun
  exact ⟨port.empty hqueue, by rwa [port.serviceOf]⟩

theorem loss_quiet (hreach : ¬ s.unreachable (.link l)) (hquiet : s.flapQuiet l) :
    let t := settleSweep (loseConnection l s)
    t.serviceOf (.link l) = .testing ∧ t.entryTest (.link l) .waitConnect ∧
      (t.service.get (.link l)).testNumber = (s.service.get (.link l)).testNumber + 1 ∧
      (s.queues.get (.link l) ≠ [] → s.inFlight (.link l) ≠ some .test →
        countedUp (.queue (.link l) .purgedLinkLoss) (s.queues.get (.link l)).length s t) := by
  obtain ⟨htesting, htest, hnumber, hcount⟩ := lost_quiet hreach hquiet
  have spared := loss_spared l s
  have same := (spared.port (unreachable_of_testing htesting)).testing htesting
  refine ⟨?_, ?_, ?_, fun hq hf => (spared.count _ rfl).trans (hcount hq hf)⟩
  · rwa [State.serviceOf, same]
  · rwa [State.entryTest, State.testOf, same]
  · rwa [same]

/-- The loop of a RUN-STEP that the loss ends below the fail limit (R163, R170, R181). -/
theorem loss_single {v : PortTest} {n : Nat} {k : ProbeKind} {x : SweepStep}
    (hs : s.serviceOf (.link l) = .probing) (hv : s.testOf (.link l) = some v) (hloop : v.purpose ≠ .entry)
    (hout : s.sweep.outstanding = some (.loop n k none)) (hrun : s.sweep.run = some ⟨.single, n⟩)
    (hwait : s.sweep.passWaiting = false) (hstep : s.sweep.step n = some x)
    (hfails : x.fails + 1 < x.failLimit) :
    let t := settleSweep (loseConnection l s)
    t.sweep.step n = some x.failed ∧ t.sweep.run = none ∧ t.sweep.outstanding = none ∧
      t.loopMode (.link l) = .normal ∧ t.slots.get (.link l) = none ∧
      countedUp (.service (.link l) .probesFail) 1 s t ∧
      (t.serviceOf (.link l) = .testing → t.entryTest (.link l) .waitConnect) ∧
      (t.serviceOf (.link l) = .isolated → t.testOf (.link l) = none) := by
  obtain ⟨hsweep, hloopMode, hslot, hcount, htesting, hisolated⟩ := lost_loop hs hv hloop hout
  have settled : settleSweep (loseConnection l s) =
      modSweep (fun w => w.stepFailed n) (bump (.sweep .stepsFail) (loseConnection l s)) :=
    settleSweep_single (k := k) (by rw [hsweep]) (by rw [hsweep]; exact hrun) (by rw [hsweep]; exact hwait)
      (by rw [hsweep]; exact hstep) hfails
  dsimp only
  rw [settled]
  refine ⟨?_, rfl, rfl, hloopMode, hslot, ?_, htesting, hisolated⟩
  · refine step_stepFailed ?_
    rw [bump_sweep, hsweep]
    exact hstep
  · exact (count_bump_other (by simp) _).trans hcount

end

/-- Settles O14, a connection loss: the line goes down and the flap is counted; the isolation controller takes
the news and at most one request, in either order; the sweep engine then spares the link, or, in a RUN-STEP
below its fail limit, records the FAIL alone. -/
theorem connectionLossIsTaken : Obligations.ConnectionLossIsTaken := by
  unfold Obligations.ConnectionLossIsTaken
  intro l s ha hwait hl
  let u := signalGone l s
  have lost := lost_loseConnection l u
  have spared := loss_spared l u
  have idle : s.serviceOf (.link l) ≠ .probing → settleSweep (loseConnection l u) = loseConnection l u :=
    settleSweep_loss (s := u) hwait
  refine ⟨_, exec_signalLost_connected ha hl, (spared.lines l).line.trans lost.down.line, ?_, fun h => ?_,
    fun h => ?_, fun h => (spared.count _ rfl).trans (lost.flap h), fun h => ?_, fun h => ?_, ?_, ?_⟩
  · refine ((spared.lines l).seen.trans lost.down.seen).trans ?_
    simp [u, signalGone]
  · refine (spared.lines l).rx (lost.down.rx ?_)
    simpa [u, signalGone] using h
  · rw [idle (by simp [h])]
    exact lost.off h
  · rw [idle (by rcases h with h | h <;> simp [h])]
    exact lost.stays h
  · obtain ⟨hqueue, hstate⟩ := loss_reached (s := u) h
    have hreach : ¬ u.unreachable (.link l) := fun hun => h.elim hun.1 hun.2
    refine ⟨hqueue, hstate, fun hquiet => ?_⟩
    obtain ⟨htesting, htest, hnumber, hcount⟩ := loss_quiet (s := u) hreach hquiet
    exact ⟨htesting, htest, hnumber, fun hq hf => hcount hq (by simpa [u, signalGone, State.inFlight] using hf)⟩
  · intro v n k x hs hv hpurpose hout hrun hpass hstep hfails
    exact loss_single (s := u) hs hv (by simp [hpurpose]) hout hrun hpass hstep hfails
  · intro v hs hv
    rw [idle (by simp [hs])]
    by_cases hph : v.phase = .held
    · obtain ⟨hstate, htest⟩ := lost.held v hs hv hph
      exact ⟨hstate, fun _ => htest, fun h => absurd hph h⟩
    · obtain ⟨hstate, again⟩ := lost.retested v hs hv hph
      exact ⟨hstate, fun h => absurd h hph, fun _ => again⟩

end Sys2Proof.Machine

/-! An interface takes both its links down, and reports their signals again (R18, R28, R29). -/

namespace Sys2Proof.Machine

/-! ### One link goes down with its interface (R28) -/

/-- The link with signal seen no and its retrain pause cancelled. -/
def linkQuieted (l : Link) (s : State) : State :=
  modLink l (fun t => { t with signalSeen := false, retrainPause := none }) s

theorem takeLinkDown_connected {l : Link} {s : State} (h : (s.links.get l).line = .connected) :
    takeLinkDown l s = loseConnection l (linkQuieted l s) := by
  unfold takeLinkDown
  dsimp only
  rw [h]
  rfl

theorem takeLinkDown_unconnected {l : Link} {s : State} (h : (s.links.get l).line ≠ .connected) :
    takeLinkDown l s = modLink l (fun t => { t with
      signalSeen := false, retrainPause := none, line := .noSignal }) s := by
  unfold takeLinkDown
  dsimp only
  split
  · next e => exact modLink_congr (by simp [e])
  · rw [modLink_modLink]
  · next e => exact absurd e h

/-- What an interface that goes down leaves of one of its links: NO-SIGNAL, and where it was CONNECTED the
flap counted and the link taken down, tested afresh or left as it was (R20, R28, R166). -/
structure WentDown (l : Link) (s t : State) : Prop where
  line : (t.links.get l).line = .noSignal
  seen : (t.links.get l).signalSeen = false
  pause : (t.links.get l).retrainPause = none
  flapOff : (s.links.get l).line = .connected → s.serviceOf (.link l) = .off →
    t.count (.link l .flaps) = s.count (.link l .flaps)
  flap : (s.links.get l).line = .connected → s.serviceOf (.link l) ≠ .off → countedUp (.link l .flaps) 1 s t
  reached : (s.links.get l).line = .connected →
    s.serviceOf (.link l) = .inService ∨ s.serviceOf (.link l) = .probing →
    t.queues.get (.link l) = [] ∧ (t.serviceOf (.link l) = .testing ∨ t.serviceOf (.link l) = .isolated)
  retested : ∀ v, (s.links.get l).line = .connected → s.serviceOf (.link l) = .testing →
    s.testOf (.link l) = some v → v.phase ≠ .held →
    t.serviceOf (.link l) = .testing ∧ t.entryTest (.link l) .waitConnect
  stays : (s.links.get l).line = .connected →
    s.serviceOf (.link l) = .isolated ∨ s.serviceOf (.link l) = .failed ∨ s.serviceOf (.link l) = .off →
    t.serviceOf (.link l) = s.serviceOf (.link l)

section
variable {l : Link} {s : State}

theorem lossAt_takeLinkDown (l : Link) (s : State) : LossAt l s (takeLinkDown l s) := by
  by_cases h : (s.links.get l).line = .connected
  · rw [takeLinkDown_connected h]
    exact (lossAt_modLink l _ s).trans (lost_loseConnection l _).down.others
  · rw [takeLinkDown_unconnected h]
    exact lossAt_modLink l _ s

theorem wentDown_takeLinkDown (l : Link) (s : State) : WentDown l s (takeLinkDown l s) := by
  by_cases h : (s.links.get l).line = .connected
  · have lost := lost_loseConnection l (linkQuieted l s)
    rw [takeLinkDown_connected h]
    exact {
      line := lost.down.line
      seen := lost.down.seen.trans (by simp [linkQuieted])
      pause := lost.down.pause.trans (by simp [linkQuieted])
      flapOff := fun _ hs => (lost.off hs).2
      flap := fun _ hs => lost.flap hs
      reached := fun _ hs => lost.reached hs
      retested := fun v _ hs hv hph =>
        have again := lost.retested v hs hv hph
        ⟨again.1, again.2.1⟩
      stays := fun _ hs => by
        rcases hs with hs | hs | hs
        · exact lost.stays (.inl hs)
        · exact lost.stays (.inr hs)
        · exact (lost.off hs).1.trans hs.symm }
  · rw [takeLinkDown_unconnected h]
    exact ⟨by simp, by simp, by simp, fun e => absurd e h, fun e => absurd e h, fun e => absurd e h,
      fun _ e => absurd e h, fun e => absurd e h⟩

theorem sweep_takeLinkDown (h : s.sweep.outstanding = none) : (takeLinkDown l s).sweep = s.sweep := by
  by_cases hl : (s.links.get l).line = .connected
  · rw [takeLinkDown_connected hl]
    exact (lost_loseConnection l _).sweep (.inl h)
  · rw [takeLinkDown_unconnected hl]
    simp

/-- Another link's loss leaves what a link has gone down to. -/
theorem WentDown.after {m : Link} {t u : State} (h : WentDown l s t) (hm : l ≠ m) (k : LossAt m t u) :
    WentDown l s u := by
  have port : Port.link l ≠ .link m := fun e => hm (by injection e)
  have links := k.link l hm
  have service := k.service _ port
  have count : u.count (.link l .flaps) = t.count (.link l .flaps) :=
    k.count _ rfl (fun _ e => hm (by injection e)) (by simp)
  have state : u.serviceOf (.link l) = t.serviceOf (.link l) := by rw [State.serviceOf, service]; rfl
  exact {
    line := by rw [links, h.line]
    seen := by rw [links, h.seen]
    pause := by rw [links, h.pause]
    flapOff := fun hl hs => count.trans (h.flapOff hl hs)
    flap := fun hl hs => count.trans (h.flap hl hs)
    reached := fun hl hs => by
      obtain ⟨hqueue, hstate⟩ := h.reached hl hs
      have hun : t.unreachable (.link l) := by rcases hstate with e | e <;> simp [State.unreachable, e]
      exact ⟨by rw [k.queue _ port hun, hqueue], by rwa [state]⟩
    retested := fun v hl hs hv hph => by
      obtain ⟨htesting, htest⟩ := h.retested v hl hs hv hph
      exact ⟨state.trans htesting, by rwa [State.entryTest, State.testOf, service]⟩
    stays := fun hl hs => state.trans (h.stays hl hs) }

/-- Another link's loss before it changes nothing of what a link goes down from. -/
theorem WentDown.before {m : Link} {t u : State} (h : WentDown l t u) (hm : l ≠ m) (k : LossAt m s t) :
    WentDown l s u := by
  have port : Port.link l ≠ .link m := fun e => hm (by injection e)
  have links := k.link l hm
  have service := k.service _ port
  have count : t.count (.link l .flaps) = s.count (.link l .flaps) :=
    k.count _ rfl (fun _ e => hm (by injection e)) (by simp)
  have state : t.serviceOf (.link l) = s.serviceOf (.link l) := by rw [State.serviceOf, service]; rfl
  have test : t.testOf (.link l) = s.testOf (.link l) := by rw [State.testOf, service]; rfl
  obtain ⟨line, seen, pause, flapOff, flap, reached, retested, stays⟩ := h
  rw [links, state] at flapOff flap reached stays
  rw [links, state, test] at retested
  exact ⟨line, seen, pause, fun hl hs => (flapOff hl hs).trans count,
    fun hl hs => by
      have up := flap hl hs
      rwa [countedUp, count] at up,
    reached, retested, stays⟩

/-- The engine, going on, leaves what a link has gone down to. -/
theorem WentDown.spared {t u : State} (h : WentDown l s t) (k : Spared (.link l) t u) : WentDown l s u := by
  have count : u.count (.link l .flaps) = t.count (.link l .flaps) := k.count _ rfl
  exact {
    line := (k.lines l).line.trans h.line
    seen := (k.lines l).seen.trans h.seen
    pause := (k.lines l).pause.trans h.pause
    flapOff := fun hl hs => count.trans (h.flapOff hl hs)
    flap := fun hl hs => count.trans (h.flap hl hs)
    reached := fun hl hs => by
      obtain ⟨hqueue, hstate⟩ := h.reached hl hs
      have port := k.port (by rcases hstate with e | e <;> simp [State.unreachable, e])
      exact ⟨port.empty hqueue, by rwa [port.serviceOf]⟩
    retested := fun v hl hs hv hph => by
      obtain ⟨htesting, htest⟩ := h.retested v hl hs hv hph
      have port := k.port (unreachable_of_testing htesting)
      exact ⟨port.serviceOf.trans htesting, by rwa [State.entryTest, State.testOf, port.testing htesting]⟩
    stays := fun hl hs => by
      have same := h.stays hl hs
      have port := k.port (by rcases hs with e | e | e <;> simp [State.unreachable, same, e])
      exact port.serviceOf.trans same }

end

/-! ### Both links of an interface (R28) -/

/-- An interface has two links. -/
theorem iface_links_pair (i : Iface) : ∃ a b, i.links = [a, b] ∧ a ≠ b ∧ ∀ l, l.iface = i ↔ l = a ∨ l = b := by
  cases i with
  | li0 => exact ⟨.l0, .l1, rfl, by simp, fun l => by cases l <;> simp [Link.iface]⟩
  | li1 => exact ⟨.l2, .l3, rfl, by simp, fun l => by cases l <;> simp [Link.iface]⟩

theorem takeInterfaceDown_pair {i : Iface} {a b : Link} (h : i.links = [a, b]) (s : State) :
    takeInterfaceDown i s = takeLinkDown b (takeLinkDown a s) := by
  rw [takeInterfaceDown, h]
  rfl

section
variable (i : Iface) (s : State)

theorem wentDown_takeInterfaceDown {l : Link} (hl : l ∈ i.links) :
    WentDown l s (takeInterfaceDown i s) := by
  obtain ⟨a, b, hi, hab, -⟩ := iface_links_pair i
  rw [takeInterfaceDown_pair hi]
  rw [hi] at hl
  rcases List.mem_pair.1 hl with rfl | rfl
  · exact (wentDown_takeLinkDown l s).after hab (lossAt_takeLinkDown b _)
  · exact (wentDown_takeLinkDown l _).before hab.symm (lossAt_takeLinkDown a s)

/-- The links of the other interface, and the interfaces, stand. -/
theorem takeInterfaceDown_elsewhere : (takeInterfaceDown i s).ifaces = s.ifaces ∧
    (∀ k c, (takeInterfaceDown i s).count (.iface k c) = s.count (.iface k c)) ∧
    ∀ l, l.iface ≠ i → (takeInterfaceDown i s).links.get l = s.links.get l := by
  obtain ⟨a, b, hi, -, hmem⟩ := iface_links_pair i
  rw [takeInterfaceDown_pair hi]
  have first := lossAt_takeLinkDown a s
  have second := lossAt_takeLinkDown b (takeLinkDown a s)
  refine ⟨second.ifaces.trans first.ifaces, fun k c => ?_, fun l hl => ?_⟩
  · exact (second.count _ rfl (by simp) (by simp)).trans (first.count _ rfl (by simp) (by simp))
  · obtain ⟨ha, hb⟩ := not_or.1 (mt (hmem l).2 hl)
    exact (second.link l hb).trans (first.link l ha)

theorem sweep_takeInterfaceDown (h : s.sweep.outstanding = none) :
    (takeInterfaceDown i s).sweep = s.sweep := by
  obtain ⟨a, b, hi, -, -⟩ := iface_links_pair i
  have first := sweep_takeLinkDown (l := a) h
  rw [takeInterfaceDown_pair hi, sweep_takeLinkDown (by rwa [first]), first]

end

/-! ### Clock loss and the end of CLOCK-HOLD (R29) -/

/-- The interface in CLOCK-HOLD, its hold time at 0, and the clock loss counted. -/
def clockHeld (i : Iface) (s : State) : State := bump (.iface i .clockLosses) (modIface i (fun _ => ⟨true, 0⟩) s)

theorem clockLoss_eq (i : Iface) (s : State) : clockLoss i s =
    if (s.ifaces.get i).clockHold then clockHeld i s else takeInterfaceDown i (clockHeld i s) := rfl

section
variable {i : Iface} {s : State}

theorem exec_clockLoss (ha : s.active = true) (hout : s.sweep.outstanding = none) :
    exec (.clockLoss i) s = .next (clockLoss i s) := by
  have held : (clockHeld i s).sweep = s.sweep := by simp [clockHeld]
  have same : (clockLoss i s).sweep = s.sweep := by
    rw [clockLoss_eq]
    split
    · exact held
    · rw [sweep_takeInterfaceDown i (clockHeld i s) (by rwa [held]), held]
  have settled : settleSweep (clockLoss i s) = clockLoss i s :=
    settleSweep_of_sweep (s := s) (by simp [State.resultWaits, hout]) same
  refine congrArg Host.Outcome.next ?_
  rw [whenActive_of_active _ ha, settled]

/-- A signal report changes its link alone. -/
theorem signalReported_eq (l : Link) (s : State) : ∃ f, signalReported l s = modLink l f s := by
  unfold signalReported tryTraining
  dsimp only
  split
  · exact ⟨_, modLink_modLink ..⟩
  · exact ⟨_, rfl⟩

/-- The interface reports one link's signal as it finds it. -/
def reportSignal (l : Link) (s : State) : State :=
  if (s.links.get l).lineSignal then signalReported l s else s

theorem reportSignal_eq (l : Link) (s : State) : ∃ f, reportSignal l s = modLink l f s := by
  unfold reportSignal
  split
  · exact signalReported_eq l s
  · exact ⟨id, (modLink_id l rfl).symm⟩

theorem reportSignal_trains {l : Link} (hheld : s.held l = false) (hl : (s.links.get l).line = .noSignal)
    (hp : (s.links.get l).retrainPause = none) (hs : (s.links.get l).lineSignal = true) :
    ((reportSignal l s).links.get l).line = .training ∧
      ((reportSignal l s).links.get l).trainingTime = 0 := by
  have trains := tryTraining_enters (l := l) (s := modLink l (fun t => { t with signalSeen := true }) s)
    (by simpa using hl) (by simp) (by simpa using hp) hheld
  rw [reportSignal, if_pos hs, signalReported, trains]
  simp

theorem reportSignals_pair {a b : Link} (h : i.links = [a, b]) (s : State) :
    reportSignals i s = reportSignal b (reportSignal a s) := by
  rw [reportSignals, h]
  rfl

theorem reportSignals_trains {l : Link} (hl : l ∈ i.links) (hhold : (s.ifaces.get i).clockHold = false)
    (hline : (s.links.get l).line = .noSignal) (hp : (s.links.get l).retrainPause = none)
    (hs : (s.links.get l).lineSignal = true) :
    ((reportSignals i s).links.get l).line = .training ∧
      ((reportSignals i s).links.get l).trainingTime = 0 := by
  obtain ⟨a, b, hi, hab, hmem⟩ := iface_links_pair i
  rw [reportSignals_pair hi]
  obtain ⟨f, hf⟩ := reportSignal_eq a s
  obtain ⟨g, hg⟩ := reportSignal_eq b (reportSignal a s)
  have held : s.held l = false := by
    rw [hi, List.mem_pair] at hl
    rwa [State.held, (hmem l).2 hl]
  rw [hi] at hl
  rcases List.mem_pair.1 hl with rfl | rfl
  · have trained := reportSignal_trains held hline hp hs
    rw [hg]
    simpa [hab.symm] using trained
  · refine reportSignal_trains (s := reportSignal a s) ?_ ?_ ?_ ?_ <;> rw [hf]
    · exact held
    · simpa [hab] using hline
    · simpa [hab] using hp
    · simpa [hab] using hs

theorem ifaces_reportSignals (i : Iface) (s : State) : (reportSignals i s).ifaces = s.ifaces := by
  obtain ⟨a, b, hi, -, -⟩ := iface_links_pair i
  obtain ⟨f, hf⟩ := reportSignal_eq a s
  obtain ⟨g, hg⟩ := reportSignal_eq b (reportSignal a s)
  rw [reportSignals_pair hi, hg, hf]
  simp

theorem exec_clockHoldExpiry (ha : s.active = true) (hhold : (s.ifaces.get i).clockHold = true) :
    exec (.clockHoldExpiry i) s = .next (reportSignals i (modIface i (fun _ => ⟨false, 0⟩) s)) := by
  refine congrArg Host.Outcome.next ?_
  rw [whenActive_of_active _ ha, clockHoldExpiry, if_pos hhold]

end

/-- Settles O18: both links go down in turn, each loss leaving the other link and the interfaces alone, and
the engine, with no probe outstanding, has nothing to take; at the end of the hold each link's report changes
that link alone. -/
theorem clockLossTakesBothLinksDown : Obligations.ClockLossTakesBothLinksDown := by
  unfold Obligations.ClockLossTakesBothLinksDown
  intro i s ha hout
  have counted : (clockHeld i s).count (.iface i .clockLosses) =
      min Config.counterMax (s.count (.iface i .clockLosses) + 1) := countedUp_bump _ _
  have ifaces : (clockHeld i s).ifaces = s.ifaces.set i ⟨true, 0⟩ := by simp [clockHeld]
  have links : (clockHeld i s).links = s.links := by simp [clockHeld]
  refine ⟨⟨_, exec_clockLoss ha hout, ?_⟩, fun hhold => ⟨_, exec_clockHoldExpiry ha hhold, ?_,
    fun l hl hline hp hs => reportSignals_trains hl (by simp) (by simpa using hline) (by simpa using hp)
      (by simpa using hs)⟩⟩
  · rw [clockLoss_eq]
    split
    · next hhold =>
      exact ⟨ifaces, counted, fun _ _ => by rw [links], fun h => by simp [hhold] at h, fun _ => links⟩
    · next hhold =>
      obtain ⟨ifaces', counts, elsewhere⟩ := takeInterfaceDown_elsewhere i (clockHeld i s)
      refine ⟨ifaces'.trans ifaces, (counts _ _).trans counted, fun l hl => by rw [elsewhere l hl, links],
        fun _ l hl => ?_, fun h => absurd h hhold⟩
      have down := wentDown_takeInterfaceDown i (clockHeld i s) hl
      exact ⟨down.line, down.seen, down.pause⟩
  · rw [ifaces_reportSignals]
    simp

end Sys2Proof.Machine

/-! SET-PORT, RESTART-PORT and RESTART-INTERFACE (R20, R28 to R30, R166, R171, R172). -/

namespace Sys2Proof.Machine

/-! ### A port is taken OFF (R171) -/

/-- The record of a port taken OFF. -/
def PortService.takenOff (v : PortService) : PortService :=
  { v with state := .off, test := none, holdTimer := none, holdExpired := false }

section
variable (p : Port) (s : State)

theorem record_portOff : (portOff p s).service.get p = (s.service.get p).takenOff := by
  simp [portOff, service_purgePort, service_setService, stopHold, service_cutTest, PortService.takenOff]

theorem purged_portOff : (portOff p s).queues.get p = [] ∧ (portOff p s).slots.get p = none := by
  simp [portOff, purgePort_leaves]

/-- A port taken OFF in an entry test gives the engine nothing. -/
theorem sweep_portOff (h : ∀ v, s.testOf p = some v → v.purpose = .entry) : (portOff p s).sweep = s.sweep := by
  obtain ⟨_, _, e, -⟩ := setService_eq (p := p) (st := .off) (s := stopHold p (cutTest p s)) (by simp)
  unfold portOff
  rw [(atPort_purgePort p .off _).sweep, e]
  exact sweep_cutTest h

end

/-! ### A port leaves OFF (R11, R171) -/

theorem record_portOn (p : Port) (s : State) : ∃ ph timer wait,
    (portOn p s).service.get p = { s.service.get p with test := none }.tested ph timer wait := by
  obtain ⟨timer, wait, e⟩ := record_enterTesting p (cutTest p s)
  exact ⟨_, timer, wait, by rw [portOn, e, service_cutTest, PerPort.get_set, if_pos rfl]⟩

/-- A STUCK reported at a segment that takes no frames changes no port's record. -/
theorem service_segReport_stuck {x : Seg} {s : State} (h : s.unreachable (.seg x)) :
    (segReport x .stuck s).service = s.service := by
  by_cases hw : s.window.running = true
  · let u : State := { s with segWin := s.segWin.set x ((s.segWin.get x).take .stuck) }
    obtain ⟨counters, marks, e, -⟩ := judgePort_eq (.seg x) false u
    have hj : (judgePort (.seg x) false u).2.unreachable (.seg x) := by
      rw [e]
      exact h
    obtain ⟨_, e', -⟩ := ignored_makeRequests (judgePort (.seg x) false u).1 hj
    have judged : segReport x .stuck s = _ := segReport_running hw (r := .stuck) (by simp)
    rw [judged]
    refine (congrArg State.service e').trans ?_
    rw [e]
  · rw [segReport_stopped .stuck (by simpa using hw)]

theorem service_stuckOnLeavingOff {p : Port} {s : State} (h : s.unreachable p) :
    (stuckOnLeavingOff p s).service = s.service := by
  unfold stuckOnLeavingOff
  split
  · rfl
  · split
    · rw [service_segReport_stuck (by exact h)]
      simp
    · rfl

/-! ### A port is restarted (R30, R172) -/

/-- The restart's news at the line: a link goes without its line, and a segment has nothing to do. -/
def retrained (p : Port) (s : State) : State :=
  match p with
  | .link l => retrain l s
  | .seg _ => s

theorem restartPort_eq (p : Port) (s : State) :
    restartPort p s = enterTesting p (retrained p (purgePort p .restart (cutTest p s))) := by
  cases p <;> rfl

theorem retrain_line (l : Link) (s : State) : ((retrain l s).links.get l).line = .noSignal ∧
    ((retrain l s).links.get l).signalSeen = false ∧ ((retrain l s).links.get l).retrainPause = none := by
  simp [retrain]

/-- With no test in progress a retraining changes no record and no queue. -/
theorem retrain_leaves {l : Link} {s : State} (h : s.testOf (.link l) = none) :
    (retrain l s).service = s.service ∧ (retrain l s).queues = s.queues := by
  have down := dropped_dropLine l s
  obtain ⟨test, e, -, hphase, -⟩ := down.record
  have none : test = none := by simpa [h] using hphase
  have service : (dropLine l s).service = s.service := by
    have same : { s.service.get (.link l) with test := test } = s.service.get (.link l) := by
      rw [none, ← h]
      rfl
    rw [e, same, PerPort.set_get]
  unfold retrain
  dsimp only
  split
  · exact ⟨(modLink_service ..).trans service, (modLink_queues ..).trans (down.queues (.inr h))⟩
  · exact ⟨rfl, rfl⟩

theorem retrained_leaves {p : Port} {s : State} (h : s.testOf p = none) :
    (retrained p s).service = s.service ∧ (retrained p s).queues = s.queues := by
  cases p with
  | seg x => exact ⟨rfl, rfl⟩
  | link l => exact retrain_leaves h

section
variable (p : Port) (s : State)

theorem restartPort_leaves : (restartPort p s).queues.get p = [] ∧ ∃ ph timer wait,
    (restartPort p s).service.get p = { s.service.get p with test := none }.tested ph timer wait ∧
      ∀ l, p = .link l → ph = .waitConnect := by
  let u := purgePort p .restart (cutTest p s)
  have service : u.service = s.service.set p { s.service.get p with test := none } := by
    rw [service_purgePort, service_cutTest]
  obtain ⟨service', queues'⟩ := retrained_leaves (p := p) (s := u) (by simp [State.testOf, service])
  obtain ⟨timer, wait, e⟩ := record_enterTesting p (retrained p u)
  rw [restartPort_eq]
  refine ⟨?_, (retrained p u).entryPhase p, timer, wait, ?_, fun l hl => ?_⟩
  · rw [queue_enterTesting, queues']
    simp [u, purgePort_leaves]
  · rw [e, service', service, PerPort.get_set, if_pos rfl]
  · subst hl
    exact entryPhase_of_not_connected (by simp [retrained, retrain])

end

theorem restartPort_line (l : Link) (s : State) :
    ((restartPort (.link l) s).links.get l).line = .noSignal ∧
      ((restartPort (.link l) s).links.get l).signalSeen = false ∧
      ((restartPort (.link l) s).links.get l).retrainPause = none := by
  rw [restartPort_eq]
  obtain ⟨line, seen, pause⟩ := retrain_line l (purgePort (.link l) .restart (cutTest (.link l) s))
  have kept := (works_enterTesting (.link l) (retrained (.link l)
    (purgePort (.link l) .restart (cutTest (.link l) s)))).lines l
  exact ⟨kept.line.trans line, kept.seen.trans seen, kept.pause.trans pause⟩

/-! ### The requests carried out (R171, R172) -/

section
variable {s : State} {q : Request} {rest : List Request}

/-- SET-PORT is answered with what carrying it out comes to, once the engine has taken a loop's result. -/
theorem exec_setPort {b : Byte} {on x y : Option Bool} (h : s.headIs q rest (.setPort b on x y)) :
    exec .setPort s = .next (
      let done := (carrySetPort b on x y (becomeCurrent q rest s)).settled
      answered q done.status done.results done.state) :=
  congrArg Host.Outcome.next (carry_at h _ _ (a := (b, on, x, y)) rfl)

theorem exec_restartPort {b : Byte} (h : s.headIs q rest (.restartPort b)) :
    exec .restartPort s = .next (
      let done := (carryRestartPort b (becomeCurrent q rest s)).settled
      answered q done.status done.results done.state) :=
  congrArg Host.Outcome.next (carry_at h _ _ (a := b) rfl)

theorem exec_restartInterface {b : Byte} (h : s.headIs q rest (.restartInterface b)) :
    exec .restartInterface s = .next (
      let done := (carryRestartInterface b (becomeCurrent q rest s)).settled
      answered q done.status done.results done.state) :=
  congrArg Host.Outcome.next (carry_at h _ _ (a := b) rfl)

section
variable {b : Byte} {p : Port} (hb : Port.ofCode b = some p)
include hb

/-- The administrative setting alone leaves broadcast-forward and management-accept. -/
theorem carrySetPort_admin (on : Bool) (u : State) :
    carrySetPort b (some on) none none u = .done (setAdmin p on u) := by
  have same : modService p (fun v => { v with
      bcast := (none : Option Bool).getD v.bcast, accept := (none : Option Bool).getD v.accept }) u = u := by
    show { u with service := u.service.set p (u.service.get p) } = u
    rw [PerPort.set_get]
  unfold carrySetPort onPort
  rw [hb]
  dsimp only
  rw [if_neg (by simp)]
  exact congrArg (fun t => Carried.done (setAdmin p on t)) same

theorem exec_setPort_record (hwait : s.resultWaits = false) {x y : Option Bool}
    (h : s.headIs q rest (.setPort b none x y)) (hside : p.side = .pair ∨ x = none) :
    exec .setPort s = .next (answered q .done [] (modService p (fun v => { v with
      bcast := x.getD v.bcast, accept := y.getD v.accept }) (becomeCurrent q rest s))) := by
  have allowed : ¬ (p.side = .trunk ∧ x.isSome = true) := by
    rcases hside with e | e <;> simp [e]
  have carried : carrySetPort b none x y (becomeCurrent q rest s) = .done (modService p (fun v => { v with
      bcast := x.getD v.bcast, accept := y.getD v.accept }) (becomeCurrent q rest s)) := by
    simp [carrySetPort, onPort, hb, allowed]
  rw [exec_setPort h, carried]
  exact congrArg (fun t => Host.Outcome.next (answered q .done [] t)) (settleSweep_of_sweep hwait rfl)

theorem exec_setPort_segment (hwait : s.resultWaits = false) {x y : Option Bool} {z : Bool}
    (h : s.headIs q rest (.setPort b x (some z) y)) (hside : p.side = .trunk) :
    exec .setPort s = .next (answered q .range [] (becomeCurrent q rest s)) := by
  have carried : carrySetPort b x (some z) y (becomeCurrent q rest s) =
      .refuse .range (becomeCurrent q rest s) := by
    simp [carrySetPort, onPort, hb, hside]
  rw [exec_setPort h, carried]
  exact congrArg (fun t => Host.Outcome.next (answered q .range [] t)) (settleSweep_of_sweep hwait rfl)

/-- SET-PORT off: the port is OFF and empty whatever the engine does, and with no loop there it does
nothing. -/
theorem exec_setPort_off (hwait : s.resultWaits = false)
    (h : s.headIs q rest (.setPort b (some false) none none)) (hon : s.serviceOf p ≠ .off) :
    ∃ t, exec .setPort s = .next (answered q .done [] t) ∧ t.serviceOf p = .off ∧
      t.queues.get p = [] ∧ (t.service.get p).holdTimer = none ∧
      (t.service.get p).holdTime = (s.service.get p).holdTime ∧
      (t.service.get p).failedTests = (s.service.get p).failedTests ∧
      ((∀ v, s.testOf p = some v → v.purpose = .entry) → t.slots.get p = none ∧ t.testOf p = none) := by
  let u := becomeCurrent q rest s
  have carried : carrySetPort b (some false) none none u = .done (portOff p u) := by
    rw [carrySetPort_admin hb, setAdmin, if_neg (by simp), if_neg (show ¬ u.serviceOf p = .off from hon)]
  have record : (portOff p u).service.get p = (s.service.get p).takenOff := record_portOff p u
  obtain ⟨queue, slot⟩ := purged_portOff p u
  have port := (spared_settleSweep (p := p) (portOff p u)).port
    (by simp [State.unreachable, State.serviceOf, record, PortService.takenOff])
  obtain ⟨test, n, e⟩ := port.record
  rw [record] at e
  refine ⟨settleSweep (portOff p u), by rw [exec_setPort h, carried]; rfl, ?_, port.empty queue, ?_, ?_, ?_,
    fun hentry => ?_⟩
  · simp [State.serviceOf, e, PortService.takenOff]
  · simp [e, PortService.takenOff]
  · simp [e, PortService.takenOff]
  · simp [e, PortService.takenOff]
  · have settled : settleSweep (portOff p u) = portOff p u :=
      settleSweep_of_sweep hwait (sweep_portOff p u hentry)
    rw [settled]
    exact ⟨slot, by simp [State.testOf, record, PortService.takenOff]⟩

/-- SET-PORT on at an OFF port: it is in its entry test, and stays there when the engine goes on. -/
theorem exec_setPort_on (h : s.headIs q rest (.setPort b (some true) none none))
    (hoff : s.serviceOf p = .off) :
    ∃ t, exec .setPort s = .next (answered q .done [] t) ∧ t.serviceOf p = .testing ∧
      ((t.testOf p).map PortTest.purpose) = some .entry := by
  let u := becomeCurrent q rest s
  have carried : carrySetPort b (some true) none none u = .done (stuckOnLeavingOff p (portOn p u)) := by
    rw [carrySetPort_admin hb, setAdmin, if_pos rfl, if_pos (show u.serviceOf p = .off from hoff)]
  obtain ⟨ph, timer, wait, record⟩ := record_portOn p u
  have testing : (portOn p u).serviceOf p = .testing := by
    simp [State.serviceOf, record, PortService.tested]
  let t := stuckOnLeavingOff p (portOn p u)
  have service : t.service = (portOn p u).service := service_stuckOnLeavingOff (unreachable_of_testing testing)
  have still : t.serviceOf p = .testing := by rwa [State.serviceOf, service]
  have same := ((spared_settleSweep (p := p) t).port (unreachable_of_testing still)).testing still
  refine ⟨settleSweep t, by rw [exec_setPort h, carried]; rfl, by rwa [State.serviceOf, same], ?_⟩
  rw [State.testOf, same, service, record]
  rfl

theorem exec_restartPort_off (hwait : s.resultWaits = false) (h : s.headIs q rest (.restartPort b))
    (hoff : s.serviceOf p = .off) :
    exec .restartPort s = .next (answered q .conflict [] (becomeCurrent q rest s)) := by
  have carried : carryRestartPort b (becomeCurrent q rest s) = .refuse .conflict (becomeCurrent q rest s) := by
    have off : (becomeCurrent q rest s).serviceOf p = .off := hoff
    simp [carryRestartPort, onPort, hb, off]
  rw [exec_restartPort h, carried]
  exact congrArg (fun t => Host.Outcome.next (answered q .conflict [] t)) (settleSweep_of_sweep hwait rfl)

/-- RESTART-PORT: the port is in a new entry test with its queue purged, a link without its line, and stays
so when the engine goes on. -/
theorem exec_restartPort_on (h : s.headIs q rest (.restartPort b)) (hon : s.serviceOf p ≠ .off) :
    ∃ t, exec .restartPort s = .next (answered q .done [] t) ∧ t.serviceOf p = .testing ∧
      t.queues.get p = [] ∧ ((t.testOf p).map PortTest.purpose) = some .entry ∧
      (t.service.get p).testNumber = (s.service.get p).testNumber + 1 ∧
      (t.service.get p).holdTimer = none ∧
      (t.service.get p).holdTime = (s.service.get p).holdTime ∧
      (t.service.get p).failedTests = (s.service.get p).failedTests ∧
      ∀ l, p = .link l → (t.links.get l).line = .noSignal ∧ (t.links.get l).signalSeen = false ∧
        (t.links.get l).retrainPause = none ∧ ((t.testOf p).map PortTest.phase) = some .waitConnect := by
  let u := becomeCurrent q rest s
  have carried : carryRestartPort b u = .done (restartPort p u) := by
    have on : ¬ u.serviceOf p = .off := hon
    simp [carryRestartPort, onPort, hb, on]
  obtain ⟨queue, ph, timer, wait, record, waits⟩ := restartPort_leaves p u
  have testing : (restartPort p u).serviceOf p = .testing := by
    simp [State.serviceOf, record, PortService.tested]
  have spared := spared_settleSweep (p := p) (restartPort p u)
  have port := spared.port (unreachable_of_testing testing)
  have same := (port.testing testing).trans record
  refine ⟨settleSweep (restartPort p u), by rw [exec_restartPort h, carried]; rfl,
    by simp [State.serviceOf, same, PortService.tested], port.empty queue,
    by rw [State.testOf, same]; rfl, by rw [same]; rfl, by rw [same]; rfl, by rw [same]; rfl,
    by rw [same]; rfl, ?_⟩
  rintro l rfl
  obtain ⟨line, seen, pause⟩ := restartPort_line l u
  have kept := spared.lines l
  refine ⟨kept.line.trans line, kept.seen.trans seen, kept.pause.trans pause, ?_⟩
  rw [State.testOf, same, ← waits l rfl]
  rfl

end

section
variable {b : Byte} {i : Iface} (hb : Iface.ofCode b = some i) (h : s.headIs q rest (.restartInterface b))
include hb h

theorem exec_restartInterface_held (hwait : s.resultWaits = false) (hhold : (s.ifaces.get i).clockHold = true) :
    exec .restartInterface s =
      .next (answered q .done [] (bump (.iface i .restarts) (becomeCurrent q rest s))) := by
  let u := becomeCurrent q rest s
  have held : ((bump (.iface i .restarts) u).ifaces.get i).clockHold = true := by
    rw [bump_ifaces]
    exact hhold
  have stays : restartInterface i u = bump (.iface i .restarts) u := if_pos held
  have carried : carryRestartInterface b u = .done (bump (.iface i .restarts) u) := by
    simp [carryRestartInterface, hb, stays]
  rw [exec_restartInterface h, carried]
  exact congrArg (fun t => Host.Outcome.next (answered q .done [] t))
    (settleSweep_of_sweep hwait (bump_sweep ..))

/-- RESTART-INTERFACE: the restart is counted and each link goes down, and stays so when the engine goes
on. -/
theorem exec_restartInterface_falls (hhold : (s.ifaces.get i).clockHold = false) :
    ∃ t, exec .restartInterface s = .next (answered q .done [] t) ∧
      countedUp (.iface i .restarts) 1 s t ∧ ∀ l ∈ i.links, WentDown l s t := by
  let u := bump (.iface i .restarts) (becomeCurrent q rest s)
  have running : (u.ifaces.get i).clockHold = false := by
    rw [bump_ifaces]
    exact hhold
  have carried : carryRestartInterface b (becomeCurrent q rest s) = .done (takeInterfaceDown i u) := by
    have e : restartInterface i (becomeCurrent q rest s) = takeInterfaceDown i u :=
      if_neg (Bool.eq_false_iff.1 running)
    simp [carryRestartInterface, hb, e]
  obtain ⟨-, counts, -⟩ := takeInterfaceDown_elsewhere i u
  have counted : countedUp (.iface i .restarts) 1 s u := countedUp_bump _ (becomeCurrent q rest s)
  refine ⟨settleSweep (takeInterfaceDown i u), by rw [exec_restartInterface h, carried]; rfl, ?_,
    fun l hl => ?_⟩
  · have settled := (spared_settleSweep (p := .link .l0) (takeInterfaceDown i u)).count (.iface i .restarts) rfl
    exact settled.trans ((counts i .restarts).trans counted)
  · have down := (wentDown_takeInterfaceDown i u hl).spared (spared_settleSweep _)
    have same : u.count (.link l .flaps) = s.count (.link l .flaps) := count_bump_other (by simp) _
    exact {
      line := down.line
      seen := down.seen
      pause := down.pause
      flapOff := fun hc hs => (down.flapOff hc hs).trans same
      flap := fun hc hs => by
        have up := down.flap hc hs
        rwa [countedUp, same] at up
      reached := down.reached
      retested := down.retested
      stays := down.stays }

end

end

/-- Settles O49: each request is carried out on the state in which it became the current one, the engine takes
the result of a loop it cut off, and what the request left of the port stands through that. -/
theorem portRequestsActOnThePort : Obligations.PortRequestsActOnThePort := by
  unfold Obligations.PortRequestsActOnThePort
  intro s q rest hwait
  refine ⟨fun b p hb => ⟨fun x y h => exec_setPort_record hb hwait h,
    fun x y z h => exec_setPort_segment hb hwait h, exec_setPort_off hb hwait, exec_setPort_on hb,
    exec_restartPort_off hb hwait, exec_restartPort_on hb⟩,
    fun b i hb h => ⟨exec_restartInterface_held hb h hwait, fun hhold => ?_⟩⟩
  obtain ⟨t, e, counted, down⟩ := exec_restartInterface_falls hb h hhold
  refine ⟨t, e, counted, fun l hl => ?_⟩
  obtain ⟨line, seen, pause, flapOff, flap, reached, retested, stays⟩ := down l hl
  refine ⟨line, seen, pause, fun hc => ⟨flapOff hc, flap hc, reached hc, fun v hs hv hph => ?_, stays hc⟩⟩
  obtain ⟨htesting, w, hw, -, hphase⟩ := retested v hc hs hv hph
  exact ⟨htesting, by rw [hw, Option.map_some, hphase]⟩

end Sys2Proof.Machine

/-! The rules of the job table: what a change of a job, a status and the end of a job leave. -/

namespace Sys2Proof.Machine

/-! ### A job changed (R100) -/

theorem Table.put_put {κ α : Type} [DecidableEq κ] (ord : κ → Nat) (k : κ) (v w : α) :
    ∀ t : Table κ α, (t.put ord k v).put ord k w = t.put ord k w
  | [] => by simp [Table.put]
  | (i, x) :: t => by
    have ih := Table.put_put ord k v w t
    by_cases hi : i = k
    · simp [Table.put, hi]
    · by_cases hlt : ord k < ord i
      · simp [Table.put, hi, hlt]
      · simp [Table.put, hi, hlt, ih]

theorem modJob_of_find {k : Nat} {j : Job} {s : State} (h : s.jobs.find k = some j) (f : Job → Job) :
    modJob k f s = { s with jobs := s.jobs.put id k (f j) } := by
  simp only [modJob, h]

theorem find_modJob {k : Nat} {j : Job} {s : State} (h : s.jobs.find k = some j) (f : Job → Job) :
    (modJob k f s).jobs.find k = some (f j) := by
  rw [modJob_of_find h, Table.find_put, if_pos rfl]

theorem find_modJob_other {k i : Nat} (h : i ≠ k) (f : Job → Job) (s : State) :
    (modJob k f s).jobs.find i = s.jobs.find i := by
  unfold modJob
  split
  · rfl
  · rw [Table.find_put, if_neg h.symm]

theorem modJob_modJob {k : Nat} {j : Job} {s : State} (h : s.jobs.find k = some j) (f g : Job → Job) :
    modJob k g (modJob k f s) = modJob k (g ∘ f) s := by
  rw [modJob_of_find (find_modJob h f), modJob_of_find h, modJob_of_find h]
  simp only [Table.put_put, Function.comp_apply]

/-! ### A status sent, a job ended (R112, R113) -/

theorem sendStatus_same (u : Key) (tag : Byte) (a : Answer) (s : State) :
    sameButFrames s (sendStatus u tag a s) := by
  unfold sendStatus
  split
  · exact bump_same _ s
  · next p d _ =>
    have sent := sendOwn_same p d kindPrintStatus (statusPayload tag a) s
    split <;> next e => rw [e] at sent; exact sameButFrames_trans sent (bump_same _ _)

theorem jobs_of_same {s t : State} (h : sameButFrames s t) : t.jobs = s.jobs := by
  obtain ⟨-, -, -, -, -, -, -, -, -, -, -, -, -, -, hjobs, -⟩ := sameButFrames_fields h
  exact hjobs

theorem Table.drop_of_find_none {κ α : Type} [DecidableEq κ] {t : Table κ α} {k : κ} (h : t.find k = none) :
    t.drop k = t :=
  List.filter_eq_self.2 fun e he => by simpa using Table.find_none.1 h e he

/-- The state in which a job's slot is free and its blocks are given back (R33, R112). -/
def slotFreed (slot : Nat) (j : Job) (s : State) : State :=
  let n := blocksFor j.bytes.length
  { s with
    jobs := s.jobs.drop slot
    pool := ⟨s.pool.free + n, s.pool.frameHeld, s.pool.spoolHeld - n⟩ }

/-- The same, with SPOOL-EMPTY raised where the spool-held count comes to 0 (R40). -/
def chainReturned (slot : Nat) (j : Job) (s : State) : State :=
  if 0 < s.pool.spoolHeld ∧ s.pool.spoolHeld ≤ blocksFor j.bytes.length then
    raise .spoolEmpty (slotFreed slot j s)
  else slotFreed slot j s

theorem chainReturned_same (slot : Nat) (j : Job) (s : State) :
    sameButFrames (slotFreed slot j s) (chainReturned slot j s) := by
  unfold chainReturned
  split
  · exact raise_same _ _
  · exact sameButFrames_refl _

/-- The end of a live job: the chain, JOB-ABORTED, the outcome's counter, the status (R112, R114). -/
theorem endJob_of_find {slot : Nat} {j : Job} {s : State} (h : s.jobs.find slot = some j) (e : JobEnd) :
    endJob slot e s =
      let ended := if e.isAborted then raise .jobAborted (chainReturned slot j s) else chainReturned slot j s
      if e = .aborted .quarantine then bump (.spool e.counter) ended
      else sendStatus j.submitter j.tag (.ended e) (bump (.spool e.counter) ended) := by
  have hempty : (s.pool.spoolHeld - blocksFor j.bytes.length = 0) =
      (s.pool.spoolHeld ≤ blocksFor j.bytes.length) := by
    rw [Nat.sub_eq_zero_iff_le]
  simp only [endJob, h, chainReturned, slotFreed, returnSpoolBlocks, hempty]

theorem endJob_of_find_none {slot : Nat} {s : State} (h : s.jobs.find slot = none) (e : JobEnd) :
    endJob slot e s = s := by
  simp only [endJob, h]

/-- The end of a job touches frames, flags and counters only, beside the slot and the blocks it frees. -/
theorem endJob_same {slot : Nat} {j : Job} {s : State} (h : s.jobs.find slot = some j) (e : JobEnd) :
    sameButFrames (slotFreed slot j s) (endJob slot e s) := by
  have ended : sameButFrames (slotFreed slot j s) (if e.isAborted then
      raise .jobAborted (chainReturned slot j s) else chainReturned slot j s) := by
    split
    · exact sameButFrames_trans (chainReturned_same slot j s) (raise_same _ _)
    · exact chainReturned_same slot j s
  have counted := sameButFrames_trans ended (bump_same (.spool e.counter) _)
  rw [endJob_of_find h]
  dsimp only
  split
  · exact counted
  · exact sameButFrames_trans counted (sendStatus_same ..)

/-- The end of a job frees its slot and no other. -/
theorem endJob_jobs (slot : Nat) (e : JobEnd) (s : State) : (endJob slot e s).jobs = s.jobs.drop slot := by
  cases h : s.jobs.find slot with
  | none => rw [endJob_of_find_none h, Table.drop_of_find_none h]
  | some j => rw [jobs_of_same (endJob_same h e), slotFreed]

end Sys2Proof.Machine

/-! The account of the 1,024 blocks that every step keeps. -/

namespace Sys2Proof.Machine

/-! ### The fields the account speaks of -/

/-- The fields that the account of the blocks speaks of. -/
def State.account (s : State) := (s.records, s.nextRecord, s.pool, s.jobs)

theorem blocksOk_of_account {s t : State} (h : s.blocksOk) (e : t.account = s.account) : t.blocksOk := by
  simp only [State.account, Prod.mk.injEq] at e
  simpa only [State.blocksOk, State.recordsOk, State.jobsOk, State.recordBlocks, State.jobBlocks, e] using h

theorem account_of_core {s t : State} (h : t.core = s.core) : t.account = s.account := by
  simp only [State.core, Prod.mk.injEq] at h
  simp only [State.account, h]

theorem account_putEntry (i : Nat) (e : Entry) (s : State) : (putEntry i e s).account = s.account := by
  unfold putEntry
  split <;> rfl

theorem account_dropEntry (i : Nat) (s : State) : (dropEntry i s).account = s.account := by
  unfold dropEntry
  split <;> rfl

theorem account_modStation (i : Nat) (f : Station → Station) (s : State) :
    (modStation i f s).account = s.account := by
  unfold modStation
  split
  · exact account_putEntry i _ s
  · rfl

theorem account_bumpBy (c : Counter) (n : Nat) (s : State) : (bumpBy c n s).account = s.account := by
  simp only [State.account, bumpBy_records, bumpBy_nextRecord, bumpBy_pool, bumpBy_jobs]

/-! ### Frame records (R33, R37) -/

/-- No record has the next name yet. -/
theorem find_nextRecord {s : State} (h : s.recordsOk) : s.records.find s.nextRecord = none :=
  Table.find_none.2 fun e he => (h.2 e he).ne

/-- A record written again keeps the records' names and their sum, but for its own blocks. -/
theorem records_put {s : State} {r : Nat} {x : FrameRecord} (h : s.recordsOk)
    (hf : s.records.find r = some x) (y : FrameRecord) :
    let t : State := { s with records := s.records.put id r y }
    t.recordsOk ∧ t.recordBlocks + x.blocks = s.recordBlocks + y.blocks := by
  obtain ⟨hr, hn⟩ := h
  refine ⟨⟨Table.rising_put hr r y, fun e he => ?_⟩, Table.sum_put hr FrameRecord.blocks hf⟩
  rcases Table.mem_put he with rfl | he
  · exact hn (r, x) (Table.mem_of_find hf)
  · exact hn e he

/-- A record dropped takes its blocks out of the sum. -/
theorem records_drop {s : State} {r : Nat} {x : FrameRecord} (h : s.recordsOk)
    (hf : s.records.find r = some x) :
    let t : State := { s with records := s.records.drop r }
    t.recordsOk ∧ t.recordBlocks + x.blocks = s.recordBlocks := by
  obtain ⟨hr, hn⟩ := h
  exact ⟨⟨Table.rising_drop hr r, fun e he => hn e (Table.mem_drop.1 he).1⟩,
    Table.sum_drop hr FrameRecord.blocks hf⟩

theorem blocksOk_newRecord {s : State} {n : Nat} (bs : List Byte) (hn : n ≤ s.pool.free)
    (h : s.blocksOk) : (newRecord n bs s).blocksOk := by
  obtain ⟨hrec, hjobs, hall, hframe, hspool⟩ := h
  have hsum := Table.sum_put_new FrameRecord.blocks (v := ⟨n, bs, 1⟩) (find_nextRecord hrec)
  refine ⟨⟨Table.rising_put hrec.1 _ _, fun e he => ?_⟩, hjobs, ?_, ?_, hspool⟩
  · rcases Table.mem_put he with rfl | he
    · exact Nat.lt_succ_self _
    · exact Nat.lt_succ_of_lt (hrec.2 e he)
  · simp only [newRecord_pool]
    omega
  · rw [State.recordBlocks] at hframe
    simp only [State.recordBlocks, newRecord_pool, newRecord_records, hsum, hframe]

/-- A record whose blocks stay as many. -/
theorem blocksOk_putRecord {s : State} {r : Nat} {x y : FrameRecord} (hf : s.records.find r = some x)
    (hy : y.blocks = x.blocks) (h : s.blocksOk) :
    State.blocksOk { s with records := s.records.put id r y } := by
  obtain ⟨hrec, hjobs, hall, hframe, hspool⟩ := h
  obtain ⟨hput, hsum⟩ := records_put hrec hf y
  exact ⟨hput, hjobs, hall, by dsimp only at hsum ⊢; omega, hspool⟩

theorem blocksOk_growRecord {s : State} {r : Nat} {x : FrameRecord} (bs : List Byte)
    (hf : s.records.find r = some x) (hfree : s.pool.free ≠ 0) (h : s.blocksOk) :
    State.blocksOk { takeFrameBlocks 1 s with
      records := s.records.put id r { x with blocks := x.blocks + 1, payload := bs } } := by
  obtain ⟨hrec, hjobs, hall, hframe, hspool⟩ := h
  obtain ⟨hput, hsum⟩ := records_put hrec hf { x with blocks := x.blocks + 1, payload := bs }
  refine ⟨hput, hjobs, ?_, ?_, hspool⟩
  · simp only [takeFrameBlocks_pool]
    omega
  · simp only [takeFrameBlocks_pool]
    simp only [State.recordBlocks] at hsum hframe ⊢
    omega

theorem blocksOk_addRef (r : Nat) {s : State} (h : s.blocksOk) : (addRef r s).blocksOk := by
  unfold addRef
  split
  · next x hf => exact blocksOk_putRecord hf rfl h
  · exact h

theorem blocksOk_releaseRef (r : Nat) {s : State} (h : s.blocksOk) : (releaseRef r s).blocksOk := by
  unfold releaseRef
  split
  · next x hf =>
    split
    · obtain ⟨hrec, hjobs, hall, hframe, hspool⟩ := h
      obtain ⟨hdrop, hsum⟩ := records_drop hrec hf
      simp only [State.recordBlocks] at hsum hframe
      refine ⟨hdrop, hjobs, ?_, ?_, hspool⟩
      · dsimp only
        omega
      · simp only [State.recordBlocks]
        omega
    · exact blocksOk_putRecord hf rfl h
  · exact h

/-! ### Jobs (R33, R36, R106, R112) -/

/-- The blocks of a chain. -/
def Job.blocks (j : Job) : Nat := blocksFor j.bytes.length

theorem blocksFor_succ (n : Nat) :
    blocksFor (n + 1) = blocksFor n + if n % Config.blockBytes = 0 then 1 else 0 := by
  have hb : Config.blockBytes = 128 := rfl
  unfold blocksFor
  rw [hb]
  split <;> omega

theorem blocks_append (b : Byte) (j : Job) : (Job.append b j).blocks =
    j.blocks + if j.bytes.length % Config.blockBytes = 0 then 1 else 0 := by
  simp only [Job.blocks, Job.append, List.length_append, List.length_singleton, blocksFor_succ]

/-- A job written again keeps the job slots and the chains' sum, but for its own chain. -/
theorem jobs_put {s : State} {k : Nat} {j : Job} (h : s.jobsOk) (hf : s.jobs.find k = some j) (i : Job) :
    let t : State := { s with jobs := s.jobs.put id k i }
    t.jobsOk ∧ t.jobBlocks + j.blocks = s.jobBlocks + i.blocks := by
  obtain ⟨hr, hn⟩ := h
  refine ⟨⟨Table.rising_put hr k i, fun e he => ?_⟩, Table.sum_put hr Job.blocks hf⟩
  rcases Table.mem_put he with rfl | he
  · exact hn (k, j) (Table.mem_of_find hf)
  · exact hn e he

/-- A job whose chain changes by what the counts say. -/
theorem blocksOk_modJob {s : State} {k : Nat} {j : Job} {f : Job → Job} {pool : Pool}
    (hf : s.jobs.find k = some j) (hframe : pool.frameHeld = s.pool.frameHeld)
    (hsum : pool.free + pool.spoolHeld = s.pool.free + s.pool.spoolHeld)
    (hspool : pool.spoolHeld + j.blocks = s.pool.spoolHeld + (f j).blocks) (h : s.blocksOk) :
    (modJob k f { s with pool := pool }).blocksOk := by
  obtain ⟨hrec, hjobs, hall, hrecords, hchains⟩ := h
  obtain ⟨hput, hblocks⟩ := jobs_put hjobs hf (f j)
  rw [modJob_of_find (s := { s with pool := pool }) hf]
  refine ⟨hrec, hput, ?_, hframe.trans hrecords, ?_⟩
  · dsimp only
    omega
  · simp only [State.jobBlocks] at hblocks hchains ⊢
    omega

theorem blocksOk_modJob_same {s : State} (k : Nat) {f : Job → Job} (hb : ∀ j, (f j).bytes = j.bytes)
    (h : s.blocksOk) : (modJob k f s).blocksOk := by
  cases hf : s.jobs.find k with
  | none =>
    have hmod : modJob k f s = s := by simp only [modJob, hf]
    rwa [hmod]
  | some j =>
    have hj : (f j).blocks = j.blocks := by rw [Job.blocks, hb, Job.blocks]
    exact blocksOk_modJob hf rfl rfl (by rw [hj]) h

theorem blocksOk_newJob {s : State} {k : Nat} {j : Job} (hk : k < Config.jobSlots)
    (hf : s.jobs.find k = none) (hb : j.bytes = []) (h : s.blocksOk) :
    State.blocksOk { s with jobs := s.jobs.put id k j } := by
  obtain ⟨hrec, hjobs, hall, hframe, hspool⟩ := h
  have hsum := Table.sum_put_new Job.blocks (v := j) hf
  have hj : j.blocks = 0 := by rw [Job.blocks, hb]; rfl
  refine ⟨hrec, ⟨Table.rising_put hjobs.1 k j, fun e he => ?_⟩, hall, hframe, ?_⟩
  · rcases Table.mem_put he with rfl | he
    · exact hk
    · exact hjobs.2 e he
  · exact hspool.trans (by rw [hj] at hsum; exact hsum.symm)

/-- A second of the ARRIVING jobs leaves their slots and their chains. -/
theorem blocksOk_quietSeconds {s : State} (h : s.blocksOk) :
    State.blocksOk { s with jobs := s.jobs.map fun e => (e.1, e.2.quietSecond) } := by
  obtain ⟨hrec, ⟨hr, hn⟩, hall, hframe, hspool⟩ := h
  have hbytes : ∀ j : Job, j.quietSecond.bytes = j.bytes := fun j => by
    unfold Job.quietSecond
    split <;> rfl
  refine ⟨hrec, ⟨List.pairwise_map.2 hr, fun e he => ?_⟩, hall, hframe, ?_⟩
  · obtain ⟨d, hd, rfl⟩ := List.mem_map.1 he
    exact hn d hd
  · simpa only [State.jobBlocks, List.map_map, Function.comp_def, hbytes] using hspool

theorem blocksOk_endedJob {s : State} {k : Nat} {j : Job} (hf : s.jobs.find k = some j) (h : s.blocksOk) :
    State.blocksOk { returnSpoolBlocks (blocksFor j.bytes.length) s with jobs := s.jobs.drop k } := by
  obtain ⟨hrec, ⟨hr, hn⟩, hall, hframe, hspool⟩ := h
  have hsum := Table.sum_drop hr Job.blocks hf
  simp only [State.jobBlocks] at hspool
  simp only [Job.blocks] at hsum
  refine ⟨hrec, ⟨Table.rising_drop hr k, fun e he => hn e (Table.mem_drop.1 he).1⟩, ?_, hframe, ?_⟩
  · simp only [returnSpoolBlocks_pool]
    omega
  · simp only [returnSpoolBlocks_pool, State.jobBlocks]
    omega

theorem blocksOk_clearJobs {s : State} (h : s.blocksOk) : (clearJobs s).blocksOk := by
  obtain ⟨hrec, -, hall, hframe, -⟩ := h
  refine ⟨hrec, ⟨List.Pairwise.nil, fun e he => nomatch he⟩, ?_, hframe, rfl⟩
  simp only [clearJobs_pool]
  omega

/-! ### Every basic write keeps the account -/

/-- The blocks a job or a record takes leave the free count, and those it gives back return to it, so each
basic write keeps the account (R33). -/
theorem kept_blocksOk : Kept State.blocksOk where
  rest h e := blocksOk_of_account h (account_of_core e)
  count c n h := blocksOk_of_account h (account_bumpBy c n _)
  clear _ h := h
  make _ bs hn h := blocksOk_newRecord bs hn h
  ref r h := blocksOk_addRef r h
  unref r h := blocksOk_releaseRef r h
  fill _ hf h := blocksOk_putRecord hf rfl h
  grow bs hf hfree h := blocksOk_growRecord bs hf hfree h
  queue _ _ _ h := h
  forget _ h := h
  entry i e _ _ _ h := blocksOk_of_account h (account_putEntry i e _)
  station i f h := blocksOk_of_account h (account_modStation i f _)
  free i h := blocksOk_of_account h (account_dropEntry i _)
  second h := h
  opened _ _ hk hf hb h := blocksOk_newJob hk hf hb h
  job k _ hb h := blocksOk_modJob_same k hb h
  quiet h := blocksOk_quietSeconds h
  append b hf hm h := blocksOk_modJob hf rfl rfl (by rw [blocks_append, if_neg hm]; rfl) h
  spool b hf hm hfree h := blocksOk_modJob hf rfl (by dsimp only; omega)
    (by rw [blocks_append, if_pos hm]; dsimp only; omega) h
  ended hf h := blocksOk_endedJob hf h
  cleared h := blocksOk_clearJobs h
  request _ _ h := h
  log _ _ _ h := h
  steps _ _ h := h
  settings _ _ h := h
  serial _ _ h := h
  reset _ := blocksOk_reset

/-- Settles O58: the account is kept by every basic write, and so by every step. -/
theorem stepKeepsTheBlocks : Obligations.StepKeepsTheBlocks := fun _ _ h x => kept_step kept_blocksOk x h

end Sys2Proof.Machine

/-! Offers to the egress queues: judged by the first test that applies. -/

namespace Sys2Proof.Machine

/-! ### The tests of an offer (R42, R43) -/

/-- The source entry of a copy is QUARANTINED. -/
def QueueEntry.barredIn (e : QueueEntry) (s : State) : Bool :=
  match e.source with
  | .index i => s.quarantined i
  | _ => false

theorem barredIn_iff (e : QueueEntry) (s : State) :
    e.barredIn s = true ↔ ∃ i, e.source = .index i ∧ s.quarantined i = true := by
  unfold QueueEntry.barredIn
  split
  · next i hi => simp [hi]
  · next hne => simpa using fun i hi => (hne i hi).elim

theorem fits_eq_false_iff (s : State) (p : Port) (rid : Nat) : s.fits p rid = false ↔
    (∀ d ∈ s.queues.get p, d.record ≠ rid) ∧ s.config.quota.get p < s.quotaUse p + s.blocksOf rid := by
  simp [State.fits]

/-- The tests of R43 in their order. -/
theorem judgeOffer_eq (p : Port) (e : QueueEntry) (s : State) : judgeOffer p e s =
    if s.serviceOf p ≠ .inService ∧ s.serviceOf p ≠ .probing then some .refusedUnreachable
    else if e.barredIn s then some .refusedQuarantinedSource
    else if p.side = .trunk ∧ 1010 < (s.payload e.record).length then some .refusedTooLong
    else if 64 ≤ (s.queues.get p).length ∨ s.fits p e.record = false then some .refusedQueueFull
    else none := rfl

/-- With a test that applies the offer is refused and counted. -/
theorem offer_of_judged {p : Port} {e : QueueEntry} {s : State} {c : QueueCount}
    (h : judgeOffer p e s = some c) : offer p e s = (false, bump (.queue p c) s) := by
  simp only [offer, h]

/-- With none that applies the copy joins at the tail. -/
theorem offer_of_unjudged {p : Port} {e : QueueEntry} {s : State} (h : judgeOffer p e s = none) :
    offer p e s = (true, bump (.queue p .joined)
      (addRef e.record { s with queues := s.queues.set p (s.queues.get p ++ [e]) })) := by
  simp only [offer, h]

/-- Settles O19: the chain of R43's tests, each met where those before it are not. -/
theorem offersAreJudgedInOrder : Obligations.OffersAreJudgedInOrder := by
  intro p e s
  dsimp only
  rw [← barredIn_iff, ← fits_eq_false_iff]
  refine ⟨fun hst => offer_of_judged (judgeOffer_unreachable e hst), fun hst => ?_⟩
  have hreach : ¬ (s.serviceOf p ≠ .inService ∧ s.serviceOf p ≠ .probing) := by tauto
  refine ⟨fun hb => offer_of_judged ?_, fun hb hl => offer_of_judged ?_,
    fun hb hl hf => offer_of_judged ?_, fun hb hl hf => offer_of_unjudged ?_⟩
  · rw [judgeOffer_eq, if_neg hreach, if_pos hb]
  · rw [judgeOffer_eq, if_neg hreach, if_neg hb, if_pos hl]
  · rw [judgeOffer_eq, if_neg hreach, if_neg hb, if_neg hl, if_pos hf]
  · rw [judgeOffer_eq, if_neg hreach, if_neg hb, if_neg hl, if_neg hf]

end Sys2Proof.Machine

/-! CLOSE, CANCEL and the end of a job. -/

namespace Sys2Proof.Machine

/-! ### CLOSE (R107) -/

/-- A job that leaves ARRIVING for its ready queue joins at the tail (R107, R110). -/
theorem joinReady_closeJob {slot : Nat} {j : Job} {s : State} (h : s.jobs.find slot = some j) :
    joinReady slot (closeJob slot .ready s) = { modJob slot (fun j => { j with
      state := .ready, nextSeq := 0, quiet := 0, readyOrder := some s.nextOrder }) s with
        nextOrder := s.nextOrder + 1 } := by
  unfold joinReady closeJob
  rw [modJob_modJob h, modJob_nextOrder]
  rfl

theorem announce_of_find {slot : Nat} {j : Job} {s : State} (h : s.jobs.find slot = some j) :
    announce slot s = tellLines j.target s := by
  simp only [announce, h]

section
variable {u : Key} {tag : Byte} {total slot : Nat} {j : Job} {s : State}

theorem printClose_unknown (total : Nat) (h : s.arrivingJob u tag = none) :
    printClose u tag total s = unknownJob u tag s := by
  simp only [printClose, h]

/-- The tests of R107 in their order. -/
theorem printClose_of_arriving (total : Nat) (h : s.arrivingJob u tag = some (slot, j)) :
    printClose u tag total s =
      if total ≠ j.bytes.length then endJob slot (.aborted .lengthMismatch) s
      else if total = 0 then endJob slot (.aborted .empty) s
      else if j.holdOnClose then
        sendStatus u tag .held (bump (.spool .heldOnClose) (closeJob slot .held s))
      else
        announce slot (sendStatus u tag .queued
          (bump (.spool .queued) (joinReady slot (closeJob slot .ready s)))) := by
  simp only [printClose, h]

/-- A job that is READY after its CLOSE: QUEUED is answered and then the lines are told (log entry 19). -/
theorem announce_queued (u : Key) (tag : Byte) (h : s.jobs.find slot = some j) :
    announce slot (sendStatus u tag .queued
        (bump (.spool .queued) (joinReady slot (closeJob slot .ready s)))) =
      tellLines j.target (sendStatus u tag .queued (bump (.spool .queued)
        { modJob slot (fun j => { j with
            state := .ready, nextSeq := 0, quiet := 0, readyOrder := some s.nextOrder }) s with
          nextOrder := s.nextOrder + 1 })) := by
  rw [joinReady_closeJob h]
  refine announce_of_find (j := { j with
    state := .ready, nextSeq := 0, quiet := 0, readyOrder := some s.nextOrder }) ?_
  rw [jobs_of_same (sendStatus_same ..), bump_jobs]
  exact find_modJob h _

/-! ### CANCEL (R108, R132) -/

theorem printCancel_unknown (h : s.jobOf u tag = none) : printCancel u tag s = unknownJob u tag s := by
  simp only [printCancel, h]

theorem printCancel_of_job (h : s.jobOf u tag = some (slot, j)) :
    printCancel u tag s = askEnd slot .cancelledSubmitter s := by
  simp only [printCancel, h]

/-- A job that no line serves is ended at once. -/
theorem askEnd_unserved (e : JobEnd) (h : s.jobs.find slot = some j)
    (hj : j.state = .arriving ∨ j.state = .ready ∨ j.state = .held) : askEnd slot e s = endJob slot e s := by
  simp only [askEnd, askEndBy, h]
  rcases hj with hj | hj | hj <;> rw [hj]

/-- A DRAINING job keeps the end already asked. -/
theorem askEnd_draining (e : JobEnd) (h : s.jobs.find slot = some j) (hj : j.state = .draining) :
    askEnd slot e s = s := by
  simp only [askEnd, askEndBy, h, hj]

/-- The line of a job whose byte is in flight is asked to end it when the byte ends: both are DRAINING
(R132). -/
theorem askEnd_feeding {n : Line} (e : JobEnd) (h : s.jobs.find slot = some j) (hj : j.state = .printing)
    (hline : j.line = some n) (hfeeding : (s.lines.get n).state = .feeding)
    (hbyte : (s.lines.get n).byteInFlight = true) :
    askEnd slot e s = lineJobState n .draining (modLine n (fun t => { t with state := .draining })
      (modJob slot (fun j => { j with endAsked := some e }) s)) := by
  simp only [askEnd, askEndBy, h, hj, hline, askLine, modJob_lines, hfeeding, hbyte, if_true]

/-- The job in service of a line follows the line's state (R122). -/
theorem lineJobState_of_job {n : Line} (st : JobState) (h : (s.lines.get n).job = some slot) :
    lineJobState n st s = modJob slot (fun j => { j with state := st }) s := by
  simp only [lineJobState, modLineJob, h]

theorem askEnd_feeding_drains {n : Line} (e : JobEnd) (h : s.jobs.find slot = some j)
    (hj : j.state = .printing) (hline : j.line = some n) (hfeeding : (s.lines.get n).state = .feeding)
    (hbyte : (s.lines.get n).byteInFlight = true) (hjob : (s.lines.get n).job = some slot) :
    let t := askEnd slot e s
    (t.lines.get n).state = .draining ∧ (t.lines.get n).byteInFlight = true ∧
      t.jobs.find slot = some { j with state := .draining, endAsked := some e } := by
  intro t
  let asked := modLine n (fun t => { t with state := .draining })
    (modJob slot (fun j => { j with endAsked := some e }) s)
  have hasked : asked.jobs.find slot = some { j with endAsked := some e } := find_modJob h _
  have ht : t = modJob slot (fun j => { j with state := .draining }) asked := by
    rw [← lineJobState_of_job .draining (by simp [asked, hjob] : (asked.lines.get n).job = some slot)]
    exact askEnd_feeding e h hj hline hfeeding hbyte
  rw [ht, find_modJob hasked, modJob_lines]
  exact ⟨by simp [asked], by simp [asked, hbyte], rfl⟩

end

/-- Settles O36: the tests of a CLOSE, the states of a cancelled job, and the outcomes of an end. -/
theorem jobsCloseCancelAndEnd : Obligations.JobsCloseCancelAndEnd := by
  refine ⟨fun u tag total s => ⟨printClose_unknown total, fun slot j h => ?_, printCancel_unknown,
    fun slot j h hfind => ⟨fun hj => ?_, fun n hj hline hfeeding hbyte hjob => ?_, fun hj => ?_⟩⟩,
    fun slot e s j hfind => ?_⟩
  · have hclose := printClose_of_arriving total h
    refine ⟨fun hne => ?_, fun h0 hlen => ?_, fun hlen h0 hhold => ?_, fun hlen h0 hhold hfind => ?_⟩
    · rw [hclose, if_pos hne]
    · rw [hclose, if_neg (by omega), if_pos h0]
    · rw [hclose, if_neg (by omega), if_neg h0, if_pos hhold]
      rfl
    · rw [hclose, if_neg (by omega), if_neg h0, if_neg (by simp [hhold]), announce_queued u tag hfind]
      rfl
  · rw [printCancel_of_job h, askEnd_unserved _ hfind hj]
  · rw [printCancel_of_job h]
    exact askEnd_feeding_drains _ hfind hj hline hfeeding hbyte hjob
  · rw [printCancel_of_job h, askEnd_draining _ hfind hj]
  · have hend := endJob_of_find hfind e
    refine ⟨fun he => ?_, fun r he hr => ?_, fun he => ?_, endJob_jobs slot e s⟩
    · rcases he with rfl | rfl | rfl <;> exact hend
    · subst he
      refine hend.trans (if_neg ?_)
      simpa using hr
    · subst he
      exact hend

end Sys2Proof.Machine

/-! Edits by index: SET-RIGHTS, RELEASE, QUARANTINE and DELETE. -/

namespace Sys2Proof.Machine

/-! ### The copies that frames the part makes add to the queues (R35, R41) -/

/-- From `s` to `t` every queue keeps its entries in front, and the copies that joined behind them are the
bridge's own. -/
def gainsOwn (s t : State) : Prop :=
  ∀ p, ∃ es, t.queues.get p = s.queues.get p ++ es ∧ ∀ e ∈ es, e.source = .bridge

theorem gainsOwn_of_eq {s t : State} (h : t.queues = s.queues) : gainsOwn s t := fun p =>
  ⟨[], by rw [h, List.append_nil], fun _ he => nomatch he⟩

theorem gainsOwn_trans {s t u : State} (h : gainsOwn s t) (k : gainsOwn t u) : gainsOwn s u := fun p => by
  obtain ⟨es, hs, hes⟩ := h p
  obtain ⟨ds, ht, hds⟩ := k p
  exact ⟨es ++ ds, by rw [ht, hs, List.append_assoc], fun e he => (List.mem_append.1 he).elim (hes e) (hds e)⟩

theorem gainsOwn_offer (p : Port) {e : QueueEntry} (he : e.source = .bridge) (s : State) :
    gainsOwn s (offer p e s).2 := by
  cases hjudged : judgeOffer p e s with
  | some c =>
    rw [offer_of_judged hjudged]
    exact gainsOwn_of_eq (bump_queues ..)
  | none =>
    rw [offer_of_unjudged hjudged]
    intro q
    rw [bump_queues, addRef_queues, PerPort.get_set]
    split
    · next hq =>
      subst hq
      exact ⟨[e], rfl, fun d hd => by rw [List.mem_singleton.1 hd, he]⟩
    · exact ⟨[], (List.append_nil _).symm, fun _ hd => nomatch hd⟩

section
variable {low : State → State} (hl : ∀ s, gainsOwn s (low s))
include hl

theorem gainsOwn_ownRecordWith (bs : List Byte) (s : State) : gainsOwn s (ownRecordWith low bs s).2 := by
  unfold ownRecordWith
  dsimp only
  split
  · exact gainsOwn_of_eq (bump_queues ..)
  · dsimp only
    split
    · exact gainsOwn_trans (gainsOwn_of_eq (t := newRecord _ bs s) rfl) (hl _)
    · exact gainsOwn_of_eq rfl

theorem gainsOwn_sendOwnWith (p : Port) (d : Key) (k : Byte) (bs : List Byte) (s : State) :
    gainsOwn s (sendOwnWith low p d k bs s).2 := by
  have made := gainsOwn_ownRecordWith hl bs s
  unfold sendOwnWith
  split
  · next e => rwa [e] at made
  · next r w e =>
    rw [e] at made
    have offered := gainsOwn_trans made (gainsOwn_offer p (e := ownEntry p d k bs.length r) rfl w)
    split <;> next e' =>
      rw [e'] at offered
      exact gainsOwn_trans offered (gainsOwn_of_eq (releaseRef_queues ..))

theorem gainsOwn_makeNoticeWith (s : State) : gainsOwn s (makeNoticeWith low s) := by
  unfold makeNoticeWith
  split
  · exact gainsOwn_of_eq rfl
  · split
    · exact gainsOwn_of_eq (bump_queues ..)
    · next p d _ =>
      have sent := gainsOwn_sendOwnWith hl p d kindNotice (noticePayload p.side s) s
      split <;> next e =>
        rw [e] at sent
        exact gainsOwn_trans sent (gainsOwn_of_eq (bump_queues ..))

theorem gainsOwn_raiseWith (f : Flag) (s : State) : gainsOwn s (raiseWith low f s) := by
  unfold raiseWith becomeCounting
  dsimp only
  split
  · exact gainsOwn_of_eq rfl
  · split
    · split
      · exact gainsOwn_of_eq rfl
      · exact gainsOwn_trans (gainsOwn_of_eq (t := setFlag f s) rfl) (gainsOwn_makeNoticeWith hl _)
    · exact gainsOwn_of_eq rfl

end

theorem gainsOwn_raise (f : Flag) (s : State) : gainsOwn s (raise f s) :=
  gainsOwn_raiseWith (gainsOwn_raiseWith (low := setFlag .poolLow) (fun _ => gainsOwn_of_eq rfl) .poolLow) f s

theorem gainsOwn_sendOwn (p : Port) (d : Key) (k : Byte) (bs : List Byte) (s : State) :
    gainsOwn s (sendOwn p d k bs s).2 :=
  gainsOwn_sendOwnWith (gainsOwn_raise .poolLow) p d k bs s

/-! ### What the end of jobs touches at the directory, the flags and the queues (R112, R114) -/

/-- From `s` to `t` the directory and the fault monitor's counters stand, STATION-QUARANTINED is not raised,
and the queues gain the bridge's own copies only. -/
structure Ends (s t : State) : Prop where
  dir : t.dir = s.dir
  flags : gainsFlags (· ≠ .stationQuarantined) s t
  count : ∀ c, t.count (.fault c) = s.count (.fault c)
  queues : gainsOwn s t

theorem ends_of_eq {s t : State} (hdir : t.dir = s.dir) (hflags : t.flags = s.flags)
    (hcounters : t.counters = s.counters) (hqueues : t.queues = s.queues) : Ends s t :=
  ⟨hdir, gainsFlags_of_eq hflags, fun _ => count_of_counters _ hcounters, gainsOwn_of_eq hqueues⟩

theorem ends_refl (s : State) : Ends s s := ends_of_eq rfl rfl rfl rfl

theorem Ends.trans {s t u : State} (h : Ends s t) (k : Ends t u) : Ends s u where
  dir := k.dir.trans h.dir
  flags := gainsFlags_trans h.flags k.flags
  count c := (k.count c).trans (h.count c)
  queues := gainsOwn_trans h.queues k.queues

theorem ends_raise {f : Flag} (hf : f ≠ .stationQuarantined) (s : State) : Ends s (raise f s) where
  dir := by
    obtain ⟨-, -, -, -, -, -, -, -, -, -, -, hdir, -⟩ := sameButFrames_fields (raise_same f s)
    exact hdir
  flags := gainsFlags_mono (fun g hg => by rcases hg with rfl | rfl; exacts [hf, by decide])
    (gainsFlags_raise f s)
  count _ := count_raise rfl f s
  queues := gainsOwn_raise f s

theorem ends_bump_spool (c : SpoolCount) (s : State) : Ends s (bump (.spool c) s) where
  dir := bump_dir ..
  flags := gainsFlags_of_eq (bump_flags ..)
  count _ := count_bump_other (by simp) s
  queues := gainsOwn_of_eq (bump_queues ..)

theorem ends_sendOwn (p : Port) (d : Key) (k : Byte) (bs : List Byte) (s : State) :
    Ends s (sendOwn p d k bs s).2 where
  dir := by
    obtain ⟨-, -, -, -, -, -, -, -, -, -, -, hdir, -⟩ := sameButFrames_fields (sendOwn_same p d k bs s)
    exact hdir
  flags := gainsFlags_sendOwnWith (fun s => (ends_raise (by decide) s).flags) p d k bs s
  count _ := count_sendOwn rfl p d k bs s
  queues := gainsOwn_sendOwn p d k bs s

theorem ends_sendStatus (u : Key) (tag : Byte) (a : Answer) (s : State) : Ends s (sendStatus u tag a s) := by
  unfold sendStatus
  split
  · exact ends_bump_spool _ s
  · next p d _ =>
    have sent := ends_sendOwn p d kindPrintStatus (statusPayload tag a) s
    split <;> next e => rw [e] at sent; exact sent.trans (ends_bump_spool _ _)

theorem ends_endJob (slot : Nat) (e : JobEnd) (s : State) : Ends s (endJob slot e s) := by
  cases h : s.jobs.find slot with
  | none =>
    rw [endJob_of_find_none h]
    exact ends_refl s
  | some j =>
    have freed : Ends s (slotFreed slot j s) := ends_of_eq rfl rfl rfl rfl
    have returned : Ends s (chainReturned slot j s) := by
      unfold chainReturned
      split
      · exact freed.trans (ends_raise (by decide) _)
      · exact freed
    have ended : Ends s
        (if e.isAborted then raise .jobAborted (chainReturned slot j s) else chainReturned slot j s) := by
      split
      · exact returned.trans (ends_raise (by decide) _)
      · exact returned
    rw [endJob_of_find h]
    dsimp only
    split
    · exact ended.trans (ends_bump_spool _ _)
    · exact (ended.trans (ends_bump_spool _ _)).trans (ends_sendStatus ..)

theorem ends_abortWhere (test : Job → Bool) (why : AbortReason) : ∀ (slots : List Nat) (s : State),
    Ends s (abortWhere test why slots s)
  | [], s => ends_refl s
  | slot :: rest, s => by
    unfold abortWhere
    split
    · exact ends_abortWhere test why rest s
    · refine Ends.trans ?_ (ends_abortWhere test why rest _)
      split
      · exact ends_endJob slot _ s
      · exact ends_refl s

/-! ### The jobs that a list of aborts leaves (R109, R114) -/

/-- Of the jobs at the slots gone over, the ARRIVING ones for which the test holds are gone. -/
theorem abortWhere_jobs (test : Job → Bool) (why : AbortReason) :
    ∀ (slots : List Nat) {s : State}, s.jobs.rising → (abortWhere test why slots s).jobs =
      s.jobs.filter fun d => !(slots.contains d.1 && (decide (d.2.state = .arriving) && test d.2))
  | [], s, _ => (List.filter_eq_self.2 fun _ _ => rfl).symm
  | slot :: rest, s, hr => by
    unfold abortWhere
    split
    · next hfree =>
      rw [abortWhere_jobs test why rest hr]
      refine List.filter_congr fun d hd => ?_
      simp [Table.find_none.1 hfree d hd]
    · next j hj =>
      have only : ∀ d ∈ s.jobs, d.1 = slot → d.2 = j := fun d hd he =>
        Option.some.inj ((Table.find_of_mem hr (he ▸ hd : (slot, d.2) ∈ s.jobs)).symm.trans hj)
      split
      · next hends =>
        rw [abortWhere_jobs test why rest (by rw [endJob_jobs]; exact Table.rising_drop hr slot), endJob_jobs,
          Table.drop, List.filter_filter]
        refine List.filter_congr fun d hd => ?_
        by_cases he : d.1 = slot
        · simp [he, only d hd he, hends]
        · simp [he]
      · next hstays =>
        rw [abortWhere_jobs test why rest hr]
        refine List.filter_congr fun d hd => ?_
        by_cases he : d.1 = slot
        · have hstays : (decide (j.state = .arriving) && test j) = false := by simpa using hstays
          simp [only d hd he, hstays]
        · simp [he]

/-- A quarantine leaves no ARRIVING job of the keys (R114). -/
theorem abortArriving_jobs (keys : List Key) {s : State} (hr : s.jobs.rising) :
    ∀ d ∈ (abortArriving keys s).jobs, d.2.state = .arriving → d.2.submitter ∉ keys := by
  intro d hd harriving
  rw [abortArriving, abortWhere_jobs _ _ _ hr, List.mem_filter] at hd
  obtain ⟨hmem, htest⟩ := hd
  have hslot : (s.jobs.map Prod.fst).contains d.1 = true := by
    simpa using ⟨d.2, hmem⟩
  rw [hslot] at htest
  simpa [harriving] using htest

/-! ### The purge by source entry (R47) -/

/-- At one port the purge leaves what it keeps of the queue, releases references, and counts. -/
theorem purgeSourceAt_eq (i : Nat) (p : Port) (s : State) : ∃ pool records n, purgeSourceAt i p s =
    bumpBy (.queue p .purgedQuarantine) n { s with
      pool := pool, records := records
      queues := s.queues.set p (keptBySource i (s.inFlight p = some .head) (s.queues.get p)) } := by
  obtain ⟨pool, records, h⟩ := released_releaseEntries
    (goneBySource i (s.inFlight p = some .head) (s.queues.get p))
    { s with queues := s.queues.set p (keptBySource i (s.inFlight p = some .head) (s.queues.get p)) }
  exact ⟨pool, records, _, congrArg (bumpBy _ _) h⟩

theorem purgeSourceAt_queues (i : Nat) (p : Port) (s : State) : (purgeSourceAt i p s).queues =
    s.queues.set p (keptBySource i (s.inFlight p = some .head) (s.queues.get p)) := by
  obtain ⟨_, _, _, h⟩ := purgeSourceAt_eq i p s
  rw [h, bumpBy_queues]

theorem purgeSourceAt_flags (i : Nat) (p : Port) (s : State) : (purgeSourceAt i p s).flags = s.flags := by
  obtain ⟨_, _, _, h⟩ := purgeSourceAt_eq i p s
  rw [h, bumpBy_flags]

theorem purgeSourceAt_count (c : FaultCount) (i : Nat) (p : Port) (s : State) :
    (purgeSourceAt i p s).count (.fault c) = s.count (.fault c) := by
  obtain ⟨_, _, _, h⟩ := purgeSourceAt_eq i p s
  rw [h, count_bumpBy_other (by simp)]
  rfl

theorem purgeSourceAt_same (i : Nat) (p : Port) (s : State) : sameButFrames s (purgeSourceAt i p s) := by
  obtain ⟨_, _, _, h⟩ := purgeSourceAt_eq i p s
  rw [h]
  refine sameButFrames_trans ?_ (bumpBy_same _ _ _)
  rfl

theorem inFlight_of_same {s t : State} (h : sameButFrames s t) (p : Port) : t.inFlight p = s.inFlight p := by
  obtain ⟨-, -, -, -, -, -, -, hsegs, hlinks, -⟩ := sameButFrames_fields h
  cases p <;> simp only [State.inFlight, hsegs, hlinks]

theorem purgeSource_same (i : Nat) (s : State) : sameButFrames s (purgeSource i s) := by
  have each : ∀ (ps : List Port) (s : State), sameButFrames s (ps.foldl (fun s p => purgeSourceAt i p s) s) := by
    intro ps
    induction ps with
    | nil => exact sameButFrames_refl
    | cons p ps ih => exact fun s => sameButFrames_trans (purgeSourceAt_same i p s) (ih _)
  exact each Port.all s

theorem purgeSource_flags (i : Nat) (s : State) : (purgeSource i s).flags = s.flags := by
  simp only [purgeSource, Port.all, Seg.all, Link.all, List.map, List.cons_append, List.nil_append,
    List.foldl, purgeSourceAt_flags]

theorem purgeSource_count (c : FaultCount) (i : Nat) (s : State) :
    (purgeSource i s).count (.fault c) = s.count (.fault c) := by
  simp only [purgeSource, Port.all, Seg.all, Link.all, List.map, List.cons_append, List.nil_append,
    List.foldl, purgeSourceAt_count]

/-- Every queue keeps what the purge of its own port leaves. -/
theorem purgeSource_queues (i : Nat) (s : State) (p : Port) : (purgeSource i s).queues.get p =
    keptBySource i (s.inFlight p = some .head) (s.queues.get p) := by
  have inFlight : ∀ q r (u : State), (purgeSourceAt i q u).inFlight r = u.inFlight r := fun q r u =>
    inFlight_of_same (purgeSourceAt_same i q u) r
  simp only [purgeSource, Port.all, Seg.all, Link.all, List.map, List.cons_append, List.nil_append,
    List.foldl, purgeSourceAt_queues, inFlight]
  rcases p with x | l
  · cases x <;> simp
  · cases l <;> simp

/-- Behind the head no entry of the source stays. -/
theorem tail_keptBySource (i : Nat) (b : Bool) (es : List QueueEntry) :
    ∀ d ∈ (keptBySource i b es).tail, d.source ≠ .index i := by
  cases es with
  | nil => exact fun _ hd => nomatch hd
  | cons e es =>
    have rest : ∀ d ∈ es.filter (fun d => d.source ≠ .index i), d.source ≠ .index i := fun d hd => by
      simpa using (List.mem_filter.1 hd).2
    unfold keptBySource
    dsimp only
    split
    · exact rest
    · exact fun d hd => rest d (List.mem_of_mem_tail hd)

/-- With no head in flight none stays at all. -/
theorem mem_keptBySource_false (i : Nat) (es : List QueueEntry) :
    ∀ d ∈ keptBySource i false es, d.source ≠ .index i := by
  cases es with
  | nil => exact fun _ hd => nomatch hd
  | cons e es =>
    unfold keptBySource
    dsimp only
    intro d hd
    split at hd
    · next he =>
      rcases List.mem_cons.1 hd with rfl | hd
      · simpa using he
      · simpa using (List.mem_filter.1 hd).2
    · simpa using (List.mem_filter.1 hd).2

/-- The bridge's own copies behind a purged queue bring no entry of the source. -/
theorem no_source_of_gainsOwn {i : Nat} {s t : State} (h : gainsOwn (purgeSource i s) t) (p : Port) :
    (∀ d ∈ (t.queues.get p).tail, d.source ≠ .index i) ∧
      (s.inFlight p ≠ some .head → ∀ d ∈ t.queues.get p, d.source ≠ .index i) := by
  obtain ⟨es, hq, hes⟩ := h p
  have own : ∀ d ∈ es, d.source ≠ .index i := fun d hd => by
    rw [hes d hd]
    exact fun he => nomatch he
  rw [purgeSource_queues] at hq
  have htail := tail_keptBySource i (s.inFlight p = some .head) (s.queues.get p)
  refine ⟨fun d hd => ?_, fun hfly d hd => ?_⟩
  · rw [hq] at hd
    cases hkept : keptBySource i (s.inFlight p = some .head) (s.queues.get p) with
    | nil =>
      rw [hkept] at hd
      exact own d (List.mem_of_mem_tail hd)
    | cons e rest =>
      rw [hkept] at hd htail
      exact (List.mem_append.1 hd).elim (htail d) (own d)
  · rw [hq, decide_eq_false hfly] at hd
    exact (List.mem_append.1 hd).elim (mem_keptBySource_false i _ d) (own d)

/-! ### The station at an index (R52) -/

theorem station_iff {s : State} {i : Nat} {t : Station} :
    s.station i = some t ↔ ∃ o n a, s.dir.find i = some ⟨o, n, a, .station t⟩ := by
  unfold State.station
  split
  · next h => simp [h]
  · next hne => simpa using fun o n a h => hne o n a t h

theorem station_of_dir {s t : State} (h : t.dir = s.dir) (i : Nat) : t.station i = s.station i := by
  simp only [State.station, h]

theorem station_modStation {s : State} {i : Nat} {t : Station} (hi : i ≠ 0) (h : s.station i = some t)
    (f : Station → Station) : (modStation i f s).station i = some (f t) := by
  obtain ⟨o, n, a, hfind⟩ := station_iff.1 h
  refine station_iff.2 ⟨o, n, a, ?_⟩
  simp only [modStation, hfind, putEntry, if_neg hi, Table.find_put, if_true]

theorem quarantined_of_station {s : State} {i : Nat} {t : Station} (h : s.station i = some t) :
    s.quarantined i = decide (t.standing = .quarantined) := by
  simp only [State.quarantined, h]

theorem count_modStation (c : Counter) (i : Nat) (f : Station → Station) (s : State) :
    (modStation i f s).count c = s.count c :=
  count_of_counters c (modStation_counters ..)

/-! ### A station is put into QUARANTINED (R47, R153) -/

/-- What the end of jobs and the NOTICEs after it leave of a station put into QUARANTINED, and of the queues
purged of its copies. -/
theorem quarantined_then_ends {s u : State} {i minutes : Nat} {t : Station} (hi : i ≠ 0)
    (h : s.station i = some t) (hdir : u.dir = (setQuarantined i minutes s).dir)
    (hqueues : gainsOwn (setQuarantined i minutes s) u) :
    u.station i = some { t with standing := .quarantined, minutes := minutes } ∧
      (∀ p, ∀ d ∈ (u.queues.get p).tail, d.source ≠ .index i) ∧
      ∀ p, s.inFlight p ≠ some .head → ∀ d ∈ u.queues.get p, d.source ≠ .index i := by
  let w := modStation i (fun t => { t with standing := .quarantined, minutes := minutes }) s
  obtain ⟨-, -, -, -, -, -, -, -, -, -, -, hpurged, -⟩ := sameButFrames_fields (purgeSource_same i w)
  have hfly : ∀ p, w.inFlight p = s.inFlight p := fun p => by
    cases p <;> simp only [w, State.inFlight, modStation_segs, modStation_links]
  refine ⟨?_, fun p => (no_source_of_gainsOwn hqueues p).1, fun p hp => ?_⟩
  · rw [station_of_dir (hdir.trans hpurged)]
    exact station_modStation hi h _
  · exact (no_source_of_gainsOwn hqueues p).2 (by rw [hfly]; exact hp)

theorem setQuarantined_jobs (i minutes : Nat) (s : State) : (setQuarantined i minutes s).jobs = s.jobs := by
  rw [setQuarantined, jobs_of_same (purgeSource_same ..), modStation_jobs]

theorem setQuarantined_flags (i minutes : Nat) (s : State) : (setQuarantined i minutes s).flags = s.flags := by
  rw [setQuarantined, purgeSource_flags, modStation_flags]

theorem setQuarantined_count (c : FaultCount) (i minutes : Nat) (s : State) :
    (setQuarantined i minutes s).count (.fault c) = s.count (.fault c) := by
  rw [setQuarantined, purgeSource_count, count_modStation]

/-! ### One edit taken alone (R63, log entry 2) -/

theorem takeEdit_of_refused {e : Edit} {s : State} {st : Status} (h : e.run s = .refused st) :
    takeEdit e s = s := by
  simp only [takeEdit, h]

theorem takeEdit_of_applied {e : Edit} {s t : State} {k : Option Nat} {news : List QuarantineNews}
    (h : e.run s = .applied k news t) : takeEdit e s = takeNews news t := by
  simp only [takeEdit, h]

theorem run_setRights (i : Byte) (m q : Bool) (s : State) : (Edit.setRights i m q).run s =
    editStationAt i (fun s =>
      ([], modStation i.toNat (fun t => { t with manager := m, print := q }) s)) s := rfl

theorem run_release (i : Byte) (s : State) : (Edit.release i).run s =
    editStationAt i (fun s =>
      ([], modStation i.toNat (fun t => { t with standing := .good, tally := 0, minutes := 0 }) s)) s := rfl

theorem run_quarantine (i : Byte) (s : State) : (Edit.quarantine i).run s =
    editStationAt i (fun s =>
      ([(quarantineStation i.toNat .quarantineEdit s).1],
        (quarantineStation i.toNat .quarantineEdit s).2)) s := rfl

theorem run_delete (i : Byte) (s : State) : (Edit.delete i).run s = editDelete i s := rfl

section
variable {index : Byte} {s : State} (hi : index ≠ 0)
include hi

theorem editStationAt_free (f : State → List QuarantineNews × State) (h : s.dir.find index.toNat = none) :
    editStationAt index f s = .refused .notFound := by
  simp only [editStationAt, if_neg hi, h]

theorem editStationAt_station (f : State → List QuarantineNews × State) {t : Station}
    (h : s.station index.toNat = some t) : editStationAt index f s = .applied none (f s).1 (f s).2 := by
  obtain ⟨o, n, a, hfind⟩ := station_iff.1 h
  simp only [editStationAt, if_neg hi, hfind]

theorem editDelete_free (h : s.dir.find index.toNat = none) :
    editDelete index s = .refused .notFound := by
  simp only [editDelete, if_neg hi, h]

/-- A DELETE of an entry of kind PRINTER that a live job names is refused (R68). -/
theorem editDelete_named {e : Entry} {x : Target} {y : Fin 4} (h : s.dir.find index.toNat = some e)
    (he : e.kind = .printer x y) (hjob : s.hasJob index.toNat = true) :
    editDelete index s = .refused .conflict := by
  obtain ⟨o, n, a, k⟩ := e
  cases he
  simp only [editDelete, if_neg hi, h, State.isPrinterAt, Option.bind_some, hjob, and_self, if_true]

theorem editDelete_unnamed {e : Entry} (h : s.dir.find index.toNat = some e)
    (hjob : s.hasJob index.toNat = false) :
    editDelete index s = .applied none [] (removeEntry index.toNat s) := by
  simp only [editDelete, if_neg hi, h, hjob, Bool.false_eq_true, and_false, if_false]

/-- A QUARANTINE of a station that was not QUARANTINED (R69, R153). -/
theorem takeEdit_quarantine_enters {t : Station} (h : s.station index.toNat = some t)
    (ht : t.standing ≠ .quarantined) : takeEdit (.quarantine index) s =
      abortArriving (s.keysAt index.toNat) (bump (.fault .quarantineEdit) (raise .stationQuarantined
        (setQuarantined index.toNat s.config.quarantineTime s))) := by
  have hq : s.quarantined index.toNat = false := by rw [quarantined_of_station h, decide_eq_false ht]
  rw [takeEdit_of_applied ((run_quarantine index s).trans (editStationAt_station hi _ h))]
  simp only [quarantineStation, hq, Bool.false_eq_true, if_false, takeNews, QuarantineNews.take]

/-- A QUARANTINE of a station that is QUARANTINED already renews it (R154). -/
theorem takeEdit_quarantine_renews {t : Station} (h : s.station index.toNat = some t)
    (ht : t.standing = .quarantined) : takeEdit (.quarantine index) s =
      abortArriving (s.keysAt index.toNat) (bump (.fault .quarantineRenewed)
        (setQuarantined index.toNat s.config.quarantineTime s)) := by
  have hq : s.quarantined index.toNat = true := by rw [quarantined_of_station h, decide_eq_true ht]
  rw [takeEdit_of_applied ((run_quarantine index s).trans (editStationAt_station hi _ h))]
  simp only [quarantineStation, hq, if_true, takeNews, QuarantineNews.take]

end

theorem ends_abortArriving (keys : List Key) (s : State) : Ends s (abortArriving keys s) :=
  ends_abortWhere _ _ _ s

/-- Once the news of a quarantine is taken the station is QUARANTINED, no copy of its own waits but a head in
flight, and none of its keys has an ARRIVING job (R47, R114, R153). -/
theorem abortArriving_quarantined {s v : State} {i minutes : Nat} {t : Station} (hi : i ≠ 0)
    (h : s.station i = some t) (hr : s.jobs.rising)
    (hv : sameButFrames (setQuarantined i minutes s) v) (hown : gainsOwn (setQuarantined i minutes s) v) :
    let u := abortArriving (s.keysAt i) v
    u.station i = some { t with standing := .quarantined, minutes := minutes } ∧
      (∀ p, ∀ d ∈ (u.queues.get p).tail, d.source ≠ .index i) ∧
      (∀ p, s.inFlight p ≠ some .head → ∀ d ∈ u.queues.get p, d.source ≠ .index i) ∧
      ∀ d ∈ u.jobs, d.2.state = .arriving → d.2.submitter ∉ s.keysAt i := by
  intro u
  have hends : Ends v u := ends_abortArriving _ v
  obtain ⟨-, -, -, -, -, -, -, -, -, -, -, hdir, -⟩ := sameButFrames_fields hv
  obtain ⟨hstation, htail, hall⟩ :=
    quarantined_then_ends hi h (hends.dir.trans hdir) (gainsOwn_trans hown hends.queues)
  refine ⟨hstation, htail, hall, abortArriving_jobs _ ?_⟩
  rw [jobs_of_same hv, setQuarantined_jobs]
  exact hr

section
variable {index : Byte} {s : State} {t : Station} (hi : index ≠ 0) (h : s.station index.toNat = some t)
include hi h

/-- A QUARANTINE of a station, whether it enters QUARANTINED or is renewed (R47, R69, R114). -/
theorem quarantine_leaves (hr : s.jobs.rising) :
    let u := takeEdit (.quarantine index) s
    u.station index.toNat = some { t with standing := .quarantined, minutes := s.config.quarantineTime } ∧
      (∀ p, ∀ d ∈ (u.queues.get p).tail, d.source ≠ .index index.toNat) ∧
      (∀ p, s.inFlight p ≠ some .head → ∀ d ∈ u.queues.get p, d.source ≠ .index index.toNat) ∧
      ∀ d ∈ u.jobs, d.2.state = .arriving → d.2.submitter ∉ s.keysAt index.toNat := by
  have h0 : index.toNat ≠ 0 := fun h0 => hi (BitVec.eq_of_toNat_eq h0)
  by_cases ht : t.standing = .quarantined
  · rw [takeEdit_quarantine_renews hi h ht]
    exact abortArriving_quarantined h0 h hr (bump_same ..) (gainsOwn_of_eq (bump_queues ..))
  · rw [takeEdit_quarantine_enters hi h ht]
    exact abortArriving_quarantined h0 h hr (sameButFrames_trans (raise_same ..) (bump_same ..))
      (gainsOwn_trans (gainsOwn_raise _ _) (gainsOwn_of_eq (bump_queues ..)))

/-- A station that enters QUARANTINED raises the flag and is counted (R153). -/
theorem quarantine_enters (ht : t.standing ≠ .quarantined) :
    (takeEdit (.quarantine index) s).raised .stationQuarantined = true ∧
      (takeEdit (.quarantine index) s).count (.fault .quarantineEdit) =
        min Config.counterMax (s.count (.fault .quarantineEdit) + 1) := by
  rw [takeEdit_quarantine_enters hi h ht]
  have hends := ends_abortArriving (s.keysAt index.toNat) (bump (.fault .quarantineEdit)
    (raise .stationQuarantined (setQuarantined index.toNat s.config.quarantineTime s)))
  refine ⟨(hends.flags _).1 (raised_raise _ _), ?_⟩
  rw [hends.count, count_bump, if_pos rfl, count_raise rfl, setQuarantined_count]

/-- A station that is QUARANTINED already is renewed: no flag, no quarantine counted (R154). -/
theorem quarantine_renews (ht : t.standing = .quarantined) :
    (takeEdit (.quarantine index) s).raised .stationQuarantined = s.raised .stationQuarantined ∧
      (takeEdit (.quarantine index) s).count (.fault .quarantineEdit) =
        s.count (.fault .quarantineEdit) ∧
      (takeEdit (.quarantine index) s).count (.fault .quarantineRenewed) =
        min Config.counterMax (s.count (.fault .quarantineRenewed) + 1) := by
  rw [takeEdit_quarantine_renews hi h ht]
  have hends := ends_abortArriving (s.keysAt index.toNat) (bump (.fault .quarantineRenewed)
    (setQuarantined index.toNat s.config.quarantineTime s))
  have hraised : (bump (.fault .quarantineRenewed) (setQuarantined index.toNat s.config.quarantineTime s)).raised
      .stationQuarantined = s.raised .stationQuarantined := by
    simp only [State.raised, bump_flags, setQuarantined_flags]
  refine ⟨?_, ?_, ?_⟩
  · rw [← hraised, Bool.eq_iff_iff]
    exact ⟨fun hu => ((hends.flags _).2 hu).resolve_right fun hne => hne rfl, (hends.flags _).1⟩
  · rw [hends.count, count_bump_other (by simp), setQuarantined_count]
  · rw [hends.count, count_bump, if_pos rfl, setQuarantined_count]

end

/-- Settles O32, by the entry at the index. -/
theorem editsByIndexActOnTheEntry : Obligations.EditsByIndexActOnTheEntry := by
  intro index s ha hi
  have alone : ∀ {e : Edit} {t : State}, takeEdit e s = t →
      Host.Outcome.next (whenActive (takeEdit e) s) = (.next t : Host.Outcome State Fault Refusal) :=
    fun ht => by rw [whenActive_of_active _ ha, ht]
  refine ⟨fun hfree m q => ⟨?_, ?_, ?_, ?_⟩, fun e x y he hk hjob => ?_, fun e he hjob => ?_,
    fun t ht => ⟨fun m q => ?_, ?_, fun hjobs => ⟨takeEdit (.quarantine index) s, alone rfl, ?_⟩⟩⟩
  · exact alone (takeEdit_of_refused ((run_setRights index m q s).trans (editStationAt_free hi _ hfree)))
  · exact alone (takeEdit_of_refused ((run_release index s).trans (editStationAt_free hi _ hfree)))
  · exact alone (takeEdit_of_refused ((run_quarantine index s).trans (editStationAt_free hi _ hfree)))
  · exact alone (takeEdit_of_refused ((run_delete index s).trans (editDelete_free hi hfree)))
  · exact alone (takeEdit_of_refused ((run_delete index s).trans (editDelete_named hi he hk hjob)))
  · exact alone (takeEdit_of_applied ((run_delete index s).trans (editDelete_unnamed hi he hjob)))
  · exact alone (takeEdit_of_applied ((run_setRights index m q s).trans (editStationAt_station hi _ ht)))
  · exact alone (takeEdit_of_applied ((run_release index s).trans (editStationAt_station hi _ ht)))
  · obtain ⟨hstation, htail, hall, hjobs⟩ := quarantine_leaves hi ht hjobs.1
    exact ⟨hstation, quarantine_enters hi ht, quarantine_renews hi ht, htail, hall, hjobs⟩

end Sys2Proof.Machine

/-! DATA: the bytes of a chain, the blocks they take, and the room the NOTICEs of its flags may take. -/

namespace Sys2Proof.Machine

/-! ### The blocks that a raised flag's NOTICEs hold (R33, R35, R191) -/

/-- From `s` to `t` the spool-held count stands, at most `k` free blocks are gone, and none where no NOTICE
is outstanding. -/
structure Spends (k : Nat) (s t : State) : Prop where
  spool : t.pool.spoolHeld = s.pool.spoolHeld
  free : s.pool.free ≤ t.pool.free + k
  quiet : t.noticeOut = false → s.noticeOut = false ∧ s.pool.free ≤ t.pool.free

theorem spends_of_eq {s t : State} (k : Nat) (hp : t.pool = s.pool) (hn : t.noticeOut = s.noticeOut) :
    Spends k s t :=
  ⟨by rw [hp], by rw [hp]; omega, fun h => ⟨hn ▸ h, by rw [hp]⟩⟩

theorem Spends.trans {k l : Nat} {s t u : State} (h : Spends k s t) (g : Spends l t u) :
    Spends (k + l) s u where
  spool := g.spool.trans h.spool
  free := by have := h.free; have := g.free; omega
  quiet hu := by
    obtain ⟨ht, hfree⟩ := g.quiet hu
    obtain ⟨hs, hfree'⟩ := h.quiet ht
    exact ⟨hs, hfree'.trans hfree⟩

/-- An offered copy of a record joins and holds it, or is refused and leaves it. -/
theorem offer_holds {p : Port} {e : QueueEntry} {s : State} {r : FrameRecord}
    (h : s.records.find e.record = some r) :
    (offer p e s).2.records.find e.record =
        some { r with refs := if (offer p e s).1 then r.refs + 1 else r.refs } ∧
      (offer p e s).2.pool = s.pool := by
  cases hjudged : judgeOffer p e s with
  | some c =>
    rw [offer_of_judged hjudged, bump_records, bump_pool]
    exact ⟨h, rfl⟩
  | none =>
    rw [offer_of_unjudged hjudged, bump_records, bump_pool, addRef_pool]
    refine ⟨?_, rfl⟩
    simp only [addRef, h, Table.find_put, if_true]

/-- The maker's release of a record just made and offered: a refused one gives its blocks back (R35). -/
theorem releaseRef_offered {p : Port} {e : QueueEntry} {s : State} {n : Nat} {bs : List Byte}
    (h : s.records.find e.record = some ⟨n, bs, 1⟩) :
    (releaseRef e.record (offer p e s).2).pool =
      if (offer p e s).1 then s.pool
      else ⟨s.pool.free + n, s.pool.frameHeld - n, s.pool.spoolHeld⟩ := by
  obtain ⟨hfind, hpool⟩ := offer_holds (p := p) h
  rw [releaseRef_of_find hfind]
  split
  · rw [if_neg (by simp)]
    exact hpool
  · rw [if_pos (by simp), hpool]

theorem noticePayload_length (side : Side) (s : State) : (noticePayload side s).length = 4 := by
  cases side <;> simp [noticePayload, Side.word]

section
variable {k : Nat} {low : State → State} (hl : ∀ s, Spends k s (low s)) (ho : ∀ n s, Older n s (low s))
include hl ho

/-- A record of one block that the part makes stands as it was made, whatever its take raises. -/
theorem ownRecordWith_some {bs : List Byte} {s w : State} {rid : Nat}
    (hn : max 1 (blocksFor bs.length) = 1) (h : ownRecordWith low bs s = (some rid, w)) :
    1 ≤ s.pool.free ∧ w.records.find rid = some ⟨1, bs, 1⟩ ∧ Spends k (newRecord 1 bs s) w := by
  unfold ownRecordWith at h
  dsimp only at h
  rw [hn] at h
  split at h
  · cases h
  · have made : (newRecord 1 bs s).records.find s.nextRecord = some ⟨1, bs, 1⟩ := by
      simp only [newRecord_records, Table.find_put, if_true]
    have older := (ho (s.nextRecord + 1) (newRecord 1 bs s) (Nat.le_refl _)).2 s.nextRecord (Nat.lt_succ_self _)
    obtain ⟨hrid, hw⟩ := Prod.mk.inj h
    cases hrid
    refine ⟨by omega, ?_⟩
    subst hw
    split
    · exact ⟨older.trans made, hl _⟩
    · exact ⟨made, spends_of_eq k rfl rfl⟩

/-- A frame of one block that the part makes holds it where it joins, and gives it back where it is refused
(R35). -/
theorem sendOwnWith_spends {p : Port} {d : Key} {kind : Byte} {bs : List Byte} {s w : State}
    {r : OwnResult} (hn : max 1 (blocksFor bs.length) = 1) (h : sendOwnWith low p d kind bs s = (r, w)) :
    w.pool.spoolHeld = s.pool.spoolHeld ∧ s.pool.free ≤ w.pool.free + (k + 1) ∧
      (r ≠ .joined → Spends k s w) := by
  unfold sendOwnWith at h
  split at h
  · next _ v hmade =>
    cases h
    have lost : w = bump (.pool .ownFrameLost) s := by
      unfold ownRecordWith at hmade
      dsimp only at hmade
      split at hmade
      · exact (Prod.mk.inj hmade).2.symm
      · cases (Prod.mk.inj hmade).1
    have spent : Spends k s w := lost ▸ spends_of_eq k (bump_pool ..) (bump_noticeOut ..)
    exact ⟨spent.spool, spent.free.trans (by omega), fun _ => spent⟩
  · next _ rid v hmade =>
    obtain ⟨hfree, hfind, ⟨hspool, hspent, hquiet⟩⟩ := ownRecordWith_some hl ho hn hmade
    have hreleased := releaseRef_offered (p := p) (e := ownEntry p d kind bs.length rid) hfind
    have hout := noticeOut_offer p (ownEntry p d kind bs.length rid) v
    simp only [newRecord_pool, newRecord_noticeOut] at hspool hspent hquiet
    cases hoffer : offer p (ownEntry p d kind bs.length rid) v with
    | mk joined u =>
      rw [hoffer] at h hreleased hout
      change (releaseRef rid u).pool = if joined then _ else _ at hreleased
      cases joined with
      | true =>
        cases h
        rw [if_pos rfl] at hreleased
        exact ⟨by rw [hreleased, hspool], by rw [hreleased]; omega, fun hne => (hne rfl).elim⟩
      | false =>
        cases h
        rw [if_neg (by simp)] at hreleased
        have spent : Spends k s (releaseRef rid u) := by
          refine ⟨by rw [hreleased, hspool], by rw [hreleased]; dsimp only; omega, fun hq => ?_⟩
          rw [releaseRef_noticeOut, hout] at hq
          obtain ⟨hs, hv⟩ := hquiet hq
          exact ⟨hs, by rw [hreleased]; dsimp only; omega⟩
        exact ⟨spent.spool, spent.free.trans (by omega), fun _ => spent⟩

/-- A NOTICE holds one block where it joins (R191). -/
theorem spends_makeNoticeWith (s : State) : Spends (k + 1) s (makeNoticeWith low s) := by
  unfold makeNoticeWith
  split
  · exact spends_of_eq _ rfl rfl
  · split
    · exact spends_of_eq _ (bump_pool ..) (bump_noticeOut ..)
    · next p d _ =>
      have hn : max 1 (blocksFor (noticePayload p.side s).length) = 1 := by
        rw [noticePayload_length]
        rfl
      split
      · next w hsent =>
        obtain ⟨hspool, hfree, -⟩ := sendOwnWith_spends hl ho hn hsent
        refine ⟨?_, ?_, fun hq => ?_⟩
        · rw [bump_pool, hspool]
        · rw [bump_pool]
          exact hfree
        · rw [bump_noticeOut] at hq
          cases hq
      · next r w hne hsent =>
        obtain ⟨-, -, hlost⟩ := sendOwnWith_spends hl ho hn hsent
        exact (hlost hne).trans (spends_of_eq 1 (bump_pool ..) (bump_noticeOut ..))

theorem spends_raiseWith (f : Flag) (s : State) : Spends (k + 1) s (raiseWith low f s) := by
  unfold raiseWith becomeCounting
  dsimp only
  split
  · exact spends_of_eq _ rfl rfl
  · split
    · split
      · exact spends_of_eq _ rfl rfl
      · have made := spends_makeNoticeWith hl ho (setFlag f s)
        exact ⟨made.spool, made.free, made.quiet⟩
    · exact spends_of_eq _ rfl rfl

end

/-- A raise holds two free blocks at most, and none where no NOTICE is outstanding after it (R190, R191). -/
theorem spends_raise (f : Flag) (s : State) : Spends 2 s (raise f s) :=
  spends_raiseWith (low := raiseLowInNotice)
    (spends_raiseWith (low := setFlag .poolLow) (fun _ => spends_of_eq 0 rfl rfl)
      (fun _ _ => older_rfl rfl rfl) .poolLow)
    (fun _ => older_raiseWith (low := setFlag .poolLow) (fun _ => older_rfl rfl rfl) .poolLow) f s

/-- The blocks that NOTICEs may still take: none where no destination is set, or one is outstanding. -/
def State.noticeRoom (s : State) : Nat := if s.config.notice = none ∨ s.noticeOut = true then 0 else 2

/-- A raise makes no NOTICE where none may be made. -/
theorem raise_of_no_notice (f : Flag) {s : State} (h : s.config.notice = none ∨ s.noticeOut = true) :
    (raise f s).pool = s.pool ∧ (raise f s).noticeOut = s.noticeOut := by
  unfold raise raiseWith becomeCounting
  dsimp only
  split
  · exact ⟨rfl, rfl⟩
  · split
    · split
      · exact ⟨rfl, rfl⟩
      · next hout =>
        have hnone : (setFlag f s).config.notice = none := h.resolve_right hout
        simp only [makeNoticeWith, hnone]
        exact ⟨rfl, rfl⟩
    · exact ⟨rfl, rfl⟩

theorem config_of_same {s t : State} (h : sameButFrames s t) : t.config = s.config := by
  obtain ⟨-, -, -, -, -, -, -, -, -, -, -, -, -, -, -, -, -, -, -, -, -, -, -, -, -, -, -, hconfig, -⟩ :=
    sameButFrames_fields h
  exact hconfig

/-- From `s` to `t` frames, flags and counters change only, the spool-held count stands, and the free blocks
that are gone are gone from the room left for NOTICEs. -/
structure KeepsRoom (s t : State) : Prop where
  same : sameButFrames s t
  spool : t.pool.spoolHeld = s.pool.spoolHeld
  free : s.pool.free + t.noticeRoom ≤ t.pool.free + s.noticeRoom

theorem keepsRoom_refl (s : State) : KeepsRoom s s := ⟨sameButFrames_refl s, rfl, Nat.le_refl _⟩

theorem KeepsRoom.trans {s t u : State} (h : KeepsRoom s t) (g : KeepsRoom t u) : KeepsRoom s u where
  same := sameButFrames_trans h.same g.same
  spool := g.spool.trans h.spool
  free := by have := h.free; have := g.free; omega

theorem keepsRoom_raise (f : Flag) (s : State) : KeepsRoom s (raise f s) := by
  have same := raise_same f s
  have hconfig := config_of_same same
  obtain ⟨hspool, hfree, hquiet⟩ := spends_raise f s
  refine ⟨same, hspool, ?_⟩
  by_cases h : s.config.notice = none ∨ s.noticeOut = true
  · obtain ⟨hpool, hout⟩ := raise_of_no_notice f h
    rw [hpool, State.noticeRoom, State.noticeRoom, hconfig, hout]
  · have hs : s.noticeRoom = 2 := if_neg h
    by_cases ht : (raise f s).noticeOut = true
    · have hroom : (raise f s).noticeRoom = 0 := if_pos (.inr ht)
      omega
    · obtain ⟨-, hkept⟩ := hquiet (by simpa using ht)
      have hroom : (raise f s).noticeRoom ≤ 2 := by
        unfold State.noticeRoom
        split <;> omega
      omega

/-- The flags of a block taken for a chain (R39, R40). -/
theorem keepsRoom_spoolTook (before : Pool) (s : State) : KeepsRoom s (spoolTook before s) := by
  have low : KeepsRoom s (if fellLow before.free s then raise .poolLow s else s) := by
    split
    · exact keepsRoom_raise _ s
    · exact keepsRoom_refl s
  unfold spoolTook
  dsimp only
  split
  · exact low.trans (keepsRoom_raise _ _)
  · exact low

/-! ### Bytes appended to a chain (R36, R106) -/

section
variable {slot : Nat} {j : Job} {s : State} (h : s.jobs.find slot = some j)
include h

/-- A byte that its last block has room for. -/
theorem appendBytes_within (b : Byte) (bs : List Byte) (hm : j.bytes.length % 128 ≠ 0) :
    appendBytes slot (b :: bs) s = appendBytes slot bs (modJob slot (Job.append b) s) := by
  rw [appendBytes]
  simp only [h]
  exact if_pos hm

/-- A byte for which a block is asked and refused. -/
theorem appendBytes_refused (b : Byte) (bs : List Byte) (hm : j.bytes.length % 128 = 0) {t : State}
    (ht : spoolTake s = (false, t)) : appendBytes slot (b :: bs) s = (false, t) := by
  rw [appendBytes]
  simp only [h, ht]
  exact if_neg (not_not.2 hm)

/-- A byte for which a block is asked and taken. -/
theorem appendBytes_taken (b : Byte) (bs : List Byte) (hm : j.bytes.length % 128 = 0) {t : State}
    (ht : spoolTake s = (true, t)) : appendBytes slot (b :: bs) s =
      appendBytes slot bs (spoolTook s.pool (modJob slot (Job.append b) t)) := by
  rw [appendBytes]
  simp only [h, ht]
  exact if_neg (not_not.2 hm)

end

/-- A take of a block changes the counts of the blocks only (R36). -/
theorem spoolTake_jobs {s t : State} (h : spoolTake s = (true, t)) : t.jobs = s.jobs := by
  unfold spoolTake at h
  split at h
  · cases h
  · split at h
    · cases h
    · rw [← (Prod.mk.inj h).2]

theorem modJob_jobs_of_jobs {s t : State} (h : t.jobs = s.jobs) (k : Nat) (f : Job → Job) :
    (modJob k f t).jobs = (modJob k f s).jobs := by
  unfold modJob
  rw [h]
  split
  · exact h
  · rfl

/-- One byte is on the chain, and no other job has changed. -/
theorem find_append {slot : Nat} {j : Job} {s t : State} (b : Byte) (h : s.jobs.find slot = some j)
    (ht : t.jobs = (modJob slot (Job.append b) s).jobs) :
    t.jobs.find slot = some { j with bytes := j.bytes ++ [b] } ∧
      ∀ k, k ≠ slot → t.jobs.find k = s.jobs.find k := by
  rw [ht]
  exact ⟨find_modJob h _, fun k hk => find_modJob_other hk _ s⟩

/-- Bytes that are appended are on the chain in their order, and no other job has changed (R105). -/
theorem find_appendBytes {slot : Nat} : ∀ (bytes : List Byte) {s t : State} {j : Job},
    s.jobs.find slot = some j → appendBytes slot bytes s = (true, t) →
      t.jobs.find slot = some { j with bytes := j.bytes ++ bytes } ∧
        ∀ k, k ≠ slot → t.jobs.find k = s.jobs.find k
  | [], s, t, j, h, happend => by
    cases happend
    exact ⟨by rw [List.append_nil]; exact h, fun _ _ => rfl⟩
  | b :: bs, s, t, j, h, happend => by
    have rest : ∀ v : State, v.jobs = (modJob slot (Job.append b) s).jobs →
        appendBytes slot bs v = (true, t) →
        t.jobs.find slot = some { j with bytes := j.bytes ++ b :: bs } ∧
          ∀ k, k ≠ slot → t.jobs.find k = s.jobs.find k := fun v hv hrest => by
      obtain ⟨hone, hothers⟩ := find_append b h hv
      obtain ⟨hall, hkept⟩ := find_appendBytes bs hone hrest
      exact ⟨by simpa using hall, fun k hk => (hkept k hk).trans (hothers k hk)⟩
    by_cases hm : j.bytes.length % 128 = 0
    · cases htake : spoolTake s with
      | mk taken v =>
        cases taken with
        | false =>
          rw [appendBytes_refused h b bs hm htake] at happend
          cases happend
        | true =>
          rw [appendBytes_taken h b bs hm htake] at happend
          refine rest _ ?_ happend
          rw [jobs_of_same (keepsRoom_spoolTook _ _).same]
          exact modJob_jobs_of_jobs (spoolTake_jobs htake) slot (Job.append b)
    · rw [appendBytes_within h b bs hm] at happend
      exact rest _ rfl happend

/-! ### Room for a whole DATA (R36, log entry 10) -/

/-- The blocks that `n` more bytes of a chain of `len` take. -/
def newBlocks (len n : Nat) : Nat := blocksFor (len + n) - blocksFor len

theorem newBlocks_succ (len n : Nat) :
    newBlocks len (n + 1) = newBlocks (len + 1) n + if len % 128 = 0 then 1 else 0 := by
  have hb : Config.blockBytes = 128 := rfl
  unfold newBlocks blocksFor
  rw [hb]
  split <;> omega

/-- `new` blocks may be taken for a chain, whatever the NOTICEs of the takes before the last hold. -/
def State.roomFor (s : State) (new : Nat) : Prop :=
  new = 0 ∨ s.pool.spoolHeld + new ≤ s.config.spoolLimit ∧
    s.config.reserve + new + (if new = 1 then 0 else s.noticeRoom) ≤ s.pool.free

/-- After a block is taken there is still room for the others, whatever flags it raises (R39, R40). -/
theorem roomFor_spoolTook {s v : State} {new : Nat}
    (hpool : v.pool = ⟨s.pool.free - 1, s.pool.frameHeld, s.pool.spoolHeld + 1⟩)
    (hconfig : v.config = s.config) (hout : v.noticeOut = s.noticeOut) (h : s.roomFor (new + 1)) :
    (spoolTook s.pool v).roomFor new ∧ (spoolTook s.pool v).pool.spoolHeld = s.pool.spoolHeld + 1 := by
  obtain ⟨hlimit, hfree⟩ := h.resolve_left (Nat.succ_ne_zero new)
  obtain ⟨hsame, hspool, hroom⟩ := keepsRoom_spoolTook s.pool v
  have hset := (config_of_same hsame).trans hconfig
  have hnotices : v.noticeRoom = s.noticeRoom := by simp only [State.noticeRoom, hconfig, hout]
  rw [hpool] at hspool hroom
  refine ⟨?_, hspool⟩
  by_cases hnew : new = 0
  · exact .inl hnew
  · rw [if_neg (by omega)] at hfree
    refine .inr ⟨?_, ?_⟩
    · rw [hspool, hset]
      dsimp only
      omega
    · rw [hset]
      dsimp only at hroom
      split <;> omega

/-- With room for its blocks a whole DATA is appended (R105, R106). -/
theorem appendBytes_of_room {slot : Nat} : ∀ (bytes : List Byte) {s : State} {j : Job},
    s.jobs.find slot = some j → s.roomFor (newBlocks j.bytes.length bytes.length) →
      ∃ t, appendBytes slot bytes s = (true, t) ∧
        t.pool.spoolHeld = s.pool.spoolHeld + newBlocks j.bytes.length bytes.length
  | [], s, j, h, _ => ⟨s, rfl, by simp [newBlocks]⟩
  | b :: bs, s, j, h, hroom => by
    have hlen : (j.bytes ++ [b]).length = j.bytes.length + 1 := by simp
    rw [List.length_cons, newBlocks_succ] at hroom ⊢
    by_cases hm : j.bytes.length % 128 = 0
    · rw [if_pos hm] at hroom ⊢
      obtain ⟨hlimit, hfree⟩ := hroom.resolve_left (Nat.succ_ne_zero _)
      have htake := spoolTake_taken (s := s) (by omega) (by omega)
      obtain ⟨hrest, hspool⟩ := roomFor_spoolTook
        (v := modJob slot (Job.append b) { s with
          pool := ⟨s.pool.free - 1, s.pool.frameHeld, s.pool.spoolHeld + 1⟩ })
        (modJob_pool ..) (modJob_config ..) (modJob_noticeOut ..) hroom
      have hjobs := (jobs_of_same (keepsRoom_spoolTook s.pool _).same).trans
        (modJob_jobs_of_jobs (spoolTake_jobs htake) slot (Job.append b))
      obtain ⟨w, happend, hheld⟩ :=
        appendBytes_of_room bs (find_append b h hjobs).1 (by rw [hlen]; exact hrest)
      refine ⟨w, (appendBytes_taken h b bs hm htake).trans happend, ?_⟩
      rw [hheld, hspool, hlen]
      omega
    · rw [if_neg hm, Nat.add_zero] at hroom ⊢
      have hpool : (modJob slot (Job.append b) s).pool = s.pool := modJob_pool ..
      have hrest : (modJob slot (Job.append b) s).roomFor (newBlocks (j.bytes.length + 1) bs.length) := by
        simpa only [State.roomFor, State.noticeRoom, modJob_pool, modJob_config, modJob_noticeOut] using hroom
      obtain ⟨w, happend, hheld⟩ :=
        appendBytes_of_room bs (find_append b h rfl).1 (by rw [hlen]; exact hrest)
      refine ⟨w, (appendBytes_within h b bs hm).trans happend, ?_⟩
      rw [hheld, hpool, hlen]

/-! ### DATA (R105) -/

section
variable {u : Key} {tag seq : Byte} {slot : Nat} {j : Job} {s : State}

theorem printData_unknown (seq : Byte) (bytes : List Byte) (h : s.arrivingJob u tag = none) :
    printData u tag seq bytes s = unknownJob u tag s := by
  simp only [printData, h]

theorem printData_gap (bytes : List Byte) (h : s.arrivingJob u tag = some (slot, j))
    (hs : seq ≠ j.nextSeq) : printData u tag seq bytes s = endJob slot (.aborted .gap) s := by
  simp only [printData, h, if_pos hs]

theorem printData_refused {bytes : List Byte} {t : State} (h : s.arrivingJob u tag = some (slot, j))
    (hs : seq = j.nextSeq) (ht : appendBytes slot bytes s = (false, t)) :
    printData u tag seq bytes s = endJob slot (.aborted .noSpace) t := by
  simp only [printData, h, if_neg (not_not.2 hs), ht]

theorem printData_appended {bytes : List Byte} {t : State} (h : s.arrivingJob u tag = some (slot, j))
    (hs : seq = j.nextSeq) (ht : appendBytes slot bytes s = (true, t)) :
    printData u tag seq bytes s = modJob slot (fun j => { j with nextSeq := seq + 1, quiet := 0 }) t := by
  simp only [printData, h, if_neg (not_not.2 hs), ht]

/-- The job after a DATA whose bytes are appended. -/
theorem find_printData {bytes : List Byte} {t : State} (h : s.arrivingJob u tag = some (slot, j))
    (hs : seq = j.nextSeq) (hfind : s.jobs.find slot = some j)
    (ht : appendBytes slot bytes s = (true, t)) : (printData u tag seq bytes s).jobs.find slot =
      some { j with bytes := j.bytes ++ bytes, nextSeq := seq + 1, quiet := 0 } := by
  rw [printData_appended h hs ht]
  exact find_modJob (find_appendBytes bytes hfind ht).1 _

end

/-- The room that log entry 10 asks for is room for the blocks and the NOTICEs. -/
theorem roomFor_of_asked {s : State} {new : Nat} (hfree : s.config.reserve + new ≤ s.pool.free)
    (hlimit : s.pool.spoolHeld + new ≤ s.config.spoolLimit)
    (h : new ≤ 1 ∨ s.config.notice = none ∨ s.noticeOut = true ∨ s.config.reserve + new + 2 ≤ s.pool.free) :
    s.roomFor new := by
  unfold State.roomFor State.noticeRoom
  by_cases hnone : s.config.notice = none ∨ s.noticeOut = true
  · rw [if_pos hnone]
    split <;> omega
  · rw [if_neg hnone]
    obtain ⟨hnotice, hout⟩ := not_or.1 hnone
    have hasked : new ≤ 1 ∨ s.config.reserve + new + 2 ≤ s.pool.free :=
      h.imp_right fun h => (h.resolve_left hnotice).resolve_left hout
    split <;> omega

/-- Settles O35, by the turn of the DATA and the room for its bytes. -/
theorem dataIsAppendedInTurn : Obligations.DataIsAppendedInTurn := by
  refine ⟨fun u tag seq bytes s => ⟨printData_unknown seq bytes, fun slot j h =>
    ⟨printData_gap bytes h, fun hs hfind => ⟨fun t => find_printData h hs hfind,
      fun t => printData_refused h hs, ?_⟩⟩⟩, fun slot bytes s t j h => find_appendBytes bytes h,
    fun slot b bytes s j h hm => ⟨fun hr => ?_, fun hr hl => ?_⟩⟩
  · intro new hfree hlimit hnotices
    obtain ⟨t, happend, hheld⟩ := appendBytes_of_room bytes hfind (roomFor_of_asked hfree hlimit hnotices)
    refine ⟨find_printData h hs hfind happend, ?_⟩
    rw [printData_appended h hs happend, modJob_pool]
    exact hheld
  · exact appendBytes_refused h b bytes hm (if_pos hr)
  · refine appendBytes_refused h b bytes hm ?_
    rw [spoolTake, if_neg (by omega), if_pos hl]

end Sys2Proof.Machine

/-! The directory that every step keeps: entry 0, the positions, and each key with one entry. -/

namespace Sys2Proof.Machine

/-! ### Tables changed value by value -/

theorem Table.find_mapValues {κ α β : Type} [DecidableEq κ] (f : α → β) (k : κ) : ∀ t : Table κ α,
    Table.find (t.map fun e => (e.1, f e.2)) k = (t.find k).map f
  | [] => rfl
  | (i, v) :: t => by
    simp only [List.map_cons, Table.find, Table.find_mapValues f k t]
    split <;> rfl

theorem Table.rising_mapValues {α β : Type} {t : Table Nat α} (h : t.rising) (f : α → β) :
    Table.rising (t.map fun e => (e.1, f e.2)) :=
  List.pairwise_map.2 h

/-! ### The entries of the directory (R52, R53) -/

theorem second_bridgeEntry : Entry.bridgeEntry.second = .bridgeEntry := rfl

theorem kind_second_eq_bridge {e : Entry} (h : e.second.kind = .bridge) : e.kind = .bridge := by
  unfold Entry.second at h
  split at h
  · next t hk =>
    split at h
    · exact h
    · cases h
  · exact h

theorem holds_of_keys {d e : Entry} (ht : d.trunk = e.trunk) (ho : d.office = e.office) (k : Key) :
    d.holds k = e.holds k := by
  cases k <;> simp only [Entry.holds, ht, ho]

theorem second_holds (e : Entry) (k : Key) : e.second.holds k = e.holds k := by
  unfold Entry.second
  split
  · split
    · rfl
    · exact holds_of_keys rfl rfl k
  · rfl

/-- The bridge's keys are no station's (R53). -/
theorem bridgeEntry_holds {k : Key} (h : Entry.bridgeEntry.holds k = true) : k.isStation = false := by
  cases k with
  | node n =>
    have hn : n = 254 := by simpa [Entry.holds, Entry.bridgeEntry, eq_comm] using h
    subst hn
    rfl
  | address a =>
    have ha : a = 0xFFFE := by simpa [Entry.holds, Entry.bridgeEntry, eq_comm] using h
    subst ha
    rfl

section
variable {s : State} (h : s.directoryOk)
include h

/-- An entry at position 0 is the bridge's. -/
theorem directoryOk.entry_zero {x : Nat × Entry} (hx : x ∈ s.dir) (h0 : x.1 = 0) : x.2 = .bridgeEntry := by
  obtain ⟨hr, hz, -⟩ := h
  obtain ⟨i, e⟩ := x
  dsimp only at h0
  subst h0
  exact Option.some.inj ((Table.find_of_mem hr hx).symm.trans hz)

/-! ### What each write of the directory keeps -/

theorem directoryOk_putEntry {i : Nat} {e : Entry} (hi : i < Config.directoryPositions) (he : e.kind ≠ .bridge) :
    (putEntry i e s).directoryOk := by
  unfold putEntry
  split
  · exact h
  · next hne =>
    obtain ⟨hr, hz, hall⟩ := h
    refine ⟨Table.rising_put hr i e, ?_, fun x hx => ?_⟩
    · rw [Table.find_put, if_neg hne, hz]
    · rcases Table.mem_put hx with rfl | hx
      · exact ⟨hi, fun hb => absurd hb he⟩
      · exact hall x hx

theorem directoryOk_modStation (i : Nat) (f : Station → Station) : (modStation i f s).directoryOk := by
  unfold modStation
  split
  · next o n a t hfind =>
    exact directoryOk_putEntry h (h.2.2 _ (Table.mem_of_find hfind)).1 (by simp)
  · exact h

theorem directoryOk_dropEntry (i : Nat) : (dropEntry i s).directoryOk := by
  unfold dropEntry
  split
  · exact h
  · next hne =>
    obtain ⟨hr, hz, hall⟩ := h
    refine ⟨Table.rising_drop hr i, ?_, fun x hx => hall x (Table.mem_drop.1 hx).1⟩
    rw [Table.find_drop, if_neg hne, hz]

theorem directoryOk_second : State.directoryOk { s with dir := s.dir.map fun e => (e.1, e.2.second) } := by
  obtain ⟨hr, hz, hall⟩ := h
  refine ⟨Table.rising_mapValues hr _, ?_, fun x hx => ?_⟩
  · rw [Table.find_mapValues, hz]
    rfl
  · obtain ⟨y, hy, rfl⟩ := List.mem_map.1 hx
    exact ⟨(hall y hy).1, fun hb => (hall y hy).2 (kind_second_eq_bridge hb)⟩

end

/-! ### Each key with one entry (R54) -/

section
variable {s : State} (h : s.keysUnique)
include h

/-- A write keeps each key with one entry where no entry at another position holds a key of the new one. -/
theorem keysUnique_putEntry {i : Nat} {e : Entry}
    (hnew : ∀ x ∈ s.dir, ∀ k : Key, e.holds k → x.2.holds k → x.1 = i) : (putEntry i e s).keysUnique := by
  unfold putEntry
  split
  · exact h
  · intro a ha b hb k hka hkb
    rcases Table.mem_put ha with rfl | ha <;> rcases Table.mem_put hb with rfl | hb
    · rfl
    · exact (hnew b hb k hka hkb).symm
    · exact hnew a ha k hkb hka
    · exact h a ha b hb k hka hkb

theorem keysUnique_modStation (i : Nat) (f : Station → Station) : (modStation i f s).keysUnique := by
  unfold modStation
  split
  · next o n a t hfind =>
    refine keysUnique_putEntry h fun x hx k hk hxk => ?_
    exact h x hx _ (Table.mem_of_find hfind) k hxk ((holds_of_keys rfl rfl k).trans hk)
  · exact h

theorem keysUnique_dropEntry (i : Nat) : (dropEntry i s).keysUnique := by
  unfold dropEntry
  split
  · exact h
  · exact fun a ha b hb => h a (Table.mem_drop.1 ha).1 b (Table.mem_drop.1 hb).1

theorem keysUnique_second : State.keysUnique { s with dir := s.dir.map fun e => (e.1, e.2.second) } := by
  intro a ha b hb k hka hkb
  obtain ⟨c, hc, rfl⟩ := List.mem_map.1 ha
  obtain ⟨d, hd, rfl⟩ := List.mem_map.1 hb
  exact h c hc d hd k ((second_holds ..).symm.trans hka) ((second_holds ..).symm.trans hkb)

end

/-! ### Every basic write keeps the directory -/

/-- A property of the directory that each write of it keeps. -/
structure KeptDirectory (P : State → Prop) : Prop where
  same : ∀ {s t : State}, P s → t.dir = s.dir → P t
  entry : ∀ {s : State} (i : Nat) (e : Entry),
    (i < Config.directoryPositions ∨ ∃ r, P r ∧ ∃ x ∈ r.dir, x.1 = i) → e.kind ≠ .bridge →
    (∀ x ∈ s.dir, ∀ k : Key, e.holds k → x.2.holds k → x.1 = i ∨ x.1 = 0 ∧ k.isStation) →
    P s → P (putEntry i e s)
  station : ∀ {s : State} (i : Nat) (f : Station → Station), P s → P (modStation i f s)
  free : ∀ {s : State} (i : Nat), P s → P (dropEntry i s)
  second : ∀ {s : State}, P s → P { s with dir := s.dir.map fun e => (e.1, e.2.second) }
  reset : P State.reset

/-- Frame memory, jobs, queues and counters do not matter to a property of the directory, so every basic write
keeps it. -/
theorem KeptDirectory.kept {P : State → Prop} (h : KeptDirectory P) : Kept P where
  rest hs e := h.same hs (by
    simp only [State.core, Prod.mk.injEq] at e
    exact e.1)
  count c n hs := h.same hs (bumpBy_dir ..)
  clear _ hs := h.same hs rfl
  make _ _ _ hs := h.same hs rfl
  ref r hs := h.same hs (addRef_dir ..)
  unref r hs := h.same hs (releaseRef_dir ..)
  fill _ _ hs := h.same hs rfl
  grow _ _ _ hs := h.same hs rfl
  queue _ _ _ hs := h.same hs rfl
  forget _ hs := h.same hs rfl
  entry := h.entry
  station := h.station
  free := h.free
  second := h.second
  opened _ _ _ _ _ hs := h.same hs rfl
  job k f _ hs := h.same hs (modJob_dir ..)
  quiet hs := h.same hs rfl
  append _ _ _ hs := h.same hs (modJob_dir ..)
  spool _ _ _ _ hs := h.same hs (modJob_dir ..)
  ended _ hs := h.same hs rfl
  cleared hs := h.same hs rfl
  request _ _ hs := h.same hs rfl
  log _ _ _ hs := h.same hs rfl
  steps _ _ hs := h.same hs rfl
  settings _ _ hs := h.same hs rfl
  serial _ _ hs := h.same hs rfl
  reset _ := h.same h.reset rfl

/-- A position of the directory is one below 256, as is the position of an entry that a directory in order
has. -/
theorem position_lt {P : State → Prop} (hP : ∀ s, P s → s.directoryOk) {i : Nat}
    (h : i < Config.directoryPositions ∨ ∃ r, P r ∧ ∃ x ∈ r.dir, x.1 = i) : i < Config.directoryPositions := by
  rcases h with h | ⟨r, hr, x, hx, rfl⟩
  · exact h
  · exact ((hP r hr).2.2 x hx).1

theorem keptDirectory_directoryOk : KeptDirectory State.directoryOk where
  same h e := by simpa only [State.directoryOk, e] using h
  entry i e hi he _ h := directoryOk_putEntry h (position_lt (fun _ => id) hi) he
  station i f h := directoryOk_modStation h i f
  free i h := directoryOk_dropEntry h i
  second h := directoryOk_second h
  reset := directoryOk_reset

/-- Entry 0 is the bridge's, whose keys are no station's: so the keys given to an entry are held by no entry
at another position at all. -/
theorem keptDirectory_keysUnique : KeptDirectory fun s => s.directoryOk ∧ s.keysUnique where
  same h e := by simpa only [State.directoryOk, State.keysUnique, e] using h
  entry i e hi he hnew h := by
    obtain ⟨hok, hu⟩ := h
    refine ⟨directoryOk_putEntry hok (position_lt (fun _ => And.left) hi) he,
      keysUnique_putEntry hu fun x hx k hk hxk => ?_⟩
    rcases hnew x hx k hk hxk with hxi | ⟨h0, hs⟩
    · exact hxi
    · rw [directoryOk.entry_zero hok hx h0] at hxk
      rw [bridgeEntry_holds hxk] at hs
      cases hs
  station i f h := ⟨directoryOk_modStation h.1 i f, keysUnique_modStation h.2 i f⟩
  free i h := ⟨directoryOk_dropEntry h.1 i, keysUnique_dropEntry h.2 i⟩
  second h := ⟨directoryOk_second h.1, keysUnique_second h.2⟩
  reset := ⟨directoryOk_reset, keysUnique_reset⟩

/-- Settles O57: the directory is kept by every basic write, and so by every step. -/
theorem stepKeepsTheDirectory : Obligations.StepKeepsTheDirectory :=
  ⟨fun _ _ h x => kept_step keptDirectory_directoryOk.kept x h,
    fun _ _ h x => kept_step keptDirectory_keysUnique.kept x h⟩

end Sys2Proof.Machine

/-! Learning: the answers of the entry that holds the source, and the lowest free index. -/

namespace Sys2Proof.Machine

/-! ### The lowest free index (R59, R64) -/

/-- Below the lowest free number found every number tried is held. -/
theorem Table.lowestFree_least {α : Type} {t : Table Nat α} : ∀ {n lo k : Nat},
    t.lowestFree lo n = some k → ∀ j, lo ≤ j → j < k → t.find j ≠ none
  | 0, _, _, h, _, _, _ => nomatch h
  | n + 1, lo, k, h, j, hlo, hk => by
    unfold Table.lowestFree at h
    split at h
    · next hheld =>
      rcases Nat.eq_or_lt_of_le hlo with rfl | hlt
      · exact Option.isSome_iff_ne_none.1 hheld
      · exact Table.lowestFree_least h j hlt hk
    · cases h
      omega

theorem freeIndex_spec {s : State} {i : Nat} (h : s.freeIndex = some i) :
    1 ≤ i ∧ i ≤ 255 ∧ s.dir.find i = none ∧ ∀ j, 1 ≤ j → j < i → s.dir.find j ≠ none := by
  obtain ⟨hfree, hlo, hhi⟩ := Table.lowestFree_spec h
  exact ⟨hlo, by omega, hfree, Table.lowestFree_least h⟩

/-! ### The source's entry (R56 to R59, R76) -/

theorem learnNew_full {s : State} (k : Key) (p : Port) (h : s.freeIndex = none) :
    learnNew k p s = (.none, bump (.dir .learnRefusedFull) (raise .directoryFull s)) := by
  simp only [learnNew, h]

theorem learnNew_free {s : State} {i : Nat} (k : Key) (p : Port) (h : s.freeIndex = some i) :
    learnNew k p s = (.index i, bump (.dir .learned) (putEntry i (s.learnedEntry k p) s)) := by
  simp only [learnNew, h]

section
variable {s : State} {k : Key} {p : Port}

theorem learn_unknown (guarded : Bool) (h : s.lookup k = none) :
    learn k p guarded s = (.accept (learnNew k p s).1, (learnNew k p s).2) := by
  simp only [learn, h]

variable {i : Nat} {e : Entry} (hl : s.lookup k = some (i, e))
include hl

theorem learn_printer (guarded : Bool) {x : Target} {y : Fin 4} (he : e.kind = .printer x y) :
    learn k p guarded s = (.printerClash, raise .nodeClash (bump (.dir .aliasClashes) s)) := by
  simp only [learn, hl, he]

variable {t : Station} (he : e.kind = .station t)
include he

theorem learn_heard (guarded : Bool) (hh : t.home = none ∨ t.home = some p) :
    learn k p guarded s = (.accept (.index i), heardAt i p s) := by
  rcases hh with hh | hh
  · simp only [learn, hl, he, hh]
  · simp only [learn, hl, he, hh, if_true]

variable {q : Port} (hh : t.home = some q) (hq : q ≠ p)
include hh hq

/-- The tests of a station heard at a port that is not its home, in their order. -/
theorem learn_elsewhere (guarded : Bool) : learn k p guarded s =
    if q.side ≠ p.side then nodeClash s
    else if e.origin = .static ∧ t.pinned then nodeClash s
    else if guarded ∧ t.quiet < s.config.claimGuard then nodeClash s
    else (.accept (.index i), bump (.dir .moves) (heardAt i p s)) := by
  simp only [learn, hl, he, hh, if_neg hq]

end

/-- Settles O27: a source with no entry, a station at its home, and the tests of one heard elsewhere. -/
theorem learningAnswersByTheEntry : Obligations.LearningAnswersByTheEntry := by
  refine fun k p guarded s => ⟨fun hl => ⟨fun hfull => ?_, fun i hfree => ⟨?_, freeIndex_spec hfree⟩⟩,
    fun i e t hl he => ⟨learn_heard hl he guarded, fun q hh hq => ?_⟩⟩
  · rw [learn_unknown guarded hl, learnNew_full k p hfull]
  · rw [learn_unknown guarded hl, learnNew_free k p hfree]
  · intro clash
    have hlearn := learn_elsewhere hl he hh hq guarded
    refine ⟨fun hside => ?_, fun hside ho hp => ?_, fun hside hg hquiet => ?_, fun hside hfixed hquiet => ?_⟩
    · exact hlearn.trans (if_pos hside)
    · rw [if_neg (not_not.2 hside), if_pos ⟨ho, hp⟩] at hlearn
      exact hlearn
    · rw [if_neg (not_not.2 hside), if_pos (⟨hg, hquiet⟩ : guarded = true ∧ _)] at hlearn
      rw [ite_self] at hlearn
      exact hlearn
    · rw [if_neg (not_not.2 hside), if_neg hfixed, if_neg] at hlearn
      · exact hlearn
      · rintro ⟨hg, hlt⟩
        rcases hquiet with hn | hle
        · rw [hn] at hg
          cases hg
        · omega

end Sys2Proof.Machine

/-! Edits of index 0, and reserved keys. -/

namespace Sys2Proof.Machine

/-! ### The index an edit names (R70) -/

/-- The index an edit names: FFh where it is "any free". -/
def Edit.index : Edit → Byte
  | .setStation e => e.index
  | .setAlias e => e.index
  | .delete i => i
  | .setRights i _ _ => i
  | .release i => i
  | .quarantine i => i

theorem run_index_zero {e : Edit} (h : e.index = 0) (s : State) : e.run s = .ignored := by
  cases e with
  | setStation a => exact if_pos h
  | setAlias a => exact if_pos h
  | delete i => exact if_pos h
  | setRights i m p => exact if_pos h
  | release i => exact if_pos h
  | quarantine i => exact if_pos h

theorem takeEdit_of_ignored {e : Edit} {s : State} (h : e.run s = .ignored) : takeEdit e s = s := by
  simp only [takeEdit, h]

/-! ### Keys of a class no station has (R63, R70) -/

theorem givenKeys_reserved {n : Node} {a : Address} (h : n = 254 ∨ a = 0xFFFE) :
    givenKeys n a ≠ [] ∧ keysInRange (givenKeys n a) = false := by
  have bad : ∀ k ∈ givenKeys n a, k.isStation = false →
      givenKeys n a ≠ [] ∧ keysInRange (givenKeys n a) = false := fun k hk hbad =>
    ⟨List.ne_nil_of_mem hk, List.all_eq_false.2 ⟨k, hk, by simp [hbad]⟩⟩
  rcases h with rfl | rfl
  · exact bad (.node 254) (by simp [givenKeys, editNode]) rfl
  · exact bad (.address 0xFFFE) (by simp [givenKeys, editAddress]) rfl

/-- Settles O30: an edit of index 0 alone and in a batch, and the two reserved keys. -/
theorem editsOfIndexZeroAreIgnored : Obligations.EditsOfIndexZeroAreIgnored := by
  refine ⟨fun e s he => ?_, fun a s hi hkey hform => ?_, fun a s hi hkey => ?_⟩
  · have hzero : e.index = 0 := by
      rcases he with ⟨a, rfl, ha⟩ | ⟨a, rfl, ha⟩ | rfl | ⟨m, q, rfl⟩ | rfl | rfl
      · exact ha
      · exact ha
      all_goals rfl
    have hrun := run_index_zero hzero s
    refine ⟨takeEdit_of_ignored hrun, fun es k a g took news => ?_⟩
    rw [runBatch, hrun]
  · obtain ⟨hks, hrange⟩ := givenKeys_reserved hkey
    simp only [Edit.run, editStation, if_neg hi, if_neg (not_or.2 ⟨hks, hform⟩), if_pos hrange]
  · obtain ⟨hks, hrange⟩ := givenKeys_reserved hkey
    simp only [Edit.run, editAlias, if_neg hi, if_neg hks, if_pos hrange]

end Sys2Proof.Machine

/-! The read requests, EDIT-ENTRIES and PURGE-LEARNED. -/

namespace Sys2Proof.Machine

/-! ### A request carried out and answered (R187, R188) -/

/-- The state after a request has been answered with what carrying it out came to. -/
def Carried.answer (c : Carried) (q : Request) : State := answered q c.status c.results c.state

section
variable {s : State} {q : Request} {rest : List Request}

theorem exec_readEntries {start count : Nat} (h : s.headIs q rest (.readEntries start count)) :
    exec .readEntries s = .next ((carryReadEntries q.side start count (becomeCurrent q rest s)).answer q) :=
  congrArg Host.Outcome.next (carry_at h _ _ (a := (start, count)) rfl)

theorem exec_findEntry {d : Side} {v : Nat} (h : s.headIs q rest (.findEntry d v)) :
    exec .findEntry s = .next ((carryFindEntry q.side d v (becomeCurrent q rest s)).answer q) :=
  congrArg Host.Outcome.next (carry_at h _ _ (a := (d, v)) rfl)

theorem exec_readJobs {start count : Nat} (h : s.headIs q rest (.readJobs start count)) :
    exec .readJobs s = .next ((carryReadJobs q.side start count (becomeCurrent q rest s)).answer q) :=
  congrArg Host.Outcome.next (carry_at h _ _ (a := (start, count)) rfl)

theorem exec_peekNext {b : Byte} (h : s.headIs q rest (.peekNext b)) :
    exec .peekNext s = .next ((carryPeekNext b (becomeCurrent q rest s)).answer q) :=
  congrArg Host.Outcome.next (carry_at h _ _ (a := b) rfl)

theorem exec_readPorts (h : s.headIs q rest .readPorts) :
    exec .readPorts s = .next ((carryReadPorts q.side (becomeCurrent q rest s)).answer q) :=
  congrArg Host.Outcome.next (carry_at h _ _ (a := ()) rfl)

theorem exec_readSweep (h : s.headIs q rest .readSweep) : exec .readSweep s =
    .next (answered q .done (sweepBytes q.side s) (becomeCurrent q rest s)) :=
  congrArg Host.Outcome.next (carry_at h _ _ (a := ()) rfl)

theorem exec_readConfig (h : s.headIs q rest .readConfig) : exec .readConfig s =
    .next (answered q .done (configBytes q.side s.config) (becomeCurrent q rest s)) :=
  congrArg Host.Outcome.next (carry_at h _ _ (a := ()) rfl)

theorem exec_readCounters {g : Nat} {clear : Bool} (h : s.headIs q rest (.readCounters g clear)) :
    exec .readCounters s = .next ((carryReadCounters q.side g clear (becomeCurrent q rest s)).answer q) :=
  congrArg Host.Outcome.next (carry_at h _ _ (a := (g, clear)) rfl)

theorem exec_editEntries {n : Nat} {es : List Edit} (h : s.headIs q rest (.editEntries n es)) :
    exec .editEntries s = .next ((carryEdits n es (becomeCurrent q rest s)).answer q) :=
  congrArg Host.Outcome.next (carry_at h _ _ (a := (n, es)) rfl)

theorem exec_purgeLearned (h : s.headIs q rest .purgeLearned) :
    exec .purgeLearned s = .next ((carryPurgeLearned (becomeCurrent q rest s)).answer q) :=
  congrArg Host.Outcome.next (carry_at h _ _ (a := ()) rfl)

end

/-! ### What the read requests come to (R72, R115, R142, R193) -/

theorem within_iff {lo hi v : Nat} : within lo hi v = true ↔ lo ≤ v ∧ v ≤ hi := by
  simp [within]

theorem within_eq_false {lo hi v : Nat} (h : v < lo ∨ hi < v) : within lo hi v = false := by
  rw [Bool.eq_false_iff, ne_eq, within_iff]
  omega

theorem carryReadEntries_page (side : Side) (start : Nat) {count : Nat} (s : State) (h : 1 ≤ count ∧ count ≤ 60) :
    carryReadEntries side start count s =
      ⟨.done, pageBytes side (fun e => entryRecord side e.1 e.2) s.dir start count, s⟩ := by
  rw [carryReadEntries, within_iff.2 h, if_neg (by decide)]

theorem carryReadEntries_range (side : Side) (start : Nat) {count : Nat} (s : State)
    (h : count = 0 ∨ 60 < count) : carryReadEntries side start count s = .refuse .range s := by
  rw [carryReadEntries, within_eq_false (by omega), if_pos rfl]

theorem carryReadJobs_page (side : Side) {start count : Nat} (s : State) (hs : start < 48)
    (h : 1 ≤ count ∧ count ≤ 16) : carryReadJobs side start count s =
      ⟨.done, pageBytes side (fun e => jobRecord side e.1 (s.readyPlace e.2) e.2) s.jobs start count, s⟩ := by
  rw [carryReadJobs, within_iff.2 h, if_neg]
  simp only [Config.jobSlots, Bool.true_eq_false, or_false]
  omega

theorem carryReadJobs_range (side : Side) {start count : Nat} (s : State)
    (h : 48 ≤ start ∨ count = 0 ∨ 16 < count) : carryReadJobs side start count s = .refuse .range s := by
  rw [carryReadJobs, if_pos]
  rcases h with h | h
  · exact .inl h
  · exact .inr (within_eq_false (by omega))

/-- Settles O42, request by request. -/
theorem readRequestsOnlyAnswer : Obligations.ReadRequestsOnlyAnswer := by
  intro s q rest u
  refine ⟨fun start count h => ⟨fun hc => ?_, fun hc => ?_⟩,
    fun d v h => ⟨fun hk => ?_, fun k hk hl => ?_, fun k i e hk hl => ?_⟩,
    fun start count h => ⟨fun hs hlo hhi => ?_, fun hr => ?_⟩, fun b h => ⟨fun n hn => ?_, fun hn => ?_⟩,
    exec_readPorts, exec_readSweep, exec_readConfig, fun g h => ⟨fun cs hg => ?_, fun hg => ?_⟩⟩
  · rw [exec_readEntries h, carryReadEntries_page _ _ _ hc]
    rfl
  · rw [exec_readEntries h, carryReadEntries_range _ _ _ hc]
    rfl
  · rw [exec_findEntry h, carryFindEntry, hk]
    rfl
  · have hl : u.lookup k = none := hl
    rw [exec_findEntry h, carryFindEntry, hk]
    dsimp only
    rw [hl]
    rfl
  · have hl : u.lookup k = some (i, e) := hl
    rw [exec_findEntry h, carryFindEntry, hk]
    dsimp only
    rw [hl]
    rfl
  · rw [exec_readJobs h, carryReadJobs_page _ _ hs ⟨hlo, hhi⟩]
    rfl
  · rw [exec_readJobs h, carryReadJobs_range _ _ hr]
    rfl
  · rw [exec_peekNext h, carryPeekNext, onLine, hn]
    rfl
  · rw [exec_peekNext h, carryPeekNext, onLine, hn]
    rfl
  · rw [exec_readCounters h, carryReadCounters, hg]
    rfl
  · rw [exec_readCounters h, carryReadCounters, hg]
    rfl

/-! ### The entries removed from the directory (R60, R61, R71) -/

theorem removeEntry_find (i j : Nat) (s : State) :
    (removeEntry i s).dir.find j = if i = j ∧ j ≠ 0 then none else s.dir.find j := by
  unfold removeEntry dropEntry
  by_cases hi : i = 0
  · rw [if_pos hi, if_neg (by omega)]
  · rw [if_neg hi, Table.find_drop]
    by_cases hj : i = j
    · rw [if_pos hj, if_pos ⟨hj, by omega⟩]
    · rw [if_neg hj, if_neg (by tauto)]

/-- A list of entries removed, and no other; never entry 0 (R53). -/
theorem removeAll_find (c : DirCount) (j : Nat) : ∀ (is : List Nat) (s : State),
    (removeAll c is s).dir.find j = if j ∈ is ∧ j ≠ 0 then none else s.dir.find j
  | [], s => by simp [removeAll]
  | i :: is, s => by
    rw [removeAll, removeAll_find c j is, bump_dir, removeEntry_find]
    by_cases hj : i = j
    · subst hj
      by_cases h0 : i = 0 <;> simp [h0]
    · simp [hj, eq_comm (a := j) (b := i)]

theorem mem_indexesOf {s : State} (h : s.dir.rising) (test : Entry → Bool) (i : Nat) :
    i ∈ s.indexesOf test ↔ ∃ e, s.dir.find i = some e ∧ test e = true := by
  simp only [State.indexesOf, List.mem_map, List.mem_filter]
  constructor
  · rintro ⟨⟨j, e⟩, ⟨hmem, htest⟩, rfl⟩
    exact ⟨e, Table.find_of_mem h hmem, htest⟩
  · rintro ⟨e, hfind, htest⟩
    exact ⟨(i, e), ⟨Table.mem_of_find hfind, htest⟩, rfl⟩

/-- Removing every entry with a property that the bridge has not leaves the others. -/
theorem removeAll_indexesOf {s : State} (h : s.directoryOk) (c : DirCount) {test : Entry → Bool}
    (hb : test .bridgeEntry = false) (i : Nat) :
    (removeAll c (s.indexesOf test) s).dir.find i = (s.dir.find i).filter fun e => !test e := by
  obtain ⟨hr, hz, -⟩ := h
  have hmem := mem_indexesOf hr test i
  rw [removeAll_find]
  cases hfind : s.dir.find i with
  | none => exact ite_self _
  | some e =>
    rw [hfind] at hmem
    cases htest : test e with
    | false =>
      rw [if_neg]
      · simp [Option.filter, htest]
      · rintro ⟨hi, -⟩
        obtain ⟨d, hd, htrue⟩ := hmem.1 hi
        cases hd
        rw [htest] at htrue
        cases htrue
    | true =>
      rw [if_pos]
      · simp [Option.filter, htest]
      · refine ⟨hmem.2 ⟨e, rfl, htest⟩, ?_⟩
        rintro rfl
        rw [hz] at hfind
        cases hfind
        rw [hb] at htest
        cases htest

theorem length_indexesOf (s : State) (test : Entry → Bool) :
    (s.indexesOf test).length = (s.dir.filter fun e => test e.2).length :=
  List.length_map ..

/-! ### EDIT-ENTRIES (R63) -/

theorem carryEdits_applied {n a g : Nat} {es : List Edit} {took : List Nat} {s t : State} (hlo : 1 ≤ n) (hhi : n ≤ 16)
    (h : runBatch es 1 0 0 [] [] s = .applied a g took t) :
    carryEdits n es s = ⟨.done, [byteOf a, byteOf g] ++ took.map byteOf, t⟩ := by
  rw [carryEdits, if_neg (by omega), h]

theorem carryEdits_refused {n k : Nat} {es : List Edit} {st : Status} {s : State} (hlo : 1 ≤ n) (hhi : n ≤ 16)
    (h : runBatch es 1 0 0 [] [] s = .refused st k) : carryEdits n es s = .refuseAt st k s := by
  rw [carryEdits, if_neg (by omega), h]

/-- Settles O45: what a batch comes to is answered, and the learned entries are removed. -/
theorem directoryRequestsApplyAllOrNone : Obligations.DirectoryRequestsApplyAllOrNone := by
  intro s q rest u
  refine ⟨fun n es h hlo hhi => ⟨fun a g took t hrun => ?_, fun st k hrun => ?_⟩,
    fun h hok => ⟨(purgeLearned u).2, ?_, fun i => removeAll_indexesOf (s := u) hok _ rfl i⟩⟩
  · rw [exec_editEntries h, carryEdits_applied hlo hhi hrun]
    rfl
  · rw [exec_editEntries h, carryEdits_refused hlo hhi hrun]
    rfl
  · have hcount : (purgeLearned u).1 = (s.dir.filter fun e => e.2.movable).length := length_indexesOf u _
    rw [exec_purgeLearned h, ← hcount]
    rfl

end Sys2Proof.Machine

/-! Frames taken from the hand-over lists: sources that clash, claims, and traffic. -/

namespace Sys2Proof.Machine

/-! ### What leaves the sweep engine alone -/

theorem sweep_of_same {s t : State} (h : sameButFrames s t) : t.sweep = s.sweep := by
  obtain ⟨-, -, -, -, -, -, -, -, -, -, -, -, -, -, -, -, -, -, -, -, -, -, hsweep, -⟩ := sameButFrames_fields h
  exact hsweep

theorem sweep_raise (f : Flag) (s : State) : (raise f s).sweep = s.sweep := sweep_of_same (raise_same f s)

theorem sweep_offer (p : Port) (e : QueueEntry) (s : State) : (offer p e s).2.sweep = s.sweep :=
  sweep_of_same (offer_same p e s)

theorem sweep_heardAt (i : Nat) (p : Port) (s : State) : (heardAt i p s).sweep = s.sweep :=
  modStation_sweep ..

theorem sweep_learnNew (k : Key) (p : Port) (s : State) : (learnNew k p s).2.sweep = s.sweep := by
  cases h : s.freeIndex with
  | none => simp only [learnNew_full k p h, bump_sweep, sweep_raise]
  | some i => simp only [learnNew_free k p h, bump_sweep, putEntry_sweep]

theorem sweep_defend (x : Seg) (n : Node) (c : DefendClass) (s : State) : (defend x n c s).sweep = s.sweep := by
  have sent := sweep_of_same (sendOwn_same (.seg x) (.node n) kindDefend [c.code, n] s)
  unfold defend
  split <;> next e => rw [e] at sent; exact sent

theorem sweep_forwardClaim (x : Seg) (h : Header) (rid : Nat) (source : SourceEntry) (s : State) :
    (forwardClaim x h rid source s).sweep = s.sweep := by
  rw [forwardClaim, bump_sweep, sweep_offer]

theorem sweep_copyTo (d : Dispatch) (q : Port) (s : State) : (copyTo d q s).sweep = s.sweep := by
  unfold copyTo
  split
  · exact sweep_offer ..
  · split
    · exact bump_sweep ..
    · split
      · exact sweep_offer ..
      · exact bump_sweep ..

theorem sweep_copies (d : Dispatch) : ∀ (qs : List Port) (s : State), (copies d qs s).sweep = s.sweep
  | [], _ => rfl
  | q :: qs, s => (sweep_copies d qs _).trans (sweep_copyTo d q s)

theorem sweep_logUnknown (p : Port) (k : Key) (s : State) : (logUnknown p k s).sweep = s.sweep := by
  unfold logUnknown
  dsimp only
  split
  · rfl
  · split <;> split <;> simp only [sweep_raise, bump_sweep, countAt]

/-! ### TAKE-FRAME (R79, R80) -/

/-- The state in which the oldest frame of a port's hand-over list is judged. -/
def frameTaken (p : Port) (c : Bool) (rest : List Handed) (s : State) : State :=
  { s with commission := c, handover := s.handover.set p rest }

section
variable {p : Port} {c : Bool} {s w : State} {h : Header} {rid : Nat} {rest : List Handed}

/-- A frame judged without the sweep engine: its own record is released, and nothing else is done. -/
theorem exec_takeFrame (ha : s.active = true) (hw : s.resultWaits = false)
    (hf : s.handover.get p = ⟨h, rid⟩ :: rest) (hj : judgeFrame p h rid (frameTaken p c rest s) = w)
    (hsweep : w.sweep = s.sweep) : exec (.takeFrame p c) s = .next (releaseRef rid w) := by
  have htake : takeFrame p { s with commission := c } = releaseRef rid w := by
    rw [← hj]
    simp only [takeFrame, hf]
    rfl
  refine congrArg Host.Outcome.next ?_
  rw [whenActive_of_active _ (by exact ha), htake]
  exact settleSweep_of_sweep hw ((releaseRef_sweep ..).trans hsweep)

/-- The kinds whose source is judged and learned: traffic, PRINT, the echoes, MGMT-REQ, and on the trunk
OBJECT and DEFEND (R82, R84). -/
def sourceKind (p : Port) (kind : Byte) : Prop :=
  kind.toNat < 0x80 ∨ kind = kindPrint ∨ kind = kindEchoReq ∨ kind = kindEchoRep ∨ kind = kindMgmtReq ∨
    p.side = .trunk ∧ (kind = kindObject ∨ kind = kindDefend)

theorem ne_of_traffic {k m : Byte} (hk : k.toNat < 0x80) (hm : 0x80 ≤ m.toNat) : k ≠ m := by
  rintro rfl
  omega

/-- What the checks before the source ask of a kind (R80 to R83). -/
theorem sourceKind_checks {kind : Byte} (hk : sourceKind p kind) : kind ≠ kindTest ∧ knownKind kind = true ∧
    bridgeKind kind = false ∧ kind ≠ kindClaim ∧ (trunkKind kind = true → p.side = .trunk) := by
  rcases hk with hk | rfl | rfl | rfl | rfl | ⟨hp, rfl | rfl⟩
  · have hne : ∀ {m : Byte}, 0x80 ≤ m.toNat → kind ≠ m := ne_of_traffic hk
    refine ⟨hne (by decide), by simp [knownKind, hk], ?_, hne (by decide), fun ht => ?_⟩
    · simp [bridgeKind, hne (m := kindPrintStatus) (by decide), hne (m := kindMgmtReply) (by decide),
        hne (m := kindNotice) (by decide)]
    · simp [trunkKind, trunkOnly, hne (m := kindClaim) (by decide), hne (m := kindObject) (by decide),
        hne (m := kindDefend) (by decide)] at ht
  all_goals
    refine ⟨by decide, by decide, by decide, by decide, fun ht => ?_⟩
  · exact absurd ht (by decide)
  · exact absurd ht (by decide)
  · exact absurd ht (by decide)
  · exact absurd ht (by decide)
  · exact hp
  · exact hp

theorem judgeFrame_source (hs : s.serviceOf p = .inService) (hk : sourceKind p h.kind) :
    judgeFrame p h rid s = fromSource p h rid (s.payload rid) s := by
  obtain ⟨htest, hknown, hbridge, hclaim, htrunk⟩ := sourceKind_checks hk
  unfold judgeFrame
  dsimp only
  rw [if_neg htest, if_neg (not_not.2 hs), if_neg (by rw [hknown]; decide), if_neg (by rw [hbridge]; decide)]
  cases p with
  | link l =>
    refine if_neg fun ht => ?_
    cases htrunk ht
  | seg x => exact if_neg hclaim

theorem judgeFrame_claim {x : Seg} (hs : s.serviceOf (.seg x) = .inService) (hk : h.kind = kindClaim) :
    judgeFrame (.seg x) h rid s = claim x h rid s := by
  unfold judgeFrame
  dsimp only
  rw [hk, if_neg (by decide), if_neg (not_not.2 hs), if_neg (by decide), if_neg (by decide), if_pos rfl]

/-! ### The source (R84 to R86) -/

section
variable {i : Nat} {e : Entry} (hsrc : h.src.isStation = true) (hl : s.lookup h.src = some (i, e))
  (hq : s.quarantined i = false)
include hsrc hl hq

theorem fromSource_learned {bytes : List Byte} {source : SourceEntry}
    (hlearn : learn h.src p (h.kind ≠ kindObject) s = (.accept source, w)) :
    fromSource p h rid bytes s = dispatch p h rid source bytes w := by
  unfold fromSource
  rw [if_neg (by rw [hsrc]; decide), hl]
  dsimp only
  rw [hq, if_neg (by decide), hlearn]

theorem fromSource_printerClash {bytes : List Byte}
    (hlearn : learn h.src p (h.kind ≠ kindObject) s = (.printerClash, w)) :
    fromSource p h rid bytes s = w := by
  unfold fromSource
  rw [if_neg (by rw [hsrc]; decide), hl]
  dsimp only
  rw [hq, if_neg (by decide), hlearn]

end

end

/-! ### Alias clashes (R58) -/

theorem station_of_printer {s : State} {i : Nat} {e : Entry} {x : Target} {y : Fin 4}
    (h : s.dir.find i = some e) (he : e.kind = .printer x y) : s.station i = none := by
  obtain ⟨o, n, a, k⟩ := e
  cases he
  simp only [State.station, h]

theorem quarantined_of_no_station {s : State} {i : Nat} (h : s.station i = none) : s.quarantined i = false := by
  simp only [State.quarantined, h]

/-- Where no NOTICE destination is set a raise only sets the flag (R190, R191). -/
theorem queues_raise_of_no_destination {f : Flag} {s : State} (h : s.config.notice = none) :
    (raise f s).queues = s.queues := by
  have made : makeNoticeWith raiseLowInNotice (setFlag f s) = setFlag f s := by
    have hnone : (setFlag f s).config.notice = none := h
    simp only [makeNoticeWith, hnone]
  unfold raise raiseWith becomeCounting
  dsimp only
  rw [made]
  split
  · rfl
  · rw [ite_self, ite_self]
    rfl

/-- Settles O28: the source's entry is no station, so learning answers a clash. -/
theorem aliasSourcesClash : Obligations.AliasSourcesClash := by
  intro p c s h rid rest i e x y ha hw hf hs hk hsrc hl hfind he t
  have hlearn := learn_printer (s := frameTaken p c rest s) (p := p) (e := e) hl (h.kind ≠ kindObject) he
  have hq : (frameTaken p c rest s).quarantined i = false :=
    quarantined_of_no_station (station_of_printer (s := frameTaken p c rest s) hfind he)
  have hj : judgeFrame p h rid (frameTaken p c rest s) = t :=
    (judgeFrame_source (s := frameTaken p c rest s) hs hk).trans
      (fromSource_printerClash (s := frameTaken p c rest s) hsrc hl hq hlearn)
  have hsame : sameButFrames (frameTaken p c rest s) t := sameButFrames_trans (bump_same ..) (raise_same ..)
  have hsweep : t.sweep = s.sweep := sweep_of_same (s := frameTaken p c rest s) hsame
  have hdone := sameButFrames_trans hsame (releaseRef_same rid t)
  obtain ⟨-, -, -, -, -, -, -, -, -, -, -, hdir, -, -, hjobs, -⟩ := sameButFrames_fields hdone
  refine ⟨exec_takeFrame ha hw hf hj hsweep, raised_raise _ _, hdir, hjobs, fun hn => ?_⟩
  rw [queues_raise_of_no_destination (by rw [bump_config]; exact hn), bump_queues]

/-! ### Claims (R73, R75) -/

section
variable {x : Seg} {n : Node} {h : Header} {rid : Nat} {s : State}

theorem claimDefence_invalid (hn : (Key.node n).isStation = false) :
    claimDefence x n h rid s = defend x n .reservedNumber s := if_pos hn

variable (hn : (Key.node n).isStation = true)
include hn

theorem claimDefence_unknown (hl : s.lookup (.node n) = none) : claimDefence x n h rid s =
    forwardClaim x h rid (learnNew (.node n) (.seg x) s).1 (learnNew (.node n) (.seg x) s).2 := by
  simp only [claimDefence, hn, Bool.true_eq_false, if_false, hl]

variable {i : Nat} {e : Entry} (hl : s.lookup (.node n) = some (i, e))
include hl

theorem claimDefence_alias {t : Target} {l : Fin 4} (he : e.kind = .printer t l) :
    claimDefence x n h rid s = defend x n .printerHeld s := by
  simp only [claimDefence, hn, Bool.true_eq_false, if_false, hl, he]

variable {t : Station} (he : e.kind = .station t)
include he

theorem claimDefence_quarantined (hq : t.standing = .quarantined) :
    claimDefence x n h rid s = bump (.forward (.seg x) .quarantinedDrop) s := by
  simp only [claimDefence, hn, Bool.true_eq_false, if_false, hl, he, hq, if_true]

variable (hq : t.standing ≠ .quarantined)
include hq

theorem claimDefence_pairSide {l : Link} (hh : t.home = some (.link l)) :
    claimDefence x n h rid s = defend x n .stationPairSide s := by
  simp only [claimDefence, hn, Bool.true_eq_false, if_false, hl, he, if_neg hq, hh]

theorem claimDefence_heard (hh : t.home = none ∨ t.home = some (.seg x)) : claimDefence x n h rid s =
    forwardClaim x h rid (.index i) (heardAt i (.seg x) s) := by
  rcases hh with hh | hh
  · simp only [claimDefence, hn, Bool.true_eq_false, if_false, hl, he, if_neg hq, hh]
  · simp only [claimDefence, hn, Bool.true_eq_false, if_false, hl, he, if_neg hq, hh, if_true]

theorem claimDefence_otherSegment (hh : t.home = some (.seg x.other)) : claimDefence x n h rid s =
    if t.pinned ∨ t.quiet < s.config.claimGuard then defend x n .stationOtherSegment s
    else forwardClaim x h rid (.index i) (bump (.dir .moves) (heardAt i (.seg x) s)) := by
  have hne : x.other ≠ x := by cases x <;> decide
  simp only [claimDefence, hn, Bool.true_eq_false, if_false, hl, he, if_neg hq, hh, if_neg hne]

end

/-- Settles O29, case by case of the claim defence. -/
theorem claimsAreDefendedOrForwarded : Obligations.ClaimsAreDefendedOrForwarded := by
  intro x c s n h rid rest ha hw hf hs hk hlen hsrc v done
  have taken : ∀ {w : State}, claimDefence x n h rid v = w → w.sweep = v.sweep → done w := fun hc hsweep => by
    refine exec_takeFrame ha hw hf ?_ hsweep
    rw [judgeFrame_claim (s := frameTaken (.seg x) c rest s) hs hk, claim, if_neg (not_not.2 hlen), hsrc]
    exact hc
  refine ⟨fun hn => ?_, fun hn => ⟨fun hl => ?_, fun i e hl => ⟨fun t l he => ?_, fun t he => ⟨fun hq => ?_,
    fun hq => ⟨fun l hh => ?_, fun hh => ?_, fun hh => ⟨fun hfix => ?_, fun hp hquiet => ?_⟩⟩⟩⟩⟩⟩
  · exact taken (claimDefence_invalid hn) (sweep_defend ..)
  · exact taken (claimDefence_unknown hn hl) ((sweep_forwardClaim ..).trans (sweep_learnNew ..))
  · exact taken (claimDefence_alias hn hl he) (sweep_defend ..)
  · exact taken (claimDefence_quarantined hn hl he hq) (bump_sweep ..)
  · exact taken (claimDefence_pairSide hn hl he hq hh) (sweep_defend ..)
  · exact taken (claimDefence_heard hn hl he hq hh) ((sweep_forwardClaim ..).trans (sweep_heardAt ..))
  · exact taken ((claimDefence_otherSegment (s := v) hn hl he hq hh).trans (if_pos hfix)) (sweep_defend ..)
  · refine taken ((claimDefence_otherSegment (s := v) hn hl he hq hh).trans (if_neg ?_))
      ((sweep_forwardClaim ..).trans ((bump_sweep ..).trans (sweep_heardAt ..)))
    rintro (hpin | hlt)
    · rw [hp] at hpin
      cases hpin
    · exact absurd hlt (Nat.not_lt.2 hquiet)

/-! ### Traffic (R87, R91 to R95) -/

section
variable {p : Port} {h : Header} {rid : Nat} {source : SourceEntry} {bytes : List Byte} {s : State}

theorem mem_ports_side (q : Port) : q ∈ q.side.ports := by
  rcases q with x | l
  · cases x <;> decide
  · cases l <;> decide

theorem mem_broadcastPorts (q : Port) : q ∈ s.broadcastPorts p ↔
    q ≠ p ∧ (q.side = .trunk ∨ (s.service.get q).bcast = true) := by
  have hside : ∀ a b : Side, b = a ∨ b = a.other := by
    rintro (_ | _) (_ | _) <;> decide
  have hall : q ∈ p.side.ports ++ p.side.other.ports := by
    rcases hside p.side q.side with h | h
    · exact List.mem_append_left _ (h ▸ mem_ports_side q)
    · exact List.mem_append_right _ (h ▸ mem_ports_side q)
  simp only [State.broadcastPorts, List.mem_filter, hall, true_and, decide_eq_true_eq, Bool.or_eq_true]

variable (hk : h.kind.toNat < 0x80)
include hk

theorem misdirected_traffic : misdirected h.kind = false := by
  simp [misdirected, ne_of_traffic hk (m := kindPrint) (by decide),
    ne_of_traffic hk (m := kindMgmtReq) (by decide)]

theorem trunkOnly_traffic : trunkOnly h.kind = false := by
  simp [trunkOnly, ne_of_traffic hk (m := kindObject) (by decide), ne_of_traffic hk (m := kindDefend) (by decide)]

theorem dispatch_bridge (hc : h.dest.class = .bridge) :
    dispatch p h rid source bytes s = bump (.forward p .toBridgeDiscarded) s := by
  simp only [dispatch, hc, toBridge, if_neg (ne_of_traffic hk (m := kindMgmtReq) (by decide)),
    if_neg (ne_of_traffic hk (m := kindEchoReq) (by decide)),
    if_neg (ne_of_traffic hk (m := kindEchoRep) (by decide)), countAt]

theorem dispatch_broadcast (hc : h.dest.class = .broadcast) : dispatch p h rid source bytes s =
    copies ⟨p, h, rid, source, some p.side.other.broadcastKey⟩ (s.broadcastPorts p) s := by
  simp only [dispatch, hc, misdirected_traffic hk, Bool.false_eq_true, if_false, toBroadcast]

variable (hc : h.dest.class = .station)
include hc

theorem dispatch_unknown (hl : s.lookup h.dest = none) : dispatch p h rid source bytes s =
    logUnknown p h.dest (copies ⟨p, h, rid, source, none⟩ (sidePorts p) s) := by
  simp only [dispatch, hc, hl, misdirected_traffic hk, Bool.false_eq_true, if_false, toUnknown]

theorem dispatch_toStation {j : Nat} {d : Entry} {w : Station} (hl : s.lookup h.dest = some (j, d))
    (hd : d.kind = .station w) : dispatch p h rid source bytes s = toStation p h rid source d w s := by
  simp only [dispatch, hc, hl, hd, misdirected_traffic hk, Bool.false_eq_true, if_false]

end

section
variable {p : Port} {h : Header} {rid : Nat} {source : SourceEntry} {s : State} {d : Entry} {w : Station}

theorem toStation_filtered (hh : w.home = some p) :
    toStation p h rid source d w s = bump (.forward p .filtered) s := if_pos hh

variable (hh : w.home ≠ some p)
include hh

theorem toStation_quarantined (hq : w.standing = .quarantined) :
    toStation p h rid source d w s = bump (.forward p .destQuarantined) s := by
  rw [toStation, if_neg hh, if_pos hq, countAt]

theorem toStation_home {q : Port} (hq : w.standing ≠ .quarantined) (hw : w.home = some q) :
    toStation p h rid source d w s = copyTo ⟨p, h, rid, source, d.keyOn p.side.other⟩ q s := by
  rw [toStation, if_neg hh, if_neg hq]
  dsimp only
  rw [hw]

end

section
variable {d : Dispatch} {q : Port} {s : State}

theorem copyTo_sameSide (h : q.side = d.ingress.side) :
    copyTo d q s = (offer q ⟨d.header, d.record, some d.ingress, d.source⟩ s).2 := if_pos h

variable (h : q.side = d.ingress.side.other) (ht : trunkOnly d.header.kind = false)
include h ht

theorem copyTo_translated {dest src : Key} (hd : d.farDest = some dest)
    (hs : s.sourceKey d.source q.side = some src) : copyTo d q s =
      (offer q ⟨{ d.header with dest := dest, src := src }, d.record, some d.ingress, d.source⟩ s).2 := by
  have hne : q.side ≠ d.ingress.side := by
    rw [h]
    cases d.ingress.side <;> decide
  rw [copyTo, if_neg hne, if_neg (by rw [ht]; decide), hd, hs]

theorem copyTo_untranslatable (hk : d.farDest = none ∨ s.sourceKey d.source q.side = none) :
    copyTo d q s = bump (.forward d.ingress .untranslatable) s := by
  have hne : q.side ≠ d.ingress.side := by
    rw [h]
    cases d.ingress.side <;> decide
  rw [copyTo, if_neg hne, if_neg (by rw [ht]; decide)]
  rcases hk with hk | hk
  · rw [hk]
    rfl
  · rw [hk]
    cases d.farDest <;> rfl

end

/-- Settles O24, by the class of the destination and, for a station's, by its entry. -/
theorem trafficIsCarriedToItsHome : Obligations.TrafficIsCarriedToItsHome := by
  intro p c s h rid rest i e t ha hw hf hs hk hsrc hl he hst hhome hstand v done
  have hq : (frameTaken p c rest s).quarantined i = false := by
    rw [quarantined_of_station (s := frameTaken p c rest s) hst]
    exact decide_eq_false hstand
  have hlearn := learn_heard (s := frameTaken p c rest s) (p := p) hl he (h.kind ≠ kindObject) (.inr hhome)
  have taken : ∀ {w : State}, (∀ bytes, dispatch p h rid (.index i) bytes v = w) → w.sweep = v.sweep → done w :=
    fun hd hsweep => by
      refine exec_takeFrame ha hw hf ?_ (hsweep.trans (sweep_heardAt ..))
      rw [judgeFrame_source (s := frameTaken p c rest s) hs (.inl hk),
        fromSource_learned (s := frameTaken p c rest s) hsrc hl hq hlearn]
      exact hd _
  refine ⟨fun hc => ?_, fun hc => ?_, fun hc => ?_, fun hc => ⟨?_, fun q => ?_⟩, fun hc => ⟨fun hlu => ?_,
    fun j d w hd hkind => ⟨fun hh => ?_, fun hh hquar => ?_, fun q hh hqp hquar => ⟨fun hside => ?_,
      fun hside => ⟨fun dk sk hdk hsk => ?_, fun hkeys => ?_⟩⟩⟩⟩⟩
  · exact taken (fun _ => by simp only [dispatch, hc, countAt]) (bump_sweep ..)
  · exact taken (fun _ => by simp only [dispatch, hc, countAt]) (bump_sweep ..)
  · exact taken (fun _ => dispatch_bridge hk hc) (bump_sweep ..)
  · exact taken (fun _ => dispatch_broadcast hk hc) (sweep_copies ..)
  · have hv : v.service = s.service := modStation_service ..
    rw [mem_broadcastPorts, hv]
  · exact taken (fun _ => dispatch_unknown hk hc hlu) ((sweep_logUnknown ..).trans (sweep_copies ..))
  · exact taken (fun _ => (dispatch_toStation hk hc hd hkind).trans (toStation_filtered hh)) (bump_sweep ..)
  · exact taken (fun _ => (dispatch_toStation hk hc hd hkind).trans (toStation_quarantined hh hquar))
      (bump_sweep ..)
  all_goals
    have hne : w.home ≠ some p := by
      rw [hh]
      simpa using hqp
    have hto : ∀ bytes, dispatch p h rid (.index i) bytes v =
        copyTo ⟨p, h, rid, .index i, d.keyOn p.side.other⟩ q v := fun _ =>
      (dispatch_toStation hk hc hd hkind).trans (toStation_home hne hquar hh)
  · exact taken (fun _ => (hto _).trans (copyTo_sameSide hside)) (sweep_offer ..)
  · rw [hside] at hdk
    exact taken (fun _ => (hto _).trans (copyTo_translated hside (trunkOnly_traffic hk) hdk hsk)) (sweep_offer ..)
  · rw [hside] at hkeys
    exact taken (fun _ => (hto _).trans (copyTo_untranslatable hside (trunkOnly_traffic hk) (by rw [hside]; exact hkeys)))
      (bump_sweep ..)

end Sys2Proof.Machine

/-! The second, window and minute expiries. -/

namespace Sys2Proof.Machine

/-! ### Tables filtered value by value -/

theorem Table.rising_filter {α : Type} {t : Table Nat α} (h : t.rising) (test : Nat × α → Bool) :
    Table.rising (t.filter test) :=
  List.Pairwise.filter _ h

theorem Table.find_filter {α : Type} {t : Table Nat α} (h : t.rising) (test : α → Bool) (k : Nat) :
    Table.find (t.filter fun e => test e.2) k = (t.find k).filter test := by
  cases hfind : t.find k with
  | none =>
    refine Table.find_none.2 fun e he => ?_
    exact Table.find_none.1 hfind e (List.mem_filter.1 he).1
  | some v =>
    cases htest : test v with
    | true =>
      rw [Table.find_of_mem (Table.rising_filter h _) (List.mem_filter.2 ⟨Table.mem_of_find hfind, htest⟩)]
      simp [Option.filter, htest]
    | false =>
      have hnone : Table.find (t.filter fun e => test e.2) k = none := by
        refine Table.find_none.2 fun e he hk => ?_
        obtain ⟨hmem, hpass⟩ := List.mem_filter.1 he
        subst hk
        rw [Table.find_of_mem h hmem] at hfind
        cases hfind
        rw [htest] at hpass
        cases hpass
      rw [hnone]
      simp [Option.filter, htest]

/-! ### The second expiry (R60, R109) -/

/-- One second of every entry. -/
def secondPassed (s : State) : State := { s with dir := s.dir.map fun e => (e.1, e.2.second) }

/-- A LEARNED station that the age limit removes. -/
def Entry.aged (c : Settings) (e : Entry) : Bool :=
  decide (c.ageLimit ≠ 0) && e.movable && decide (c.ageLimit * 60 ≤ e.quiet)

theorem ageSecond_find {s : State} (h : s.directoryOk) (i : Nat) : (ageSecond s).dir.find i =
    ((s.dir.find i).map Entry.second).filter fun e => !e.aged s.config := by
  have hok : (secondPassed s).directoryOk := directoryOk_second h
  have hfind : (secondPassed s).dir.find i = (s.dir.find i).map Entry.second := Table.find_mapValues ..
  rw [← hfind]
  by_cases hlimit : s.config.ageLimit = 0
  · have hall : (fun e : Entry => !e.aged s.config) = fun _ => true := by
      funext e
      simp [Entry.aged, hlimit]
    have hage : ageSecond s = secondPassed s := if_pos hlimit
    rw [hage, hall]
    cases (secondPassed s).dir.find i <;> rfl
  · have htest : (fun e : Entry => e.movable && decide (s.config.ageLimit * 60 ≤ e.quiet)) =
        fun e => e.aged s.config := by
      funext e
      simp [Entry.aged, hlimit]
    have hage : ageSecond s = removeAll .agedOut ((secondPassed s).indexesOf fun e => e.aged s.config)
        (secondPassed s) := by
      rw [← htest]
      exact if_neg hlimit
    rw [hage]
    exact removeAll_indexesOf hok .agedOut (by simp [Entry.aged, Entry.movable, Entry.bridgeEntry]) i

/-- An ARRIVING job at the arrival timeout. -/
def Job.timedOut (c : Settings) (j : Job) : Bool :=
  decide (j.state = .arriving) && decide (c.arrivalTimeout ≤ j.quiet)

/-- The ARRIVING jobs at the arrival timeout are gone, in every slot (R109). -/
theorem arrivalSecond_find {s : State} (h : s.jobs.rising) (slot : Nat) : (arrivalSecond s).jobs.find slot =
    ((s.jobs.find slot).map Job.quietSecond).filter fun j => !j.timedOut s.config := by
  let u : State := { s with jobs := s.jobs.map fun e => (e.1, e.2.quietSecond) }
  have hr : u.jobs.rising := Table.rising_mapValues h _
  have hjobs : (arrivalSecond s).jobs = u.jobs.filter fun d => !d.2.timedOut s.config := by
    refine (abortWhere_jobs _ _ _ hr).trans (List.filter_congr fun d hd => ?_)
    have hslot : (u.jobs.map Prod.fst).contains d.1 = true := by simpa using ⟨d.2, hd⟩
    rw [hslot, Bool.true_and]
    rfl
  rw [hjobs, ← Table.find_mapValues]
  exact Table.find_filter hr (fun j => !j.timedOut s.config) slot

theorem arrivalSecond_dir (s : State) : (arrivalSecond s).dir = s.dir := (ends_abortWhere _ _ _ _).dir

/-! ### The station at one position changed -/

/-- From `s` to `u` the station at a position becomes `t`; the others and the configuration stand. -/
structure StationSet (i : Nat) (t : Station) (s u : State) : Prop where
  config : u.config = s.config
  here : u.station i = some t
  others : ∀ j, j ≠ i → u.station j = s.station j

theorem StationSet.refl {i : Nat} {t : Station} {s : State} (h : s.station i = some t) : StationSet i t s s :=
  ⟨rfl, h, fun _ _ => rfl⟩

theorem station_modStation_other {i j : Nat} (hj : j ≠ i) (f : Station → Station) (s : State) :
    (modStation i f s).station j = s.station j := by
  have hput : ∀ e, (putEntry i e s).dir.find j = s.dir.find j := fun e => by
    unfold putEntry
    split
    · rfl
    · exact (Table.find_put ..).trans (if_neg (Ne.symm hj))
  unfold modStation
  split
  · simp only [State.station, hput]
  · rfl

section
variable {i : Nat} {t : Station} {s u : State} (h : StationSet i t s u)
include h

theorem StationSet.modStation (hi : i ≠ 0) {f : Station → Station} {t' : Station} (hf : f t = t') :
    StationSet i t' s (Machine.modStation i f u) where
  config := (modStation_config ..).trans h.config
  here := hf ▸ station_modStation hi h.here f
  others j hj := (station_modStation_other hj f u).trans (h.others j hj)

theorem StationSet.frames {v : State} (k : sameButFrames u v) : StationSet i t s v := by
  obtain ⟨-, -, -, -, -, -, -, -, -, -, -, hdir, -⟩ := sameButFrames_fields k
  exact ⟨(config_of_same k).trans h.config, (station_of_dir hdir i).trans h.here,
    fun j hj => (station_of_dir hdir j).trans (h.others j hj)⟩

end

/-! ### Work at each station (R145, R155) -/

/-- Work at a directory position that changes the station there as the configuration says, and nothing where
none is. -/
structure WorksAt (f : Nat → State → State) (g : Settings → Station → Station) : Prop where
  none : ∀ {i s}, s.station i = none → f i s = s
  some : ∀ {i s t}, i ≠ 0 → s.station i = some t → StationSet i (g s.config t) s (f i s)

theorem WorksAt.station {f : Nat → State → State} {g : Settings → Station → Station} (hf : WorksAt f g) {s : State}
    (h0 : s.station 0 = .none) (i : Nat) : (f i s).config = s.config ∧
      ∀ j, (f i s).station j = if j = i then (s.station j).map (g s.config) else s.station j := by
  cases h : s.station i with
  | none =>
    rw [hf.none h]
    refine ⟨rfl, fun j => ?_⟩
    split
    · next hj =>
      rw [hj, h]
      rfl
    · rfl
  | some t =>
    have hi : i ≠ 0 := by
      rintro rfl
      rw [h0] at h
      cases h
    have hset := hf.some hi h
    refine ⟨hset.config, fun j => ?_⟩
    split
    · next hj =>
      rw [hj, hset.here, h]
      rfl
    · next hj => exact hset.others j hj

theorem atEach_station {f : Nat → State → State} {g : Settings → Station → Station} (hf : WorksAt f g) :
    ∀ (is : List Nat) (s : State), is.Nodup → s.station 0 = none → (atEach f is s).config = s.config ∧
      ∀ j, (atEach f is s).station j = if j ∈ is then (s.station j).map (g s.config) else s.station j
  | [], s, _, _ => by simp [atEach]
  | i :: is, s, hn, h0 => by
    obtain ⟨hi, hn⟩ := List.nodup_cons.1 hn
    obtain ⟨hconfig, hstation⟩ := hf.station h0 i
    have h0' : (f i s).station 0 = none := by
      rw [hstation, h0]
      exact ite_self _
    obtain ⟨ihc, ihs⟩ := atEach_station hf is (f i s) hn h0'
    refine ⟨ihc.trans hconfig, fun j => (ihs j).trans ?_⟩
    rw [hconfig, hstation]
    by_cases hj : j = i
    · subst hj
      simp [hi]
    · simp [hj]

section
variable {s : State} (h : s.directoryOk)
include h

theorem indices_nodup : s.indices.Nodup := List.pairwise_map.2 (h.1.imp fun hlt => Nat.ne_of_lt hlt)

theorem station_zero : s.station 0 = none := by
  obtain ⟨-, hz, -⟩ := h
  simp only [State.station, hz]
  rfl

/-- Work at every position in use reaches every station. -/
theorem atEach_indices {f : Nat → State → State} {g : Settings → Station → Station} (hf : WorksAt f g) :
    (atEach f s.indices s).config = s.config ∧
      ∀ i w, s.station i = some w → (atEach f s.indices s).station i = some (g s.config w) := by
  obtain ⟨hconfig, hstation⟩ := atEach_station hf s.indices s (indices_nodup h) (station_zero h)
  refine ⟨hconfig, fun i w hw => ?_⟩
  obtain ⟨o, n, a, hfind⟩ := station_iff.1 hw
  have hmem : i ∈ s.indices := List.mem_map.2 ⟨_, Table.mem_of_find hfind, rfl⟩
  rw [hstation, if_pos hmem, hw]
  rfl

end

/-! ### The window and minute expiries (R145, R152, R155) -/

/-- A station at the end of a window: judged on its closing tally, which returns to 0 (R152). -/
def Station.windowed (c : Settings) (t : Station) : Station :=
  { t with
    tally := 0
    standing :=
      if t.standing = .suspect ∧ t.tally < c.suspectThreshold then .good
      else if t.standing = .probation ∧ t.tally = 0 then .good
      else t.standing }

theorem worksAt_windowStation : WorksAt windowStation Station.windowed where
  none h := by simp only [windowStation, h]
  some {i s t} hi h := by
    simp only [windowStation, h, Station.windowed]
    have here : StationSet i t s s := .refl h
    split
    · exact ((here.modStation hi rfl).frames (bump_same ..)).modStation hi rfl
    · split
      · exact ((here.modStation hi rfl).frames
          (sameButFrames_trans (raise_same ..) (bump_same ..))).modStation hi rfl
      · exact here.modStation hi rfl

/-- A station after a minute: a QUARANTINED one has one minute less, and is on PROBATION at none (R155). -/
def Station.minute (t : Station) : Station :=
  if t.standing = .quarantined ∧ 0 < t.minutes then
    { t with
      minutes := t.minutes - 1
      standing := if t.minutes = 1 then .probation else .quarantined }
  else t

theorem worksAt_minuteStation : WorksAt minuteStation fun _ => Station.minute where
  none h := by simp only [minuteStation, h]
  some {i s t} hi h := by
    simp only [minuteStation, h, Station.minute]
    have here : StationSet i t s s := .refl h
    split
    · next hq =>
      obtain ⟨hstanding, -⟩ := hq
      split
      · next hlast =>
        rw [hlast]
        refine StationSet.frames ?_ (bump_same ..)
        exact here.modStation hi rfl
      · rw [← hstanding]
        exact here.modStation hi rfl
    · exact here

/-- Settles O33: the directory and the jobs at a second, and every station at a window's end and a minute's. -/
theorem expiriesGoOverTheTables : Obligations.ExpiriesGoOverTheTables := by
  refine ⟨fun s ha => ⟨fun h => ⟨ageSecond s, ?_, ageSecond_find h⟩,
    fun h => ⟨arrivalSecond s, ?_, arrivalSecond_dir s, arrivalSecond_find h.1⟩⟩,
    fun s ha h => ⟨fun hrun => ⟨windowExpiry s, ?_, ?_, fun x => ?_, fun l => ?_, fun p => ?_, ?_⟩,
      atEach minuteStation s.indices s, ?_, (atEach_indices h worksAt_minuteStation).2⟩⟩
  · exact congrArg Host.Outcome.next (whenActive_of_active _ ha)
  · exact congrArg Host.Outcome.next (whenActive_of_active _ ha)
  · refine congrArg Host.Outcome.next ((whenActive_of_active _ ha).trans ?_)
    exact if_pos hrun
  · show (⟨true, 0, (atEach windowStation s.indices s).config.windowLength⟩ : Window) = _
    rw [(atEach_indices h worksAt_windowStation).1]
  · cases x <;> rfl
  · cases l <;> rfl
  · rcases p with x | l
    · cases x <;> rfl
    · cases l <;> rfl
  · exact (atEach_indices h worksAt_windowStation).2
  · exact congrArg Host.Outcome.next (whenActive_of_active _ ha)

end Sys2Proof.Machine

/-! The saved start image reads back: its bytes, its configuration, its entries. -/

namespace Sys2Proof.Machine

/-! ### Fields of a list of bytes (R202) -/

theorem byteAt_append_right (xs ys : List Byte) (k : Nat) : byteAt (xs ++ ys) (xs.length + k) = byteAt ys k := by
  simp only [byteAt, List.getD_eq_getElem?_getD, List.getElem?_append_right (Nat.le_add_right ..),
    Nat.add_sub_cancel_left]

theorem wordAt_append_right (side : Side) (xs ys : List Byte) (k : Nat) :
    wordAt side (xs ++ ys) (xs.length + k) = wordAt side ys k := by
  simp only [wordAt, Nat.add_assoc, byteAt_append_right]

theorem wordAt_word (side : Side) {v : Nat} (h : v < 65536) (rest : List Byte) :
    wordAt side (side.word v ++ rest) 0 = v := by
  obtain ⟨b, c, hw, hr⟩ := readWord_word side h
  rw [hw]
  exact hr

theorem length_word (side : Side) (v : Nat) : (side.word v).length = 2 := by cases side <;> rfl

theorem length_words (side : Side) (ws : List Nat) : (ws.flatMap side.word).length = 2 * ws.length := by
  induction ws with
  | nil => rfl
  | cons w ws ih =>
    simp only [List.flatMap_cons, List.length_append, length_word, ih, List.length_cons]
    omega

/-- The words of a list of two-byte fields, by their places. -/
theorem wordAt_words (side : Side) (rest : List Byte) : ∀ {ws : List Nat} {j v : Nat}, ws[j]? = some v →
    v < 65536 → wordAt side (ws.flatMap side.word ++ rest) (2 * j) = v
  | w :: ws, 0, v, h, hv => by
    cases h
    rw [List.flatMap_cons, List.append_assoc]
    exact wordAt_word side hv _
  | w :: ws, j + 1, v, h, hv => by
    have hj : 2 * (j + 1) = (side.word w).length + 2 * j := by
      rw [length_word]
      omega
    rw [List.flatMap_cons, List.append_assoc, hj, wordAt_append_right]
    exact wordAt_words side rest h hv

/-! ### The image's length (R203) -/

theorem length_stepRecords (side : Side) : ∀ (k : Nat) (ts : List SweepStep),
    (stepRecords side k ts).length = 10 * ts.length
  | _, [] => rfl
  | k, t :: ts => by
    have hone : (stepRecord side k t).length = 10 := by simp [stepRecord, length_word]
    rw [stepRecords, List.length_append, hone, length_stepRecords side (k + 1) ts, List.length_cons]
    omega

theorem length_entryRecord (side : Side) (i : Nat) (e : Entry) : (entryRecord side i e).length = 16 := by
  unfold entryRecord
  dsimp only
  split <;> simp [length_word]

theorem length_entryRecords (side : Side) (es : List (Nat × Entry)) :
    (es.flatMap fun e => entryRecord side e.1 e.2.saved).length = 16 * es.length := by
  induction es with
  | nil => rfl
  | cons e es ih =>
    simp only [List.flatMap_cons, List.length_append, length_entryRecord, ih, List.length_cons]
    omega

/-- The values of the two-byte parameters in code order. -/
def Settings.words (c : Settings) : List Nat :=
  [1, 2, 3, 4, 5, 6, 7, 8].map c.param ++ Port.all.map c.quota.get ++
    [10, 11, 12, 13, 14, 15, 16, 17, 18, 19, 20, 21].map c.param

theorem configBytes_eq (side : Side) (c : Settings) :
    configBytes side c = c.words.flatMap side.word ++ noticeBytes side c.notice := by
  simp only [configBytes, Settings.words, List.flatMap_append, List.flatMap_map]

theorem length_configBytes (side : Side) (c : Settings) : (configBytes side c).length = 55 := by
  rw [configBytes_eq, List.length_append, length_words]
  cases c.notice <;> simp only [noticeBytes, List.length_append, length_word] <;> rfl

theorem length_imageBody {s : State} (hsteps : s.sweep.steps.length ≤ 32) :
    s.imageBody.length = 402 + 16 * s.savedEntries.length := by
  simp only [State.imageBody, List.length_append, length_word, length_configBytes, length_stepRecords,
    length_entryRecords, zeros, List.length_replicate, List.length_map, LineState.savedBytes, List.length_cons,
    List.length_nil]
  have hports : Port.all.length = 6 := rfl
  omega

/-! ### The image reads back (R194, R195, R203) -/

theorem slice_take (m : List Host.Cell) (a : Nat) {k n : Nat} (h : k ≤ n) :
    (Memory.slice m a n).take k = Memory.slice m a k := by
  simp only [Memory.slice, ← List.map_take, List.take_range, Nat.min_eq_left h]

/-- The image's own fields, as a reading of it finds them: the count of its entries, and the check word. -/
theorem image_fields (s : State) (h : s.savedEntries.length ≤ 255) :
    wordAt .trunk (s.image.take 4) 2 = s.savedEntries.length ∧
      wordAt .trunk s.image 0 = (crc16 (s.image.drop 2)).toNat := by
  have hcrc := (crc16 s.imageBody).isLt
  obtain ⟨rest, hbody⟩ : ∃ rest, s.imageBody = Side.trunk.word s.savedEntries.length ++ rest := by
    simp only [State.imageBody, List.append_assoc]
    exact ⟨_, rfl⟩
  refine ⟨?_, wordAt_word .trunk hcrc _⟩
  have htake : s.image.take 4 = Side.trunk.word (crc16 s.imageBody).toNat ++
      (Side.trunk.word s.savedEntries.length ++ []) := by
    rw [State.image, hbody]
    rfl
  rw [htake]
  exact (wordAt_append_right .trunk (Side.trunk.word _) _ 0).trans (wordAt_word .trunk (by omega) [])

theorem readImage_overwrite (m : List Host.Cell) {s : State} (h : s.savedEntries.length ≤ 255)
    (hsteps : s.sweep.steps.length ≤ 32) : readImage (Memory.overwrite m s.image) = some s.image := by
  obtain ⟨hcount, hcheck⟩ := image_fields s h
  have hlen : s.image.length = 0x194 + 16 * s.savedEntries.length := by
    rw [State.image, List.length_append, length_word, length_imageBody hsteps]
    omega
  have hfits : s.image.length ≤ Config.serialBytes := by
    rw [hlen]
    simp only [Config.serialBytes]
    omega
  have hslice := Memory.slice_overwrite m s.image hfits
  have hhead : Memory.slice (Memory.overwrite m s.image) 0 4 = s.image.take 4 := by
    rw [← slice_take _ 0 (n := s.image.length) (by omega), hslice]
  rw [readImage, hhead, hcount]
  dsimp only
  rw [if_neg (by omega), ← hlen, hslice, if_pos hcheck]

/-! ### The configuration reads back (R189, R203) -/

theorem paramInRange_lt {code v : Nat} (h : paramInRange code v = true) : v < 65536 := by
  unfold paramInRange at h
  split at h
  case h_22 => cases h
  all_goals
    rw [within_iff] at h
    omega

section
variable {c : Settings} (hc : c.ok) (rest : List Byte)
include hc

/-- Plain parameters whose places hold those of `c` are put in force with nothing replaced. -/
theorem loadParams_words : ∀ {l : List (Nat × Nat)} (a : Settings) (bad : Bool),
    (∀ e ∈ l, within 1 21 e.1 = true ∧ e.1 ≠ 9 ∧ e.2 = 2 * (e.2 / 2)) →
    l.map (fun e => c.words[e.2 / 2]?) = l.map (fun e => some (c.param e.1)) →
    loadParams (c.words.flatMap Side.trunk.word ++ rest) l (a, bad) =
      (l.foldl (fun a e => a.put e.1 (c.param e.1)) a, bad)
  | [], _, _, _, _ => rfl
  | (code, offset) :: l, a, bad, hl, hw => by
    obtain ⟨⟨hcode, hplain, heven⟩, hl⟩ := List.forall_mem_cons.1 hl
    obtain ⟨hword, hw⟩ := List.cons.inj hw
    have hrange : paramInRange code (c.param code) = true := hc.1 code hcode hplain
    have hread := wordAt_words .trunk rest hword (paramInRange_lt hrange)
    rw [← heven] at hread
    rw [loadParams, hread, if_pos hrange, loadParams_words _ _ hl hw]
    rfl

theorem loadQuotas_words : ∀ {l : List (Port × Nat)} (a : Settings) (bad : Bool),
    (∀ e ∈ l, e.2 = 2 * (e.2 / 2)) →
    l.map (fun e => c.words[e.2 / 2]?) = l.map (fun e => some (c.quota.get e.1)) →
    loadQuotas (c.words.flatMap Side.trunk.word ++ rest) l (a, bad) =
      (l.foldl (fun a e => { a with quota := a.quota.set e.1 (c.quota.get e.1) }) a, bad)
  | [], _, _, _, _ => rfl
  | (p, offset) :: l, a, bad, hl, hw => by
    obtain ⟨heven, hl⟩ := List.forall_mem_cons.1 hl
    obtain ⟨hword, hw⟩ := List.cons.inj hw
    have hrange : paramInRange 9 (c.quota.get p) = true := hc.2.1 p
    have hread := wordAt_words .trunk rest hword (paramInRange_lt hrange)
    rw [← heven] at hread
    rw [loadQuotas, hread, if_pos hrange, loadQuotas_words _ _ hl hw]
    rfl

end

theorem isStation_node (n : Node) : (Key.node n).isStation = true ↔ 1 ≤ n.toNat ∧ n.toNat ≤ 253 := by
  have := n.isLt
  simp only [Key.isStation, Key.class]
  grind

theorem isStation_address (a : Address) : (Key.address a).isStation = true ↔ 1 ≤ a.toNat ∧ a.toNat ≤ 0xFFEF := by
  have := a.isLt
  simp only [Key.isStation, Key.class]
  grind

theorem noticeOf_side (k : Key) (hk : k.isStation = true) : noticeOf k.side.code k.value = some (some k) := by
  cases k with
  | node n =>
    show (if within 1 253 n.toNat then some (some (Side.trunk.key n.toNat)) else none) = _
    rw [if_pos (within_iff.2 ((isStation_node n).1 hk)), Side.key, BitVec.ofNat_toNat, BitVec.setWidth_eq]
  | address a =>
    show (if within 1 0xFFEF a.toNat then some (some (Side.pair.key a.toNat)) else none) = _
    rw [if_pos (within_iff.2 ((isStation_address a).1 hk)), Side.key, BitVec.ofNat_toNat, BitVec.setWidth_eq]

/-- The notice destination written is the one read, at whatever place of the bytes (R189, R200). -/
theorem noticeOf_noticeBytes (xs ys : List Byte) {k : Option Key} (hk : ∀ j, k = some j → j.isStation = true) :
    noticeOf (byteAt (xs ++ (noticeBytes .trunk k ++ ys)) (xs.length + 0))
      (wordAt .trunk (xs ++ (noticeBytes .trunk k ++ ys)) (xs.length + 1)) = some k := by
  rw [byteAt_append_right, wordAt_append_right]
  cases k with
  | none => rfl
  | some j =>
    have hword : wordAt .trunk (noticeBytes .trunk (some j) ++ ys) 1 = j.value := by
      have hlt : j.value < 65536 := by
        cases j with
        | node n =>
          have := n.isLt
          simp only [Key.value]
          omega
        | address a => exact a.isLt
      exact (wordAt_append_right .trunk [j.side.code] _ 0).trans (wordAt_word .trunk hlt ys)
    rw [hword]
    exact noticeOf_side j (hk j rfl)

/-- The parameters, put in force one by one over any others, are those of `c`. -/
theorem settings_of_parts (c a : Settings) : { [10, 11, 12, 13, 14, 15, 16, 17, 18, 19, 20, 21].foldl
      (fun a k => a.put k (c.param k))
      (Port.all.foldl (fun a p => { a with quota := a.quota.set p (c.quota.get p) })
        ([1, 2, 3, 4, 5, 6, 7, 8].foldl (fun a k => a.put k (c.param k)) a)) with notice := c.notice } = c := by
  have hprint : decide ((if c.learnedMayPrint then 1 else 0) = 1) = c.learnedMayPrint := by
    cases c.learnedMayPrint <;> rfl
  simp only [List.foldl, Settings.put, Settings.param, hprint]
  rfl

/-- The bytes of a configuration in range are read as that configuration, with nothing replaced. -/
theorem loadConfig_configBytes {c : Settings} (h : c.ok) :
    loadConfig (configBytes .trunk c ++ zeros (64 - (configBytes .trunk c).length)) = (c, false) := by
  obtain ⟨rest, hrest⟩ : ∃ rest, rest = noticeBytes .trunk c.notice ++ zeros 9 := ⟨_, rfl⟩
  have hbs : configBytes .trunk c ++ zeros (64 - (configBytes .trunk c).length) =
      c.words.flatMap Side.trunk.word ++ rest := by
    rw [length_configBytes, configBytes_eq, List.append_assoc, hrest]
  have hlen : (c.words.flatMap Side.trunk.word).length = 52 := length_words ..
  have hnotice := noticeOf_noticeBytes (c.words.flatMap Side.trunk.word) (zeros 9) h.2.2
  rw [← hrest, hlen] at hnotice
  have hzero : ((c.words.flatMap Side.trunk.word ++ rest).drop 55).any (· ≠ 0) = false := by
    have hsplit : c.words.flatMap Side.trunk.word ++ rest = configBytes .trunk c ++ zeros 9 := by
      rw [← hbs, length_configBytes]
    rw [hsplit, List.drop_left' (length_configBytes ..)]
    rfl
  rw [hbs, loadConfig, loadParams_words h rest _ _ (by decide) rfl, loadQuotas_words h rest _ _ (by decide) rfl]
  dsimp only
  rw [loadParams_words h rest _ _ (by decide) rfl]
  dsimp only
  rw [hnotice, hzero]
  exact congrArg (·, false) (settings_of_parts c .default)

/-! ### The entries read back (R78, R201, R203) -/

theorem ofCode_code (p : Port) : Port.ofCode p.code = some p := by
  rcases p with x | l
  · cases x <;> rfl
  · cases l <;> rfl

theorem editHome_homeCode (home : Option Port) : editHome (homeCode home) = some home := by
  cases home with
  | none => rfl
  | some p =>
    have hne : p.code ≠ 0xFF := by
      rcases p with x | l
      · cases x <;> decide
      · cases l <;> decide
    rw [homeCode, editHome, if_neg hne, ofCode_code]
    rfl

theorem target_ofCode_code (t : Target) : Target.ofCode t.code = some t := by
  rcases t with n | _
  · cases n <;> rfl
  · rfl

theorem levelOf_byteOf (l : Fin 4) : levelOf (byteOf l.val) = some l := by
  revert l
  decide

theorem editNode_trunkByte {n : Option Node} (h : ∀ m, n = some m → (Key.node m).isStation = true) :
    editNode (trunkByte n) = n := by
  cases n with
  | none => rfl
  | some m =>
    refine if_neg ?_
    rintro rfl
    exact absurd ((isStation_node 0).1 (h 0 rfl)).1 (by decide)

theorem editAddress_getD {a : Option Address} (h : ∀ m, a = some m → (Key.address m).isStation = true) :
    editAddress (a.getD 0) = a := by
  cases a with
  | none => rfl
  | some m =>
    refine if_neg ?_
    rintro rfl
    exact absurd ((isStation_address 0).1 (h 0 rfl)).1 (by decide)

/-- The rights byte of an entry record holds the three rights in its bits (R201). -/
theorem rightsByte_bits (pinned manager print : Bool) :
    let b : Byte := yesNo pinned + 2 * yesNo manager + 4 * yesNo print
    b.toNat < 8 ∧ b.getLsbD 0 = pinned ∧ b.getLsbD 1 = manager ∧ b.getLsbD 2 = print := by
  revert pinned manager print
  decide

/-- The keys of an entry whose keys are in range, read from their bytes of its record. -/
theorem keys_of_record {e : Entry} (hr : ∀ k ∈ e.keys, k.isStation = true) :
    editNode (trunkByte e.trunk) = e.trunk ∧ editAddress (e.office.getD 0) = e.office ∧
      givenKeys (trunkByte e.trunk) (e.office.getD 0) = e.keys := by
  have hn : editNode (trunkByte e.trunk) = e.trunk := editNode_trunkByte fun m hm =>
    hr _ (by simp [Entry.keys, Entry.keyOn, hm])
  have ha : editAddress (e.office.getD 0) = e.office := editAddress_getD fun m hm =>
    hr _ (by simp [Entry.keys, Entry.keyOn, hm])
  refine ⟨hn, ha, ?_⟩
  rw [givenKeys, hn, ha]
  rfl

/-- An entry record: index, kind and origin STATIC, the keys' bytes, and ten bytes of the kind's own (R201). -/
def recordOf (i : Nat) (e : Entry) (kind : Byte) (own : List Byte) : List Byte :=
  [byteOf i, kind, 2] ++ ([trunkByte e.trunk] ++ Side.trunk.word (e.office.getD 0).toNat) ++ own

theorem recordOf_fields {i : Nat} (hi : i ≤ 255) (e : Entry) (kind : Byte) (own : List Byte) :
    (byteAt (recordOf i e kind own) 0).toNat = i ∧ byteAt (recordOf i e kind own) 1 = kind ∧
      byteAt (recordOf i e kind own) 2 = 2 ∧ byteAt (recordOf i e kind own) 3 = trunkByte e.trunk ∧
      BitVec.ofNat 16 (wordAt .trunk (recordOf i e kind own) 4) = e.office.getD 0 ∧
      (∀ k, byteAt (recordOf i e kind own) (6 + k) = byteAt own k) ∧
      (recordOf i e kind own).drop 10 = own.drop 4 := by
  refine ⟨?_, rfl, rfl, rfl, ?_, byteAt_append_right (recordOf i e kind []) own, rfl⟩
  · show (byteOf i).toNat = i
    simp only [byteOf, BitVec.toNat_ofNat]
    omega
  · have hword : wordAt .trunk (recordOf i e kind own) 4 = (e.office.getD 0).toNat :=
      (wordAt_append_right .trunk [byteOf i, kind, 2, trunkByte e.trunk] _ 0).trans
        (wordAt_word .trunk (e.office.getD 0).isLt own)
    rw [hword, BitVec.ofNat_toNat, BitVec.setWidth_eq]

section
variable {i : Nat} {e : Entry} (hlo : 1 ≤ i) (hhi : i ≤ 255) (hks : e.keys ≠ [])
  (hr : ∀ k ∈ e.keys, k.isStation = true)
include hlo hhi hks hr

/-- The tests of a record that its kind has no part in are passed by one written of keys in range. -/
theorem recordOf_tests (kind : Byte) {own : List Byte} (hown : (own.drop 4).any (· ≠ 0) = false) :
    let r := recordOf i e kind own
    ¬ (byteAt r 0 = 0 ∨ byteAt r 2 ≠ 2 ∨
      givenKeys (byteAt r 3) (BitVec.ofNat 16 (wordAt .trunk r 4)) = [] ∨
      keysInRange (givenKeys (byteAt r 3) (BitVec.ofNat 16 (wordAt .trunk r 4))) = false ∨
      (r.drop 10).any (· ≠ 0) = true) := by
  obtain ⟨hindex, -, horigin, hnode, haddress, -, hdrop⟩ := recordOf_fields hhi e kind own
  obtain ⟨-, -, hgiven⟩ := keys_of_record hr
  have hrange : keysInRange e.keys = true := List.all_eq_true.2 hr
  intro r
  rw [horigin, hnode, haddress, hgiven, hdrop, hrange, hown]
  rintro (h0 | h | h | h | h)
  · rw [h0] at hindex
    change 0 = i at hindex
    omega
  · exact h rfl
  · exact hks h
  · cases h
  · cases h

theorem loadEntry_station {t : Station} (hk : e.kind = .station t) (ho : e.origin = .static)
    (hp : t.pinned = true → t.home ≠ none) (hh : ∀ p, t.home = some p → ∃ k ∈ e.keys, k.side = p.side) :
    loadEntry (entryRecord .trunk i e.saved) = some (i, e.saved) := by
  let own : List Byte := [homeCode t.home, yesNo t.pinned + 2 * yesNo t.manager + 4 * yesNo t.print,
    0, 0, 0, 0, 0, 0, 0, 0]
  have hsaved : e.saved = ⟨.static, e.trunk, e.office,
      .station { t with standing := .good, tally := 0, quiet := 0, minutes := 0 }⟩ := by
    rw [Entry.saved, hk, ← ho]
  have hrecord : entryRecord .trunk i e.saved = recordOf i e 1 own := by
    rw [hsaved]
    simp only [entryRecord, recordOf, own, Side.word]
    rfl
  have htests := recordOf_tests hlo hhi hks hr 1 (own := own) rfl
  obtain ⟨hindex, hkind, -, hnode, haddress, hbytes, -⟩ := recordOf_fields hhi e 1 own
  obtain ⟨hn, ha, hgiven⟩ := keys_of_record hr
  obtain ⟨hb, hpin, hman, hpr⟩ := rightsByte_bits t.pinned t.manager t.print
  have hbits : ¬ (t.home.any (fun p => !homeAllowed e.keys p) = true ∨
      8 ≤ (yesNo t.pinned + 2 * yesNo t.manager + 4 * yesNo t.print : Byte).toNat ∨
      (t.pinned = true ∧ t.home = none) ∨ (0 : Byte) ≠ 0 ∨ (0 : Byte) ≠ 0) := by
    rintro (h | h | ⟨hpinned, hnone⟩ | h | h)
    · obtain ⟨p, hp, hbad⟩ := (Option.any_eq_true ..).1 h
      obtain ⟨k, hk, hside⟩ := hh p hp
      have hallowed : homeAllowed e.keys p = true := List.any_eq_true.2 ⟨k, hk, by simpa using hside⟩
      rw [hallowed] at hbad
      cases hbad
    · omega
    · exact hp hpinned hnone
    · exact h rfl
    · exact h rfl
  have h6 : byteAt (recordOf i e 1 own) 6 = homeCode t.home := hbytes 0
  have h7 : byteAt (recordOf i e 1 own) 7 = yesNo t.pinned + 2 * yesNo t.manager + 4 * yesNo t.print := hbytes 1
  have h8 : byteAt (recordOf i e 1 own) 8 = 0 := hbytes 2
  have h9 : byteAt (recordOf i e 1 own) 9 = 0 := hbytes 3
  rw [hrecord]
  unfold loadEntry
  dsimp only
  rw [if_neg htests, hkind, if_pos rfl, h6, editHome_homeCode]
  dsimp only
  rw [hnode, haddress, hgiven, h7, h8, h9, hpin, hman, hpr, if_neg hbits, hn, ha, hindex, hsaved]

theorem loadEntry_printer {x : Target} {y : Fin 4} (hk : e.kind = .printer x y) (ho : e.origin = .static) :
    loadEntry (entryRecord .trunk i e.saved) = some (i, e.saved) := by
  let own : List Byte := [0, 0, x.code, byteOf y.val, 0, 0, 0, 0, 0, 0]
  have hsaved : e.saved = ⟨.static, e.trunk, e.office, .printer x y⟩ := by
    simp only [Entry.saved, hk, ← ho]
    rw [← hk]
  have hrecord : entryRecord .trunk i e.saved = recordOf i e 2 own := by
    rw [hsaved]
    rfl
  have htests := recordOf_tests hlo hhi hks hr 2 (own := own) rfl
  obtain ⟨hindex, hkind, -, hnode, haddress, hbytes, -⟩ := recordOf_fields hhi e 2 own
  obtain ⟨hn, ha, -⟩ := keys_of_record hr
  have h6 : byteAt (recordOf i e 2 own) 6 = 0 := hbytes 0
  have h7 : byteAt (recordOf i e 2 own) 7 = 0 := hbytes 1
  have h8 : byteAt (recordOf i e 2 own) 8 = x.code := hbytes 2
  have h9 : byteAt (recordOf i e 2 own) 9 = byteOf y.val := hbytes 3
  rw [hrecord]
  unfold loadEntry
  dsimp only
  rw [if_neg htests, hkind, if_neg (by decide), h6, h7, if_pos ⟨rfl, rfl, rfl⟩, h8, h9, target_ofCode_code,
    levelOf_byteOf]
  dsimp only
  rw [hnode, haddress, hn, ha, hindex, hsaved]

end

/-- Settles O5: the image's bytes, the configuration's bytes, and an entry's record by its kind. -/
theorem savedImageReadsBack : Obligations.SavedImageReadsBack := by
  refine ⟨fun s m h hsteps => ?_, fun c h => loadConfig_configBytes h,
    fun i e hlo hhi ho hb hks hr ht => ?_⟩
  · cases m with
    | bytes m =>
      rw [Serial.written, Serial.image]
      exact readImage_overwrite m h hsteps
    | failedSave =>
      rw [Serial.written, Serial.image]
      exact readImage_overwrite [] h hsteps
  · cases hk : e.kind with
    | station t => exact loadEntry_station hlo hhi hks hr hk ho (ht t hk).1 (ht t hk).2
    | printer x y => exact loadEntry_printer hlo hhi hks hr hk ho
    | bridge => exact absurd hk hb

end Sys2Proof.Machine

/-! SET-STATION and SET-ALIAS: the index written, the entries taken over, the fault state inherited. -/

namespace Sys2Proof.Machine

/-! ### The entries an edit's keys are held by (R63, R65) -/

section
variable {s : State} {ks : List Key} {target : Option Nat}

theorem holdsOther_eq_false {d : Nat × Entry} (h : some d.1 ≠ target → ∀ k ∈ ks, d.2.holds k = false) :
    holdsOther ks target d = false := by
  rw [Bool.eq_false_iff]
  intro ht
  simp only [holdsOther, Bool.and_eq_true, decide_eq_true_eq, List.any_eq_true] at ht
  obtain ⟨hne, k, hk, hheld⟩ := ht
  rw [h hne k hk] at hheld
  cases hheld

/-- Keys that no other entry holds conflict with none, and take over none. -/
theorem unheld_keys (h : ∀ d ∈ s.dir, some d.1 ≠ target → ∀ k ∈ ks, d.2.holds k = false) :
    s.keyConflict ks target = false ∧ s.takenOver ks target = [] := by
  have hfalse : ∀ d ∈ s.dir, holdsOther ks target d = false := fun d hd => holdsOther_eq_false (h d hd)
  refine ⟨List.any_eq_false.2 fun d hd => by simp [hfalse d hd], ?_⟩
  rw [State.takenOver, List.filter_eq_nil_iff.2 fun d hd => by simp [hfalse d hd]]
  rfl

/-- A table's entries with a property that one alone has. -/
theorem Table.filter_eq_singleton {α : Type} {t : Table Nat α} (hr : t.rising) {test : Nat × α → Bool} {k : Nat}
    {v : α} (hfind : t.find k = some v) (htest : test (k, v) = true)
    (hothers : ∀ e ∈ t, e.1 ≠ k → test e = false) : t.filter test = [(k, v)] := by
  induction t with
  | nil => cases hfind
  | cons e t ih =>
    obtain ⟨i, w⟩ := e
    obtain ⟨hlt, hr⟩ := List.pairwise_cons.1 hr
    obtain ⟨hhead, htail⟩ := List.forall_mem_cons.1 hothers
    rw [Table.find] at hfind
    split at hfind
    · next hi =>
      cases hfind
      subst hi
      rw [List.filter_cons_of_pos htest, List.filter_eq_nil_iff.2 fun e he => ?_]
      rw [htail e he (Nat.ne_of_gt (hlt e he))]
      decide
    · next hi =>
      rw [List.filter_cons_of_neg (by rw [hhead hi]; decide)]
      exact ih hr hfind htail

/-- Keys that one LEARNED entry alone holds conflict with none, and take it over (R65). -/
theorem learned_keys (hr : s.dir.rising) {j : Nat} {d : Entry} (hj : some j ≠ target)
    (hfind : s.dir.find j = some d) (ho : d.origin = .learned) (hheld : ∃ k ∈ ks, d.holds k = true)
    (h : ∀ c ∈ s.dir, some c.1 ≠ target → c.1 ≠ j → ∀ k ∈ ks, c.2.holds k = false) :
    s.keyConflict ks target = false ∧ s.takenOver ks target = [j] := by
  have hfalse : ∀ c ∈ s.dir, c.1 ≠ j → holdsOther ks target c = false := fun c hc hcj =>
    holdsOther_eq_false fun hne => h c hc hne hcj
  refine ⟨List.any_eq_false.2 fun c hc => ?_, ?_⟩
  · by_cases hcj : c.1 = j
    · have hcd : c.2 = d :=
        Option.some.inj ((Table.find_of_mem hr (hcj ▸ hc : (j, c.2) ∈ s.dir)).symm.trans hfind)
      simp [hcd, ho]
    · simp [hfalse c hc hcj]
  · rw [State.takenOver, Table.filter_eq_singleton hr hfind]
    · rfl
    · obtain ⟨k, hk, hkd⟩ := hheld
      have hany : (ks.any fun k => d.holds k) = true := List.any_eq_true.2 ⟨k, hk, hkd⟩
      simp [holdsOther, hj, hany, ho]
    · intro c hc hcj
      rw [hfalse c hc hcj]
      rfl

end

/-! ### The index an edit writes (R64, R66) -/

theorem quietest_none {l : List (Nat × Entry)} : quietest l = none ↔ ∀ c ∈ l, c.2.movable = false := by
  induction l with
  | nil => simp [quietest]
  | cons a l ih =>
    rw [List.forall_mem_cons, ← ih, quietest]
    cases quietest l with
    | none => cases a.2.movable <;> simp
    | some d =>
      dsimp only
      split <;> simp

/-- The quietest of a list: LEARNED, not QUARANTINED, quiet longest, the lowest index among equals (R66). -/
theorem quietest_some {l : Table Nat Entry} {e : Nat × Entry} (hr : l.rising) (h : quietest l = some e) :
    e.2.movable = true ∧
      ∀ c ∈ l, c.2.movable = true → c.2.quiet < e.2.quiet ∨ c.2.quiet = e.2.quiet ∧ e.1 ≤ c.1 := by
  induction l generalizing e with
  | nil => cases h
  | cons a l ih =>
    obtain ⟨hlt, hr⟩ := List.pairwise_cons.1 hr
    rw [quietest] at h
    cases hq : quietest l with
    | none =>
      have hnone := quietest_none.1 hq
      rw [hq] at h
      dsimp only at h
      split at h
      · next ha =>
        cases h
        refine ⟨ha, List.forall_mem_cons.2 ⟨fun _ => .inr ⟨rfl, le_refl _⟩, fun c hc hm => ?_⟩⟩
        rw [hnone c hc] at hm
        cases hm
      · cases h
    | some d =>
      obtain ⟨hd, hbest⟩ := ih hr hq
      rw [hq] at h
      dsimp only at h
      split at h
      · next ha =>
        cases h
        refine ⟨ha.1, List.forall_mem_cons.2 ⟨fun _ => .inr ⟨rfl, le_refl _⟩, fun c hc hm => ?_⟩⟩
        have hc1 := hlt c hc
        have hc2 := hbest c hc hm
        omega
      · next ha =>
        cases h
        refine ⟨hd, List.forall_mem_cons.2 ⟨fun hm => .inl ?_, hbest⟩⟩
        exact Nat.lt_of_not_le fun hle => ha ⟨hm, hle⟩

theorem quietest_eq {l : Table Nat Entry} (hr : l.rising) {j : Nat} {d : Entry} (hfind : l.find j = some d)
    (hd : d.movable = true)
    (hmax : ∀ c ∈ l, c.2.movable = true → c.2.quiet < d.quiet ∨ c.2.quiet = d.quiet ∧ j ≤ c.1) :
    quietest l = some (j, d) := by
  have hmem := Table.mem_of_find hfind
  cases h : quietest l with
  | none =>
    rw [quietest_none.1 h _ hmem] at hd
    cases hd
  | some e =>
    obtain ⟨he, hbest⟩ := quietest_some hr h
    have hmeme := quietest_mem h
    have h1 := hmax e hmeme he
    have h2 := hbest (j, d) hmem hd
    dsimp only at h2
    have hj : e.1 = j := by omega
    subst hj
    rw [Table.find_of_mem hr hmeme] at hfind
    cases hfind
    rfl

theorem editIndex_any {b : Byte} (h : b = 0xFF) : editIndex b = none := if_pos h

theorem editIndex_some {b : Byte} (h : b ≠ 0xFF) : editIndex b = some b.toNat := if_neg h

theorem takeIndex_some (i : Nat) (s : State) : takeIndex (some i) s = some (i, s) := rfl

theorem takeIndex_free {s : State} {i : Nat} (h : s.freeIndex = some i) : takeIndex none s = some (i, s) := by
  simp only [takeIndex, h]

theorem takeIndex_evicts {s : State} {i : Nat} {e : Entry} (h : s.freeIndex = none)
    (hq : quietest s.dir = some (i, e)) : takeIndex none s = some (i, bump (.dir .evicted) (removeEntry i s)) := by
  simp only [takeIndex, h, hq]

theorem takeIndex_full {s : State} (h : s.freeIndex = none) (hq : quietest s.dir = none) :
    takeIndex none s = none := by
  simp only [takeIndex, h, hq]

/-! ### SET-STATION (R64, R65) -/

/-- The station that an edit writes over a fault state. -/
def writtenStation (e : StationEdit) (home : Option Port) (t : Station) : Station :=
  { t with home := home, pinned := e.pinned, manager := e.manager, print := e.print }

/-- The entry that an edit writes over a fault state. -/
def writtenEntry (e : StationEdit) (home : Option Port) (t : Station) : Entry :=
  ⟨.static, editNode e.trunk, editAddress e.office, .station (writtenStation e home t)⟩

/-- The station of an entry written anew. -/
def Station.fresh : Station := ⟨none, false, false, false, .good, 0, 0, 0⟩

/-- The fault state of a station. -/
def Station.faultState (t : Station) : Standing × Nat × Nat × Nat := (t.standing, t.tally, t.quiet, t.minutes)

/-- A SET-STATION whose form and ranges are in order (R63, R64). -/
structure EditFits (e : StationEdit) (home : Option Port) : Prop where
  index : e.index ≠ 0
  keys : givenKeys e.trunk e.office ≠ []
  range : keysInRange (givenKeys e.trunk e.office) = true
  homeRead : editHome e.home = some home
  pinned : ¬ (e.pinned = true ∧ e.home = 0xFF)
  allowed : ∀ p, home = some p → homeAllowed (givenKeys e.trunk e.office) p = true

section
variable {e : StationEdit} {home : Option Port} {s u : State} {i : Nat}

section
variable {t : Station} {removed former : List Nat}
  (hremoved : s.takenOver (givenKeys e.trunk e.office) (editIndex e.index) = removed)
  (hformer : (editIndex e.index).toList.filter (fun i => (s.station i).isSome) = former)
  (hstate : inherit (s.stationsAt (removed ++ former)) = t.faultState)
include hremoved hformer hstate

/-- A write by which no station enters QUARANTINED anew. -/
theorem writeStation_plain
    (hq : t.standing = .quarantined → s.takeoverEnters (givenKeys e.trunk e.office) removed former = false)
    (htake : takeIndex (editIndex e.index) (removeAll .takenOver removed s) = some (i, u)) :
    writeStation e home s = some (i,
      if t.standing = .quarantined then
        [⟨(givenKeys e.trunk e.office).filter fun k => !s.quarantinedKey k, none⟩] else [],
      putEntry i (writtenEntry e home t) u) := by
  have henters : (decide (t.standing = .quarantined) &&
      s.takeoverEnters (givenKeys e.trunk e.office) removed former) = false := by
    by_cases h : t.standing = .quarantined
    · rw [hq h, Bool.and_false]
    · rw [decide_eq_false h, Bool.false_and]
  unfold writeStation
  dsimp only
  rw [hremoved, hformer, hstate, Station.faultState]
  dsimp only
  rw [henters, if_neg (by decide), htake]
  rfl

/-- A write for which no index can be had. -/
theorem writeStation_full
    (hq : t.standing = .quarantined → s.takeoverEnters (givenKeys e.trunk e.office) removed former = false)
    (htake : takeIndex (editIndex e.index) (removeAll .takenOver removed s) = none) :
    writeStation e home s = none := by
  have henters : (decide (t.standing = .quarantined) &&
      s.takeoverEnters (givenKeys e.trunk e.office) removed former) = false := by
    by_cases h : t.standing = .quarantined
    · rw [hq h, Bool.and_false]
    · rw [decide_eq_false h, Bool.false_and]
  unfold writeStation
  dsimp only
  rw [hremoved, hformer, hstate, Station.faultState]
  dsimp only
  rw [henters, if_neg (by decide), htake]

/-- A write by which a station enters QUARANTINED. -/
theorem writeStation_enters (hq : t.standing = .quarantined)
    (henters : s.takeoverEnters (givenKeys e.trunk e.office) removed former = true)
    (htake : takeIndex (editIndex e.index) (removeAll .takenOver removed (purgeGood removed s)) = some (i, u)) :
    writeStation e home s = some (i, [⟨givenKeys e.trunk e.office, some .quarantineTakeover⟩],
      purgeSource i (putEntry i (writtenEntry e home t) u)) := by
  unfold writeStation
  dsimp only
  have hboth : (decide (t.standing = .quarantined) &&
      s.takeoverEnters (givenKeys e.trunk e.office) removed former) = true := by
    rw [henters, decide_eq_true hq]
    rfl
  rw [hremoved, hformer, hstate, Station.faultState]
  dsimp only
  rw [hboth, if_pos rfl, htake]
  rfl

end

variable (hfits : EditFits e home) (hp : s.isPrinterAt (editIndex e.index) = false)
  (hc : s.keyConflict (givenKeys e.trunk e.office) (editIndex e.index) = false)
include hfits hp hc

/-- A SET-STATION that has passed its tests up to CONFLICT comes to what its write comes to (R63). -/
theorem editStation_written {w : Option (Nat × List QuarantineNews × State)} (hw : writeStation e home s = w) :
    (Edit.setStation e).run s = w.elim (.refused .full) fun x => .applied (tookIndex e.index x.1) x.2.1 x.2.2 := by
  have hallowed : ¬ home.any (fun p => !homeAllowed (givenKeys e.trunk e.office) p) = true := by
    rw [Option.any_eq_true]
    rintro ⟨p, hhome, hbad⟩
    rw [hfits.allowed p hhome] at hbad
    cases hbad
  rw [Edit.run, editStation, if_neg hfits.index, if_neg (not_or.2 ⟨hfits.keys, hfits.pinned⟩),
    if_neg (by rw [hfits.range]; decide), hfits.homeRead]
  dsimp only
  rw [if_neg hallowed, if_neg (by rw [hp, hc]; decide), hw]
  cases w <;> rfl

theorem takeEdit_setStation {news : List QuarantineNews} (hw : writeStation e home s = some (i, news, u)) :
    takeEdit (.setStation e) s = takeNews news u :=
  takeEdit_of_applied (editStation_written hfits hp hc hw)

theorem takeEdit_setStation_full (hw : writeStation e home s = none) : takeEdit (.setStation e) s = s :=
  takeEdit_of_refused (editStation_written hfits hp hc hw)

end

/-! ### What stood at the index an edit names (R63, R65) -/

section
variable {s : State} {target : Option Nat} {i : Nat}

theorem isPrinterAt_free (h : target.bind s.dir.find = none) : s.isPrinterAt target = false := by
  rw [State.isPrinterAt, h]

theorem isPrinterAt_station {t : Station} (h : s.station i = some t) : s.isPrinterAt (some i) = false := by
  obtain ⟨o, n, a, hfind⟩ := station_iff.1 h
  rw [State.isPrinterAt, Option.bind_some, hfind]

/-- An index that holds no entry has no former self. -/
theorem former_free (h : target.bind s.dir.find = none) :
    target.toList.filter (fun i => (s.station i).isSome) = [] := by
  cases target with
  | none => rfl
  | some i =>
    have hfind : s.dir.find i = none := h
    simp [State.station, hfind]

theorem former_station {t : Station} (h : s.station i = some t) :
    (some i).toList.filter (fun i => (s.station i).isSome) = [i] := by
  simp [h]

theorem station_of_find {e : Entry} {t : Station} (h : s.dir.find i = some e) (he : e.kind = .station t) :
    s.station i = some t := by
  obtain ⟨o, n, a, kind⟩ := e
  cases he
  exact station_iff.2 ⟨o, n, a, h⟩

theorem mem_keys_iff {e : Entry} {k : Key} : k ∈ e.keys ↔ e.holds k = true := by
  cases k <;> simp [Entry.keys, Entry.keyOn, Entry.holds]

theorem keysAt_of_find {e : Entry} (h : s.dir.find i = some e) : s.keysAt i = e.keys := by
  rw [State.keysAt, h]

/-- The former self has a key that the edit keeps. -/
theorem keepsKey_iff {e : Entry} {ks : List Key} (h : s.dir.find i = some e) :
    ((s.keysAt i).any ks.contains) = true ↔ ∃ k ∈ ks, e.holds k = true := by
  rw [keysAt_of_find h, List.any_eq_true]
  constructor
  · rintro ⟨k, hk, hks⟩
    exact ⟨k, List.contains_iff_mem.1 hks, mem_keys_iff.1 hk⟩
  · rintro ⟨k, hks, hk⟩
    exact ⟨k, mem_keys_iff.2 hk, List.contains_iff_mem.2 hks⟩

end

/-! ### SET-STATION of keys that no other entry holds (R64, R66) -/

section
variable {e : StationEdit} {home : Option Port} {s u : State} {i : Nat} (hfits : EditFits e home)
  (hothers : ∀ d ∈ s.dir, some d.1 ≠ editIndex e.index →
    ∀ k ∈ givenKeys e.trunk e.office, d.2.holds k = false)
include hfits hothers

section
variable (hfree : (editIndex e.index).bind s.dir.find = none)
include hfree

/-- An entry is written anew. -/
theorem takeEdit_fresh (htake : takeIndex (editIndex e.index) s = some (i, u)) :
    takeEdit (.setStation e) s = putEntry i (writtenEntry e home .fresh) u := by
  obtain ⟨hc, hremoved⟩ := unheld_keys hothers
  exact takeEdit_setStation hfits (isPrinterAt_free hfree) hc
    (writeStation_plain (t := .fresh) hremoved (former_free hfree) rfl nofun htake)

/-- In a table that is full and has none to evict, nothing changes. -/
theorem takeEdit_noIndex (htake : takeIndex (editIndex e.index) s = none) : takeEdit (.setStation e) s = s := by
  obtain ⟨hc, hremoved⟩ := unheld_keys hothers
  exact takeEdit_setStation_full hfits (isPrinterAt_free hfree) hc
    (writeStation_full (t := .fresh) hremoved (former_free hfree) rfl nofun htake)

end

/-- A station that is not QUARANTINED is written over, and keeps its fault state. -/
theorem takeEdit_rewritten {t : Station} (hi : editIndex e.index = some i) (ht : s.station i = some t)
    (hq : t.standing ≠ .quarantined) :
    takeEdit (.setStation e) s = putEntry i (writtenEntry e home t) s := by
  obtain ⟨hc, hremoved⟩ := unheld_keys hothers
  have hstate : inherit (s.stationsAt ([] ++ [i])) = t.faultState := by
    rw [List.nil_append, State.stationsAt, List.filterMap_cons_some ht]
    rfl
  have hw := writeStation_plain (home := home) hremoved (hi ▸ former_station ht) hstate
    (fun h => absurd h hq) (hi ▸ takeIndex_some i s)
  rw [if_neg hq] at hw
  exact takeEdit_setStation hfits (hi ▸ isPrinterAt_station ht) hc hw

end

/-! ### SET-STATION of a key that a LEARNED station holds (R65) -/

theorem dir_raise (f : Flag) (s : State) : (raise f s).dir = s.dir := by
  obtain ⟨-, -, -, -, -, -, -, -, -, -, -, hdir, -⟩ := sameButFrames_fields (raise_same f s)
  exact hdir

/-- The state after an edit has taken over the entry at an index. -/
def takenFrom (j : Nat) (s : State) : State := bump (.dir .takenOver) (removeEntry j s)

/-- Two stations' fault state, the one QUARANTINED and the other GOOD. -/
def Station.worse (w v : Station) : Station :=
  { w with
    tally := max w.tally v.tally
    quiet := min w.quiet v.quiet
    minutes := max w.minutes v.minutes }

/-- An edit of the index `i` whose keys the LEARNED station `w` at `j`, and no other entry, holds. -/
structure TakesOver (e : StationEdit) (s : State) (i j : Nat) (d : Entry) (w : Station) : Prop where
  index : editIndex e.index = some i
  ne : j ≠ i
  entry : s.dir.find j = some d
  learned : d.origin = .learned
  station : d.kind = .station w
  held : ∃ k ∈ givenKeys e.trunk e.office, d.holds k = true
  others : ∀ c ∈ s.dir, c.1 ≠ i → c.1 ≠ j → ∀ k ∈ givenKeys e.trunk e.office, c.2.holds k = false

section
variable {e : StationEdit} {home : Option Port} {s : State} {i j : Nat} {d : Entry} {w : Station}
  (hfits : EditFits e home) (h : TakesOver e s i j d w) (hr : s.dir.rising)
include h

theorem TakesOver.stationAt : s.station j = some w := station_of_find h.entry h.station

theorem TakesOver.quarantined : s.quarantined j = decide (w.standing = .quarantined) :=
  quarantined_of_station h.stationAt

theorem TakesOver.take : takeIndex (editIndex e.index) (removeAll .takenOver [j] s) = some (i, takenFrom j s) := by
  rw [h.index]
  exact takeIndex_some ..

/-- The entry at a free index inherits what the one taken over leaves. -/
theorem TakesOver.inheritsFree : inherit (s.stationsAt ([j] ++ [])) = w.faultState := by
  rw [List.append_nil, State.stationsAt, List.filterMap_cons_some h.stationAt]
  rfl

section
include hr

theorem TakesOver.keys : s.keyConflict (givenKeys e.trunk e.office) (editIndex e.index) = false ∧
    s.takenOver (givenKeys e.trunk e.office) (editIndex e.index) = [j] := by
  rw [h.index]
  exact learned_keys hr (fun hj => h.ne (Option.some.inj hj)) h.entry h.learned h.held fun c hc hi =>
    h.others c hc fun hci => hi (congrArg some hci)

/-- At a free index no other QUARANTINED entry holds a key of the edit. -/
theorem TakesOver.quarantinedKey (hfree : s.dir.find i = none) (hq : w.standing = .quarantined) {k : Key}
    (hk : k ∈ givenKeys e.trunk e.office) : s.quarantinedKey k = d.holds k := by
  rw [Bool.eq_iff_iff, State.quarantinedKey, List.any_eq_true]
  constructor
  · rintro ⟨c, hc, hcq⟩
    obtain ⟨hheld, -⟩ := Bool.and_eq_true_iff.1 hcq
    by_cases hj : c.1 = j
    · have hcd : c.2 = d :=
        Option.some.inj ((Table.find_of_mem hr (hj ▸ hc : (j, c.2) ∈ s.dir)).symm.trans h.entry)
      rw [← hcd, hheld]
    · rw [h.others c hc (Table.find_none.1 hfree c hc) hj k hk] at hheld
      cases hheld
  · intro hheld
    have hboth : (d.holds k && s.quarantined j) = true := by
      rw [hheld, h.quarantined, decide_eq_true hq]
      rfl
    exact ⟨(j, d), Table.mem_of_find h.entry, hboth⟩

include hfits in
/-- At a free index, by whether the entry taken over is QUARANTINED. -/
theorem takeEdit_takesOver_free (hfree : s.dir.find i = none) : takeEdit (.setStation e) s =
    if w.standing = .quarantined then
      abortArriving ((givenKeys e.trunk e.office).filter fun k => !d.holds k)
        (putEntry i (writtenEntry e home w) (takenFrom j s))
    else putEntry i (writtenEntry e home w) (takenFrom j s) := by
  have hfree' : (editIndex e.index).bind s.dir.find = none := by rw [h.index, Option.bind_some, hfree]
  obtain ⟨hc, hremoved⟩ := h.keys hr
  have henters (hq : w.standing = .quarantined) :
      s.takeoverEnters (givenKeys e.trunk e.office) [j] [] = false := by
    simp [State.takeoverEnters, State.stationsAt, h.stationAt, hq]
  rw [takeEdit_setStation hfits (isPrinterAt_free hfree') hc
    (writeStation_plain hremoved (former_free hfree') h.inheritsFree henters h.take)]
  split
  · next hq =>
    rw [List.filter_congr fun k hk => by rw [h.quarantinedKey hr hfree hq hk]]
    simp only [takeNews, QuarantineNews.take]
  · rfl

end

/-! #### A QUARANTINED station taken over by a GOOD one -/

section
variable {c : Entry} {v : Station} (hc : s.dir.find i = some c) (hv : c.kind = .station v)
  (hvg : v.standing = .good) (hwq : w.standing = .quarantined)
include hc hv hvg hwq

theorem TakesOver.inheritsBoth : inherit (s.stationsAt ([j] ++ [i])) = (w.worse v).faultState := by
  rw [State.stationsAt, List.singleton_append, List.filterMap_cons_some h.stationAt,
    List.filterMap_cons_some (station_of_find hc hv)]
  simp [inherit, hvg, hwq, Standing.rank, Station.faultState, Station.worse]

/-- The station enters QUARANTINED where it keeps a key of its own. -/
theorem TakesOver.enters_iff : s.takeoverEnters (givenKeys e.trunk e.office) [j] [i] = true ↔
    ∃ k ∈ givenKeys e.trunk e.office, c.holds k = true := by
  rw [← keepsKey_iff hc, State.takeoverEnters, State.stationsAt]
  by_cases hkept : ((s.keysAt i).any (givenKeys e.trunk e.office).contains) = true
  · simp [hkept, h.stationAt, station_of_find hc hv, hvg]
  · simp [hkept, h.stationAt, hwq]

section
include hfits hr

theorem takeEdit_takesOver_enters (hkept : ∃ k ∈ givenKeys e.trunk e.office, c.holds k = true) :
    takeEdit (.setStation e) s = abortArriving (givenKeys e.trunk e.office)
      (bump (.fault .quarantineTakeover) (raise .stationQuarantined
        (purgeSource i (putEntry i (writtenEntry e home (w.worse v)) (takenFrom j s))))) := by
  obtain ⟨hconflict, hremoved⟩ := h.keys hr
  have hpurged : purgeGood [j] s = s := by
    rw [purgeGood, List.foldl_cons, List.foldl_nil, h.quarantined, if_pos (decide_eq_true hwq)]
  have htake : takeIndex (editIndex e.index) (removeAll .takenOver [j] (purgeGood [j] s)) =
      some (i, takenFrom j s) := by
    rw [hpurged, h.take]
  rw [takeEdit_setStation hfits (h.index ▸ isPrinterAt_station (station_of_find hc hv)) hconflict
    (writeStation_enters hremoved (h.index ▸ former_station (station_of_find hc hv))
      (h.inheritsBoth hc hv hvg hwq) hwq ((h.enters_iff hc hv hvg hwq).2 hkept) htake)]
  simp only [takeNews, QuarantineNews.take]

theorem takeEdit_takesOver_stays (hkept : ∀ k ∈ givenKeys e.trunk e.office, c.holds k = false) :
    takeEdit (.setStation e) s =
      abortArriving ((givenKeys e.trunk e.office).filter fun k => !s.quarantinedKey k)
        (putEntry i (writtenEntry e home (w.worse v)) (takenFrom j s)) := by
  obtain ⟨hconflict, hremoved⟩ := h.keys hr
  have henters : s.takeoverEnters (givenKeys e.trunk e.office) [j] [i] = false := by
    rw [Bool.eq_false_iff, ne_eq, h.enters_iff hc hv hvg hwq]
    rintro ⟨k, hk, hheld⟩
    rw [hkept k hk] at hheld
    cases hheld
  rw [takeEdit_setStation hfits (h.index ▸ isPrinterAt_station (station_of_find hc hv)) hconflict
    (writeStation_plain hremoved (h.index ▸ former_station (station_of_find hc hv))
      (h.inheritsBoth hc hv hvg hwq) (fun _ => henters) h.take), if_pos (show (w.worse v).standing = _ from hwq)]
  simp only [takeNews, QuarantineNews.take]

/-- The directory, the flag and the count after a QUARANTINED station has been taken over by a GOOD one. -/
theorem takeEdit_takesOver_station : let t := takeEdit (.setStation e) s
    t.dir = (putEntry i (writtenEntry e home (w.worse v)) (takenFrom j s)).dir ∧
      ((∃ k ∈ givenKeys e.trunk e.office, c.holds k = true) → t.raised .stationQuarantined = true ∧
        t.count (.fault .quarantineTakeover) =
          min Config.counterMax (s.count (.fault .quarantineTakeover) + 1)) ∧
      ((∀ k ∈ givenKeys e.trunk e.office, c.holds k = false) →
        t.raised .stationQuarantined = s.raised .stationQuarantined ∧
        t.count (.fault .quarantineTakeover) = s.count (.fault .quarantineTakeover)) := by
  intro t
  have htaken : (takenFrom j s).count (.fault .quarantineTakeover) = s.count (.fault .quarantineTakeover) :=
    (count_bump_other (by simp) _).trans (count_of_counters _ (removeEntry_counters s j))
  have hput := count_of_counters (.fault .quarantineTakeover)
    (putEntry_counters (s := takenFrom j s) i (writtenEntry e home (w.worse v)))
  by_cases hkept : ∃ k ∈ givenKeys e.trunk e.office, c.holds k = true
  · have ht : t = _ := takeEdit_takesOver_enters hfits h hr hc hv hvg hwq hkept
    have hends := ends_abortArriving (givenKeys e.trunk e.office) (bump (.fault .quarantineTakeover)
      (raise .stationQuarantined (purgeSource i (putEntry i (writtenEntry e home (w.worse v)) (takenFrom j s)))))
    rw [← ht] at hends
    refine ⟨?_, fun _ => ⟨(hends.flags _).1 (raised_raise _ _), ?_⟩, fun hnone => ?_⟩
    · rw [hends.dir, bump_dir, dir_raise, purgeSource_dir]
    · rw [hends.count, count_bump, if_pos rfl, count_raise rfl, purgeSource_count, hput, htaken]
    · obtain ⟨k, hk, hheld⟩ := hkept
      rw [hnone k hk] at hheld
      cases hheld
  · have hnone : ∀ k ∈ givenKeys e.trunk e.office, c.holds k = false := fun k hk =>
      Bool.eq_false_iff.2 fun hheld => hkept ⟨k, hk, hheld⟩
    have ht : t = _ := takeEdit_takesOver_stays hfits h hr hc hv hvg hwq hnone
    have hends := ends_abortArriving ((givenKeys e.trunk e.office).filter fun k => !s.quarantinedKey k)
      (putEntry i (writtenEntry e home (w.worse v)) (takenFrom j s))
    rw [← ht] at hends
    refine ⟨hends.dir, fun hk => absurd hk hkept, fun _ => ⟨?_, ?_⟩⟩
    · rw [Bool.eq_iff_iff]
      have hflags : (putEntry i (writtenEntry e home (w.worse v)) (takenFrom j s)).raised .stationQuarantined =
          s.raised .stationQuarantined := by
        simp only [State.raised, putEntry_flags, takenFrom, bump_flags, removeEntry_flags]
      rw [← hflags]
      exact ⟨fun hu => ((hends.flags _).2 hu).resolve_right fun hne => hne rfl, (hends.flags _).1⟩
    · rw [hends.count, hput, htaken]

end

end

end

/-! ### SET-ALIAS (R67) -/

theorem protects_of_no_job {s : State} {i : Option Nat} (h : ∀ k, i = some k → s.hasJob k = false)
    (n : Option Node) (a : Option Address) (x : Target) : s.protects i n a x = false := by
  cases i with
  | none => rfl
  | some k =>
    rw [State.protects, h k rfl]
    split <;> rfl

/-- A SET-ALIAS at an index that holds no station and that no live job names, or at "any free", with keys
that no other entry holds. -/
theorem takeEdit_setAlias {e : AliasEdit} {x : Target} {y : Fin 4} {s u : State} {i : Nat} (hindex : e.index ≠ 0)
    (hkeys : givenKeys e.trunk e.office ≠ []) (hrange : keysInRange (givenKeys e.trunk e.office) = true)
    (hx : Target.ofCode e.target = some x) (hy : levelOf e.level = some y)
    (hothers : ∀ d ∈ s.dir, some d.1 ≠ editIndex e.index →
      ∀ k ∈ givenKeys e.trunk e.office, d.2.holds k = false)
    (hstation : s.isStationAt (editIndex e.index) = false)
    (hjob : ∀ k, editIndex e.index = some k → s.hasJob k = false)
    (htake : takeIndex (editIndex e.index) s = some (i, u)) : takeEdit (.setAlias e) s =
      putEntry i ⟨.static, editNode e.trunk, editAddress e.office, .printer x y⟩ u := by
  obtain ⟨hc, hremoved⟩ := unheld_keys hothers
  have hrun : (Edit.setAlias e).run s = .applied (tookIndex e.index i) []
      (putEntry i ⟨.static, editNode e.trunk, editAddress e.office, .printer x y⟩ u) := by
    rw [Edit.run, editAlias, if_neg hindex, if_neg hkeys, if_neg (by rw [hrange]; decide), hx, hy]
    dsimp only
    rw [if_neg (by rw [hstation, hc, protects_of_no_job hjob]; decide), hremoved, removeAll, htake]
  exact takeEdit_of_applied hrun

/-! ### The statement -/

section
variable {s : State} (ha : s.active = true)
include ha

theorem exec_setStation {e : StationEdit} {t : State} (h : takeEdit (.setStation e) s = t) :
    exec (.setStation e) s = .next t :=
  congrArg Host.Outcome.next ((whenActive_of_active _ ha).trans h)

theorem exec_setAlias {e : AliasEdit} {t : State} (h : takeEdit (.setAlias e) s = t) :
    exec (.setAlias e) s = .next t :=
  congrArg Host.Outcome.next ((whenActive_of_active _ ha).trans h)

end

/-- Keys that no entry but the one at the index holds, as an edit of that index, or of "any free" where it is
free, asks for them. -/
theorem others_of_index {s : State} {b : Byte} {i : Nat} {ks : List Key}
    (hothers : ∀ d ∈ s.dir, d.1 ≠ i → ∀ k ∈ ks, d.2.holds k = false)
    (hi : editIndex b = some i ∨ s.dir.find i = none) :
    ∀ d ∈ s.dir, some d.1 ≠ editIndex b → ∀ k ∈ ks, d.2.holds k = false := by
  intro d hd hne
  rcases hi with hi | hfree
  · exact hothers d hd fun hdi => hne (hdi ▸ hi.symm)
  · exact hothers d hd (Table.find_none.1 hfree d hd)

/-- Settles O31, by the index an edit names and by what holds its keys. -/
theorem stationAndAliasEditsWriteTheEntry : Obligations.StationAndAliasEditsWriteTheEntry := by
  refine ⟨⟨fun e home i s ha hindex hkeys hrange hhome hpinned hallowed hothers => ?_,
    fun e x y i s ha hindex hkeys hrange hx hy hothers hat => ?_⟩,
    fun e home s ha hindex hkeys hrange hhome hpinned hallowed hok => ?_⟩
  · have hfits : EditFits e home := ⟨hindex, hkeys, hrange, hhome, hpinned, hallowed⟩
    refine ⟨fun hne hi hfree => ?_, fun hany hi => ?_, fun hne hi t ht hq => ?_⟩
    · have htarget : editIndex e.index = some i := (editIndex_some hne).trans (congrArg some hi.symm)
      exact exec_setStation ha (takeEdit_fresh hfits (others_of_index hothers (.inl htarget))
        (by rw [htarget, Option.bind_some, hfree]) (htarget ▸ takeIndex_some i s))
    · have htarget := editIndex_any hany
      obtain ⟨-, -, hfree, -⟩ := freeIndex_spec hi
      exact exec_setStation ha (takeEdit_fresh hfits (others_of_index hothers (.inr hfree))
        (by rw [htarget, Option.bind_none]) (htarget ▸ takeIndex_free hi))
    · have htarget : editIndex e.index = some i := (editIndex_some hne).trans (congrArg some hi.symm)
      exact exec_setStation ha (takeEdit_rewritten hfits (others_of_index hothers (.inl htarget)) htarget ht hq)
  · rcases hat with ⟨hne, hi, hstation, hjob⟩ | ⟨hany, hi⟩
    · have htarget : editIndex e.index = some i := (editIndex_some hne).trans (congrArg some hi.symm)
      refine exec_setAlias ha (takeEdit_setAlias hindex hkeys hrange hx hy
        (others_of_index hothers (.inl htarget)) (htarget ▸ hstation) (fun k hk => ?_)
        (htarget ▸ takeIndex_some i s))
      rw [← Option.some.inj (htarget.symm.trans hk)]
      exact hjob
    · have htarget := editIndex_any hany
      obtain ⟨-, -, hfree, -⟩ := freeIndex_spec hi
      exact exec_setAlias ha (takeEdit_setAlias hindex hkeys hrange hx hy
        (others_of_index hothers (.inr hfree)) (htarget ▸ rfl) (by simp [htarget])
        (htarget ▸ takeIndex_free hi))
  · have hfits : EditFits e home := ⟨hindex, hkeys, hrange, hhome, hpinned, hallowed⟩
    obtain ⟨hr, hzero, -⟩ := hok
    refine ⟨fun i j d w hne hi hj hd hlearned hw hheld hothers => ?_, fun hany hfull hothers => ?_⟩
    · have htarget : editIndex e.index = some i := (editIndex_some hne).trans (congrArg some hi.symm)
      have htakes : TakesOver e s i j d w := ⟨htarget, hj, hd, hlearned, hw, hheld, hothers⟩
      refine ⟨fun hfree hq => exec_setStation ha ?_, fun hfree hq => exec_setStation ha ?_,
        fun c v hc hv hvg hwq => ⟨_, exec_setStation ha rfl, ?_⟩⟩
      · exact (takeEdit_takesOver_free hfits htakes hr hfree).trans (if_neg hq)
      · exact (takeEdit_takesOver_free hfits htakes hr hfree).trans (if_pos hq)
      · obtain ⟨hdir, hkept, hlost⟩ := takeEdit_takesOver_station hfits htakes hr hc hv hvg hwq
        have hi0 : i ≠ 0 := fun h0 => hindex (BitVec.eq_of_toNat_eq (hi.symm.trans h0))
        have hj0 : j ≠ 0 := by
          rintro rfl
          rw [hzero] at hd
          cases hd
          cases hw
        refine ⟨?_, ?_, hkept, hlost⟩
        · rw [hdir, putEntry, if_neg hi0, Table.find_put, if_neg (Ne.symm hj), takenFrom, bump_dir,
            removeEntry_find, if_pos ⟨rfl, hj0⟩]
        · rw [hdir, putEntry, if_neg hi0, Table.find_put, if_pos rfl]
          rfl
    · have htarget := editIndex_any hany
      have hfree : (editIndex e.index).bind s.dir.find = none := by rw [htarget, Option.bind_none]
      have hunheld : ∀ d ∈ s.dir, some d.1 ≠ editIndex e.index →
          ∀ k ∈ givenKeys e.trunk e.office, d.2.holds k = false := fun d hd _ => hothers d hd
      refine ⟨fun j d hd hm hmax => ?_, fun hnone => ?_⟩
      · exact exec_setStation ha (takeEdit_fresh hfits hunheld hfree
          (htarget ▸ takeIndex_evicts hfull (quietest_eq hr hd hm hmax)))
      · exact exec_setStation ha (takeEdit_noIndex hfits hunheld hfree
          (htarget ▸ takeIndex_full hfull (quietest_none.2 hnone)))

end Sys2Proof.Machine

/-! The static entries of an image: what a load writes, what it skips, and where it finds a fault. -/

namespace Sys2Proof.Machine

/-! ### The order of a load (R78) -/

theorem insertByIndex_perm (e : Nat × Entry) : ∀ l, (insertByIndex e l).Perm (e :: l)
  | [] => .refl _
  | d :: l => by
    unfold insertByIndex
    split
    · exact .refl _
    · exact ((insertByIndex_perm e l).cons d).trans (.swap e d l)

theorem inIndexOrder_perm : ∀ l, (inIndexOrder l).Perm l
  | [] => .refl _
  | e :: l => (insertByIndex_perm e _).trans ((inIndexOrder_perm l).cons e)

theorem insertByIndex_sorted {e : Nat × Entry} {l : List (Nat × Entry)}
    (h : l.Pairwise fun a b => a.1 ≤ b.1) : (insertByIndex e l).Pairwise fun a b => a.1 ≤ b.1 := by
  induction l with
  | nil => exact List.pairwise_singleton _ _
  | cons d l ih =>
    obtain ⟨hd, hl⟩ := List.pairwise_cons.1 h
    unfold insertByIndex
    split
    · next hle =>
      refine List.pairwise_cons.2 ⟨List.forall_mem_cons.2 ⟨hle, fun a ha => le_trans hle (hd a ha)⟩, h⟩
    · next hlt =>
      refine List.pairwise_cons.2 ⟨fun a ha => ?_, ih hl⟩
      rcases insertByIndex_mem ha with rfl | ha
      · omega
      · exact hd a ha

theorem inIndexOrder_sorted : ∀ l, (inIndexOrder l).Pairwise fun a b => a.1 ≤ b.1
  | [] => .nil
  | _ :: l => insertByIndex_sorted (inIndexOrder_sorted l)

/-! ### One entry is written or skipped (R78, log entry 44) -/

theorem putEntry_find {i : Nat} (hi : i ≠ 0) (e : Entry) (s : State) (j : Nat) :
    (putEntry i e s).dir.find j = if i = j then some e else s.dir.find j := by
  rw [putEntry, if_neg hi, Table.find_put]

/-- The index of an entry, or a key of it, is held. -/
def State.placeHeld (s : State) (x : Nat × Entry) : Prop :=
  s.dir.find x.1 ≠ none ∨ ∃ k ∈ x.2.keys, ∃ y ∈ s.dir, y.2.holds k = true

theorem placeHeld_iff {s : State} {i : Nat} {e : Entry} : s.placeHeld (i, e) ↔
    (s.dir.find i).isSome = true ∨ (e.keys.any fun k => !s.unheld k) = true := by
  simp [State.placeHeld, State.unheld, Option.isSome_iff_ne_none]

section
variable {x : Nat × Entry} {l : List (Nat × Entry)} {s : State} {b : Bool}

theorem loadEntries_skips (h : s.placeHeld x) : loadEntries (x :: l) (s, b) = loadEntries l (s, true) :=
  if_pos (placeHeld_iff.1 h)

theorem loadEntries_writes (h : ¬ s.placeHeld x) :
    loadEntries (x :: l) (s, b) = loadEntries l (putEntry x.1 x.2 s, b) :=
  if_neg (mt placeHeld_iff.2 h)

end

/-! ### What a list of entries comes to -/

section
variable {l : List (Nat × Entry)} {s : State} {b : Bool}

/-- A load of entries writes the directory alone. -/
theorem loadEntries_eq (l : List (Nat × Entry)) (s : State) (b : Bool) :
    ∃ dir, (loadEntries l (s, b)).1 = { s with dir := dir } := by
  induction l generalizing s b with
  | nil => exact ⟨s.dir, rfl⟩
  | cons x l ih =>
    by_cases h : s.placeHeld x
    · rw [loadEntries_skips h]
      exact ih s true
    · rw [loadEntries_writes h]
      obtain ⟨dir, e⟩ := ih (putEntry x.1 x.2 s) b
      rw [e, putEntry]
      split <;> exact ⟨dir, rfl⟩

theorem loadEntries_fault_stays (l : List (Nat × Entry)) (s : State) : (loadEntries l (s, true)).2 = true := by
  induction l generalizing s with
  | nil => rfl
  | cons x l ih =>
    by_cases h : s.placeHeld x
    · rw [loadEntries_skips h, ih]
    · rw [loadEntries_writes h, ih]

variable (hl : ∀ x ∈ l, x.1 ≠ 0)
include hl

/-- An entry that stands stays. -/
theorem loadEntries_keeps {j : Nat} {d : Entry} (h : s.dir.find j = some d) :
    (loadEntries l (s, b)).1.dir.find j = some d := by
  induction l generalizing s b with
  | nil => exact h
  | cons x l ih =>
    obtain ⟨hx, hl⟩ := List.forall_mem_cons.1 hl
    by_cases hheld : s.placeHeld x
    · rw [loadEntries_skips hheld]
      exact ih hl h
    · rw [loadEntries_writes hheld]
      refine ih hl ?_
      rw [putEntry_find hx, if_neg, h]
      rintro rfl
      exact hheld (.inl (by rw [h]; simp))

/-- An entry that has come is one of the list. -/
theorem loadEntries_source {j : Nat} {d : Entry} (h : (loadEntries l (s, b)).1.dir.find j = some d) :
    s.dir.find j = some d ∨ (j, d) ∈ l := by
  induction l generalizing s b with
  | nil => exact .inl h
  | cons x l ih =>
    obtain ⟨hx, hl⟩ := List.forall_mem_cons.1 hl
    by_cases hheld : s.placeHeld x
    · rw [loadEntries_skips hheld] at h
      exact (ih hl h).imp_right (List.mem_cons_of_mem _)
    · rw [loadEntries_writes hheld] at h
      rcases ih hl h with hput | hmem
      · rw [putEntry_find hx] at hput
        split at hput
        · next hj =>
          cases hput
          subst hj
          exact .inr (List.mem_cons_self ..)
        · exact .inl hput
      · exact .inr (List.mem_cons_of_mem _ hmem)

/-- A list in which an entry stands twice, or that has one at an index that is held, is not loaded without a
fault. -/
theorem loadEntries_fault (h : ¬ l.Nodup ∨ ∃ x ∈ l, s.dir.find x.1 ≠ none) : (loadEntries l (s, b)).2 = true := by
  induction l generalizing s b with
  | nil => simp at h
  | cons x l ih =>
    obtain ⟨hx, hl⟩ := List.forall_mem_cons.1 hl
    by_cases hheld : s.placeHeld x
    · rw [loadEntries_skips hheld, loadEntries_fault_stays]
    · rw [loadEntries_writes hheld]
      refine ih hl ?_
      rcases h with hdup | ⟨y, hy, hfind⟩
      · by_cases hmem : x ∈ l
        · exact .inr ⟨x, hmem, by rw [putEntry_find hx, if_pos rfl]; simp⟩
        · exact .inl fun hn => hdup (List.nodup_cons.2 ⟨hmem, hn⟩)
      · rcases List.mem_cons.1 hy with rfl | hy
        · exact absurd (.inl hfind) hheld
        · refine .inr ⟨y, hy, ?_⟩
          rw [putEntry_find hx]
          split
          · simp
          · exact hfind

/-- A list of which every entry stands once, at an index that was free, and has come, is loaded without a
fault. -/
theorem loadEntries_clean (hn : l.Nodup) (hfree : ∀ x ∈ l, s.dir.find x.1 = none)
    (hcome : ∀ x ∈ l, (loadEntries l (s, b)).1.dir.find x.1 = some x.2) : (loadEntries l (s, b)).2 = b := by
  induction l generalizing s b with
  | nil => rfl
  | cons x l ih =>
    obtain ⟨hx, hl⟩ := List.forall_mem_cons.1 hl
    obtain ⟨hmem, hn⟩ := List.nodup_cons.1 hn
    obtain ⟨hxfree, hfree⟩ := List.forall_mem_cons.1 hfree
    obtain ⟨hxcome, hcome⟩ := List.forall_mem_cons.1 hcome
    by_cases hheld : s.placeHeld x
    · rw [loadEntries_skips hheld] at hxcome
      rcases loadEntries_source hl hxcome with hfind | hfind
      · rw [hxfree] at hfind
        cases hfind
      · exact absurd hfind hmem
    · rw [loadEntries_writes hheld] at hcome hxcome ⊢
      refine ih hl hn (fun y hy => ?_) hcome
      rw [putEntry_find hx, if_neg, hfree y hy]
      intro hxy
      have hsame : x = y := Prod.ext hxy (Option.some.inj (hxcome.symm.trans (hxy ▸ hcome y hy)))
      exact hmem (hsame ▸ hy)

/-- An entry of a list in index order has come, or there is a fault, and its index is held, or a key of it by
an entry that came before it or that stood. -/
theorem loadEntries_explained (hr : s.dir.rising) (hsorted : l.Pairwise fun a b => a.1 ≤ b.1)
    {i : Nat} {e : Entry} (hmem : (i, e) ∈ l) : (loadEntries l (s, b)).1.dir.find i = some e ∨
      (loadEntries l (s, b)).2 = true ∧ ∃ j d, (loadEntries l (s, b)).1.dir.find j = some d ∧
        (j = i ∨ (j < i ∨ s.dir.find j = some d) ∧ ∃ k ∈ e.keys, d.holds k = true) := by
  induction l generalizing s b with
  | nil => cases hmem
  | cons x l ih =>
    obtain ⟨hx, hl'⟩ := List.forall_mem_cons.1 hl
    obtain ⟨hfirst, hsorted⟩ := List.pairwise_cons.1 hsorted
    by_cases hheld : s.placeHeld x
    · rw [loadEntries_skips hheld]
      rcases List.mem_cons.1 hmem with rfl | hmem
      · refine .inr ⟨loadEntries_fault_stays l s, ?_⟩
        rcases hheld with hindex | ⟨k, hk, ⟨j, d⟩, hy, hkey⟩
        · obtain ⟨d, hd⟩ := Option.ne_none_iff_exists'.1 hindex
          exact ⟨i, d, loadEntries_keeps hl' hd, .inl rfl⟩
        · have hd := Table.find_of_mem hr hy
          exact ⟨j, d, loadEntries_keeps hl' hd, .inr ⟨.inr hd, k, hk, hkey⟩⟩
      · exact ih hl' hr hsorted hmem
    · rw [loadEntries_writes hheld]
      rcases List.mem_cons.1 hmem with rfl | hmem
      · exact .inl (loadEntries_keeps hl' (by rw [putEntry_find hx, if_pos rfl]))
      · have hr' : (putEntry x.1 x.2 s).dir.rising := by
          rw [putEntry, if_neg hx]
          exact Table.rising_put hr ..
        refine (ih hl' hr' hsorted hmem).imp_right fun ⟨hfault, j, d, hd, hwhy⟩ => ⟨hfault, j, d, hd, ?_⟩
        rcases hwhy with hj | ⟨hbefore, hkey⟩
        · exact .inl hj
        · have hle := hfirst _ hmem
          rw [putEntry_find hx] at hbefore
          by_cases hji : j = i
          · exact .inl hji
          · refine .inr ⟨?_, hkey⟩
            rcases hbefore with hlt | hfind
            · exact .inl hlt
            · split at hfind
              · next hxj => exact .inl (by dsimp only at hle; omega)
              · exact .inr hfind

end

/-! ### The entries that an image gives (R78, R203) -/

theorem loadEntry_static {r : List Byte} {i : Nat} {e : Entry} (h : loadEntry r = some (i, e)) :
    i ≠ 0 ∧ e.origin = .static ∧ e.saved = e := by
  unfold loadEntry at h
  dsimp only at h
  split at h
  · cases h
  · next hvalid =>
    have hindex : (byteAt r 0).toNat ≠ 0 := fun h0 => hvalid (.inl (BitVec.eq_of_toNat_eq h0))
    repeat' split at h
    all_goals cases h
    all_goals exact ⟨hindex, rfl, rfl⟩

/-- The entries that an image gives, in the order they are loaded in. -/
def imageList (bs : List Byte) : List (Nat × Entry) := inIndexOrder ((imageEntries bs).filterMap id)

section
variable {bs : List Byte}

theorem mem_imageList {x : Nat × Entry} : x ∈ imageList bs ↔ some x ∈ imageEntries bs := by
  rw [imageList, (inIndexOrder_perm _).mem_iff, List.mem_filterMap]
  exact ⟨fun ⟨o, ho, hx⟩ => by rwa [← show o = some x from hx], fun h => ⟨some x, h, rfl⟩⟩

theorem imageEntries_static {i : Nat} {e : Entry} (h : some (i, e) ∈ imageEntries bs) :
    i ≠ 0 ∧ e.origin = .static ∧ e.saved = e := by
  obtain ⟨k, -, hk⟩ := List.mem_map.1 h
  exact loadEntry_static hk

theorem imageList_index : ∀ x ∈ imageList bs, x.1 ≠ 0 := fun _ hx =>
  (imageEntries_static (mem_imageList.1 hx)).1

theorem imageList_nodup (h : (imageEntries bs).Nodup) : (imageList bs).Nodup := by
  rw [imageList, (inIndexOrder_perm _).nodup_iff]
  exact h.filterMap fun a b x ha hb => Eq.trans ha (Eq.symm hb)

theorem nodup_of_filterMap_id {α : Type} {l : List (Option α)} (h : none ∉ l)
    (hn : (l.filterMap id).Nodup) : l.Nodup := by
  induction l with
  | nil => exact .nil
  | cons o l ih =>
    obtain ⟨ho, hl⟩ := not_or.1 (mt List.mem_cons.2 h)
    cases o with
    | none => exact absurd rfl ho
    | some x =>
      obtain ⟨hx, hn⟩ := List.nodup_cons.1 hn
      exact List.nodup_cons.2 ⟨fun hmem => hx (List.mem_filterMap.2 ⟨some x, hmem, rfl⟩), ih hl hn⟩

/-- The state after the entries of an image have been loaded, and whether there was a fault. -/
def entriesLoaded (bs : List Byte) (s : State) : Loaded State :=
  loadEntries (imageList bs) (s, (imageEntries bs).any Option.isNone)

theorem entriesLoaded_fault {s : State} (h : none ∈ imageEntries bs ∨ ¬ (imageEntries bs).Nodup ∨
    ∃ i e, some (i, e) ∈ imageEntries bs ∧ s.dir.find i ≠ none) : (entriesLoaded bs s).2 = true := by
  by_cases hnone : none ∈ imageEntries bs
  · rw [entriesLoaded, List.any_eq_true.2 ⟨none, hnone, rfl⟩]
    exact loadEntries_fault_stays _ s
  · refine loadEntries_fault imageList_index ?_
    rcases (h.resolve_left hnone) with hdup | ⟨i, e, he, hfind⟩
    · refine .inl fun hn => hdup (nodup_of_filterMap_id hnone ?_)
      exact (inIndexOrder_perm _).nodup_iff.1 hn
    · exact .inr ⟨(i, e), mem_imageList.2 he, hfind⟩

theorem entriesLoaded_clean {s : State} (hn : (imageEntries bs).Nodup)
    (h : ∀ o ∈ imageEntries bs, ∃ i e, o = some (i, e) ∧ s.dir.find i = none ∧
      (entriesLoaded bs s).1.dir.find i = some e) : (entriesLoaded bs s).2 = false := by
  have heach : ∀ x ∈ imageList bs, s.dir.find x.1 = none ∧ (entriesLoaded bs s).1.dir.find x.1 = some x.2 := by
    intro x hx
    obtain ⟨i, e, ho, hfree, hcome⟩ := h _ (mem_imageList.1 hx)
    cases ho
    exact ⟨hfree, hcome⟩
  have hsome : (imageEntries bs).any Option.isNone = false := List.any_eq_false.2 fun o ho => by
    obtain ⟨i, e, rfl, -⟩ := h o ho
    simp
  rw [← hsome]
  exact loadEntries_clean imageList_index (imageList_nodup hn) (fun x hx => (heach x hx).1)
    fun x hx => (heach x hx).2

end

end Sys2Proof.Machine

/-! The parts of an image but for its entries: the settings of ports and lines, and the sweep list. -/

namespace Sys2Proof.Machine

/-! ### A port's settings byte (R194, R201) -/

theorem settingsByte_lt (on bcast accept : Bool) : (yesNo on + 2 * yesNo bcast + 4 * yesNo accept).toNat < 8 := by
  cases on <;> cases bcast <;> cases accept <;> decide

theorem settingsByte_of_lt {b : Byte} (h : b.toNat < 8) :
    yesNo (b.getLsbD 0) + 2 * yesNo (b.getLsbD 1) + 4 * yesNo (b.getLsbD 2) = b := by
  have hb : b = BitVec.ofNat 8 b.toNat := BitVec.eq_of_toNat_eq (by simp)
  generalize b.toNat = k at h hb
  subst hb
  interval_cases k <;> rfl

theorem settingsByte_bit (on bcast accept : Bool) :
    (yesNo on + 2 * yesNo bcast + 4 * yesNo accept).getLsbD 1 = bcast := by
  cases on <;> cases bcast <;> cases accept <;> rfl

/-- A byte is a port's settings byte where it has no bit but the port's own. -/
theorem portSettings_iff (p : Port) (b : Byte) :
    portSettings p (b.getLsbD 0) (b.getLsbD 1) (b.getLsbD 2) = b ↔
      b.toNat < 8 ∧ (p.side = .trunk → b.getLsbD 1 = false) := by
  rw [portSettings]
  constructor
  · intro h
    refine ⟨h ▸ settingsByte_lt .., fun hp => ?_⟩
    rw [← h, settingsByte_bit, hp]
    exact Bool.and_false _
  · rintro ⟨hlt, hbit⟩
    have hbcast : (b.getLsbD 1 && decide (p.side = .pair)) = b.getLsbD 1 := by
      cases hp : p.side with
      | trunk => rw [hbit hp, Bool.false_and]
      | pair => exact Bool.and_true _
    rw [hbcast, settingsByte_of_lt hlt]

theorem loadPort_fits {p : Port} {b : Byte} (h : b.toNat < 8 ∧ (p.side = .trunk → b.getLsbD 1 = false)) :
    (loadPort p b).1 = ⟨b.getLsbD 0, b.getLsbD 1, b.getLsbD 2⟩ := by
  rw [loadPort, if_pos ((portSettings_iff p b).2 h)]

theorem loadPort_misfits {p : Port} {b : Byte} (h : 8 ≤ b.toNat ∨ p.side = .trunk ∧ b.getLsbD 1 = true) :
    (loadPort p b).1 = .default p := by
  rw [loadPort, if_neg]
  rw [portSettings_iff]
  rintro ⟨hlt, hbit⟩
  rcases h with hge | ⟨hp, hset⟩
  · omega
  · rw [hbit hp] at hset
    cases hset

/-! ### A line's settings bytes (R194, R203) -/

theorem loadLine_fits {b m : Byte} (hb : b.toNat < 4) (hm : m.toNat < 16) :
    (loadLine b m).1 = ⟨b.getLsbD 0, b.getLsbD 1, m.truncate 4⟩ := by
  rw [loadLine, if_pos ⟨hb, hm⟩]

theorem loadLine_misfits {b m : Byte} (h : 4 ≤ b.toNat ∨ 16 ≤ m.toNat) : (loadLine b m).1 = .default := by
  rw [loadLine, if_neg (by omega)]

/-! ### The sweep list (R185, R194) -/

theorem loadStep_new {r : List Byte} {x : SweepStep} (h : loadStep r = some x) :
    x.result = .notRun ∧ x.fails = 0 := by
  unfold loadStep at h
  repeat' split at h
  all_goals cases h
  exact ⟨rfl, rfl⟩

theorem loadSteps_new {bs : List Byte} {n : Nat} : ∀ x ∈ (loadSteps bs n).1, x.result = .notRun ∧ x.fails = 0 := by
  intro x hx
  obtain ⟨o, ho, he⟩ := List.mem_filterMap.1 hx
  obtain ⟨k, -, hk⟩ := List.mem_map.1 ho
  exact loadStep_new (hk.trans he)

/-! ### The parts together (R203) -/

section
variable (bs : List Byte)

theorem loadParts_port (p : Port) :
    (loadParts bs).1.ports p = (loadPort p (byteAt bs (0x43 + p.code.toNat))).1 := rfl

theorem loadParts_line (n : Line) : (loadParts bs).1.lines n =
    (loadLine (byteAt bs (0x48 + 2 * n.code.toNat)) (byteAt bs (0x48 + 2 * n.code.toNat + 1))).1 := by
  cases n <;> rfl

theorem loadParts_mask : (loadParts bs).1.mask = BitVec.ofNat 16 (wordAt .trunk bs 0x4E) := rfl

theorem loadParts_enabled : (loadParts bs).1.enabled = decide (byteAt bs 0x50 = 1) := rfl

theorem loadParts_interval : (loadParts bs).1.interval =
    if wordAt .trunk bs 0x52 ≤ 3600 then wordAt .trunk bs 0x52 else 0 := rfl

theorem loadParts_new : ∀ x ∈ (loadParts bs).1.steps, x.result = .notRun ∧ x.fails = 0 := by
  have h : (loadParts bs).1.steps = (if (byteAt bs 0x51).toNat ≤ 32 then
      loadSteps (bs.drop 0x54) (byteAt bs 0x51).toNat else ([], true)).1 := rfl
  rw [h]
  split
  · exact loadSteps_new
  · nofun

end

end Sys2Proof.Machine

/-! The ports at the load's end: what starting one port does to it, and leaves of the others. -/

namespace Sys2Proof.Machine

/-! ### Slots and flags under the controller's work -/

/-- From `s` to `t` no slot but the port's own has changed, and no flag but POOL-LOW has become raised. -/
structure Slotwise (p : Port) (s t : State) : Prop where
  slot : ∀ q, q ≠ p → t.slots.get q = s.slots.get q
  flags : gainsFlags (· = .poolLow) s t

theorem Slotwise.trans {p : Port} {s t u : State} (h : Slotwise p s t) (k : Slotwise p t u) : Slotwise p s u :=
  ⟨fun q hq => (k.slot q hq).trans (h.slot q hq), gainsFlags_trans h.flags k.flags⟩

theorem slotwise_of_eq {p : Port} {s t : State} (hslots : t.slots = s.slots) (hflags : t.flags = s.flags) :
    Slotwise p s t := ⟨fun _ _ => by rw [hslots], gainsFlags_of_eq hflags⟩

theorem slotwise_of_set {p : Port} {s t : State} {v : Option Nat} (hslots : t.slots = s.slots.set p v)
    (hflags : t.flags = s.flags) : Slotwise p s t :=
  ⟨fun q hq => by rw [hslots]; simp [Ne.symm hq], gainsFlags_of_eq hflags⟩

theorem slotwise_of_released {s t : State} (p : Port) (h : Released s t) : Slotwise p s t := by
  obtain ⟨pool, records, rfl⟩ := h
  exact slotwise_of_eq rfl rfl

section
variable (p : Port) (s : State)

theorem slotwise_idleTx : Slotwise p s (idleTx p s) := by cases p <;> exact slotwise_of_eq rfl rfl

theorem slotwise_emptySlot : Slotwise p s (emptySlot p s) := by
  obtain ⟨_, ⟨pool, records, rfl⟩, h⟩ := emptySlot_eq p s
  rw [h]
  exact slotwise_of_set rfl rfl

theorem slotwise_abortTx : Slotwise p s (abortTx p s) :=
  (slotwise_of_released p (released_releaseInFlight p s)).trans (slotwise_idleTx p _)

theorem slotwise_abandonSeg (x : Seg) : Slotwise p s (abandonSeg x s) := by
  unfold abandonSeg
  split
  · exact (slotwise_of_released p (released_releaseRef _ s)).trans (slotwise_of_eq rfl rfl)
  · exact slotwise_of_eq rfl rfl

theorem slotwise_abandonLink (l : Link) : Slotwise p s (abandonLink l s) := by
  unfold abandonLink
  split
  · exact (slotwise_of_released p (released_releaseRef _ s)).trans (slotwise_of_eq rfl rfl)
  · exact slotwise_of_eq rfl rfl

theorem slotwise_setLoopMode (m : LoopMode) : Slotwise p s (setLoopMode p m s) := by
  have aborted : Slotwise p s (if s.inFlight p = some .test then emptySlot p (abortTx p s) else s) := by
    split
    · exact (slotwise_abortTx p s).trans (slotwise_emptySlot p _)
    · exact slotwise_of_eq rfl rfl
  unfold setLoopMode
  split
  · exact slotwise_of_eq rfl rfl
  · cases p with
    | seg x => exact aborted.trans ((slotwise_abandonSeg _ _ x).trans (slotwise_of_eq rfl rfl))
    | link l => exact aborted.trans ((slotwise_abandonLink _ _ l).trans (slotwise_of_eq rfl rfl))

theorem slotwise_endTest : Slotwise p s (endTest p s) :=
  ((slotwise_setLoopMode p s .normal).trans (slotwise_emptySlot p _)).trans (slotwise_of_eq rfl rfl)

theorem slotwise_ownRecord (bs : List Byte) : Slotwise p s (ownRecord bs s).2 := by
  obtain ⟨-, -, -, -, -, -, -, -, -, -, hslots, -⟩ := sameButFrames_fields (ownRecord_same bs s)
  exact ⟨fun q _ => by rw [hslots], gainsFlags_ownRecordWith
    (fun s => gainsFlags_mono (fun _ h => h.elim id id) (gainsFlags_raise .poolLow s)) bs s⟩

theorem slotwise_placeTest : Slotwise p s (placeTest p s) := by
  unfold placeTest
  split
  · exact slotwise_of_eq rfl rfl
  · next t _ =>
    split
    · exact slotwise_of_eq rfl rfl
    · split
      · exact slotwise_of_eq rfl rfl
      · have made := slotwise_ownRecord p s (s.testFrame p t)
        split
        · next e =>
          rw [e] at made
          exact made.trans (slotwise_of_eq rfl rfl)
        · next e =>
          rw [e] at made
          exact made.trans (slotwise_of_set rfl rfl)

theorem slotwise_enterTesting : Slotwise p s (enterTesting p s) := by
  rw [enterTesting_eq_beginTest, beginTest, startPhase]
  refine Slotwise.trans ?_ ((slotwise_setLoopMode p _ _).trans (slotwise_placeTest p _))
  exact slotwise_of_eq rfl rfl

theorem slotwise_purgePort (why : PurgeReason) : Slotwise p s (purgePort p why s) := by
  obtain ⟨pool, records, h⟩ := purgePort_eq p why s
  refine slotwise_of_set (purgePort_leaves p why s).2 ?_
  rw [h, bumpBy_flags]
  cases p <;> rfl

end

/-! ### What starting a port leaves of the others -/

/-- From `s` to `t` a port stands: its record, its loop mode, its line and its slot, and its queue where
that takes no copies. -/
structure PortKept (q : Port) (s t : State) : Prop where
  service : t.service.get q = s.service.get q
  loop : t.loopMode q = s.loopMode q
  ready : t.ready q = s.ready q
  queue : s.unreachable q → t.queues.get q = s.queues.get q
  slot : t.slots.get q = s.slots.get q

theorem PortKept.trans {q : Port} {s t u : State} (h : PortKept q s t) (k : PortKept q t u) :
    PortKept q s u where
  service := k.service.trans h.service
  loop := k.loop.trans h.loop
  ready := k.ready.trans h.ready
  queue hs := by
    have ht : t.unreachable q := by simpa only [State.unreachable, State.serviceOf, h.service] using hs
    exact (k.queue ht).trans (h.queue hs)
  slot := k.slot.trans h.slot

theorem portKept_of_eq {q : Port} {s t : State} (hservice : t.service = s.service) (hsegs : t.segs = s.segs)
    (hlinks : t.links = s.links) (hqueues : t.queues = s.queues) (hslots : t.slots = s.slots) :
    PortKept q s t := by
  refine ⟨by rw [hservice], ?_, ?_, fun _ => by rw [hqueues], by rw [hslots]⟩
  · cases q with
    | seg x => rw [State.loopMode, hsegs, State.loopMode]
    | link l => rw [State.loopMode, hlinks, State.loopMode]
  · cases q with
    | seg x => rfl
    | link l => rw [State.ready, hlinks, State.ready]

theorem portKept_raise (q : Port) (f : Flag) (s : State) : PortKept q s (raise f s) := by
  obtain ⟨-, -, -, -, -, -, -, hsegs, hlinks, -, hslots, -⟩ := sameButFrames_fields (raise_same f s)
  obtain ⟨hservice, hqueues⟩ := keepsQueues_raise f s
  have kept : PortKept q s { raise f s with queues := s.queues } :=
    portKept_of_eq hservice hsegs hlinks rfl hslots
  exact ⟨kept.service, kept.loop, kept.ready, hqueues q, kept.slot⟩

/-- A state without what starting a port may touch. -/
def State.unstarted (s : State) : State := { s.bare with heldReply := none }

/-- From `s` to `t` the controller has worked at port `p`, whatever reply is held. -/
structure StartWork (p : Port) (s t : State) : Prop where
  rest : t.unstarted = s.unstarted
  ready : ∀ q, t.ready q = s.ready q
  others : ∀ q, q ≠ p → PortKept q s t
  flags : gainsFlags (· = .poolLow) s t

theorem StartWork.trans {p : Port} {s t u : State} (h : StartWork p s t) (k : StartWork p t u) :
    StartWork p s u where
  rest := k.rest.trans h.rest
  ready q := (k.ready q).trans (h.ready q)
  others q hq := (h.others q hq).trans (k.others q hq)
  flags := gainsFlags_trans h.flags k.flags

theorem AtPort.startWork {p : Port} {s t : State} (h : AtPort p s t) (k : Slotwise p s t) :
    StartWork p s t where
  rest := congrArg (fun v : State => { v with heldReply := none }) h.rest
  ready := h.ready
  others q hq := by
    refine ⟨h.service q hq, ?_, h.ready q, h.queue q hq, k.slot q hq⟩
    cases q with
    | seg x => exact congrArg SegPort.loop (h.seg x hq)
    | link l => exact congrArg LinkPort.loop (h.link l hq)
  flags := k.flags

theorem startWork_modService (p : Port) (f : PortService → PortService) (s : State) :
    StartWork p s (modService p f s) :=
  (atPort_modService p f s).startWork (slotwise_of_eq rfl rfl)

theorem startWork_setService_off (p : Port) (s : State) : StartWork p s (setService p .off s) := by
  obtain ⟨reply, counters, e, -⟩ := setService_eq (p := p) (st := .off) (s := s) (by simp)
  rw [e]
  have work := startWork_modService p (fun v => { v with state := .off }) s
  refine ⟨?_, ?_, fun q hq => work.others q hq |>.trans (portKept_of_eq rfl rfl rfl rfl rfl), work.flags⟩
  · exact (congrArg (fun v : State => { v with heldReply := none }) rfl).trans work.rest
  · exact work.ready

theorem startWork_enterTesting (p : Port) (s : State) : StartWork p s (enterTesting p s) := by
  refine AtPort.startWork ?_ (slotwise_enterTesting p s)
  rw [enterTesting_eq_beginTest]
  exact (atPort_modService p _ s).trans (atPort_beginTest p _ _ _)

/-! ### One port starts (R174) -/

/-- A port with its test ended and its settings in force, before it starts. -/
def portSet (p : Port) (bcast accept : Bool) (s : State) : State :=
  modService p (fun v => { v with bcast := bcast, accept := accept }) (endTest p s)

theorem startPort_on (p : Port) (bcast accept : Bool) (s : State) :
    startPort p true bcast accept s = enterTesting p (portSet p bcast accept s) := rfl

theorem startPort_off (p : Port) (bcast accept : Bool) (s : State) :
    startPort p false bcast accept s = purgePort p .off (setService p .off (portSet p bcast accept s)) := rfl

section
variable (p : Port) (on bcast accept : Bool) (s : State)

theorem startWork_portSet : StartWork p s (portSet p bcast accept s) :=
  ((atPort_endTest p s).startWork (slotwise_endTest p s)).trans (startWork_modService p _ _)

theorem service_portSet : (portSet p bcast accept s).service.get p =
    { s.service.get p with bcast := bcast, accept := accept, test := none } := by
  simp [portSet, service_endTest]

theorem startWork_startPort : StartWork p s (startPort p on bcast accept s) := by
  have set := startWork_portSet p bcast accept s
  cases on with
  | true => exact set.trans (startWork_enterTesting p _)
  | false =>
    exact set.trans ((startWork_setService_off p _).trans
      ((atPort_purgePort p .off _).startWork (slotwise_purgePort p _ .off)))

theorem portStarted_startPort : portStarted p on bcast accept s (startPort p on bcast accept s) := by
  have set := startWork_portSet p bcast accept s
  cases on with
  | true =>
    obtain ⟨timer, wait, hrecord⟩ := record_enterTesting p (portSet p bcast accept s)
    have hphase : (portSet p bcast accept s).entryPhase p = s.entryPhase p := by
      rw [State.entryPhase, set.ready, State.entryPhase]
    rw [service_portSet, hphase] at hrecord
    refine ⟨?_, ?_, fun _ => ⟨?_, ⟨⟨.entry, s.entryPhase p, 1, timer, wait⟩, ?_, rfl, rfl⟩, ?_, ?_⟩, nofun⟩
    · rw [startPort_on, hrecord]; rfl
    · rw [startPort_on, hrecord]; rfl
    · rw [startPort_on, State.serviceOf, hrecord]; rfl
    · rw [startPort_on, State.testOf, hrecord]; rfl
    · rw [startPort_on, enterTesting_eq_beginTest, loopMode_beginTest, hphase, State.entryPhase]
      split <;> rfl
    · rw [startPort_on, hrecord]; rfl
  | false =>
    have hrecord : (startPort p false bcast accept s).service.get p = { s.service.get p with
        state := .off, bcast := bcast, accept := accept, test := none } := by
      rw [startPort_off, service_purgePort, service_setService _ (by simp), PerPort.get_set, if_pos rfl,
        service_portSet]
    obtain ⟨hqueues, hslots⟩ := purgePort_leaves p .off (setService p .off (portSet p bcast accept s))
    refine ⟨?_, ?_, nofun, fun _ => ⟨?_, ?_, ?_, ?_⟩⟩
    · rw [hrecord]
    · rw [hrecord]
    · rw [State.serviceOf, hrecord]
    · rw [State.testOf, hrecord]
    · rw [startPort_off, hqueues, PerPort.get_set, if_pos rfl]
    · rw [startPort_off, hslots, PerPort.get_set, if_pos rfl]

end

/-! ### A started port stands through later work -/

section
variable {p : Port} {on bcast accept : Bool} {s t u : State}

theorem portStarted_unreachable (h : portStarted p on bcast accept s t) : t.unreachable p := by
  obtain ⟨-, -, hon, hoff⟩ := h
  cases on with
  | true =>
    obtain ⟨hservice, -⟩ := hon rfl
    simp [State.unreachable, hservice]
  | false =>
    obtain ⟨hservice, -⟩ := hoff rfl
    simp [State.unreachable, hservice]

theorem portStarted_then (h : portStarted p on bcast accept s t) (k : PortKept p t u) :
    portStarted p on bcast accept s u := by
  have hqueue := k.queue (portStarted_unreachable h)
  obtain ⟨hbcast, haccept, hon, hoff⟩ := h
  rw [← k.service] at hbcast haccept
  refine ⟨hbcast, haccept, fun ht => ?_, fun hf => ?_⟩
  · obtain ⟨hservice, htest, hloop, hnumber⟩ := hon ht
    rw [← k.service] at hnumber
    refine ⟨?_, ?_, k.loop.trans hloop, hnumber⟩
    · rwa [State.serviceOf, k.service]
    · rwa [State.entryTest, State.testOf, k.service]
  · obtain ⟨hservice, htest, hempty, hslot⟩ := hoff hf
    refine ⟨?_, ?_, hqueue.trans hempty, k.slot.trans hslot⟩
    · rwa [State.serviceOf, k.service]
    · rwa [State.testOf, k.service]

theorem portStarted_from (k : PortKept p s t) (h : portStarted p on bcast accept t u) :
    portStarted p on bcast accept s u := by
  unfold portStarted at h ⊢
  rwa [k.ready, k.service] at h

end

/-! ### Every port starts -/

/-- The ports of a list started in order with their settings. -/
def startPorts (d : Port → PortSetting) (ps : List Port) (s : State) : State :=
  ps.foldl (fun s p => startPort p (d p).on (d p).bcast (d p).accept s) s

/-- From `s` to `t` the ports of a list have started, and the others and the rest of the state stand. -/
structure PortsStarted (d : Port → PortSetting) (ps : List Port) (s t : State) : Prop where
  rest : t.unstarted = s.unstarted
  started : ∀ p ∈ ps, portStarted p (d p).on (d p).bcast (d p).accept s t
  others : ∀ q, q ∉ ps → PortKept q s t
  flags : gainsFlags (· = .poolLow) s t

theorem portsStarted_startPorts (d : Port → PortSetting) {ps : List Port} (hps : ps.Nodup) (s : State) :
    PortsStarted d ps s (startPorts d ps s) := by
  induction ps generalizing s with
  | nil => exact ⟨rfl, nofun, fun q _ => portKept_of_eq rfl rfl rfl rfl rfl, gainsFlags_of_eq rfl⟩
  | cons p ps ih =>
    obtain ⟨hp, hps⟩ := List.nodup_cons.1 hps
    let u := startPort p (d p).on (d p).bcast (d p).accept s
    have work : StartWork p s u := startWork_startPort p _ _ _ s
    have done : PortsStarted d ps u (startPorts d (p :: ps) s) := ih hps u
    refine ⟨done.rest.trans work.rest, fun q hq => ?_, fun q hq => ?_, gainsFlags_trans work.flags done.flags⟩
    · rcases List.mem_cons.1 hq with rfl | hq
      · exact portStarted_then (portStarted_startPort q _ _ _ s) (done.others q hp)
      · exact portStarted_from (work.others q fun hqp => hp (hqp ▸ hq)) (done.started q hq)
    · obtain ⟨hqp, hq⟩ := not_or.1 (mt List.mem_cons.2 hq)
      exact (work.others q hqp).trans (done.others q hq)

end Sys2Proof.Machine

/-! The load's end: the image, or the values of an absent one, in force. -/

namespace Sys2Proof.Machine

/-! ### The lines at the load's end (R144) -/

theorem lineJobState_eq (n : Line) (st : JobState) (s : State) :
    ∃ jobs, lineJobState n st s = { s with jobs := jobs } := by
  unfold lineJobState modLineJob modJob
  repeat' split
  all_goals exact ⟨_, rfl⟩

theorem startInit_eq (n : Line) (s : State) :
    ∃ lines jobs, startInit n s = { s with lines := lines, jobs := jobs } := by
  unfold startInit
  obtain ⟨jobs, e⟩ := lineJobState_eq n .stalled (modLine n (fun t => { t.quietened with
    state := .resetting, stallCause := none, data := 0, initTimer := some 20 }) s)
  exact ⟨_, jobs, e⟩

theorem enableLine_eq (n : Line) (s : State) :
    ∃ lines jobs, enableLine n s = { s with lines := lines, jobs := jobs } := by
  unfold enableLine
  split
  · obtain ⟨lines, jobs, e⟩ := startInit_eq n (modLine n (fun t => { t with enabled := true }) s)
    exact ⟨lines, jobs, e⟩
  · exact ⟨s.lines, s.jobs, rfl⟩

theorem startLine_eq (n : Line) (t : LineSetting) (s : State) :
    ∃ lines jobs, startLine n t s = { s with lines := lines, jobs := jobs } := by
  let set := modLine n (fun v => { v with rotating := t.rotating, holdMask := t.holdMask }) s
  have h : startLine n t s = if t.enabled then enableLine n set else set := rfl
  rw [h]
  split
  · obtain ⟨lines, jobs, e⟩ := enableLine_eq n set
    exact ⟨lines, jobs, e⟩
  · exact ⟨set.lines, s.jobs, rfl⟩

/-- Both lines at the load's end. -/
def startLines (d : Line → LineSetting) (s : State) : State :=
  startLine .lp2 (d .lp2) (startLine .lp1 (d .lp1) s)

theorem startLines_eq (d : Line → LineSetting) (s : State) :
    ∃ lines jobs, startLines d s = { s with lines := lines, jobs := jobs } := by
  obtain ⟨lines, jobs, e⟩ := startLine_eq .lp1 (d .lp1) s
  obtain ⟨lines', jobs', e'⟩ := startLine_eq .lp2 (d .lp2) { s with lines := lines, jobs := jobs }
  exact ⟨lines', jobs', by rw [startLines, e, e']⟩

theorem startLines_lines (d : Line → LineSetting) (s : State) (n : Line) : (startLines d s).lines.get n =
    (s.lines.get n).loaded (d n).enabled (d n).rotating (d n).holdMask := by
  rw [startLines, startLine_lines, startLine_lines]
  cases n <;> rfl

/-! ### A load in force (R145, R174, R185, R194) -/

/-- A state with a load's configuration, mask and sweep list, and with its window begun. -/
def settingsLoaded (d : Load) (s : State) : State :=
  let enabled := d.enabled && decide (d.interval ≠ 0)
  beginWindow (modSweep (fun w => { w with
    steps := d.steps, interval := d.interval, enabled := enabled
    timer := if enabled then some d.interval else none })
    { s with config := d.config, mask := d.mask, loading := false })

theorem putInForce_eq (d : Load) (s : State) : putInForce d s =
    startPorts d.ports Port.all (startLines d.lines (settingsLoaded d s)) := rfl

/-- From `s` to `t` a load has been put in force. -/
structure InForce (d : Load) (s t : State) : Prop where
  loading : t.loading = false
  config : t.config = d.config
  mask : t.mask = d.mask
  steps : t.sweep.steps = d.steps
  interval : t.sweep.interval = d.interval
  enabled : t.sweep.enabled = (d.enabled && decide (d.interval ≠ 0))
  timer : t.sweep.timer = if t.sweep.enabled then some t.sweep.interval else none
  window : t.windowBegun
  dir : t.dir = s.dir
  serial : t.serial = s.serial
  ports : ∀ p, portStarted p (d.ports p).on (d.ports p).bcast (d.ports p).accept s t
  lines : ∀ n, t.lines.get n =
    (s.lines.get n).loaded (d.lines n).enabled (d.lines n).rotating (d.lines n).holdMask

/-- The state in which the ports start has the load in force but for them. -/
theorem portsStarted_putInForce (d : Load) (s : State) :
    PortsStarted d.ports Port.all (startLines d.lines (settingsLoaded d s)) (putInForce d s) := by
  rw [putInForce_eq]
  exact portsStarted_startPorts d.ports (by decide) _

theorem unstarted_fields {s t : State} (h : t.unstarted = s.unstarted) : t.loading = s.loading ∧
    t.config = s.config ∧ t.mask = s.mask ∧ t.sweep = s.sweep ∧ t.window = s.window ∧ t.segWin = s.segWin ∧
    t.linkWin = s.linkWin ∧ t.marks = s.marks ∧ t.dir = s.dir ∧ t.serial = s.serial ∧ t.lines = s.lines :=
  ⟨(congrArg State.loading h :), (congrArg State.config h :), (congrArg State.mask h :),
    (congrArg State.sweep h :), (congrArg State.window h :), (congrArg State.segWin h :),
    (congrArg State.linkWin h :), (congrArg State.marks h :), (congrArg State.dir h :),
    (congrArg State.serial h :), (congrArg State.lines h :)⟩

theorem inForce_putInForce (d : Load) (s : State) : InForce d s (putInForce d s) := by
  have hstarted := portsStarted_putInForce d s
  have hlines := startLines_lines d.lines (settingsLoaded d s)
  obtain ⟨lines, jobs, e⟩ := startLines_eq d.lines (settingsLoaded d s)
  rw [e] at hstarted hlines
  obtain ⟨hloading, hconfig, hmask, hsweep, hwindow, hsegWin, hlinkWin, hmarks, hdir, hserial, hput⟩ :=
    unstarted_fields hstarted.rest
  refine ⟨hloading, hconfig, hmask, ?_, ?_, ?_, ?_, ⟨?_, fun x => ?_, fun l => ?_, fun p => ?_⟩, hdir, hserial,
    fun p => portStarted_from (portKept_of_eq rfl rfl rfl rfl rfl) (hstarted.started p (mem_allPorts p)),
    fun n => ?_⟩
  · rw [hsweep]; rfl
  · rw [hsweep]; rfl
  · rw [hsweep]; rfl
  · rw [hsweep]; rfl
  · rw [hwindow, hconfig]; rfl
  · rw [hsegWin]
    exact PerSeg.get_fill ..
  · rw [hlinkWin]
    exact PerLink.get_fill ..
  · rw [hmarks]
    exact PerPort.get_fill ..
  · rw [hput]
    exact hlines n

theorem gainsFlags_putInForce (d : Load) (s : State) : gainsFlags (· = .poolLow) s (putInForce d s) := by
  have hflags := (portsStarted_putInForce d s).flags
  obtain ⟨lines, jobs, e⟩ := startLines_eq d.lines (settingsLoaded d s)
  rw [e] at hflags
  exact hflags

theorem imageFault_putInForce (d : Load) (s : State) :
    (putInForce d s).raised .imageFault = s.raised .imageFault := by
  rw [Bool.eq_iff_iff]
  obtain ⟨hkept, hgained⟩ := gainsFlags_putInForce d s .imageFault
  exact ⟨fun h => (hgained h).resolve_right (by simp), hkept⟩

section
variable {d : Load} {s t : State}

/-- A raise leaves a load in force. -/
theorem InForce.raise (h : InForce d s t) (f : Flag) : InForce d s (raise f t) := by
  obtain ⟨-, -, -, -, -, -, hserial, -, -, -, -, hdir, -, -, -, -, hlines, hwindow, hsegWin, hlinkWin,
    hmarks, -, hsweep, -, -, -, -, hconfig, hmask, hloading⟩ := sameButFrames_fields (raise_same f t)
  obtain ⟨hbegun, hsegs, hlinks, hports⟩ := h.window
  refine ⟨hloading.trans h.loading, hconfig.trans h.config, hmask.trans h.mask, ?_, ?_, ?_, ?_,
    ⟨?_, ?_, ?_, ?_⟩, hdir.trans h.dir, hserial.trans h.serial,
    fun p => portStarted_then (h.ports p) (portKept_raise p f t), fun n => ?_⟩
  · rw [hsweep, h.steps]
  · rw [hsweep, h.interval]
  · rw [hsweep, h.enabled]
  · rw [hsweep, h.timer]
  · rw [hwindow, hconfig, hbegun]
  · rwa [hsegWin]
  · rwa [hlinkWin]
  · rwa [hmarks]
  · rw [hlines, h.lines]

/-- Entries loaded before a load is put in force change none of it but the directory. -/
theorem InForce.ports_lines {dir : Table Nat Entry} (h : InForce d { s with dir := dir } t) :
    (∀ p, portStarted p (d.ports p).on (d.ports p).bcast (d.ports p).accept s t) ∧
      ∀ n, t.lines.get n =
        (s.lines.get n).loaded (d.lines n).enabled (d.lines n).rotating (d.lines n).holdMask :=
  ⟨fun p => portStarted_from (portKept_of_eq rfl rfl rfl rfl rfl) (h.ports p), h.lines⟩

end

/-! ### How a load ends (R194) -/

/-- A load put in force, with IMAGE-FAULT raised or not. -/
def putLoaded (d : Load) (fault : Bool) (s : State) : State :=
  if fault then raise .imageFault (putInForce d s) else putInForce d s

theorem inForce_putLoaded (d : Load) (fault : Bool) (s : State) : InForce d s (putLoaded d fault s) := by
  unfold putLoaded
  split
  · exact (inForce_putInForce d s).raise _
  · exact inForce_putInForce d s

theorem imageFault_putLoaded (d : Load) (fault : Bool) (s : State) : (putLoaded d fault s).raised .imageFault =
    if fault then true else s.raised .imageFault := by
  unfold putLoaded
  split
  · exact raised_raise _ _
  · exact imageFault_putInForce d s

section
variable {s : State} (hloading : s.loading = true)
include hloading

theorem imageLoadEnd_nothing {r : ImageRead} (h : r ≠ .allRead ∨ s.serial.image = none) :
    imageLoadEnd r s = putLoaded .default (decide (r ≠ .noAcknowledge)) s := by
  unfold imageLoadEnd
  rw [if_pos hloading]
  cases r with
  | noAcknowledge => rfl
  | transferFailed => rfl
  | allRead =>
    rw [h.resolve_left (fun hr => hr rfl)]
    rfl

theorem imageLoadEnd_image {bs : List Byte} (h : s.serial.image = some bs) : imageLoadEnd .allRead s =
    putLoaded (loadParts bs).1 ((loadParts bs).2 || (entriesLoaded bs s).2) (entriesLoaded bs s).1 := by
  unfold imageLoadEnd
  rw [if_pos hloading]
  simp only [h]
  rfl

end

theorem exec_imageLoadEnd {r : ImageRead} {s : State} (h : s.active = true) :
    exec (.imageLoadEnd r) s = .next (imageLoadEnd r s) :=
  congrArg Host.Outcome.next (whenActive_of_active _ h)

/-! ### The statement -/

/-- A load of entries changes nothing but the directory. -/
theorem entriesLoaded_eq (bs : List Byte) (s : State) : ∃ dir, (entriesLoaded bs s).1 = { s with dir := dir } :=
  loadEntries_eq ..

/-- With the default values in force every port is on, and a link broadcasts and accepts. -/
theorem InForce.default {s t : State} (h : InForce .default s t) : t.loading = false ∧ t.config = .default ∧
    t.mask = 0xFFFF ∧ t.sweep.steps = [] ∧ t.sweep.enabled = false ∧ t.sweep.interval = 0 ∧
    t.sweep.timer = none ∧ t.windowBegun ∧ t.dir = s.dir ∧ t.serial = s.serial ∧
    (∀ p, portStarted p true (p.side = .pair) (p.side = .pair) s t) ∧
    ∀ n, t.lines.get n = (s.lines.get n).loaded true false 0 := by
  have henabled : t.sweep.enabled = false := h.enabled
  refine ⟨h.loading, h.config, h.mask, h.steps, henabled, h.interval, ?_, h.window, h.dir, h.serial,
    h.ports, h.lines⟩
  rw [h.timer, henabled]
  rfl

section
variable {bs : List Byte} {s t : State}

/-- With an image in force each port and each line has the settings of its bytes, or the defaults. -/
theorem InForce.settings {dir : Table Nat Entry} (h : InForce (loadParts bs).1 { s with dir := dir } t) :
    (∀ p, let b := byteAt bs (0x43 + p.code.toNat)
      (b.toNat < 8 ∧ (p.side = .trunk → b.getLsbD 1 = false) →
        portStarted p (b.getLsbD 0) (b.getLsbD 1) (b.getLsbD 2) s t) ∧
      (8 ≤ b.toNat ∨ p.side = .trunk ∧ b.getLsbD 1 = true →
        portStarted p true (p.side = .pair) (p.side = .pair) s t)) ∧
    ∀ n, let o := 0x48 + 2 * n.code.toNat
      let b := byteAt bs o
      let m := byteAt bs (o + 1)
      (b.toNat < 4 → m.toNat < 16 → t.lines.get n =
        (s.lines.get n).loaded (b.getLsbD 0) (b.getLsbD 1) (m.truncate 4)) ∧
      (4 ≤ b.toNat ∨ 16 ≤ m.toNat → t.lines.get n = (s.lines.get n).loaded true false 0) := by
  obtain ⟨hports, hlines⟩ := h.ports_lines
  refine ⟨fun p => ⟨fun hb => ?_, fun hb => ?_⟩, fun n => ⟨fun hb hm => ?_, fun hbm => ?_⟩⟩
  · have hp := hports p
    rwa [loadParts_port, loadPort_fits hb] at hp
  · have hp := hports p
    rwa [loadParts_port, loadPort_misfits hb] at hp
  · have hn := hlines n
    rwa [loadParts_line, loadLine_fits hb hm] at hn
  · have hn := hlines n
    rwa [loadParts_line, loadLine_misfits hbm] at hn

/-- What the entries of an image come to, where the directory afterwards and the flag are theirs. -/
theorem entries_in_force (hok : s.directoryOk) (hdir : t.dir = (entriesLoaded bs s).1.dir)
    (hfault : (entriesLoaded bs s).2 = true → t.raised .imageFault = true) :
    (∀ i e, s.dir.find i = some e → t.dir.find i = some e) ∧
    (∀ i e, t.dir.find i = some e → s.dir.find i = some e ∨ some (i, e) ∈ imageEntries bs) ∧
    ∀ i e, some (i, e) ∈ imageEntries bs → e.origin = .static ∧ e.saved = e ∧
      (t.dir.find i = some e ∨ t.raised .imageFault = true ∧ ∃ j d, t.dir.find j = some d ∧
        (j = i ∨ (j < i ∨ s.dir.find j = some d) ∧ ∃ k ∈ e.keys, d.holds k = true)) := by
  obtain ⟨hr, -⟩ := hok
  rw [hdir]
  refine ⟨fun i e he => loadEntries_keeps imageList_index he, fun i e he => ?_, fun i e he => ?_⟩
  · exact (loadEntries_source imageList_index he).imp_right mem_imageList.1
  · obtain ⟨-, hstatic, hsaved⟩ := imageEntries_static he
    refine ⟨hstatic, hsaved, ?_⟩
    exact (loadEntries_explained imageList_index hr (inIndexOrder_sorted _) (mem_imageList.2 he)).imp_right
      (And.imp_left hfault)

end

/-- Settles O4, by what the memory answered: the default values or the image in force, and its entries. -/
theorem loadEndPutsTheImageInForce : Obligations.LoadEndPutsTheImageInForce := by
  refine ⟨fun r s ha hloading hr => ⟨_, exec_imageLoadEnd ha, ?_⟩,
    fun s bs ha hloading himage => ⟨_, exec_imageLoadEnd ha, ?_⟩⟩
  · rw [imageLoadEnd_nothing hloading hr]
    have hfault := imageFault_putLoaded .default (decide (r ≠ .noAcknowledge)) s
    obtain ⟨hload, hconfig, hmask, hsteps, henabled, hinterval, htimer, hwindow, hdir, hserial, hports,
      hlines⟩ := (inForce_putLoaded .default (decide (r ≠ .noAcknowledge)) s).default
    refine ⟨hload, hconfig, hmask, hsteps, henabled, hinterval, htimer, hwindow, hdir, hserial, hports,
      hlines, fun hr => ?_, fun hr => ?_⟩
    · rw [hfault, hr]
      rfl
    · rw [hfault, decide_eq_true hr]
      rfl
  · rw [imageLoadEnd_image hloading himage]
    have h := inForce_putLoaded (loadParts bs).1 ((loadParts bs).2 || (entriesLoaded bs s).2)
      (entriesLoaded bs s).1
    have hfault := imageFault_putLoaded (loadParts bs).1 ((loadParts bs).2 || (entriesLoaded bs s).2)
      (entriesLoaded bs s).1
    generalize putLoaded (loadParts bs).1 ((loadParts bs).2 || (entriesLoaded bs s).2)
      (entriesLoaded bs s).1 = t at h hfault ⊢
    have hdir := h.dir
    obtain ⟨dir, e⟩ := entriesLoaded_eq bs s
    rw [show (entriesLoaded bs s).1.raised .imageFault = s.raised .imageFault by rw [e]; rfl] at hfault
    rw [e] at h
    obtain ⟨hports, hlines⟩ := h.settings
    refine ⟨h.loading, h.serial, h.config, h.mask, h.window, hports, hlines, h.steps, ?_, h.interval, ?_,
      h.timer, fun hwhy => ?_, fun hok => ?_⟩
    · rw [h.steps]
      exact loadParts_new bs
    · rw [h.enabled, h.interval, loadParts_enabled, Bool.decide_and]
    · rw [hfault, if_pos]
      rw [Bool.or_eq_true]
      exact hwhy.imp_right entriesLoaded_fault
    · obtain ⟨hkept, hsource, hcame⟩ := entries_in_force hok hdir fun hbad => by
        rw [hfault, hbad, Bool.or_true, if_pos rfl]
      refine ⟨hkept, hsource, hcame, fun hparts hn hall => ?_⟩
      rw [hfault, hparts, entriesLoaded_clean hn (hdir ▸ hall)]
      rfl

end Sys2Proof.Machine

/-! Frames that the ingress checks discard, and the unknown-destination log. -/

namespace Sys2Proof.Machine

/-! ### The ingress checks (R80 to R85) -/

section
variable {p : Port} {h : Header} {rid : Nat} {s : State}

theorem judgeFrame_strayTest (hk : h.kind = kindTest) (ht : s.testOf p = none) :
    judgeFrame p h rid s = bump (.forward p .testDiscarded) s := by
  unfold judgeFrame
  dsimp only
  rw [if_pos hk, ht, if_neg (by decide), countAt]

variable (hk : h.kind ≠ kindTest)
include hk

theorem judgeFrame_notInService (hs : s.serviceOf p ≠ .inService) :
    judgeFrame p h rid s = bump (.forward p .notInService) s := by
  unfold judgeFrame
  dsimp only
  rw [if_neg hk, if_pos hs, countAt]

variable (hs : s.serviceOf p = .inService)
include hs

theorem judgeFrame_unknownKind (hu : knownKind h.kind = false) :
    judgeFrame p h rid s = bump (.forward p .unknownKind) s := by
  unfold judgeFrame
  dsimp only
  rw [if_neg hk, if_neg (not_not.2 hs), if_pos hu, countAt]

variable (hu : knownKind h.kind = true)
include hu

theorem judgeFrame_bridgeKind (hb : bridgeKind h.kind = true) :
    judgeFrame p h rid s = bump (.forward p .misdirectedKind) s := by
  unfold judgeFrame
  dsimp only
  rw [if_neg hk, if_neg (not_not.2 hs), if_neg (by rw [hu]; decide), if_pos hb, countAt]

theorem judgeFrame_trunkKindOnLink (hb : bridgeKind h.kind = false) (ht : trunkKind h.kind = true)
    (hp : p.side = .pair) : judgeFrame p h rid s = bump (.forward p .trunkOnlyOnLink) s := by
  unfold judgeFrame
  dsimp only
  rw [if_neg hk, if_neg (not_not.2 hs), if_neg (by rw [hu]; decide), if_neg (by rw [hb]; decide)]
  cases p with
  | seg x => cases hp
  | link l => exact if_pos ht

end

theorem bridgeKind_checks {kind : Byte} (hk : kind = kindPrintStatus ∨ kind = kindMgmtReply ∨ kind = kindNotice) :
    kind ≠ kindTest ∧ knownKind kind = true ∧ bridgeKind kind = true := by
  rcases hk with rfl | rfl | rfl <;> decide

theorem trunkKind_checks {kind : Byte} (hk : kind = kindClaim ∨ kind = kindObject ∨ kind = kindDefend) :
    kind ≠ kindTest ∧ knownKind kind = true ∧ bridgeKind kind = false ∧ trunkKind kind = true := by
  rcases hk with rfl | rfl | rfl <;> decide

/-- The kinds that stations send on both sides are among those whose source is judged (R82, R84). -/
theorem sourceKind_of_both {p : Port} {kind : Byte} (hk : kind.toNat < 0x80 ∨ kind = kindPrint ∨
    kind = kindEchoReq ∨ kind = kindEchoRep ∨ kind = kindMgmtReq) : sourceKind p kind := by
  rcases hk with hk | hk | hk | hk | hk <;> simp only [sourceKind, hk, true_or, or_true]

theorem claim_malformed {x : Seg} {h : Header} {rid : Nat} {s : State} (hlen : h.length ≠ 0) :
    claim x h rid s = bump (.forward (.seg x) .malformedClaim) s := if_pos hlen

section
variable {p : Port} {h : Header} {rid : Nat} {bytes : List Byte} {s : State}

theorem fromSource_badSource (hsrc : h.src.isStation = false) :
    fromSource p h rid bytes s = bump (.forward p .badSource) s := if_pos hsrc

theorem fromSource_quarantined {i : Nat} {e : Entry} (hsrc : h.src.isStation = true)
    (hl : s.lookup h.src = some (i, e)) (hq : s.quarantined i = true) (hk : h.kind ≠ kindEchoRep) :
    fromSource p h rid bytes s = bump (.forward p .quarantinedDrop) s := by
  unfold fromSource
  rw [if_neg (by rw [hsrc]; decide), hl]
  dsimp only
  rw [hq, if_pos rfl, if_neg fun hecho => hk hecho.1, countAt]

end

/-! ### Frames discarded at the ingress port (R79 to R85) -/

section
variable {p : Port} {c : Bool} {s : State} (ha : s.active = true) (hw : s.resultWaits = false)
include ha hw

/-- A port that has handed nothing over gives nothing to take (R79). -/
theorem exec_takeFrame_nothing (hf : s.handover.get p = []) :
    exec (.takeFrame p c) s = .next { s with commission := c } := by
  have htake : takeFrame p { s with commission := c } = { s with commission := c } := by
    simp only [takeFrame, hf]
  refine congrArg Host.Outcome.next ?_
  rw [whenActive_of_active _ (by exact ha), htake]
  exact settleSweep_of_sweep hw rfl

/-- A frame that is counted and nothing else is released. -/
theorem exec_takeFrame_dropped {h : Header} {rid : Nat} {rest : List Handed} {n : ForwardCount}
    (hf : s.handover.get p = ⟨h, rid⟩ :: rest) (hj : judgeFrame p h rid (frameTaken p c rest s) =
      bump (.forward p n) (frameTaken p c rest s)) : exec (.takeFrame p c) s =
    .next (releaseRef rid (bump (.forward p n) (frameTaken p c rest s))) :=
  exec_takeFrame ha hw hf hj (bump_sweep ..)

end

/-- Settles O22: the service state is judged before everything but TEST. -/
theorem framesTakenOutOfServiceAreDiscarded : Obligations.FramesTakenOutOfServiceAreDiscarded := by
  intro p c s h rid rest ha hw hf hk hs
  exact exec_takeFrame_dropped ha hw hf (judgeFrame_notInService (s := frameTaken p c rest s) hk hs)

/-- Settles O23, check by check in their order. -/
theorem ingressChecksDiscard : Obligations.IngressChecksDiscard := by
  refine fun p c s ha hw => ⟨exec_takeFrame_nothing ha hw, fun h rid rest hf => ?_⟩
  intro dropped
  have drop : ∀ {n}, judgeFrame p h rid (frameTaken p c rest s) =
      bump (.forward p n) (frameTaken p c rest s) → dropped n := exec_takeFrame_dropped ha hw hf
  refine ⟨fun hk ht => drop (judgeFrame_strayTest (s := frameTaken p c rest s) hk ht),
    fun hs hk => ⟨fun hu => ?_, fun hb => ?_, fun ht hp => ?_, fun hclaim hp hlen => ?_, fun hboth => ?_⟩⟩
  · exact drop (judgeFrame_unknownKind (s := frameTaken p c rest s) hk hs hu)
  · obtain ⟨-, hknown, hbridge⟩ := bridgeKind_checks hb
    exact drop (judgeFrame_bridgeKind (s := frameTaken p c rest s) hk hs hknown hbridge)
  · obtain ⟨-, hknown, hbridge, htrunk⟩ := trunkKind_checks ht
    exact drop (judgeFrame_trunkKindOnLink (s := frameTaken p c rest s) hk hs hknown hbridge htrunk hp)
  · cases p with
    | link l => cases hp
    | seg x => exact drop ((judgeFrame_claim (s := frameTaken (.seg x) c rest s) hs hclaim).trans
        (claim_malformed hlen))
  · have hj := judgeFrame_source (s := frameTaken p c rest s) (rid := rid) hs (sourceKind_of_both hboth)
    refine ⟨fun hsrc => drop (hj.trans (fromSource_badSource hsrc)), fun hecho hsrc hbarred => ?_⟩
    obtain ⟨i, e, t, hl, hst, hstand⟩ := hbarred
    have hq : (frameTaken p c rest s).quarantined i = true := by
      rw [quarantined_of_station (s := frameTaken p c rest s) hst]
      exact decide_eq_true hstand
    exact drop (hj.trans (fromSource_quarantined (s := frameTaken p c rest s) hsrc hl hq hecho))

/-! ### The unknown-destination log (R96) -/

section
variable {p : Port} {k : Key} {s : State}

theorem logUnknown_held (h : ∃ r ∈ s.unknownLog, r.dest = k) : logUnknown p k s =
    { bump (.forward p .unknownDest) s with unknownLog := s.unknownLog.map fun r =>
        if r.dest = k then ⟨k, p, min 255 (r.hits + 1)⟩ else r } := by
  have hany : s.unknownLog.any (fun r => r.dest = k) = true := by
    simpa using h
  have hhit : ∀ r : UnknownRecord,
      (if r.dest = k then { r with last := p, hits := min 255 (r.hits + 1) } else r) =
        if r.dest = k then ⟨k, p, min 255 (r.hits + 1)⟩ else r := fun r => by
    split
    · next hr => rw [hr]
    · rfl
  simp only [logUnknown, countAt, bump_unknownLog, hany, if_true, hhit]

/-- A key that no record holds joins at the tail; what else is done depends on the log's length before. -/
theorem logUnknown_new (h : ∀ r ∈ s.unknownLog, r.dest ≠ k) : logUnknown p k s =
    let joined (kept : List UnknownRecord) : State :=
      { bump (.forward p .unknownDest) s with unknownLog := kept ++ [⟨k, p, 1⟩] }
    if s.unknownLog = [] then raise .unknownDest (joined [])
    else if s.unknownLog.length < 16 then joined s.unknownLog
    else bump (.forwardPart .unknownLogOverwritten) (joined s.unknownLog.tail) := by
  have hany : s.unknownLog.any (fun r => r.dest = k) = false := by
    simpa using h
  have hlog : (countAt p .unknownDest s).unknownLog = s.unknownLog := bump_unknownLog ..
  unfold logUnknown
  dsimp only
  rw [hlog, hany, if_neg (by decide)]
  by_cases hempty : s.unknownLog = []
  · rw [if_pos hempty, hempty]
    rfl
  · rw [if_neg hempty, List.isEmpty_eq_false_iff.2 hempty]
    by_cases hroom : s.unknownLog.length < 16
    · rw [if_pos hroom, decide_eq_false (show ¬ Config.unknownRecords ≤ _ from Nat.not_le.2 hroom)]
      rfl
    · rw [if_neg hroom, decide_eq_true (show Config.unknownRecords ≤ _ from Nat.not_lt.1 hroom)]
      rfl

end

/-- Settles O25, by whether the log holds the key, and by the length of the log. -/
theorem unknownDestinationsAreLogged : Obligations.UnknownDestinationsAreLogged := by
  refine fun p k s => ⟨logUnknown_held, fun hnew => ⟨fun hempty => ?_, fun hsome hroom => ?_, fun hfull => ?_⟩⟩
  · exact (logUnknown_new hnew).trans (if_pos hempty)
  · exact (logUnknown_new hnew).trans ((if_neg hsome).trans (if_pos hroom))
  · have hsome : s.unknownLog ≠ [] := List.ne_nil_of_length_pos (by omega)
    exact (logUnknown_new hnew).trans ((if_neg hsome).trans (if_neg (Nat.not_lt.2 hfull)))

end Sys2Proof.Machine

/-! Requests that clear what they report. -/

namespace Sys2Proof.Machine

/-! ### The clearing of counters (R193) -/

theorem count_clearCount (c d : Counter) (s : State) :
    (clearCount c s).count d = if c = d then 0 else s.count d := by
  simp only [State.count, clearCount_counters, Table.find_drop]
  split <;> rfl

theorem count_clearCounts (d : Counter) : ∀ (cs : List Counter) (s : State),
    (clearCounts cs s).count d = if d ∈ cs then 0 else s.count d
  | [], _ => rfl
  | c :: cs, s => by
    rw [clearCounts, count_clearCounts d cs, count_clearCount]
    by_cases hc : c = d
    · simp [hc]
    · simp [hc, Ne.symm hc]

/-! ### A mask set with no notice to make (R190, R192) -/

/-- Without a destination, or with a notice outstanding, a flag that becomes counting makes no NOTICE. -/
theorem becomeCounting_silent {s : State} (low : State → State)
    (h : s.config.notice = none ∨ s.noticeOut = true) : becomeCounting low s = s := by
  unfold becomeCounting
  split
  · rfl
  · next hout => simp only [makeNoticeWith, h.resolve_right hout]

theorem carrySetEventMask_silent (m : BitVec 16) {s : State} (h : s.config.notice = none ∨ s.noticeOut = true) :
    carrySetEventMask m s = .done { s with mask := m } :=
  congrArg Carried.done (List.foldl_fixed' (fun _ => becomeCounting_silent _ (s := { s with mask := m }) h) _)

/-! ### The requests taken and answered (R187) -/

section
variable {s : State} {q : Request} {rest : List Request}

theorem exec_readUnknownLog (h : s.headIs q rest .readUnknownLog) : exec .readUnknownLog s =
    .next ((carryReadUnknownLog q.side (becomeCurrent q rest s)).answer q) :=
  congrArg Host.Outcome.next (carry_at h _ _ (a := ()) rfl)

theorem exec_readEvents (h : s.headIs q rest .readEvents) : exec .readEvents s =
    .next ((carryReadEvents q.side (becomeCurrent q rest s)).answer q) :=
  congrArg Host.Outcome.next (carry_at h _ _ (a := ()) rfl)

theorem exec_setEventMask {m : BitVec 16} (h : s.headIs q rest (.setEventMask m)) : exec .setEventMask s =
    .next ((carrySetEventMask m (becomeCurrent q rest s)).answer q) :=
  congrArg Host.Outcome.next (carry_at h _ _ (a := m) rfl)

end

/-- Settles O43, request by request: the results are those of the state before its clearing. -/
theorem clearingRequestsAnswerFirst : Obligations.ClearingRequestsAnswerFirst := by
  intro s q rest u
  refine ⟨exec_readUnknownLog, exec_readEvents, fun m h hsilent => ?_, fun g cs h hg => ⟨?_, fun c => ?_⟩⟩
  · rw [exec_setEventMask h, carrySetEventMask_silent m (s := becomeCurrent q rest s) hsilent]
    rfl
  · rw [exec_readCounters h, carryReadCounters, hg]
    rfl
  · exact count_clearCounts c cs u

end Sys2Proof.Machine

/-! The spool and the printer lines leave the sweep engine alone. -/

namespace Sys2Proof.Machine

/-! ### Jobs and their statuses (R39, R110, R112, R113) -/

theorem sweep_sendStatus (u : Key) (tag : Byte) (a : Answer) (s : State) :
    (sendStatus u tag a s).sweep = s.sweep := sweep_of_same (sendStatus_same u tag a s)

theorem sweep_endJob (slot : Nat) (e : JobEnd) (s : State) : (endJob slot e s).sweep = s.sweep := by
  cases h : s.jobs.find slot with
  | none => rw [endJob_of_find_none h]
  | some j => exact (sweep_of_same (endJob_same h e)).trans rfl

theorem sweep_joinReady (slot : Nat) (s : State) : (joinReady slot s).sweep = s.sweep := modJob_sweep ..

theorem sweep_spoolTake (s : State) : (spoolTake s).2.sweep = s.sweep := by
  unfold spoolTake
  split
  · exact bump_sweep ..
  · split
    · exact bump_sweep ..
    · rfl

theorem sweep_spoolTook (before : Pool) (s : State) : (spoolTook before s).sweep = s.sweep := by
  unfold spoolTook
  dsimp only
  split <;> split <;> simp only [sweep_raise]

/-! ### A line's inputs and its choice (R124 to R128, R138, R139) -/

theorem sweep_lineJobState (n : Line) (st : JobState) (s : State) : (lineJobState n st s).sweep = s.sweep := by
  unfold lineJobState modLineJob
  split
  · exact modJob_sweep ..
  · rfl

theorem sweep_judgeInputs (n : Line) (s : State) : (judgeInputs n s).sweep = s.sweep := by
  unfold judgeInputs
  dsimp only
  split
  · simp only [enterStall, sweep_raise, bump_sweep, sweep_lineJobState, modLine_sweep]
  · split <;> exact modLine_sweep ..

theorem sweep_takeJob (n : Line) (c : Choice) (s : State) : (takeJob n c s).sweep = s.sweep := by
  unfold takeJob
  dsimp only
  rw [sweep_judgeInputs]
  split <;> simp only [sweep_sendStatus, modLine_sweep, bump_sweep, modJob_sweep]

theorem sweep_choose (n : Line) (s : State) : (choose n s).sweep = s.sweep := by
  unfold choose
  split
  · split
    · exact sweep_takeJob ..
    · rfl
  · rfl

theorem sweep_tellLines (t : Target) (s : State) : (tellLines t s).sweep = s.sweep := by
  have order : (freeOrder s).2.sweep = s.sweep := rfl
  unfold tellLines
  split
  · exact sweep_choose ..
  · split
    · split <;> next e =>
        rw [e] at order
        rw [sweep_choose, sweep_choose, order]
    · rw [sweep_choose, sweep_choose]

theorem sweep_announce (slot : Nat) (s : State) : (announce slot s).sweep = s.sweep := by
  unfold announce
  split
  · exact sweep_tellLines ..
  · rfl

/-! ### An end asked of a job (R108, R132, R133) -/

theorem sweep_leaveService (n : Line) (s : State) : (leaveService n s).sweep = s.sweep :=
  (sweep_choose ..).trans (modLine_sweep ..)

theorem sweep_endLineJob (n : Line) (e : JobEnd) (s : State) :
    (endLineJobBy leaveService n e s).sweep = s.sweep := by
  unfold endLineJobBy
  split
  · rw [sweep_leaveService, sweep_endJob]
  · rfl

theorem sweep_askLine (n : Line) (e : JobEnd) (s : State) : (askLine leaveService n e s).sweep = s.sweep := by
  unfold askLine
  dsimp only
  split
  · split
    · rw [sweep_lineJobState, modLine_sweep]
    · exact sweep_endLineJob ..
  · exact sweep_endLineJob ..
  · split
    · rw [modLine_sweep, sweep_endJob]
    · rfl
  · rfl

theorem sweep_askEnd (slot : Nat) (e : JobEnd) (s : State) : (askEnd slot e s).sweep = s.sweep := by
  unfold askEnd askEndBy
  split
  · rfl
  · next j _ =>
    cases j.state with
    | arriving | ready | held => exact sweep_endJob ..
    | printing | stalled =>
      dsimp only
      split
      · rw [sweep_askLine, modJob_sweep]
      · exact modJob_sweep ..
    | draining => rfl

/-! ### PRINT frames (R102 to R108) -/

theorem sweep_refuse (u : Key) (tag : Byte) (r : RefusedReason) (s : State) :
    (refuse u tag r s).sweep = s.sweep := (sweep_sendStatus ..).trans (bump_sweep ..)

theorem sweep_unknownJob (u : Key) (tag : Byte) (s : State) : (unknownJob u tag s).sweep = s.sweep :=
  (sweep_sendStatus ..).trans (bump_sweep ..)

theorem sweep_openRest (h : Handoff) (tag : Byte) (copies : Nat) (s : State) :
    (openRest h tag copies s).sweep = s.sweep := by
  unfold openRest
  split
  · exact sweep_refuse ..
  · split
    · exact sweep_refuse ..
    · split
      · exact sweep_refuse ..
      · exact (sweep_sendStatus ..).trans (bump_sweep ..)

theorem sweep_printOpen (h : Handoff) (tag : Byte) (copies : Nat) (s : State) :
    (printOpen h tag copies s).sweep = s.sweep := by
  unfold printOpen
  split
  · exact sweep_refuse ..
  · split
    · exact sweep_refuse ..
    · split
      · split
        · rw [sweep_openRest, sweep_endJob]
        · exact sweep_refuse ..
      · exact sweep_openRest ..

theorem sweep_appendBytes (slot : Nat) : ∀ (bs : List Byte) (s : State),
    (appendBytes slot bs s).2.sweep = s.sweep
  | [], _ => rfl
  | b :: bs, s => by
    have taken := sweep_spoolTake s
    unfold appendBytes
    split
    · rfl
    · split
      · rw [sweep_appendBytes slot bs, modJob_sweep]
      · split
        · next e =>
          rw [e] at taken
          exact taken
        · next e =>
          rw [e] at taken
          rw [sweep_appendBytes slot bs, sweep_spoolTook, modJob_sweep, taken]

theorem sweep_printData (u : Key) (tag seq : Byte) (bytes : List Byte) (s : State) :
    (printData u tag seq bytes s).sweep = s.sweep := by
  unfold printData
  split
  · exact sweep_unknownJob ..
  · next slot j _ =>
    have appended := sweep_appendBytes slot bytes s
    split
    · exact sweep_endJob ..
    · split
      · next e =>
        rw [e] at appended
        rw [modJob_sweep, appended]
      · next e =>
        rw [e] at appended
        rw [sweep_endJob, appended]

theorem sweep_printClose (u : Key) (tag : Byte) (total : Nat) (s : State) :
    (printClose u tag total s).sweep = s.sweep := by
  cases h : s.arrivingJob u tag with
  | none =>
    rw [printClose_unknown total h]
    exact sweep_unknownJob ..
  | some found =>
    rw [printClose_of_arriving total h]
    split
    · exact sweep_endJob ..
    · split
      · exact sweep_endJob ..
      · split
        · rw [sweep_sendStatus, bump_sweep, closeJob, modJob_sweep]
        · rw [sweep_announce, sweep_sendStatus, bump_sweep, sweep_joinReady, closeJob, modJob_sweep]

theorem sweep_printCancel (u : Key) (tag : Byte) (s : State) : (printCancel u tag s).sweep = s.sweep := by
  cases h : s.jobOf u tag with
  | none =>
    rw [printCancel_unknown h]
    exact sweep_unknownJob ..
  | some found =>
    rw [printCancel_of_job h]
    exact sweep_askEnd ..

theorem sweep_printFrame (h : Handoff) (payload : List Byte) (s : State) :
    (printFrame h payload s).sweep = s.sweep := by
  unfold printFrame
  split
  · exact sweep_refuse ..
  · exact sweep_printOpen ..
  · exact sweep_printData ..
  · exact sweep_printClose ..
  · exact sweep_printCancel ..

end Sys2Proof.Machine

/-! Frames handed to the bridge and to the spool. -/

namespace Sys2Proof.Machine

/-! ### A station heard at its home (R56, R85, R86) -/

section
variable {p : Port} {c : Bool} {s : State} {h : Header} {rid : Nat} {rest : List Handed} {i : Nat}
  {e : Entry} {t : Station}

/-- A frame from a station at its home is dispatched on the state in which the station has been heard. -/
theorem exec_takeFrame_home {w : State} (ha : s.active = true) (hw : s.resultWaits = false)
    (hf : s.handover.get p = ⟨h, rid⟩ :: rest) (hs : s.serviceOf p = .inService) (hk : sourceKind p h.kind)
    (hsrc : h.src.isStation = true) (hl : s.lookup h.src = some (i, e)) (he : e.kind = .station t)
    (hst : s.station i = some t) (hhome : t.home = some p) (hstand : t.standing ≠ .quarantined)
    (hd : dispatch p h rid (.index i) (s.payload rid) (heardAt i p (frameTaken p c rest s)) = w)
    (hsweep : w.sweep = s.sweep) : exec (.takeFrame p c) s = .next (releaseRef rid w) := by
  have hq : (frameTaken p c rest s).quarantined i = false := by
    rw [quarantined_of_station (s := frameTaken p c rest s) hst]
    exact decide_eq_false hstand
  have hlearn := learn_heard (s := frameTaken p c rest s) (p := p) hl he (h.kind ≠ kindObject) (.inr hhome)
  refine exec_takeFrame ha hw hf ?_ hsweep
  rw [judgeFrame_source (s := frameTaken p c rest s) hs hk,
    fromSource_learned (s := frameTaken p c rest s) hsrc hl hq hlearn]
  exact hd

/-- Hearing a station leaves its rights and its standing: a manager stays one (R186). -/
theorem isManager_heardAt (hst : s.station i = some t) (hm : t.manager = true)
    (hstand : t.standing ≠ .quarantined) : (heardAt i p s).isManager (.index i) = true := by
  have kept : ∃ u, (heardAt i p s).station i = some u ∧ u.manager = t.manager ∧ u.standing = t.standing := by
    by_cases hi : i = 0
    · refine ⟨t, ?_, rfl, rfl⟩
      obtain ⟨o, n, a, hfind⟩ := station_iff.1 hst
      subst hi
      simpa only [heardAt, modStation, hfind, putEntry, if_true] using hst
    · exact ⟨_, station_modStation hi hst _, rfl, rfl⟩
  obtain ⟨u, hu, hmanager, hstanding⟩ := kept
  simp only [State.isManager, hu, hmanager, hstanding, hm, Bool.true_and]
  exact decide_eq_true hstand

end

/-! ### Frames for the bridge (R88, R89, R186) -/

theorem class_bridgeKey (side : Side) : side.bridgeKey.class = .bridge := by
  cases side <;> decide

section
variable {p : Port} {h : Header} {rid : Nat} {source : SourceEntry} {bytes : List Byte} {s : State}

theorem dispatch_echoReq (hk : h.kind = kindEchoReq) (hd : h.dest = p.side.bridgeKey) :
    dispatch p h rid source bytes s = answerEcho p h bytes s := by
  have hclass : h.dest.class = .bridge := hd ▸ class_bridgeKey p.side
  simp only [dispatch, hclass, toBridge, hk]
  rw [if_neg (by decide), if_pos trivial]

theorem dispatch_mgmtReq (hk : h.kind = kindMgmtReq) (hd : h.dest = p.side.bridgeKey) :
    dispatch p h rid source bytes s = intake p h.src source bytes (bump (.forward p .handedManagement) s) := by
  have hclass : h.dest.class = .bridge := hd ▸ class_bridgeKey p.side
  simp only [dispatch, hclass, toBridge, hk, if_true, countAt]

theorem dispatch_print {j : Nat} {d : Entry} {x : Target} {y : Fin 4} (hk : h.kind = kindPrint)
    (hc : h.dest.class = .station) (hl : s.lookup h.dest = some (j, d)) (hd : d.kind = .printer x y) :
    dispatch p h rid source bytes s =
      printFrame ⟨j, x, y, h.src, source⟩ bytes (bump (.forward p .handedSpool) s) := by
  simp only [dispatch, hc, hl, hd, toPrinter, hk, if_true, countAt]

theorem answerEcho_malformed (hlen : 64 < bytes.length) :
    answerEcho p h bytes s = bump (.forwardPart .echoMalformed) s := if_pos hlen

theorem answerEcho_joined {u : State} (hlen : bytes.length ≤ 64)
    (hsent : sendOwn p h.src kindEchoRep bytes s = (.joined, u)) :
    answerEcho p h bytes s = bump (.forward p .echoAnswered) u := by
  rw [answerEcho, if_neg (Nat.not_lt.2 hlen), hsent]
  rfl

theorem intake_accepted {k : Key} (ha : (s.service.get p).accept = true) (hm : s.isManager source = true)
    (hroom : s.requests.length < 4) : intake p k source bytes s =
      bump (.mgmt .requestsAccepted) { s with requests := s.requests ++ [⟨p, k, bytes⟩] } := by
  rw [intake, if_neg (by rw [ha]; decide), if_neg (by rw [hm]; simp), 
    if_neg (show ¬ Config.requestPlaces ≤ _ from Nat.not_le.2 hroom)]

end

/-- Settles O26: an ECHO-REQ, a MGMT-REQ and a PRINT of a station heard at its home. -/
theorem framesForTheBridgeAndTheSpoolAreHandedOver : Obligations.FramesForTheBridgeAndTheSpoolAreHandedOver := by
  intro p c s h rid rest i e t ha hw hf hs hsrc hl he hst hhome hstand v done
  have hheard : v.sweep = s.sweep := sweep_heardAt ..
  have taken : ∀ {w : State}, sourceKind p h.kind → dispatch p h rid (.index i) (s.payload rid) v = w →
      w.sweep = v.sweep → done w := fun hk hd hsweep =>
    exec_takeFrame_home ha hw hf hs hk hsrc hl he hst hhome hstand hd (hsweep.trans hheard)
  refine ⟨fun hk hdest => ?_, fun hk hdest haccept hm hroom => ?_, fun j d x y hk hc hlu hd => ?_⟩
  · have hkind : sourceKind p h.kind := sourceKind_of_both (by simp only [hk, true_or, or_true])
    refine ⟨fun hlen => ?_, fun hlen u hsent => ?_⟩
    · exact taken hkind ((dispatch_echoReq hk hdest).trans (answerEcho_malformed hlen)) (bump_sweep ..)
    · have hsame := sweep_of_same (sendOwn_same p h.src kindEchoRep (s.payload rid) v)
      rw [hsent] at hsame
      exact taken hkind ((dispatch_echoReq hk hdest).trans (answerEcho_joined hlen hsent))
        ((bump_sweep ..).trans hsame)
  · have hkind : sourceKind p h.kind := sourceKind_of_both (by simp only [hk, or_true])
    have hservice : (bump (.forward p .handedManagement) v).service = s.service :=
      (bump_service ..).trans (modStation_service ..)
    have hrequests : (bump (.forward p .handedManagement) v).requests = s.requests :=
      (bump_requests ..).trans (modStation_requests ..)
    have hmanager : (bump (.forward p .handedManagement) v).isManager (.index i) = true :=
      isManager_heardAt (s := frameTaken p c rest s) hst hm hstand
    have haccepted := intake_accepted (k := h.src) (bytes := s.payload rid) (by rw [hservice]; exact haccept)
      hmanager (by rw [hrequests]; exact hroom)
    rw [hrequests] at haccepted
    exact taken hkind ((dispatch_mgmtReq hk hdest).trans haccepted) (bump_sweep ..)
  · exact taken (sourceKind_of_both (.inr (.inl hk))) (dispatch_print hk hc hlu hd)
      ((sweep_printFrame ..).trans (bump_sweep ..))

end Sys2Proof.Machine

/-! OPEN, judged by the first check that applies. -/

namespace Sys2Proof.Machine

/-! ### The lowest free slot (R103, R104) -/

/-- Where no number tried is free, every one of them is held. -/
theorem Table.lowestFree_none {α : Type} {t : Table Nat α} : ∀ {n lo : Nat},
    t.lowestFree lo n = none → ∀ k, lo ≤ k → k < lo + n → t.find k ≠ none
  | 0, _, _, _, hlo, hk => by omega
  | n + 1, lo, h, k, hlo, hk => by
    unfold Table.lowestFree at h
    split at h
    · next hheld =>
      rcases Nat.eq_or_lt_of_le hlo with rfl | hlt
      · exact Option.isSome_iff_ne_none.1 hheld
      · exact Table.lowestFree_none h k hlt (by omega)
    · cases h

theorem Table.lowestFree_of_held {α : Type} {t : Table Nat α} {n : Nat} (h : ∀ k, k < n → t.find k ≠ none) :
    t.lowestFree 0 n = none := by
  cases hfound : t.lowestFree 0 n with
  | none => rfl
  | some k =>
    obtain ⟨hfree, -, hk⟩ := Table.lowestFree_spec hfound
    exact absurd hfree (h k (by omega))

theorem Table.lowestFree_of_free {α : Type} {t : Table Nat α} {n k : Nat} (hk : k < n) (hfree : t.find k = none)
    (hbelow : ∀ i, i < k → t.find i ≠ none) : t.lowestFree 0 n = some k := by
  cases hfound : t.lowestFree 0 n with
  | none => exact absurd hfree (Table.lowestFree_none hfound k (Nat.zero_le k) (by omega))
  | some i =>
    obtain ⟨hi, -, -⟩ := Table.lowestFree_spec hfound
    rcases Nat.lt_trichotomy i k with hlt | rfl | hlt
    · exact absurd hi (hbelow i hlt)
    · rfl
    · exact absurd hfree (Table.lowestFree_least hfound k (Nat.zero_le k) hlt)

/-! ### The checks of an OPEN (R103) -/

theorem readPrint_opening (side : Side) (tag : Byte) {x : Byte} (hlo : 1 ≤ x.toNat) (hhi : x.toNat ≤ 9) :
    readPrint side [1, tag, x, 0] = some (.opening tag x.toNat) := by
  rw [readPrint, if_pos rfl, if_pos ⟨hlo, hhi, rfl⟩]

section
variable {h : Handoff} {tag : Byte} {copies slot : Nat} {j : Job} {s : State}

theorem printFrame_opening {x : Byte} (hlo : 1 ≤ x.toNat) (hhi : x.toNat ≤ 9) :
    printFrame h [1, tag, x, 0] s = printOpen h tag x.toNat s := by
  simp only [printFrame, readPrint_opening _ tag hlo hhi]

theorem printOpen_notAllowed (hright : s.mayPrint h.source = false) :
    printOpen h tag copies s = refuse h.submitter tag .notAllowed s := if_pos hright

theorem printOpen_noPrinter (hright : s.mayPrint h.source = true) (hoff : s.noPrinter h.target = true) :
    printOpen h tag copies s = refuse h.submitter tag .noPrinter s := by
  rw [printOpen, if_neg (by simp [hright]), if_pos hoff]

section
variable (hright : s.mayPrint h.source = true) (hon : s.noPrinter h.target = false)
include hright hon

theorem printOpen_tagInUse (hjob : s.jobOf h.submitter tag = some (slot, j)) (hstate : j.state ≠ .arriving) :
    printOpen h tag copies s = refuse h.submitter tag .tagInUse s := by
  rw [printOpen, if_neg (by simp [hright]), if_neg (by simp [hon]), hjob]
  exact if_neg hstate

/-- The ARRIVING job that holds the tag is ended before the checks go on. -/
theorem printOpen_restarted (hjob : s.jobOf h.submitter tag = some (slot, j)) (hstate : j.state = .arriving) :
    printOpen h tag copies s = openRest h tag copies (endJob slot (.aborted .restarted) s) := by
  rw [printOpen, if_neg (by simp [hright]), if_neg (by simp [hon]), hjob]
  exact if_pos hstate

theorem printOpen_newTag (hjob : s.jobOf h.submitter tag = none) :
    printOpen h tag copies s = openRest h tag copies s := by
  rw [printOpen, if_neg (by simp [hright]), if_neg (by simp [hon]), hjob]

end

theorem openRest_submitterLimit (hlive : 4 ≤ s.liveOf h.submitter) :
    openRest h tag copies s = refuse h.submitter tag .submitterLimit s := if_pos hlive

theorem openRest_tableFull (hlive : s.liveOf h.submitter < 4) (hfull : ∀ k, k < 48 → s.jobs.find k ≠ none) :
    openRest h tag copies s = refuse h.submitter tag .tableFull s := by
  have hnone : s.jobs.lowestFree 0 Config.jobSlots = none := Table.lowestFree_of_held hfull
  simp only [openRest, if_neg (Nat.not_le.2 hlive), hnone]

/-- With a slot free, what the spool holds decides. -/
theorem openRest_of_slot (hlive : s.liveOf h.submitter < 4)
    (hslot : s.jobs.lowestFree 0 Config.jobSlots = some slot) :
    openRest h tag copies s =
      if s.nearFullAt ≤ s.pool.spoolHeld then refuse h.submitter tag .spoolFull s
      else sendStatus h.submitter tag .accepted
        (bump (.spool .opened) { s with jobs := s.jobs.put id slot (newJob h tag copies) }) := by
  simp only [openRest, if_neg (Nat.not_le.2 hlive), hslot]

end

/-- Settles O34: the checks of R103 in their order, and the job of an accepted OPEN. -/
theorem opensAreJudgedInOrder : Obligations.OpensAreJudgedInOrder := by
  intro h tag x s hlo hhi u opened
  have hopened : opened = printOpen h tag x.toNat s := printFrame_opening hlo hhi
  rw [hopened]
  refine ⟨printOpen_notAllowed, printOpen_noPrinter,
    fun hright hon => ⟨fun _ _ => printOpen_tagInUse hright hon, fun _ _ => printOpen_restarted hright hon,
      printOpen_newTag hright hon⟩,
    openRest_submitterLimit,
    fun hlive => ⟨openRest_tableFull hlive, fun slot hslot hfree hbelow => ?_⟩⟩
  rw [openRest_of_slot hlive (Table.lowestFree_of_free hslot hfree hbelow)]
  exact ⟨fun hnear => if_pos hnear, fun hroom => if_neg (Nat.not_le.2 hroom)⟩

end Sys2Proof.Machine

/-! A choice and the end of a job: the counters and the slots they leave. -/

namespace Sys2Proof.Machine

/-! ### The counters of a choice (R113, R120, R138, R143) -/

/-- The counters in which a line's choice, or a status, is counted: the job taken, its STARTED, a stall for a
bad input, and the frames and NOTICEs made. -/
def Counter.ofChoice : Counter → Bool
  | .spool .started | .spool .statusesSent | .spool .statusLost | .spool .statusNoRoute => true
  | .line _ .jobsTaken | .line _ .stallOffline | .line _ .stallPaperOut | .line _ .stallFault => true
  | c => c.noticed

theorem Counter.noticed_of_ofChoice {c : Counter} (h : c.ofChoice = false) : c.noticed = false := by
  unfold Counter.ofChoice at h
  split at h
  any_goals rfl
  exact h

/-- The outcomes are counted apart. -/
theorem JobEnd.counter_ofChoice (e : JobEnd) : (Counter.spool e.counter).ofChoice = false := by
  cases e with
  | aborted r => cases r <;> rfl
  | _ => rfl

/-- A bad input's stall is counted by its cause. -/
theorem LineState.badInput_ofChoice {t : LineState} {c : StallCause} (n : Line) (h : t.badInput = some c) :
    (Counter.line n c.counter).ofChoice = true := by
  revert h
  unfold LineState.badInput
  split_ifs <;> rintro ⟨⟩ <;> rfl

theorem count_lineJobState (c : Counter) (n : Line) (st : JobState) (s : State) :
    (lineJobState n st s).count c = s.count c := by
  obtain ⟨jobs, h⟩ := lineJobState_eq n st s
  exact count_of_counters c (by rw [h])

section
variable {c : Counter} (hc : c.ofChoice = false)
include hc

theorem count_bump_ofChoice {d : Counter} (hd : d.ofChoice = true) (s : State) : (bump d s).count c = s.count c :=
  count_bump_other (fun e => by simp [e, hc] at hd) s

theorem count_sendStatus (u : Key) (tag : Byte) (a : Answer) (s : State) :
    (sendStatus u tag a s).count c = s.count c := by
  unfold sendStatus
  split
  · exact count_bump_ofChoice hc rfl s
  · next p d _ =>
    have sent := count_sendOwn (Counter.noticed_of_ofChoice hc) p d kindPrintStatus (statusPayload tag a) s
    split <;> next e => rw [e] at sent; exact (count_bump_ofChoice hc rfl _).trans sent

theorem count_judgeInputs (n : Line) (s : State) : (judgeInputs n s).count c = s.count c := by
  unfold judgeInputs
  dsimp only
  split
  · next cause hbad =>
    have hstall := LineState.badInput_ofChoice n hbad
    rw [enterStall, count_raise (Counter.noticed_of_ofChoice hc), count_bump_ofChoice hc hstall,
      count_lineJobState]
    rfl
  · split <;> rfl

theorem count_takeJob (n : Line) (x : Choice) (s : State) : (takeJob n x s).count c = s.count c := by
  have taken : ∀ v : State, (bump (.spool .started) (bump (.line n .jobsTaken) v)).count c = v.count c :=
    fun v => (count_bump_ofChoice hc rfl _).trans (count_bump_ofChoice hc rfl v)
  have changed : ∀ f, (modJob x.slot f s).count c = s.count c := fun f =>
    count_of_counters c (modJob_counters ..)
  unfold takeJob
  dsimp only
  rw [count_judgeInputs hc]
  split
  · exact (count_sendStatus hc ..).trans ((taken _).trans (changed _))
  · exact (taken _).trans (changed _)

theorem count_choose (n : Line) (s : State) : (choose n s).count c = s.count c := by
  unfold choose
  split
  · split
    · exact count_takeJob hc ..
    · rfl
  · rfl

/-- The end of a job is counted by its outcome. -/
theorem count_endJob {slot : Nat} {j : Job} {s : State} (h : s.jobs.find slot = some j) (e : JobEnd) :
    (endJob slot e s).count c = (bump (.spool e.counter) s).count c := by
  let ended := if e.isAborted then raise .jobAborted (chainReturned slot j s) else chainReturned slot j s
  have hended : ∀ d : Counter, d.noticed = false → ended.count d = s.count d := fun d hd => by
    have returned : (chainReturned slot j s).count d = s.count d := by
      unfold chainReturned
      split
      · exact count_raise hd ..
      · rfl
    dsimp only [ended]
    split
    · exact (count_raise hd ..).trans returned
    · exact returned
  have hcounted : (bump (.spool e.counter) ended).count c = (bump (.spool e.counter) s).count c := by
    rw [count_bump, count_bump, hended c (Counter.noticed_of_ofChoice hc), hended (.spool e.counter) rfl]
  rw [endJob_of_find h]
  dsimp only
  split
  · exact hcounted
  · exact (count_sendStatus hc ..).trans hcounted

end

/-! ### Slots under a choice (R138, R139) -/

/-- Changing a job fills no slot. -/
theorem find_none_modJob {k i : Nat} {s : State} (h : s.jobs.find i = none) (f : Job → Job) :
    (modJob k f s).jobs.find i = none := by
  by_cases hi : i = k
  · subst hi
    simp only [modJob, h]
  · rw [find_modJob_other hi, h]

theorem find_none_lineJobState {i : Nat} {s : State} (h : s.jobs.find i = none) (n : Line) (st : JobState) :
    (lineJobState n st s).jobs.find i = none := by
  unfold lineJobState modLineJob
  split
  · exact find_none_modJob h _
  · exact h

theorem find_none_judgeInputs {i : Nat} {s : State} (h : s.jobs.find i = none) (n : Line) :
    (judgeInputs n s).jobs.find i = none := by
  unfold judgeInputs
  dsimp only
  split
  · rw [enterStall, jobs_of_same (raise_same ..), bump_jobs]
    exact find_none_lineJobState (s := modLine n _ s) h n .stalled
  · split <;> exact h

theorem find_none_takeJob {i : Nat} {s : State} (h : s.jobs.find i = none) (n : Line) (x : Choice) :
    (takeJob n x s).jobs.find i = none := by
  unfold takeJob
  dsimp only
  apply find_none_judgeInputs
  split
  · rw [jobs_of_same (sendStatus_same ..), modLine_jobs, bump_jobs, bump_jobs]
    exact find_none_modJob h _
  · rw [modLine_jobs, bump_jobs, bump_jobs]
    exact find_none_modJob h _

/-- A choice fills no slot. -/
theorem find_none_choose {i : Nat} {s : State} (h : s.jobs.find i = none) (n : Line) :
    (choose n s).jobs.find i = none := by
  unfold choose
  split
  · split
    · exact find_none_takeJob h n _
    · exact h
  · exact h

/-! ### The end of the job in service (R111, R133) -/

/-- A line that reports the end of its job frees the slot and counts the outcome, whatever it chooses next. -/
theorem endLineJob_ends {n : Line} {slot : Nat} {j : Job} {s : State} (hjob : (s.lines.get n).job = some slot)
    (hfind : s.jobs.find slot = some j) (e : JobEnd) :
    (endLineJob n e s).jobs.find slot = none ∧
      ∀ c, c.ofChoice = false → (endLineJob n e s).count c = (bump (.spool e.counter) s).count c := by
  have heq : endLineJob n e s = leaveService n (endJob slot e s) := by
    simp only [endLineJob, endLineJobBy, hjob]
  rw [heq]
  refine ⟨find_none_choose (s := freeLine n (endJob slot e s)) ?_ n, fun c hc => ?_⟩
  · show (endJob slot e s).jobs.find slot = none
    rw [endJob_jobs, Table.find_drop, if_pos rfl]
  · exact (count_choose hc n _).trans (count_endJob hc hfind e)

/-- The outcome's own counter. -/
theorem endLineJob_counted {n : Line} {slot : Nat} {j : Job} {s : State} (hjob : (s.lines.get n).job = some slot)
    (hfind : s.jobs.find slot = some j) (e : JobEnd) :
    (endLineJob n e s).count (.spool e.counter) =
      min Config.counterMax (s.count (.spool e.counter) + 1) := by
  obtain ⟨-, hcount⟩ := endLineJob_ends hjob hfind e
  rw [hcount _ e.counter_ofChoice, count_bump, if_pos rfl]

end Sys2Proof.Machine

/-! ACK pulses and the ACK timer: the byte, the copy and the job advance. -/

namespace Sys2Proof.Machine

/-! ### Inputs judged (R124) -/

theorem badInput_of_good {t : LineState} (h : t.good = true) : t.badInput = none := by
  simp only [LineState.good, Bool.and_eq_true, Bool.not_eq_true'] at h
  obtain ⟨⟨hselect, hpaper⟩, hfault⟩ := h
  simp [LineState.badInput, hselect, hpaper, hfault]

/-- With good inputs and BUSY low the byte is presented. -/
theorem judgeInputs_good {n : Line} {s : State} (hgood : (s.lines.get n).good = true)
    (hbusy : (s.lines.get n).busy = false) : judgeInputs n s = presentByte n s := by
  simp [judgeInputs, badInput_of_good hgood, hbusy]

theorem nextByte_of_job {n : Line} {slot : Nat} {j : Job} {s : State} (hjob : (s.lines.get n).job = some slot)
    (hfind : s.jobs.find slot = some j) : s.nextByte n = byteAt j.bytes j.printed := by
  simp only [State.nextByte, hjob, hfind]

theorem endAskedOn_of_job {n : Line} {slot : Nat} {j : Job} {s : State} (hjob : (s.lines.get n).job = some slot)
    (hfind : s.jobs.find slot = some j) : s.endAskedOn n = j.endAsked.getD .printed := by
  simp only [State.endAskedOn, hjob, hfind]

/-! ### An acknowledged byte (R125) -/

/-- The byte in flight has ended by an ACK: it is counted, and the job stands at the next position. -/
def byteAcked (n : Line) (s : State) : State :=
  modLineJob n (fun j => { j with printed := j.printed + 1 })
    (bump (.line n .bytesAcknowledged) (modLine n LineState.byteEnded s))

section
variable {n : Line} {slot : Nat} {j : Job} {s : State}

theorem exec_ackPulse (ha : s.active = true) : exec (.ackPulse n) s = .next (ackPulse n s) :=
  congrArg Host.Outcome.next (if_pos ha)

theorem exec_ackTimeout (ha : s.active = true) : exec (.ackTimeout n) s = .next (ackTimeout n s) :=
  congrArg Host.Outcome.next (if_pos ha)

theorem ackPulse_stray (hbyte : (s.lines.get n).byteInFlight = false) :
    ackPulse n s = bump (.line n .strayAcks) s := if_neg (by simp [hbyte])

theorem ackPulse_feeding (hbyte : (s.lines.get n).byteInFlight = true)
    (hstate : (s.lines.get n).state = .feeding) : ackPulse n s = copyCheck n (byteAcked n s) := by
  simp only [ackPulse, hbyte, hstate, if_true, reduceCtorEq, if_false, byteAcked]

theorem ackPulse_draining (hbyte : (s.lines.get n).byteInFlight = true)
    (hstate : (s.lines.get n).state = .draining) :
    ackPulse n s = endLineJob n ((byteAcked n s).endAskedOn n) (byteAcked n s) := by
  simp only [ackPulse, hbyte, hstate, if_true, byteAcked]

theorem ackTimeout_draining (hbyte : (s.lines.get n).byteInFlight = true)
    (hstate : (s.lines.get n).state = .draining) :
    let v := bump (.line n .ackTimeouts) (modLine n LineState.byteEnded s)
    ackTimeout n s = endLineJob n (v.endAskedOn n) v := by
  simp only [ackTimeout, hbyte, hstate, if_true]

theorem byteAcked_of_job (hjob : (s.lines.get n).job = some slot) :
    byteAcked n s = modJob slot (fun j => { j with printed := j.printed + 1 })
      (bump (.line n .bytesAcknowledged) (modLine n LineState.byteEnded s)) := by
  simp [byteAcked, modLineJob, LineState.byteEnded, hjob]

theorem line_byteAcked (n : Line) (s : State) :
    ((byteAcked n s).lines.get n) = (s.lines.get n).byteEnded := by
  unfold byteAcked modLineJob
  split <;> simp

theorem config_byteAcked (n : Line) (s : State) : (byteAcked n s).config = s.config := by
  unfold byteAcked modLineJob
  split <;> simp

theorem count_byteAcked (c : Counter) (n : Line) (s : State) :
    (byteAcked n s).count c = (bump (.line n .bytesAcknowledged) s).count c := by
  have ended : (byteAcked n s).count c =
      (bump (.line n .bytesAcknowledged) (modLine n LineState.byteEnded s)).count c := by
    unfold byteAcked modLineJob
    split
    · exact count_of_counters c (modJob_counters ..)
    · rfl
  exact ended

theorem find_byteAcked (hjob : (s.lines.get n).job = some slot) (hfind : s.jobs.find slot = some j) :
    (byteAcked n s).jobs.find slot = some { j with printed := j.printed + 1 } := by
  rw [byteAcked_of_job hjob]
  refine find_modJob ?_ _
  rw [bump_jobs]
  exact hfind

/-! ### The end of copy check (R131) -/

theorem copyCheck_within (hjob : (s.lines.get n).job = some slot) (hfind : s.jobs.find slot = some j)
    (hpos : j.printed < j.bytes.length) : copyCheck n s = afterByte n s := by
  simp only [copyCheck, hjob, hfind, if_pos hpos]

theorem copyCheck_again (hjob : (s.lines.get n).job = some slot) (hfind : s.jobs.find slot = some j)
    (hpos : j.bytes.length ≤ j.printed) (hleft : 0 < j.copiesLeft) :
    copyCheck n s = afterByte n (modJob slot (fun j => { j with printed := 0, copiesLeft := j.copiesLeft - 1 })
      (bump (.line n .copiesPrinted) s)) := by
  simp only [copyCheck, hjob, hfind, if_neg (Nat.not_lt.2 hpos), if_neg (Nat.pos_iff_ne_zero.1 hleft)]

theorem copyCheck_last (hjob : (s.lines.get n).job = some slot) (hfind : s.jobs.find slot = some j)
    (hpos : j.bytes.length ≤ j.printed) (hleft : j.copiesLeft = 0) :
    copyCheck n s = endLineJob n .printed (bump (.line n .copiesPrinted) s) := by
  simp only [copyCheck, hjob, hfind, if_neg (Nat.not_lt.2 hpos), if_pos hleft]

/-- After a byte, with no pending cause, good inputs and BUSY low, the job's next byte is in flight. -/
theorem afterByte_presents (hcause : (s.lines.get n).pendingCause = none)
    (hgood : (s.lines.get n).good = true) (hbusy : (s.lines.get n).busy = false)
    (hjob : (s.lines.get n).job = some slot) (hfind : s.jobs.find slot = some j) :
    afterByte n s = modLine n (fun t => { t with
      data := byteAt j.bytes j.printed, byteInFlight := true, pendingCause := none, busyWait := none
      ackTimer := some s.config.ackTimeout }) s := by
  simp only [afterByte, hcause, judgeInputs_good hgood hbusy, presentByte, nextByte_of_job hjob hfind]

/-- What a FEEDING line shows once the byte at a position is presented (R124, R125). -/
def presentsAt (n : Line) (j : Job) (k limit : Nat) (t : State) : Prop :=
  (t.lines.get n).state = .feeding ∧ (t.lines.get n).byteInFlight = true ∧
    (t.lines.get n).data = byteAt j.bytes k ∧ (t.lines.get n).ackTimer = some limit

end

section
variable {n : Line} {slot : Nat} {j : Job} {s : State}
variable (hbyte : (s.lines.get n).byteInFlight = true) (hstate : (s.lines.get n).state = .feeding)
  (hcause : (s.lines.get n).pendingCause = none) (hjob : (s.lines.get n).job = some slot)
  (hfind : s.jobs.find slot = some j) (hgood : (s.lines.get n).good = true)
  (hbusy : (s.lines.get n).busy = false)

include hstate hcause hjob hgood hbusy in
/-- The same line, seen after its byte has ended, with the job at any position. -/
theorem afterByte_of_ended {v : State} {k : Job} (hline : v.lines.get n = (s.lines.get n).byteEnded)
    (hfind : v.jobs.find slot = some k) :
    presentsAt n k k.printed v.config.ackTimeout (afterByte n v) ∧ (afterByte n v).jobs = v.jobs ∧
      ∀ c, (afterByte n v).count c = v.count c := by
  rw [afterByte_presents (s := v) (hline ▸ hcause) (hline ▸ hgood) (hline ▸ hbusy) (hline ▸ hjob) hfind]
  refine ⟨?_, rfl, fun c => rfl⟩
  simp [presentsAt, hline, LineState.byteEnded, hstate]

include hbyte hstate hjob hfind

include hcause hgood hbusy in
/-- Within a copy the next byte follows at once (R125, R131). -/
theorem ackPulse_within (hpos : j.printed + 1 < j.bytes.length) :
    presentsAt n j (j.printed + 1) s.config.ackTimeout (ackPulse n s) ∧
      (ackPulse n s).jobs.find slot = some { j with printed := j.printed + 1 } ∧
      (ackPulse n s).count (.line n .bytesAcknowledged) =
        min Config.counterMax (s.count (.line n .bytesAcknowledged) + 1) := by
  have hacked := find_byteAcked hjob hfind
  have hline := line_byteAcked n s
  obtain ⟨hshown, hjobs, hcount⟩ := afterByte_of_ended hstate hcause hjob hgood hbusy hline hacked
  rw [ackPulse_feeding hbyte hstate, copyCheck_within (hline ▸ hjob) hacked hpos, hjobs, hcount, count_byteAcked,
    count_bump, if_pos rfl]
  rw [config_byteAcked] at hshown
  exact ⟨hshown, hacked, rfl⟩

include hcause hgood hbusy in
/-- After a copy that another follows the first byte is presented again (R131). -/
theorem ackPulse_again (hpos : j.bytes.length ≤ j.printed + 1) (hleft : 0 < j.copiesLeft) :
    presentsAt n j 0 s.config.ackTimeout (ackPulse n s) ∧
      (ackPulse n s).jobs.find slot = some { j with printed := 0, copiesLeft := j.copiesLeft - 1 } ∧
      (ackPulse n s).count (.line n .bytesAcknowledged) =
        min Config.counterMax (s.count (.line n .bytesAcknowledged) + 1) ∧
      (ackPulse n s).count (.line n .copiesPrinted) =
        min Config.counterMax (s.count (.line n .copiesPrinted) + 1) := by
  have hacked := find_byteAcked hjob hfind
  have hline := line_byteAcked n s
  let copied := bump (.line n .copiesPrinted) (byteAcked n s)
  have hcopied : copied.jobs.find slot = some { j with printed := j.printed + 1 } := by
    rw [bump_jobs]
    exact hacked
  let again := modJob slot (fun j => { j with printed := 0, copiesLeft := j.copiesLeft - 1 }) copied
  have hagain : again.jobs.find slot = some { j with printed := 0, copiesLeft := j.copiesLeft - 1 } :=
    find_modJob hcopied _
  have hcounted : ∀ c, again.count c = copied.count c := fun c => count_of_counters c (modJob_counters ..)
  obtain ⟨hshown, hjobs, hcount⟩ := afterByte_of_ended (v := again) hstate hcause hjob hgood hbusy
    (by rw [modJob_lines, bump_lines, hline]) hagain
  have hpulse : ackPulse n s = afterByte n again :=
    (ackPulse_feeding hbyte hstate).trans (copyCheck_again (hline ▸ hjob) hacked hpos hleft)
  rw [modJob_config, bump_config, config_byteAcked] at hshown
  rw [hpulse, hjobs, hcount, hcount, hcounted, hcounted]
  refine ⟨hshown, hagain, ?_, ?_⟩ <;> simp [copied, count_bump, count_byteAcked]

/-- After the last copy the job ends as PRINTED (R111, R131). -/
theorem ackPulse_last (hpos : j.bytes.length ≤ j.printed + 1) (hleft : j.copiesLeft = 0) :
    (ackPulse n s).jobs.find slot = none ∧
      (ackPulse n s).count (.spool .printed) = min Config.counterMax (s.count (.spool .printed) + 1) ∧
      (ackPulse n s).count (.line n .copiesPrinted) =
        min Config.counterMax (s.count (.line n .copiesPrinted) + 1) := by
  have hacked := find_byteAcked hjob hfind
  have hline := line_byteAcked n s
  let copied := bump (.line n .copiesPrinted) (byteAcked n s)
  have hpulse : ackPulse n s = endLineJob n .printed copied :=
    (ackPulse_feeding hbyte hstate).trans (copyCheck_last (hline ▸ hjob) hacked hpos hleft)
  have hserving : (copied.lines.get n).job = some slot := by
    rw [bump_lines, hline]
    exact hjob
  obtain ⟨hfreed, hcount⟩ := endLineJob_ends hserving (by rw [bump_jobs]; exact hacked) .printed
  rw [hpulse, hcount _ rfl, hcount _ rfl]
  refine ⟨hfreed, ?_, ?_⟩ <;> simp [copied, count_bump, count_byteAcked, JobEnd.counter]

end

/-! ### The byte of a DRAINING line (R134) -/

section
variable {n : Line} {slot : Nat} {j : Job} {e : JobEnd} {s : State}
  (hbyte : (s.lines.get n).byteInFlight = true) (hstate : (s.lines.get n).state = .draining)
  (hjob : (s.lines.get n).job = some slot) (hfind : s.jobs.find slot = some j) (hasked : j.endAsked = some e)
include hbyte hstate hjob hfind hasked

/-- An ACK counts the byte and ends the job with the end asked. -/
theorem ackPulse_drained : (ackPulse n s).jobs.find slot = none ∧
    ∀ c, c.ofChoice = false →
      (ackPulse n s).count c = (bump (.spool e.counter) (bump (.line n .bytesAcknowledged) s)).count c := by
  have hacked := find_byteAcked hjob hfind
  have hline : ((byteAcked n s).lines.get n).job = some slot := (line_byteAcked n s) ▸ hjob
  have hpulse : ackPulse n s = endLineJob n e (byteAcked n s) := by
    rw [ackPulse_draining hbyte hstate, endAskedOn_of_job hline hacked, hasked, Option.getD_some]
  obtain ⟨hfreed, hcount⟩ := endLineJob_ends hline hacked e
  rw [hpulse]
  refine ⟨hfreed, fun c hc => ?_⟩
  rw [hcount c hc, count_bump, count_bump, count_byteAcked, count_byteAcked]

/-- The ACK timer ends the job with the end asked, and stalls nothing. -/
theorem ackTimeout_drained : (ackTimeout n s).jobs.find slot = none ∧
    ∀ c, c.ofChoice = false →
      (ackTimeout n s).count c = (bump (.spool e.counter) (bump (.line n .ackTimeouts) s)).count c := by
  let v := bump (.line n .ackTimeouts) (modLine n LineState.byteEnded s)
  have hline : (v.lines.get n).job = some slot := by
    simp only [v, bump_lines, modLine_lines, PerLine.get_set, if_true]
    exact hjob
  have hlive : v.jobs.find slot = some j := by
    rw [bump_jobs]
    exact hfind
  have htimeout : ackTimeout n s = endLineJob n e v := by
    rw [ackTimeout_draining hbyte hstate, endAskedOn_of_job hline hlive, hasked, Option.getD_some]
  obtain ⟨hfreed, hcount⟩ := endLineJob_ends hline hlive e
  rw [htimeout]
  exact ⟨hfreed, hcount⟩

end

/-- Settles O38: the byte, the copy and the job of a FEEDING line, and the byte of a DRAINING one. -/
theorem acknowledgedBytesAdvanceTheJob : Obligations.AcknowledgedBytesAdvanceTheJob := by
  refine ⟨fun n s ha => ?_, fun n s slot j e ha hbyte hstate hjob hfind hasked => ?_⟩
  · rw [exec_ackPulse ha]
    refine ⟨fun hbyte => by rw [ackPulse_stray hbyte],
      fun slot j hbyte hstate hcause hjob hfind hgood hbusy => ⟨fun hpos => ?_, fun hpos hleft => ?_,
        fun hpos hleft => ⟨_, rfl, ackPulse_last hbyte hstate hjob hfind hpos hleft⟩⟩⟩
    · obtain ⟨⟨hfeeding, hflight, hdata, htimer⟩, hlive, hbytes⟩ :=
        ackPulse_within hbyte hstate hcause hjob hfind hgood hbusy hpos
      exact ⟨_, rfl, ⟨hfeeding, hflight, hdata, htimer, hbytes⟩, hlive⟩
    · obtain ⟨⟨hfeeding, hflight, hdata, htimer⟩, hlive, hbytes, hcopies⟩ :=
        ackPulse_again hbyte hstate hcause hjob hfind hgood hbusy hpos hleft
      exact ⟨_, rfl, ⟨hfeeding, hflight, hdata, htimer, hbytes⟩, hlive, hcopies⟩
  · obtain ⟨hacked, hackedCount⟩ := ackPulse_drained hbyte hstate hjob hfind hasked
    obtain ⟨htimed, htimedCount⟩ := ackTimeout_drained hbyte hstate hjob hfind hasked
    rw [exec_ackPulse ha, exec_ackTimeout ha]
    refine ⟨⟨_, rfl, ⟨hacked, (hackedCount _ e.counter_ofChoice).trans ?_, (hackedCount _ rfl).trans ?_⟩,
        (hackedCount _ rfl).trans ?_⟩,
      _, rfl, ⟨htimed, (htimedCount _ e.counter_ofChoice).trans ?_, (htimedCount _ rfl).trans ?_⟩,
      (htimedCount _ rfl).trans ?_, (htimedCount _ rfl).trans ?_⟩
    all_goals simp [count_bump]

end Sys2Proof.Machine

/-! HOLD-JOB, RELEASE-JOB, CANCEL-JOB, MOVE-JOB and FLUSH-SPOOL. -/

namespace Sys2Proof.Machine

/-! ### The requests taken and answered (R187) -/

section
variable {s : State} {q : Request} {rest : List Request} {slot : Nat}

theorem exec_holdJob (h : s.headIs q rest (.holdJob slot)) :
    exec .holdJob s = .next ((carryHoldJob slot (becomeCurrent q rest s)).answer q) :=
  congrArg Host.Outcome.next (carry_at h _ _ (a := slot) rfl)

theorem exec_releaseJob (h : s.headIs q rest (.releaseJob slot)) :
    exec .releaseJob s = .next ((carryReleaseJob slot (becomeCurrent q rest s)).answer q) :=
  congrArg Host.Outcome.next (carry_at h _ _ (a := slot) rfl)

theorem exec_cancelJob (h : s.headIs q rest (.cancelJob slot)) :
    exec .cancelJob s = .next ((carryCancelJob slot (becomeCurrent q rest s)).answer q) :=
  congrArg Host.Outcome.next (carry_at h _ _ (a := slot) rfl)

theorem exec_moveJob {x y : Byte} (h : s.headIs q rest (.moveJob slot x y)) :
    exec .moveJob s = .next ((carryMoveJob slot x y (becomeCurrent q rest s)).answer q) :=
  congrArg Host.Outcome.next (carry_at h _ _ (a := (slot, x, y)) rfl)

theorem exec_flushSpool (h : s.headIs q rest .flushSpool) :
    exec .flushSpool s = .next ((carryFlush (becomeCurrent q rest s)).answer q) :=
  congrArg Host.Outcome.next (carry_at h _ _ (a := ()) rfl)

end

/-! ### A request on a slot (R116 to R118) -/

section
variable {slot : Nat} {j : Job} {s : State}

theorem onJob_live (hslot : slot < 48) (hfind : s.jobs.find slot = some j) (f : Job → Carried) :
    onJob slot s f = f j := by
  rw [onJob, if_neg (show ¬ Config.jobSlots ≤ slot from Nat.not_le.2 hslot), hfind]

/-- A slot over 47 is refused RANGE, and a free one NOT-FOUND. -/
theorem onJob_refused (h : 48 ≤ slot ∨ s.jobs.find slot = none) (f : Job → Carried) :
    onJob slot s f = .refuse (if 48 ≤ slot then .range else .notFound) s := by
  by_cases hslot : 48 ≤ slot
  · rw [if_pos hslot]
    exact if_pos hslot
  · rw [onJob, if_neg (show ¬ Config.jobSlots ≤ slot from hslot), h.resolve_left hslot, if_neg hslot]

theorem inService_eq_false_iff :
    j.inService = false ↔ j.state = .arriving ∨ j.state = .ready ∨ j.state = .held := by
  cases h : j.state <;> simp [Job.inService, h]

theorem inService_iff :
    j.inService = true ↔ j.state = .printing ∨ j.state = .stalled ∨ j.state = .draining := by
  cases h : j.state <;> simp [Job.inService, h]

/-! ### HOLD-JOB and RELEASE-JOB (R116) -/

theorem holdJob_ready (hj : j.state = .ready) :
    holdJob slot j s = (.done, modJob slot (fun j => { j with state := .held, readyOrder := none }) s) := by
  simp only [holdJob, hj]

theorem holdJob_busy (hj : j.inService = true) : holdJob slot j s = (.busy, s) := by
  rcases inService_iff.1 hj with h | h | h <;> simp only [holdJob, h]

/-- A released job joins the tail of its queue, and the lines that read it are told (R110). -/
theorem releaseJob_held (hfind : s.jobs.find slot = some j) (hj : j.state = .held) :
    releaseJob slot j s = tellLines j.target { s with
      jobs := s.jobs.put id slot { j with
        state := .ready, holdOnClose := false, readyOrder := some s.nextOrder }
      nextOrder := s.nextOrder + 1 } := by
  have hjoined : joinReady slot (modJob slot (fun j => { j with holdOnClose := false }) s) = { s with
      jobs := s.jobs.put id slot { j with
        state := .ready, holdOnClose := false, readyOrder := some s.nextOrder }
      nextOrder := s.nextOrder + 1 } := by
    rw [joinReady, modJob_modJob hfind, modJob_of_find hfind, modJob_nextOrder]
    rfl
  simp only [releaseJob, hj, hjoined]
  refine announce_of_find (j := { j with
    state := .ready, holdOnClose := false, readyOrder := some s.nextOrder }) ?_
  rw [Table.find_put, if_pos rfl]

/-! ### MOVE-JOB (R118) -/

/-- Whether a target byte is refused does not hang on the job's target. -/
theorem targetOr_isSome (t u : Target) (x : Byte) : (targetOr t x).isSome = (targetOr u x).isSome := by
  unfold targetOr
  split <;> rfl

theorem levelOr_isSome (k l : Fin 4) (y : Byte) : (levelOr k y).isSome = (levelOr l y).isSome := by
  unfold levelOr
  split <;> rfl

theorem targetOr_of_code {x : Byte} {t : Target} (h : Target.ofCode x = some t) (u : Target) :
    targetOr u x = some t := by
  refine (if_neg ?_).trans h
  rintro rfl
  have hnone : Target.ofCode 0xFF = none := by decide
  rw [hnone] at h
  cases h

theorem levelOr_of_code {y : Byte} {l : Fin 4} (h : levelOf y = some l) (k : Fin 4) : levelOr k y = some l := by
  refine (if_neg ?_).trans h
  rintro rfl
  have hnone : levelOf 0xFF = none := by decide
  rw [hnone] at h
  cases h

theorem carryMoveJob_values {x y : Byte} (h : (targetOr .pool x).isSome = false ∨ (levelOr 0 y).isSome = false) :
    carryMoveJob slot x y s = .refuse .range s :=
  if_pos (h.imp Option.isSome_eq_false_iff.1 Option.isSome_eq_false_iff.1)

/-- With both values in range the slot decides. -/
theorem carryMoveJob_refused {x y : Byte} (hx : (targetOr .pool x).isSome = true) (hy : (levelOr 0 y).isSome = true)
    (h : 48 ≤ slot ∨ s.jobs.find slot = none) :
    carryMoveJob slot x y s = .refuse (if 48 ≤ slot then .range else .notFound) s := by
  rw [carryMoveJob, if_neg (by simp [Option.isSome_iff_ne_none.1 hx, Option.isSome_iff_ne_none.1 hy]), onJob_refused h]

theorem carryMoveJob_live {x y : Byte} {t : Target} {l : Fin 4} (hslot : slot < 48)
    (hfind : s.jobs.find slot = some j) (hx : targetOr j.target x = some t) (hy : levelOr j.level y = some l) :
    carryMoveJob slot x y s = .ofPair (moveJob slot j t l s) := by
  have hxs : (targetOr .pool x).isSome = true := by rw [targetOr_isSome _ j.target, hx]; rfl
  have hys : (levelOr 0 y).isSome = true := by rw [levelOr_isSome _ j.level, hy]; rfl
  rw [carryMoveJob, if_neg (by simp [Option.isSome_iff_ne_none.1 hxs, Option.isSome_iff_ne_none.1 hys]),
    onJob_live hslot hfind, hx, hy]

theorem moveJob_busy (t : Target) (l : Fin 4) (h : j.state = .arriving ∨ j.inService = true) :
    moveJob slot j t l s = (.busy, s) := by
  rw [inService_iff] at h
  rcases h with h | h | h | h <;> simp only [moveJob, h]

theorem moveJob_held (t : Target) (l : Fin 4) (h : j.state = .held) : moveJob slot j t l s =
    (.done, modJob slot (fun j => { j with target := t, level := l }) s) := by
  simp only [moveJob, h]

/-! ### CANCEL-JOB in service (R117, R132) -/

theorem lines_of_same {s t : State} (h : sameButFrames s t) : t.lines = s.lines := by
  obtain ⟨-, -, -, -, -, -, -, -, -, -, -, -, -, -, -, -, hlines, -⟩ := sameButFrames_fields h
  exact hlines

theorem lines_endJob (slot : Nat) (e : JobEnd) (s : State) : (endJob slot e s).lines = s.lines := by
  cases h : s.jobs.find slot with
  | none => rw [endJob_of_find_none h]
  | some j => exact (lines_of_same (endJob_same h e)).trans rfl

theorem askEnd_served {n : Line} (e : JobEnd) (hfind : s.jobs.find slot = some j)
    (hj : j.state = .printing ∨ j.state = .stalled) (hline : j.line = some n) :
    askEnd slot e s = askLine leaveService n e (modJob slot (fun j => { j with endAsked := some e }) s) := by
  rcases hj with hj | hj <;> simp only [askEnd, askEndBy, hfind, hj, hline]

/-- The job of a STALLED line ends at once. -/
theorem askEnd_stalled {n : Line} (e : JobEnd) (hfind : s.jobs.find slot = some j) (hj : j.state = .stalled)
    (hline : j.line = some n) (hjob : (s.lines.get n).job = some slot)
    (hstate : (s.lines.get n).state = .stalled) :
    (askEnd slot e s).jobs.find slot = none ∧
      (askEnd slot e s).count (.spool e.counter) = min Config.counterMax (s.count (.spool e.counter) + 1) := by
  let asked := modJob slot (fun j => { j with endAsked := some e }) s
  have hasked : asked.jobs.find slot = some { j with endAsked := some e } := find_modJob hfind _
  have hserving : (asked.lines.get n).job = some slot := by rw [modJob_lines, hjob]
  have hend : askEnd slot e s = endLineJob n e asked := by
    rw [askEnd_served e hfind (.inr hj) hline]
    simp only [askLine, modJob_lines, hstate]
    rfl
  rw [hend]
  obtain ⟨hfreed, -⟩ := endLineJob_ends hserving hasked e
  refine ⟨hfreed, (endLineJob_counted hserving hasked e).trans ?_⟩
  rw [count_of_counters (s := s) _ (modJob_counters ..)]

/-- A RESETTING line loses its job and is else as it was (log entry 20). -/
theorem askEnd_resetting {n : Line} (e : JobEnd) (hfind : s.jobs.find slot = some j) (hj : j.state = .stalled)
    (hline : j.line = some n) (hjob : (s.lines.get n).job = some slot)
    (hstate : (s.lines.get n).state = .resetting) :
    (askEnd slot e s).jobs.find slot = none ∧
      (askEnd slot e s).lines.get n = { s.lines.get n with job := none, takenFrom := none } := by
  let asked := modJob slot (fun j => { j with endAsked := some e }) s
  have hend : askEnd slot e s =
      modLine n (fun t => { t with job := none, takenFrom := none }) (endJob slot e asked) := by
    rw [askEnd_served e hfind (.inr hj) hline]
    simp only [askLine, modJob_lines, hstate, hjob]
    rfl
  have hlines : (endJob slot e asked).lines = s.lines := (lines_endJob slot e asked).trans (modJob_lines ..)
  rw [hend]
  refine ⟨?_, by simp [hlines]⟩
  rw [modLine_jobs, endJob_jobs, Table.find_drop, if_pos rfl]

end

/-! ### FLUSH-SPOOL (R119, R132, R139) -/

/-- From `s` to `t` no slot but one has changed, and no line has taken a job: one that served the slot's may
have lost it. -/
structure OnlySlot (slot : Nat) (s t : State) : Prop where
  others : ∀ k, k ≠ slot → t.jobs.find k = s.jobs.find k
  rising : s.jobs.rising → t.jobs.rising
  lines : ∀ n, (t.lines.get n).job = (s.lines.get n).job ∨
    (s.lines.get n).job = some slot ∧ (t.lines.get n).job = none

section
variable {slot : Nat} {s t u : State}

theorem onlySlot_of_lines (hjobs : t.jobs = s.jobs)
    (hlines : ∀ n, (t.lines.get n).job = (s.lines.get n).job) : OnlySlot slot s t where
  others k _ := by rw [hjobs]
  rising h := hjobs ▸ h
  lines n := .inl (hlines n)

theorem onlySlot_refl (slot : Nat) (s : State) : OnlySlot slot s s := onlySlot_of_lines rfl fun _ => rfl

theorem OnlySlot.trans (h : OnlySlot slot s t) (g : OnlySlot slot t u) : OnlySlot slot s u where
  others k hk := (g.others k hk).trans (h.others k hk)
  rising hs := g.rising (h.rising hs)
  lines n := by
    rcases g.lines n with hg | ⟨hg, hnone⟩
    · rw [hg]
      exact h.lines n
    · rcases h.lines n with hs | ⟨-, hs⟩
      · exact .inr ⟨hs ▸ hg, hnone⟩
      · rw [hs] at hg
        cases hg

theorem onlySlot_modJob (slot : Nat) (f : Job → Job) (s : State) : OnlySlot slot s (modJob slot f s) where
  others _ hk := find_modJob_other hk f s
  rising h := by
    unfold modJob
    split
    · exact h
    · exact Table.rising_put h ..
  lines n := .inl (by rw [modJob_lines])

theorem onlySlot_endJob (slot : Nat) (e : JobEnd) (s : State) : OnlySlot slot s (endJob slot e s) where
  others k hk := by rw [endJob_jobs, Table.find_drop, if_neg hk.symm]
  rising h := by
    rw [endJob_jobs]
    exact Table.rising_drop h slot
  lines n := .inl (by rw [lines_endJob])

/-- A line changed that keeps its job, or loses the slot's. -/
theorem onlySlot_modLine {n : Line} {f : LineState → LineState} {s : State}
    (h : (f (s.lines.get n)).job = (s.lines.get n).job ∨
      (s.lines.get n).job = some slot ∧ (f (s.lines.get n)).job = none) : OnlySlot slot s (modLine n f s) where
  others _ _ := rfl
  rising h := h
  lines m := by
    rw [modLine_lines, PerLine.get_set]
    split
    · next hm => exact hm ▸ h
    · exact .inl rfl

end

/-- An end asked of a line that serves the slot's job: the job ends and the line is free, or both drain. -/
theorem askLine_freeLine {n : Line} {slot : Nat} {j : Job} {s : State} (e : JobEnd)
    (hjob : (s.lines.get n).job = some slot) (hfind : s.jobs.find slot = some j) (hj : j.inService = true) :
    OnlySlot slot s (askLine freeLine n e s) ∧
      ∀ k, (askLine freeLine n e s).jobs.find slot = some k → k.inService = true := by
  have hfreed : (endJob slot e s).jobs.find slot = none := by rw [endJob_jobs, Table.find_drop, if_pos rfl]
  have hserving : ((endJob slot e s).lines.get n).job = some slot := by rw [lines_endJob, hjob]
  have ended : ∀ f : LineState → LineState, (∀ t, (f t).job = none) →
      OnlySlot slot s (modLine n f (endJob slot e s)) ∧
        ∀ k, (modLine n f (endJob slot e s)).jobs.find slot = some k → k.inService = true := fun f hf =>
    ⟨(onlySlot_endJob slot e s).trans (onlySlot_modLine (.inr ⟨hserving, hf _⟩)), fun k hk => by
      rw [modLine_jobs, hfreed] at hk
      cases hk⟩
  have kept : OnlySlot slot s s ∧ ∀ k, s.jobs.find slot = some k → k.inService = true :=
    ⟨onlySlot_refl slot s, fun k hk => by
      rw [hfind] at hk
      cases hk
      exact hj⟩
  unfold askLine endLineJobBy
  dsimp only
  cases hstate : (s.lines.get n).state with
  | feeding =>
    dsimp only
    split
    · rw [lineJobState_of_job .draining (slot := slot) (by simp [hjob])]
      refine ⟨(onlySlot_modLine (.inl rfl)).trans (onlySlot_modJob slot _ _), fun k hk => ?_⟩
      rw [find_modJob (s := modLine n _ s) hfind] at hk
      cases hk
      rfl
    · rw [hjob]
      exact ended _ fun _ => rfl
  | stalled =>
    rw [hjob]
    exact ended _ fun _ => rfl
  | resetting =>
    rw [hjob]
    exact ended _ fun _ => rfl
  | offline | idle | draining | disabled => exact kept

/-- An end asked of a live job leaves every other alone, and it stays only where a line serves it. -/
theorem askEndBy_freeLine {slot : Nat} {j : Job} {s : State} (e : JobEnd) (hfind : s.jobs.find slot = some j)
    (hline : ∀ n, j.inService = true → j.line = some n → (s.lines.get n).job = some slot) :
    OnlySlot slot s (askEndBy freeLine slot e s) ∧
      ∀ k, (askEndBy freeLine slot e s).jobs.find slot = some k → j.inService = true ∧ k.inService = true := by
  cases hserved : j.inService with
  | false =>
    have hend : askEndBy freeLine slot e s = endJob slot e s := by
      simp only [askEndBy, hfind]
      rcases inService_eq_false_iff.1 hserved with h | h | h <;> rw [h]
    rw [hend]
    refine ⟨onlySlot_endJob slot e s, fun k hk => ?_⟩
    rw [endJob_jobs, Table.find_drop, if_pos rfl] at hk
    cases hk
  | true =>
    let asked := modJob slot (fun j => { j with endAsked := some e }) s
    have hasked : asked.jobs.find slot = some { j with endAsked := some e } := find_modJob hfind _
    have hstays : ({ j with endAsked := some e } : Job).inService = true := hserved
    by_cases hdrain : j.state = .draining
    · have hend : askEndBy freeLine slot e s = s := by simp only [askEndBy, hfind, hdrain]
      rw [hend, hfind]
      refine ⟨onlySlot_refl slot s, fun k hk => ?_⟩
      cases hk
      exact ⟨rfl, hserved⟩
    · have hstate : j.state = .printing ∨ j.state = .stalled :=
        (inService_iff.1 hserved).imp_right fun h => h.resolve_right hdrain
      cases hl : j.line with
      | none =>
        have hend : askEndBy freeLine slot e s = asked := by
          rcases hstate with h | h <;> simp only [askEndBy, hfind, h, hl, asked]
        rw [hend, hasked]
        refine ⟨onlySlot_modJob slot _ s, fun k hk => ?_⟩
        cases hk
        exact ⟨rfl, hstays⟩
      | some n =>
        have hend : askEndBy freeLine slot e s = askLine freeLine n e asked := by
          rcases hstate with h | h <;> simp only [askEndBy, hfind, h, hl, asked]
        have hserving : (asked.lines.get n).job = some slot := by
          rw [modJob_lines]
          exact hline n hserved hl
        obtain ⟨honly, hown⟩ := askLine_freeLine e hserving hasked hstays
        rw [hend]
        exact ⟨(onlySlot_modJob slot _ s).trans honly, fun k hk => ⟨rfl, hown k hk⟩⟩

/-- From `s` to `t` the jobs listed have been flushed: those left were and are in service, every other job
is as it was, and no line has taken a job. -/
structure Flushed (es : List (Nat × Job)) (s t : State) : Prop where
  others : ∀ k, k ∉ es.map Prod.fst → t.jobs.find k = s.jobs.find k
  left : ∀ d ∈ es, ∀ k, t.jobs.find d.1 = some k → d.2.inService = true ∧ k.inService = true
  rising : s.jobs.rising → t.jobs.rising
  lines : ∀ n, (t.lines.get n).job = (s.lines.get n).job ∨ (t.lines.get n).job = none

theorem flushed_nil (s : State) : Flushed [] s s :=
  ⟨fun _ _ => rfl, fun _ hd => absurd hd List.not_mem_nil, id, fun _ => .inl rfl⟩

theorem flushed_cons {d : Nat × Job} {es : List (Nat × Job)} {s t u : State} (hd : d.1 ∉ es.map Prod.fst)
    (h : OnlySlot d.1 s t)
    (hown : ∀ k, t.jobs.find d.1 = some k → d.2.inService = true ∧ k.inService = true)
    (g : Flushed es t u) : Flushed (d :: es) s u where
  others k hk := by
    simp only [List.map_cons, List.mem_cons, not_or] at hk
    obtain ⟨hne, hrest⟩ := hk
    rw [g.others k hrest, h.others k hne]
  left e he k hk := by
    rcases List.mem_cons.1 he with rfl | he
    · rw [g.others _ hd] at hk
      exact hown k hk
    · exact g.left e he k hk
  rising hs := g.rising (h.rising hs)
  lines n := by
    rcases g.lines n with hg | hg
    · rw [hg]
      exact (h.lines n).imp_right fun hn => hn.2
    · exact .inr hg

/-- FLUSH-SPOOL over live jobs, each in service with its own line: what it leaves, and its two numbers. -/
theorem flushSlots_flushed : ∀ (es : List (Nat × Job)) (a l : Nat) (s : State), (es.map Prod.fst).Nodup →
    (∀ d ∈ es, s.jobs.find d.1 = some d.2) →
    (∀ d ∈ es, ∀ n, d.2.inService = true → d.2.line = some n → (s.lines.get n).job = some d.1) →
    ∃ t, flushSlots (es.map Prod.fst) a l s =
        (a + es.countP fun d => !d.2.inService, l + es.countP fun d => d.2.inService, t) ∧ Flushed es s t
  | [], a, l, s, _, _, _ => ⟨s, rfl, flushed_nil s⟩
  | d :: es, a, l, s, hnodup, hfind, hline => by
    obtain ⟨hd, hrest⟩ := List.nodup_cons.1 hnodup
    have hlive := hfind d List.mem_cons_self
    obtain ⟨honly, hown⟩ := askEndBy_freeLine (.aborted .flushed) hlive (hline d List.mem_cons_self)
    let asked := askEndBy freeLine d.1 (.aborted .flushed) s
    have hne : ∀ e ∈ es, e.1 ≠ d.1 := fun e he heq => hd (heq ▸ List.mem_map_of_mem he)
    have hfind' : ∀ e ∈ es, asked.jobs.find e.1 = some e.2 := fun e he =>
      (honly.others e.1 (hne e he)).trans (hfind e (List.mem_cons_of_mem d he))
    have hline' : ∀ e ∈ es, ∀ n, e.2.inService = true → e.2.line = some n →
        (asked.lines.get n).job = some e.1 := fun e he n hserved hl => by
      have hjob := hline e (List.mem_cons_of_mem d he) n hserved hl
      rcases honly.lines n with h | ⟨h, -⟩
      · exact h.trans hjob
      · exact absurd (Option.some.inj (hjob.symm.trans h)) (hne e he)
    have hstep : flushSlots ((d :: es).map Prod.fst) a l s =
        if d.2.inService then flushSlots (es.map Prod.fst) a (l + 1) asked
        else flushSlots (es.map Prod.fst) (a + 1) l asked := by
      simp only [List.map_cons, flushSlots, hlive, asked]
    cases hserved : d.2.inService with
    | false =>
      obtain ⟨t, heq, hflushed⟩ := flushSlots_flushed es (a + 1) l asked hrest hfind' hline'
      refine ⟨t, ?_, flushed_cons hd honly hown hflushed⟩
      rw [hstep, hserved, if_neg Bool.false_ne_true, heq]
      simp only [List.countP_cons, hserved, Bool.not_false, if_true, Bool.false_eq_true, if_false, Prod.mk.injEq,
        and_true]
      omega
    | true =>
      obtain ⟨t, heq, hflushed⟩ := flushSlots_flushed es a (l + 1) asked hrest hfind' hline'
      refine ⟨t, ?_, flushed_cons hd honly hown hflushed⟩
      rw [hstep, hserved, if_pos rfl, heq]
      simp only [List.countP_cons, hserved, Bool.not_true, if_true, Bool.false_eq_true, if_false, Prod.mk.injEq,
        and_true]
      omega

theorem Table.nodup_of_rising {α : Type} {t : Table Nat α} (h : t.rising) : (t.map Prod.fst).Nodup :=
  List.pairwise_map.2 (h.imp fun hlt => Nat.ne_of_lt hlt)

/-- Over the whole table: the jobs left are in service, and were. -/
theorem jobs_of_flushed {s t : State} (hs : s.jobs.rising) (h : Flushed s.jobs s t) {d : Nat × Job}
    (hd : d ∈ t.jobs) : d.2.inService = true ∧ ∃ j, s.jobs.find d.1 = some j ∧ j.inService = true := by
  have hfind : t.jobs.find d.1 = some d.2 := Table.find_of_mem (h.rising hs) hd
  have hmem : d.1 ∈ s.jobs.map Prod.fst := by
    by_contra hout
    have hnone : s.jobs.find d.1 = none :=
      Table.find_none.2 fun e he heq => hout (heq ▸ List.mem_map_of_mem he)
    rw [h.others _ hout, hnone] at hfind
    cases hfind
  obtain ⟨e, he, heq⟩ := List.mem_map.1 hmem
  obtain ⟨hserved, hleft⟩ := h.left e he d.2 (heq ▸ hfind)
  exact ⟨hleft, e.2, heq ▸ Table.find_of_mem hs he, hserved⟩

theorem carryFlush_of_flushed {a l : Nat} {s t : State}
    (h : flushSlots (s.jobs.map Prod.fst) 0 0 s = (a, l, t)) :
    carryFlush s = ⟨.done, [byteOf a, byteOf l], t⟩ := by
  simp only [carryFlush, h]

section
variable {s : State} {q : Request} {rest : List Request}

theorem flushSpool_flushes (h : s.headIs q rest .flushSpool) (hs : s.jobsOk)
    (hline : ∀ d ∈ s.jobs, ∀ n, d.2.inService = true → d.2.line = some n → (s.lines.get n).job = some d.1) :
    ∃ t, exec .flushSpool s = .next (answered q .done
        [byteOf (s.jobs.countP fun d => !d.2.inService), byteOf (s.jobs.countP fun d => d.2.inService)] t) ∧
      Flushed s.jobs (becomeCurrent q rest s) t := by
  obtain ⟨hrising, -⟩ := hs
  obtain ⟨t, heq, hflushed⟩ := flushSlots_flushed s.jobs 0 0 (becomeCurrent q rest s)
    (Table.nodup_of_rising hrising) (fun d hd => Table.find_of_mem hrising hd) hline
  rw [Nat.zero_add, Nat.zero_add] at heq
  refine ⟨t, ?_, hflushed⟩
  rw [exec_flushSpool h, carryFlush_of_flushed heq]
  rfl

end

/-- Settles O46: the requests at a live job, at a slot without one, and FLUSH-SPOOL. -/
theorem jobRequestsActOnTheJob : Obligations.JobRequestsActOnTheJob := by
  intro s q rest u
  refine ⟨fun slot j hslot hfind => ?_, fun slot hslot => ?_, fun h hs hline => ?_⟩
  · have live : ∀ f, onJob slot u f = f j := onJob_live (s := u) hslot hfind
    have hfindu : u.jobs.find slot = some j := hfind
    have cancelled : ∀ {t}, s.headIs q rest (.cancelJob slot) → askEnd slot .cancelledManager u = t →
        exec .cancelJob s = .next (answered q .done [] t) := fun h ht => by
      rw [exec_cancelJob h, carryCancelJob, live, ht]
      rfl
    refine ⟨fun h hj => ?_, fun h hj => ?_, fun h hj => ?_, fun h hj => ?_, fun n h hl hjob => ?_,
      fun x y h hx hy hj => ?_, fun x y t l h hj hx hy => ?_⟩
    · rw [exec_holdJob h, carryHoldJob, live, holdJob_ready hj]
      rfl
    · rw [exec_holdJob h, carryHoldJob, live, holdJob_busy hj]
      rfl
    · rw [exec_releaseJob h, carryReleaseJob, live, releaseJob_held hfindu hj]
      rfl
    · exact cancelled h (askEnd_unserved _ hfindu (inService_eq_false_iff.1 hj))
    · refine ⟨fun hj hstate hbyte => ?_, fun hj hstate => ?_, fun hj hstate => ?_, fun hj => ?_⟩
      · exact ⟨_, cancelled h rfl, askEnd_feeding_drains _ hfindu hj hl hstate hbyte hjob⟩
      · exact ⟨_, cancelled h rfl, askEnd_stalled _ hfindu hj hl hjob hstate⟩
      · exact ⟨_, cancelled h rfl, askEnd_resetting _ hfindu hj hl hjob hstate⟩
      · exact cancelled h (askEnd_draining _ hfindu hj)
    · obtain ⟨t, ht⟩ := Option.isSome_iff_exists.1 ((targetOr_isSome j.target .pool x).trans hx)
      obtain ⟨l, hl⟩ := Option.isSome_iff_exists.1 ((levelOr_isSome j.level 0 y).trans hy)
      rw [exec_moveJob h, carryMoveJob_live hslot hfindu ht hl, moveJob_busy t l hj]
      rfl
    · rw [exec_moveJob h, carryMoveJob_live hslot hfindu (targetOr_of_code hx _) (levelOr_of_code hy _),
        moveJob_held t l hj]
      rfl
  · have refused : ∀ f, onJob slot u f = .refuse (if 48 ≤ slot then .range else .notFound) u :=
      onJob_refused (s := u) hslot
    refine ⟨fun h => ?_, fun h => ?_, fun h => ?_, fun x y h => ⟨fun hx hy => ?_, fun hxy => ?_⟩⟩
    · rw [exec_holdJob h, carryHoldJob, refused]
      rfl
    · rw [exec_releaseJob h, carryReleaseJob, refused]
      rfl
    · rw [exec_cancelJob h, carryCancelJob, refused]
      rfl
    · rw [exec_moveJob h, carryMoveJob_refused (s := u) hx hy hslot]
      rfl
    · rw [exec_moveJob h, carryMoveJob_values hxy]
      rfl
  · obtain ⟨t, hexec, hflushed⟩ := flushSpool_flushes h hs hline
    obtain ⟨hrising, -⟩ := hs
    exact ⟨t, hexec, fun d hd => jobs_of_flushed (s := u) hrising hflushed hd, hflushed.lines⟩

end Sys2Proof.Machine

/-! The choice of a line: the head of a ready queue, the candidate of a level, the walk of the level order. -/

namespace Sys2Proof.Machine

/-! ### The head of a ready queue (R110) -/

theorem earliestJob_eq_none {es : List (Nat × Job)} (h : earliestJob es = none) : es = [] := by
  cases es with
  | nil => rfl
  | cons e es =>
    unfold earliestJob at h
    split at h <;> cases h

/-- The earliest job is listed, and no listed job has an earlier ready order. -/
theorem earliestJob_spec {es : List (Nat × Job)} {d : Nat × Job} (h : earliestJob es = some d) :
    d ∈ es ∧ ∀ o ∈ es, d.2.readyOrder.getD 0 ≤ o.2.readyOrder.getD 0 := by
  induction es generalizing d with
  | nil => cases h
  | cons e es ih =>
    unfold earliestJob at h
    split at h
    · next hnone =>
      cases h
      simp [earliestJob_eq_none hnone]
    · next d' hd' =>
      cases h
      obtain ⟨hmem, hmin⟩ := ih hd'
      unfold earlierJob
      split
      · next hle =>
        exact ⟨List.mem_cons_self, List.forall_mem_cons.2 ⟨le_rfl, fun o ho => hle.trans (hmin o ho)⟩⟩
      · next hlt =>
        exact ⟨List.mem_cons_of_mem e hmem, List.forall_mem_cons.2 ⟨(not_le.1 hlt).le, hmin⟩⟩

theorem mem_readyJobs {s : State} {t : Target} {l : Fin 4} {d : Nat × Job} :
    d ∈ s.readyJobs t l ↔ d ∈ s.jobs ∧ d.2.state = .ready ∧ d.2.target = t ∧ d.2.level = l := by
  simp [State.readyJobs, Job.readyIn, and_assoc]

theorem readyHead_none {s : State} {t : Target} {l : Fin 4} (h : s.readyHead t l = none) (d : Nat × Job)
    (hd : d ∈ s.jobs) : ¬ (d.2.state = .ready ∧ d.2.target = t ∧ d.2.level = l) := fun hready => by
  have hmem : d ∈ s.readyJobs t l := mem_readyJobs.2 ⟨hd, hready⟩
  rw [earliestJob_eq_none h] at hmem
  cases hmem

theorem readyHead_some {s : State} {t : Target} {l : Fin 4} {d : Nat × Job} (h : s.readyHead t l = some d) :
    (d ∈ s.jobs ∧ d.2.state = .ready ∧ d.2.target = t ∧ d.2.level = l) ∧
      ∀ o ∈ s.jobs, o.2.state = .ready ∧ o.2.target = t ∧ o.2.level = l →
        d.2.readyOrder.getD 0 ≤ o.2.readyOrder.getD 0 := by
  obtain ⟨hmem, hmin⟩ := earliestJob_spec h
  exact ⟨mem_readyJobs.1 hmem, fun o ho hready => hmin o (mem_readyJobs.2 ⟨ho, hready⟩)⟩

/-! ### The candidate of a level (R139) -/

/-- A READY job of a level that a line may choose: one for the line itself or for POOL. -/
def Job.waitsFor (n : Line) (l : Fin 4) (j : Job) : Prop :=
  j.state = .ready ∧ j.level = l ∧ (j.target = .line n ∨ j.target = .pool)

/-- A choice is the job with the earliest ready order of those that wait for a line at a level. -/
structure Choice.IsEarliest (c : Choice) (n : Line) (l : Fin 4) (s : State) (d : Nat × Job) : Prop where
  level : c.level = l
  mem : d ∈ s.jobs
  slot : d.1 = c.slot
  waits : d.2.waitsFor n l
  pooled : c.pooled = true ↔ d.2.target = .pool
  earliest : ∀ o ∈ s.jobs, o.2.waitsFor n l → d.2.readyOrder.getD 0 ≤ o.2.readyOrder.getD 0

theorem candidate_none {s : State} {n : Line} {l : Fin 4} (h : s.candidate n l = none) (d : Nat × Job)
    (hd : d ∈ s.jobs) : ¬ d.2.waitsFor n l := by
  rintro ⟨hready, hlevel, htarget⟩
  unfold State.candidate at h
  split at h
  · split at h <;> cases h
  · cases h
  · cases h
  · next hown hpool =>
    rcases htarget with ht | ht
    · exact readyHead_none hown d hd ⟨hready, ht, hlevel⟩
    · exact readyHead_none hpool d hd ⟨hready, ht, hlevel⟩

/-- The queue that a choice takes from: POOL's, or the line's own. -/
def queueOf (n : Line) (pooled : Bool) : Target := if pooled then .pool else .line n

/-- A head is the choice of its level where no job of the other queue comes before it. -/
theorem readyHead_isEarliest {s : State} {n : Line} {l : Fin 4} {d : Nat × Job} (pooled : Bool)
    (h : s.readyHead (queueOf n pooled) l = some d)
    (hother : ∀ o ∈ s.jobs, o.2.state = .ready ∧ o.2.target = queueOf n (!pooled) ∧ o.2.level = l →
      d.2.readyOrder.getD 0 ≤ o.2.readyOrder.getD 0) :
    Choice.IsEarliest ⟨d.1, pooled, l⟩ n l s d := by
  obtain ⟨⟨hmem, hready, htarget, hlevel⟩, hmin⟩ := readyHead_some h
  have hqueues : ∀ t : Target, t = .line n ∨ t = .pool → t = queueOf n pooled ∨ t = queueOf n (!pooled) := by
    cases pooled <;> simp [queueOf, or_comm]
  refine ⟨rfl, hmem, rfl, ⟨hready, hlevel, ?_⟩, ?_, fun o ho hwaits => ?_⟩
  · rw [htarget]
    cases pooled <;> simp [queueOf]
  · rw [htarget]
    cases pooled <;> simp [queueOf]
  · obtain ⟨hoready, holevel, hotarget⟩ := hwaits
    rcases hqueues _ hotarget with ht | ht
    · exact hmin o ho ⟨hoready, ht, holevel⟩
    · exact hother o ho ⟨hoready, ht, holevel⟩

/-- The candidate is the earlier of the two heads that there are. -/
theorem candidate_some {s : State} {n : Line} {l : Fin 4} {c : Choice} (h : s.candidate n l = some c) :
    ∃ d, c.IsEarliest n l s d := by
  unfold State.candidate at h
  split at h
  · next a b hown hpool =>
    obtain ⟨-, hafterOwn⟩ := readyHead_some hown
    obtain ⟨-, hafterPool⟩ := readyHead_some hpool
    split at h <;> cases h
    · next hle => exact ⟨a, readyHead_isEarliest false hown fun o ho hw => hle.trans (hafterPool o ho hw)⟩
    · next hlt =>
      exact ⟨b, readyHead_isEarliest true hpool fun o ho hw => (not_le.1 hlt).le.trans (hafterOwn o ho hw)⟩
  · next a hown hpool =>
    cases h
    exact ⟨a, readyHead_isEarliest false hown fun o ho hw => absurd hw (readyHead_none hpool o ho)⟩
  · next b hown hpool =>
    cases h
    exact ⟨b, readyHead_isEarliest true hpool fun o ho hw => absurd hw (readyHead_none hown o ho)⟩
  · cases h

/-! ### The walk of the level order (R139, R140) -/

/-- Every level stands in the order. -/
theorem mem_levelOrder (k l : Fin 4) : l ∈ levelOrder k := by revert k l; decide

/-- No level stands in the order twice. -/
theorem levelOrder_nodup (k : Fin 4) : (levelOrder k).Nodup := by revert k; decide

/-- What the walk of a choice finds at one level: nothing where the hold mask holds the level back. -/
def State.candidateOutsideMask (s : State) (n : Line) (l : Fin 4) : Option Choice :=
  if (s.lines.get n).holdMask.getLsbD l.val then none else s.candidate n l

theorem nextChoice_eq (s : State) (n : Line) : s.nextChoice n =
    (levelOrder (s.lines.get n).lowest).findSome? (s.candidateOutsideMask n) := by
  unfold State.nextChoice State.candidateOutsideMask
  rfl

theorem candidateOutsideMask_none {s : State} {n : Line} {l : Fin 4} (h : s.candidateOutsideMask n l = none) :
    (s.lines.get n).holdMask.getLsbD l.val = true ∨ ∀ d ∈ s.jobs, ¬ d.2.waitsFor n l := by
  unfold State.candidateOutsideMask at h
  split at h
  · next hheld => exact .inl hheld
  · exact .inr (candidate_none h)

theorem candidateOutsideMask_some {s : State} {n : Line} {l : Fin 4} {c : Choice}
    (h : s.candidateOutsideMask n l = some c) :
    ¬ (s.lines.get n).holdMask.getLsbD l.val = true ∧ ∃ d, c.IsEarliest n l s d := by
  unfold State.candidateOutsideMask at h
  split at h
  · cases h
  · next hfree => exact ⟨hfree, candidate_some h⟩

/-- Settles O37: the walk ends at the first level that has a candidate, or at none. -/
theorem choicesFollowTheLevelOrder : Obligations.ChoicesFollowTheLevelOrder := by
  intro n s waits heldBack
  refine ⟨fun hnone l hfree => ?_, fun c hc => ?_⟩
  · rw [nextChoice_eq, List.findSome?_eq_none_iff] at hnone
    exact (candidateOutsideMask_none (hnone l (mem_levelOrder _ l))).resolve_left hfree
  · rw [nextChoice_eq, List.findSome?_eq_some_iff] at hc
    obtain ⟨passed, l, rest, horder, hfound, hpassed⟩ := hc
    obtain ⟨hfree, d, hd⟩ := candidateOutsideMask_some hfound
    obtain rfl := hd.level
    refine ⟨hfree, ⟨d, hd.mem, hd.slot, hd.waits, hd.pooled, hd.earliest⟩, fun before after hsplit => ?_⟩
    have hnodup : (passed ++ c.level :: rest).Nodup := horder ▸ levelOrder_nodup _
    obtain ⟨hnotBefore, hnotAfter⟩ : c.level ∉ passed ∧ c.level ∉ rest := by
      simpa using (List.nodup_middle.1 hnodup).notMem
    have hsame : passed = before :=
      ((List.append_cons_inj_of_notMem hnotBefore hnotAfter).1 (horder.symm.trans hsplit)).1
    exact fun l hl => candidateOutsideMask_none (hpassed l (hsame ▸ hl))

end Sys2Proof.Machine

/-! The rules of a printer line's operations: the line changed, its inputs judged, its stall, its feed. -/

namespace Sys2Proof.Machine

/-! ### A line changed -/

theorem PerLine.set_get {α : Type} (f : PerLine α) (n : Line) : f.set n (f.get n) = f := by cases n <;> rfl

theorem line_modLine (n : Line) (f : LineState → LineState) (s : State) :
    (modLine n f s).lines.get n = f (s.lines.get n) := by
  rw [modLine_lines, PerLine.get_set, if_pos rfl]

/-- A change that leaves the line as it is leaves the state as it is. -/
theorem modLine_eq_self {n : Line} {f : LineState → LineState} {s : State}
    (h : f (s.lines.get n) = s.lines.get n) : modLine n f s = s := by
  rw [modLine, h, PerLine.set_get]

theorem modLine_modLine (n : Line) (f g : LineState → LineState) (s : State) :
    modLine n g (modLine n f s) = modLine n (fun t => g (f t)) s := by
  simp only [modLine, PerLine.get_set, if_true, PerLine.set_set]

/-! ### When a line chooses nothing (R138, R139) -/

theorem choose_of_not_idle {n : Line} {s : State} (h : (s.lines.get n).state ≠ .idle) : choose n s = s := if_neg h

theorem choose_of_no_choice {n : Line} {s : State} (h : s.nextChoice n = none) : choose n s = s := by
  unfold choose
  rw [h]
  exact ite_self s

/-- A line's choice looks at its lowest level and its hold mask alone, beside the jobs. -/
theorem nextChoice_modLine {n : Line} {f : LineState → LineState} {s : State}
    (hlowest : (f (s.lines.get n)).lowest = (s.lines.get n).lowest)
    (hmask : (f (s.lines.get n)).holdMask = (s.lines.get n).holdMask) :
    (modLine n f s).nextChoice n = s.nextChoice n := by
  unfold State.nextChoice
  dsimp only
  rw [line_modLine, hlowest, hmask]
  rfl

/-! ### Inputs judged (R124, R126) -/

theorem judgeInputs_busy {n : Line} {s : State} (hgood : (s.lines.get n).good = true)
    (hbusy : (s.lines.get n).busy = true) : judgeInputs n s = startBusyWait n s := by
  simp [judgeInputs, badInput_of_good hgood, hbusy]

theorem judgeInputs_bad {n : Line} {s : State} {c : StallCause} (h : (s.lines.get n).badInput = some c) :
    judgeInputs n s = enterStall n c s := by
  simp only [judgeInputs, h]

/-- Good inputs, judged, leave the jobs as they are. -/
theorem judgeInputs_jobs_of_good {n : Line} {s : State} (hgood : (s.lines.get n).good = true) :
    (judgeInputs n s).jobs = s.jobs := by
  cases hbusy : (s.lines.get n).busy with
  | false => rw [judgeInputs_good hgood hbusy, presentByte, modLine_jobs]
  | true => rw [judgeInputs_busy hgood hbusy, startBusyWait, modLine_jobs]

theorem line_presentByte {n : Line} {slot : Nat} {j : Job} {s : State} (hjob : (s.lines.get n).job = some slot)
    (hfind : s.jobs.find slot = some j) : (presentByte n s).lines.get n = { s.lines.get n with
      data := byteAt j.bytes j.printed, byteInFlight := true, pendingCause := none, busyWait := none
      ackTimer := some s.config.ackTimeout } := by
  rw [presentByte, line_modLine, nextByte_of_job hjob hfind]

theorem line_startBusyWait (n : Line) (s : State) : (startBusyWait n s).lines.get n = { s.lines.get n with
    busyWait := some ((s.lines.get n).busyWait.getD (1000 * s.config.busyLimit)) } := line_modLine ..

/-! ### The stall (R128) -/

/-- From `s` to `t` a line has stalled by a cause, with the job it serves. -/
def stalledBy (n : Line) (slot : Nat) (j : Job) (c : StallCause) (s t : State) : Prop :=
  (t.lines.get n).state = .stalled ∧ (t.lines.get n).stallCause = some c ∧
    (t.lines.get n).byteInFlight = false ∧ t.jobs.find slot = some { j with state := .stalled } ∧
    t.raised .printerStalled = true ∧ countedUp (.line n c.counter) 1 s t

/-- No stall is counted where a frame of the part's own is. -/
theorem StallCause.counter_noticed (n : Line) (c : StallCause) : (Counter.line n c.counter).noticed = false := by
  cases c <;> rfl

theorem line_enterStall (n : Line) (c : StallCause) (s : State) :
    (enterStall n c s).lines.get n = { (s.lines.get n).quietened with
      state := .stalled, stallCause := some c, retryTimer := retryFor c s } := by
  unfold enterStall
  dsimp only
  rw [lines_of_same (raise_same ..), bump_lines, lineJobState_lines, line_modLine]

theorem enterStall_stalls {n : Line} {slot : Nat} {j : Job} {s : State} (hjob : (s.lines.get n).job = some slot)
    (hfind : s.jobs.find slot = some j) (c : StallCause) : stalledBy n slot j c s (enterStall n c s) := by
  let quiet := modLine n (fun t => { t.quietened with
    state := .stalled, stallCause := some c, retryTimer := retryFor c s }) s
  have heq : enterStall n c s =
      raise .printerStalled (bump (.line n c.counter) (lineJobState n .stalled quiet)) := rfl
  have hserving : (quiet.lines.get n).job = some slot := by rw [line_modLine]; exact hjob
  refine ⟨?_, ?_, ?_, ?_, raised_raise .printerStalled _, ?_⟩
  · rw [line_enterStall]
  · rw [line_enterStall]
  · rw [line_enterStall]; rfl
  · rw [heq, jobs_of_same (raise_same ..), bump_jobs, lineJobState_of_job .stalled hserving]
    exact find_modJob (s := quiet) hfind _
  · rw [heq, countedUp, count_raise (c.counter_noticed n), count_bump, if_pos rfl, count_lineJobState]
    rfl

/-- What has not counted the stall's cause before it changes nothing of the account. -/
theorem stalledBy_of_count {n : Line} {slot : Nat} {j : Job} {c : StallCause} {s v t : State}
    (hcount : v.count (.line n c.counter) = s.count (.line n c.counter)) (h : stalledBy n slot j c v t) :
    stalledBy n slot j c s t := by
  obtain ⟨hstate, hcause, hbyte, hlive, hraised, hstall⟩ := h
  rw [countedUp, hcount] at hstall
  exact ⟨hstate, hcause, hbyte, hlive, hraised, hstall⟩

/-- A timed cause starts the retry timer, unless the stall retry is 0 (R128). -/
theorem retryFor_timed {c : StallCause} (h : c.timed = true) (s : State) :
    retryFor c s = if s.config.stallRetry = 0 then none else some (1000 * s.config.stallRetry) := by
  simp only [retryFor, h, true_and, ne_eq, ite_not]

theorem timed_of_stallCause {t : LineState}
    (h : t.stallCause = some .ackTimeout ∨ t.stallCause = some .busyTimeout) :
    ∃ c, t.stallCause = some c ∧ c.timed = true := by
  rcases h with h | h
  · exact ⟨_, h, rfl⟩
  · exact ⟨_, h, rfl⟩

/-! ### The feed (R129, R130, R136) -/

/-- A line that feeds its job: its byte is in flight, or with BUSY high the busy wait runs and the byte in
flight is what it was. -/
def feeds (n : Line) (slot : Nat) (j : Job) (v : LineState) (c : Settings) (u : State) : Prop :=
  (u.lines.get n).state = .feeding ∧ (u.lines.get n).stallCause = none ∧
    u.jobs.find slot = some { j with state := .printing } ∧
    (v.busy = false → (u.lines.get n).byteInFlight = true ∧
      (u.lines.get n).data = byteAt j.bytes j.printed ∧ (u.lines.get n).ackTimer = some c.ackTimeout) ∧
    (v.busy = true → (u.lines.get n).byteInFlight = v.byteInFlight ∧
      (u.lines.get n).busyWait = some (1000 * c.busyLimit))

theorem feed_feeds {n : Line} {slot : Nat} {j : Job} {s : State} (hjob : (s.lines.get n).job = some slot)
    (hfind : s.jobs.find slot = some j) (hgood : (s.lines.get n).good = true) :
    feeds n slot j (s.lines.get n) s.config (feed n s) := by
  let fed := modLine n (fun t => { t with
    state := .feeding, stallCause := none, retryTimer := none, busyWait := none }) s
  have hfed : fed.lines.get n = { s.lines.get n with
      state := .feeding, stallCause := none, retryTimer := none, busyWait := none } := line_modLine ..
  let printing := lineJobState n .printing fed
  have hline : printing.lines.get n = fed.lines.get n := by rw [lineJobState_lines]
  have hprinting : printing = modJob slot (fun j => { j with state := .printing }) fed :=
    lineJobState_of_job .printing (by rw [hfed]; exact hjob)
  have hconfig : printing.config = s.config := by rw [hprinting, modJob_config]; rfl
  have hlive : printing.jobs.find slot = some { j with state := .printing } := by
    rw [hprinting]
    exact find_modJob (s := fed) hfind _
  have hserving : (printing.lines.get n).job = some slot := by rw [hline, hfed]; exact hjob
  have hgood' : (printing.lines.get n).good = true := by rw [hline, hfed]; exact hgood
  have heq : feed n s = judgeInputs n printing := rfl
  unfold feeds
  rw [heq, judgeInputs_jobs_of_good hgood']
  cases hbusy : (s.lines.get n).busy with
  | false =>
    have hbusy' : (printing.lines.get n).busy = false := by rw [hline, hfed]; exact hbusy
    rw [judgeInputs_good hgood' hbusy', line_presentByte hserving hlive, hline, hfed, hconfig]
    exact ⟨rfl, rfl, hlive, fun _ => ⟨rfl, rfl, rfl⟩, fun h => absurd h (by simp)⟩
  | true =>
    have hbusy' : (printing.lines.get n).busy = true := by rw [hline, hfed]; exact hbusy
    rw [judgeInputs_busy hgood' hbusy', line_startBusyWait, hline, hfed, hconfig]
    exact ⟨rfl, rfl, hlive, fun h => absurd h (by simp), fun _ => ⟨rfl, rfl⟩⟩

theorem resume_feeds {n : Line} {c : StallCause} {s : State} (hstate : (s.lines.get n).state = .stalled)
    (hcause : (s.lines.get n).stallCause = some c) (htimed : c.timed = true) : resume n s = feed n s := by
  simp only [resume, hcause, hstate, htimed, and_self, if_true]

/-- A line that is not STALLED does not resume. -/
theorem resume_of_not_stalled {n : Line} {s : State} (h : (s.lines.get n).state ≠ .stalled) : resume n s = s := by
  unfold resume
  dsimp only
  split
  · exact if_neg fun hc => h hc.1
  · rfl

theorem endInputStall_feeds {n : Line} {c : StallCause} {s : State} (hstate : (s.lines.get n).state = .stalled)
    (hcause : (s.lines.get n).stallCause = some c) (htimed : c.timed = false)
    (hgood : (s.lines.get n).good = true) : endInputStall n s = feed n s := by
  simp only [endInputStall, hcause, hstate, htimed, hgood, and_self, if_true]

end Sys2Proof.Machine

/-! FEEDING lines stall and resume; the changes of the inputs and the end of the INIT pulse. -/

namespace Sys2Proof.Machine

/-! ### The commands at an active part -/

section
variable {n : Line} {s : State} (ha : s.active = true)
include ha

theorem exec_busyLimitExpiry : exec (.busyLimitExpiry n) s = .next (busyLimit n s) :=
  congrArg Host.Outcome.next (whenActive_of_active _ ha)

theorem exec_stallRetryExpiry (htimer : (s.lines.get n).retryTimer.isSome = true) :
    exec (.stallRetryExpiry n) s = .next (resume n s) :=
  congrArg Host.Outcome.next ((whenActive_of_active _ ha).trans (if_pos htimer))

theorem exec_initPulseEnd : exec (.initPulseEnd n) s = .next (initPulseEnd n s) :=
  congrArg Host.Outcome.next (whenActive_of_active _ ha)

end

/-! ### A pin changes (R126, R127, R129, R135) -/

section
variable {n : Line} {now level : Bool} {put : LineState → LineState} {bad : Option StallCause} {s : State}

theorem changeInput_of_ne (ha : s.active = true) (hne : now ≠ level) :
    changeInput n now level put bad s = inputChanged n bad (modLine n put s) :=
  (if_neg hne).trans (whenActive_of_active (s := modLine n put s) _ ha)

/-- Where the line only sees its pin, the pin is all that changes, whether or not the level does. -/
theorem changeInput_pin (ha : s.active = true) (hsame : now = level → put (s.lines.get n) = s.lines.get n)
    (hseen : inputChanged n bad (modLine n put s) = modLine n put s) :
    changeInput n now level put bad s = modLine n put s := by
  by_cases h : now = level
  · rw [modLine_eq_self (hsame h)]
    exact if_pos h
  · rw [changeInput_of_ne ha h, hseen]

/-! ### What a line does after a change, by its state (R122) -/

theorem inputChanged_pends {c : StallCause} (hstate : (s.lines.get n).state = .feeding)
    (hbyte : (s.lines.get n).byteInFlight = true) :
    inputChanged n (some c) s = modLine n (fun t => t.pend c) s := by
  simp only [inputChanged, hstate, hbyte, if_true]

/-- A change that sets no cause is not judged while a byte is in flight (R126). -/
theorem inputChanged_in_flight (hstate : (s.lines.get n).state = .feeding)
    (hbyte : (s.lines.get n).byteInFlight = true) : inputChanged n none s = s := by
  simp only [inputChanged, hstate, hbyte, if_true]

theorem inputChanged_between (hstate : (s.lines.get n).state = .feeding)
    (hbyte : (s.lines.get n).byteInFlight = false) : inputChanged n bad s = judgeInputs n s := by
  simp only [inputChanged, hstate, hbyte, Bool.false_eq_true, if_false]

theorem inputChanged_stalled (hstate : (s.lines.get n).state = .stalled) :
    inputChanged n bad s = endInputStall n s := by
  simp only [inputChanged, hstate]

theorem inputChanged_idle (hstate : (s.lines.get n).state = .idle) (hselect : (s.lines.get n).select = false) :
    inputChanged n bad s = modLine n (fun t => { t with state := .offline }) s := by
  simp only [inputChanged, hstate, hselect, Bool.false_eq_true, if_false]

theorem inputChanged_offline (hstate : (s.lines.get n).state = .offline) (hselect : (s.lines.get n).select = true) :
    inputChanged n bad s = choose n (modLine n (fun t => { t with state := .idle }) s) := by
  simp only [inputChanged, hstate, hselect, if_true]

/-- A DISABLED or DRAINING line does nothing (R122, R134). -/
theorem inputChanged_seen (h : (s.lines.get n).state = .disabled ∨ (s.lines.get n).state = .draining) :
    inputChanged n bad s = s := by
  rcases h with h | h <;> simp only [inputChanged, h]

end

/-! ### An input goes bad between bytes (R124, R128) -/

section
variable {n : Line} {s : State}

theorem good_iff {t : LineState} : t.good = true ↔ t.select = true ∧ t.paperOut = false ∧ t.fault = false := by
  simp [LineState.good, and_assoc]

theorem changeInput_stalls {slot : Nat} {j : Job} {c : StallCause} {now level : Bool}
    {put : LineState → LineState} {bad : Option StallCause} (ha : s.active = true) (hne : now ≠ level)
    (hput : (put (s.lines.get n)).state = .feeding ∧ (put (s.lines.get n)).byteInFlight = false ∧
      (put (s.lines.get n)).job = some slot)
    (hfind : s.jobs.find slot = some j) (hbad : (put (s.lines.get n)).badInput = some c) :
    stalledBy n slot j c s (changeInput n now level put bad s) := by
  rw [← line_modLine n put s] at hput hbad
  obtain ⟨hstate, hbyte, hjob⟩ := hput
  rw [changeInput_of_ne ha hne, inputChanged_between hstate hbyte, judgeInputs_bad hbad]
  exact stalledBy_of_count (v := modLine n put s) rfl (enterStall_stalls hjob hfind c)

/-! ### The timed stalls (R125, R126) -/

theorem ackTimeout_stalls (hbyte : (s.lines.get n).byteInFlight = true)
    (hstate : (s.lines.get n).state = .feeding) (hcause : (s.lines.get n).pendingCause = none) :
    ackTimeout n s =
      enterStall n .ackTimeout (bump (.line n .ackTimeouts) (modLine n LineState.byteEnded s)) := by
  have hpending : ((modLine n LineState.byteEnded s).lines.get n).pendingCause = none := by
    rw [line_modLine]
    exact hcause
  simp only [ackTimeout, hbyte, hstate, if_true, reduceCtorEq, if_false, bump_lines, hpending]

theorem busyLimit_stalls (hstate : (s.lines.get n).state = .feeding)
    (hwait : (s.lines.get n).busyWait.isSome = true) :
    busyLimit n s = enterStall n .busyTimeout (bump (.line n .busyTimeouts) s) :=
  if_pos ⟨hstate, hwait⟩

/-- A timed stall, entered after its expiry has been counted on the line `v`. -/
theorem enterStall_timed {slot : Nat} {j : Job} {c : StallCause} {d : LineCount} {v : State}
    (hv : v.jobs = s.jobs ∧ v.config = s.config ∧ v.counters = s.counters)
    (hjob : (v.lines.get n).job = some slot) (hfind : s.jobs.find slot = some j) (htimed : c.timed = true)
    (hd : d ≠ c.counter) :
    let t := enterStall n c (bump (.line n d) v)
    stalledBy n slot j c s t ∧ (t.lines.get n).retryTimer =
      if s.config.stallRetry = 0 then none else some (1000 * s.config.stallRetry) := by
  obtain ⟨hjobs, hconfig, hcounters⟩ := hv
  have hother : Counter.line n d ≠ .line n c.counter := fun h => hd (by cases h; rfl)
  refine ⟨stalledBy_of_count ((count_bump_other hother v).trans (count_of_counters _ hcounters))
    (enterStall_stalls (by rw [bump_lines]; exact hjob) (by rw [bump_jobs, hjobs]; exact hfind) c), ?_⟩
  rw [line_enterStall, retryFor_timed htimed, bump_config, hconfig]

end

/-- Settles O39: the five stalls of a FEEDING line, and the retry. -/
theorem feedingLinesStallAndResume : Obligations.FeedingLinesStallAndResume := by
  intro n s slot j ha hjob hfind stalled retry
  refine ⟨fun hstate hbyte hcause => ?_, fun hstate hwait => ?_, fun hstate hbyte hgood => ?_,
    fun hstate htimer hcause hgood hbusy => ?_⟩
  · rw [exec_ackTimeout ha, ackTimeout_stalls hbyte hstate hcause]
    exact ⟨_, rfl, enterStall_timed ⟨rfl, rfl, rfl⟩ (by rw [line_modLine]; exact hjob) hfind rfl (by decide)⟩
  · rw [exec_busyLimitExpiry ha, busyLimit_stalls hstate hwait]
    exact ⟨_, rfl, enterStall_timed ⟨rfl, rfl, rfl⟩ hjob hfind rfl (by decide)⟩
  · obtain ⟨hselect, hpaper, hfault⟩ := good_iff.1 hgood
    have between : ∀ {now level : Bool} {put : LineState → LineState} {bad : Option StallCause} {c : StallCause},
        now ≠ level → (put (s.lines.get n)).state = (s.lines.get n).state ∧
          (put (s.lines.get n)).byteInFlight = (s.lines.get n).byteInFlight ∧
          (put (s.lines.get n)).job = (s.lines.get n).job →
        (put (s.lines.get n)).badInput = some c →
        stalledBy n slot j c s (changeInput n now level put bad s) := fun hne hput hbad =>
      changeInput_stalls ha hne (by rwa [hstate, hbyte, hjob] at hput) hfind hbad
    refine ⟨⟨_, rfl, between (by simp [hselect]) ⟨rfl, rfl, rfl⟩ ?_⟩,
      ⟨_, rfl, between (by simp [hpaper]) ⟨rfl, rfl, rfl⟩ ?_⟩,
      ⟨_, rfl, between (by simp [hfault]) ⟨rfl, rfl, rfl⟩ ?_⟩⟩
    all_goals simp [LineState.badInput, hselect, hpaper]
  · obtain ⟨c, hc, htimed⟩ := timed_of_stallCause hcause
    obtain ⟨hfeeding, -, hlive, hpresents, -⟩ := feed_feeds hjob hfind hgood
    obtain ⟨hflight, hdata, -⟩ := hpresents hbusy
    rw [exec_stallRetryExpiry ha htimer, resume_feeds hstate hc htimed]
    exact ⟨_, rfl, hfeeding, hflight, hdata, hlive⟩

end Sys2Proof.Machine

/-! The changes of the inputs of a line in any state, an ACK that finds BUSY high, and the end of the pulse. -/

namespace Sys2Proof.Machine

/-! ### An ACK with BUSY high (R125, R126, R131) -/

/-- A FEEDING line, `t` when its byte was in flight, that waits for the fall of BUSY. Its data pins keep the
byte that has ended (log entry 21). -/
def waitsForBusy (n : Line) (t : LineState) (c : Settings) (u : State) : Prop :=
  (u.lines.get n).state = .feeding ∧ (u.lines.get n).byteInFlight = false ∧ (u.lines.get n).ackTimer = none ∧
    (u.lines.get n).busyWait = some (t.busyWait.getD (1000 * c.busyLimit)) ∧ (u.lines.get n).data = t.data

section
variable {n : Line} {slot : Nat} {j : Job} {s : State}
variable (hbyte : (s.lines.get n).byteInFlight = true) (hstate : (s.lines.get n).state = .feeding)
  (hcause : (s.lines.get n).pendingCause = none) (hjob : (s.lines.get n).job = some slot)
  (hfind : s.jobs.find slot = some j) (hgood : (s.lines.get n).good = true)
  (hbusy : (s.lines.get n).busy = true)

include hstate hcause hgood hbusy in
/-- The same line, seen after its byte has ended: the busy wait starts, and the jobs are left as they are. -/
theorem afterByte_waits {v : State} (hline : v.lines.get n = (s.lines.get n).byteEnded)
    (hconfig : v.config = s.config) :
    waitsForBusy n (s.lines.get n) s.config (afterByte n v) ∧ (afterByte n v).jobs = v.jobs := by
  have hpending : (v.lines.get n).pendingCause = none := hline ▸ hcause
  have hgood' : (v.lines.get n).good = true := hline ▸ hgood
  have hbusy' : (v.lines.get n).busy = true := hline ▸ hbusy
  have hwait : afterByte n v = startBusyWait n v := by
    simp only [afterByte, hpending, judgeInputs_busy hgood' hbusy']
  rw [hwait, waitsForBusy, line_startBusyWait, hline, hconfig]
  exact ⟨⟨hstate, rfl, rfl, rfl, rfl⟩, rfl⟩

include hbyte hstate hcause hjob hfind hgood hbusy

theorem ackPulse_waits_within (hpos : j.printed + 1 < j.bytes.length) :
    waitsForBusy n (s.lines.get n) s.config (ackPulse n s) ∧
      (ackPulse n s).jobs.find slot = some { j with printed := j.printed + 1 } := by
  have hacked := find_byteAcked hjob hfind
  have hline := line_byteAcked n s
  obtain ⟨hwaits, hjobs⟩ := afterByte_waits hstate hcause hgood hbusy hline (config_byteAcked n s)
  rw [ackPulse_feeding hbyte hstate, copyCheck_within (hline ▸ hjob) hacked hpos, hjobs]
  exact ⟨hwaits, hacked⟩

theorem ackPulse_waits_again (hpos : j.bytes.length ≤ j.printed + 1) (hleft : 0 < j.copiesLeft) :
    waitsForBusy n (s.lines.get n) s.config (ackPulse n s) ∧
      (ackPulse n s).jobs.find slot = some { j with printed := 0, copiesLeft := j.copiesLeft - 1 } := by
  have hacked := find_byteAcked hjob hfind
  have hline := line_byteAcked n s
  let copied := bump (.line n .copiesPrinted) (byteAcked n s)
  have hcopied : copied.jobs.find slot = some { j with printed := j.printed + 1 } := by
    rw [bump_jobs]
    exact hacked
  let again := modJob slot (fun j => { j with printed := 0, copiesLeft := j.copiesLeft - 1 }) copied
  obtain ⟨hwaits, hjobs⟩ := afterByte_waits (v := again) hstate hcause hgood hbusy
    (by rw [modJob_lines, bump_lines, hline]) (by rw [modJob_config, bump_config, config_byteAcked])
  rw [ackPulse_feeding hbyte hstate, copyCheck_again (hline ▸ hjob) hacked hpos hleft, hjobs]
  exact ⟨hwaits, find_modJob hcopied _⟩

end

/-! ### An input goes bad, or comes good again (R127, R129) -/

section
variable {n : Line} {now level : Bool} {put : LineState → LineState} {bad : Option StallCause} {s : State}

/-- While a byte is in flight the cause is kept for its end, and the first one stays. -/
theorem changeInput_pends {c : StallCause} (ha : s.active = true) (hne : now ≠ level)
    (hput : (put (s.lines.get n)).state = .feeding ∧ (put (s.lines.get n)).byteInFlight = true) :
    changeInput n now level put (some c) s = modLine n (fun t => (put t).pend c) s := by
  rw [← line_modLine n put s] at hput
  obtain ⟨hstate, hbyte⟩ := hput
  rw [changeInput_of_ne ha hne, inputChanged_pends hstate hbyte, modLine_modLine]

/-- A stall that an input made ends where the change makes the inputs good. -/
theorem changeInput_feeds {slot : Nat} {j : Job} {c : StallCause} (ha : s.active = true) (hne : now ≠ level)
    (hput : (put (s.lines.get n)).state = .stalled ∧ (put (s.lines.get n)).stallCause = some c ∧
      (put (s.lines.get n)).job = some slot)
    (hfind : s.jobs.find slot = some j) (htimed : c.timed = false) (hgood : (put (s.lines.get n)).good = true) :
    feeds n slot j (put (s.lines.get n)) s.config (changeInput n now level put bad s) := by
  have hline := line_modLine n put s
  rw [← hline] at hput hgood ⊢
  obtain ⟨hstate, hcause, hjob⟩ := hput
  rw [changeInput_of_ne ha hne, inputChanged_stalled hstate, endInputStall_feeds hstate hcause htimed hgood]
  exact feed_feeds (s := modLine n put s) hjob hfind hgood

end

/-! ### BUSY falls, SELECT changes between jobs (R126, R135) -/

section
variable {n : Line} {s : State} (ha : s.active = true)
include ha

theorem busyChange_presents (hstate : (s.lines.get n).state = .feeding)
    (hbyte : (s.lines.get n).byteInFlight = false) (hgood : (s.lines.get n).good = true)
    (hbusy : (s.lines.get n).busy = true) :
    exec (.busyChange n false) s = .next (modLine n (fun t => { t with
      busy := false, data := s.nextByte n, byteInFlight := true, pendingCause := none
      busyWait := none, ackTimer := some s.config.ackTimeout }) s) := by
  let fallen := modLine n (fun t => { t with busy := false }) s
  have hline : fallen.lines.get n = { s.lines.get n with busy := false } := line_modLine ..
  have hchanged : changeInput n (s.lines.get n).busy false (fun t => { t with busy := false }) none s =
      inputChanged n none fallen := changeInput_of_ne ha (by simp [hbusy])
  have hjudged : inputChanged n none fallen = presentByte n fallen := by
    rw [inputChanged_between (by rw [hline]; exact hstate) (by rw [hline]; exact hbyte),
      judgeInputs_good (by rw [hline]; exact hgood) (by rw [hline])]
  have hnext : fallen.nextByte n = s.nextByte n := by
    unfold State.nextByte
    rw [hline]
    rfl
  refine congrArg Host.Outcome.next (hchanged.trans (hjudged.trans ?_))
  rw [presentByte, modLine_modLine, hnext]
  rfl

theorem selectChange_idle (hstate : (s.lines.get n).state = .idle) (hselect : (s.lines.get n).select = true) :
    exec (.selectChange n false) s =
      .next (modLine n (fun t => { t with select := false, state := .offline }) s) := by
  have hline := line_modLine n (fun t => { t with select := false }) s
  refine congrArg Host.Outcome.next ((changeInput_of_ne ha (by simp [hselect])).trans ?_)
  rw [inputChanged_idle (by rw [hline]; exact hstate) (by rw [hline]), modLine_modLine]

theorem selectChange_offline (hstate : (s.lines.get n).state = .offline)
    (hselect : (s.lines.get n).select = false) (hchoice : s.nextChoice n = none) :
    exec (.selectChange n true) s =
      .next (modLine n (fun t => { t with select := true, state := .idle }) s) := by
  have hline := line_modLine n (fun t => { t with select := true }) s
  refine congrArg Host.Outcome.next ((changeInput_of_ne ha (by simp [hselect])).trans ?_)
  rw [inputChanged_offline (by rw [hline]; exact hstate) (by rw [hline]), modLine_modLine,
    choose_of_no_choice ((nextChoice_modLine rfl rfl).trans hchoice)]

/-- With a byte in flight BUSY is a pin and no more (R126). -/
theorem busyChange_in_flight (hstate : (s.lines.get n).state = .feeding)
    (hbyte : (s.lines.get n).byteInFlight = true) (b : Bool) :
    exec (.busyChange n b) s = .next (modLine n (fun t => { t with busy := b }) s) := by
  have hline := line_modLine n (fun t => { t with busy := b }) s
  exact congrArg Host.Outcome.next (changeInput_pin ha (fun h => by rw [← h])
    (inputChanged_in_flight (by rw [hline]; exact hstate) (by rw [hline]; exact hbyte)))

/-- A DISABLED or DRAINING line sees its pins and no more (R122, R134). -/
theorem inputs_seen (hstate : (s.lines.get n).state = .disabled ∨ (s.lines.get n).state = .draining) (b : Bool) :
    exec (.selectChange n b) s = .next (modLine n (fun t => { t with select := b }) s) ∧
      exec (.paperOutChange n b) s = .next (modLine n (fun t => { t with paperOut := b }) s) ∧
      exec (.faultChange n b) s = .next (modLine n (fun t => { t with fault := b }) s) ∧
      exec (.busyChange n b) s = .next (modLine n (fun t => { t with busy := b }) s) := by
  have seen : ∀ {now : Bool} {put : LineState → LineState} {bad : Option StallCause},
      (now = b → put (s.lines.get n) = s.lines.get n) →
      (put (s.lines.get n)).state = (s.lines.get n).state →
      changeInput n now b put bad s = modLine n put s := fun hsame hput =>
    changeInput_pin ha hsame (inputChanged_seen (by rw [line_modLine, hput]; exact hstate))
  exact ⟨congrArg Host.Outcome.next (seen (fun h => by rw [← h]) rfl),
    congrArg Host.Outcome.next (seen (fun h => by rw [← h]) rfl),
    congrArg Host.Outcome.next (seen (fun h => by rw [← h]) rfl),
    congrArg Host.Outcome.next (seen (fun h => by rw [← h]) rfl)⟩

/-! ### The pulse's end (R136) -/

theorem initPulseEnd_held (htimer : (s.lines.get n).initTimer.isSome = true)
    (hselect : (s.lines.get n).select = false) :
    exec (.initPulseEnd n) s = .next (modLine n (fun t => { t with initTimer := none }) s) := by
  have hlow : ((modLine n (fun t => { t with initTimer := none }) s).lines.get n).select = false := by
    rw [line_modLine]
    exact hselect
  rw [exec_initPulseEnd ha, initPulseEnd, if_pos htimer]
  exact congrArg Host.Outcome.next (if_neg (Bool.eq_false_iff.1 hlow))

theorem initPulseEnd_idle (htimer : (s.lines.get n).initTimer.isSome = true)
    (hjob : (s.lines.get n).job = none) (hselect : (s.lines.get n).select = true)
    (hchoice : s.nextChoice n = none) :
    exec (.initPulseEnd n) s =
      .next (modLine n (fun t => { t with initTimer := none, state := .idle }) s) := by
  let ended := modLine n (fun t => { t with initTimer := none }) s
  have hline : ended.lines.get n = { s.lines.get n with initTimer := none } := line_modLine ..
  have hfree : (ended.lines.get n).serving = false := by simp [hline, LineState.serving, hjob]
  have hleaves : initPulseEnd n s = leaveResetting n ended :=
    (if_pos htimer).trans (if_pos (show (ended.lines.get n).select = true by rw [hline]; exact hselect))
  rw [exec_initPulseEnd ha, hleaves, leaveResetting, hfree, if_neg Bool.false_ne_true, modLine_modLine,
    choose_of_no_choice ((nextChoice_modLine rfl rfl).trans hchoice)]

end

/-- Settles O40: the line's act on each change of an input, by its state, and on the pulse's end. -/
theorem inputChangesMoveTheLine : Obligations.InputChangesMoveTheLine := by
  intro n s ha t
  refine ⟨fun hstate hbyte hgood => ?_, busyChange_in_flight ha,
    fun slot j hstate hbyte hcause hgood hbusy hjob hfind => ?_, fun slot j hstate hjob hfind hcause => ?_,
    busyChange_presents ha, selectChange_idle ha, selectChange_offline ha, inputs_seen ha,
    fun htimer hjob => ⟨initPulseEnd_held ha htimer, initPulseEnd_idle ha htimer hjob⟩⟩
  · obtain ⟨hselect, hpaper, hfault⟩ := good_iff.1 hgood
    exact ⟨congrArg Host.Outcome.next (changeInput_pends ha (ne_of_eq_of_ne hselect (by decide)) ⟨hstate, hbyte⟩),
      congrArg Host.Outcome.next (changeInput_pends ha (ne_of_eq_of_ne hpaper (by decide)) ⟨hstate, hbyte⟩),
      congrArg Host.Outcome.next (changeInput_pends ha (ne_of_eq_of_ne hfault (by decide)) ⟨hstate, hbyte⟩)⟩
  · rw [exec_ackPulse ha]
    exact ⟨fun hpos => ⟨_, rfl, ackPulse_waits_within hbyte hstate hcause hjob hfind hgood hbusy hpos⟩,
      fun hpos hleft => ⟨_, rfl, ackPulse_waits_again hbyte hstate hcause hjob hfind hgood hbusy hpos hleft⟩⟩
  · obtain ⟨c, hc, htimed⟩ : ∃ c, t.stallCause = some c ∧ c.timed = false := by
      rcases hcause with h | h | h
      all_goals exact ⟨_, h, rfl⟩
    have hput := And.intro hstate (And.intro hc hjob)
    refine ⟨fun hselect hpaper hfault => ?_, fun hselect hpaper hfault => ?_, fun hselect hpaper hfault => ?_⟩
    · exact ⟨_, rfl, changeInput_feeds ha (ne_of_eq_of_ne hpaper (by decide)) hput hfind htimed
        (good_iff.2 ⟨hselect, rfl, hfault⟩)⟩
    · exact ⟨_, rfl, changeInput_feeds ha (ne_of_eq_of_ne hselect (by decide)) hput hfind htimed
        (good_iff.2 ⟨rfl, hpaper, hfault⟩)⟩
    · exact ⟨_, rfl, changeInput_feeds ha (ne_of_eq_of_ne hfault (by decide)) hput hfind htimed
        (good_iff.2 ⟨hselect, hpaper, rfl⟩)⟩

end Sys2Proof.Machine

/-! ROTATE-LINE, RESET-LINE, SET-LINE and RESUME-LINE. -/

namespace Sys2Proof.Machine

/-! ### The requests taken and answered (R187) -/

section
variable {s : State} {q : Request} {rest : List Request}

theorem exec_rotateLine {b y : Byte} (h : s.headIs q rest (.rotateLine b y)) :
    exec .rotateLine s = .next ((carryRotateLine b y (becomeCurrent q rest s)).answer q) :=
  congrArg Host.Outcome.next (carry_at h _ _ (a := (b, y)) rfl)

theorem exec_resetLine {n : Line} (h : s.headIs q rest (.resetLine n)) :
    exec .resetLine s = .next ((carryResetLine n (becomeCurrent q rest s)).answer q) :=
  congrArg Host.Outcome.next (carry_at h _ _ (a := n) rfl)

theorem exec_setLine {b m : Byte} {e : Option Bool} {x : Option (BitVec 4)}
    (h : s.headIs q rest (.setLine b e m x)) :
    exec .setLine s = .next ((carrySetLine b e m x (becomeCurrent q rest s)).answer q) :=
  congrArg Host.Outcome.next (carry_at h _ _ (a := (b, e, m, x)) rfl)

theorem exec_resumeLine {b : Byte} (h : s.headIs q rest (.resumeLine b)) :
    exec .resumeLine s = .next ((carryResumeLine b (becomeCurrent q rest s)).answer q) :=
  congrArg Host.Outcome.next (carry_at h _ _ (a := b) rfl)

end

theorem onLine_code {b : Byte} {n : Line} (h : Line.ofCode b = some n) (s : State) (f : Line → Carried) :
    onLine b s f = f n := by
  simp only [onLine, h]

theorem onLine_no_code {b : Byte} (h : Line.ofCode b = none) (s : State) (f : Line → Carried) :
    onLine b s f = .refuse .range s := by
  simp only [onLine, h]

/-! ### ROTATE-LINE (R141) -/

theorem carryRotateLine_done {b y : Byte} {n : Line} {k : Fin 4} (hb : Line.ofCode b = some n)
    (hy : levelOf y = some k) (s : State) : carryRotateLine b y s = .done (rotateTo n k s) := by
  simp only [carryRotateLine, onLine_code hb, hy]

theorem carryRotateLine_range {b y : Byte} (h : Line.ofCode b = none ∨ levelOf y = none) (s : State) :
    carryRotateLine b y s = .refuse .range s := by
  cases hb : Line.ofCode b with
  | none => exact onLine_no_code hb s _
  | some n =>
    have hy : levelOf y = none := h.resolve_left (by simp [hb])
    simp only [carryRotateLine, onLine_code hb, hy]

theorem turned_of_rotating {t : LineState} {l : Fin 4} (hrotating : t.rotating = true) (hl : t.takenFrom = some l) :
    t.turned = l := by
  rw [LineState.turned, if_pos hrotating, hl, Option.getD_some]

/-- Settles O47: the level is made the lowest, and the line chooses. -/
theorem rotateLineSetsTheLevelOrder : Obligations.RotateLineSetsTheLevelOrder := by
  intro s q rest b y h u
  refine ⟨fun n k hb hy => ?_, fun t hrotating l hl => turned_of_rotating hrotating hl, fun hrange => ?_⟩
  · have hline := line_modLine n (fun t => { t with lowest := k }) u
    refine ⟨?_, ?_, fun hidle => choose_of_not_idle ?_, rfl, ?_⟩
    · rw [hline]
      rfl
    · rw [exec_rotateLine h, carryRotateLine_done hb hy]
      rfl
    · rw [hline]
      exact hidle
    · rw [hline]
      rfl
  · rw [exec_rotateLine h, carryRotateLine_range hrange]
    rfl

/-! ### RESET-LINE (R134, R136) -/

section
variable {n : Line} {slot : Nat} {j : Job} {s : State}

theorem carryResetLine_disabled (h : (s.lines.get n).state = .disabled) :
    carryResetLine n s = .refuse .conflict s := if_pos h

theorem carryResetLine_taken (h : (s.lines.get n).state ≠ .disabled) :
    carryResetLine n s = .done (resetTaken n s) := if_neg h

/-- The INIT pulse at a line with a job in service: the job is STALLED, and else as it was. -/
theorem startInit_of_job (hjob : (s.lines.get n).job = some slot) (hfind : s.jobs.find slot = some j) :
    startInit n s =
      { modLine n LineState.pulsing s with jobs := s.jobs.put id slot { j with state := .stalled } } := by
  have hserving : ((modLine n LineState.pulsing s).lines.get n).job = some slot := by
    rw [line_modLine]
    exact hjob
  have hstalled : startInit n s = lineJobState n .stalled (modLine n LineState.pulsing s) := rfl
  rw [hstalled, lineJobState_of_job .stalled hserving]
  exact modJob_of_find (s := modLine n LineState.pulsing s) hfind _

/-- A line that ends no job for the reset is counted and starts the pulse. -/
theorem resetTaken_pulses (h : (s.lines.get n).state ≠ .draining ∨ (s.lines.get n).job = none) :
    resetTaken n s = startInit n (bump (.line n .resets) s) := by
  by_cases hstate : (s.lines.get n).state = .draining
  · have hjob := h.resolve_left (not_not_intro hstate)
    simp only [resetTaken, bump_lines, hstate, hjob, if_true]
  · simp only [resetTaken, bump_lines, hstate, if_false]

/-- A DRAINING line loses its job and turns its level order before the pulse (R134, log entry 20). -/
theorem resetTaken_drains (hstate : (s.lines.get n).state = .draining) (hjob : (s.lines.get n).job = some slot) :
    resetTaken n s = startInit n
      (modLine n (fun t => { t with job := none, takenFrom := none, lowest := t.turned })
        (endJob slot ((bump (.line n .resets) s).endAskedOn n) (bump (.line n .resets) s))) := by
  simp only [resetTaken, bump_lines, hstate, hjob, if_true]

/-- What the reset of a DRAINING line comes to: the job's slot is free, the line pulses with its order turned,
and the reset and the outcome are counted. -/
theorem resetTaken_ends {e : JobEnd} (hstate : (s.lines.get n).state = .draining)
    (hjob : (s.lines.get n).job = some slot) (hfind : s.jobs.find slot = some j) (hasked : j.endAsked = some e) :
    (resetTaken n s).jobs = s.jobs.drop slot ∧
      (resetTaken n s).lines = s.lines.set n { (s.lines.get n).pulsing with
        job := none, takenFrom := none, lowest := (s.lines.get n).turned } ∧
      countedUp (.line n .resets) 1 s (resetTaken n s) ∧
      countedUp (.spool e.counter) 1 s (resetTaken n s) := by
  let counted := bump (.line n .resets) s
  have hlive : counted.jobs.find slot = some j := by
    rw [bump_jobs]
    exact hfind
  have hend : counted.endAskedOn n = e := by
    rw [endAskedOn_of_job (by rw [bump_lines]; exact hjob) hlive, hasked, Option.getD_some]
  let ended := endJob slot e counted
  have hlines : ended.lines = s.lines := (lines_endJob ..).trans (bump_lines ..)
  have hjobs : ended.jobs = s.jobs.drop slot := (endJob_jobs ..).trans (by rw [bump_jobs])
  have hcount : ∀ c : Counter, c.ofChoice = false → ended.count c = (bump (.spool e.counter) counted).count c :=
    fun c hc => count_endJob hc hlive e
  let freed := modLine n (fun t => { t with job := none, takenFrom := none, lowest := t.turned }) ended
  have hfreed : (freed.lines.get n).job = none := by rw [line_modLine]
  rw [resetTaken_drains hstate hjob, hend, startInit_of_no_job hfreed]
  refine ⟨hjobs, ?_, (hcount _ rfl).trans ?_, (hcount _ e.counter_ofChoice).trans ?_⟩
  · dsimp only
    rw [line_modLine, modLine_lines, PerLine.set_set, hlines]
    rfl
  all_goals simp [counted, count_bump]

end

/-! ### SET-LINE (R137) -/

/-- FFh leaves the mode as it is. -/
theorem readMode_unchanged : readMode 0xFF = some none := by decide

theorem readMode_rotating : readMode 2 = some (some true) := by decide

/-- A mode byte that is neither FIXED, ROTATING nor FFh is out of range. -/
theorem readMode_none {m : Byte} (hsame : m ≠ 0xFF) (hfixed : m ≠ 1) (hrotating : m ≠ 2) : readMode m = none := by
  rw [readMode, if_neg hsame, if_neg hfixed, if_neg hrotating]

section
variable {b m : Byte} {n : Line} {e : Option Bool} {x : Option (BitVec 4)} {s : State}

theorem carrySetLine_range (hb : Line.ofCode b = some n) (hm : readMode m = none) :
    carrySetLine b e m x s = .refuse .range s := by
  simp only [carrySetLine, onLine_code hb, hm]

/-- A line with a job in service is not disabled. -/
theorem carrySetLine_busy {r : Option Bool} (hb : Line.ofCode b = some n) (hm : readMode m = some r)
    (hserving : (s.lines.get n).job.isSome = true) :
    carrySetLine b (some false) m x s = .refuse .busy s := by
  simp only [carrySetLine, onLine_code hb, hm, LineState.serving, hserving, and_self, if_true]

theorem carrySetLine_done {r : Option Bool} (hb : Line.ofCode b = some n) (hm : readMode m = some r)
    (he : e ≠ some false) : carrySetLine b e m x s = .done (applySetLine n e r x s) := by
  simp only [carrySetLine, onLine_code hb, hm]
  exact if_neg fun h => he h.1

/-- The mode and the hold mask of a line that is not IDLE: they are set, and nothing is chosen. -/
theorem applySetLine_settings (r : Option Bool) (h : (s.lines.get n).state ≠ .idle) :
    applySetLine n none r x s = modLine n (fun t => { t with
      rotating := r.getD t.rotating, holdMask := x.getD t.holdMask }) s := by
  unfold applySetLine
  dsimp only
  split
  · exact choose_of_not_idle (by rw [line_modLine]; exact h)
  · rfl

/-- A DISABLED line that is enabled, and nothing else set, starts the pulse. -/
theorem applySetLine_enables (hstate : (s.lines.get n).state = .disabled) (hjob : (s.lines.get n).job = none) :
    applySetLine n (some true) none none s = modLine n (fun t => { t.pulsing with enabled := true }) s := by
  have hpulse : enableLine n s = modLine n (fun t => { t.pulsing with enabled := true }) s := by
    rw [enableLine, if_pos hstate, startInit_of_no_job (by rw [line_modLine]; exact hjob), line_modLine, modLine_lines,
      PerLine.set_set]
    rfl
  have hset : applySetLine n (some true) none none s = modLine n (fun t => t) (enableLine n s) := rfl
  rw [hset, modLine_eq_self rfl, hpulse]

end

/-! ### RESUME-LINE (R130) -/

theorem carryResumeLine_code {b : Byte} {n : Line} (hb : Line.ofCode b = some n) (s : State) :
    carryResumeLine b s = ⟨.done, [((resume n s).lines.get n).state.code], resume n s⟩ := onLine_code hb s _

/-! ### A line code of no line (R136, R202) -/

theorem readRequest_resetLine_no_code {p : Port} {k : Key} {m b : Byte} (h : Line.ofCode b = none) :
    readRequest ⟨p, k, [m, 0x31, b]⟩ = .malformed none := by
  have hread : readRequest ⟨p, k, [m, 0x31, b]⟩ = ofOption ((Line.ofCode b).map .resetLine) := rfl
  rw [hread, h]
  rfl

section
variable {s : State} {q : Request} {rest : List Request} {b : Byte} {n : Line}

/-- RESET-LINE at a line that is not DISABLED is answered after the line has taken it (log entry 58). -/
theorem resetLine_done (h : s.headIs q rest (.resetLine n)) (hstate : (s.lines.get n).state ≠ .disabled) :
    exec .resetLine s = .next (answered q .done [] (resetTaken n (becomeCurrent q rest s))) := by
  rw [exec_resetLine h, carryResetLine_taken (s := becomeCurrent q rest s) hstate]
  rfl

/-- A SET-LINE that is not refused is answered after it has been applied. -/
theorem setLine_done {m : Byte} {e r : Option Bool} {x : Option (BitVec 4)} (hb : Line.ofCode b = some n)
    (h : s.headIs q rest (.setLine b e m x)) (hm : readMode m = some r) (he : e ≠ some false) :
    exec .setLine s = .next (answered q .done [] (applySetLine n e r x (becomeCurrent q rest s))) := by
  rw [exec_setLine h, carrySetLine_done hb hm he]
  rfl

/-- RESUME-LINE is answered with the line's state after it. -/
theorem resumeLine_done {v : State} (hb : Line.ofCode b = some n) (h : s.headIs q rest (.resumeLine b))
    (hv : resume n (becomeCurrent q rest s) = v) :
    exec .resumeLine s = .next (answered q .done [(v.lines.get n).state.code] v) := by
  rw [exec_resumeLine h, carryResumeLine_code hb, hv]
  rfl

end

/-- Settles O48, request by request. -/
theorem lineRequestsActOnTheLine : Obligations.LineRequestsActOnTheLine := by
  refine ⟨fun p k m b => readRequest_resetLine_no_code, ?_⟩
  intro s q rest b n hb u t
  refine ⟨fun h => ⟨fun hstate => ?_, fun hstate hjob => ?_, fun slot j hstate hdraining hjob hfind => ?_,
      fun slot j e hstate hjob hfind hasked => ?_⟩,
    fun e m x h => ⟨?_, ?_, ?_, ?_, fun hsame hfixed hrotating => ?_⟩,
    fun h => ⟨fun hstate => ?_, fun slot j hstate hcause hgood hjob hfind => ?_⟩⟩
  · rw [exec_resetLine h, carryResetLine_disabled (s := u) hstate]
    rfl
  · rw [resetLine_done h hstate, resetTaken_pulses (s := u) (.inr hjob),
      startInit_of_no_job (by rw [bump_lines]; exact hjob)]
    rfl
  · rw [resetLine_done h hstate, resetTaken_pulses (s := u) (.inl hdraining),
      startInit_of_job (by rw [bump_lines]; exact hjob) (by rw [bump_jobs]; exact hfind), bump_jobs]
    rfl
  · exact ⟨_, resetLine_done h (ne_of_eq_of_ne hstate (by decide)),
      resetTaken_ends (s := u) hstate hjob hfind hasked⟩
  · rintro rfl hserving rfl
    rw [exec_setLine h, carrySetLine_busy (s := u) hb readMode_unchanged hserving]
    rfl
  · rintro rfl rfl rfl hidle
    rw [setLine_done hb h readMode_rotating (by decide), applySetLine_settings (s := u) _ hidle]
    rfl
  · rintro k rfl rfl rfl hidle
    rw [setLine_done hb h readMode_unchanged (by decide), applySetLine_settings (s := u) _ hidle]
    rfl
  · rintro rfl rfl rfl hstate hjob
    rw [setLine_done hb h readMode_unchanged (by decide), applySetLine_enables (s := u) hstate hjob]
    rfl
  · rw [exec_setLine h, carrySetLine_range hb (readMode_none hsame hfixed hrotating)]
    rfl
  · exact resumeLine_done hb h (resume_of_not_stalled (s := u) hstate)
  · obtain ⟨c, hc, htimed⟩ := timed_of_stallCause hcause
    obtain ⟨hfeeding, hcleared, hlive, -⟩ := feed_feeds (s := u) hjob hfind hgood
    have hanswer := resumeLine_done hb h (resume_feeds (s := u) hstate hc htimed)
    rw [hfeeding] at hanswer
    exact ⟨_, hanswer, hfeeding, hcleared, hlive⟩

end Sys2Proof.Machine

/-! Reports laid to stations, counted in the window and judged. -/

namespace Sys2Proof.Machine

/-! ### An error is laid to its source key (R150) -/

/-- A station with one more error in its tally (R150). -/
def Station.errored (w : Station) : Station := { w with tally := min 255 (w.tally + 1) }

/-- The state in which a station's standing is judged: the error is in its tally, and counted. -/
def errorLaid (i : Nat) (s : State) : State :=
  bump (.fault .attributedErrors) (modStation i Station.errored s)

section
variable {k : Key} {s : State} {i : Nat} {e : Entry}

theorem laidTo_unattributable (hk : k.isStation = false) :
    laidTo k s = bump (.fault .unattributable) s :=
  if_pos hk

variable (hk : k.isStation = true)
include hk

theorem laidTo_noEntry (hl : s.lookup k = none) : laidTo k s = bump (.fault .attributedNoEntry) s := by
  rw [laidTo, if_neg (by simp [hk]), hl]

theorem laidTo_alias {x : Target} {y : Fin 4} (hl : s.lookup k = some (i, e)) (he : e.kind = .printer x y) :
    laidTo k s = bump (.fault .attributedToAlias) s := by
  simp only [laidTo, if_neg (show ¬ k.isStation = false by simp [hk]), hl, he]

theorem laidTo_station {w : Station} (hl : s.lookup k = some (i, e)) (he : e.kind = .station w) :
    laidTo k s = judgeStanding i (errorLaid i s) := by
  simp only [laidTo, if_neg (show ¬ k.isStation = false by simp [hk]), hl, he]
  rfl

end

section
variable {s : State} {i : Nat} {w : Station}

theorem station_errorLaid (hi : i ≠ 0) (hw : s.station i = some w) :
    (errorLaid i s).station i = some w.errored := by
  rw [errorLaid, station_of_dir (bump_dir ..)]
  exact station_modStation hi hw _

theorem config_errorLaid (i : Nat) (s : State) : (errorLaid i s).config = s.config := by
  rw [errorLaid, bump_config, modStation_config]

theorem count_errorLaid (i : Nat) (s : State) : (errorLaid i s).count (.fault .attributedErrors) =
    min Config.counterMax (s.count (.fault .attributedErrors) + 1) := by
  rw [errorLaid, count_bump, if_pos rfl, count_modStation]

/-! ### A station enters QUARANTINED (R153) -/

/-- A station that enters QUARANTINED by a judgement has its minutes, and the flag is raised (R153). -/
theorem enterQuarantine_leaves (hi : i ≠ 0) (hw : s.station i = some w) (cause : FaultCount) (minutes : Nat) :
    (enterQuarantine i cause minutes s).station i =
        some { w with standing := .quarantined, minutes := minutes } ∧
      (enterQuarantine i cause minutes s).raised .stationQuarantined = true := by
  let v := bump (.fault cause) (raise .stationQuarantined (setQuarantined i minutes s))
  have hends : Ends v (enterQuarantine i cause minutes s) := ends_abortArriving _ v
  have hsame : sameButFrames (setQuarantined i minutes s) v :=
    sameButFrames_trans (raise_same ..) (bump_same ..)
  obtain ⟨-, -, -, -, -, -, -, -, -, -, -, hdir, -⟩ := sameButFrames_fields hsame
  have hown : gainsOwn (setQuarantined i minutes s) v :=
    gainsOwn_trans (gainsOwn_raise _ _) (gainsOwn_of_eq (bump_queues ..))
  have hraised : v.raised .stationQuarantined = true := raised_raise _ _
  exact ⟨(quarantined_then_ends hi hw (hends.dir.trans hdir) (gainsOwn_trans hown hends.queues)).1,
    (hends.flags _).1 hraised⟩

/-- A quarantine counts under its cause, and in no other count of the fault monitor's for the part. -/
theorem count_enterQuarantine {c cause : FaultCount} (hc : cause ≠ c) (i minutes : Nat) (s : State) :
    (enterQuarantine i cause minutes s).count (.fault c) = s.count (.fault c) := by
  refine ((ends_abortArriving _ _).count c).trans ?_
  rw [count_bump_other (by simpa using hc), count_raise rfl, setQuarantined_count]

/-! ### The judgement of a standing (R151) -/

theorem station_suspect (hi : i ≠ 0) (hw : s.station i = some w) :
    (suspect i s).station i = some { w with standing := .suspect } := by
  rw [suspect, station_of_dir (bump_dir ..)]
  exact station_modStation hi hw _

theorem config_suspect (i : Nat) (s : State) : (suspect i s).config = s.config := by
  rw [suspect, bump_config, modStation_config]

theorem judgeSuspect_below {tally : Nat} (h : tally < s.config.quarantineThreshold) :
    judgeSuspect i tally s = s :=
  if_neg (Nat.not_le.2 h)

theorem judgeSuspect_reached {tally : Nat} (h : s.config.quarantineThreshold ≤ tally) :
    judgeSuspect i tally s = enterQuarantine i .quarantineThreshold s.config.quarantineTime s :=
  if_pos h

/-- A judgement is no attributed error of its own. -/
theorem count_judgeStanding (i : Nat) (s : State) :
    (judgeStanding i s).count (.fault .attributedErrors) = s.count (.fault .attributedErrors) := by
  have judged : ∀ tally t, (judgeSuspect i tally t).count (.fault .attributedErrors) =
      t.count (.fault .attributedErrors) := fun tally t => by
    unfold judgeSuspect
    split
    · exact count_enterQuarantine (by decide) ..
    · rfl
  have suspected : (suspect i s).count (.fault .attributedErrors) = s.count (.fault .attributedErrors) := by
    rw [suspect, count_bump_other (by decide), count_modStation]
  unfold judgeStanding
  split
  · rfl
  · split
    · split
      · exact (judged _ _).trans suspected
      · rfl
    · exact judged _ _
    · exact count_enterQuarantine (by decide) ..
    · rfl

section
variable (hw : s.station i = some w)
include hw

/-- A tally below the threshold of its standing, and a QUARANTINED station, are left alone. -/
theorem judgeStanding_stays (h : w.standing = .quarantined ∨
    w.standing = .good ∧ w.tally < s.config.suspectThreshold ∨
    w.standing = .suspect ∧ w.tally < s.config.quarantineThreshold) : judgeStanding i s = s := by
  rcases h with h | ⟨h, htally⟩ | ⟨h, htally⟩
  · simp only [judgeStanding, hw, h]
  · simp only [judgeStanding, hw, h]
    exact if_neg (Nat.not_le.2 htally)
  · simp only [judgeStanding, hw, h]
    exact judgeSuspect_below htally

/-- A GOOD station at the suspect threshold becomes SUSPECT, and is judged as one at once. -/
theorem judgeStanding_good (h : w.standing = .good) (htally : s.config.suspectThreshold ≤ w.tally) :
    judgeStanding i s = judgeSuspect i w.tally (suspect i s) := by
  simp only [judgeStanding, hw, h]
  exact if_pos htally

theorem judgeStanding_suspect (h : w.standing = .suspect) : judgeStanding i s = judgeSuspect i w.tally s := by
  simp only [judgeStanding, hw, h]

theorem judgeStanding_probation (h : w.standing = .probation) :
    judgeStanding i s = enterQuarantine i .quarantineProbation s.config.quarantineTime s := by
  simp only [judgeStanding, hw, h]

/-- A SUSPECT or newly suspected station at the quarantine threshold, and one on PROBATION, are QUARANTINED. -/
theorem judgeStanding_quarantines (hi : i ≠ 0) (h : w.standing = .probation ∨
    (w.standing = .suspect ∨ w.standing = .good ∧ s.config.suspectThreshold ≤ w.tally) ∧
      s.config.quarantineThreshold ≤ w.tally) :
    (judgeStanding i s).station i =
        some { w with standing := .quarantined, minutes := s.config.quarantineTime } ∧
      (judgeStanding i s).raised .stationQuarantined = true := by
  rcases h with h | ⟨h | ⟨h, hsuspect⟩, htally⟩
  · rw [judgeStanding_probation hw h]
    exact enterQuarantine_leaves hi hw ..
  · rw [judgeStanding_suspect hw h, judgeSuspect_reached htally]
    exact enterQuarantine_leaves hi hw ..
  · rw [judgeStanding_good hw h hsuspect, judgeSuspect_reached (by rwa [config_suspect]), config_suspect]
    exact enterQuarantine_leaves hi (station_suspect hi hw) ..

end

end

/-! ### The causes and the marks of a judging (R148) -/

section
variable {p : Port} {s : State}

/-- A judging counts its two warnings and nothing else. -/
theorem count_judgePort {c : Counter} (he : c ≠ .faultPort p .errorsWarning)
    (hf : c ≠ .faultPort p .flapsWarning) (flap : Bool) (s : State) :
    (judgePort p flap s).2.count c = s.count c := by
  unfold judgePort
  dsimp only
  split
  · split
    · exact (count_bump_other hf.symm _).trans (count_bump_other he.symm _)
    · exact count_bump_other hf.symm _
  · split
    · exact count_bump_other he.symm _
    · rfl

theorem service_judgePort (p : Port) (flap : Bool) (s : State) :
    (judgePort p flap s).2.service = s.service := by
  obtain ⟨_, _, e, -⟩ := judgePort_eq p flap s
  rw [e]

/-- At the threshold, with no request made in the window, ERRORS is asked for. -/
theorem judgePort_asks_errors (hsum : s.errorThreshold p ≤ s.errorSum p)
    (hm : (s.marks.get p).errorsMade = false) : (judgePort p false s).1 = [.errors] := by
  simp [judgePort, hsum, hm]

/-- The request of ERRORS is marked as made. -/
theorem judgePort_marks_errors (flap : Bool) (hsum : s.errorThreshold p ≤ s.errorSum p) :
    ((judgePort p flap s).2.marks.get p).errorsMade = true := by
  have marked : ((judgePort p flap s).2.marks.get p).errorsMade =
      ((s.marks.get p).errorsMade ||
        (decide (s.errorThreshold p ≤ s.errorSum p) && !(s.marks.get p).errorsMade)) := by
    unfold judgePort
    dsimp only
    split <;> split <;> simp
  rw [marked, decide_eq_true hsum]
  cases (s.marks.get p).errorsMade <;> rfl

/-- At the flap limit, and below the error threshold, a flap report has FLAPPING asked for. -/
theorem judgePort_asks_flapping (hsum : s.errorSum p < s.errorThreshold p)
    (hflaps : s.config.flapLimit ≤ s.flapCount p) (hm : (s.marks.get p).flappingMade = false) :
    (judgePort p true s).1 = [.flapping] := by
  simp [judgePort, Nat.not_le.2 hsum, hflaps, hm]

/-- At half the threshold the warning is marked and counted, and nothing asked for. -/
theorem judgePort_warns_errors (hhalf : halfUp (s.errorThreshold p) ≤ s.errorSum p)
    (hsum : s.errorSum p < s.errorThreshold p) (hm : (s.marks.get p).errorsWarned = false) :
    judgePort p false s = ([], bump (.faultPort p .errorsWarning)
      { s with marks := s.marks.set p { s.marks.get p with errorsWarned := true } }) := by
  simp [judgePort, Nat.not_le.2 hsum, hhalf, hm]

theorem lt_of_lt_halfUp {n m : Nat} (h : n < halfUp m) : n < m := by
  unfold halfUp at h
  omega

section
variable (hsum : s.errorSum p < halfUp (s.errorThreshold p))
include hsum

/-- Below half of either limit a flap marks nothing. -/
theorem judgePort_flap_quiet (hflaps : s.flapCount p < halfUp s.config.flapLimit) :
    judgePort p true s = ([], s) := by
  have hlimit := lt_of_lt_halfUp hsum
  have hflap := lt_of_lt_halfUp hflaps
  simp [judgePort, Nat.not_le.2 hsum, Nat.not_le.2 hlimit, Nat.not_le.2 hflaps, Nat.not_le.2 hflap]
  exact congrArg (fun m => { s with marks := m }) (s.marks.set_get p)

/-- At half the flap limit the warning is marked and counted, and nothing asked for. -/
theorem judgePort_warns_flaps (hhalf : halfUp s.config.flapLimit ≤ s.flapCount p)
    (hflaps : s.flapCount p < s.config.flapLimit) (hm : (s.marks.get p).flapsWarned = false) :
    judgePort p true s = ([], bump (.faultPort p .flapsWarning)
      { s with marks := s.marks.set p { s.marks.get p with flapsWarned := true } }) := by
  have hlimit := lt_of_lt_halfUp hsum
  simp [judgePort, Nat.not_le.2 hsum, Nat.not_le.2 hlimit, Nat.not_le.2 hflaps, hhalf, hm]

end

end

/-! ### Isolation requests (R149, R167) -/

theorem AtPort.marks {p : Port} {s t : State} (h : AtPort p s t) : t.marks = s.marks :=
  (congrArg State.marks h.rest : t.bare.marks = s.bare.marks)

section
variable (p : Port) (c : IsolationCause) (s : State)

theorem atPort_enterIsolated_after : AtPort p (setService p .isolated s) (enterIsolated p c s) := by
  obtain ⟨k, -, e⟩ := enterIsolated_raises p c s
  rw [e]
  exact (atPort_purgePort p _ _).trans ((atPort_modService p _ _).trans
    ((atPort_bump_service p k _).trans (atPort_raise p _ _)))

/-- Every isolation raises its flag, whatever reply is held. -/
theorem portIsolated_enterIsolated : (enterIsolated p c s).raised .portIsolated = true := by
  obtain ⟨k, -, e⟩ := enterIsolated_raises p c s
  rw [e]
  exact raised_raise _ _

/-- From `s` to `t` the marks and the fault monitor's counts of a port stand. -/
def MarksKept (p : Port) (s t : State) : Prop :=
  t.marks = s.marks ∧ ∀ k, t.count (.faultPort p k) = s.count (.faultPort p k)

theorem marksKept_enterIsolated : MarksKept p s (enterIsolated p c s) := by
  have work := atPort_enterIsolated_after p c s
  obtain ⟨_, _, hset, hcount⟩ := setService_eq (p := p) (st := .isolated) (s := s) (by simp)
  refine ⟨?_, fun k => (work.count _ rfl (by simp)).trans (hcount _ (by simp))⟩
  rw [work.marks, hset]
  rfl

theorem marksKept_cutTest : MarksKept p s (cutTest p s) := by
  have ended := atPort_endTest p s
  have kept : MarksKept p s (endTest p s) := ⟨ended.marks, fun k => count_endTest _ p s⟩
  unfold cutTest
  split
  · exact ⟨rfl, fun _ => rfl⟩
  · split
    · refine ⟨?_, fun k => ?_⟩
      · rw [← kept.1]
        unfold handResult
        dsimp only
        split <;> simp [modSweep]
      · rw [count_handResult, count_bump_other (by simp), kept.2]
    · exact kept

/-- A request, whatever it comes to, leaves the marks and the fault monitor's counts. -/
theorem marksKept_isolate : MarksKept p s (isolate p c s) := by
  unfold isolate
  split
  · exact marksKept_enterIsolated p c s
  · have cut := marksKept_cutTest p s
    have isolated := marksKept_enterIsolated p c (cutTest p s)
    exact ⟨isolated.1.trans cut.1, fun k => (isolated.2 k).trans (cut.2 k)⟩
  · exact ⟨bump_marks .., fun k => count_bump_other (by simp) s⟩

end

section
variable {p : Port} {c : IsolationCause} {s : State}

/-- A port that is asked for is ISOLATED with the cause: its record, its queue and the flag (R167). -/
theorem requestIsolation_isolates (h : s.serviceOf p = .inService) :
    let t := requestIsolation p c s
    t.service.get p = (s.service.get p).isolatedFor c ∧ t.queues.get p = [] ∧
      t.raised .portIsolated = true := by
  let u := bump (.faultPort p (requestCounter c)) s
  have hu : u.service = s.service := bump_service ..
  have request : requestIsolation p c s = enterIsolated p c u := by
    have hs : u.serviceOf p = .inService := by rwa [State.serviceOf, hu]
    rw [requestIsolation, isolate, hs]
  intro t
  rw [show t = enterIsolated p c u from request]
  exact ⟨by rw [record_enterIsolated, hu], purged_enterIsolated p c u, portIsolated_enterIsolated p c u⟩

theorem requestIsolation_ignored (h : s.unreachable p) : requestIsolation p c s =
    bump (.service p .requestsIgnored) (bump (.faultPort p (requestCounter c)) s) :=
  isolate_unreachable c ((ignored_bump_faultPort p _ s).unreachable h)

end

/-! ### A segment's report at the threshold (R146, R148) -/

theorem windowUp_of_lt {n : Nat} (h : n < 65535) : windowUp n = n + 1 := Nat.min_eq_right h

/-- The state in which a segment is judged after a runt: the runt is in its window's counts. -/
def runtCounted (x : Seg) (s : State) : State :=
  { s with segWin := s.segWin.set x ((s.segWin.get x).take .runt) }

theorem errorSum_runtCounted {x : Seg} {s : State} (h : (s.segWin.get x).runts < 65535) :
    (runtCounted x s).errorSum (.seg x) = s.errorSum (.seg x) + 1 := by
  simp only [State.errorSum, runtCounted, PerSeg.get_set, if_true, SegWindow.take, windowUp_of_lt h]
  omega

/-- The report that brings a segment's error sum to its threshold makes one request, on the state that a judging
has marked. -/
theorem segReport_asks {x : Seg} {s : State} (hw : s.window.running = true)
    (hm : (s.marks.get (.seg x)).errorsMade = false) (hruns : (s.segWin.get x).runts < 65535)
    (hsum : s.errorSum (.seg x) + 1 = s.config.segThreshold) : ∃ j,
    segReport x .runt s = requestIsolation (.seg x) .errors j ∧ j.service = s.service ∧
      (j.marks.get (.seg x)).errorsMade = true ∧
      j.count (.faultPort (.seg x) .requestsErrors) = s.count (.faultPort (.seg x) .requestsErrors) ∧
      j.count (.service (.seg x) .requestsIgnored) = s.count (.service (.seg x) .requestsIgnored) := by
  let judged := judgePort (.seg x) false (runtCounted x s)
  have reached : (runtCounted x s).errorThreshold (.seg x) ≤ (runtCounted x s).errorSum (.seg x) := by
    rw [errorSum_runtCounted hruns, hsum]
    exact Nat.le_refl _
  have report : segReport x .runt s = makeRequests (.seg x) judged.1 judged.2 := segReport_running hw (by simp)
  have asked : judged.1 = [.errors] := judgePort_asks_errors reached hm
  refine ⟨judged.2, ?_, service_judgePort .., judgePort_marks_errors false reached,
    count_judgePort (by simp) (by simp) .., count_judgePort (by simp) (by simp) ..⟩
  rw [report, asked]
  rfl

/-- What that request comes to, by the service state of the segment (R149, R167). -/
theorem segReport_atThreshold {x : Seg} {s : State} (hw : s.window.running = true)
    (hm : (s.marks.get (.seg x)).errorsMade = false) (hruns : (s.segWin.get x).runts < 65535)
    (hsum : s.errorSum (.seg x) + 1 = s.config.segThreshold) :
    let t := segReport x .runt s
    (t.marks.get (.seg x)).errorsMade = true ∧
      t.count (.faultPort (.seg x) .requestsErrors) =
        min Config.counterMax (s.count (.faultPort (.seg x) .requestsErrors) + 1) ∧
      (s.serviceOf (.seg x) = .inService → t.serviceOf (.seg x) = .isolated ∧
        (t.service.get (.seg x)).cause = some .errors ∧
        (t.service.get (.seg x)).holdTimer = some (s.service.get (.seg x)).holdTime ∧
        (t.service.get (.seg x)).restoreDue = true ∧ t.queues.get (.seg x) = [] ∧
        t.raised .portIsolated = true) ∧
      (s.serviceOf (.seg x) ≠ .inService → s.serviceOf (.seg x) ≠ .probing →
        t.serviceOf (.seg x) = s.serviceOf (.seg x) ∧
        t.count (.service (.seg x) .requestsIgnored) =
          min Config.counterMax (s.count (.service (.seg x) .requestsIgnored) + 1)) := by
  obtain ⟨j, report, hservice, hmade, herrors, hignored⟩ := segReport_asks hw hm hruns hsum
  have hstate : j.serviceOf (.seg x) = s.serviceOf (.seg x) := by rw [State.serviceOf, hservice]; rfl
  obtain ⟨hmarks, hcounts⟩ :=
    marksKept_isolate (.seg x) .errors (bump (.faultPort (.seg x) .requestsErrors) j)
  intro t
  rw [show t = requestIsolation (.seg x) .errors j from report]
  refine ⟨?_, ?_, fun hs => ?_, fun hin hprobing => ?_⟩
  · rwa [requestIsolation, requestCounter, hmarks, bump_marks]
  · rw [requestIsolation, requestCounter, hcounts, count_bump, if_pos rfl, herrors]
  · obtain ⟨hrecord, hqueue, hraised⟩ := requestIsolation_isolates (c := .errors) (hstate.trans hs)
    rw [State.serviceOf, hrecord, hservice]
    exact ⟨rfl, rfl, rfl, rfl, hqueue, hraised⟩
  · have hun : j.unreachable (.seg x) := by
      rw [State.unreachable, hstate]
      exact ⟨hin, hprobing⟩
    rw [requestIsolation_ignored hun]
    refine ⟨?_, ?_⟩
    · rw [← hstate, State.serviceOf, bump_service, bump_service]
      rfl
    · rw [count_bump, if_pos rfl, count_bump_other (by simp), hignored]

/-! ### A link's reports (R147, R148) -/

/-- The state in which a link is judged after a report: the report is in its window's counts. -/
def linkCounted (l : Link) (r : LinkReport) (s : State) : State :=
  { s with linkWin := s.linkWin.set l ((s.linkWin.get l).take r) }

section
variable {l : Link} {s : State} {r : LinkReport}

/-- A flap enters the flap count alone (R147). -/
theorem errorSum_flapCounted (l : Link) (s : State) :
    (linkCounted l .flap s).errorSum (.link l) = s.errorSum (.link l) := by
  simp [State.errorSum, linkCounted, LinkWindow.take]

theorem flapCount_flapCounted (l : Link) (s : State) :
    (linkCounted l .flap s).flapCount (.link l) = windowUp (s.linkWin.get l).flaps := by
  simp [State.flapCount, linkCounted, LinkWindow.take]

theorem errorSum_checkBadCounted (h : (s.linkWin.get l).checkBad < 65535) :
    (linkCounted l .checkBad s).errorSum (.link l) = s.errorSum (.link l) + 1 := by
  simp only [State.errorSum, linkCounted, PerLink.get_set, if_true, LinkWindow.take, windowUp_of_lt h]
  omega

/-- A report that enters the window's counts comes to what its judging asks for. -/
theorem linkReport_judged (hr : ∀ k, r ≠ .lengthBad k) (hw : s.window.running = true) :
    let judged := judgePort (.link l) (decide (r = .flap)) (linkCounted l r s)
    linkReport l r s = makeRequests (.link l) judged.1 judged.2 := by
  rw [linkReport, linkReportCauses_counted hr hw]
  rfl

/-- A report for which nothing is asked. -/
theorem linkReport_unasked {t : State} (hr : ∀ k, r ≠ .lengthBad k) (hw : s.window.running = true)
    (hj : judgePort (.link l) (decide (r = .flap)) (linkCounted l r s) = ([], t)) : linkReport l r s = t := by
  rw [linkReport_judged hr hw, hj]
  rfl

section
variable (hw : s.window.running = true)
include hw

/-- Below half of either limit a flap enters its count, and nothing more. -/
theorem linkReport_flap_quiet (hsum : s.errorSum (.link l) < halfUp s.config.linkThreshold)
    (hflaps : (s.linkWin.get l).flaps + 1 < halfUp s.config.flapLimit) :
    linkReport l .flap s = linkCounted l .flap s := by
  refine linkReport_unasked (by simp) hw (judgePort_flap_quiet ?_ ?_)
  · rwa [errorSum_flapCounted]
  · rw [flapCount_flapCounted]
    exact lt_of_le_of_lt (Nat.min_le_right _ _) hflaps

/-- At half the flap limit a flap is warned of once (R148). -/
theorem linkReport_flap_warns (hsum : s.errorSum (.link l) < halfUp s.config.linkThreshold)
    (hlt : (s.linkWin.get l).flaps < 65535)
    (hhalf : halfUp s.config.flapLimit ≤ (s.linkWin.get l).flaps + 1)
    (hflaps : (s.linkWin.get l).flaps + 1 < s.config.flapLimit)
    (hm : (s.marks.get (.link l)).flapsWarned = false) :
    linkReport l .flap s = bump (.faultPort (.link l) .flapsWarning) { linkCounted l .flap s with
      marks := s.marks.set (.link l) { s.marks.get (.link l) with flapsWarned := true } } := by
  refine linkReport_unasked (by simp) hw (judgePort_warns_flaps (s := linkCounted l .flap s) ?_ ?_ ?_ hm)
  · rwa [errorSum_flapCounted]
  · rwa [flapCount_flapCounted, windowUp_of_lt hlt]
  · rwa [flapCount_flapCounted, windowUp_of_lt hlt]

/-- At half the error threshold an error is warned of once (R148). -/
theorem linkReport_checkBad_warns (hlt : (s.linkWin.get l).checkBad < 65535)
    (hhalf : halfUp s.config.linkThreshold ≤ s.errorSum (.link l) + 1)
    (hsum : s.errorSum (.link l) + 1 < s.config.linkThreshold)
    (hm : (s.marks.get (.link l)).errorsWarned = false) :
    linkReport l .checkBad s = bump (.faultPort (.link l) .errorsWarning) { linkCounted l .checkBad s with
      marks := s.marks.set (.link l) { s.marks.get (.link l) with errorsWarned := true } } := by
  refine linkReport_unasked (by simp) hw (judgePort_warns_errors (s := linkCounted l .checkBad s) ?_ ?_ hm)
  · rwa [errorSum_checkBadCounted hlt]
  · rwa [errorSum_checkBadCounted hlt]

end

/-- A report for which one request is made at an IN-SERVICE link isolates it (R149, R167). -/
theorem linkReport_isolates {c : IsolationCause} (hr : ∀ k, r ≠ .lengthBad k) (hw : s.window.running = true)
    (hs : s.serviceOf (.link l) = .inService)
    (hc : (judgePort (.link l) (decide (r = .flap)) (linkCounted l r s)).1 = [c]) :
    let t := linkReport l r s
    t.serviceOf (.link l) = .isolated ∧ (t.service.get (.link l)).cause = some c ∧
      t.queues.get (.link l) = [] ∧ t.raised .portIsolated = true := by
  let judged := judgePort (.link l) (decide (r = .flap)) (linkCounted l r s)
  have hservice : judged.2.service = s.service := service_judgePort ..
  have report : linkReport l r s = requestIsolation (.link l) c judged.2 := by
    rw [linkReport_judged hr hw, hc]
    rfl
  obtain ⟨hrecord, hqueue, hraised⟩ := requestIsolation_isolates (p := .link l) (c := c) (s := judged.2)
    (by rwa [State.serviceOf, hservice])
  rw [report]
  refine ⟨?_, ?_, hqueue, hraised⟩
  · rw [State.serviceOf, hrecord]
    rfl
  · rw [hrecord]
    rfl

end

/-! ### The statement -/

/-- What an error laid to a station comes to, by its standing and its new tally (R150, R151, R153). -/
theorem laidTo_judges {k : Key} {s : State} {i : Nat} {e : Entry} {w : Station} (hk : k.isStation = true)
    (hl : s.lookup k = some (i, e)) (he : e.kind = .station w) (hi : i ≠ 0) (hw : s.station i = some w) :
    let t := laidTo k s
    t.count (.fault .attributedErrors) = min Config.counterMax (s.count (.fault .attributedErrors) + 1) ∧
      (w.standing = .quarantined ∨ w.standing = .good ∧ w.errored.tally < s.config.suspectThreshold ∨
        w.standing = .suspect ∧ w.errored.tally < s.config.quarantineThreshold →
          t.station i = some w.errored) ∧
      (w.standing = .good → s.config.suspectThreshold ≤ w.errored.tally →
        w.errored.tally < s.config.quarantineThreshold →
          t.station i = some { w.errored with standing := .suspect }) ∧
      (w.standing = .probation ∨
          (w.standing = .suspect ∨ w.standing = .good ∧ s.config.suspectThreshold ≤ w.errored.tally) ∧
            s.config.quarantineThreshold ≤ w.errored.tally →
        t.station i =
            some { w.errored with standing := .quarantined, minutes := s.config.quarantineTime } ∧
          t.raised .stationQuarantined = true) := by
  let u := errorLaid i s
  have hu : u.station i = some w.errored := station_errorLaid hi hw
  have hconfig : u.config = s.config := config_errorLaid i s
  intro t
  rw [show t = judgeStanding i u from laidTo_station hk hl he, ← hconfig]
  refine ⟨(count_judgeStanding i u).trans (count_errorLaid i s), fun h => ?_, fun hgood hsuspect hbelow => ?_,
    judgeStanding_quarantines hu hi⟩
  · rw [judgeStanding_stays hu h, hu]
  · rw [judgeStanding_good hu hgood hsuspect, judgeSuspect_below (by rwa [config_suspect])]
    exact station_suspect hi hu

/-- Settles O52: attribution by what holds the key, then the report that brings a segment to its threshold, then
the reports of a link from below half a threshold up to it. -/
theorem reportsAreLaidAndJudged : Obligations.ReportsAreLaidAndJudged := by
  refine ⟨fun k s => ⟨laidTo_unattributable, laidTo_noEntry, fun i e x y hk => laidTo_alias hk,
    fun i e w hk hl he hi hw => ?_⟩, fun x s hw hm hruns hsum => ?_, fun l s hw => ?_⟩
  · obtain ⟨hcount, hstays, hsuspect, hquarantined⟩ := laidTo_judges hk hl he hi hw
    exact ⟨hcount, hstays, hsuspect, fun h htally => hquarantined (.inr ⟨h, htally⟩),
      fun h => hquarantined (.inl h)⟩
  · exact segReport_atThreshold hw hm hruns hsum
  · intro w m counted sum limit isolated
    refine ⟨fun k => linkReport_lengthBad k hw, fun hsum => ⟨?_, ?_, ?_, fun hflaps => ?_,
      fun hhalf hflaps hlt hwarned => ?_⟩, fun hlt hhalf hsum hwarned => ?_, fun hs _ =>
        ⟨fun hlt hsum hmade => ?_, fun hlt hsum hflaps hmade => ?_⟩⟩
    · exact linkReport_quiet (by simp) (by simp) hw hsum
    · exact linkReport_quiet (by simp) (by simp) hw hsum
    · exact linkReport_quiet (by simp) (by simp) hw hsum
    · exact linkReport_flap_quiet hw (Nat.lt_of_succ_lt hsum) hflaps
    · rw [linkReport_flap_warns hw (Nat.lt_of_succ_lt hsum) hlt hhalf hflaps hwarned, ← windowUp_of_lt hlt]
      rfl
    · rw [linkReport_checkBad_warns hw hlt hhalf hsum hwarned, ← windowUp_of_lt hlt]
      rfl
    · refine linkReport_isolates (by simp) hw hs (judgePort_asks_errors ?_ hmade)
      rw [errorSum_checkBadCounted hlt]
      exact hsum.ge
    · refine linkReport_isolates (by simp) hw hs (judgePort_asks_flapping ?_ ?_ hmade)
      · rw [errorSum_flapCounted]
        exact hsum
      · rw [flapCount_flapCounted, windowUp_of_lt hlt]
        exact hflaps.ge

end Sys2Proof.Machine

/-! Port tests: a frame's timer, its retry, the end of the hold time, and the last frame's return. -/

namespace Sys2Proof.Machine

/-! ### A frame's time ends (R162, R165) -/

section
variable {p : Port} {s : State} {t : PortTest}

/-- The timer's end at a port whose test has a frame out fails the phase. -/
theorem exec_testFrameTimer (ha : s.active = true) (ht : s.testOf p = some t) (htimer : t.timer.isSome = true) :
    exec (.testFrameTimer p) s = .next (settleSweep (phaseFailed p s)) := by
  have expires : frameTimerExpiry p s = phaseFailed p s := by
    simp only [frameTimerExpiry, ht]
    exact if_pos htimer
  refine congrArg Host.Outcome.next ?_
  rw [whenActive_of_active _ ha, expires]

variable (ht : s.testOf p = some t) (hentry : t.purpose = .entry)
include ht hentry

theorem phaseFailed_internal (hph : t.phase ≠ .external) : phaseFailed p s = entryFailedInternal p s := by
  simp [phaseFailed, ht, PortTest.isLoop, hentry, hph]

theorem phaseFailed_external (hph : t.phase = .external) : phaseFailed p s = entryFailedExternal p s := by
  simp [phaseFailed, ht, PortTest.isLoop, hentry, hph]

theorem phasePassed_external (hph : t.phase = .external) : phasePassed p s = entryPassed p s := by
  simp [phasePassed, ht, PortTest.isLoop, hentry, hph]

end

/-- A port whose INTERNAL phase has failed, in FAILED with its test over and the failure counted, before the
purge (R165). -/
def internalFailed (p : Port) (s : State) : State :=
  modService p (fun v => { v with state := .failed })
    (bump (.service p .testsFailedInternal) (modService p (fun v => { v with
      failedTests := min 255 (v.failedTests + 1), restoreDue := true }) (endTest p s)))

section
variable {p : Port} {s : State}

theorem atPort_internalFailed (p : Port) (s : State) : AtPort p s (internalFailed p s) :=
  ((atPort_endTest p s).trans ((atPort_modService p _ _).trans (atPort_bump_service p _ _))).trans
    (atPort_modService p _ _)

theorem service_internalFailed (p : Port) (s : State) : (internalFailed p s).service.get p =
    { s.service.get p with
      state := .failed, test := none, failedTests := min 255 ((s.service.get p).failedTests + 1)
      restoreDue := true } := by
  simp [internalFailed, service_endTest]

theorem loopMode_internalFailed (p : Port) (s : State) : (internalFailed p s).loopMode p = .normal := by
  rw [internalFailed, loopMode_modService, bump, loopMode_bumpBy, loopMode_modService, loopMode_endTest]

section
variable (h : s.heldReply = none)
include h

theorem entryFailedInternal_eq :
    entryFailedInternal p s = raise .portFailed (purgePort p .failed (internalFailed p s)) := by
  have hheld : (bump (.service p .testsFailedInternal) (modService p (fun v => { v with
      failedTests := min 255 (v.failedTests + 1), restoreDue := true }) (endTest p s))).heldReply = none := by
    rw [bump_heldReply]
    exact (atPort_endTest p s).heldReply.trans h
  unfold entryFailedInternal
  dsimp only
  rw [setService_of_none hheld]
  rfl

theorem atPort_entryFailedInternal : AtPort p s (entryFailedInternal p s) := by
  rw [entryFailedInternal_eq h]
  exact (atPort_internalFailed p s).trans ((atPort_purgePort p _ _).trans (atPort_raise p _ _))

theorem service_entryFailedInternal :
    (entryFailedInternal p s).service.get p = (internalFailed p s).service.get p := by
  rw [entryFailedInternal_eq h, service_raise, service_purgePort]

/-- A port that is FAILED has nothing left of its test, its queue or its slot, and the flag is raised (R165). -/
theorem entryFailedInternal_leaves :
    let u := entryFailedInternal p s
    u.queues.get p = [] ∧ u.slots.get p = none ∧ u.loopMode p = .normal ∧ u.raised .portFailed = true := by
  obtain ⟨hqueues, hslots⟩ := purgePort_leaves p .failed (internalFailed p s)
  have hun : (purgePort p .failed (internalFailed p s)).unreachable p := by
    simp [State.unreachable, State.serviceOf, service_purgePort, service_internalFailed]
  intro u
  rw [show u = _ from entryFailedInternal_eq h]
  refine ⟨?_, ?_, ?_, raised_raise _ _⟩
  · rw [(keepsQueues_raise _ _).2 p hun, hqueues, PerPort.get_set, if_pos rfl]
  · rw [(raise_lines _ _).2, hslots, PerPort.get_set, if_pos rfl]
  · rw [loopMode_raise, loopMode_purgePort, loopMode_internalFailed]

end

/-- The record of a port whose EXTERNAL phase has failed: ISOLATED for twice its hold time (R165). -/
theorem record_entryFailedExternal (p : Port) (s : State) : (entryFailedExternal p s).service.get p =
    PortService.isolatedFor { s.service.get p with
      test := none, failedTests := min 255 ((s.service.get p).failedTests + 1)
      holdTime := min 320 (2 * (s.service.get p).holdTime) } .test := by
  unfold entryFailedExternal
  dsimp only
  rw [record_enterIsolated]
  simp [service_endTest]

/-! ### A frame is asked for again, and the hold time ends (R162, R168) -/

theorem exec_testFrameRetry {t : PortTest} (ha : s.active = true) (ht : s.testOf p = some t)
    (hwait : t.wait = .record) : exec (.testFrameRetry p) s = .next (placeTest p s) := by
  refine congrArg Host.Outcome.next ?_
  rw [whenActive_of_active _ ha, frameRetry, ht]
  exact if_pos hwait

theorem exec_holdTimerExpiry (ha : s.active = true) (hs : s.serviceOf p = .isolated)
    (hhold : (s.service.get p).holdTimer.isSome = true) (ht : s.testOf p = none) :
    exec (.holdTimerExpiry p) s = .next (enterTesting p s) := by
  have htest : ¬ (s.service.get p).test.isSome = true := by
    rw [← State.testOf, ht]
    decide
  refine congrArg Host.Outcome.next ?_
  rw [whenActive_of_active _ ha, holdExpiry]
  exact (if_pos ⟨hs, hhold⟩).trans (if_neg htest)

/-! ### The port comes back (R149, R165) -/

/-- A clearing of a port's window writes its counts and its marks, and no more. -/
theorem clearPortWindow_eq (p : Port) (s : State) : ∃ marks segWin linkWin,
    clearPortWindow p s = { s with marks := marks, segWin := segWin, linkWin := linkWin } := by
  cases p
  · exact ⟨_, _, s.linkWin, rfl⟩
  · exact ⟨_, s.segWin, _, rfl⟩

theorem errorSum_clearPortWindow (p : Port) (s : State) : (clearPortWindow p s).errorSum p = 0 := by
  cases p <;> simp [State.errorSum, clearPortWindow, SegWindow.zero, LinkWindow.zero]

/-- A port that has passed its entry test, back IN-SERVICE with its window cleared, before PORT-RESTORED. -/
def entryRestored (p : Port) (s : State) : State :=
  modService p (fun v => { v with state := .inService }) (clearPortWindow p (bump (.service p .testsPassed)
    (modService p (fun v => { v with holdTime := 5, failedTests := 0, restoreDue := false }) (endTest p s))))

theorem service_entryRestored (p : Port) (s : State) : (entryRestored p s).service.get p =
    { s.service.get p with
      state := .inService, test := none, holdTime := 5, failedTests := 0, restoreDue := false } := by
  obtain ⟨_, _, _, e⟩ := clearPortWindow_eq p (bump (.service p .testsPassed)
    (modService p (fun v => { v with holdTime := 5, failedTests := 0, restoreDue := false }) (endTest p s)))
  rw [entryRestored, e]
  simp [service_endTest]

theorem entryRestored_leaves (p : Port) (s : State) :
    let u := entryRestored p s
    u.loopMode p = .normal ∧ u.errorSum p = 0 ∧ u.sweep = s.sweep ∧
      u.count (.service p .testsPassed) = min Config.counterMax (s.count (.service p .testsPassed) + 1) := by
  let v := bump (.service p .testsPassed)
    (modService p (fun v => { v with holdTime := 5, failedTests := 0, restoreDue := false }) (endTest p s))
  have hmode : v.loopMode p = .normal := by
    rw [show v = bumpBy _ 1 _ from rfl, loopMode_bumpBy, loopMode_modService, loopMode_endTest]
  have hsweep : v.sweep = s.sweep := by
    rw [bump_sweep, modService_sweep, (atPort_endTest p s).sweep]
  have hcount : v.count (.service p .testsPassed) =
      min Config.counterMax (s.count (.service p .testsPassed) + 1) := by
    rw [count_bump, if_pos rfl]
    exact congrArg (fun n => min Config.counterMax (n + 1)) (count_endTest _ p s)
  have hsum : (clearPortWindow p v).errorSum p = 0 := errorSum_clearPortWindow p v
  obtain ⟨marks, segWin, linkWin, e⟩ := clearPortWindow_eq p v
  intro u
  rw [show u = modService p _ (clearPortWindow p v) from rfl]
  refine ⟨?_, hsum, ?_, ?_⟩
  · rw [loopMode_modService, e]
    exact hmode
  · rw [modService_sweep, e]
    exact hsweep
  · rw [e]
    exact hcount

theorem entryPassed_eq (h : s.heldReply = none) : entryPassed p s =
    if (s.service.get p).restoreDue then raise .portRestored (entryRestored p s) else entryRestored p s := by
  let v := bump (.service p .testsPassed)
    (modService p (fun v => { v with holdTime := 5, failedTests := 0, restoreDue := false }) (endTest p s))
  have hheld : (clearPortWindow p v).heldReply = none := by
    obtain ⟨_, _, _, e⟩ := clearPortWindow_eq p v
    rw [e]
    show v.heldReply = none
    rw [bump_heldReply]
    exact (atPort_endTest p s).heldReply.trans h
  have hdue : ((endTest p s).service.get p).restoreDue = (s.service.get p).restoreDue := by
    rw [service_endTest]
    simp
  unfold entryPassed
  dsimp only
  rw [hdue, setService_of_none hheld]
  rfl

theorem errorSum_of_same {s t : State} (h : sameButFrames s t) (p : Port) : t.errorSum p = s.errorSum p := by
  obtain ⟨-, -, -, -, -, -, -, -, -, -, -, -, -, -, -, -, -, -, hsegWin, hlinkWin, -⟩ := sameButFrames_fields h
  cases p <;> simp only [State.errorSum, hsegWin, hlinkWin]

/-- From `s` to `u` a port has passed its entry test (R165). -/
structure Passed (p : Port) (s u : State) : Prop where
  record : u.service.get p = { s.service.get p with
    state := .inService, test := none, holdTime := 5, failedTests := 0, restoreDue := false }
  mode : u.loopMode p = .normal
  sum : u.errorSum p = 0
  sweep : u.sweep = s.sweep
  count : u.count (.service p .testsPassed) = min Config.counterMax (s.count (.service p .testsPassed) + 1)
  flag : (s.service.get p).restoreDue = true → u.raised .portRestored = true

theorem passed_entryPassed (h : s.heldReply = none) : Passed p s (entryPassed p s) := by
  have record := service_entryRestored p s
  obtain ⟨mode, sum, sweep, count⟩ := entryRestored_leaves p s
  rw [entryPassed_eq h]
  split
  · exact ⟨by rw [service_raise, record], (loopMode_raise ..).trans mode,
      (errorSum_of_same (raise_same ..) p).trans sum, (sweep_raise ..).trans sweep,
      (count_raise rfl ..).trans count, fun _ => raised_raise _ _⟩
  · next hdue => exact ⟨record, mode, sum, sweep, count, fun hd => absurd hd hdue⟩

/-- What was done before a test was passed, if it left the port's record, the sweep engine and the count of the
tests passed, makes no difference. -/
theorem Passed.since {r u : State} (h : Passed p s u) (hservice : s.service = r.service)
    (hsweep : s.sweep = r.sweep) (hcount : s.count (.service p .testsPassed) = r.count (.service p .testsPassed)) :
    Passed p r u := by
  obtain ⟨record, mode, sum, sweep, count, flag⟩ := h
  rw [hservice] at record flag
  rw [hcount] at count
  exact ⟨record, mode, sum, sweep.trans hsweep, count, flag⟩

/-- The release of the last frame's own record leaves the port as it has come back. -/
theorem Passed.released {u : State} (h : Passed p s u) (rid : Nat) : Passed p s (releaseRef rid u) := by
  refine ⟨by rw [releaseRef_service, h.record], ?_, (errorSum_of_same (releaseRef_same rid u) p).trans h.sum,
    (releaseRef_sweep ..).trans h.sweep, (count_releaseRef ..).trans h.count, fun hd => ?_⟩
  · have hmode := h.mode
    cases p <;> simpa [State.loopMode] using hmode
  · simpa [State.raised] using h.flag hd

/-! ### The last TEST frame returns (R80, R162) -/

/-- The third frame of an EXTERNAL phase, returned in its time, passes an entry test. -/
theorem testFrameHanded_last {bytes : List Byte} {t : PortTest} (ht : s.testOf p = some t)
    (hentry : t.purpose = .entry) (hph : t.phase = .external) (hseq : t.sequence = 3)
    (htimer : t.timer.isSome = true)
    (hbytes : bytes = testPayload p (s.service.get p).testNumber .external 3) :
    testFrameHanded p bytes s = entryPassed p s := by
  have returned : frameReturned p s = entryPassed p s := by
    simp only [frameReturned, ht, hseq, if_neg (show ¬ 3 < 3 by decide)]
    exact phasePassed_external ht hentry hph
  have own : bytes = s.testFrame p t := by rw [hbytes, State.testFrame, hph, hseq]
  simp only [testFrameHanded, ht]
  exact (if_pos ⟨htimer, by rw [hph]; rfl, own⟩).trans returned

theorem judgeFrame_test {h : Header} {rid : Nat} {t : PortTest} (hk : h.kind = kindTest)
    (ht : s.testOf p = some t) :
    judgeFrame p h rid s = testFrameHanded p (s.payload rid) (bump (.forward p .testHanded) s) := by
  unfold judgeFrame
  dsimp only
  rw [if_pos hk, ht, if_pos (by rfl), countAt]

/-- The last frame of an entry test, taken from the hand-over list, brings the port back (R162, R165). -/
theorem takeFrame_passes {c : Bool} {h : Header} {rid : Nat} {rest : List Handed} {t : PortTest}
    (ha : s.active = true) (hwaits : s.resultWaits = false) (hheld : s.heldReply = none)
    (hf : s.handover.get p = ⟨h, rid⟩ :: rest) (hk : h.kind = kindTest) (ht : s.testOf p = some t)
    (hentry : t.purpose = .entry) (hph : t.phase = .external) (hseq : t.sequence = 3)
    (htimer : t.timer.isSome = true)
    (hbytes : s.payload rid = testPayload p (s.service.get p).testNumber .external 3) :
    ∃ u, exec (.takeFrame p c) s = .next u ∧ Passed p s u := by
  let v := bump (.forward p .testHanded) (frameTaken p c rest s)
  have hservice : v.service = s.service := bump_service ..
  have hsweep : v.sweep = s.sweep := bump_sweep ..
  have hcount : v.count (.service p .testsPassed) = s.count (.service p .testsPassed) :=
    count_bump_other (by simp) _
  have hheld' : v.heldReply = none := (bump_heldReply ..).trans hheld
  have passed : Passed p s (entryPassed p v) := (passed_entryPassed hheld').since hservice hsweep hcount
  have judged : judgeFrame p h rid (frameTaken p c rest s) = entryPassed p v := by
    rw [judgeFrame_test (s := frameTaken p c rest s) hk ht]
    refine testFrameHanded_last (s := v) ?_ hentry hph hseq htimer ?_
    · rw [State.testOf, hservice]
      exact ht
    · rw [hservice]
      exact hbytes
  exact ⟨_, exec_takeFrame ha hwaits hf judged passed.sweep, passed.released rid⟩

end

/-! ### The statement -/

/-- Settles O53: an entry test that fails in either phase, the retry, the end of the hold time, and the last frame
of a passed test. -/
theorem portTestsJudgeThePort : Obligations.PortTestsJudgeThePort := by
  refine ⟨fun p s ha hwaits hheld => ⟨fun t ht hentry htimer hph => ?_, fun t ht hentry htimer hph => ?_,
    fun t ht hwait hsends hslot hfree => ?_, fun hs hhold ht => ?_⟩, ?_⟩
  · have hrecord := (service_entryFailedInternal (p := p) hheld).trans (service_internalFailed p s)
    obtain ⟨hqueue, hslot, hmode, hraised⟩ := entryFailedInternal_leaves (p := p) hheld
    refine ⟨entryFailedInternal p s, ?_, ?_, ?_, hqueue, hslot, hmode, hraised, ?_, ?_, ?_⟩
    · rw [exec_testFrameTimer ha ht htimer, phaseFailed_internal ht hentry hph,
        settleSweep_of_sweep hwaits (atPort_entryFailedInternal hheld).sweep]
    · rw [State.serviceOf, hrecord]
    · rw [State.testOf, hrecord]
    · rw [hrecord]
    · rw [hrecord]
    · rw [hrecord]
  · have hrecord := record_entryFailedExternal p s
    obtain ⟨work, hstate, hcause, htest⟩ := entryFailedExternal_spec (p := p) hheld
    refine ⟨entryFailedExternal p s, ?_, hstate, htest, hcause, portIsolated_enterIsolated .., ?_, ?_⟩
    · rw [exec_testFrameTimer ha ht htimer, phaseFailed_external ht hentry hph,
        settleSweep_of_sweep hwaits work.sweep]
    · rw [hrecord]
      rfl
    · rw [hrecord]
      rfl
  · obtain ⟨hplaced, -, htest⟩ := placeTest_fresh ht hsends hslot (Nat.pos_of_ne_zero hfree)
    exact ⟨_, exec_testFrameRetry ha ht hwait, hplaced, by rw [htest]; rfl, by rw [htest]; rfl⟩
  · obtain ⟨timer, wait, hrecord⟩ := record_enterTesting p s
    refine ⟨_, exec_holdTimerExpiry ha hs hhold ht, serviceOf_enterTesting p s, ?_, ?_, ?_⟩
    · rw [hrecord]
      rfl
    · rw [State.testOf, hrecord]
      rfl
    · rw [hrecord]
      rfl
  · intro p c s h rid rest t ha hwaits hheld hf hk ht hentry hph hseq htimer hbytes
    obtain ⟨u, taken, hrecord, hmode, hsum, -, hcount, hflag⟩ :=
      takeFrame_passes (c := c) ha hwaits hheld hf hk ht hentry hph hseq htimer hbytes
    refine ⟨u, taken, ?_, ?_, hmode, ?_, ?_, hsum, ?_, hflag, hcount⟩
    · rw [State.serviceOf, hrecord]
    · rw [State.testOf, hrecord]
    · rw [hrecord]
    · rw [hrecord]
    · rw [hrecord]

end Sys2Proof.Machine

/-! The sweep engine: an outstanding probe ends, the run goes on, and an ECHO begins. -/

namespace Sys2Proof.Machine

/-! ### A step ends, and the run goes on (R177, R181, log entry 47) -/

/-- The engine goes on from a step that has ended, unless a STOP-SWEEP comes before the next one. -/
def goOn (s : State) : State := if s.stopWaits then s else runSweep s

theorem probeEnded_eq (n : Nat) (r : StepResult) (s : State) :
    probeEnded n r s = goOn (advance (endStep n r (modSweep (fun w => { w with outstanding := none }) s))) :=
  rfl

section
variable {s : State}

/-- A run that has ended stays ended. -/
theorem goOn_idle (h : s.sweep.run = none) : goOn s = s := by
  rw [goOn, runSweep_idle h, ite_self]

theorem advance_idle (h : s.sweep.run = none) : advance s = s := by
  simp [advance, h]

theorem advance_pass {k : Nat} (h : s.sweep.run = some ⟨.pass, k⟩) :
    advance s = modSweep (fun w => { w with run := some ⟨.pass, k + 1⟩ }) s := by
  simp [advance, h]

/-- A step changed leaves every other one. -/
theorem step_modify_other {w : Sweep} {n k : Nat} (f : SweepStep → SweepStep) (hn : n ≠ 0) (h : k ≠ n) :
    ({ w with steps := w.steps.modify (n - 1) f } : Sweep).step k = w.step k := by
  unfold Sweep.step
  split
  · rfl
  · have places : n - 1 ≠ k - 1 := by omega
    exact List.getElem?_modify_ne f w.steps places

theorem pos_of_step {w : Sweep} {n : Nat} {x : SweepStep} (h : w.step n = some x) : n ≠ 0 := by
  rintro rfl
  simp [Sweep.step] at h

/-- A step that fails at its fail limit starts its fails again, and its fail action is taken. -/
theorem endStep_limit {n : Nat} {x : SweepStep} (hstep : s.sweep.step n = some x)
    (hfails : x.failLimit ≤ x.fails + 1) :
    endStep n .fail s = failAction { x with result := .fail }
      (modStep n (fun t => { t with result := .fail, fails := 0 }) (bump (.sweep .stepsFail) s)) := by
  have marked : (modStep n (fun t => { t with result := .fail }) (bump (.sweep .stepsFail) s)).sweep.step n =
      some { x with result := .fail } :=
    step_modify (w := (bump (.sweep .stepsFail) s).sweep) (fun t => { t with result := .fail })
      (by rwa [bump_sweep])
  unfold endStep
  dsimp only [resultCounter]
  rw [bump_modStep, marked]
  dsimp only
  rw [if_pos hfails, modStep_modStep]

theorem failAction_halt {x : SweepStep} (h : x.action = .halt) :
    failAction x s = haltSweep (bump (.sweep .actionHalt) s) := by
  unfold failAction
  rw [h]
  rfl

end

/-! ### An ECHO begins (R178) -/

theorem echoPorts_of_eq {s t : State} (hdir : t.dir = s.dir) (hservice : t.service = s.service) (k : Key) :
    t.echoPorts k = s.echoPorts k := by
  have found : t.lookup k = s.lookup k := by simp only [State.lookup, hdir]
  unfold State.echoPorts State.serviceOf
  rw [found, hservice]

theorem offerEcho_same (k : Key) (rid : Nat) : ∀ (ps : List Port) (s : State),
    sameButFrames s (offerEcho k rid ps s).2
  | [], s => sameButFrames_refl s
  | p :: ps, s => sameButFrames_trans (offer_same p _ s) (offerEcho_same k rid ps _)

/-- An ECHO is outstanding as soon as it has begun, whatever becomes of its request. -/
theorem sweep_beginEcho (n : Nat) (k : Key) (ports : List Port) (s : State) :
    (beginEcho n k ports s).sweep = { s.sweep with
      probeNumber := s.sweep.probeNumber + 1
      outstanding := some (.echo n (s.sweep.probeNumber + 1) k s.config.echoTimeout) } := by
  let u := modSweep (fun w => { w with probeNumber := s.sweep.probeNumber + 1 }) s
  have outstanding : ∀ t, sameButFrames u t →
      (modSweep (fun w => { w with
        outstanding := some (.echo n (s.sweep.probeNumber + 1) k t.config.echoTimeout) }) t).sweep =
      { s.sweep with
        probeNumber := s.sweep.probeNumber + 1
        outstanding := some (.echo n (s.sweep.probeNumber + 1) k s.config.echoTimeout) } := fun t ht => by
    rw [modSweep_sweep, sweep_of_same ht, config_of_same ht]
    rfl
  have made := ownRecord_same [s.sweep.probeNumber + 1] u
  unfold beginEcho
  refine outstanding _ ?_
  split
  · next e =>
    rw [e] at made
    exact sameButFrames_trans made (bump_same _ _)
  · next rid v e =>
    rw [e] at made
    have offered := sameButFrames_trans made (offerEcho_same k rid ports v)
    split
    · next e' =>
      rw [e'] at offered
      exact sameButFrames_trans offered (releaseRef_same rid _)
    · next e' =>
      rw [e'] at offered
      exact sameButFrames_trans (sameButFrames_trans offered (releaseRef_same rid _)) (bump_same _ _)

section
variable {s : State} {r : SweepRun} {x : SweepStep}

theorem runSteps_idle {fuel : Nat} (h : s.sweep.run = none) : runSteps fuel s = s := by
  cases fuel with
  | zero => rfl
  | succ n => simp only [runSteps, h]

/-- A run begins the step at its position, and goes on where that step ends at once. -/
theorem runSweep_at (hrun : s.sweep.run = some r) (hstep : s.sweep.step r.position = some x) :
    runSweep s = match beginStep r.position x s with
      | (none, t) => t
      | (some res, t) => runSteps (s.sweep.steps.length + 2) (advance (endStep r.position res t)) := by
  rw [runSweep, runSteps, hrun]
  dsimp only
  rw [hstep] <;> rfl

/-- A run whose step is an ECHO that has a port to go to begins it, and waits for its end. -/
theorem runSweep_echo {k : Key} (hrun : s.sweep.run = some r)
    (hstep : s.sweep.step r.position = some x) (hx : x.target = .station k) (hports : s.echoPorts k ≠ []) :
    runSweep s = beginEcho r.position k (s.echoPorts k) s := by
  have begun : beginStep r.position x s = (none, beginEcho r.position k (s.echoPorts k) s) := by
    unfold beginStep
    rw [hx]
    dsimp only
    split
    · next h => exact absurd h hports
    · rfl
  rw [runSweep_at hrun hstep, begun]

end

end Sys2Proof.Machine

/-! The ends of probes, the interval, and loops at PROBING ports. -/

namespace Sys2Proof.Machine

/-! ### The echo timer (R179, R181) -/

section
variable {s : State} {n : Nat} {b : Byte} {k : Key} {tm : Nat} {x : SweepStep}

/-- The engine with its ECHO ended, and its result not yet recorded. -/
def echoEnded (b : Byte) (k : Key) (s : State) : State :=
  modSweep (fun w => { w with lastEcho := some (b, k), outstanding := none }) s

theorem exec_echoTimerExpiry (ha : s.active = true) (hout : s.sweep.outstanding = some (.echo n b k tm)) :
    exec .echoTimerExpiry s = .next (goOn (advance (endStep n .fail (echoEnded b k s)))) := by
  refine congrArg Host.Outcome.next ?_
  rw [whenActive_of_active _ ha, echoTimeout, hout]
  rfl

/-- The state after an ECHO that was not answered and has not brought its step to the fail limit, with the
run at its place. -/
def echoFailed (n : Nat) (b : Byte) (k : Key) (s : State) : State :=
  modStep n SweepStep.failed (bump (.sweep .stepsFail) (echoEnded b k s))

theorem sweep_echoFailed (n : Nat) (b : Byte) (k : Key) (s : State) :
    (echoFailed n b k s).sweep = { s.sweep with
      lastEcho := some (b, k), outstanding := none
      steps := s.sweep.steps.modify (n - 1) SweepStep.failed } := by
  simp [echoFailed, echoEnded, modStep]

section
variable (hstep : s.sweep.step n = some x)
include hstep

theorem endStep_echoEnded (hfails : x.fails + 1 < x.failLimit) :
    endStep n .fail (echoEnded b k s) = echoFailed n b k s := endStep_below hstep hfails

theorem step_echoFailed : (echoFailed n b k s).sweep.step n = some x.failed := by
  rw [sweep_echoFailed]
  exact step_modify (w := { s.sweep with lastEcho := some (b, k), outstanding := none }) _ hstep

theorem step_echoFailed_next : (echoFailed n b k s).sweep.step (n + 1) = s.sweep.step (n + 1) := by
  rw [sweep_echoFailed]
  exact step_modify_other (w := { s.sweep with lastEcho := some (b, k), outstanding := none }) _
    (pos_of_step hstep) (Nat.succ_ne_self n)

/-- A RUN-STEP's ECHO fails below the fail limit: its step has the FAIL, and the run is over. -/
theorem echoTimeout_single (ha : s.active = true) (hout : s.sweep.outstanding = some (.echo n b k tm))
    (hrun : s.sweep.run = some ⟨.single, n⟩) (hwait : s.sweep.passWaiting = false)
    (hfails : x.fails + 1 < x.failLimit) :
    exec .echoTimerExpiry s =
      .next (modSweep (fun w => { w with run := none, passWaiting := false }) (echoFailed n b k s)) := by
  rw [exec_echoTimerExpiry ha hout, endStep_echoEnded hstep hfails,
    advance_single (n := n) (by rw [sweep_echoFailed]; exact hrun) (by rw [sweep_echoFailed]; exact hwait),
    goOn_idle rfl]

/-- At the fail limit a HALT ends the run and disables the sweep. -/
theorem echoTimeout_halt (ha : s.active = true) (hout : s.sweep.outstanding = some (.echo n b k tm))
    (hfails : x.failLimit ≤ x.fails + 1) (hhalt : x.action = .halt) :
    ∃ t, exec .echoTimerExpiry s = .next t ∧ t.sweep.step n = some { x with result := .fail, fails := 0 } ∧
      t.sweep.enabled = false ∧ t.sweep.run = none ∧ t.raised .sweepHalted = true := by
  let failed := modStep n (fun t => { t with result := .fail, fails := 0 })
    (bump (.sweep .stepsFail) (echoEnded b k s))
  let t := haltSweep (bump (.sweep .actionHalt) failed)
  have ended : endStep n .fail (echoEnded b k s) = t :=
    (endStep_limit (s := echoEnded b k s) hstep hfails).trans (failAction_halt hhalt)
  have halted : t.sweep = { s.sweep with
      lastEcho := some (b, k), outstanding := none, enabled := false, run := none, timer := none
      passWaiting := false
      steps := s.sweep.steps.modify (n - 1) fun t => { t with result := .fail, fails := 0 } } := by
    simp [t, haltSweep, failed, echoEnded, modStep, sweep_raise]
  have ends : t.sweep.run = none := by rw [halted]
  refine ⟨t, ?_, ?_, by rw [halted], ends, raised_raise _ _⟩
  · rw [exec_echoTimerExpiry ha hout, ended, advance_idle ends, goOn_idle ends]
  · rw [halted]
    exact step_modify (w := { s.sweep with
      lastEcho := some (b, k), outstanding := none, enabled := false, run := none, timer := none
      passWaiting := false }) (fun t => { t with result := .fail, fails := 0 }) hstep

section
variable (ha : s.active = true) (hout : s.sweep.outstanding = some (.echo n b k tm))
  (hrun : s.sweep.run = some ⟨.pass, n⟩) (hfails : x.fails + 1 < x.failLimit)
include ha hout hrun hfails

/-- A pass whose ECHO failed below the fail limit goes on at the next step. -/
theorem echoTimeout_pass : exec .echoTimerExpiry s =
    .next (goOn (modSweep (fun w => { w with run := some ⟨.pass, n + 1⟩ }) (echoFailed n b k s))) := by
  rw [exec_echoTimerExpiry ha hout, endStep_echoEnded hstep hfails,
    advance_pass (k := n) (by rw [sweep_echoFailed]; exact hrun)]

variable {y : SweepStep} (hnext : s.sweep.step (n + 1) = some y)
include hnext

/-- A STOP-SWEEP that comes next finds the next step not begun (log entry 47). -/
theorem echoTimeout_stopped (hstop : s.pending.head? = some .stopSweep) :
    exec .echoTimerExpiry s =
      .next (modSweep (fun w => { w with run := some ⟨.pass, n + 1⟩ }) (echoFailed n b k s)) := by
  let t := modSweep (fun w => { w with run := some ⟨.pass, n + 1⟩ }) (echoFailed n b k s)
  have next : t.sweep.step (n + 1) = some y := (step_echoFailed_next hstep).trans hnext
  have pending : t.pending = s.pending := by simp [t, echoFailed, echoEnded, modStep]
  have run : t.sweep.run = some ⟨.pass, n + 1⟩ := rfl
  have waits : t.stopWaits = true := by
    simp [State.stopWaits, pending, hstop, run, next]
  rw [echoTimeout_pass hstep ha hout hrun hfails, goOn, if_pos waits]

/-- Where no STOP-SWEEP comes next, the next step's ECHO is outstanding. -/
theorem echoTimeout_next {key : Key} (hstop : s.pending.head? ≠ some .stopSweep)
    (hy : y.target = .station key) (hports : s.echoPorts key ≠ []) :
    ∃ t, exec .echoTimerExpiry s = .next t ∧ t.sweep.step n = some x.failed ∧
      t.sweep.run = some ⟨.pass, n + 1⟩ ∧
      t.sweep.outstanding = some (.echo (n + 1) (s.sweep.probeNumber + 1) key s.config.echoTimeout) := by
  let u := modSweep (fun w => { w with run := some ⟨.pass, n + 1⟩ }) (echoFailed n b k s)
  have next : u.sweep.step (n + 1) = some y := (step_echoFailed_next hstep).trans hnext
  have pending : u.pending = s.pending := by simp [u, echoFailed, echoEnded, modStep]
  have ports : u.echoPorts key = s.echoPorts key := by
    refine echoPorts_of_eq ?_ ?_ key <;> simp [u, echoFailed, echoEnded, modStep]
  have number : u.sweep.probeNumber = s.sweep.probeNumber :=
    (congrArg Sweep.probeNumber (sweep_echoFailed n b k s) :)
  have config : u.config = s.config := by simp [u, echoFailed, echoEnded, modStep]
  have runs : goOn u = beginEcho (n + 1) key (u.echoPorts key) u := by
    rw [goOn, if_neg (by simp [State.stopWaits, pending, hstop])]
    exact runSweep_echo (r := ⟨.pass, n + 1⟩) rfl next hy (by rwa [ports])
  refine ⟨goOn u, echoTimeout_pass hstep ha hout hrun hfails, ?_, ?_, ?_⟩ <;> rw [runs, sweep_beginEcho]
  · exact step_echoFailed (b := b) (k := k) hstep
  · rfl
  · show some (Probe.echo _ (u.sweep.probeNumber + 1) _ u.config.echoTimeout) = _
    rw [number, config]

end

end

end

/-! ### The interval timer (R177) -/

section
variable {s : State}

theorem exec_intervalExpiry (ha : s.active = true) :
    exec .intervalExpiry s = .next (intervalExpiry s) := by
  refine congrArg Host.Outcome.next ?_
  rw [whenActive_of_active _ ha]

/-- A pass of an empty list is done as soon as it begins. -/
theorem runSweep_empty {r : SweepRun} (hrun : s.sweep.run = some r) (hsteps : s.sweep.steps = []) :
    runSweep s = passDone s := by
  have none : s.sweep.step r.position = none := by simp [Sweep.step, hsteps]
  simp only [runSweep, runSteps, hrun, none]

theorem raised_passDone (s : State) : (passDone s).raised .sweepPassDone = true :=
  raised_raise .sweepPassDone (bump (.sweep .passesDone) (modSweep (fun w => { w with run := none }) s))

theorem count_passDone (s : State) :
    (passDone s).count (.sweep .passesDone) = min Config.counterMax (s.count (.sweep .passesDone) + 1) := by
  show (raise .sweepPassDone (bump (.sweep .passesDone) (modSweep (fun w => { w with run := none }) s))).count
    (.sweep .passesDone) = _
  rw [count_raise rfl, count_bump, if_pos rfl]
  rfl

/-- The engine after a pass: without an interval it is disabled, and else the interval runs. -/
theorem sweep_passDone (s : State) : (passDone s).sweep =
    if s.sweep.interval = 0 then { s.sweep with run := none, enabled := false }
    else { s.sweep with run := none, timer := some s.sweep.interval } := by
  unfold passDone
  dsimp only
  simp only [modSweep_sweep, sweep_raise, bump_sweep]

theorem run_passDone (s : State) : (passDone s).sweep.run = none := by
  rw [sweep_passDone]
  split <;> rfl

end

/-! ### A loop at a PROBING port (R169, R170) -/

section
variable {s : State} {p : Port} {v : PortTest}

/-- A loop that ends with a verdict brings a PROBING port back to IN-SERVICE, and its queue stands. -/
theorem loopEnded_probing (pass : Bool) (hs : s.serviceOf p = .probing) (hheld : s.heldReply = none) :
    loopEnded p pass s =
      handResult p pass (modService p (fun v => { v with state := .inService }) (endTest p s)) := by
  have probing : (endTest p s).serviceOf p = .probing := by
    simpa [State.serviceOf, service_endTest] using hs
  have held : (endTest p s).heldReply = none := (atPort_endTest p s).heldReply.trans hheld
  rw [loopEnded, afterLoop, if_pos probing, setService_of_none held, takeWaitingHold, if_neg]
  simp [State.serviceOf]

theorem loopMode_modSweep (p : Port) (f : Sweep → Sweep) (s : State) :
    (modSweep f s).loopMode p = s.loopMode p := by cases p <;> rfl

/-- From `u` to `t` the engine has taken the FAIL of a RUN-STEP's loop below the fail limit: its step has the
FAIL, the run is over, and the ports stand. -/
structure LoopFailed (n : Nat) (x : SweepStep) (u t : State) : Prop where
  step : t.sweep.step n = some x.failed
  run : t.sweep.run = none
  outstanding : t.sweep.outstanding = none
  service : t.service = u.service
  queues : t.queues = u.queues
  mode : ∀ p, t.loopMode p = u.loopMode p

section
variable {n : Nat} {k : ProbeKind} {x : SweepStep} (hrun : s.sweep.run = some ⟨.single, n⟩)
  (hwait : s.sweep.passWaiting = false) (hstep : s.sweep.step n = some x)
  (hfails : x.fails + 1 < x.failLimit)
include hrun hwait hstep hfails

/-- The engine takes the FAIL it has been handed, whatever was done at the loop's port. -/
theorem loopFailed_settleSweep {u : State}
    (hu : u.sweep = { s.sweep with outstanding := some (.loop n k (some false)) }) :
    LoopFailed n x u (settleSweep u) := by
  have hstep' : u.sweep.step n = some x := by rw [hu]; exact hstep
  rw [settleSweep_single (t := u) (k := k) (by rw [hu]) (by rw [hu]; exact hrun) (by rw [hu]; exact hwait)
    hstep' hfails]
  exact ⟨step_stepFailed (by rwa [bump_sweep]), rfl, rfl, rfl, rfl,
    fun p => (loopMode_modSweep p _ _).trans (loopMode_bumpBy p _ 1 u)⟩

variable (hv : s.testOf p = some v) (hloop : v.purpose = .probe) (hs : s.serviceOf p = .probing)
  (hheld : s.heldReply = none) (hout : s.sweep.outstanding = some (.loop n k none)) (ha : s.active = true)
include hv hloop hs hheld hout ha

/-- A RUN-STEP's loop whose frame does not return has failed, and the port is IN-SERVICE again. -/
theorem exec_testFrameTimer_loop (htimer : v.timer.isSome = true) :
    ∃ u t, exec (.testFrameTimer p) s = .next t ∧ LoopFailed n x u t ∧ u.testOf p = none ∧
      u.loopMode p = .normal ∧ u.serviceOf p = .inService ∧ u.queues = s.queues := by
  let w := modService p (fun v => { v with state := .inService }) (endTest p s)
  let u := handResult p false w
  have failed : phaseFailed p s = u := by
    have ends : loopEnded p false s = u := loopEnded_probing false hs hheld
    rw [← ends]
    simp [phaseFailed, hv, PortTest.isLoop, hloop]
  have ended : w.sweep = s.sweep := (atPort_endTest p s).sweep
  have handed : u.sweep = { s.sweep with outstanding := some (.loop n k (some false)) } := by
    rw [sweep_handResult_loop (ended ▸ hout), ended]
  have record : u.service.get p = { s.service.get p with state := .inService, test := none } := by
    simp [u, w, service_handResult, service_endTest]
  refine ⟨u, _, by rw [exec_testFrameTimer ha hv htimer, failed],
    loopFailed_settleSweep hrun hwait hstep hfails handed, ?_, ?_, ?_, ?_⟩
  · rw [State.testOf, record]
  · rw [loopMode_handResult, loopMode_modService, loopMode_endTest]
  · rw [State.serviceOf, record]
  · rw [queues_handResult, modService_queues, queues_endTest]

end

/-- A STUCK that is held asks for the isolation of the segment, which is not OFF, with cause LINE. -/
theorem stuckHeld_asks {y : Seg} (hw : s.window.running = true) (hstuck : (s.segs.get y).stuck = true)
    (htimer : (s.segs.get y).heldTimer.isSome = true) (hon : s.serviceOf (.seg y) ≠ .off) :
    stuckHeld y s = isolate (.seg y) .line (bump (.faultPort (.seg y) .requestsLine)
      (modSeg y (fun t => { t with heldTimer := none, heldSent := true }) s)) := by
  rw [stuckHeld, if_pos ⟨hstuck, htimer, hon⟩, segReport, if_neg (by simp [hw])]
  rfl

section
variable {n : Nat} {k : ProbeKind} {x : SweepStep} {y : Seg} (hrun : s.sweep.run = some ⟨.single, n⟩)
  (hwait : s.sweep.passWaiting = false) (hstep : s.sweep.step n = some x)
  (hfails : x.fails + 1 < x.failLimit)
include hrun hwait hstep hfails

/-- An isolation request ends a RUN-STEP's loop with FAIL, and the segment is ISOLATED. -/
theorem exec_stuckHeld_loop (hv : s.testOf (.seg y) = some v) (hloop : v.purpose = .probe)
    (hs : s.serviceOf (.seg y) = .probing) (hout : s.sweep.outstanding = some (.loop n k none))
    (ha : s.active = true) (hw : s.window.running = true) (hstuck : (s.segs.get y).stuck = true)
    (htimer : (s.segs.get y).heldTimer.isSome = true) :
    ∃ u t, exec (.stuckHeld y) s = .next t ∧ LoopFailed n x u t ∧ u.testOf (.seg y) = none ∧
      u.loopMode (.seg y) = .normal ∧ u.serviceOf (.seg y) = .isolated ∧
      (u.service.get (.seg y)).cause = some .line ∧ u.queues.get (.seg y) = [] := by
  let p := Port.seg y
  let asked := bump (.faultPort p .requestsLine)
    (modSeg y (fun t => { t with heldTimer := none, heldSent := true }) s)
  let u := enterIsolated p .line (loopCut p asked)
  have service : asked.service = s.service := bump_service ..
  have sweep : asked.sweep = s.sweep := bump_sweep ..
  have probing : asked.serviceOf p = .probing := by rwa [State.serviceOf, service]
  have isolates : stuckHeld y s = u := by
    rw [stuckHeld_asks hw hstuck htimer (by rw [hs]; decide)]
    exact isolate_reached .line (s := asked) fun hun => hun.2 probing
  obtain ⟨hsweep, hmode, htest, -⟩ := loopCut_loop (s := asked) probing
    (by rwa [State.testOf, service]) (by rw [hloop]; decide) (by rwa [sweep])
  have handed : u.sweep = { s.sweep with outstanding := some (.loop n k (some false)) } := by
    rw [sweep_enterIsolated, hsweep, sweep]
  have record := record_enterIsolated p .line (loopCut p asked)
  refine ⟨u, settleSweep u, ?_, loopFailed_settleSweep hrun hwait hstep hfails handed, ?_,
    (loopMode_enterIsolated ..).trans hmode, ?_, ?_, purged_enterIsolated ..⟩
  · refine congrArg Host.Outcome.next ?_
    rw [whenActive_of_active _ ha, isolates]
  · rw [State.testOf, record]
    exact htest
  · rw [State.serviceOf, record]
    rfl
  · rw [record]
    rfl

end

end

/-! ### The statement -/

/-- Settles O54: an ECHO that is not answered, in a RUN-STEP and in a pass; the interval's end; and a loop at a
PROBING port that its frame's timer or an isolation request ends. -/
theorem sweepTimersEndProbesAndBeginPasses : Obligations.SweepTimersEndProbesAndBeginPasses := by
  unfold Obligations.SweepTimersEndProbesAndBeginPasses
  intro s ha
  refine ⟨fun n b k tm x hout hrun hwait hstep => ⟨fun hfails => ?_, fun hfails hhalt => ?_⟩,
    fun htimer henabled => ⟨fun hrun => ?_, fun hrun hsteps => ?_⟩, fun htimer => ?_,
    fun n b k tm x y key hout hrun hstep hfails hnext hy => ⟨fun hstop => ?_, fun hstop hports => ?_⟩, ?_⟩
  · exact ⟨_, echoTimeout_single hstep ha hout hrun hwait hfails, step_echoFailed (b := b) (k := k) hstep, rfl,
      by simp [sweep_echoFailed], by simp [sweep_echoFailed], by simp [echoFailed, echoEnded, modStep]⟩
  · exact echoTimeout_halt hstep ha hout hfails hhalt
  · rw [exec_intervalExpiry ha]
    simp [intervalExpiry, htimer, henabled, hrun, modSweep]
  · let u := beginPass (modSweep (fun w => { w with timer := none }) s)
    have begins : intervalExpiry s = passDone u := by
      have runs : intervalExpiry s = runSweep u := by simp [intervalExpiry, htimer, henabled, hrun, u]
      rw [runs, runSweep_empty (s := u) rfl hsteps]
    exact ⟨passDone u, by rw [exec_intervalExpiry ha, begins], raised_passDone u, run_passDone u,
      count_passDone u⟩
  · rw [exec_intervalExpiry ha]
    simp [intervalExpiry, htimer]
  · exact ⟨_, echoTimeout_stopped hstep ha hout hrun hfails hnext hstop,
      step_echoFailed (b := b) (k := k) hstep, rfl, by simp [sweep_echoFailed],
      (step_echoFailed_next hstep).trans hnext⟩
  · exact echoTimeout_next hstep ha hout hrun hfails hnext hstop hy hports
  · intro p v n k x hv hloop hs hheld hout hrun hwait hstep hfails failed
    refine ⟨fun htimer => ?_, fun y hp hw hstuck htimer => ?_⟩
    · obtain ⟨u, t, he, h, htest, hmode, hstate, hqueues⟩ :=
        exec_testFrameTimer_loop hrun hwait hstep hfails hv hloop hs hheld hout ha htimer
      exact ⟨t, he, ⟨by rw [State.testOf, h.service]; exact htest, (h.mode p).trans hmode, h.step, h.run,
        h.outstanding⟩, by rw [State.serviceOf, h.service]; exact hstate, by rw [h.queues, hqueues]⟩
    · subst hp
      obtain ⟨u, t, he, h, htest, hmode, hstate, hcause, hqueue⟩ :=
        exec_stuckHeld_loop hrun hwait hstep hfails hv hloop hs hout ha hw hstuck htimer
      exact ⟨t, he, ⟨by rw [State.testOf, h.service]; exact htest, (h.mode _).trans hmode, h.step, h.run,
        h.outstanding⟩, by rw [State.serviceOf, h.service]; exact hstate, by rw [h.service]; exact hcause,
        by rw [h.queues]; exact hqueue⟩

end Sys2Proof.Machine

/-! The sweep requests: LOAD-STEPS, START-SWEEP, RUN-STEP and STOP-SWEEP. -/

namespace Sys2Proof.Machine

/-! ### A reply made, and a held reply met (R188, R196) -/

theorem countStatus_same (st : Status) (s : State) : sameButFrames s (countStatus st s) := by
  unfold countStatus
  split
  · exact bump_same _ s
  · exact bump_same _ s
  · exact sameButFrames_refl s

theorem sendReply_same (q : Request) (st : Status) (results : List Byte) (s : State) :
    sameButFrames s (sendReply q st results s) := by
  have sent := sameButFrames_trans (countStatus_same st s)
    (sendOwn_same q.port q.source kindMgmtReply (replyPayload q st results) _)
  unfold sendReply
  split <;> next e =>
    rw [e] at sent
    exact sameButFrames_trans sent (bump_same _ _)

/-- A DONE reply counts among the frames and the requests alone. -/
theorem count_sendReply_done {c : Counter} (hc : c.framed = false) (hm : ∀ k, c ≠ .mgmt k) (q : Request)
    (results : List Byte) (s : State) : (sendReply q .done results s).count c = s.count c := by
  have sent := framed_sendOwn hc q.port q.source kindMgmtReply (replyPayload q .done results) s
  have hstatus : countStatus .done s = s := rfl
  unfold sendReply
  rw [hstatus]
  split <;> next e =>
    rw [e] at sent
    exact (count_bump_other (hm _).symm _).trans sent

theorem sweep_answered (q : Request) (st : Status) (results : List Byte) (s : State) :
    (answered q st results s).sweep = s.sweep := (sweep_of_same (sendReply_same q st results s) :)

/-- A port's new service state makes a frame at most, of the reply held for the port, and loses or sends
that reply; nothing else comes with it. -/
theorem setService_same (p : Port) (st : Service) (s : State) :
    sameButFrames { modService p (fun v => { v with state := st }) s with
      heldReply := (setService p st s).heldReply } (setService p st s) := by
  let u := modService p (fun v => { v with state := st }) s
  have stands : sameButFrames { u with heldReply := u.heldReply } u := sameButFrames_refl u
  have lost : sameButFrames { u with heldReply := (loseHeld u).heldReply } (loseHeld u) := by
    obtain ⟨counters, e, -⟩ := loseHeld_eq u
    rw [e]
    rfl
  have sent : ∀ q, sameButFrames { u with heldReply := (offerHeld q u).heldReply }
      (offerHeld q u) := fun q => by
    have made := sendReply_same q .done [] { u with heldReply := none }
    have held : (offerHeld q u).heldReply = none := (congrArg State.heldReply (show _ = _ from made) :)
    rw [held]
    exact made
  show sameButFrames { u with heldReply := (settleHeld p st u).heldReply } (settleHeld p st u)
  unfold settleHeld
  split
  · exact stands
  · split
    · cases st with
      | inService => exact sent _
      | isolated | failed | off => exact lost
      | probing | testing => exact stands
    · exact stands

theorem sweep_setService (p : Port) (st : Service) (s : State) : (setService p st s).sweep = s.sweep :=
  (sweep_of_same (setService_same p st s) :)

theorem count_setService {c : Counter} (hc : c.framed = false) (hm : ∀ k, c ≠ .mgmt k) (p : Port)
    (st : Service) (s : State) : (setService p st s).count c = s.count c := by
  by_cases hst : st = .inService
  · subst hst
    unfold setService settleHeld
    split
    · rfl
    · split
      · exact count_sendReply_done hc hm _ [] _
      · rfl
  · obtain ⟨_, _, -, hcount⟩ := setService_eq (p := p) (s := s) hst
    exact hcount c (hm _)

/-! ### A loop is stopped (R163, R168, R170, R183) -/

/-- A hold expiry waits for the end of the port's loop. -/
def State.holdWaits (s : State) (p : Port) : Prop :=
  s.serviceOf p = .isolated ∧ (s.service.get p).holdExpired = true

section
variable {p : Port} {s : State}

theorem afterLoop_probing (h : s.serviceOf p = .probing) : afterLoop p s = setService p .inService s := by
  have state : (setService p .inService s).serviceOf p = .inService := by
    have service : (setService p .inService s).service =
        s.service.set p { s.service.get p with state := .inService } :=
      (congrArg State.service (show _ = _ from setService_same p .inService s) :)
    rw [State.serviceOf, service, PerPort.get_set, if_pos rfl]
  rw [afterLoop, if_pos h, takeWaitingHold, if_neg]
  rw [state]
  simp

theorem afterLoop_held (h : s.holdWaits p) : afterLoop p s = enterTesting p s := by
  obtain ⟨hs, hexpired⟩ := h
  rw [afterLoop, if_neg (by rw [hs]; decide), takeWaitingHold, if_pos ⟨hexpired, hs⟩]

theorem afterLoop_stays (hprobing : s.serviceOf p ≠ .probing) (h : ¬ s.holdWaits p) : afterLoop p s = s := by
  rw [afterLoop, if_neg hprobing, takeWaitingHold, if_neg fun hw => h hw.symm]

theorem count_enterTesting {c : Counter} (hc : c.framed = false) (hp : c ≠ .service p .testFrameLost) :
    (enterTesting p s).count c = s.count c := by
  rw [enterTesting_eq_beginTest]
  exact (framed_placeTest hc hp _).trans (count_of_counters c (counters_setLoopMode p _ _))

end

/-- What a stopped loop leaves: the engine as it was, no verdict counted, and the port where its state takes
it. -/
structure LoopStopped (p : Port) (s t : State) : Prop where
  sweep : t.sweep = s.sweep
  count : ∀ c : Counter, c.framed = false → (∀ k, c ≠ .mgmt k) → c ≠ .service p .testFrameLost →
    t.count c = s.count c
  probing : s.serviceOf p = .probing → t.serviceOf p = .inService
  stays : s.serviceOf p ≠ .probing → ¬ s.holdWaits p → t.serviceOf p = s.serviceOf p
  ended : ¬ s.holdWaits p → t.testOf p = none ∧ t.loopMode p = .normal ∧ t.slots.get p = none ∧
    (s.heldReply = none → t.queues = s.queues)
  held : s.holdWaits p → t.serviceOf p = .testing ∧
    t.entryTest p (if s.ready p then .internal else .waitConnect)

section
variable {p : Port} {s : State}

theorem record_endTest (p : Port) (s : State) :
    (endTest p s).service.get p = { s.service.get p with test := none } := by
  rw [service_endTest, PerPort.get_set, if_pos rfl]

theorem serviceOf_endTest (p : Port) (s : State) : (endTest p s).serviceOf p = s.serviceOf p := by
  rw [State.serviceOf, record_endTest]
  rfl

theorem holdWaits_endTest : (endTest p s).holdWaits p ↔ s.holdWaits p := by
  rw [State.holdWaits, serviceOf_endTest, record_endTest]
  rfl

theorem ready_endTest (p : Port) (s : State) : (endTest p s).ready p = s.ready p := by
  cases p with
  | seg x => rfl
  | link l => rw [State.ready, ((works_endTest (.link l) s).lines l).line, State.ready]

/-- The test is over before the port is judged by its state. -/
theorem loopStopped_ended (p : Port) (s : State) : (endTest p s).testOf p = none ∧
    (endTest p s).loopMode p = .normal ∧ (endTest p s).slots.get p = none ∧ (endTest p s).queues = s.queues :=
  ⟨by rw [State.testOf, record_endTest], loopMode_endTest p s, slot_endTest p s, queues_endTest p s⟩

/-- The loop of a PROBING port: the port is IN-SERVICE again, and the reply held for it is sent. -/
theorem loopStopped_probing (hs : s.serviceOf p = .probing) :
    LoopStopped p s (afterLoop p (endTest p s)) := by
  let e := endTest p s
  obtain ⟨htest, hmode, hslot, hqueues⟩ := loopStopped_ended p s
  have free : ¬ s.holdWaits p := fun h => absurd (hs.symm.trans h.1) (by decide)
  have after : afterLoop p e = setService p .inService e :=
    afterLoop_probing ((serviceOf_endTest p s).trans hs)
  obtain ⟨_, _, _, _, _, _, _, hsegs, hlinks, _, hslots, _, _, _, _, _, _, _, _, _, _, hservice, hsweep, _⟩ :=
    sameButFrames_fields (setService_same p .inService e)
  have record : (setService p .inService e).service.get p =
      { s.service.get p with state := .inService, test := none } := by
    rw [hservice]
    simp [e, record_endTest]
  rw [after]
  refine ⟨hsweep.trans (atPort_endTest p s).sweep, fun c hc hm _ => ?_, fun _ => ?_, fun h => absurd hs h,
    fun _ => ⟨?_, ?_, ?_, fun hheld => ?_⟩, fun h => absurd h free⟩
  · rw [count_setService hc hm, count_endTest]
  · rw [State.serviceOf, record]
  · rw [State.testOf, record]
  · cases p with
    | seg x => rw [State.loopMode, hsegs]; exact hmode
    | link l => rw [State.loopMode, hlinks]; exact hmode
  · rw [hslots]
    exact hslot
  · rw [setService_of_none ((atPort_endTest p s).heldReply.trans hheld)]
    exact hqueues

/-- The loop of an ISOLATED port whose hold expiry waited: the port is TESTING. -/
theorem loopStopped_held (h : s.holdWaits p) : LoopStopped p s (afterLoop p (endTest p s)) := by
  have probing : s.serviceOf p ≠ .probing := by rw [h.1]; decide
  rw [afterLoop_held (holdWaits_endTest.2 h)]
  refine ⟨(sweep_enterTesting p _).trans (atPort_endTest p s).sweep, fun c hc _ hp => ?_,
    fun hs => absurd hs probing, fun _ hn => absurd h hn, fun hn => absurd h hn,
    fun _ => ⟨serviceOf_enterTesting p _, ?_⟩⟩
  · rw [count_enterTesting hc hp, count_endTest]
  · obtain ⟨timer, wait, record⟩ := record_enterTesting p (endTest p s)
    have phase : (endTest p s).entryPhase p = if s.ready p then .internal else .waitConnect := by
      rw [State.entryPhase, ready_endTest]
    exact ⟨⟨.entry, _, 1, timer, wait⟩, by rw [State.testOf, record]; rfl, rfl, phase⟩

/-- Any other port stays in its state. -/
theorem loopStopped_stays (hprobing : s.serviceOf p ≠ .probing) (h : ¬ s.holdWaits p) :
    LoopStopped p s (afterLoop p (endTest p s)) := by
  obtain ⟨htest, hmode, hslot, hqueues⟩ := loopStopped_ended p s
  rw [afterLoop_stays ((serviceOf_endTest p s).trans_ne hprobing) (mt holdWaits_endTest.1 h)]
  exact ⟨(atPort_endTest p s).sweep, fun c _ _ _ => count_endTest c p s, fun hs => absurd hs hprobing,
    fun _ _ => serviceOf_endTest p s, fun _ => ⟨htest, hmode, hslot, fun _ => hqueues⟩, fun hw => absurd hw h⟩

/-- STOP-SWEEP ends a loop, and its port goes where its service state takes it. -/
theorem loopStopped_stopLoop {v : PortTest} (hv : s.testOf p = some v) (hloop : v.purpose ≠ .entry) :
    LoopStopped p s (stopLoop p s) := by
  have stops : stopLoop p s = afterLoop p (endTest p s) := by
    simp [stopLoop, hv, PortTest.isLoop, hloop]
  rw [stops]
  by_cases hprobing : s.serviceOf p = .probing
  · exact loopStopped_probing hprobing
  · by_cases h : s.holdWaits p
    · exact loopStopped_held h
    · exact loopStopped_stays hprobing h

end

end Sys2Proof.Machine

/-! The sweep requests carried out and answered (R177, R178, R182 to R184). -/

namespace Sys2Proof.Machine

/-! ### The requests taken and answered (R187) -/

section
variable {s : State} {q : Request} {rest : List Request}

theorem exec_loadSteps {ts : List StepGiven} (h : s.headIs q rest (.loadSteps ts)) :
    exec .loadSteps s = .next ((carryLoadSteps ts (becomeCurrent q rest s)).answer q) :=
  congrArg Host.Outcome.next (carry_at h _ _ (a := ts) rfl)

theorem exec_startSweep {given : Option Nat} (h : s.headIs q rest (.startSweep given)) :
    exec .startSweep s = .next ((carryStartSweep given (becomeCurrent q rest s)).answer q) :=
  congrArg Host.Outcome.next (carry_at h _ _ (a := given) rfl)

theorem exec_runStep {k : Nat} (h : s.headIs q rest (.runStep k)) :
    exec .runStep s = .next ((carryRunStep k (becomeCurrent q rest s)).answer q) :=
  congrArg Host.Outcome.next (carry_at h _ _ (a := k) rfl)

theorem run_stopSweep (s : State) : (stopSweep s).sweep.run = none := rfl

/-- A STOP-SWEEP taken ends the run, so that it lets nothing begin. -/
theorem exec_stopSweep (h : s.headIs q rest .stopSweep) :
    exec .stopSweep s = .next (answered q .done [] (stopSweep (becomeCurrent q rest s))) := by
  have carried := carry_at h (fun c => match c with | .stopSweep => some () | _ => none)
    (fun _ _ s => .done (stopSweep s)) (a := ()) rfl
  rw [whenActive_of_active _ h.1] at carried
  refine congrArg Host.Outcome.next ?_
  rw [whenActive_of_active _ h.1]
  refine (congrArg resumeSweep carried).trans (resumeSweep_of_none (.inl ?_))
  rw [sweep_answered]
  rfl

end

/-! ### LOAD-STEPS (R182) -/

section
variable {s : State}

/-- A list whose items all pass a test has no failing item. -/
theorem firstFailing_of_all {α : Type} {ok : α → Bool} : ∀ {k : Nat} {l : List α},
    (∀ a ∈ l, ok a = true) → firstFailing ok k l = none
  | _, [], _ => rfl
  | k, a :: l, h => by
    rw [firstFailing, if_pos (h a List.mem_cons_self)]
    exact firstFailing_of_all fun b hb => h b (List.mem_cons_of_mem a hb)

theorem carryLoadSteps_busy (ts : List StepGiven) (h : s.sweep.run.isSome = true) :
    carryLoadSteps ts s = .refuse .busy s := if_pos h

theorem carryLoadSteps_done {ts : List StepGiven} (h : s.sweep.run = none) (hlen : ts.length ≤ 32)
    (hts : ∀ t ∈ ts, stepFits t.kind t.probe t.action = true ∧ t.step.isSome = true) :
    carryLoadSteps ts s = .done (modSweep (fun w => { w with
      steps := ts.filterMap StepGiven.step, lastEcho := none }) s) := by
  have fits : firstFailing (fun t : StepGiven => stepFits t.kind t.probe t.action) 1 ts = none :=
    firstFailing_of_all fun t ht => (hts t ht).1
  have given : firstFailing (fun t : StepGiven => t.step.isSome) 1 ts = none :=
    firstFailing_of_all fun t ht => (hts t ht).2
  have room : ¬ Config.sweepSteps < ts.length := Nat.not_lt.2 hlen
  unfold carryLoadSteps
  rw [if_neg (by simp [h]), fits]
  dsimp only
  rw [if_neg room, given]

/-! ### START-SWEEP (R183) -/

theorem carryStartSweep_range {v : Nat} (h : 3600 < v) (s : State) :
    carryStartSweep (some v) s = .refuse .range s := by
  simp [carryStartSweep, h]

/-- The interval given, or the one in force. -/
theorem carryStartSweep_in_range {given : Option Nat} {v : Nat}
    (hv : given = some v ∧ v ≤ 3600 ∨ given = none ∧ v = s.sweep.interval) :
    carryStartSweep given s = if s.sweep.run.isSome then .refuse .busy s else .done (startSweep v s) := by
  rcases hv with ⟨rfl, hle⟩ | ⟨rfl, rfl⟩
  · have small : ¬ 3600 < v := Nat.not_lt.2 hle
    simp [carryStartSweep, small]
  · simp [carryStartSweep]

/-- The engine enabled with an interval, at the beginning of a pass. -/
def passBegun (v : Nat) (s : State) : State :=
  modSweep (fun w => { w with
    interval := v, enabled := true, timer := none, run := some ⟨.pass, 1⟩, passWaiting := false }) s

theorem startSweep_eq (v : Nat) (s : State) : startSweep v s = runSweep (passBegun v s) := rfl

/-- A pass of an empty list is done at once; without an interval the sweep is disabled again. -/
theorem startSweep_empty (v : Nat) (h : s.sweep.steps = []) :
    let t := startSweep v s
    t.sweep.run = none ∧ t.sweep.interval = v ∧ t.sweep.enabled = decide (v ≠ 0) ∧
      t.sweep.timer = (if v = 0 then none else some v) ∧ t.raised .sweepPassDone = true := by
  have done : startSweep v s = passDone (passBegun v s) :=
    runSweep_empty (s := passBegun v s) rfl h
  have begun : (passBegun v s).sweep.interval = v := rfl
  have engine := sweep_passDone (passBegun v s)
  rw [begun] at engine
  dsimp only
  rw [done]
  refine ⟨run_passDone _, ?_, ?_, ?_, raised_passDone _⟩ <;> rw [engine] <;> by_cases hv : v = 0 <;>
    simp [hv, passBegun]

/-- An ECHO as the first step is outstanding as soon as the pass has begun. -/
theorem startSweep_echo (v : Nat) {x : SweepStep} {key : Key} (hstep : s.sweep.step 1 = some x)
    (hx : x.target = .station key) (hports : s.echoPorts key ≠ []) :
    (startSweep v s).sweep = { s.sweep with
      interval := v, enabled := true, timer := none, run := some ⟨.pass, 1⟩, passWaiting := false
      probeNumber := s.sweep.probeNumber + 1
      outstanding := some (.echo 1 (s.sweep.probeNumber + 1) key s.config.echoTimeout) } := by
  have begun : startSweep v s = beginEcho 1 key (s.echoPorts key) (passBegun v s) :=
    runSweep_echo (s := passBegun v s) (r := ⟨.pass, 1⟩) rfl hstep hx hports
  rw [begun, sweep_beginEcho]
  rfl

/-! ### RUN-STEP (R184) -/

/-- The engine at the one step of a RUN-STEP. -/
def stepBegun (k : Nat) (s : State) : State := modSweep (fun w => { w with run := some ⟨.single, k⟩ }) s

theorem runStep_eq (k : Nat) (s : State) : runStep k s = runSweep (stepBegun k s) := rfl

theorem carryRunStep_busy (k : Nat) (h : s.sweep.run.isSome = true) : carryRunStep k s = .refuse .busy s :=
  if_pos h

theorem carryRunStep_notFound {k : Nat} (h : s.sweep.run = none) (hk : k = 0 ∨ s.sweep.steps.length < k) :
    carryRunStep k s = .refuse .notFound s := by
  have outside : within 1 s.sweep.steps.length k = false :=
    within_eq_false (hk.imp_left fun h0 => by omega)
  rw [carryRunStep, if_neg (by simp [h]), if_pos outside]

theorem carryRunStep_done {k : Nat} {x : SweepStep} (h : s.sweep.run = none) (hk : s.sweep.step k = some x) :
    carryRunStep k s = .done (runStep k s) := by
  have inside : within 1 s.sweep.steps.length k = true := by
    rw [within_iff]
    unfold Sweep.step at hk
    split at hk
    · cases hk
    · have := (List.getElem?_eq_some_iff.1 hk).1
      omega
  rw [carryRunStep, if_neg (by simp [h]), if_neg (by simp [inside])]

section
variable {k : Nat} {x : SweepStep} (hk : s.sweep.step k = some x)
include hk

theorem runStep_echo {key : Key} (hx : x.target = .station key) (hports : s.echoPorts key ≠ []) :
    (runStep k s).sweep = { s.sweep with
      run := some ⟨.single, k⟩, probeNumber := s.sweep.probeNumber + 1
      outstanding := some (.echo k (s.sweep.probeNumber + 1) key s.config.echoTimeout) } := by
  have begun : runStep k s = beginEcho k key (s.echoPorts key) (stepBegun k s) :=
    runSweep_echo (s := stepBegun k s) (r := ⟨.single, k⟩) rfl hk hx hports
  rw [begun, sweep_beginEcho]
  rfl

variable {p : Port} (hx : x.target = .port p)
include hx

/-- A loop that its port runs is outstanding. -/
theorem runStep_loop {t : State} (h : startLoop p x.probe (stepBegun k s) = (true, t)) :
    runStep k s = modSweep (fun w => { w with outstanding := some (.loop k x.probe none) }) t := by
  have step : (stepBegun k s).sweep.step k = some x := hk
  have begun : beginStep k x (stepBegun k s) =
      (none, modSweep (fun w => { w with outstanding := some (.loop k x.probe none) }) t) := by
    simp only [beginStep, hx, h]
  rw [runStep_eq, runSweep_at (s := stepBegun k s) (r := ⟨.single, k⟩) rfl step, begun]

/-- A LOOP-EXTERNAL at an IN-SERVICE port puts it in PROBING. -/
theorem runStep_probe (hs : s.serviceOf p = .inService) (hprobe : x.probe = .loopExternal) :
    let v := runStep k s
    v.serviceOf p = .probing ∧ v.loopMode p = .external ∧
      ((v.testOf p).map PortTest.purpose) = some .probe ∧ v.sweep.run = some ⟨.single, k⟩ ∧
      v.sweep.outstanding = some (.loop k .loopExternal none) := by
  let u := modService p (fun v => { v with state := .probing }) (stepBegun k s)
  let t := beginTest p .probe .external u
  have state : (stepBegun k s).serviceOf p = .inService := hs
  have started : startLoop p x.probe (stepBegun k s) = (true, t) := by
    simp only [startLoop, state, if_pos hprobe]
    rw [setService_waits (.inr rfl)]
  obtain ⟨timer, wait, record⟩ := service_beginTest p .probe .external u
  have sweep : t.sweep = (stepBegun k s).sweep := (atPort_beginTest p _ _ _).sweep
  intro v
  have done : v = _ := runStep_loop hk hx started
  rw [done]
  refine ⟨?_, ?_, ?_, ?_, by rw [hprobe]; rfl⟩
  · rw [State.serviceOf, modSweep_service, record]
    simp [u]
  · rw [loopMode_modSweep]
    exact loopMode_beginTest .external
  · rw [State.testOf, modSweep_service, record]
    simp
  · rw [modSweep_sweep, sweep]
    rfl

/-- On an ISOLATED or OFF port either loop runs directly. -/
theorem runStep_direct (hs : s.serviceOf p = .isolated ∨ s.serviceOf p = .off) :
    let v := runStep k s
    v.serviceOf p = s.serviceOf p ∧ v.loopMode p = x.probe.phase.mode ∧
      ((v.testOf p).map PortTest.purpose) = some .loop ∧
      v.sweep.outstanding = some (.loop k x.probe none) := by
  let t := beginTest p .loop x.probe.phase (stepBegun k s)
  have state : (stepBegun k s).serviceOf p = s.serviceOf p := rfl
  have started : startLoop p x.probe (stepBegun k s) = (true, t) := by
    rcases hs with e | e <;> simp only [startLoop, state, e, t]
  obtain ⟨timer, wait, record⟩ := service_beginTest p .loop x.probe.phase (stepBegun k s)
  intro v
  have done : v = _ := runStep_loop hk hx started
  rw [done]
  refine ⟨?_, ?_, ?_, rfl⟩
  · rw [State.serviceOf, modSweep_service, record]
    simp [State.serviceOf, stepBegun]
  · rw [loopMode_modSweep]
    exact loopMode_beginTest _
  · rw [State.testOf, modSweep_service, record]
    simp

/-- A LOOP-INTERNAL at an IN-SERVICE port is SKIPPED, and the engine is idle again. -/
theorem runStep_skipped (hs : s.serviceOf p = .inService) (hprobe : x.probe = .loopInternal)
    (hrun : s.sweep.run = none) (hwait : s.sweep.passWaiting = false) :
    runStep k s = bump (.sweep .stepsSkipped) (modStep k (fun x => { x with result := .skipped }) s) := by
  let u := stepBegun k s
  let skipped := bump (.sweep .stepsSkipped) (modStep k (fun x => { x with result := .skipped }) u)
  have state : u.serviceOf p = .inService := hs
  have step : u.sweep.step k = some x := hk
  have begun : beginStep k x u = (some .skipped, u) := by
    simp [beginStep, hx, startLoop, state, hprobe]
  have ended : advance (endStep k .skipped u) =
      modSweep (fun w => { w with run := none, passWaiting := false }) skipped :=
    advance_single (s := skipped) (n := k) rfl hwait
  have ran : runStep k s = modSweep (fun w => { w with run := none, passWaiting := false }) skipped := by
    rw [runStep_eq, runSweep_at (s := u) (r := ⟨.single, k⟩) rfl step, begun]
    dsimp only
    rw [ended, runSteps_idle rfl]
  have engine : ({ skipped.sweep with run := none, passWaiting := false } : Sweep) =
      (modStep k (fun x => { x with result := .skipped }) s).sweep := by
    rw [← hrun, ← hwait]
    rfl
  rw [ran]
  exact congrArg (fun w => bump (.sweep .stepsSkipped) { s with sweep := w }) engine

end

/-! ### STOP-SWEEP (R183) -/

/-- The engine disabled and idle. -/
def disabled (s : State) : State :=
  modSweep (fun w => { w with enabled := false, run := none, timer := none, passWaiting := false }) s

theorem stopSweep_between (h : s.sweep.outstanding = none) : stopSweep s = disabled s := by
  have nothing : abandonProbe s = s := by simp only [abandonProbe, h]
  unfold stopSweep
  split
  · next hout => exact absurd (h.symm.trans hout) (by simp)
  · rw [nothing]
    rfl

/-- With a probe outstanding the step at the position is NOT-RUN. -/
theorem stopSweep_outstanding {r : SweepRun} {o : Probe} (hrun : s.sweep.run = some r)
    (hout : s.sweep.outstanding = some o) : stopSweep s = disabled (bump (.sweep .stepsNotRun)
      (modStep r.position (fun x => { x with result := .notRun }) (abandonProbe s))) := by
  simp only [stopSweep, hrun, hout]
  rfl

theorem abandonProbe_echo {n : Nat} {b : Byte} {key : Key} {tm : Nat}
    (h : s.sweep.outstanding = some (.echo n b key tm)) :
    abandonProbe s = modSweep (fun w => { w with outstanding := none, lastEcho := some (b, key) }) s := by
  simp only [abandonProbe, h]

theorem abandonProbe_loop {n : Nat} {kind : ProbeKind} {o : Option Bool} {x : SweepStep} {p : Port}
    (h : s.sweep.outstanding = some (.loop n kind o)) (hstep : s.sweep.step n = some x)
    (hx : x.target = .port p) :
    abandonProbe s = stopLoop p (modSweep (fun w => { w with outstanding := none }) s) := by
  have step : (modSweep (fun w => { w with outstanding := none }) s).sweep.step n = some x := hstep
  simp only [abandonProbe, h, step, hx]

/-- A LOOP that STOP-SWEEP abandons is stopped at its port, and its step is NOT-RUN, which is counted. -/
theorem stopSweep_loop {r : SweepRun} {kind : ProbeKind} {o : Option Bool} {x : SweepStep} {p : Port}
    {v : PortTest} (hrun : s.sweep.run = some r) (hout : s.sweep.outstanding = some (.loop r.position kind o))
    (hstep : s.sweep.step r.position = some x) (hx : x.target = .port p) (hv : s.testOf p = some v)
    (hloop : v.purpose ≠ .entry) :
    ∃ a, LoopStopped p (modSweep (fun w => { w with outstanding := none }) s) a ∧
      stopSweep s = disabled (bump (.sweep .stepsNotRun)
        (modStep r.position (fun x => { x with result := .notRun }) a)) := by
  refine ⟨_, loopStopped_stopLoop (v := v) hv hloop, ?_⟩
  rw [stopSweep_outstanding hrun hout, abandonProbe_loop hout hstep hx]

end

/-- What STOP-SWEEP leaves of a LOOP: its step is NOT-RUN and the engine idle, and its port is as the stopped
loop has left it. -/
theorem stopSweep_loop_leaves {s a : State} {p : Port} {n : Nat}
    (stopped : LoopStopped p (modSweep (fun w => { w with outstanding := none }) s) a) :
    let t := disabled (bump (.sweep .stepsNotRun) (modStep n (fun x => { x with result := .notRun }) a))
    t.sweep = { s.sweep with
        run := none, enabled := false, timer := none, passWaiting := false, outstanding := none
        steps := s.sweep.steps.modify (n - 1) (fun x => { x with result := .notRun }) } ∧
      countedUp (.sweep .stepsNotRun) 1 s t ∧
      t.count (.service p .probesPass) = s.count (.service p .probesPass) ∧
      t.count (.service p .probesFail) = s.count (.service p .probesFail) ∧
      t.service = a.service ∧ t.slots = a.slots ∧ t.queues = a.queues ∧ t.loopMode p = a.loopMode p := by
  let j := modStep n (fun x => { x with result := .notRun }) a
  have kept : ∀ c : Counter, c.framed = false → (∀ k, c ≠ .mgmt k) → c ≠ .service p .testFrameLost →
      j.count c = s.count c := stopped.count
  have others : ∀ c : Counter, c ≠ .sweep .stepsNotRun → (bump (.sweep .stepsNotRun) j).count c = j.count c :=
    fun c hc => count_bump_other hc.symm j
  have engine : a.sweep = { s.sweep with outstanding := none } := stopped.sweep
  refine ⟨?_, ?_, ?_, ?_, rfl, rfl, rfl, ?_⟩
  · simp [disabled, modStep, engine]
  · have up : (bump (.sweep .stepsNotRun) j).count (.sweep .stepsNotRun) = _ := countedUp_bump _ j
    rw [kept _ rfl (by simp) (by simp)] at up
    exact up
  · exact (others _ (by simp)).trans (kept _ rfl (by simp) (by simp))
  · exact (others _ (by simp)).trans (kept _ rfl (by simp) (by simp))
  · exact (loopMode_modSweep p _ _).trans ((loopMode_bumpBy p _ 1 j).trans (loopMode_modSweep p _ a))

/-! ### The statement -/

section
variable {s : State} {q : Request} {rest : List Request}

theorem startSweep_done {given : Option Nat} {v : Nat} (h : s.headIs q rest (.startSweep given))
    (hv : given = some v ∧ v ≤ 3600 ∨ given = none ∧ v = s.sweep.interval) (hrun : s.sweep.run = none) :
    exec .startSweep s = .next (answered q .done [] (startSweep v (becomeCurrent q rest s))) := by
  have idle : ¬ (becomeCurrent q rest s).sweep.run.isSome = true := by
    rw [becomeCurrent_sweep, hrun]
    decide
  rw [exec_startSweep h, carryStartSweep_in_range (s := becomeCurrent q rest s) hv, if_neg idle]
  rfl

theorem runStep_done {k : Nat} {x : SweepStep} (h : s.headIs q rest (.runStep k)) (hrun : s.sweep.run = none)
    (hk : s.sweep.step k = some x) :
    exec .runStep s = .next (answered q .done [] (runStep k (becomeCurrent q rest s))) := by
  rw [exec_runStep h, carryRunStep_done (s := becomeCurrent q rest s) hrun hk]
  rfl

end

/-- Settles O50, request by request. -/
theorem sweepRequestsDriveTheEngine : Obligations.SweepRequestsDriveTheEngine := by
  unfold Obligations.SweepRequestsDriveTheEngine
  intro s q rest u w
  refine ⟨fun ts h => ⟨fun hrun => ?_, fun hrun hlen hts => ?_⟩, fun v h hv => ?_,
    fun given v h hv => ⟨fun hrun => ?_, fun hrun hsteps => ?_, fun x key hrun hstep hx hports => ?_⟩,
    fun k h => ⟨fun hrun => ?_, fun hrun hk => ?_, fun x key hrun hk hx hports => ?_,
      fun x p hrun hk hx => ⟨fun hs hprobe _ => ?_, fun hs hprobe hwait => ?_, fun hs _ hprobe => ?_⟩⟩,
    fun h => ⟨fun hout => ?_, fun k b key tm r hrun hout => ?_,
      fun r k x p v hrun hout hstep hx hv hloop => ?_⟩⟩
  · rw [exec_loadSteps h, carryLoadSteps_busy ts (s := u) hrun]
    rfl
  · rw [exec_loadSteps h, carryLoadSteps_done (s := u) hrun hlen hts]
    rfl
  · rw [exec_startSweep h, carryStartSweep_range hv]
    rfl
  · rw [exec_startSweep h, carryStartSweep_in_range (s := u) hv,
      if_pos (show u.sweep.run.isSome = true from hrun)]
    rfl
  · exact ⟨startSweep v u, startSweep_done h hv hrun, startSweep_empty (s := u) v hsteps⟩
  · have engine := startSweep_echo (s := u) v hstep hx hports
    refine ⟨startSweep v u, startSweep_done h hv hrun, ?_, ?_, ?_, ?_, ?_⟩ <;> rw [engine]
    rfl
  · rw [exec_runStep h, carryRunStep_busy k (s := u) hrun]
    rfl
  · rw [exec_runStep h, carryRunStep_notFound (s := u) hrun hk]
    rfl
  · have engine := runStep_echo (s := u) hk hx hports
    exact ⟨runStep k u, runStep_done h hrun hk, by rw [engine], by rw [engine]; rfl, by rw [engine]; rfl⟩
  · exact ⟨runStep k u, runStep_done h hrun hk, runStep_probe (s := u) hk hx hs hprobe⟩
  · rw [runStep_done h hrun hk, runStep_skipped (s := u) hk hx hs hprobe hrun hwait]
    rfl
  · obtain ⟨hstate, hmode, hpurpose, hout⟩ := runStep_direct (s := u) hk hx hs
    refine ⟨runStep k u, runStep_done h hrun hk, hstate, ?_, hpurpose, hout⟩
    rw [hmode]
    rcases hprobe with e | e <;> rw [e] <;> rfl
  · rw [exec_stopSweep h, stopSweep_between (s := u) hout]
    rfl
  · refine ⟨stopSweep u, exec_stopSweep h, rfl, ?_⟩
    rw [stopSweep_outstanding (s := u) hrun hout, abandonProbe_echo (s := u) hout]
    exact ⟨rfl, rfl, rfl, rfl, rfl⟩
  · obtain ⟨a, stopped, done⟩ := stopSweep_loop (s := u) hrun hout hstep hx hv hloop
    obtain ⟨hsweep, hcount, hpass, hfail, hservice, hslots, hqueues, hmode⟩ :=
      stopSweep_loop_leaves (s := u) (n := r.position) stopped
    intro held
    refine ⟨stopSweep u, exec_stopSweep h, ?_⟩
    rw [done, State.serviceOf, State.testOf, State.entryTest, State.testOf, hservice, hslots, hqueues, hmode]
    refine ⟨hsweep, hcount, hpass, hfail, stopped.probing, fun hs hn => stopped.stays (fun hp => ?_) hn,
      stopped.ended, stopped.held⟩
    rcases hs with e | e <;> exact absurd (e.symm.trans hp) (by decide)

end Sys2Proof.Machine

/-! The frame memory and the fault monitor leave the sweep engine alone. -/

namespace Sys2Proof.Machine

theorem sweep_of_ports {s t : State} (h : t.ports = s.ports) : t.sweep = s.sweep := by
  simp only [State.ports, Prod.mk.injEq] at h
  obtain ⟨-, -, -, -, -, -, -, -, -, -, hsweep, -⟩ := h
  exact hsweep

theorem sweep_ite {c : Prop} [Decidable c] {s t u : State} (ht : t.sweep = s.sweep) (hu : u.sweep = s.sweep) :
    (if c then t else u).sweep = s.sweep := by
  split
  · exact ht
  · exact hu

/-! ### A reception's record (R2, R22, R34) -/

theorem sweep_startRecord (s : State) : (startRecord s).2.sweep = s.sweep := by
  unfold startRecord
  split
  · rfl
  · exact sweep_ite ((sweep_raise ..).trans (newRecord_sweep ..)) (newRecord_sweep ..)

theorem sweep_storeByte (rid : Nat) (b : Byte) (s : State) : (storeByte rid b s).2.sweep = s.sweep := by
  unfold storeByte
  split
  · rfl
  · split
    · rfl
    · split
      · rfl
      · exact sweep_ite (sweep_raise ..) rfl

theorem sweep_dropRecord (rid : Nat) (s : State) : (dropRecord rid s).sweep = s.sweep := releaseRef_sweep ..

/-! ### Jobs that arrive (R109, R114) -/

theorem sweep_abortWhere (test : Job → Bool) (why : AbortReason) (slots : List Nat) (s : State) :
    (abortWhere test why slots s).sweep = s.sweep := sweep_of_ports (ports_abortWhere test why slots s)

theorem sweep_arrivalSecond (s : State) : (arrivalSecond s).sweep = s.sweep := sweep_abortWhere ..

/-! ### Quarantine and the station work (R145, R151 to R157) -/

theorem sweep_newsTake (n : QuarantineNews) (s : State) : (n.take s).sweep = s.sweep := by
  unfold QuarantineNews.take
  refine (sweep_abortWhere ..).trans ?_
  split
  · exact (bump_sweep ..).trans (sweep_raise ..)
  · rfl

theorem sweep_setQuarantined (i minutes : Nat) (s : State) : (setQuarantined i minutes s).sweep = s.sweep :=
  (sweep_of_same (purgeSource_same i _)).trans (modStation_sweep ..)

theorem sweep_quarantineStation (i : Nat) (cause : FaultCount) (s : State) :
    (quarantineStation i cause s).2.sweep = s.sweep := by
  unfold quarantineStation
  dsimp only
  split
  · exact (bump_sweep ..).trans (sweep_setQuarantined ..)
  · exact sweep_setQuarantined ..

theorem sweep_suspect (i : Nat) (s : State) : (suspect i s).sweep = s.sweep :=
  (bump_sweep ..).trans (modStation_sweep ..)

theorem sweep_markSuspect (k : Key) (s : State) : (markSuspect k s).sweep = s.sweep := by
  unfold markSuspect
  split
  · exact sweep_ite (sweep_suspect ..) rfl
  · exact bump_sweep ..

theorem sweep_sweepQuarantine (k : Key) (s : State) : (sweepQuarantine k s).sweep = s.sweep := by
  unfold sweepQuarantine
  split
  · exact (sweep_newsTake ..).trans (sweep_quarantineStation ..)
  · exact bump_sweep ..

theorem sweep_atEach {f : Nat → State → State} (hf : ∀ i s, (f i s).sweep = s.sweep) :
    ∀ (is : List Nat) (s : State), (atEach f is s).sweep = s.sweep
  | [], _ => rfl
  | i :: is, s => (sweep_atEach hf is (f i s)).trans (hf i s)

theorem sweep_windowStation (i : Nat) (s : State) : (windowStation i s).sweep = s.sweep := by
  unfold windowStation
  split
  · rfl
  · refine (modStation_sweep ..).trans (sweep_ite ?_ (sweep_ite ?_ rfl))
    · exact (bump_sweep ..).trans (modStation_sweep ..)
    · exact (bump_sweep ..).trans ((sweep_raise ..).trans (modStation_sweep ..))

theorem sweep_windowExpiry (s : State) : (windowExpiry s).sweep = s.sweep :=
  (beginWindow_sweep ..).trans (sweep_atEach sweep_windowStation ..)

theorem sweep_minuteStation (i : Nat) (s : State) : (minuteStation i s).sweep = s.sweep := by
  unfold minuteStation
  split
  · rfl
  · exact sweep_ite (sweep_ite ((bump_sweep ..).trans (modStation_sweep ..)) (modStation_sweep ..)) rfl

end Sys2Proof.Machine

/-! The segments and the links leave the sweep engine alone where they make no report. -/

namespace Sys2Proof.Machine

/-! ### Segments (R1, R2, R6, R7, R10) -/

theorem sweep_setSegRx (x : Seg) (r : SegRx) (s : State) : (setSegRx x r s).sweep = s.sweep := modSeg_sweep ..

theorem sweep_beginSegReception (x : Seg) (looped : Bool) (s : State) :
    (beginSegReception x looped s).sweep = s.sweep := by
  have started := sweep_startRecord s
  unfold beginSegReception
  split <;> next e =>
    rw [e] at started
    simpa only [sweep_setSegRx, bump_sweep] using started

theorem sweep_takeSegByte (x : Seg) (b : Byte) (s : State) : (takeSegByte x b s).sweep = s.sweep := by
  unfold takeSegByte
  split
  · next r _ =>
    have stored := sweep_storeByte r.record b s
    dsimp only
    split
    · exact sweep_setSegRx ..
    · split
      · exact sweep_setSegRx ..
      · split
        · split <;> next e =>
            rw [e] at stored
            simpa only [sweep_setSegRx, bump_sweep, sweep_dropRecord] using stored
        · split <;> exact sweep_setSegRx ..
  · rfl

theorem sweep_carrierRise (x : Seg) (s : State) : (carrierRise x s).sweep = s.sweep :=
  sweep_ite ((sweep_beginSegReception ..).trans (modSeg_sweep ..)) (modSeg_sweep ..)

theorem sweep_beginAttempt (x : Seg) (s : State) : (beginAttempt x s).sweep = s.sweep := modSeg_sweep ..

/-- The transmission's reference to the frame it has taken, where there is one. -/
theorem sweep_flightRef (p : Port) (s : State) :
    (match s.flying p with
      | some (_, rid) => addRef rid s
      | none => s).sweep = s.sweep := by
  split
  · exact addRef_sweep ..
  · rfl

theorem sweep_segmentTake (x : Seg) (s : State) : (segmentTake x s).sweep = s.sweep := by
  unfold segmentTake
  split
  · rfl
  · next f _ =>
    have taken := (sweep_flightRef (.seg x) _).trans
      (modSeg_sweep s x fun t => { t with inFlight := some f, attempts := 0, tx := .deferring })
    have begun := (sweep_beginAttempt x _).trans taken
    exact sweep_ite (sweep_ite ((sweep_beginSegReception ..).trans begun) begun) taken

theorem sweep_deferQuiet (x : Seg) (s : State) : (deferQuiet x s).sweep = s.sweep :=
  sweep_ite (sweep_beginAttempt ..) rfl

theorem sweep_retryExpiry (x : Seg) (s : State) : (retryExpiry x s).sweep = s.sweep :=
  sweep_ite (modSeg_sweep ..) rfl

/-! ### A link's line (R18, R19, R29) -/

theorem sweep_tryTraining (l : Link) (s : State) : (tryTraining l s).sweep = s.sweep :=
  sweep_ite (modLink_sweep ..) rfl

theorem sweep_signalReported (l : Link) (s : State) : (signalReported l s).sweep = s.sweep :=
  (sweep_tryTraining ..).trans (modLink_sweep ..)

theorem sweep_signalPresent (l : Link) (s : State) : (signalPresent l s).sweep = s.sweep :=
  sweep_ite rfl (sweep_signalReported ..)

theorem sweep_pauseExpiry (l : Link) (s : State) : (pauseExpiry l s).sweep = s.sweep :=
  sweep_ite ((sweep_tryTraining ..).trans (modLink_sweep ..)) rfl

theorem sweep_linkConnected (l : Link) (s : State) : (linkConnected l s).sweep = s.sweep := by
  unfold linkConnected
  split
  · split
    · exact (atPort_startPhase _ _ s).sweep
    · rfl
  · rfl

theorem sweep_trained (l : Link) (s : State) : (trained l s).sweep = s.sweep :=
  sweep_ite ((sweep_linkConnected ..).trans (modLink_sweep ..)) rfl

theorem sweep_trainingTimeout (l : Link) (s : State) : (trainingTimeout l s).sweep = s.sweep :=
  sweep_ite ((bump_sweep ..).trans (modLink_sweep ..)) rfl

theorem sweep_reportSignals (i : Iface) (s : State) : (reportSignals i s).sweep = s.sweep := by
  have told : ∀ (ls : List Link) (s : State),
      (ls.foldl (fun s l => if (s.links.get l).lineSignal then signalReported l s else s) s).sweep =
        s.sweep := by
    intro ls
    induction ls with
    | nil => exact fun _ => rfl
    | cons l ls ih =>
      intro s
      exact (ih _).trans (sweep_ite (sweep_signalReported ..) rfl)
  exact told i.links s

theorem sweep_clockHoldExpiry (i : Iface) (s : State) : (clockHoldExpiry i s).sweep = s.sweep :=
  sweep_ite ((sweep_reportSignals ..).trans (modIface_sweep ..)) rfl

/-! ### Frames on a link (R21, R22, R25, R26) -/

theorem sweep_setLinkRx (l : Link) (r : LinkRx) (s : State) : (setLinkRx l r s).sweep = s.sweep :=
  modLink_sweep ..

theorem sweep_beginLinkReception (l : Link) (looped : Bool) (s : State) :
    (beginLinkReception l looped s).sweep = s.sweep := by
  have started := sweep_startRecord s
  unfold beginLinkReception
  split <;> next e =>
    rw [e] at started
    simpa only [sweep_setLinkRx, bump_sweep] using started

theorem sweep_takeLinkByte (l : Link) (b : Byte) (s : State) : (takeLinkByte l b s).sweep = s.sweep := by
  unfold takeLinkByte
  split
  · next r _ =>
    have stored := sweep_storeByte (r.roll b).record b s
    dsimp only
    split
    · exact sweep_setLinkRx ..
    · split
      · split <;> next e =>
          rw [e] at stored
          simpa only [sweep_setLinkRx, bump_sweep, sweep_dropRecord] using stored
      · exact sweep_setLinkRx ..
  · rfl

theorem sweep_linkByte (l : Link) (b : Byte) (s : State) : (linkByte l b s).sweep = s.sweep :=
  sweep_ite rfl (sweep_takeLinkByte ..)

theorem sweep_linkTake (l : Link) (s : State) : (linkTake l s).sweep = s.sweep := by
  unfold linkTake
  split
  · rfl
  · next f _ =>
    have taken := (sweep_flightRef (.link l) _).trans
      (modLink_sweep s l fun t => { t with inFlight := some f, tx := .sending })
    exact sweep_ite ((sweep_beginLinkReception ..).trans ((modLink_sweep ..).trans taken))
      ((modLink_sweep ..).trans taken)

theorem sweep_gapExpiry (l : Link) (s : State) : (gapExpiry l s).sweep = s.sweep :=
  sweep_ite (modLink_sweep ..) rfl

/-! ### A port's service (R162, R164, R168, R170) -/

theorem sweep_holdExpiry (p : Port) (s : State) : (holdExpiry p s).sweep = s.sweep := by
  unfold holdExpiry
  dsimp only
  split
  · split
    · exact modService_sweep ..
    · exact sweep_enterTesting ..
  · rfl

theorem sweep_frameRetry (p : Port) (s : State) : (frameRetry p s).sweep = s.sweep := by
  unfold frameRetry
  split
  · split
    · exact (atPort_placeTest p s).sweep
    · rfl
  · rfl

theorem sweep_afterLoop (p : Port) (s : State) : (afterLoop p s).sweep = s.sweep := by
  have back : (if s.serviceOf p = .probing then setService p .inService s else s).sweep = s.sweep :=
    sweep_ite (sweep_setService ..) rfl
  exact sweep_ite ((sweep_enterTesting ..).trans back) back

theorem sweep_stopLoop (p : Port) (s : State) : (stopLoop p s).sweep = s.sweep := by
  unfold stopLoop
  split
  · split
    · exact (sweep_afterLoop ..).trans (atPort_endTest p s).sweep
    · rfl
  · rfl

end Sys2Proof.Machine

/-! The printer lines and the spool requests leave the sweep engine alone. -/

namespace Sys2Proof.Machine

/-! ### Stalls and the service of a job (R124, R126 to R131, R133, R134) -/

theorem sweep_modLineJob (n : Line) (f : Job → Job) (s : State) : (modLineJob n f s).sweep = s.sweep := by
  unfold modLineJob
  split
  · exact modJob_sweep ..
  · rfl

theorem sweep_enterStall (n : Line) (c : StallCause) (s : State) : (enterStall n c s).sweep = s.sweep := by
  simp only [enterStall, sweep_raise, bump_sweep, sweep_lineJobState, modLine_sweep]

theorem sweep_feed (n : Line) (s : State) : (feed n s).sweep = s.sweep := by
  simp only [feed, sweep_judgeInputs, sweep_lineJobState, modLine_sweep]

theorem sweep_endInputStall (n : Line) (s : State) : (endInputStall n s).sweep = s.sweep := by
  unfold endInputStall
  dsimp only
  split
  · exact sweep_ite (sweep_feed ..) rfl
  · rfl

theorem sweep_stallPending (n : Line) (c : StallCause) (s : State) : (stallPending n c s).sweep = s.sweep :=
  (sweep_endInputStall ..).trans (sweep_enterStall ..)

theorem sweep_freeLine (n : Line) (s : State) : (freeLine n s).sweep = s.sweep := modLine_sweep ..

theorem sweep_afterByte (n : Line) (s : State) : (afterByte n s).sweep = s.sweep := by
  unfold afterByte
  split
  · exact sweep_stallPending ..
  · exact sweep_judgeInputs ..

theorem sweep_copyCheck (n : Line) (s : State) : (copyCheck n s).sweep = s.sweep := by
  unfold copyCheck
  split
  · rfl
  · split
    · rfl
    · refine sweep_ite (sweep_afterByte ..) (sweep_ite ?_ ?_)
      · exact (sweep_endLineJob ..).trans (bump_sweep ..)
      · exact (sweep_afterByte ..).trans ((modJob_sweep ..).trans (bump_sweep ..))

theorem sweep_ackPulse (n : Line) (s : State) : (ackPulse n s).sweep = s.sweep := by
  have printed := (sweep_modLineJob n (fun j => { j with printed := j.printed + 1 }) _).trans
    ((bump_sweep _ (.line n .bytesAcknowledged)).trans (modLine_sweep s n LineState.byteEnded))
  exact sweep_ite (sweep_ite ((sweep_endLineJob ..).trans printed) ((sweep_copyCheck ..).trans printed))
    (bump_sweep ..)

theorem sweep_ackTimeout (n : Line) (s : State) : (ackTimeout n s).sweep = s.sweep := by
  have timedOut := (bump_sweep _ (.line n .ackTimeouts)).trans (modLine_sweep s n LineState.byteEnded)
  refine sweep_ite (sweep_ite ((sweep_endLineJob ..).trans timedOut) ?_) rfl
  split
  · exact (sweep_stallPending ..).trans timedOut
  · exact (sweep_enterStall ..).trans timedOut

theorem sweep_busyLimit (n : Line) (s : State) : (busyLimit n s).sweep = s.sweep :=
  sweep_ite ((sweep_enterStall ..).trans (bump_sweep ..)) rfl

theorem sweep_resume (n : Line) (s : State) : (resume n s).sweep = s.sweep := by
  unfold resume
  dsimp only
  split
  · exact sweep_ite (sweep_feed ..) rfl
  · rfl

/-! ### The INIT pulse and the inputs (R126, R127, R129, R135, R136, R144) -/

theorem sweep_startInit (n : Line) (s : State) : (startInit n s).sweep = s.sweep :=
  (sweep_lineJobState ..).trans (modLine_sweep ..)

theorem sweep_leaveResetting (n : Line) (s : State) : (leaveResetting n s).sweep = s.sweep :=
  sweep_ite (sweep_feed ..) ((sweep_choose ..).trans (modLine_sweep ..))

theorem sweep_resetTaken (n : Line) (s : State) : (resetTaken n s).sweep = s.sweep := by
  refine (sweep_startInit ..).trans (sweep_ite ?_ (bump_sweep ..))
  split
  · exact (modLine_sweep ..).trans ((sweep_endJob ..).trans (bump_sweep ..))
  · exact bump_sweep ..

theorem sweep_initPulseEnd (n : Line) (s : State) : (initPulseEnd n s).sweep = s.sweep :=
  sweep_ite (sweep_ite ((sweep_leaveResetting ..).trans (modLine_sweep ..)) (modLine_sweep ..)) rfl

theorem sweep_inputChanged (n : Line) (bad : Option StallCause) (s : State) :
    (inputChanged n bad s).sweep = s.sweep := by
  unfold inputChanged
  dsimp only
  split
  · refine sweep_ite ?_ (sweep_judgeInputs ..)
    split
    · exact modLine_sweep ..
    · rfl
  · exact sweep_endInputStall ..
  · exact sweep_ite rfl (modLine_sweep ..)
  · exact sweep_ite ((sweep_choose ..).trans (modLine_sweep ..)) rfl
  · exact sweep_ite (sweep_leaveResetting ..) rfl
  · rfl
  · rfl

theorem sweep_clearLine (n : Line) (s : State) : (clearLine n s).sweep = s.sweep :=
  sweep_ite (modLine_sweep ..) ((sweep_startInit ..).trans (modLine_sweep ..))

/-! ### SET-LINE and ROTATE-LINE (R137, R141) -/

theorem sweep_enableLine (n : Line) (s : State) : (enableLine n s).sweep = s.sweep :=
  sweep_ite ((sweep_startInit ..).trans (modLine_sweep ..)) rfl

theorem sweep_applySetLine (n : Line) (enable rotating : Option Bool) (mask : Option (BitVec 4)) (s : State) :
    (applySetLine n enable rotating mask s).sweep = s.sweep := by
  have enabled : (match enable with
      | some true => enableLine n s
      | some false => disableLine n s
      | none => s).sweep = s.sweep := by
    split
    · exact sweep_enableLine ..
    · exact modLine_sweep ..
    · rfl
  have put := (modLine_sweep _ n fun t => { t with
    rotating := rotating.getD t.rotating, holdMask := mask.getD t.holdMask }).trans enabled
  exact sweep_ite ((sweep_choose ..).trans put) put

theorem sweep_rotateTo (n : Line) (k : Fin 4) (s : State) : (rotateTo n k s).sweep = s.sweep :=
  (sweep_choose ..).trans (modLine_sweep ..)

/-! ### The job requests (R116 to R119) -/

theorem sweep_holdJob (slot : Nat) (j : Job) (s : State) : (holdJob slot j s).2.sweep = s.sweep := by
  unfold holdJob
  cases j.state with
  | arriving | ready => exact modJob_sweep ..
  | held | printing | stalled | draining => rfl

theorem sweep_releaseJob (slot : Nat) (j : Job) (s : State) : (releaseJob slot j s).sweep = s.sweep := by
  unfold releaseJob
  split
  · exact modJob_sweep ..
  · rw [sweep_announce, sweep_joinReady, modJob_sweep]
  · rfl

theorem sweep_moveJob (slot : Nat) (j : Job) (t : Target) (l : Fin 4) (s : State) :
    (moveJob slot j t l s).2.sweep = s.sweep := by
  unfold moveJob
  split
  · split
    · rfl
    · rw [sweep_announce, sweep_joinReady, modJob_sweep]
  · exact modJob_sweep ..
  · rfl

/-- A line's job ends at the flush as at a cancel, but for the choice of the line. -/
theorem sweep_flushLine (n : Line) (e : JobEnd) (s : State) : (askLine freeLine n e s).sweep = s.sweep := by
  have ended : (endLineJobBy freeLine n e s).sweep = s.sweep := by
    unfold endLineJobBy
    split
    · exact (sweep_freeLine ..).trans (sweep_endJob ..)
    · rfl
  unfold askLine
  dsimp only
  split
  · exact sweep_ite ((sweep_lineJobState ..).trans (modLine_sweep ..)) ended
  · exact ended
  · split
    · exact (modLine_sweep ..).trans (sweep_endJob ..)
    · rfl
  · rfl

theorem sweep_flushJob (slot : Nat) (e : JobEnd) (s : State) :
    (askEndBy freeLine slot e s).sweep = s.sweep := by
  unfold askEndBy
  split
  · rfl
  · next j _ =>
    cases j.state with
    | arriving | ready | held => exact sweep_endJob ..
    | printing | stalled =>
      dsimp only
      split
      · exact (sweep_flushLine ..).trans (modJob_sweep ..)
      · exact modJob_sweep ..
    | draining => rfl

theorem sweep_flushSlots : ∀ (slots : List Nat) (ended left : Nat) (s : State),
    (flushSlots slots ended left s).2.2.sweep = s.sweep
  | [], _, _, _ => rfl
  | slot :: rest, ended, left, s => by
    have flushed := sweep_flushJob slot (.aborted .flushed) s
    unfold flushSlots
    split
    · exact sweep_flushSlots rest ..
    · dsimp only
      split <;> exact (sweep_flushSlots rest ..).trans flushed

end Sys2Proof.Machine

/-! The directory and the save leave the sweep engine alone; what the load's end and CLEAR-ALL leave of it. -/

namespace Sys2Proof.Machine

/-! ### Entries removed (R60, R65, R66, R71, R78) -/

theorem sweep_removeAll (c : DirCount) : ∀ (is : List Nat) (s : State), (removeAll c is s).sweep = s.sweep
  | [], _ => rfl
  | _ :: is, _ => (sweep_removeAll c is _).trans ((bump_sweep ..).trans (removeEntry_sweep ..))

theorem sweep_ageSecond (s : State) : (ageSecond s).sweep = s.sweep := sweep_ite rfl (sweep_removeAll ..)

theorem sweep_purgeLearned (s : State) : (purgeLearned s).2.sweep = s.sweep := sweep_removeAll ..

theorem sweep_clearDirectory (s : State) : (clearDirectory s).sweep = s.sweep :=
  sweep_atEach (fun i s => removeEntry_sweep s i) ..

theorem sweep_purgeGood (is : List Nat) (s : State) : (purgeGood is s).sweep = s.sweep := by
  unfold purgeGood
  induction is generalizing s with
  | nil => rfl
  | cons i is ih => exact (ih _).trans (sweep_ite rfl (sweep_of_same (purgeSource_same i s)))

theorem sweep_takeIndex {target : Option Nat} {i : Nat} {s t : State} (x : takeIndex target s = some (i, t)) :
    t.sweep = s.sweep := by
  unfold takeIndex at x
  split at x
  · cases x
    rfl
  · split at x
    · cases x
      rfl
    · split at x
      · cases x
        exact (bump_sweep ..).trans (removeEntry_sweep ..)
      · cases x

/-! ### Edits (R63 to R69) -/

theorem sweep_writeStation {e : StationEdit} {home : Option Port} {i : Nat} {news : List QuarantineNews}
    {s t : State} (x : writeStation e home s = some (i, news, t)) : t.sweep = s.sweep := by
  unfold writeStation at x
  dsimp only at x
  split at x
  · cases x
  · next h =>
    have taken := (sweep_takeIndex h).trans
      ((sweep_removeAll ..).trans (sweep_ite (sweep_purgeGood ..) rfl))
    split at x <;> cases x
    · exact (sweep_of_same (purgeSource_same ..)).trans ((putEntry_sweep ..).trans taken)
    · exact (putEntry_sweep ..).trans taken

section
variable {r : Option Nat} {news : List QuarantineNews} {s t : State}

theorem sweep_editStation {e : StationEdit} (x : editStation e s = .applied r news t) :
    t.sweep = s.sweep := by
  unfold editStation at x
  grind [sweep_writeStation]

theorem sweep_editAlias {e : AliasEdit} (x : editAlias e s = .applied r news t) : t.sweep = s.sweep := by
  have taken : ∀ {target : Option Nat} {keys : List Nat} {i : Nat} {u : State},
      takeIndex target (removeAll .takenOver keys s) = some (i, u) → u.sweep = s.sweep :=
    fun h => (sweep_takeIndex h).trans (sweep_removeAll ..)
  unfold editAlias at x
  grind [putEntry_sweep]

theorem sweep_editDelete {index : Byte} (x : editDelete index s = .applied r news t) : t.sweep = s.sweep := by
  unfold editDelete at x
  grind [removeEntry_sweep]

theorem sweep_editStationAt {index : Byte} {f : State → List QuarantineNews × State}
    (hf : (f s).2.sweep = s.sweep) (x : editStationAt index f s = .applied r news t) : t.sweep = s.sweep := by
  unfold editStationAt at x
  grind

theorem sweep_editRun {e : Edit} (x : e.run s = .applied r news t) : t.sweep = s.sweep := by
  unfold Edit.run at x
  cases e with
  | setStation e => exact sweep_editStation x
  | setAlias e => exact sweep_editAlias x
  | delete i => exact sweep_editDelete x
  | setRights i m p =>
    refine sweep_editStationAt ?_ x
    exact modStation_sweep ..
  | release i =>
    refine sweep_editStationAt ?_ x
    exact modStation_sweep ..
  | quarantine i =>
    refine sweep_editStationAt ?_ x
    exact sweep_quarantineStation ..

end

theorem sweep_takeNews : ∀ (ns : List QuarantineNews) (s : State), (takeNews ns s).sweep = s.sweep
  | [], _ => rfl
  | n :: ns, s => (sweep_takeNews ns _).trans (sweep_newsTake n s)

theorem sweep_takeEdit (e : Edit) (s : State) : (takeEdit e s).sweep = s.sweep := by
  unfold takeEdit
  split
  · next x => exact (sweep_takeNews ..).trans (sweep_editRun x)
  · rfl

theorem sweep_runBatch : ∀ {es : List Edit} {k n m : Nat} {took : List Nat} {news : List QuarantineNews}
    {edits ignored : Nat} {all : List Nat} {s t : State},
    runBatch es k n m took news s = .applied edits ignored all t → t.sweep = s.sweep
  | [], _, _, _, _, _, _, _, _, _, _, x => by
    cases x
    exact sweep_takeNews ..
  | e :: es, _, _, _, _, _, _, _, _, _, _, x => by
    unfold runBatch at x
    split at x
    · cases x
    · exact sweep_runBatch x
    · next h => exact (sweep_runBatch x).trans (sweep_editRun h)

/-! ### The load's end (R144, R174, R194) -/

theorem sweep_loadEntries : ∀ (es : List (Nat × Entry)) (l : Loaded State),
    (loadEntries es l).1.sweep = l.1.sweep
  | [], _ => rfl
  | (i, e) :: es, (s, bad) => by
    unfold loadEntries
    split
    · exact sweep_loadEntries es _
    · exact (sweep_loadEntries es _).trans (putEntry_sweep ..)

theorem sweep_startLine (n : Line) (t : LineSetting) (s : State) : (startLine n t s).sweep = s.sweep :=
  sweep_ite ((sweep_enableLine ..).trans (modLine_sweep ..)) (modLine_sweep ..)

theorem sweep_startPort (p : Port) (on bcast accept : Bool) (s : State) :
    (startPort p on bcast accept s).sweep = s.sweep := by
  have ended := (modService_sweep _ p fun v => { v with bcast := bcast, accept := accept }).trans
    (atPort_endTest p s).sweep
  refine sweep_ite ((sweep_enterTesting ..).trans ended) ?_
  exact ((atPort_purgePort p .off _).sweep).trans ((sweep_setService ..).trans ended)

theorem sweep_atPorts {f : Port → State → State} (hf : ∀ p s, (f p s).sweep = s.sweep) :
    ∀ (ps : List Port) (s : State), (ps.foldl (fun s p => f p s) s).sweep = s.sweep
  | [], _ => rfl
  | p :: ps, s => (sweep_atPorts hf ps _).trans (hf p s)

/-- A load puts the sweep's settings in force, and no probe ends by it. -/
theorem outstanding_putInForce (d : Load) (s : State) :
    (putInForce d s).sweep.outstanding = s.sweep.outstanding := by
  unfold putInForce
  dsimp only
  rw [sweep_atPorts fun p s => sweep_startPort p _ _ _ s, sweep_startLine, sweep_startLine, beginWindow_sweep]
  rfl

/-! ### The save (R195) -/

theorem sweep_sendReply (q : Request) (st : Status) (results : List Byte) (s : State) :
    (sendReply q st results s).sweep = s.sweep := sweep_of_same (sendReply_same q st results s)

theorem sweep_saveComplete (r : ImageWrite) (s : State) : (saveComplete r s).sweep = s.sweep := by
  unfold saveComplete
  split
  · rfl
  · dsimp only
    split
    · exact (sweep_sendReply ..).trans (bump_sweep ..)
    · exact (sweep_sendReply ..).trans ((sweep_raise ..).trans (bump_sweep ..))

/-! ### The event mask and the counters (R192, R193) -/

theorem sweep_becomeCounting (s : State) : (becomeCounting raiseLowInNotice s).sweep = s.sweep :=
  sweep_ite rfl (sweep_of_same (makeNoticeWith_same (raiseWith_same (setFlag_same _) _) s))

theorem sweep_clearCounts : ∀ (cs : List Counter) (s : State), (clearCounts cs s).sweep = s.sweep
  | [], _ => rfl
  | _ :: cs, _ => sweep_clearCounts cs _

/-! ### CLEAR-ALL (R174, R185, R196) -/

theorem sweep_clearService (p : Port) (s : State) : (clearService p s).sweep = s.sweep := by
  have ended : (if (s.testOf p).isSome then endTest p s else s).sweep = s.sweep :=
    sweep_ite (atPort_endTest p s).sweep rfl
  have cleared := (modService_sweep _ p fun v => { v with
    holdTime := 5, failedTests := 0, cause := none, restoreDue := false }).trans
      ((atPort_purgePort p .clearAll _).sweep.trans ended)
  exact sweep_ite ((modService_sweep ..).trans cleared) ((sweep_enterTesting ..).trans cleared)

theorem sweep_clearPort (p : Port) (s : State) : (clearPort p s).sweep = s.sweep := by
  obtain ⟨u, aside, -, back, -, -⟩ := keepReceiver_around p (clearService p) s
  exact back.sweep.trans ((sweep_clearService p u).trans aside.sweep)

theorem sweep_loseHeld (s : State) : (loseHeld s).sweep = s.sweep := sweep_ite (bump_sweep ..) rfl

/-- CLEAR-ALL leaves the sweep engine as its own part of the clear does. -/
theorem sweep_clearBlocks (s : State) : (clearBlocks s).sweep = (clearSweep s).sweep := by
  unfold clearBlocks
  dsimp only
  rw [clearFlags_sweep, beginWindow_sweep, sweep_atPorts sweep_clearPort]
  unfold clearSweep
  simp only [modSweep_sweep, sweep_clearLine, clearJobs_sweep, sweep_clearDirectory]

theorem sweep_clearAll (q : Request) (s : State) : (clearAll q s).sweep = (clearSweep s).sweep := by
  have answered : ∀ u : State, (if u.serviceOf q.port = .off then sendReply q .done [] u
      else { u with heldReply := some q }).sweep = u.sweep := fun u => sweep_ite (sweep_sendReply ..) rfl
  refine (answered _).trans ?_
  rw [sweep_clearBlocks, clearSweep, clearSweep, modSweep_sweep, modSweep_sweep, sweep_loseHeld]

end Sys2Proof.Machine

/-! The sweep engine takes every result it is handed: none waits after its own work. -/

namespace Sys2Proof.Machine

/-! ### What says that no result waits -/

theorem resultWaits_of_outstanding {s t : State} (h : t.sweep.outstanding = s.sweep.outstanding) :
    t.resultWaits = s.resultWaits := by
  unfold State.resultWaits
  rw [h]

theorem resultWaits_of_sweep {s t : State} (h : t.sweep = s.sweep) : t.resultWaits = s.resultWaits :=
  resultWaits_of_outstanding (congrArg Sweep.outstanding h)

theorem resultWaits_of_none {s : State} (h : s.sweep.outstanding = none) : s.resultWaits = false := by
  unfold State.resultWaits
  rw [h]

/-! ### Fail actions and the end of a step (R181) -/

section
variable {s : State}

/-- With no probe outstanding an isolation hands the engine nothing. -/
theorem sweep_isolate (p : Port) (c : IsolationCause) (h : s.sweep.outstanding = none) :
    (isolate p c s).sweep = s.sweep := by
  by_cases hp : s.unreachable p
  · rw [isolate_unreachable c hp]
    exact bump_sweep ..
  · rw [isolate_reached c hp]
    exact (sweep_enterIsolated ..).trans (sweep_loopCut (.inl h))

/-- A fail action hands the engine no result: no probe is outstanding, or its step is a line's and isolates no
port. -/
def State.actsQuietly (s : State) (t : StepTarget) : Prop := s.sweep.outstanding = none ∨ ∃ n, t = .line n

theorem sweep_isolateTarget {t : StepTarget} (h : s.actsQuietly t) : (isolateTarget t s).sweep = s.sweep := by
  unfold isolateTarget
  rcases h with h | ⟨n, rfl⟩
  · split
    · exact sweep_isolate _ _ h
    · split
      · exact sweep_isolate _ _ h
      · exact bump_sweep ..
    · rfl
  · rfl

theorem outstanding_haltSweep (s : State) : (haltSweep s).sweep.outstanding = s.sweep.outstanding := by
  rw [haltSweep, sweep_raise, modSweep_sweep]

/-- A step found after a change at its number was there before. -/
theorem step_of_modify {w : Sweep} {n : Nat} {f : SweepStep → SweepStep} {x : SweepStep}
    (h : ({ w with steps := w.steps.modify (n - 1) f } : Sweep).step n = some x) :
    ∃ y, w.step n = some y ∧ f y = x := by
  unfold Sweep.step at h ⊢
  split at h
  · cases h
  · next hn =>
    rw [if_neg hn]
    simpa using h

theorem outstanding_failAction {x : SweepStep} (h : s.actsQuietly x.target) :
    (failAction x s).sweep.outstanding = s.sweep.outstanding := by
  have counted : (bump (.sweep x.action.counter) s).sweep = s.sweep := bump_sweep ..
  have same : ∀ {t : State}, t.sweep = (bump (.sweep x.action.counter) s).sweep →
      t.sweep.outstanding = s.sweep.outstanding := fun e => congrArg Sweep.outstanding (e.trans counted)
  unfold failAction
  dsimp only
  split
  · exact same rfl
  · exact outstanding_haltSweep _
  · refine same (sweep_isolateTarget ?_)
    rwa [State.actsQuietly, counted]
  · exact same (sweep_markSuspect ..)
  · exact same (sweep_sweepQuarantine ..)
  · exact same rfl

/-- The end of a step leaves the outstanding probe, where its fail action does. -/
theorem outstanding_endStep {n : Nat} {r : StepResult}
    (h : r = .fail → ∀ x, s.sweep.step n = some x → s.actsQuietly x.target) :
    (endStep n r s).sweep.outstanding = s.sweep.outstanding := by
  unfold endStep
  cases r with
  | pass | skipped | notRun => rfl
  | fail =>
    dsimp only
    split
    · rfl
    · next x hx =>
      split
      · refine outstanding_failAction ?_
        obtain ⟨y, hy, rfl⟩ := step_of_modify hx
        exact h rfl y hy
      · rfl

end

/-! ### A run (R177, R178, R180) -/

theorem outstanding_advance (s : State) : (advance s).sweep.outstanding = s.sweep.outstanding := by
  unfold advance
  split
  · rfl
  · rfl
  · dsimp only
    split <;> rfl

theorem outstanding_passDone (s : State) : (passDone s).sweep.outstanding = s.sweep.outstanding := by
  rw [sweep_passDone]
  split <;> rfl

/-- A step that begins leaves its probe outstanding, with no result yet. -/
theorem resultWaits_begun {n : Nat} {x : SweepStep} {s t : State} (h : beginStep n x s = (none, t)) :
    t.resultWaits = false := by
  unfold beginStep at h
  split at h
  · cases h
  · split at h <;> cases h
    rfl
  · split at h
    · cases h
    · cases h
      unfold State.resultWaits
      rw [sweep_beginEcho]

/-- A loop that a port does not run changes nothing. -/
theorem unstarted_startLoop {p : Port} {k : ProbeKind} {s t : State} (h : startLoop p k s = (false, t)) :
    t = s := by
  unfold startLoop at h
  split at h
  · cases h
  · cases h
  · split at h <;> cases h
    rfl
  · cases h
    rfl

/-- A step that ends at once changes nothing, and fails at a line only. -/
theorem ended_beginStep {n : Nat} {x : SweepStep} {r : StepResult} {s t : State}
    (h : beginStep n x s = (some r, t)) : t = s ∧ (r = .fail → ∃ l, x.target = .line l) := by
  unfold beginStep at h
  split at h
  · next l e =>
    cases h
    exact ⟨rfl, fun _ => ⟨l, e⟩⟩
  · split at h
    · cases h
    · next e =>
      cases h
      exact ⟨unstarted_startLoop e, nofun⟩
  · split at h
    · cases h
      exact ⟨rfl, nofun⟩
    · cases h

theorem resultWaits_runSteps : ∀ (fuel : Nat) {s : State}, s.resultWaits = false →
    (runSteps fuel s).resultWaits = false
  | 0, _, h => h
  | fuel + 1, s, h => by
    unfold runSteps
    split
    · exact h
    · next r _ =>
      split
      · exact (resultWaits_of_outstanding (outstanding_passDone s)).trans h
      · next x hx =>
        split
        · next e => exact resultWaits_begun e
        · next res t e =>
          obtain ⟨rfl, hline⟩ := ended_beginStep e
          refine resultWaits_runSteps fuel ?_
          have ended : (endStep r.position res t).sweep.outstanding = t.sweep.outstanding :=
            outstanding_endStep fun hres y hy => by
              obtain rfl := Option.some.inj (hy.symm.trans hx)
              exact .inr (hline hres)
          exact (resultWaits_of_outstanding ((outstanding_advance _).trans ended)).trans h

theorem resultWaits_runSweep {s : State} (h : s.resultWaits = false) : (runSweep s).resultWaits = false :=
  resultWaits_runSteps _ h

/-! ### The end of a probe (R177, R179, R180, R183) -/

theorem resultWaits_probeEnded (n : Nat) (r : StepResult) (s : State) :
    (probeEnded n r s).resultWaits = false := by
  rw [probeEnded_eq]
  have ended : (advance (endStep n r (modSweep (fun w => { w with outstanding := none }) s))).resultWaits =
      false :=
    resultWaits_of_none ((outstanding_advance _).trans (outstanding_endStep fun _ _ _ => .inl rfl))
  unfold goOn
  split
  · exact ended
  · exact resultWaits_runSweep ended

/-- Whatever has been handed, the engine has taken it when it has settled (log entry 15). -/
theorem resultWaits_settleSweep (s : State) : (settleSweep s).resultWaits = false := by
  unfold settleSweep
  split
  · exact resultWaits_probeEnded ..
  · next h =>
    unfold State.resultWaits
    split
    · next e => exact absurd e (h _ _ _)
    · rfl

theorem resultWaits_echoTimeout {s : State} (h : s.resultWaits = false) :
    (echoTimeout s).resultWaits = false := by
  unfold echoTimeout
  split
  · exact resultWaits_probeEnded ..
  · exact h

theorem resultWaits_intervalExpiry {s : State} (h : s.resultWaits = false) :
    (intervalExpiry s).resultWaits = false := by
  unfold intervalExpiry
  split
  · dsimp only
    split
    · exact h
    · split
      · exact h
      · exact resultWaits_runSweep h
  · exact h

/-! ### The sweep requests (R182 to R184) -/

theorem outstanding_abandonProbe (s : State) : (abandonProbe s).sweep.outstanding = none := by
  unfold abandonProbe
  split
  · next h => exact h
  · rfl
  · dsimp only
    split
    · split
      · exact congrArg Sweep.outstanding (sweep_stopLoop ..)
      · rfl
    · rfl

theorem resultWaits_stopSweep (s : State) : (stopSweep s).resultWaits = false := by
  have abandoned := outstanding_abandonProbe s
  have ended : (match s.sweep.run, s.sweep.outstanding with
      | some r, some _ => endStep r.position .notRun (abandonProbe s)
      | _, _ => abandonProbe s).sweep.outstanding = none := by
    split
    · exact (outstanding_endStep fun h => by cases h).trans abandoned
    · exact abandoned
  exact resultWaits_of_none ended

theorem resultWaits_resumeSweep {s : State} (h : s.resultWaits = false) :
    (resumeSweep s).resultWaits = false := by
  unfold resumeSweep
  split
  · exact resultWaits_runSweep h
  · exact h

section
variable {s : State} (h : s.resultWaits = false)
include h

theorem resultWaits_carryLoadSteps (ts : List StepGiven) :
    (carryLoadSteps ts s).state.resultWaits = false := by
  unfold carryLoadSteps
  split
  · exact h
  · split
    · exact h
    · split
      · exact h
      · split
        · exact h
        · exact h

theorem resultWaits_carryStartSweep (given : Option Nat) :
    (carryStartSweep given s).state.resultWaits = false := by
  unfold carryStartSweep
  dsimp only
  split
  · exact h
  · split
    · exact h
    · exact resultWaits_runSweep h

theorem resultWaits_carryRunStep (k : Nat) : (carryRunStep k s).state.resultWaits = false := by
  unfold carryRunStep
  split
  · exact h
  · split
    · exact h
    · exact resultWaits_runSweep h

end

end Sys2Proof.Machine

/-! No loop's result waits between the commands. -/

namespace Sys2Proof.Machine

/-! ### Requests that leave the sweep engine alone (R187) -/

section
variable {s : State}

theorem sweep_onJob (slot : Nat) {f : Job → Carried} (hf : ∀ j, (f j).state.sweep = s.sweep) :
    (onJob slot s f).state.sweep = s.sweep := by
  unfold onJob
  split
  · rfl
  · split
    · rfl
    · exact hf _

theorem sweep_onLine (line : Byte) {f : Line → Carried} (hf : ∀ n, (f n).state.sweep = s.sweep) :
    (onLine line s f).state.sweep = s.sweep := by
  unfold onLine
  split
  · rfl
  · exact hf _

end

theorem sweep_carryEdits (count : Nat) (edits : List Edit) (s : State) :
    (carryEdits count edits s).state.sweep = s.sweep := by
  unfold carryEdits
  split
  · rfl
  · split
    · rfl
    · next x => exact sweep_runBatch x

theorem sweep_carryReadEntries (side : Side) (start count : Nat) (s : State) :
    (carryReadEntries side start count s).state.sweep = s.sweep := by
  unfold carryReadEntries
  split <;> rfl

theorem sweep_carryFindEntry (side d : Side) (v : Nat) (s : State) :
    (carryFindEntry side d v s).state.sweep = s.sweep := by
  unfold carryFindEntry
  split
  · rfl
  · split <;> rfl

theorem sweep_carryReadJobs (side : Side) (start count : Nat) (s : State) :
    (carryReadJobs side start count s).state.sweep = s.sweep := by
  unfold carryReadJobs
  split <;> rfl

theorem sweep_carryMoveJob (slot : Nat) (target level : Byte) (s : State) :
    (carryMoveJob slot target level s).state.sweep = s.sweep := by
  unfold carryMoveJob
  split
  · rfl
  · refine sweep_onJob slot fun j => ?_
    split
    · exact sweep_moveJob ..
    · rfl

theorem sweep_carryFlush (s : State) : (carryFlush s).state.sweep = s.sweep := sweep_flushSlots ..

theorem sweep_carrySetLine (line : Byte) (enable : Option Bool) (mode : Byte) (mask : Option (BitVec 4))
    (s : State) : (carrySetLine line enable mode mask s).state.sweep = s.sweep := by
  refine sweep_onLine line fun n => ?_
  split
  · rfl
  · split
    · rfl
    · exact sweep_applySetLine ..

theorem sweep_carryResetLine (n : Line) (s : State) : (carryResetLine n s).state.sweep = s.sweep := by
  unfold carryResetLine
  split
  · rfl
  · exact sweep_resetTaken ..

theorem sweep_carryRotateLine (line level : Byte) (s : State) :
    (carryRotateLine line level s).state.sweep = s.sweep := by
  refine sweep_onLine line fun n => ?_
  split
  · rfl
  · exact sweep_rotateTo ..

theorem sweep_carrySetEventMask (mask : BitVec 16) (s : State) :
    (carrySetEventMask mask s).state.sweep = s.sweep := by
  have counted : ∀ (fs : List Flag) (u : State),
      (fs.foldl (fun s _ => becomeCounting raiseLowInNotice s) u).sweep = u.sweep := by
    intro fs
    induction fs with
    | nil => exact fun _ => rfl
    | cons f fs ih => exact fun u => (ih _).trans (sweep_becomeCounting u)
  exact counted ..

theorem sweep_carryReadCounters (side : Side) (group : Nat) (clear : Bool) (s : State) :
    (carryReadCounters side group clear s).state.sweep = s.sweep := by
  unfold carryReadCounters
  split
  · rfl
  · exact sweep_ite (sweep_clearCounts ..) rfl

theorem sweep_carrySetConfig (count : Nat) (gs : List SettingGiven) (s : State) :
    (carrySetConfig count gs s).state.sweep = s.sweep := by
  unfold carrySetConfig
  split
  · rfl
  · split
    · rfl
    · split <;> rfl

/-! ### Commands (R187, log entries 2 and 15) -/

theorem sweep_whenActive {f : State → State} {s : State} (hf : (f s).sweep = s.sweep) :
    (whenActive f s).sweep = s.sweep := sweep_ite hf rfl

theorem sweep_changeInput (n : Line) (now level : Bool) (put : LineState → LineState)
    (bad : Option StallCause) (s : State) : (changeInput n now level put bad s).sweep = s.sweep :=
  sweep_ite rfl ((sweep_whenActive (sweep_inputChanged ..)).trans (modLine_sweep ..))

theorem sweep_takeMalformed (s : State) : (takeMalformed s).sweep = s.sweep := by
  unfold takeMalformed
  split
  · rfl
  · split
    · rfl
    · exact (endCurrent_sweep _).trans ((sweep_sendReply ..).trans (becomeCurrent_sweep ..))

section
variable {s : State} (h : s.resultWaits = false)
include h

theorem resultWaits_kept {t : State} (e : t.sweep = s.sweep) : t.resultWaits = false :=
  (resultWaits_of_sweep e).trans h

theorem resultWaits_whenActive {f : State → State} (hf : (f s).resultWaits = false) :
    (whenActive f s).resultWaits = false := by
  unfold whenActive
  split
  · exact hf
  · exact h

theorem resultWaits_takeCall {α : Type} {want : Call → Option α} {work : Request → α → State → State}
    (hwork : ∀ (q : Request) (a : α) (t : State), t.resultWaits = false → (work q a t).resultWaits = false) :
    (takeCall want work s).resultWaits = false := by
  unfold takeCall
  split
  · exact h
  · next q rest _ =>
    split
    · exact h
    · split
      · exact h
      · next a _ =>
        have current : (becomeCurrent q rest s).resultWaits = false :=
          resultWaits_kept h (becomeCurrent_sweep ..)
        refine (resultWaits_of_sweep (endCurrent_sweep _)).trans ?_
        split
        · exact resultWaits_kept current (sweep_sendReply ..)
        · exact hwork q a _ current

theorem resultWaits_carry {α : Type} {want : Call → Option α} {work : Side → α → State → Carried}
    (hwork : ∀ (d : Side) (a : α) (t : State), t.resultWaits = false →
      (work d a t).state.resultWaits = false) :
    (carry want work s).resultWaits = false :=
  resultWaits_takeCall h fun q a t ht => resultWaits_kept (hwork q.side a t ht) (sweep_sendReply ..)

/-- A request that leaves the sweep as it is. -/
theorem resultWaits_carry_kept {α : Type} {want : Call → Option α} {work : Side → α → State → Carried}
    (hwork : ∀ (d : Side) (a : α) (t : State), (work d a t).state.sweep = t.sweep) :
    (whenActive (carry want work) s).resultWaits = false :=
  resultWaits_whenActive h (resultWaits_carry h fun d a t ht => resultWaits_kept ht (hwork d a t))

/-- A request whose loop the sweep engine has taken before its reply. -/
theorem resultWaits_carry_settled {α : Type} {want : Call → Option α} {work : Side → α → State → Carried} :
    (whenActive (carry want fun d a s => (work d a s).settled) s).resultWaits = false :=
  resultWaits_whenActive h (resultWaits_carry h fun _ _ _ _ => resultWaits_settleSweep _)

theorem resultWaits_imageLoadEnd (r : ImageRead) : (imageLoadEnd r s).resultWaits = false := by
  have put : ∀ (d : Load) {u : State}, u.sweep = s.sweep → (putInForce d u).resultWaits = false :=
    fun d u e => (resultWaits_of_outstanding (outstanding_putInForce d u)).trans (resultWaits_kept h e)
  have nothing : ∀ fault, (loadNothing fault s).resultWaits = false := fun fault => by
    unfold loadNothing
    dsimp only
    split
    · exact resultWaits_kept (put _ rfl) (sweep_raise ..)
    · exact put _ rfl
  have image : ∀ bs, (loadImage bs s).resultWaits = false := fun bs => by
    have loaded := sweep_loadEntries (inIndexOrder ((imageEntries bs).filterMap id))
      (s, (imageEntries bs).any Option.isNone)
    unfold loadImage
    dsimp only
    split
    · exact resultWaits_kept (put _ loaded) (sweep_raise ..)
    · exact put _ loaded
  unfold imageLoadEnd
  split
  · split
    · exact nothing _
    · exact nothing _
    · split
      · exact image _
      · exact nothing _
  · exact h

/-- A millisecond hands the engine nothing. -/
theorem resultWaits_tick : (tick s).resultWaits = false := by
  have outstanding : (tick s).sweep.outstanding = s.sweep.outstanding.map Probe.tick := by
    unfold tick msTick
    split <;> rfl
  unfold State.resultWaits at h ⊢
  rw [outstanding]
  match hs : s.sweep.outstanding with
  | none | some (.echo ..) | some (.loop _ _ none) => rfl
  | some (.loop _ _ (some _)) => simp [hs] at h

end

/-! ### Power and reset (R17, R185) -/

theorem resultWaits_resetBlocks (s : State) : (resetBlocks s).resultWaits = false := rfl

theorem sweep_release (s : State) : (release s).sweep = s.sweep :=
  (sweep_reportSignals .li1 _).trans (sweep_reportSignals .li0 _)

section
variable {s : State} (h : s.resultWaits = false)
include h

theorem resultWaits_powerOn : (powerOn s).resultWaits = false := by
  unfold powerOn
  split
  · exact h
  · dsimp only
    split
    · rfl
    · exact resultWaits_kept (resultWaits_resetBlocks _) (sweep_release _)

theorem resultWaits_resetAssert : (resetAssert s).resultWaits = false := by
  unfold resetAssert
  split
  · exact h
  · split
    · rfl
    · exact h

theorem resultWaits_resetRelease : (resetRelease s).resultWaits = false := by
  unfold resetRelease
  split
  · split
    · exact resultWaits_kept (resultWaits_resetBlocks _) (sweep_release _)
    · exact h
  · exact h

theorem resultWaits_powerLoss : (powerLoss s).resultWaits = false := by
  unfold powerLoss
  split
  · rfl
  · exact h

end

end Sys2Proof.Machine

/-! The statement on the results that wait, command by command. -/

namespace Sys2Proof.Machine

section
variable {s : State} (h : s.resultWaits = false)
include h

/-- A command that leaves the sweep as it is while the blocks act. -/
theorem resultWaits_acts {f : State → State} (e : (f s).sweep = s.sweep) :
    (whenActive f s).resultWaits = false :=
  resultWaits_whenActive h (resultWaits_kept h e)

/-- A command at whose end the sweep engine takes what it has been handed (log entry 15). -/
theorem resultWaits_settles {f : State → State} :
    (whenActive (fun s => settleSweep (f s)) s).resultWaits = false :=
  resultWaits_whenActive h (resultWaits_settleSweep _)

theorem resultWaits_ite {c : Prop} [Decidable c] {t : State} (ht : t.resultWaits = false) :
    (if c then t else s).resultWaits = false := by
  split
  · exact ht
  · exact h

/-- No command leaves a loop's result waiting. -/
theorem resultWaits_exec (c : Instr) : ∃ t, exec c s = .next t ∧ t.resultWaits = false := by
  cases c with
  | powerOn => exact ⟨_, rfl, resultWaits_powerOn h⟩
  | resetAssert => exact ⟨_, rfl, resultWaits_resetAssert h⟩
  | resetRelease => exact ⟨_, rfl, resultWaits_resetRelease h⟩
  | powerLoss => exact ⟨_, rfl, resultWaits_powerLoss h⟩
  | imageLoadEnd r => exact ⟨_, rfl, resultWaits_whenActive h (resultWaits_imageLoadEnd h r)⟩
  | saveComplete r => exact ⟨_, rfl, resultWaits_acts h (sweep_saveComplete ..)⟩
  -- The segments and the links.
  | carrierRise x =>
    exact ⟨_, rfl, resultWaits_kept h
      (sweep_ite rfl ((sweep_whenActive (sweep_carrierRise ..)).trans (modSeg_sweep ..)))⟩
  | coaxByte x b => exact ⟨_, rfl, resultWaits_acts h (sweep_ite rfl (sweep_takeSegByte ..))⟩
  | carrierFall x =>
    exact ⟨_, rfl, resultWaits_ite h (resultWaits_settles (resultWaits_kept h (modSeg_sweep ..)))⟩
  | segmentTakeFrame x => exact ⟨_, rfl, resultWaits_acts h (sweep_segmentTake ..)⟩
  | deferQuiet x => exact ⟨_, rfl, resultWaits_acts h (sweep_deferQuiet ..)⟩
  | retryWaitExpiry x => exact ⟨_, rfl, resultWaits_acts h (sweep_retryExpiry ..)⟩
  | signalPresent l =>
    exact ⟨_, rfl, resultWaits_kept h
      ((sweep_whenActive (sweep_signalPresent ..)).trans (modLink_sweep ..))⟩
  | signalLost l => exact ⟨_, rfl, resultWaits_settles (resultWaits_kept h (modLink_sweep ..))⟩
  | retrainPauseExpiry l => exact ⟨_, rfl, resultWaits_acts h (sweep_pauseExpiry ..)⟩
  | trained l => exact ⟨_, rfl, resultWaits_acts h (sweep_trained ..)⟩
  | trainingTimeout l => exact ⟨_, rfl, resultWaits_acts h (sweep_trainingTimeout ..)⟩
  | linkByte l b => exact ⟨_, rfl, resultWaits_acts h (sweep_linkByte ..)⟩
  | linkTakeFrame l => exact ⟨_, rfl, resultWaits_acts h (sweep_linkTake ..)⟩
  | gapExpiry l => exact ⟨_, rfl, resultWaits_acts h (sweep_gapExpiry ..)⟩
  | clockHoldExpiry i => exact ⟨_, rfl, resultWaits_acts h (sweep_clockHoldExpiry ..)⟩
  | segmentSent x | collision x | stuck x | stuckHeld x | unterminated x =>
    exact ⟨_, rfl, resultWaits_settles h⟩
  | frameStart l | symbolError l | frameEnd l | linkSent l | clockLoss l =>
    exact ⟨_, rfl, resultWaits_settles h⟩
  -- The forwarding engine, the directory and the fault monitor.
  | takeFrame p commission =>
    exact ⟨_, rfl, resultWaits_settles (s := { s with commission := commission }) (resultWaits_kept h rfl)⟩
  | arrivalTimeout => exact ⟨_, rfl, resultWaits_acts h (sweep_arrivalSecond ..)⟩
  | aging => exact ⟨_, rfl, resultWaits_acts h (sweep_ageSecond ..)⟩
  | setStation _ | setAlias _ | delete _ | setRights _ _ _ | release _ | quarantine _ =>
    exact ⟨_, rfl, resultWaits_acts h (sweep_takeEdit ..)⟩
  | windowExpiry => exact ⟨_, rfl, resultWaits_acts h (sweep_ite (sweep_windowExpiry ..) rfl)⟩
  | minuteExpiry => exact ⟨_, rfl, resultWaits_acts h (sweep_atEach sweep_minuteStation ..)⟩
  -- The printer lines.
  | ackPulse n => exact ⟨_, rfl, resultWaits_acts h (sweep_ackPulse ..)⟩
  | ackTimeout n => exact ⟨_, rfl, resultWaits_acts h (sweep_ackTimeout ..)⟩
  | selectChange n level | paperOutChange n level | faultChange n level | busyChange n level =>
    exact ⟨_, rfl, resultWaits_kept h (sweep_changeInput ..)⟩
  | busyLimitExpiry n => exact ⟨_, rfl, resultWaits_acts h (sweep_busyLimit ..)⟩
  | stallRetryExpiry n => exact ⟨_, rfl, resultWaits_acts h (sweep_ite (sweep_resume ..) rfl)⟩
  | initPulseEnd n => exact ⟨_, rfl, resultWaits_acts h (sweep_initPulseEnd ..)⟩
  -- The ports and the sweep engine.
  | testFrameTimer p => exact ⟨_, rfl, resultWaits_settles h⟩
  | testFrameRetry p => exact ⟨_, rfl, resultWaits_acts h (sweep_frameRetry ..)⟩
  | holdTimerExpiry p => exact ⟨_, rfl, resultWaits_acts h (sweep_holdExpiry ..)⟩
  | intervalExpiry => exact ⟨_, rfl, resultWaits_whenActive h (resultWaits_intervalExpiry h)⟩
  | echoTimerExpiry => exact ⟨_, rfl, resultWaits_whenActive h (resultWaits_echoTimeout h)⟩
  -- The requests that act at the sweep engine.
  | setPort | restartPort | restartInterface => exact ⟨_, rfl, resultWaits_carry_settled h⟩
  | loadSteps =>
    exact ⟨_, rfl, resultWaits_whenActive h
      (resultWaits_carry h fun _ ts _ ht => resultWaits_carryLoadSteps ht ts)⟩
  | startSweep =>
    exact ⟨_, rfl, resultWaits_whenActive h
      (resultWaits_carry h fun _ v _ ht => resultWaits_carryStartSweep ht v)⟩
  | stopSweep =>
    exact ⟨_, rfl, resultWaits_whenActive h
      (resultWaits_resumeSweep (resultWaits_carry h fun _ _ t _ => resultWaits_stopSweep t))⟩
  | runStep =>
    exact ⟨_, rfl, resultWaits_whenActive h
      (resultWaits_carry h fun _ k _ ht => resultWaits_carryRunStep ht k)⟩
  | clearAll =>
    exact ⟨_, rfl, resultWaits_whenActive h (resultWaits_takeCall h fun q _ t _ =>
      resultWaits_of_none (congrArg Sweep.outstanding (sweep_clearAll q t)))⟩
  -- The requests that leave it as it is.
  | editEntries => exact ⟨_, rfl, resultWaits_carry_kept h fun _ a t => sweep_carryEdits a.1 a.2 t⟩
  | purgeLearned => exact ⟨_, rfl, resultWaits_carry_kept h fun _ _ t => sweep_purgeLearned t⟩
  | readEntries =>
    exact ⟨_, rfl, resultWaits_carry_kept h fun d a t => sweep_carryReadEntries d a.1 a.2 t⟩
  | findEntry =>
    exact ⟨_, rfl, resultWaits_carry_kept h fun d a t => sweep_carryFindEntry d a.1 a.2 t⟩
  | readJobs =>
    exact ⟨_, rfl, resultWaits_carry_kept h fun d a t => sweep_carryReadJobs d a.1 a.2 t⟩
  | readUnknownLog | readPorts | readSweep | readEvents | readConfig =>
    exact ⟨_, rfl, resultWaits_carry_kept h fun _ _ _ => rfl⟩
  | holdJob =>
    exact ⟨_, rfl, resultWaits_carry_kept h fun _ k t =>
      sweep_onJob k fun j => sweep_holdJob k j t⟩
  | releaseJob =>
    exact ⟨_, rfl, resultWaits_carry_kept h fun _ k t =>
      sweep_onJob k fun j => sweep_releaseJob k j t⟩
  | cancelJob =>
    exact ⟨_, rfl, resultWaits_carry_kept h fun _ k t =>
      sweep_onJob k fun _ => sweep_askEnd k .cancelledManager t⟩
  | moveJob =>
    exact ⟨_, rfl, resultWaits_carry_kept h fun _ a t => sweep_carryMoveJob a.1 a.2.1 a.2.2 t⟩
  | flushSpool => exact ⟨_, rfl, resultWaits_carry_kept h fun _ _ t => sweep_carryFlush t⟩
  | setLine =>
    exact ⟨_, rfl, resultWaits_carry_kept h fun _ a t =>
      sweep_carrySetLine a.1 a.2.1 a.2.2.1 a.2.2.2 t⟩
  | resetLine => exact ⟨_, rfl, resultWaits_carry_kept h fun _ n t => sweep_carryResetLine n t⟩
  | resumeLine =>
    exact ⟨_, rfl, resultWaits_carry_kept h fun _ n t => sweep_onLine n fun m => sweep_resume m t⟩
  | rotateLine =>
    exact ⟨_, rfl, resultWaits_carry_kept h fun _ a t => sweep_carryRotateLine a.1 a.2 t⟩
  | peekNext => exact ⟨_, rfl, resultWaits_carry_kept h fun _ n _ => sweep_onLine n fun _ => rfl⟩
  | setEventMask =>
    exact ⟨_, rfl, resultWaits_carry_kept h fun _ m t => sweep_carrySetEventMask m t⟩
  | readCounters =>
    exact ⟨_, rfl, resultWaits_carry_kept h fun d a t => sweep_carryReadCounters d a.1 a.2 t⟩
  | setConfig =>
    exact ⟨_, rfl, resultWaits_carry_kept h fun _ a t => sweep_carrySetConfig a.1 a.2 t⟩
  | saveImage =>
    exact ⟨_, rfl, resultWaits_whenActive h (resultWaits_takeCall h fun _ _ _ ht => ht)⟩
  | malformedRequestTaken => exact ⟨_, rfl, resultWaits_acts h (sweep_takeMalformed ..)⟩

end

/-- Settles O59, command by command: every probe's end, every request and every tick leaves no result. -/
theorem noResultWaitsBetweenSteps : Obligations.NoResultWaitsBetweenSteps := by
  unfold Obligations.NoResultWaitsBetweenSteps
  intro s t h x
  unfold step at x
  split at x
  · cases x
    exact resultWaits_whenActive h (resultWaits_tick h)
  · next c rest _ =>
    obtain ⟨u, e, hu⟩ := resultWaits_exec (s := { s with pending := rest }) (resultWaits_kept h rfl) c
    cases e.symm.trans x
    exact hu

end Sys2Proof.Machine

/-! Raised flags: the NOTICE that one makes, loses or withholds, and ATTN. -/

namespace Sys2Proof.Machine

/-! ### ATTN (R190) -/

theorem attn_iff (s : State) : s.attn = true ↔ ∃ g, s.raised g = true ∧ s.masked g = true := by
  have bits : s.flags &&& s.mask ≠ 0 ↔ ∃ i, i < 16 ∧ (s.flags &&& s.mask).getLsbD i = true := by
    rw [ne_eq, BitVec.eq_of_getLsbD_eq_iff]
    simp
  rw [State.attn, decide_eq_true_eq, bits]
  constructor
  · rintro ⟨i, hi, hbit⟩
    have hflag : (Flag.all[i]'hi).bit = i := by interval_cases i <;> rfl
    exact ⟨Flag.all[i], by simpa [State.raised, State.masked, hflag] using hbit⟩
  · rintro ⟨g, hraised, hmasked⟩
    exact ⟨g.bit, flag_bit_lt g, (BitVec.getLsbD_and ..).trans (by
      rw [show s.flags.getLsbD g.bit = true from hraised, show s.mask.getLsbD g.bit = true from hmasked]
      rfl)⟩

/-! ### What a raise comes to (R190, R191) -/

section
variable {f : Flag} {s : State}

/-- A raise that makes no NOTICE only marks its flag. -/
theorem raise_of_silent (hf : s.raised f = false)
    (h : s.masked f = false ∨ s.noticeOut = true ∨ s.config.notice = none) : raise f s = setFlag f s := by
  unfold raise raiseWith
  rw [if_neg (by simp [hf])]
  dsimp only
  split
  · next hm =>
    have hm' : s.masked f ≠ false := by simpa using (show s.masked f = true from hm)
    exact becomeCounting_silent _ (s := setFlag f s) (h.resolve_left hm').symm
  · rfl

/-- A flag that becomes counting makes a NOTICE where none is outstanding. -/
theorem raise_of_counting (hf : s.raised f = false) (hm : s.masked f = true) (ho : s.noticeOut = false) :
    raise f s = makeNoticeWith raiseLowInNotice (setFlag f s) := by
  have hm' : (setFlag f s).masked f = true := hm
  have ho' : (setFlag f s).noticeOut = false := ho
  simp only [raise, raiseWith, becomeCounting, hf, hm', ho', if_true, Bool.false_eq_true, if_false]

end

section
variable {low : State → State} {s w : State} {k d : Key} {p : Port}

theorem makeNoticeWith_of_no_route (hk : s.config.notice = some k) (hr : s.route k = none) :
    makeNoticeWith low s = bump (.mgmt .noticeNoRoute) s := by
  simp only [makeNoticeWith, hk, hr]

theorem makeNoticeWith_of_joined (hk : s.config.notice = some k) (hr : s.route k = some (p, d))
    (h : sendOwnWith low p d kindNotice (noticePayload p.side s) s = (.joined, w)) :
    makeNoticeWith low s = bump (.mgmt .noticesSent) { w with noticeOut := true } := by
  simp only [makeNoticeWith, hk, hr, h]

theorem makeNoticeWith_of_lost {r : OwnResult} (hk : s.config.notice = some k)
    (hr : s.route k = some (p, d))
    (h : sendOwnWith low p d kindNotice (noticePayload p.side s) s = (r, w)) (hlost : r ≠ .joined) :
    makeNoticeWith low s = bump (.mgmt .noticeLost) w := by
  cases r <;> simp_all [makeNoticeWith]

end

/-! ### A frame of one block that the part makes (R35, R42, R43) -/

/-- The state after a frame of one block that the part makes has joined its port's queue. -/
def ownJoined (p : Port) (d : Key) (k : Byte) (bs : List Byte) (s : State) : State :=
  releaseRef s.nextRecord (bump (.queue p .joined) (addRef s.nextRecord { newRecord 1 bs s with
    queues := s.queues.set p (s.queues.get p ++ [ownEntry p d k bs.length s.nextRecord]) }))

/-- The state after the queue of an unreachable port has refused such a frame. -/
def ownRefused (p : Port) (bs : List Byte) (s : State) : State :=
  releaseRef s.nextRecord (bump (.queue p .refusedUnreachable) (newRecord 1 bs s))

section
variable {low : State → State} {p : Port} {d : Key} {k : Byte} {bs : List Byte} {s : State}
  (hn : max 1 (blocksFor bs.length) = 1)
include hn

/-- With no block free the pool refuses the frame's record. -/
theorem sendOwnWith_of_no_block (hfree : s.pool.free = 0) :
    sendOwnWith low p d k bs s = (.noRecord, bump (.pool .ownFrameLost) s) := by
  simp [sendOwnWith, ownRecordWith, hn, hfree]

variable (hfree : s.pool.free ≠ 0) (hlow : s.pool.free ≠ s.config.poolLow)
include hfree hlow

/-- A take that does not fall through the pool-low threshold makes the record and nothing else. -/
theorem ownRecordWith_of_block :
    ownRecordWith low bs s = (some s.nextRecord, newRecord 1 bs s) := by
  have hfell : fellLow s.pool.free (newRecord 1 bs s) = false :=
    (fellLow_take (s := s) (t := newRecord 1 bs s) rfl rfl (Nat.pos_of_ne_zero hfree)).trans
      (decide_eq_false hlow)
  unfold ownRecordWith
  dsimp only
  rw [hn, if_neg (by omega), hfell]
  rfl

theorem sendOwnWith_of_unjudged
    (h : judgeOffer p (ownEntry p d k bs.length s.nextRecord) (newRecord 1 bs s) = none) :
    sendOwnWith low p d k bs s = (.joined, ownJoined p d k bs s) := by
  simp only [sendOwnWith, ownRecordWith_of_block hn hfree hlow, offer_of_unjudged h]
  rfl

theorem sendOwnWith_of_unreachable (h : s.unreachable p) :
    sendOwnWith low p d k bs s = (.refused, ownRefused p bs s) := by
  have hjudged := judgeOffer_unreachable (s := newRecord 1 bs s) (ownEntry p d k bs.length s.nextRecord) h
  simp only [sendOwnWith, ownRecordWith_of_block hn hfree hlow, offer_of_judged hjudged]
  rfl

end

theorem distinctBlocks_congr {s t : State} : ∀ {rs : List Nat}, (∀ r ∈ rs, t.blocksOf r = s.blocksOf r) →
    distinctBlocks t rs = distinctBlocks s rs
  | [], _ => rfl
  | r :: rs, h => by
    rw [distinctBlocks, distinctBlocks, h r List.mem_cons_self,
      distinctBlocks_congr fun r' hr' => h r' (List.mem_cons_of_mem r hr')]

theorem blocksOf_newRecord (n : Nat) (bs : List Byte) (s : State) (r : Nat) :
    (newRecord n bs s).blocksOf r = if s.nextRecord = r then n else s.blocksOf r := by
  rw [State.blocksOf, newRecord_records, Table.find_put]
  by_cases h : s.nextRecord = r
  · rw [if_pos h, if_pos h]
  · rw [if_neg h, if_neg h]
    rfl

/-- A new record fits a queue that names it already, or whose quota has room for its blocks (R42). -/
theorem fits_newRecord {n : Nat} {p : Port} {s : State} (bs : List Byte)
    (h : s.quotaUse p + n ≤ s.config.quota.get p) : (newRecord n bs s).fits p s.nextRecord = true := by
  rw [← Bool.not_eq_false, fits_eq_false_iff]
  rintro ⟨hfresh, hfull⟩
  have huse : (newRecord n bs s).quotaUse p = s.quotaUse p := by
    refine distinctBlocks_congr fun r hr => ?_
    obtain ⟨e, he, rfl⟩ := List.mem_map.1 hr
    rw [blocksOf_newRecord, if_neg (hfresh e he).symm]
  rw [huse, blocksOf_newRecord, if_pos rfl] at hfull
  exact absurd h (not_le_of_gt hfull)

theorem find_newRecord (n : Nat) (bs : List Byte) (s : State) :
    (newRecord n bs s).records.find s.nextRecord = some ⟨n, bs, 1⟩ := by
  simp [Table.find_put]

/-- A frame of one block joins the queue of a port in service that has a place and quota for it. -/
theorem judgeOffer_own {p : Port} {d : Key} {k : Byte} {bs : List Byte} {s : State}
    (hreach : s.serviceOf p = .inService ∨ s.serviceOf p = .probing) (hbs : bs.length ≤ 1010)
    (hplace : (s.queues.get p).length < 64) (hquota : s.quotaUse p + 1 ≤ s.config.quota.get p) :
    judgeOffer p (ownEntry p d k bs.length s.nextRecord) (newRecord 1 bs s) = none := by
  have hreach' : ¬ ((newRecord 1 bs s).serviceOf p ≠ .inService ∧
      (newRecord 1 bs s).serviceOf p ≠ .probing) := fun ⟨hin, hprobing⟩ => hreach.elim hin hprobing
  have hpayload : (newRecord 1 bs s).payload s.nextRecord = bs := payload_of_find (find_newRecord 1 bs s)
  have hfits := fits_newRecord bs hquota
  rw [judgeOffer_eq, if_neg hreach', if_neg (by simp [QueueEntry.barredIn, ownEntry]), if_neg, if_neg]
  · simpa [ownEntry, hfits] using hplace
  · rintro ⟨-, hlong⟩
    exact absurd hlong (by simpa [ownEntry, hpayload] using hbs)

theorem ownJoined_queues (p : Port) (d : Key) (k : Byte) (bs : List Byte) (s : State) :
    (ownJoined p d k bs s).queues.get p =
      s.queues.get p ++ [ownEntry p d k bs.length s.nextRecord] := by
  simp [ownJoined]

/-- A release of a record that is still held leaves its payload (R37). -/
theorem payload_releaseRef_of_held {rid : Nat} {r : FrameRecord} {s : State}
    (h : s.records.find rid = some r) (hr : 1 < r.refs) : (releaseRef rid s).payload rid = r.payload := by
  rw [releaseRef_of_find h, if_neg (by omega)]
  exact payload_of_find (f := { r with refs := r.refs - 1 }) (by simp [Table.find_put])

/-- The maker's release leaves the record to the queue. -/
theorem payload_ownJoined (p : Port) (d : Key) (k : Byte) (bs : List Byte) (s : State) :
    (ownJoined p d k bs s).payload s.nextRecord = bs := by
  refine payload_releaseRef_of_held (r := ⟨1, bs, 2⟩) ?_ (Nat.lt_succ_self 1)
  simp [addRef, Table.find_put]

theorem count_ownJoined {c : Counter} {p : Port} (hc : ∀ k, Counter.queue p k ≠ c) (d : Key) (k : Byte)
    (bs : List Byte) (s : State) : (ownJoined p d k bs s).count c = s.count c := by
  rw [ownJoined, count_releaseRef, count_bump_other (hc _), count_addRef]
  rfl

theorem count_ownRefused {c : Counter} {p : Port} (hc : ∀ k, Counter.queue p k ≠ c) (bs : List Byte)
    (s : State) : (ownRefused p bs s).count c = s.count c := by
  rw [ownRefused, count_releaseRef, count_bump_other (hc _)]
  rfl

/-! ### The statement -/

section
variable {f : Flag} {s : State} {k d : Key} {p : Port} (hf : s.raised f = false) (hm : s.masked f = true)
  (ho : s.noticeOut = false) (hk : s.config.notice = some k)
include hf hm ho hk

theorem raise_of_no_route (hr : s.route k = none) :
    raise f s = bump (.mgmt .noticeNoRoute) (setFlag f s) := by
  rw [raise_of_counting hf hm ho]
  exact makeNoticeWith_of_no_route (s := setFlag f s) hk hr

variable (hr : s.route k = some (p, d))
include hr

/-- The pool refuses the NOTICE its record. -/
theorem raise_of_no_block (hfree : s.pool.free = 0) :
    raise f s = bump (.mgmt .noticeLost) (bump (.pool .ownFrameLost) (setFlag f s)) := by
  rw [raise_of_counting hf hm ho]
  exact makeNoticeWith_of_lost (s := setFlag f s) hk hr
    (sendOwnWith_of_no_block (by rw [noticePayload_length]; rfl) hfree) (by simp)

variable (hfree : s.pool.free ≠ 0) (hlow : s.pool.free ≠ s.config.poolLow)
include hfree hlow

/-- The NOTICE joins its port's queue. -/
theorem raise_of_joined (hreach : s.serviceOf p = .inService ∨ s.serviceOf p = .probing)
    (hplace : (s.queues.get p).length < 64) (hquota : s.quotaUse p + 1 ≤ s.config.quota.get p) :
    raise f s = bump (.mgmt .noticesSent) { ownJoined p d kindNotice (noticePayload p.side (setFlag f s))
      (setFlag f s) with noticeOut := true } := by
  have huse : (setFlag f s).quotaUse p = s.quotaUse p := distinctBlocks_congr fun _ _ => rfl
  have hjudged := judgeOffer_own (s := setFlag f s) (d := d) (k := kindNotice)
    (bs := noticePayload p.side (setFlag f s)) hreach (by rw [noticePayload_length]; decide) hplace
    (huse ▸ hquota)
  rw [raise_of_counting hf hm ho]
  exact makeNoticeWith_of_joined (s := setFlag f s) hk hr
    (sendOwnWith_of_unjudged (by rw [noticePayload_length]; rfl) hfree hlow hjudged)

/-- The queue of an unreachable port refuses the NOTICE. -/
theorem raise_of_unreachable (h : s.unreachable p) :
    raise f s = bump (.mgmt .noticeLost)
      (ownRefused p (noticePayload p.side (setFlag f s)) (setFlag f s)) := by
  rw [raise_of_counting hf hm ho]
  exact makeNoticeWith_of_lost (s := setFlag f s) hk hr
    (sendOwnWith_of_unreachable (by rw [noticePayload_length]; rfl) hfree hlow h) (by simp)

end

/-- Settles O21: what a raise marks, and the NOTICE it makes, case by case. -/
theorem raisedFlagsCountAndNotify : Obligations.RaisedFlagsCountAndNotify := by
  intro f s
  refine ⟨fun h => if_pos h, raised_raise f s, fun g hgf hgl => ?_, raise_of_silent,
    fun k hf hm ho hk => raise_of_no_route hf hm ho hk,
    fun k p d hf hm ho hk => raise_of_no_block hf hm ho hk,
    fun k p d hf hm ho hk hr hfree hlow _ => ⟨fun hreach hplace hquota => ?_, fun hin hprobing => ?_⟩,
    attn_iff s⟩
  · obtain ⟨kept, gained⟩ := gainsFlags_raise f s g
    exact Bool.eq_iff_iff.2 ⟨fun h => (gained h).resolve_right (by simp [hgf, hgl]), kept⟩
  · rw [raise_of_joined hf hm ho hk hr hfree hlow hreach hplace hquota]
    refine ⟨rfl, (ownJoined_queues ..).trans ?_, payload_ownJoined .., ?_⟩
    · rw [noticePayload_length]
      rfl
    · rw [count_bump, if_pos rfl]
      exact congrArg (fun n => min _ (n + 1)) (count_ownJoined (by simp) ..)
  · rw [raise_of_unreachable hf hm ho hk hr hfree hlow ⟨hin, hprobing⟩]
    refine ⟨?_, ?_, ?_⟩
    · simpa [ownRefused] using ho
    · simp [ownRefused, setFlag]
    · rw [count_bump, if_pos rfl, count_ownRefused (by simp)]
      rfl

end Sys2Proof.Machine

/-! The reply to a request: its frame, and the counter it meets. -/

namespace Sys2Proof.Machine

/-! ### A reply is sent or lost (R188) -/

theorem service_of_same {s t : State} (h : sameButFrames s t) : t.service = s.service := by
  obtain ⟨-, -, -, -, -, -, -, -, -, -, -, -, -, -, -, -, -, -, -, -, -, hservice, -⟩ :=
    sameButFrames_fields h
  exact hservice

/-- What became of a reply's frame, and the state after it. -/
def replyMade (q : Request) (st : Status) (results : List Byte) (s : State) : OwnResult × State :=
  sendOwn q.port q.source kindMgmtReply (replyPayload q st results) (countStatus st s)

section
variable {q : Request} {st : Status} {results : List Byte} {s : State}

theorem sendReply_of_joined (h : (replyMade q st results s).1 = .joined) :
    sendReply q st results s = bump (.mgmt .repliesSent) (replyMade q st results s).2 := by
  rw [replyMade] at h ⊢
  unfold sendReply
  split <;> next e => simp_all

theorem sendReply_of_lost (h : (replyMade q st results s).1 ≠ .joined) :
    sendReply q st results s = bump (.mgmt .replyLost) (replyMade q st results s).2 := by
  rw [replyMade] at h ⊢
  unfold sendReply
  split <;> next e => simp_all

theorem count_countStatus {c : Counter} (hm : c ≠ .mgmt .malformed) (hb : c ≠ .mgmt .busyRefused) :
    (countStatus st s).count c = s.count c := by
  unfold countStatus
  split
  · exact count_bump_other hm.symm s
  · exact count_bump_other hb.symm s
  · rfl

theorem count_replyMade {c : Counter} (hc : c.noticed = false) (hm : c ≠ .mgmt .malformed)
    (hb : c ≠ .mgmt .busyRefused) : (replyMade q st results s).2.count c = s.count c :=
  (count_sendOwn hc ..).trans (count_countStatus hm hb)

/-- A reply to a port out of service joins no queue. -/
theorem replyMade_unreachable (h : s.unreachable q.port) : (replyMade q st results s).1 ≠ .joined :=
  sendOwn_unreachable ((unreachable_of_service (service_of_same (countStatus_same st s)) _).2 h) _ _ _

theorem count_answered (c : Counter) :
    (answered q st results s).count c = (sendReply q st results s).count c :=
  count_of_counters c (endCurrent_counters ..)

end

/-- Settles O41: the reply's frame joins its queue or is lost, and nothing else than frames is touched. -/
theorem answeringTouchesFramesOnly : Obligations.AnsweringTouchesFramesOnly := by
  intro q st results s t
  have sentBefore : (replyMade q st results s).2.count (.mgmt .repliesSent) = s.count (.mgmt .repliesSent) :=
    count_replyMade rfl (by simp) (by simp)
  have lostBefore : (replyMade q st results s).2.count (.mgmt .replyLost) = s.count (.mgmt .replyLost) :=
    count_replyMade rfl (by simp) (by simp)
  refine ⟨?_, fun hs hl => ?_, fun hin hprobing => ?_⟩
  · exact congrArg (fun v : State => { v with current := none }) (sendReply_same q st results s)
  · rw [count_answered, count_answered]
    by_cases joined : (replyMade q st results s).1 = .joined
    · rw [sendReply_of_joined joined, count_bump, if_pos rfl, count_bump_other (by simp), sentBefore,
        lostBefore, Nat.min_eq_right hs]
      omega
    · rw [sendReply_of_lost joined, count_bump_other (by simp), count_bump, if_pos rfl, sentBefore,
        lostBefore, Nat.min_eq_right hl]
      omega
  · rw [count_answered, sendReply_of_lost (replyMade_unreachable ⟨hin, hprobing⟩), count_bump, if_pos rfl,
      lostBefore]

end Sys2Proof.Machine

/-! SET-CONFIG, SAVE-IMAGE, the requests during a save, and the save's end. -/

namespace Sys2Proof.Machine

/-! ### SET-CONFIG (R189) -/

theorem firstFailing_append {α : Type} {ok : α → Bool} {g : α} (hg : ok g = false) (after : List α) :
    ∀ {before : List α} {k : Nat}, (∀ a ∈ before, ok a = true) →
      firstFailing ok k (before ++ g :: after) = some (before.length + k)
  | [], k, _ => by simp [firstFailing, hg]
  | a :: before, k, h => by
    rw [List.cons_append, firstFailing, if_pos (h a List.mem_cons_self),
      firstFailing_append hg after fun b hb => h b (List.mem_cons_of_mem a hb), List.length_cons]
    congr 1
    omega

section
variable {s : State} {q : Request} {rest : List Request} {n : Nat} {gs : List SettingGiven}

theorem exec_setConfig (h : s.headIs q rest (.setConfig n gs)) :
    exec .setConfig s = .next ((carrySetConfig n gs (becomeCurrent q rest s)).answer q) :=
  congrArg Host.Outcome.next (carry_at h _ _ (a := (n, gs)) rfl)

variable (hn : 1 ≤ n ∧ n ≤ 24) (hr : firstRepeated 1 [] gs = none)
include hn hr

theorem carrySetConfig_of_ok (h : ∀ g ∈ gs, s.settingOk g = true) :
    carrySetConfig n gs s = .done { s with config := gs.foldl Settings.give s.config } := by
  simp [carrySetConfig, within_iff.2 hn, hr, firstFailing_of_all h]

theorem carrySetConfig_of_failing {before after : List SettingGiven} {g : SettingGiven}
    (hgs : gs = before ++ g :: after) (h : ∀ d ∈ before, s.settingOk d = true) (hg : s.settingOk g = false) :
    carrySetConfig n gs s = .refuseAt .range (before.length + 1) s := by
  have failing : firstFailing s.settingOk 1 gs = some (before.length + 1) :=
    hgs ▸ firstFailing_append hg after h
  simp [carrySetConfig, within_iff.2 hn, hr, failing]

end

/-- A plain parameter given is the value in force (R189). -/
theorem param_give (c : Settings) {code v : Nat} (b : Byte) (h9 : code ≠ 9) (h22 : code ≠ 22)
    (h : paramInRange code v = true) : (c.give ⟨code, b, v⟩).param code = v := by
  rw [Settings.give, if_neg h22, if_neg h9, Settings.param_put c h h9, if_pos rfl]

/-! ### SAVE-IMAGE and the requests during a save (R187, R195) -/

/-- SAVE-IMAGE takes the snapshot and leaves its reply to the save's end. -/
theorem exec_saveImage {s : State} {q : Request} {rest : List Request} (h : s.headIs q rest .saveImage) :
    exec .saveImage s =
      .next { becomeCurrent q rest s with current := none, save := some ⟨q, s.image⟩ } := by
  obtain ⟨hactive, hrequests, hread, hsave⟩ := h
  have hsave' : s.save = none := hsave.resolve_right (by simp [Call.isRead])
  refine congrArg Host.Outcome.next ?_
  rw [whenActive_of_active _ hactive]
  simp only [takeCall, hrequests, hread, becomeCurrent_save, hsave', Option.isSome_none, Bool.false_eq_true,
    false_and, if_false]
  rfl

/-- A request that is no read request is refused BUSY during a save, that of SAVE-IMAGE or CLEAR-ALL too,
whose work makes its own answer. -/
theorem takeCall_busy {α : Type} {s : State} {q : Request} {rest : List Request} {c : Call}
    (hrequests : s.requests = q :: rest) (hread : readRequest q = .call c) (hc : c.isRead = false)
    (hsave : s.save.isSome = true) {want : Call → Option α} (work : Request → α → State → State) {a : α}
    (hwant : want c = some a) : takeCall want work s = answered q .busy [] (becomeCurrent q rest s) := by
  have hbusy : (becomeCurrent q rest s).save.isSome = true ∧ c.isRead = false := ⟨hsave, hc⟩
  simp only [takeCall, hrequests, hread, hwant]
  rw [if_pos hbusy]
  rfl

/-- A command does no more than to take a request. -/
def takesOnly (i : Instr) (c : Call) : Prop :=
  ∃ (α : Type) (want : Call → Option α) (work : Request → α → State → State) (a : α),
    (∀ s, exec i s = .next (whenActive (takeCall want work) s)) ∧ want c = some a

/-- Every request's command takes it; after STOP-SWEEP's a step that it held back may begin (log entry 47). -/
theorem takesOnly_command (c : Call) (hc : c ≠ .stopSweep) : takesOnly c.command c := by
  cases c with
  | stopSweep => exact absurd rfl hc
  | _ => exact ⟨_, _, _, _, fun _ => rfl, rfl⟩

section
variable {s : State} {q : Request} {rest : List Request} {c : Call} (hactive : s.active = true)
  (hrequests : s.requests = q :: rest) (hread : readRequest q = .call c) (hc : c.isRead = false)
  (hsave : s.save.isSome = true)
include hactive hrequests hread hc hsave

theorem exec_busy (h : c ≠ .stopSweep) :
    exec c.command s = .next (answered q .busy [] (becomeCurrent q rest s)) := by
  obtain ⟨_, _, work, _, takes, hwant⟩ := takesOnly_command c h
  rw [takes, whenActive_of_active _ hactive, takeCall_busy hrequests hread hc hsave work hwant]

theorem exec_stopSweep_busy (h : c = .stopSweep) :
    exec .stopSweep s = .next (resumeSweep (answered q .busy [] (becomeCurrent q rest s))) := by
  subst h
  refine congrArg Host.Outcome.next ?_
  rw [whenActive_of_active _ hactive]
  refine congrArg resumeSweep (takeCall_busy (a := ()) hrequests hread hc hsave _ ?_)
  rfl

end

/-! ### The save's end (R195) -/

section
variable {s : State} {v : Save} (hactive : s.active = true) (hsave : s.save = some v)
include hactive hsave

theorem exec_saveComplete_written : exec (.saveComplete .written) s = .next (sendReply v.request .done [1]
    (bump (.mgmt .savesDone) { s with save := none, serial := s.serial.written v.image })) := by
  refine congrArg Host.Outcome.next ?_
  rw [whenActive_of_active _ hactive, saveComplete, hsave]

theorem exec_saveComplete_failed (n : Nat) : exec (.saveComplete (.failed n)) s =
    .next (sendReply v.request .done ([2] ++ v.request.side.word n)
      (raise .imageFault (bump (.mgmt .savesFailed) { s with save := none, serial := .failedSave }))) := by
  refine congrArg Host.Outcome.next ?_
  rw [whenActive_of_active _ hactive, saveComplete, hsave]

end

/-- Settles O44, request by request and end by end. -/
theorem configurationAndImageRequests : Obligations.ConfigurationAndImageRequests := by
  refine ⟨fun s q rest => ?_, fun s v n hactive hsave => ⟨exec_saveComplete_written hactive hsave,
    exec_saveComplete_failed hactive hsave n, rfl⟩⟩
  refine ⟨fun n gs h hmin hmax hrepeated => ⟨fun hok => ?_, fun before g after hgs hbefore hg => ?_⟩,
    fun c code v b h9 h22 h => param_give c b h9 h22 h, exec_saveImage,
    fun c hactive hrequests hread hc hsave => ?_⟩
  · rw [exec_setConfig h, carrySetConfig_of_ok (s := becomeCurrent q rest s) ⟨hmin, hmax⟩ hrepeated hok]
    rfl
  · rw [exec_setConfig h, carrySetConfig_of_failing (s := becomeCurrent q rest s) ⟨hmin, hmax⟩ hrepeated hgs
      hbefore hg]
    rfl
  · dsimp only
    split
    · next h =>
      rw [h]
      exact exec_stopSweep_busy hactive hrequests hread hc hsave h
    · next h => exact exec_busy hactive hrequests hread hc hsave h

end Sys2Proof.Machine
